-- ==== Sys2Proof/Word.lean ====
section
/-! DEFINITION. Sys2Proof/Word.lean: the words of the machine (spec/00_scope.md R1, spec/08_numbers.md R154). -/
namespace Sys2Proof

/-- A byte of memory. -/
abbrev Byte := BitVec 8
/-- A scalar register, a counter, an address (R50, R111). -/
abbrev Word := BitVec 64
/-- A vector register, a port element, a 128-byte line (R54, R56). -/
abbrev Line := BitVec 1024
/-- A mask register (R55). -/
abbrev MaskW := BitVec 128

end Sys2Proof
end

