-- ==== Sys2Proof/Machine/Cells.lean ====
section
/-! DEFINITION. Sys2Proof/Machine/Cells.lean: sparse tables in one canonical form. A table lists keys in rising
order and never lists a key at the default value, so that equal tables are equal lists. Memory is such a table. -/
namespace Sys2Proof

/-- A sparse table: key and value pairs, keys strictly rising. The default value of an unlisted key is an argument
of every reader and writer. -/
structure Cells (α : Type) where
  list : List (Nat × α)
deriving DecidableEq, Repr

/-- The table that lists nothing. -/
def Cells.empty {α : Type} : Cells α := ⟨[]⟩

/-- The value listed at a key. -/
def findCell {α : Type} : List (Nat × α) → Nat → Option α
  | [], _ => none
  | (k', v) :: t, k => if k' = k then some v else findCell t k

/-- The value at a key: the listed one, or the default `d`. -/
def Cells.get {α : Type} (d : α) (m : Cells α) (k : Nat) : α := (findCell m.list k).getD d

/-- Remove a key. -/
def dropCell {α : Type} : List (Nat × α) → Nat → List (Nat × α)
  | [], _ => []
  | (k', v) :: t, k => if k' = k then dropCell t k else (k', v) :: dropCell t k

/-- Put a value at a key that is not listed, keeping the keys rising. -/
def putCell {α : Type} : List (Nat × α) → Nat → α → List (Nat × α)
  | [], k, v => [(k, v)]
  | (k', v') :: t, k, v => if k < k' then (k, v) :: (k', v') :: t else (k', v') :: putCell t k v

/-- Write a value: writing the default removes the entry. -/
def Cells.set {α : Type} [DecidableEq α] (d : α) (m : Cells α) (k : Nat) (v : α) : Cells α :=
  if v = d then ⟨dropCell m.list k⟩ else ⟨putCell (dropCell m.list k) k v⟩

/-- Apply a function to the value at a key. -/
def Cells.modify {α : Type} [DecidableEq α] (d : α) (m : Cells α) (k : Nat) (f : α → α) : Cells α :=
  m.set d k (f (m.get d k))

/-- The canonical form of a list: keys strictly rising above `lo` and no value at the default. -/
def canonFrom {α : Type} [DecidableEq α] (d : α) : Nat → List (Nat × α) → Bool
  | _, [] => true
  | lo, (k, v) :: t => decide (lo ≤ k) && decide (v ≠ d) && canonFrom d (k + 1) t

/-- The canonical form of a table. -/
def Cells.wf {α : Type} [DecidableEq α] (d : α) (m : Cells α) : Bool := canonFrom d 0 m.list

/-- The listed keys. -/
def Cells.keys {α : Type} (m : Cells α) : List Nat := m.list.map (·.1)

/-- Memory: (address, byte) pairs; an unlisted address reads as zero (log 2). -/
abbrev Memory := Cells Byte

/-- A byte of memory. -/
def Memory.read (m : Memory) (a : Nat) : Byte := Cells.get 0 m a
/-- Write a byte of memory. -/
def Memory.write (m : Memory) (a : Nat) (b : Byte) : Memory := Cells.set 0 m a b
/-- The canonical form of memory: addresses strictly rising, no entry equal to zero. -/
def Memory.wf (m : Memory) : Bool := Cells.wf 0 m

end Sys2Proof
end

