-- ==== Sys2Proof/Syntax.lean ====
section
/-! DEFINITION. Sys2Proof/Syntax.lean: the steps of the device as syntax: the 256 opcodes of R92
(spec/04_encoding.md) with their operands, and the 116 device events of spec/opcode_table.json with what they carry. -/
namespace Sys2Proof

/-! Registers (R74): a class and an index. -/
/-- Index of a scalar register s0 to s31. -/
abbrev SReg := BitVec 5
/-- Index of a vector register v0 to v31. -/
abbrev VReg := BitVec 5
/-- Index of a mask register m0 to m7. -/
abbrev MReg := BitVec 3
/-- Index of a port register q0 to q7. -/
abbrev QReg := BitVec 3
/-- Index of a trigger counter k0 to k63. -/
abbrev KReg := BitVec 6

/-- A scalar position that takes class s or q (R334). -/
inductive SQ where
  | s (r : SReg)
  | q (r : QReg)
deriving DecidableEq, Repr

/-- A vector position that takes class v or q (R410). -/
inductive VQ where
  | v (r : VReg)
  | q (r : QReg)
deriving DecidableEq, Repr

/-- The mask fields of FA: register, complement, zeroing (R55, R75). -/
structure VMask where
  m : MReg
  n : Bool
  z : Bool
deriving DecidableEq, Repr

/-- The mask fields of FL, or of FA without zeroing (R78). -/
structure LMask where
  m : MReg
  n : Bool
deriving DecidableEq, Repr

/-- Element types (R83). -/
inductive ElemTy where
  | i8 | i16 | i32 | i64 | n8 | n16 | n32 | n64 | bf16 | f16 | f32 | f64 | e4m3 | e5m2 | e2m1
deriving DecidableEq, Repr

/-- Rounding codes (R84). -/
inductive Rm where
  | rne | rtz | rdn | rup | rna | rsr
deriving DecidableEq, Repr

/-- Overflow modes (R85). -/
inductive Om where
  | ovf | sat | trap
deriving DecidableEq, Repr

/-- Integer conditions (R82). -/
inductive ICond where
  | eq | ne | lt | ge | ltu | geu | le | gt | leu | gtu
deriving DecidableEq, Repr

/-- Float conditions (R82). -/
inductive FCond where
  | eq | ne | lt | ge | uo | ord | le | gt
deriving DecidableEq, Repr

/-- Branches on a mask (R82). -/
inductive MCond where
  | any | all | none
deriving DecidableEq, Repr

/-- Scopes (R88, R136). -/
inductive Scope where
  | context | core | chiplet | panel | pod
deriving DecidableEq, Repr

/-- Orderings ord 0 to 4 (R86). -/
inductive Ord where
  | plain | acq | rel | ar | sc
deriving DecidableEq, Repr

/-- Modes of a synchronising load (R86, R369). -/
inductive LdfMode where
  | wf | wfse | se
deriving DecidableEq, Repr

/-- Modes of a synchronising store (R86, R402). -/
inductive StfMode where
  | wesf | sf
deriving DecidableEq, Repr

/-- Access size of a scalar load (R87, codes 0 to 6). -/
inductive LdSz where
  | n8 | n16 | n32 | n64 | i8 | i16 | i32
deriving DecidableEq, Repr

/-- Access size of a scalar store (R87, codes 0 to 3). -/
inductive StSz where
  | n8 | n16 | n32 | n64
deriving DecidableEq, Repr

/-- Element width of an indexed or strided vector access (R87, codes 0 to 2). -/
inductive EW where
  | b8 | b16 | b32
deriving DecidableEq, Repr

/-- Field width of `stn` (R403). -/
inductive NW where
  | bit4 | bit2 | bit1
deriving DecidableEq, Repr

/-- Operand formats (R89). -/
inductive Fmt where
  | bf16 | f16 | e4m3 | e5m2 | mx8e4 | mx8e5 | mx4 | i8 | n8 | e2m1
deriving DecidableEq, Repr

/-- Atomic operations (R337). -/
inductive AmoOp where
  | add | and | or | xor | max | min | maxu | minu | swap | cas | fadd | fmax | fmin
deriving DecidableEq, Repr

/-- Reduction operations (R428). -/
inductive RedOp where
  | sum | max | min | and | or | xor
deriving DecidableEq, Repr

/-- A memory operand of FL: base, index, scale code, displacement (R78). -/
structure Addr where
  a : SReg
  b : SReg
  scale : BitVec 2
  disp : BitVec 48
deriving DecidableEq, Repr

/-- A vector of addresses: base, index vector, scale code, displacement (R421). -/
structure XAddr where
  a : SReg
  b : VReg
  scale : BitVec 2
  disp : BitVec 48
deriving DecidableEq, Repr

/-- The index position of `vamo`: none (b = s0) or a vector (R412). -/
inductive VIdx where
  | none
  | v (r : VReg)
deriving DecidableEq, Repr

/-- The fields that every porter form shares (R195). -/
structure CpyF where
  queue : BitVec 2
  bytes : Bool
  kc : Option KReg
  d : SReg
deriving DecidableEq, Repr

/-- The fields of `mma` (R80, R378). -/
structure MmaF where
  kc : Option KReg
  swz : BitVec 2
  chk : BitVec 2
  kb : BitVec 4
  zacc : Bool
  keep : Bool
  ms : BitVec 2
  fb : Fmt
  fa : Fmt
  mc : MReg
  mr : MReg
  qb : QReg
  qa : QReg
  acc : SReg
deriving DecidableEq, Repr

/-! What messages and device events carry. -/

/-- Clock of happens-before: for each agent the last region that happens before (R137, R138). -/
abbrev Clock := Cells Nat

/-- A context of a launch on a logical core: the source or the target of a message. -/
structure Who where
  core : Nat
  ctx : Nat
  launch : Nat
deriving DecidableEq, Repr

/-- What performs an access for a group: a context, a porter queue, a fired operation, a task fetch (R134). -/
inductive Engine where
  | context
  | porter (queue : Nat)
  | fired
  | task
deriving DecidableEq, Repr

/-- The agent of an access (R134): whose it is, its number and region, its tenant, what happens before it, the panel it acts
from; for an engine the agent and region of its issuer that happen before it (R137 rule 4). -/
structure Actor where
  who : Who
  engine : Engine
  agent : Nat
  region : Nat
  tenant : Nat
  tgen : Nat
  clock : Clock
  issuer : Nat × Nat
  panel : Nat
deriving DecidableEq, Repr

/-- A release: what it makes visible, and the scope and place it acts from (R136); `more` holds what later release fences of
narrower scopes have made visible besides (R137 rule 3). -/
structure Rel where
  clock : Clock
  scope : Scope
  panel : Nat
  core : Nat
  more : List (Scope × Clock) := []
deriving DecidableEq, Repr

/-- Where a 128-byte line lives (R111): a physical address, a vault of a logical chiplet, a scratchpad at its physical
offset (R120), or a peer scratchpad (or its counter aliases) at a partition offset, which the owner resolves (R114).
Each holds the byte offset of the line. -/
inductive Place where
  | phys (pa : Nat)
  | vault (panel chip off : Nat)
  | scratch (panel core off : Nat)
  | peer (panel core off : Nat)
deriving DecidableEq, Repr

/-- One line of an access: its place, the virtual address of its first byte, the bytes touched, their values, whether the access is
checked for conflicts (R139), and for bytes that were read the releases that their words carry (R137). -/
structure Part where
  place : Place
  va : Nat
  mask : BitVec 128
  data : Line
  checked : Bool
  rels : List (Nat × Rel) := []
deriving DecidableEq, Repr

/-- One element of an atomic: the lane, the line and byte it acts on, operand and compare operand (R338, R412). -/
structure AtomLane where
  lane : Nat
  place : Place
  byte : Nat
  va : Nat
  x : Word
  y : Word
  checked : Bool
deriving DecidableEq, Repr

/-- What a memory request asks of the home (R123, R129, R219, R338, R403, R412); `acq` is the scope of an atomic that acquires. -/
inductive MemOp where
  | fill (epoch : Nat) (parts : List Part)
  | load (parts : List Part)
  | store (parts : List Part)
  | atomic (op : AmoOp) (bytes : Nat) (acq : Option Scope) (lanes : List AtomLane)
  | fired (op bytes : Nat) (acq : Bool) (lanes : List AtomLane)
  | nibble (part : Part) (byte pos width : Nat) (v : Byte)
  | setLine (parts : List Part) (full : Bool)
  | maint (inv : Bool) (parts : List Part)
deriving DecidableEq, Repr

/-- A memory request (R227, R230 class 0): its agent, its number, the operation, its class for conflict detection
(R139), whether the requester goes on, the release it carries, and the consecutive refusals so far. -/
structure MemMsg where
  actor : Actor
  id : Nat
  op : MemOp
  sync : Bool
  posted : Bool
  rel : Option Rel
  tries : Nat
deriving DecidableEq, Repr

/-- A synchronising access to a line (R237): an `ldf` or an `stf`, or an ordinary load that waits (R117); `acq` is the scope
at which it acquires (R135). -/
structure SyncMsg where
  actor : Actor
  id : Nat
  part : Part
  load : Option LdfMode
  store : Option StfMode
  acq : Option Scope
  rel : Option Rel
  tries : Nat
deriving DecidableEq, Repr

/-- An access that waits out a back-off before it is sent again (R237): a synchronising access, or one to an absent partition
(R114). -/
inductive Retry where
  | sync (m : SyncMsg)
  | mem (m : MemMsg)
deriving DecidableEq, Repr

/-- The agent of an access that waits out a back-off. -/
def Retry.actor : Retry → Actor
  | .sync m => m.actor
  | .mem m => m.actor

/-- What a panel tells a home (R249, R250): a requester has its data, a copy is gone, or a forward found no copy. -/
inductive CohAck where
  | granted | gone | noCopy
deriving DecidableEq, Repr

/-- The answer to a request; `waited` is the data of an ordinary load that found its line empty (R117). -/
inductive Answer where
  | data (parts : List Part) (rels : List Rel)
  | waited (parts : List Part) (rels : List Rel)
  | old (lanes : List (Nat × Word)) (rels : List Rel)
  | ack (rel : Option Rel)
  | refused (tval : Word)
  | conflict (tval : Word)
  | poisoned (tval : Word)
  | unreachable (tval : Word)
  | missing (tval : Word)
  | outside (tval : Word)
  | cancelled
deriving DecidableEq, Repr

/-- A reply on the reply network (R230 class 1): to whom, for which request, for which engine, for a fill the
core epoch to stamp (R122), and the endpoint that answers (R228). -/
structure Reply where
  who : Who
  id : Nat
  engine : Engine
  tgen : Nat
  ans : Answer
  fillEpoch : Option Nat
  posted : Bool
  src : Nat
deriving DecidableEq, Repr

/-- An element in a channel or a local queue: data, end marker, or drain marker (R56, R59). -/
inductive Elem where
  | data (v : Line) (rel : Option Rel)
  | finish (rel : Option Rel)
  | drain (ctr : Option KReg) (rel : Option Rel)
deriving DecidableEq, Repr

/-- A deposit (R62). -/
structure Deposit where
  src : Who
  name : Word
  ctx : Nat
  reg : VReg
  val : Line
  high : Bool
  kc : Option KReg
  tenant : Nat
  tgen : Nat
  rel : Rel
deriving DecidableEq, Repr

/-- A refused deposit, or a refused wake, on its way back: the counter that was named, and the event to count: 7 deposit
refused, 8 dead name, 9 wake refused (R40, R63, R65, R277). -/
structure Nack where
  dst : Who
  kc : Option KReg
  event : Nat
deriving DecidableEq, Repr

/-- A wake (R434). -/
structure Wake where
  src : Who
  name : Word
  ctx : Nat
  tenant : Nat
  rel : Rel
  tgen : Nat := 0
deriving DecidableEq, Repr

/-- A spawn request (R399); `fired` for a crier's (R218). -/
structure Spawn where
  src : Who
  name : Word
  pc : Word
  args : List Word
  tenant : Nat
  fired : Bool
  rel : Rel
  tgen : Nat := 0
deriving DecidableEq, Repr

/-- The answer to a spawn. -/
inductive SpawnAns where
  | accepted | refused | deadName
deriving DecidableEq, Repr

/-- A spawn reply (R399). -/
structure SpawnReply where
  dst : Who
  fired : Bool
  name : Word
  ans : SpawnAns
deriving DecidableEq, Repr

/-- A channel element on its way to a core (R56). -/
structure ChanMsg where
  src : Who
  core : Nat
  chan : Nat
  elem : Elem
  tgen : Nat := 0
deriving DecidableEq, Repr

/-- What reaches a channel's writer side: slots returned, or a drain acknowledged (R57, R59). -/
structure DrainAck where
  core : Nat
  launch : Nat
  chan : Option Nat
  lq : Option Nat
  ctr : Option KReg
  slots : Nat
  drained : Bool
deriving DecidableEq, Repr

/-- An increment of a trigger counter (R213). `launch` 0 takes whatever launch is bound. `ack` names the core, launch
and queue of the porter command that waits for the increment (R200). -/
structure CtrInc where
  core : Nat
  launch : Nat
  ctr : KReg
  delta : Word
  rel : Option Rel
  ack : Option (Nat × Nat × Nat)
  tenant : Nat := 0
  tgen : Nat := 0
deriving DecidableEq, Repr

/-- A host request datagram (R308). `badHeader` says that a reserved field, the magic, the version or the payload
length is wrong. `src` is the IPv6 address and UDP port that completions go to. -/
structure HostReq where
  src : Nat
  badHeader : Bool
  quadrant : Nat
  op : Nat
  session : Nat
  reqNo : Nat
  tenant : Nat
  core : Nat
  ctr : BitVec 8
  addr : Word
  arg : Word
  tag : BitVec 128
  payload : List Byte
deriving DecidableEq, Repr

/-- A management register without a row of its own (R21, R127, R243, R258). -/
inductive MgmtReg where
  | cmap (chip : Nat)
  | cstate (pchip : Nat)
  | dom (i : Nat)
  | domRow (i k : Nat)
  | podrt (panel : Nat)
  | slott (chip row : Nat)
  | chipErr (chip : Nat)
deriving DecidableEq, Repr

/-- A change of the remap tables (R24): new SMAP, CMAP and CSTATE values. -/
structure Remap where
  smaps : List (Nat × BitVec 64)
  cmaps : List (Nat × BitVec 16)
  cstates : List (Nat × BitVec 2)
deriving DecidableEq, Repr

/-- A unit that an uncorrectable error hits (R290). -/
inductive ErrUnit where
  | sector (pa : Nat)
  | scratchLine (core line : Nat)
  | vaultSector (chip off : Nat)
  | l1Line (core line : Nat)
  | control (pchip site : Nat)
deriving DecidableEq, Repr

/-- A TLB miss on its way through a walk (R278): the waiting agent and the kind of its access (R285). -/
structure Walk where
  actor : Actor
  va : Word
  kind : Nat
  store : Bool
  exec : Bool
deriving DecidableEq, Repr

/-- How a walk ends (R284): the two words of an entry, or missing with demand, or missing without. -/
inductive WalkEnd where
  | entry (tag data : Word)
  | demand
  | noDemand
  | malformed
  | noPrivate
deriving DecidableEq, Repr

/-- A register whose late result is on its way (R35): a scalar by `skey`, or a vector. -/
inductive LateReg where
  | s (key : Nat)
  | v (r : VReg)
deriving DecidableEq, Repr

/-- A decode fault record: subcode, field bit, opcode (R91). -/
structure DecErr where
  sub : Nat
  bit : Nat
  op : Nat
deriving DecidableEq, Repr

/-- A link flit that carries mesh payload (R239). -/
structure LinkFlit where
  seq : Nat
  ack : Nat
  crcOk : Bool
  tagOk : Bool
deriving DecidableEq, Repr

/-- A device event (spec/opcode_table.json) with what it carries: messages in flight, commands of the management core,
host requests, units that finish. -/
inductive Event where
  -- firmware services of ecall (R132 R222 R357 R269 R288 R328)
  | domainSwitch (w : Who) (d : SReg) (addr : Word)
  | replayMarkRemoval
  | collectiveBuild (w : Who) (addr : Word)
  | collectiveRelease (w : Who) (addr : Word)
  | meterRecordService (w : Who) (d : SReg) (addr : Word)
  | pageResolve (w : Who) (d : SReg) (va : Word)
  | pageFail (w : Who) (d : SReg) (va : Word)
  | handlerTableInstall (w : Who) (d : SReg) (addr : Word)
  -- host operations (R305-R310)
  | hostOpenSession (r : HostReq)
  | hostCloseSession (r : HostReq)
  | hostIdentity (r : HostReq)
  | hostWrite (r : HostReq)
  | hostRead (r : HostReq)
  | hostNotify (r : HostReq)
  | hostRegisterTenant (r : HostReq)
  | hostDeregisterTenant (r : HostReq)
  | hostResetTenant (r : HostReq)
  | hostLoadContainer (r : HostReq)
  | hostSubmitLaunch (r : HostReq)
  | hostLaunchStatus (r : HostReq)
  | hostMeterRecord (r : HostReq)
  | hostRecablePod (r : HostReq)
  -- containers, slots, management registers, boot (R110 R258-R263 R19-R25 R115 R126 R295 R303)
  | containerForward (image chip : Nat)
  | slotBind (chip row : Nat)
  | slotSave (chip row : Nat)
  | saveWritePhase (chip row : Nat)
  | slotResume (chip row : Nat)
  | slotEvictPartition (chip row : Nat)
  | slotResetStop (chip row : Nat)
  | slotRetire (chip row : Nat)
  | smapWrite (pchip : Nat) (v : Word)
  | arrWrite (i : Nat) (v : BitVec 128)
  | vownWrite (chip page : Nat) (v : BitVec 32)
  | injctlWrite (v : Word)
  | injseedWrite (v : BitVec 32)
  | mgmtRegisterWrite (r : MgmtReg) (v : BitVec 256)
  | boot
  | recoveryImage (image : List Byte)
  | remapChange (r : Remap)
  | containment (pchip site : Nat) (routerFailed vaultReadable : Bool)
  | migration (core : Nat)
  | stubRetire (core : Nat)
  | collectiveShrink (launch id panel : Nat)
  -- scheduling, clocks (R255-R257 R299 R300)
  | quantumBoundary
  | schedulingWindowEnd
  | clockChange (chip mhz : Nat)
  | supplySagTrip (core : Nat)
  -- contexts, groups, tasks (R272 R36 R46 R34 R43-R45 R286 R278 R284)
  | trapReport (core ctx : Nat)
  | contextReady (core ctx : Nat)
  | barrierComplete (launch desc : Nat)
  | groupRetire (core : Nat)
  | taskDispatch (launch core slot : Nat)
  | taskStart (core slot : Nat)
  | taskUnpin (core slot : Nat)
  | slotLend (launch core slot : Nat)
  | pageFaultWake (w : Who) (va : Word)
  | pageWalk (w : Walk)
  | walkResult (w : Walk) (r : WalkEnd)
  -- porters, matrix unit, criers (R194 R200 R206 R179 R180 R213 R217 R218)
  | porterCommandStart (core queue : Nat)
  | porterCommandComplete (core queue : Nat)
  | chainRecordRead (core queue : Nat)
  | mmaClaimLine (core ctx : Nat)
  | mmaStart (core : Nat)
  | mmaRetire (core : Nat)
  | counterIncrement (i : CtrInc)
  | crierFire (core : Nat)
  | firedPorterCommand (core : Nat)
  | firedRemoteAtomic (core : Nat)
  | firedCounterAdd (core : Nat)
  | firedDeposit (core : Nat)
  | firedStart (core : Nat)
  | firedSpawn (core : Nat)
  | firedChannelSend (core : Nat)
  -- messages (R63 R434 R399 R56 R59 R123 R237 R238 R231 R114 R133 R245 R266 R22 R125)
  | depositArrival (m : Deposit)
  | depositNack (m : Nack)
  | wakeArrival (m : Wake)
  | spawnRequest (m : Spawn)
  | spawnReply (m : SpawnReply)
  | channelElementArrival (m : ChanMsg)
  | drainMarkerAck (m : DrainAck)
  | memoryRequest (m : MemMsg)
  | remoteSyncAccess (m : SyncMsg)
  | syncCancel (w : Who) (core : Nat)
  | replyData (m : Reply)
  | accessNack (m : SyncMsg)
  | retryBackoffExpiry (m : Retry)
  | absentAnswer (m : MemMsg)
  | replayCompletion (m : MemMsg)
  | unreachableReturn (m : MemMsg)
  | dropNotice (core : Nat)
  | reservationTimeout (tenant : Nat)
  | hopLimitDrop (pchip : Nat)
  | hbmCompletion (sector : Nat)
  -- coherence, links, errors, late results (R249 R250 R232 R239-R242 R122 R41 R290 R246 R300 R91 R35 R308)
  | readShared (panel sector : Nat)
  | readExclusive (panel sector : Nat)
  | ownerWriteBack (panel sector : Nat) (data : BitVec 512) (poison forced : Bool) (waiter : Option (Actor × Nat))
  | homePanelRequest (sector : Nat) (write : Bool)
  | coherenceForward (home sector requester : Nat) (exclusive : Bool)
  | invalidation (home sector : Nat)
  | grantAck (panel sector : Nat) (k : CohAck)
  | meshReplayRequest (pchip lane : Nat)
  | linkDataFlit (port : Nat) (f : LinkFlit)
  | linkIdleFlit (port ack : Nat)
  | linkReplayRequest (port seq : Nat)
  | linkRekeyMark (port : Nat)
  | rekey (port : Nat)
  | authFailureLimit (port : Nat)
  | allowanceReturn (port tenant net n : Nat)
  | l1EpochWrap (core : Nat)
  | followLagLimit (core ctx : Nat)
  | uncorrectableError (u : ErrUnit)
  | linkFailure (port : Nat)
  | supplySagClear (core : Nat)
  | illegalInstructionFetch (core ctx : Nat)
  | resultAvailable (core ctx : Nat) (r : LateReg)
  | hostBadRequest (r : HostReq)
deriving DecidableEq, Repr

/-- One step of the device: an instruction (R92) with its operands, or a device event (spec/opcode_table.json). What
an event carries is an `Event`, which the machine holds while it performs the step. The constructors without operands
stand last. -/
inductive Instr where
  -- 0x00-0x0F scalar integer (R335 R372 R355 R393 R385 R436 R397 R395 R374 R404)
  | add (d a b : SQ)
  | sub (d a b : SQ)
  | mul (d a b : SQ)
  | mulh (u : Bool) (d a b : SQ)
  | mad (d a b c : SQ)
  | div (u : Bool) (d a b : SQ)
  | rem (u : Bool) (d a b : SQ)
  | and (d a b : SQ)
  | or (d a b : SQ)
  | xor (d a b : SQ)
  | shl (d a b : SQ)
  | shr (d a b : SQ)
  | sra (d a b : SQ)
  | rot (d a b : SQ)
  | min (u : Bool) (d a b : SQ)
  | max (u : Bool) (d a b : SQ)
  -- 0x10-0x1F scalar immediate, bit count, compare, select (R336 R385 R397 R349 R381 R342 R348 R389 R396)
  | addi (d a : SQ) (imm : BitVec 32)
  | andi (d a : SQ) (imm : BitVec 32)
  | ori (d a : SQ) (imm : BitVec 32)
  | xori (d a : SQ) (imm : BitVec 32)
  | shli (d a : SQ) (n : BitVec 6)
  | shri (d a : SQ) (n : BitVec 6)
  | srai (d a : SQ) (n : BitVec 6)
  | cmpi (c : ICond) (d a : SQ) (imm : BitVec 32)
  | movi (d : SQ) (imm : BitVec 32)
  | bext (sg : Bool) (d a : SQ) (pos : BitVec 6) (len : BitVec 7)
  | bins (d : SReg) (a : SQ) (pos : BitVec 6) (len : BitVec 7)
  | clz (d a : SQ)
  | ctz (d a : SQ)
  | popc (d a : SQ)
  | cmp (c : ICond) (d a b : SQ)
  | sel (d a b c : SQ)
  -- 0x20-0x2F scalar float (R358 R360 R361)
  | faddF32 (rm : Rm) (sat : Bool) (d a b : SQ)
  | faddF64 (rm : Rm) (sat : Bool) (d a b : SQ)
  | fsubF32 (rm : Rm) (sat : Bool) (d a b : SQ)
  | fsubF64 (rm : Rm) (sat : Bool) (d a b : SQ)
  | fmulF32 (rm : Rm) (sat : Bool) (d a b : SQ)
  | fmulF64 (rm : Rm) (sat : Bool) (d a b : SQ)
  | ffmaF32 (rm : Rm) (sat : Bool) (d a b c : SQ)
  | ffmaF64 (rm : Rm) (sat : Bool) (d a b c : SQ)
  | fdivF32 (rm : Rm) (sat : Bool) (d a b : SQ)
  | fdivF64 (rm : Rm) (sat : Bool) (d a b : SQ)
  | fsqrtF32 (rm : Rm) (sat : Bool) (d a : SQ)
  | fsqrtF64 (rm : Rm) (sat : Bool) (d a : SQ)
  | fmin (t : ElemTy) (d a b : SQ)
  | fmax (t : ElemTy) (d a b : SQ)
  | fcmp (t : ElemTy) (c : FCond) (d a b : SQ)
  | fcvt (dt st : ElemTy) (om : Om) (rm : Rm) (d a : SQ)
  -- 0x30-0x3F control flow (R341 R343 R344 R394 R366 R371 R363 R384 R437 R435)
  | br (off : BitVec 32)
  | bcnd (c : ICond) (a b : SReg) (off : BitVec 32)
  | bmask (c : MCond) (a : MReg) (b : SReg) (off : BitVec 32)
  | call (off : BitVec 32)
  | callr (a : SReg)
  | jr (a : SReg)
  | loop (a : SReg) (off : BitVec 32)
  | halt (a : SReg)
  | brAbs (target : Word)
  -- 0x40-0x4F element-wise arithmetic (R411 R416 R423)
  | vaddI (t : ElemTy) (sat : Bool) (m : VMask) (d a b : VQ)
  | vaddF (t : ElemTy) (rm : Rm) (sat : Bool) (m : VMask) (d a b : VQ)
  | vsubI (t : ElemTy) (sat : Bool) (m : VMask) (d a b : VQ)
  | vsubF (t : ElemTy) (rm : Rm) (sat : Bool) (m : VMask) (d a b : VQ)
  | vmulI (t : ElemTy) (sat : Bool) (m : VMask) (d a b : VQ)
  | vmulF (t : ElemTy) (rm : Rm) (sat : Bool) (m : VMask) (d a b : VQ)
  | vfmaI (t : ElemTy) (sat : Bool) (m : VMask) (d a b c : VQ)
  | vfmaF (t : ElemTy) (rm : Rm) (sat : Bool) (m : VMask) (d a b c : VQ)
  | vmaxI (t : ElemTy) (m : VMask) (d a b : VQ)
  | vmaxF (t : ElemTy) (m : VMask) (d a b : VQ)
  | vminI (t : ElemTy) (m : VMask) (d a b : VQ)
  | vminF (t : ElemTy) (m : VMask) (d a b : VQ)
  | vcmpI (t : ElemTy) (c : ICond) (m : VMask) (d : MReg) (a b : VQ)
  | vcmpF (t : ElemTy) (c : FCond) (m : VMask) (d : MReg) (a b : VQ)
  | vabs (t : ElemTy) (sat : Bool) (m : VMask) (d a : VQ)
  | vneg (t : ElemTy) (sat : Bool) (m : VMask) (d a : VQ)
  -- 0x50-0x5F (R411 R424 R419 R418 R414 R425 R426 R415)
  | vdiv (t : ElemTy) (rm : Rm) (sat : Bool) (m : VMask) (d a b : VQ)
  | vsqrt (t : ElemTy) (rm : Rm) (sat : Bool) (m : VMask) (d a : VQ)
  | vrcp (t : ElemTy) (rm : Rm) (sat : Bool) (m : VMask) (d a : VQ)
  | vrsqrt (t : ElemTy) (rm : Rm) (sat : Bool) (m : VMask) (d a : VQ)
  | vexp2 (t : ElemTy) (rm : Rm) (sat : Bool) (m : VMask) (d a : VQ)
  | vlog2 (t : ElemTy) (rm : Rm) (sat : Bool) (m : VMask) (d a : VQ)
  | vdot (t : ElemTy) (rm : Rm) (sat : Bool) (m : VMask) (d a b c : VQ)
  | vand (t : ElemTy) (m : VMask) (d a b : VQ)
  | vor (t : ElemTy) (m : VMask) (d a b : VQ)
  | vxor (t : ElemTy) (m : VMask) (d a b : VQ)
  | vshl (t : ElemTy) (m : VMask) (d a b : VQ)
  | vshr (t : ElemTy) (m : VMask) (d a b : VQ)
  | vsra (t : ElemTy) (m : VMask) (d a b : VQ)
  | vsel (t : ElemTy) (m : LMask) (d a b : VQ)
  | vmov (t : ElemTy) (m : VMask) (d a : VQ)
  | vbcast (t : ElemTy) (m : VMask) (d : VQ) (a : SQ)
  -- 0x60-0x6F lane movement, reductions, conversions (R427 R428 R429 R420 R417 R430 R168 R431)
  | vperm (t : ElemTy) (m : VMask) (d a b c : VQ)
  | vredI (op : RedOp) (t : ElemTy) (m : LMask) (d : SQ) (a : VQ)
  | vredF (op : RedOp) (t : ElemTy) (rm : Rm) (sat : Bool) (m : LMask) (d : SQ) (a : VQ)
  | vscanI (op : RedOp) (t : ElemTy) (sat : Bool) (m : VMask) (d a : VQ)
  | vscanF (op : RedOp) (t : ElemTy) (rm : Rm) (sat : Bool) (m : VMask) (d a : VQ)
  | vslide (t : ElemTy) (m : VMask) (d a : VQ) (b : SReg)
  | vzip (hi uz : Bool) (t : ElemTy) (m : VMask) (d a b : VQ)
  | vext (t : ElemTy) (d : SQ) (a : VQ) (b : SReg)
  | vextImm (t : ElemTy) (d : SQ) (a : VQ) (imm : BitVec 32)
  | vins (t : ElemTy) (d : VReg) (a : SQ) (b : SReg)
  | vcvtSame (dt st : ElemTy) (om : Om) (rm : Rm) (part : BitVec 2) (m : VMask) (d a : VQ)
  | vcvtWide (dt st : ElemTy) (om : Om) (rm : Rm) (part : BitVec 2) (m : VMask) (d a : VQ)
  | vcvtNarrow (dt st : ElemTy) (om : Om) (rm : Rm) (part : BitVec 2) (m : VMask) (d a : VQ)
  | vqnt (f : Fmt) (om : Om) (rm : Rm) (part : BitVec 2) (d : VQ) (b : SReg) (a : VQ)
  | vdqnt (f : Fmt) (om : Om) (part : BitVec 2) (d a : VQ) (b : SReg)
  | vrnd (m : VMask) (d : VQ) (a : SReg)
  -- 0x70-0x7F masks (R373 R380)
  | mand (d a b : MReg)
  | mor (d a b : MReg)
  | mxor (d a b : MReg)
  | mnot (d a : MReg) (b : SReg)
  | mpopc (d : SReg) (a : MReg) (b : SReg)
  | mfirst (d : SReg) (a : MReg) (b : SReg)
  | mset (d : MReg) (a b : SReg)
  | msetN (d : MReg) (n : BitVec 32)
  | msetB8 (d : MReg) (a : VReg)
  | msetB16 (d : MReg) (a : VReg)
  | msetB32 (d : MReg) (a : VReg)
  | mmov (d a : MReg)
  | mmovS (hi : Bool) (d : SReg) (a : MReg)
  | mmovB8 (m : VMask) (d : VReg) (a : MReg)
  | mmovB16 (m : VMask) (d : VReg) (a : MReg)
  | mmovB32 (m : VMask) (d : VReg) (a : MReg)
  -- 0x80-0x8F loads and stores (R367 R400 R421 R432)
  | ld (sz : LdSz) (d : SReg) (m : Addr)
  | ldOrdered (o : Ord) (sc : Scope) (sz : LdSz) (d : SReg) (m : Addr)
  | st (sz : StSz) (d : SReg) (m : Addr)
  | stOrdered (o : Ord) (sc : Scope) (sz : StSz) (d : SReg) (m : Addr)
  | vld (k : LMask) (d : VReg) (m : Addr)
  | vldOrdered (o : Ord) (sc : Scope) (k : LMask) (d : VReg) (m : Addr)
  | vst (k : LMask) (d : VReg) (m : Addr)
  | vstOrdered (o : Ord) (sc : Scope) (k : LMask) (d : VReg) (m : Addr)
  | vldx (w : EW) (k : LMask) (d : VReg) (x : XAddr)
  | vldxOrdered (o : Ord) (sc : Scope) (w : EW) (k : LMask) (d : VReg) (x : XAddr)
  | vstx (w : EW) (k : LMask) (d : VReg) (x : XAddr)
  | vstxOrdered (o : Ord) (sc : Scope) (w : EW) (k : LMask) (d : VReg) (x : XAddr)
  | vlds (w : EW) (k : LMask) (d : VReg) (m : Addr)
  | vldsOrdered (o : Ord) (sc : Scope) (w : EW) (k : LMask) (d : VReg) (m : Addr)
  | vsts (w : EW) (k : LMask) (d : VReg) (m : Addr)
  | vstsOrdered (o : Ord) (sc : Scope) (w : EW) (k : LMask) (d : VReg) (m : Addr)
  -- 0x90-0x9F synchronising and maintenance (R369 R402 R359 R338 R412 R403 R148 R391 R346)
  | ldfS (mode : LdfMode) (sc : Scope) (sz : LdSz) (d : SReg) (m : Addr)
  | ldfV (mode : LdfMode) (sc : Scope) (k : LMask) (d : VReg) (m : Addr)
  | stfS (mode : StfMode) (sc : Scope) (sz : StSz) (d : SReg) (m : Addr)
  | stfV (mode : StfMode) (sc : Scope) (k : LMask) (d : VReg) (m : Addr)
  | fset (m : Addr)
  | fclr (m : Addr)
  | amo32 (op : AmoOp) (o : Ord) (sc : Scope) (d a : SReg) (disp : BitVec 40) (b : SReg)
  | amo64 (op : AmoOp) (o : Ord) (sc : Scope) (d a : SReg) (disp : BitVec 40) (b : SReg)
  | vamo32 (op : AmoOp) (o : Ord) (sc : Scope) (k : LMask) (d : VReg) (a : SReg) (b : VIdx) (scale : BitVec 2) (disp : BitVec 40)
  | vamo16 (op : AmoOp) (o : Ord) (sc : Scope) (k : LMask) (d : VReg) (a : SReg) (b : VIdx) (scale : BitVec 2) (disp : BitVec 40)
  | stn (w : NW) (d a b : SReg) (disp : BitVec 48)
  | fence (o : Ord) (sc : Scope)
  | pref (m : Addr)
  | prefRange (a : SReg) (disp : BitVec 48) (b : SReg)
  | cwbr (sc : Scope) (d a : SReg) (disp : BitVec 48) (b : SReg)
  | cinvr (sc : Scope) (d a : SReg) (disp : BitVec 48) (b : SReg)
  -- 0xA0-0xAF ports and execution (R387 R398 R399 R365 R340 R362 R405 R406 R347 R386 R434)
  | pbind (d : SReg) (q : QReg) (a : SReg)
  | pfree (q : QReg)
  | pstat (d : SReg) (q : QReg)
  | pclose (q : QReg)
  | pmark (q : QReg) (k : Option KReg)
  | start (d b c : SReg)
  | spawn (d a b c : SReg)
  | join (d a : SReg)
  | bar (a b : SReg) (mask : BitVec 16)
  | follow (d : SReg)
  | task (d a : SReg)
  | ckpt (d a : SReg)
  | wake (a b : SReg)
  -- 0xB0-0xBF holds, deposits, criers, counters (R364 R353 R390 R409 R351)
  | hold (d : VReg)
  | holdSet (regs : BitVec 32)
  | hclr (d : VReg)
  | depvK (hi : Bool) (a b : SReg) (c : VReg) (k : Option KReg)
  | depv (hi : Bool) (a b : SReg) (c : VReg)
  | depsK (hi : Bool) (a b c : SReg) (k : Option KReg)
  | deps (hi : Bool) (a b c : SReg)
  | post (rearm any : Bool) (n : BitVec 6) (d a b c : SReg) (k : KReg)
  | unpost (d : SReg) (n : BitVec 6)
  | ctradd (k : KReg) (a : SReg)
  | ctraddImm (k : KReg) (imm : BitVec 32)
  | ctrset (k : KReg) (a : SReg)
  | ctrsetImm (k : KReg) (imm : BitVec 32)
  | ctrget (sel : BitVec 2) (k : KReg) (d : SReg)
  | ctrwait (k : KReg) (a : SReg)
  | ctrwaitImm (k : KReg) (imm : BitVec 32)
  -- 0xC0-0xCF porters (R350 R345 R392)
  | cpy (f : CpyF) (stage : BitVec 3) (fmt swz : BitVec 4) (a b c : SReg) (imm : Word)
  | cpy2d (f : CpyF) (stage : BitVec 3) (swz : BitVec 4) (a b c e : SReg) (imm : Word)
  | cpy3d (f : CpyF) (stage : BitVec 3) (swz : BitVec 4) (a b c e : SReg)
  | cpyMc (f : CpyF) (stage : BitVec 3) (swz : BitVec 4) (a b c e : SReg) (imm : Word)
  | cpyQ (f : CpyF) (fmt : Fmt) (a : QReg) (b c e : SReg)
  | cpyQ2d (f : CpyF) (fmt : Fmt) (a : QReg) (b c e : SReg) (imm : Word)
  | cpyPl (f : CpyF) (mid : Bool) (p : BitVec 4) (a : SQ) (b c : SReg) (imm : Word)
  | cpyFill (f : CpyF) (a c : SReg) (imm : Word)
  | cpyxG (f : CpyF) (a b c e : SReg) (imm : Word)
  | cpyxS (f : CpyF) (a b c e : SReg) (imm : Word)
  | chainHead (queue : BitVec 2) (a : SReg)
  | chainApp (queue : BitVec 2)
  | qfence (mask : BitVec 4) (queue : BitVec 2)
  | qwait (queue : BitVec 2) (a : SReg)
  | qwaitImm (queue : BitVec 2) (imm : BitVec 32)
  | qstat (clr st : Bool) (queue : BitVec 2) (d : SReg)
  -- 0xD0-0xDF matrix (R378 R382 R375 R383)
  | mma16Slot0 (f : MmaF)
  | mma16Slot1 (f : MmaF)
  | mma8fSlot0 (f : MmaF)
  | mma8fSlot1 (f : MmaF)
  | mma8iSlot0 (f : MmaF)
  | mma8iSlot1 (f : MmaF)
  | mma4Slot0 (f : MmaF)
  | mma4Slot1 (f : MmaF)
  | mupl1 (imm : Word)
  | mupl2 (imm : Word)
  | mupl3 (imm : Word)
  | mchkRow (t : ElemTy) (swz : BitVec 2) (part : Bool) (m : VMask) (d : VReg) (a : SReg)
  | mchkCol (t : ElemTy) (swz : BitVec 2) (part : Bool) (m : VMask) (d : VReg) (a : SReg)
  | mzero (a : SReg)
  -- 0xE0-0xEF system (R376 R275 R274 R408 R407 R356 R296)
  | mfsr (d : SReg) (n : BitVec 12)
  | mfsrReg (d a : SReg)
  | mtsr (n : BitVec 12) (a : SReg)
  | mtsrReg (b a : SReg)
  | trap (bp : Bool) (imm : BitVec 32)
  | trapReg (bp : Bool) (a : SReg)
  | tlbw (a b : SReg)
  | tlbwRm (a b c : SReg)
  | tlbiVa (a : SReg)
  | tlbiTn (a : SReg)
  | ecall (d a : SReg) (imm : BitVec 32)
  | ecallReg (d a b : SReg)
  | injArm (d a b : SReg)
  | injOff (d : SReg)
  -- 0xF0-0xFF long immediates and absolute addresses (R381 R336 R385 R436 R344 R415 R380 R367 R400 R421 R432 R398 R399 R349)
  | movw (d : SReg) (imm : Word)
  | addiFx (d : SReg) (imm : Word)
  | andiFx (d : SReg) (imm : Word)
  | oriFx (d : SReg) (imm : Word)
  | xoriFx (d : SReg) (imm : Word)
  | callAbs (target : Word)
  | vbcastImm (d : VQ) (imm : Word)
  | msetLo (d : MReg) (imm : Word)
  | msetHi (d : MReg) (imm : Word)
  | ldAbs (d : SReg) (addr : Word)
  | stAbs (d : SReg) (addr : Word)
  | vldAbs (d : VReg) (addr : Word)
  | vstAbs (d : VReg) (addr : Word)
  | startFe (d c : SReg) (target : Word)
  | spawnFe (d a c : SReg) (target : Word)
  | cmpiFe (c : ICond) (d a : SReg) (imm : Word)
  -- instructions without operands (R394 R384 R437 R435 R366 R405 R386 R191 R274 R407)
  | ret
  | nop
  | yield
  | wspill
  | wfill
  | nopW
  | nopX
  | leave
  | tdone
  | park
  | mzeroSlot0
  | mzeroSlot1
  | rett
  | tlbiAll
  -- firmware services of ecall (R132 R222 R357 R269 R288 R328)
  | domainSwitch
  | replayMarkRemoval
  | collectiveBuild
  | collectiveRelease
  | meterRecordService
  | pageResolve
  | pageFail
  | handlerTableInstall
  -- host operations (R305-R310)
  | hostOpenSession
  | hostCloseSession
  | hostIdentity
  | hostWrite
  | hostRead
  | hostNotify
  | hostRegisterTenant
  | hostDeregisterTenant
  | hostResetTenant
  | hostLoadContainer
  | hostSubmitLaunch
  | hostLaunchStatus
  | hostMeterRecord
  | hostRecablePod
  -- containers, slots, management registers, boot (R110 R258-R263 R19-R25 R115 R126 R295 R303)
  | containerForward
  | slotBind
  | slotSave
  | saveWritePhase
  | slotResume
  | slotEvictPartition
  | slotResetStop
  | slotRetire
  | smapWrite
  | arrWrite
  | vownWrite
  | injctlWrite
  | injseedWrite
  | mgmtRegisterWrite
  | boot
  | recoveryImage
  | remapChange
  | containment
  | migration
  | stubRetire
  | collectiveShrink
  -- scheduling, clocks (R255-R257 R299 R300)
  | quantumBoundary
  | schedulingWindowEnd
  | clockChange
  | supplySagTrip
  -- contexts, groups, tasks (R272 R36 R46 R34 R43-R45 R286 R278 R284)
  | trapReport
  | contextReady
  | barrierComplete
  | groupRetire
  | taskDispatch
  | taskStart
  | taskUnpin
  | slotLend
  | pageFaultWake
  | pageWalk
  | walkResult
  -- porters, matrix unit, criers (R194 R200 R206 R179 R180 R213 R217 R218)
  | porterCommandStart
  | porterCommandComplete
  | chainRecordRead
  | mmaClaimLine
  | mmaStart
  | mmaRetire
  | counterIncrement
  | crierFire
  | firedPorterCommand
  | firedRemoteAtomic
  | firedCounterAdd
  | firedDeposit
  | firedStart
  | firedSpawn
  | firedChannelSend
  -- messages (R63 R434 R399 R56 R59 R123 R237 R238 R231 R114 R133 R245 R266 R22 R125)
  | depositArrival
  | depositNack
  | wakeArrival
  | spawnRequest
  | spawnReply
  | channelElementArrival
  | drainMarkerAck
  | memoryRequest
  | remoteSyncAccess
  | syncCancel
  | replyData
  | accessNack
  | retryBackoffExpiry
  | absentAnswer
  | replayCompletion
  | unreachableReturn
  | dropNotice
  | reservationTimeout
  | hopLimitDrop
  | hbmCompletion
  -- coherence, links, errors, late results (R249 R250 R232 R239-R242 R122 R41 R290 R246 R300 R91 R35 R308)
  | readShared
  | readExclusive
  | ownerWriteBack
  | homePanelRequest
  | coherenceForward
  | invalidation
  | grantAck
  | meshReplayRequest
  | linkDataFlit
  | linkIdleFlit
  | linkReplayRequest
  | linkRekeyMark
  | rekey
  | authFailureLimit
  | allowanceReturn
  | l1EpochWrap
  | followLagLimit
  | uncorrectableError
  | linkFailure
  | supplySagClear
  | illegalInstructionFetch
  | resultAvailable
  | hostBadRequest
deriving DecidableEq, Repr

/-- The step of the opcode table that an event is. -/
def Event.instr : Event → Instr
  | .domainSwitch _ _ _ => .domainSwitch
  | .replayMarkRemoval => .replayMarkRemoval
  | .collectiveBuild _ _ => .collectiveBuild
  | .collectiveRelease _ _ => .collectiveRelease
  | .meterRecordService _ _ _ => .meterRecordService
  | .pageResolve _ _ _ => .pageResolve
  | .pageFail _ _ _ => .pageFail
  | .handlerTableInstall _ _ _ => .handlerTableInstall
  | .hostOpenSession _ => .hostOpenSession
  | .hostCloseSession _ => .hostCloseSession
  | .hostIdentity _ => .hostIdentity
  | .hostWrite _ => .hostWrite
  | .hostRead _ => .hostRead
  | .hostNotify _ => .hostNotify
  | .hostRegisterTenant _ => .hostRegisterTenant
  | .hostDeregisterTenant _ => .hostDeregisterTenant
  | .hostResetTenant _ => .hostResetTenant
  | .hostLoadContainer _ => .hostLoadContainer
  | .hostSubmitLaunch _ => .hostSubmitLaunch
  | .hostLaunchStatus _ => .hostLaunchStatus
  | .hostMeterRecord _ => .hostMeterRecord
  | .hostRecablePod _ => .hostRecablePod
  | .containerForward _ _ => .containerForward
  | .slotBind _ _ => .slotBind
  | .slotSave _ _ => .slotSave
  | .saveWritePhase _ _ => .saveWritePhase
  | .slotResume _ _ => .slotResume
  | .slotEvictPartition _ _ => .slotEvictPartition
  | .slotResetStop _ _ => .slotResetStop
  | .slotRetire _ _ => .slotRetire
  | .smapWrite _ _ => .smapWrite
  | .arrWrite _ _ => .arrWrite
  | .vownWrite _ _ _ => .vownWrite
  | .injctlWrite _ => .injctlWrite
  | .injseedWrite _ => .injseedWrite
  | .mgmtRegisterWrite _ _ => .mgmtRegisterWrite
  | .boot => .boot
  | .recoveryImage _ => .recoveryImage
  | .remapChange _ => .remapChange
  | .containment _ _ _ _ => .containment
  | .migration _ => .migration
  | .stubRetire _ => .stubRetire
  | .collectiveShrink _ _ _ => .collectiveShrink
  | .quantumBoundary => .quantumBoundary
  | .schedulingWindowEnd => .schedulingWindowEnd
  | .clockChange _ _ => .clockChange
  | .supplySagTrip _ => .supplySagTrip
  | .trapReport _ _ => .trapReport
  | .contextReady _ _ => .contextReady
  | .barrierComplete _ _ => .barrierComplete
  | .groupRetire _ => .groupRetire
  | .taskDispatch _ _ _ => .taskDispatch
  | .taskStart _ _ => .taskStart
  | .taskUnpin _ _ => .taskUnpin
  | .slotLend _ _ _ => .slotLend
  | .pageFaultWake _ _ => .pageFaultWake
  | .pageWalk _ => .pageWalk
  | .walkResult _ _ => .walkResult
  | .porterCommandStart _ _ => .porterCommandStart
  | .porterCommandComplete _ _ => .porterCommandComplete
  | .chainRecordRead _ _ => .chainRecordRead
  | .mmaClaimLine _ _ => .mmaClaimLine
  | .mmaStart _ => .mmaStart
  | .mmaRetire _ => .mmaRetire
  | .counterIncrement _ => .counterIncrement
  | .crierFire _ => .crierFire
  | .firedPorterCommand _ => .firedPorterCommand
  | .firedRemoteAtomic _ => .firedRemoteAtomic
  | .firedCounterAdd _ => .firedCounterAdd
  | .firedDeposit _ => .firedDeposit
  | .firedStart _ => .firedStart
  | .firedSpawn _ => .firedSpawn
  | .firedChannelSend _ => .firedChannelSend
  | .depositArrival _ => .depositArrival
  | .depositNack _ => .depositNack
  | .wakeArrival _ => .wakeArrival
  | .spawnRequest _ => .spawnRequest
  | .spawnReply _ => .spawnReply
  | .channelElementArrival _ => .channelElementArrival
  | .drainMarkerAck _ => .drainMarkerAck
  | .memoryRequest _ => .memoryRequest
  | .remoteSyncAccess _ => .remoteSyncAccess
  | .syncCancel _ _ => .syncCancel
  | .replyData _ => .replyData
  | .accessNack _ => .accessNack
  | .retryBackoffExpiry _ => .retryBackoffExpiry
  | .absentAnswer _ => .absentAnswer
  | .replayCompletion _ => .replayCompletion
  | .unreachableReturn _ => .unreachableReturn
  | .dropNotice _ => .dropNotice
  | .reservationTimeout _ => .reservationTimeout
  | .hopLimitDrop _ => .hopLimitDrop
  | .hbmCompletion _ => .hbmCompletion
  | .readShared _ _ => .readShared
  | .readExclusive _ _ => .readExclusive
  | .ownerWriteBack _ _ _ _ _ _ => .ownerWriteBack
  | .homePanelRequest _ _ => .homePanelRequest
  | .coherenceForward _ _ _ _ => .coherenceForward
  | .invalidation _ _ => .invalidation
  | .grantAck _ _ _ => .grantAck
  | .meshReplayRequest _ _ => .meshReplayRequest
  | .linkDataFlit _ _ => .linkDataFlit
  | .linkIdleFlit _ _ => .linkIdleFlit
  | .linkReplayRequest _ _ => .linkReplayRequest
  | .linkRekeyMark _ => .linkRekeyMark
  | .rekey _ => .rekey
  | .authFailureLimit _ => .authFailureLimit
  | .allowanceReturn _ _ _ _ => .allowanceReturn
  | .l1EpochWrap _ => .l1EpochWrap
  | .followLagLimit _ _ => .followLagLimit
  | .uncorrectableError _ => .uncorrectableError
  | .linkFailure _ => .linkFailure
  | .supplySagClear _ => .supplySagClear
  | .illegalInstructionFetch _ _ => .illegalInstructionFetch
  | .resultAvailable _ _ _ => .resultAvailable
  | .hostBadRequest _ => .hostBadRequest

end Sys2Proof
end

