-- ==== Sys2Proof/WellFormed.lean ====
section
/-! DEFINITION. Sys2Proof/WellFormed.lean: which terms of Instr have an encoding (the operand limits of R76 and R82
to R91 that the operand types do not express), and which events name units that exist. -/
namespace Sys2Proof

/-- Types that vector integer opcodes accept (R410). -/
def ElemTy.isVInt : ElemTy → Bool
  | .i8 | .i16 | .i32 | .n8 | .n16 | .n32 => true
  | _ => false

/-- Types that vector float arithmetic accepts (R410). -/
def ElemTy.isVFlt : ElemTy → Bool
  | .bf16 | .f16 | .f32 => true
  | _ => false

/-- Types that vector lanes may have: not i64, n64, f64 (R83). -/
def ElemTy.isVec : ElemTy → Bool
  | .i64 | .n64 | .f64 => false
  | _ => true

/-- Types of the scalar float compare forms (R360). -/
def ElemTy.isSFlt : ElemTy → Bool
  | .bf16 | .f16 | .f32 | .f64 => true
  | _ => false

/-- Width of a type in bits (R83, R155). -/
def ElemTy.bits : ElemTy → Nat
  | .i8 | .n8 | .e4m3 | .e5m2 => 8
  | .i16 | .n16 | .bf16 | .f16 => 16
  | .i32 | .n32 | .f32 => 32
  | .i64 | .n64 | .f64 => 64
  | .e2m1 => 4

/-- Width of a vector lane of the type: an e2m1 element occupies 8 bits (R165). -/
def ElemTy.lane : ElemTy → Nat
  | .e2m1 => 8
  | t => t.bits

/-- The formats that carry block scales (R158). -/
def Fmt.isMx : Fmt → Bool
  | .mx8e4 | .mx8e5 | .mx4 => true
  | _ => false

/-- Special register numbers of R68. -/
def srDefined (n : Nat) : Bool :=
  (1 ≤ n && n ≤ 0x17) || (0x20 ≤ n && n ≤ 0x2F) || n == 0x40

/-- With b = s0 the scale must be 0 (R88). -/
def Addr.ok (m : Addr) : Bool := m.b != 0 || m.scale == 0

/-- Orders of the ordered loads (R86). -/
def Ord.isLd : Ord → Bool
  | .acq | .sc => true
  | _ => false
/-- Orders of the ordered stores (R86). -/
def Ord.isSt : Ord → Bool
  | .rel | .sc => true
  | _ => false

/-- A position and a length inside 64 bits (R76). -/
def fieldOk (pos : BitVec 6) (len : BitVec 7) : Bool := 1 ≤ len.toNat && pos.toNat + len.toNat ≤ 64

/-- Stage and format code of `cpy` (R195). -/
def stageOk (stage : BitVec 3) (fmt : BitVec 4) (imm : Word) : Bool :=
  if stage.toNat ≤ 2 then fmt == 0 && imm == 0
  else stage.toNat ≤ 4 && (fmt == 4 || fmt == 5 || fmt == 6)

/-- Destination swizzle in qe[3:2], held in bits [1:0] here (R195). -/
def swzOk (z : BitVec 4) : Bool := z.toNat ≤ 2

/-- The field limits of one operation word of a microprogram (R184): op, x and y defined, mbz zero, y zero under abs. -/
def muFields (w : BitVec 16) : Bool :=
  let op := (w.extractLsb' 12 4).toNat
  op ≤ 8 && (w.extractLsb' 8 3).toNat ≤ 5 && (w.extractLsb' 5 3).toNat ≤ 5 && w.extractLsb' 0 5 == 0
    && (op != 6 || w.extractLsb' 5 3 == 0)

/-- Operation word p of a microprogram (R184). -/
def muWord (imm : Word) (p : Nat) : BitVec 16 := imm.extractLsb' (16 * p) 16

/-- The reserved-field rules of R184 over the words of a microprogram, in order: after the first end every word is
zero. -/
def muWords : List (BitVec 16) → Bool
  | [] => true
  | w :: ws => muFields w && if w.extractLsb' 12 4 = 0 then ws.all (· == 0) else muWords ws

/-- The four words of a microprogram. -/
def muList (imm : Word) : List (BitVec 16) := [muWord imm 0, muWord imm 1, muWord imm 2, muWord imm 3]

/-- A microprogram that `mupl` accepts (R184): word 0 is not end. -/
def muOk (imm : Word) : Bool := muWords (muList imm) && (muWord imm 0).extractLsb' 12 4 != 0

/-- A slot row, a chiplet (R16, R258). -/
def rowOk (chip row : Nat) : Bool := chip < 256 && row < 8

/-- Condition of a part of a conversion with the ratio of its widths (R85, R165). -/
def partOk (part : BitVec 2) (wide narrow : Nat) : Bool := part.toNat * narrow < wide

/-- The well-formed instructions: those with an encoding. -/
def Instr.wf : Instr → Bool
  | .bext _ _ _ pos len | .bins _ _ pos len => fieldOk pos len
  | .fmin t _ _ _ | .fmax t _ _ _ | .fcmp t _ _ _ _ => t.isSFlt
  | .loop a _ => a != 0
  | .vaddI t _ _ _ _ _ | .vsubI t _ _ _ _ _ | .vmulI t _ _ _ _ _ | .vfmaI t _ _ _ _ _ _ => t.isVInt
  | .vaddF t _ _ _ _ _ _ | .vsubF t _ _ _ _ _ _ | .vmulF t _ _ _ _ _ _ | .vfmaF t _ _ _ _ _ _ _ => t.isVFlt
  | .vmaxI t _ _ _ _ | .vminI t _ _ _ _ | .vcmpI t _ _ _ _ _ => t.isVInt
  | .vmaxF t _ _ _ _ | .vminF t _ _ _ _ | .vcmpF t _ _ _ _ _ => t.isVFlt
  | .vabs t sat _ _ _ | .vneg t sat _ _ _ => t.isVInt || (t.isVFlt && !sat)
  | .vdiv t rm sat _ _ _ _ => t.isVFlt || (t.isVInt && rm == .rne && !sat)
  | .vsqrt t _ _ _ _ _ | .vrcp t _ _ _ _ _ | .vrsqrt t _ _ _ _ _ | .vexp2 t _ _ _ _ _ | .vlog2 t _ _ _ _ _ =>
    t.isVFlt
  | .vdot t rm _ _ _ _ _ _ =>
    t == .bf16 || t == .f16 || t == .e4m3 || t == .e5m2 || ((t == .i8 || t == .n8) && rm == .rne)
  | .vand t _ _ _ _ | .vor t _ _ _ _ | .vxor t _ _ _ _ | .vshl t _ _ _ _ | .vshr t _ _ _ _ | .vsra t _ _ _ _ =>
    t.isVInt
  | .vsel t _ _ _ _ | .vmov t _ _ _ | .vbcast t _ _ _ | .vperm t _ _ _ _ _ | .vslide t _ _ _ _
  | .vzip _ _ t _ _ _ _ | .vext t _ _ _ | .vins t _ _ _ => t.isVec
  | .vextImm t _ _ imm => t.isVec && imm.toNat * t.lane < 1024
  | .vredI _ t _ _ _ => t.isVInt
  | .vscanI _ t _ _ _ _ => t.isVInt
  | .vredF op t rm sat _ _ _ | .vscanF op t rm sat _ _ _ =>
    t.isVFlt && (op == .sum || ((op == .max || op == .min) && rm == .rne && !sat))
  | .vcvtSame dt src _ _ part _ _ _ => dt.isVec && src.isVec && dt.lane == src.lane && part == 0
  | .vcvtWide dt src _ _ part _ _ _ => dt.isVec && src.isVec && dt.lane > src.lane && partOk part dt.lane src.lane
  | .vcvtNarrow dt src _ _ part _ _ _ => dt.isVec && src.isVec && src.lane > dt.lane && partOk part src.lane dt.lane
  | .vqnt f _ _ _ _ _ _ | .vdqnt f _ _ _ _ _ => f.isMx
  | .msetN _ n => n.toNat ≤ 128
  | .ld _ _ m | .st _ _ m | .vld _ _ m | .vst _ _ m | .vlds _ _ _ m | .vsts _ _ _ m | .fset m | .fclr m | .pref m
  | .ldfS _ _ _ _ m | .ldfV _ _ _ _ m | .stfS _ _ _ _ m | .stfV _ _ _ _ m => m.ok
  | .ldOrdered o _ _ _ m | .vldOrdered o _ _ _ m | .vldsOrdered o _ _ _ _ m => o.isLd && m.ok
  | .stOrdered o _ _ _ m | .vstOrdered o _ _ _ m | .vstsOrdered o _ _ _ _ m => o.isSt && m.ok
  | .vldxOrdered o _ _ _ _ _ => o.isLd
  | .vstxOrdered o _ _ _ _ _ => o.isSt
  | .vamo32 op _ _ _ _ _ b scale _ | .vamo16 op _ _ _ _ _ b scale _ => op != .cas && (b != .none || scale == 0)
  | .fence o _ => o != .plain
  | .start _ _ c | .startFe _ c _ | .spawn _ _ _ c | .spawnFe _ _ c _ => c.toNat ≤ 28
  | .post rearm any n _ _ _ c _ => (!any || n == 0) && (rearm || c == 0)
  | .ctrget which k _ => which == 0 || k == 0
  | .cpy _ stage fmt swz _ _ _ imm => stageOk stage fmt imm && swzOk swz
  | .cpy2d _ stage swz _ _ _ _ _ | .cpy3d _ stage swz _ _ _ _ | .cpyMc _ stage swz _ _ _ _ _ =>
    stage.toNat ≤ 2 && swzOk swz
  | .cpyQ _ fmt _ _ _ e | .cpyQ2d _ fmt _ _ _ e _ => fmt.isMx == (e != 0)
  | .cpyPl _ _ p _ _ _ _ => 2 ≤ p.toNat && p.toNat ≤ 8
  | .cpyxG _ _ _ _ _ imm | .cpyxS _ _ _ _ _ imm => imm.extractLsb' 17 15 == 0
  | .mma16Slot0 f | .mma16Slot1 f | .mma8fSlot0 f | .mma8fSlot1 f | .mma8iSlot0 f | .mma8iSlot1 f | .mma4Slot0 f
  | .mma4Slot1 f => f.swz != 3 && f.chk != 3 && f.kb.toNat ≤ 8 && (f.chk == 0 || f.ms == 0)
  | .mupl1 imm | .mupl2 imm | .mupl3 imm => muOk imm
  | .mchkRow t swz _ _ _ _ | .mchkCol t swz _ _ _ _ => (t == .f32 || t == .i32) && swz != 3
  | .mfsr _ n | .mtsr n _ => srDefined n.toNat
  | _ => true

/-- The well-formed events: those that name existing units (R16, R34, R193, R258). -/
def Event.wf : Event → Bool
  | .slotBind c r | .slotSave c r | .saveWritePhase c r | .slotResume c r | .slotEvictPartition c r
  | .slotResetStop c r | .slotRetire c r => rowOk c r
  | .smapWrite p _ => p < 288
  | .arrWrite i _ => i < 16
  | .vownWrite c p _ => c < 256 && p < 256
  | .clockChange c mhz => c < 256 && 650 ≤ mhz && mhz ≤ 2080 && mhz % 65 == 0
  | .mmaStart c | .mmaRetire c | .crierFire c | .groupRetire c => c < 2048
  | .trapReport c x | .contextReady c x | .mmaClaimLine c x | .followLagLimit c x => c < 2048 && x < 11
  | .porterCommandStart c q | .porterCommandComplete c q | .chainRecordRead c q => c < 2048 && q < 4
  | _ => true

end Sys2Proof
end

