-- ==== Sys2Proof/Decode.lean ====
section
/-! DEFINITION. Sys2Proof/Decode.lean: the seven formats (R75 to R81), the decode checks of R91 in their order, the
opcode map R92, and the encoder written from the same tables. Decoding is total: every byte string gives an
instruction or a record of R91. -/
namespace Sys2Proof

/-! The formats: fields as the tables of R75 to R81 list them, bits [1:0] of the word apart. -/

/-- FA, 64 bits (R75). -/
structure FA where
  op : BitVec 8
  d : BitVec 7 := 0
  a : BitVec 7 := 0
  b : BitVec 7 := 0
  c : BitVec 7 := 0
  mr : BitVec 3 := 0
  mn : BitVec 1 := 0
  mz : BitVec 1 := 0
  fn : BitVec 8 := 0
  zero : BitVec 13 := 0
deriving DecidableEq, Repr

/-- FI, 64 bits (R76). -/
structure FI where
  op : BitVec 8
  d : BitVec 7 := 0
  a : BitVec 7 := 0
  fn : BitVec 8 := 0
  imm : BitVec 32 := 0
deriving DecidableEq, Repr

/-- FB, 64 bits (R77). -/
structure FB where
  op : BitVec 8
  a : BitVec 7 := 0
  b : BitVec 7 := 0
  cond : BitVec 4 := 0
  zero : BitVec 4 := 0
  off : BitVec 32 := 0
deriving DecidableEq, Repr

/-- FL, 96 bits (R78). -/
structure FL where
  op : BitVec 8
  d : BitVec 7 := 0
  a : BitVec 7 := 0
  b : BitVec 7 := 0
  mr : BitVec 3 := 0
  mn : BitVec 1 := 0
  scale : BitVec 2 := 0
  ord : BitVec 4 := 0
  sz : BitVec 4 := 0
  scope : BitVec 3 := 0
  disp : BitVec 48 := 0
deriving DecidableEq, Repr

/-- FX, 96 bits (R79). -/
structure FX where
  op : BitVec 8
  d : BitVec 7 := 0
  zero : BitVec 15 := 0
  imm : BitVec 64 := 0
deriving DecidableEq, Repr

/-- FM, 128 bits (R80). -/
structure FM where
  op : BitVec 8
  acc : BitVec 7 := 0
  qa : BitVec 7 := 0
  qb : BitVec 7 := 0
  mr : BitVec 3 := 0
  mc : BitVec 3 := 0
  fa : BitVec 4 := 0
  fb : BitVec 4 := 0
  ms : BitVec 2 := 0
  keep : BitVec 1 := 0
  zacc : BitVec 1 := 0
  kb : BitVec 4 := 0
  chk : BitVec 2 := 0
  swz : BitVec 2 := 0
  kc : BitVec 7 := 0
  zero : BitVec 64 := 0
deriving DecidableEq, Repr

/-- FE, 128 bits (R81). -/
structure FE where
  op : BitVec 8
  d : BitVec 7 := 0
  a : BitVec 7 := 0
  b : BitVec 7 := 0
  c : BitVec 7 := 0
  e : BitVec 7 := 0
  fn : BitVec 8 := 0
  qe : BitVec 4 := 0
  kc : BitVec 7 := 0
  imm : BitVec 64 := 0
deriving DecidableEq, Repr

/-- An instruction by its fields. -/
inductive Raw where
  | fa (f : FA)
  | fi (f : FI)
  | fb (f : FB)
  | fl (f : FL)
  | fx (f : FX)
  | fm (f : FM)
  | fe (f : FE)
deriving DecidableEq, Repr


/-- The 64 bits of FA: bits [1:0] are the length code 0 (R70). -/
def FA.pack (f : FA) : BitVec 64 :=
  f.zero ++ f.fn ++ f.mz ++ f.mn ++ f.mr ++ f.c ++ f.b ++ f.a ++ f.d ++ f.op ++ 0#2

/-- The fields of FA in its 64 bits. -/
def FA.unpack (w : BitVec 64) : FA :=
  { op := w.extractLsb' 2 8, d := w.extractLsb' 10 7, a := w.extractLsb' 17 7, b := w.extractLsb' 24 7,
    c := w.extractLsb' 31 7, mr := w.extractLsb' 38 3, mn := w.extractLsb' 41 1, mz := w.extractLsb' 42 1,
    fn := w.extractLsb' 43 8, zero := w.extractLsb' 51 13 }

/-- The 64 bits of FI: bits [1:0] are the length code 0 (R70). -/
def FI.pack (f : FI) : BitVec 64 :=
  f.imm ++ f.fn ++ f.a ++ f.d ++ f.op ++ 0#2

/-- The fields of FI in its 64 bits. -/
def FI.unpack (w : BitVec 64) : FI :=
  { op := w.extractLsb' 2 8, d := w.extractLsb' 10 7, a := w.extractLsb' 17 7, fn := w.extractLsb' 24 8,
    imm := w.extractLsb' 32 32 }

/-- The 64 bits of FB: bits [1:0] are the length code 0 (R70). -/
def FB.pack (f : FB) : BitVec 64 :=
  f.off ++ f.zero ++ f.cond ++ f.b ++ f.a ++ f.op ++ 0#2

/-- The fields of FB in its 64 bits. -/
def FB.unpack (w : BitVec 64) : FB :=
  { op := w.extractLsb' 2 8, a := w.extractLsb' 10 7, b := w.extractLsb' 17 7, cond := w.extractLsb' 24 4,
    zero := w.extractLsb' 28 4, off := w.extractLsb' 32 32 }

/-- The 96 bits of FL: bits [1:0] are the length code 1 (R70). -/
def FL.pack (f : FL) : BitVec 96 :=
  f.disp ++ f.scope ++ f.sz ++ f.ord ++ f.scale ++ f.mn ++ f.mr ++ f.b ++ f.a ++ f.d ++ f.op ++ 1#2

/-- The fields of FL in its 96 bits. -/
def FL.unpack (w : BitVec 96) : FL :=
  { op := w.extractLsb' 2 8, d := w.extractLsb' 10 7, a := w.extractLsb' 17 7, b := w.extractLsb' 24 7,
    mr := w.extractLsb' 31 3, mn := w.extractLsb' 34 1, scale := w.extractLsb' 35 2, ord := w.extractLsb' 37 4,
    sz := w.extractLsb' 41 4, scope := w.extractLsb' 45 3, disp := w.extractLsb' 48 48 }

/-- The 96 bits of FX: bits [1:0] are the length code 1 (R70). -/
def FX.pack (f : FX) : BitVec 96 :=
  f.imm ++ f.zero ++ f.d ++ f.op ++ 1#2

/-- The fields of FX in its 96 bits. -/
def FX.unpack (w : BitVec 96) : FX :=
  { op := w.extractLsb' 2 8, d := w.extractLsb' 10 7, zero := w.extractLsb' 17 15, imm := w.extractLsb' 32 64 }

/-- The 128 bits of FM: bits [1:0] are the length code 2 (R70). -/
def FM.pack (f : FM) : BitVec 128 :=
  f.zero ++ f.kc ++ f.swz ++ f.chk ++ f.kb ++ f.zacc ++ f.keep ++ f.ms ++ f.fb ++ f.fa ++ f.mc ++ f.mr ++ f.qb ++ f.qa ++ f.acc ++ f.op ++ 2#2

/-- The fields of FM in its 128 bits. -/
def FM.unpack (w : BitVec 128) : FM :=
  { op := w.extractLsb' 2 8, acc := w.extractLsb' 10 7, qa := w.extractLsb' 17 7, qb := w.extractLsb' 24 7,
    mr := w.extractLsb' 31 3, mc := w.extractLsb' 34 3, fa := w.extractLsb' 37 4, fb := w.extractLsb' 41 4,
    ms := w.extractLsb' 45 2, keep := w.extractLsb' 47 1, zacc := w.extractLsb' 48 1, kb := w.extractLsb' 49 4,
    chk := w.extractLsb' 53 2, swz := w.extractLsb' 55 2, kc := w.extractLsb' 57 7,
    zero := w.extractLsb' 64 64 }

/-- The 128 bits of FE: bits [1:0] are the length code 2 (R70). -/
def FE.pack (f : FE) : BitVec 128 :=
  f.imm ++ f.kc ++ f.qe ++ f.fn ++ f.e ++ f.c ++ f.b ++ f.a ++ f.d ++ f.op ++ 2#2

/-- The fields of FE in its 128 bits. -/
def FE.unpack (w : BitVec 128) : FE :=
  { op := w.extractLsb' 2 8, d := w.extractLsb' 10 7, a := w.extractLsb' 17 7, b := w.extractLsb' 24 7,
    c := w.extractLsb' 31 7, e := w.extractLsb' 38 7, fn := w.extractLsb' 45 8, qe := w.extractLsb' 53 4,
    kc := w.extractLsb' 57 7, imm := w.extractLsb' 64 64 }
/-! Codes shared by fields (R82 to R89). -/

def ElemTy.code : ElemTy → BitVec 4
  | .i8 => 0 | .i16 => 1 | .i32 => 2 | .i64 => 3 | .n8 => 4 | .n16 => 5 | .n32 => 6 | .n64 => 7
  | .bf16 => 8 | .f16 => 9 | .f32 => 10 | .f64 => 11 | .e4m3 => 12 | .e5m2 => 13 | .e2m1 => 14
def ElemTy.ofCode (c : BitVec 4) : Option ElemTy :=
  match c.toNat with
  | 0 => some .i8 | 1 => some .i16 | 2 => some .i32 | 3 => some .i64 | 4 => some .n8 | 5 => some .n16
  | 6 => some .n32 | 7 => some .n64 | 8 => some .bf16 | 9 => some .f16 | 10 => some .f32 | 11 => some .f64
  | 12 => some .e4m3 | 13 => some .e5m2 | 14 => some .e2m1 | _ => none

def Rm.code : Rm → BitVec 3
  | .rne => 0 | .rtz => 1 | .rdn => 2 | .rup => 3 | .rna => 4 | .rsr => 5
def Rm.ofCode (c : BitVec 3) : Option Rm :=
  match c.toNat with
  | 0 => some .rne | 1 => some .rtz | 2 => some .rdn | 3 => some .rup | 4 => some .rna | 5 => some .rsr | _ => none

def Om.code : Om → BitVec 2
  | .ovf => 0 | .sat => 1 | .trap => 2
def Om.ofCode (c : BitVec 2) : Option Om :=
  match c.toNat with
  | 0 => some .ovf | 1 => some .sat | 2 => some .trap | _ => none

def ICond.code : ICond → BitVec 4
  | .eq => 0 | .ne => 1 | .lt => 2 | .ge => 3 | .ltu => 4 | .geu => 5 | .le => 6 | .gt => 7 | .leu => 8 | .gtu => 9
def ICond.ofCode (c : BitVec 4) : Option ICond :=
  match c.toNat with
  | 0 => some .eq | 1 => some .ne | 2 => some .lt | 3 => some .ge | 4 => some .ltu | 5 => some .geu
  | 6 => some .le | 7 => some .gt | 8 => some .leu | 9 => some .gtu | _ => none

def FCond.code : FCond → BitVec 4
  | .eq => 0 | .ne => 1 | .lt => 2 | .ge => 3 | .uo => 4 | .ord => 5 | .le => 6 | .gt => 7
def FCond.ofCode (c : BitVec 4) : Option FCond :=
  match c.toNat with
  | 0 => some .eq | 1 => some .ne | 2 => some .lt | 3 => some .ge | 4 => some .uo | 5 => some .ord
  | 6 => some .le | 7 => some .gt | _ => none

def MCond.code : MCond → BitVec 4
  | .any => 10 | .all => 11 | .none => 12
def MCond.ofCode (c : BitVec 4) : Option MCond :=
  match c.toNat with
  | 10 => some .any | 11 => some .all | 12 => some .none | _ => Option.none

def Scope.code : Scope → BitVec 3
  | .context => 0 | .core => 1 | .chiplet => 2 | .panel => 3 | .pod => 4
def Scope.ofCode (c : BitVec 3) : Option Scope :=
  match c.toNat with
  | 0 => some .context | 1 => some .core | 2 => some .chiplet | 3 => some .panel | 4 => some .pod | _ => none

def Ord.code : Ord → BitVec 4
  | .plain => 0 | .acq => 1 | .rel => 2 | .ar => 3 | .sc => 4
def Ord.ofCode (c : BitVec 4) : Option Ord :=
  match c.toNat with
  | 0 => some .plain | 1 => some .acq | 2 => some .rel | 3 => some .ar | 4 => some .sc | _ => none

def LdfMode.code : LdfMode → BitVec 4
  | .wf => 8 | .wfse => 9 | .se => 12
def LdfMode.ofCode (c : BitVec 4) : Option LdfMode :=
  match c.toNat with
  | 8 => some .wf | 9 => some .wfse | 12 => some .se | _ => none

def StfMode.code : StfMode → BitVec 4
  | .wesf => 10 | .sf => 11
def StfMode.ofCode (c : BitVec 4) : Option StfMode :=
  match c.toNat with
  | 10 => some .wesf | 11 => some .sf | _ => none

def LdSz.code : LdSz → BitVec 4
  | .n8 => 0 | .n16 => 1 | .n32 => 2 | .n64 => 3 | .i8 => 4 | .i16 => 5 | .i32 => 6
def LdSz.ofCode (c : BitVec 4) : Option LdSz :=
  match c.toNat with
  | 0 => some .n8 | 1 => some .n16 | 2 => some .n32 | 3 => some .n64 | 4 => some .i8 | 5 => some .i16
  | 6 => some .i32 | _ => none

def StSz.code : StSz → BitVec 4
  | .n8 => 0 | .n16 => 1 | .n32 => 2 | .n64 => 3
def StSz.ofCode (c : BitVec 4) : Option StSz :=
  match c.toNat with
  | 0 => some .n8 | 1 => some .n16 | 2 => some .n32 | 3 => some .n64 | _ => none

def EW.code : EW → BitVec 4
  | .b8 => 0 | .b16 => 1 | .b32 => 2
def EW.ofCode (c : BitVec 4) : Option EW :=
  match c.toNat with
  | 0 => some .b8 | 1 => some .b16 | 2 => some .b32 | _ => none

def NW.code : NW → BitVec 4
  | .bit4 => 8 | .bit2 => 9 | .bit1 => 10
def NW.ofCode (c : BitVec 4) : Option NW :=
  match c.toNat with
  | 8 => some .bit4 | 9 => some .bit2 | 10 => some .bit1 | _ => none

def Fmt.code : Fmt → BitVec 4
  | .bf16 => 0 | .f16 => 1 | .e4m3 => 2 | .e5m2 => 3 | .mx8e4 => 4 | .mx8e5 => 5 | .mx4 => 6 | .i8 => 7 | .n8 => 8
  | .e2m1 => 9
def Fmt.ofCode (c : BitVec 4) : Option Fmt :=
  match c.toNat with
  | 0 => some .bf16 | 1 => some .f16 | 2 => some .e4m3 | 3 => some .e5m2 | 4 => some .mx8e4 | 5 => some .mx8e5
  | 6 => some .mx4 | 7 => some .i8 | 8 => some .n8 | 9 => some .e2m1 | _ => none

def AmoOp.code : AmoOp → BitVec 8
  | .add => 0 | .and => 1 | .or => 2 | .xor => 3 | .max => 4 | .min => 5 | .maxu => 6 | .minu => 7 | .swap => 8
  | .cas => 9 | .fadd => 10 | .fmax => 11 | .fmin => 12
def AmoOp.ofCode (c : BitVec 8) : Option AmoOp :=
  match c.toNat with
  | 0 => some .add | 1 => some .and | 2 => some .or | 3 => some .xor | 4 => some .max | 5 => some .min
  | 6 => some .maxu | 7 => some .minu | 8 => some .swap | 9 => some .cas | 10 => some .fadd | 11 => some .fmax
  | 12 => some .fmin | _ => none

def RedOp.code : RedOp → BitVec 3
  | .sum => 0 | .max => 1 | .min => 2 | .and => 3 | .or => 4 | .xor => 5
def RedOp.ofCode (c : BitVec 3) : Option RedOp :=
  match c.toNat with
  | 0 => some .sum | 1 => some .max | 2 => some .min | 3 => some .and | 4 => some .or | 5 => some .xor | _ => none

/-! Field decoders. `D` collects the faults found (subcode and lowest bit of the field); a faulty field gives some
value of its type, which the fault makes unreachable. -/

/-- Decoding with a list of faults: subcode and field bit (R91). -/
abbrev D := StateM (List (Nat × Nat))

/-- Record a fault. -/
def fault (sub bit : Nat) : D Unit := modify (· ++ [(sub, bit)])
/-- Record a fault when a condition fails. -/
def need (c : Bool) (sub bit : Nat) : D Unit := if c then pure () else fault sub bit
/-- A field that must be zero (R4). -/
def mbz {n : Nat} (bit : Nat) (x : BitVec n) : D Unit := need (x == 0) 3 bit
/-- A code with its reserved values and those the opcode accepts. -/
def coded {α : Type} (bit : Nat) (reserved : Bool) (v : Option α) (ok : α → Bool) (dflt : α) : D α :=
  match v with
  | some x => do need (ok x) 2 bit; pure x
  | none => do fault (if reserved then 3 else 2) bit; pure dflt

/-- Class s (R74). -/
def rS (bit : Nat) (r : BitVec 7) : D SReg := do
  need (r.extractLsb' 5 2 == 0) 4 bit
  pure (r.extractLsb' 0 5)
/-- Class v. -/
def rV (bit : Nat) (r : BitVec 7) : D VReg := do
  need (r.extractLsb' 5 2 == 1) 4 bit
  pure (r.extractLsb' 0 5)
/-- Class m: an index of 8 to 31 is an operand-class fault (R74). -/
def rM (bit : Nat) (r : BitVec 7) : D MReg := do
  need (r.extractLsb' 3 4 == 8) 4 bit
  pure (r.extractLsb' 0 3)
/-- Class q. -/
def rQ (bit : Nat) (r : BitVec 7) : D QReg := do
  need (r.extractLsb' 3 4 == 12) 4 bit
  pure (r.extractLsb' 0 3)
/-- Class s or q. -/
def rSQ (bit : Nat) (r : BitVec 7) : D SQ :=
  if r.extractLsb' 5 2 = 0 then pure (.s (r.extractLsb' 0 5))
  else do need (r.extractLsb' 3 4 == 12) 4 bit; pure (.q (r.extractLsb' 0 3))
/-- Class v or q. -/
def rVQ (bit : Nat) (r : BitVec 7) : D VQ :=
  if r.extractLsb' 5 2 = 1 then pure (.v (r.extractLsb' 0 5))
  else do need (r.extractLsb' 3 4 == 12) 4 bit; pure (.q (r.extractLsb' 0 3))

/-- The field value of s, v, m, q registers (R74, R96). -/
def eS (r : SReg) : BitVec 7 := 0#2 ++ r
def eV (r : VReg) : BitVec 7 := 1#2 ++ r
def eM (r : MReg) : BitVec 7 := 8#4 ++ r
def eQ (r : QReg) : BitVec 7 := 12#4 ++ r
def eSQ : SQ → BitVec 7
  | .s r => eS r
  | .q r => eQ r
def eVQ : VQ → BitVec 7
  | .v r => eV r
  | .q r => eQ r

/-- A one-bit field as a truth value. -/
def bit1 (x : BitVec 1) : Bool := x == 1

/-- Type code at a bit: 15 is reserved, an unaccepted type is subcode "opcode" (R83). -/
def dTy (bit : Nat) (ok : ElemTy → Bool) (c : BitVec 4) : D ElemTy := coded bit true (ElemTy.ofCode c) ok .i8
/-- Rounding code: 6 and 7 are reserved (R84). -/
def dRm (bit : Nat) (c : BitVec 3) : D Rm := coded bit true (Rm.ofCode c) (fun _ => true) .rne
/-- Overflow mode: 3 is reserved (R85). -/
def dOm (bit : Nat) (c : BitVec 2) : D Om := coded bit true (Om.ofCode c) (fun _ => true) .ovf
/-- Integer condition: 10 to 12 unused, 13 to 15 reserved (R82). -/
def dICond (bit : Nat) (c : BitVec 4) : D ICond := coded bit (13 ≤ c.toNat) (ICond.ofCode c) (fun _ => true) .eq
/-- Float condition: 8 to 12 unused, 13 to 15 reserved (R82). -/
def dFCond (bit : Nat) (c : BitVec 4) : D FCond := coded bit (13 ≤ c.toNat) (FCond.ofCode c) (fun _ => true) .eq
/-- Condition of `bmask`: 10 to 12 (R82). -/
def dMCond (bit : Nat) (c : BitVec 4) : D MCond := coded bit (13 ≤ c.toNat) (MCond.ofCode c) (fun _ => true) .any
/-- A condition that must be 0 (`br`, `call`, `loop`; R82). -/
def dNoCond (c : BitVec 4) : D Unit := if c = 0 then pure () else fault (if 13 ≤ c.toNat then 3 else 2) 24
/-- Operand format: 10 to 15 reserved (R89). -/
def dFmt (bit : Nat) (ok : Fmt → Bool) (c : BitVec 4) : D Fmt := coded bit true (Fmt.ofCode c) ok .bf16
/-- Whether an ord code is reserved (R86). -/
def ordReserved (c : BitVec 4) : Bool := (5 ≤ c.toNat && c.toNat ≤ 7) || 13 ≤ c.toNat
/-- The ord field where it must be 0 to 4 and accepted. -/
def dOrd (ok : Ord → Bool) (c : BitVec 4) : D Ord := coded 37 (ordReserved c) (Ord.ofCode c) ok .plain
/-- The ord field where only 0 is accepted. -/
def dPlain (c : BitVec 4) : D Unit := if c = 0 then pure () else fault (if ordReserved c then 3 else 2) 37
/-- The sz field: 11 to 15 reserved (R87). -/
def dSz {α : Type} (c : BitVec 4) (v : Option α) (dflt : α) : D α := coded 41 (11 ≤ c.toNat) v (fun _ => true) dflt
/-- The sz field with one accepted code. -/
def dSzIs (c : BitVec 4) (n : Nat) : D Unit :=
  if c.toNat = n then pure () else fault (if 11 ≤ c.toNat then 3 else 2) 41
/-- The scope field: 5 to 7 reserved (R88). -/
def dScope (bit : Nat) (c : BitVec 3) : D Scope := coded bit true (Scope.ofCode c) (fun _ => true) .context
/-- The scope field of an opcode that accepts only ord 0 (R88). -/
def dNoScope (c : BitVec 3) : D Unit := if c = 0 then pure () else fault (if 5 ≤ c.toNat then 3 else 2) 45
/-- A counter field kc whose bit 6 enables (R80, R81). -/
def dKc (c : BitVec 7) : D (Option KReg) :=
  if c.extractLsb' 6 1 = 1 then pure (some (c.extractLsb' 0 6)) else do mbz 57 c; pure none
/-- The field value of kc. -/
def eKc : Option KReg → BitVec 7
  | some k => 1#1 ++ k
  | none => 0

/-! Groups of fields that many opcodes share. -/

/-- No mask (R75). -/
def FA.noMask (f : FA) : D Unit := do mbz 38 f.mr; mbz 41 f.mn; mbz 42 f.mz
/-- The mask fields. -/
def FA.mask (f : FA) : VMask := ⟨f.mr, bit1 f.mn, bit1 f.mz⟩
/-- The mask fields without zeroing: mz must be zero. -/
def FA.lmask (f : FA) : D LMask := do mbz 42 f.mz; pure ⟨f.mr, bit1 f.mn⟩
/-- The bits [63:51] that must be zero. -/
def FA.tail (f : FA) : D Unit := mbz 51 f.zero
def FA.noFn (f : FA) : D Unit := mbz 43 f.fn
def FA.noA (f : FA) : D Unit := mbz 17 f.a
def FA.noB (f : FA) : D Unit := mbz 24 f.b
def FA.noC (f : FA) : D Unit := mbz 31 f.c
def FA.noD (f : FA) : D Unit := mbz 10 f.d
/-- fn[7:4]. -/
def FA.hi (f : FA) : BitVec 4 := f.fn.extractLsb' 4 4
/-- fn[3:0]. -/
def FA.lo (f : FA) : BitVec 4 := f.fn.extractLsb' 0 4
/-- fn[0]. -/
def FA.f0 (f : FA) : Bool := bit1 (f.fn.extractLsb' 0 1)
/-- The type in fn[7:4]. -/
def FA.ty (f : FA) (ok : ElemTy → Bool) : D ElemTy := dTy 47 ok f.hi
/-- A variant in fn[0] with fn[7:1] zero. -/
def FA.only0 (f : FA) : D Bool := do mbz 44 (f.fn.extractLsb' 1 7); pure f.f0
/-- The float layout with the type fixed by the opcode: rounding and sat (R84). -/
def FA.fltFixed (f : FA) : D (Rm × Bool) := do
  mbz 47 f.hi
  let rm ← dRm 44 (f.fn.extractLsb' 1 3)
  pure (rm, f.f0)
/-- Rounding and sat of the float layout. -/
def FA.flt (f : FA) : D (Rm × Bool) := do
  let rm ← dRm 44 (f.fn.extractLsb' 1 3)
  pure (rm, f.f0)
/-- The float layout where rounding and sat must both be 0 (R411, R423). -/
def FA.fltNone (f : FA) : D Unit := do
  let (rm, s) ← f.flt
  need (rm == .rne) 2 44
  need (!s) 2 43
/-- Whether a type is a float, of a vector form or not: it selects the float layout (R83, R84). -/
def ElemTy.isFlt : ElemTy → Bool
  | .bf16 | .f16 | .f32 | .f64 | .e4m3 | .e5m2 | .e2m1 => true
  | _ => false
/-- The vector integer layout: sat, with fn[2:0] zero (R84). -/
def FA.vint (f : FA) : D Bool := do
  mbz 43 (f.fn.extractLsb' 0 1)
  mbz 44 (f.fn.extractLsb' 1 2)
  pure (bit1 (f.fn.extractLsb' 3 1))
/-- A type with fn[3:0] zero: opcodes whose type sets the lane width only. -/
def FA.tyOnly (f : FA) (ok : ElemTy → Bool) : D ElemTy := do mbz 43 f.lo; f.ty ok
/-- A counter in fn[5:0] with fn[7:6] zero (R214). -/
def FA.ctr (f : FA) : D KReg := do mbz 49 (f.fn.extractLsb' 6 2); pure (f.fn.extractLsb' 0 6)
/-- Three s or q registers. -/
def FA.d3 (f : FA) : D (SQ × SQ × SQ) := do pure (← rSQ 10 f.d, ← rSQ 17 f.a, ← rSQ 24 f.b)
/-- Three v or q registers. -/
def FA.v3 (f : FA) : D (VQ × VQ × VQ) := do pure (← rVQ 10 f.d, ← rVQ 17 f.a, ← rVQ 24 f.b)
/-- Two v or q registers, b zero. -/
def FA.v2 (f : FA) : D (VQ × VQ) := do f.noB; pure (← rVQ 10 f.d, ← rVQ 17 f.a)
/-- The operation of `vred` and `vscan` in the c field (R428). -/
def FA.red (f : FA) : D RedOp := do
  mbz 34 (f.c.extractLsb' 3 4)
  coded 31 true (RedOp.ofCode (f.c.extractLsb' 0 3)) (fun _ => true) .sum
/-- The conversion mode in the c field (R85). -/
def FA.mode (f : FA) : D (Om × Rm × BitVec 2) := do
  let rm ← dRm 31 (f.c.extractLsb' 0 3)
  let om ← dOm 34 (f.c.extractLsb' 3 2)
  pure (om, rm, f.c.extractLsb' 5 2)

/-- No mask. -/
def FL.noMask (f : FL) : D Unit := do mbz 31 f.mr; mbz 34 f.mn
/-- The mask fields. -/
def FL.mask (f : FL) : LMask := ⟨f.mr, bit1 f.mn⟩
/-- Base, index, scale and displacement; with b = s0 the scale must be 0 (R4, R88). -/
def FL.addr (f : FL) : D Addr := do
  let a ← rS 17 f.a
  let b ← rS 24 f.b
  need (b != 0 || f.scale == 0) 3 35
  pure ⟨a, b, f.scale, f.disp⟩
/-- Base, index vector, scale and displacement. -/
def FL.xaddr (f : FL) : D XAddr := do
  let a ← rS 17 f.a
  let b ← rV 24 f.b
  pure ⟨a, b, f.scale, f.disp⟩
/-- Ord 0, and the scope field that must be zero (`stn`, `pref`; R391, R403). -/
def FL.plainZ (f : FL) : D Unit := do dPlain f.ord; mbz 45 f.scope
/-- A plain access: ord 0 and scope 0. -/
def FL.plain (f : FL) : D Unit := do dPlain f.ord; dNoScope f.scope
/-- The atomic operation in the upper eight bits of the displacement field (R337). -/
def FL.amo (f : FL) : D (AmoOp × BitVec 40) := do
  let op ← coded 48 true (AmoOp.ofCode (f.disp.extractLsb' 40 8)) (fun _ => true) .add
  pure (op, f.disp.extractLsb' 0 40)

/-- Registers that a form leaves unused. -/
def FE.noA (f : FE) : D Unit := mbz 17 f.a
def FE.noB (f : FE) : D Unit := mbz 24 f.b
def FE.noC (f : FE) : D Unit := mbz 31 f.c
def FE.noD (f : FE) : D Unit := mbz 10 f.d
def FE.noE (f : FE) : D Unit := mbz 38 f.e
def FE.noFn (f : FE) : D Unit := mbz 45 f.fn
def FE.noQe (f : FE) : D Unit := mbz 53 f.qe
def FE.noKc (f : FE) : D Unit := mbz 57 f.kc
def FE.noImm (f : FE) : D Unit := mbz 64 f.imm
/-- The fields that the porter forms share: queue, count mode, counter, ticket (R195). -/
def FE.cpy (f : FE) : D CpyF := do
  let kc ← dKc f.kc
  let d ← rS 10 f.d
  pure ⟨f.qe.extractLsb' 0 2, bit1 (f.fn.extractLsb' 4 1), kc, d⟩
/-- The destination swizzle: 3 is reserved (R195). -/
def FE.swz (f : FE) : D (BitVec 4) := do
  need (f.qe.extractLsb' 2 2 != 3) 3 53
  pure ((0#2 ++ f.qe.extractLsb' 2 2 : BitVec 4))
/-- A form without swizzle. -/
def FE.noSwz (f : FE) : D Unit := need (f.qe.extractLsb' 2 2 == 0) 3 53
/-- The stage field: 5 to 7 reserved, others accepted up to `top` (R195). -/
def FE.stage (f : FE) (top : Nat) : D (BitVec 3) := do
  let s := f.fn.extractLsb' 5 3
  need (s.toNat ≤ 4) 3 50
  need (s.toNat ≤ top || 5 ≤ s.toNat) 2 50
  pure s
/-- fn[3:0] zero. -/
def FE.noFmt (f : FE) : D Unit := mbz 45 (f.fn.extractLsb' 0 4)
/-- fn[3:0] of a form that accepts stages 0 to 2 only: zero under these stages (R195), a reserved format code
under none (R89). -/
def FE.stageFmt (f : FE) : D Unit :=
  need (f.fn.extractLsb' 0 4 == 0 || (2 < (f.fn.extractLsb' 5 3).toNat && (f.fn.extractLsb' 0 4).toNat < 10)) 3 45

/-! The opcode map (R92), one row of sixteen opcodes at a time, by format. -/

/-- FA rows 0x0 and 0x1: scalar integer (R335 R372 R355 R393 R385 R436 R397 R395 R374 R348 R389 R349 R396). -/
def decFA0 (f : FA) : D Instr := do
  f.tail
  f.noMask
  match f.op with
  | 0x00 => do f.noC; f.noFn; let (d, a, b) ← f.d3; pure (.add d a b)
  | 0x01 => do f.noC; f.noFn; let (d, a, b) ← f.d3; pure (.sub d a b)
  | 0x02 => do f.noC; f.noFn; let (d, a, b) ← f.d3; pure (.mul d a b)
  | 0x03 => do f.noC; let u ← f.only0; let (d, a, b) ← f.d3; pure (.mulh u d a b)
  | 0x04 => do f.noFn; let (d, a, b) ← f.d3; let c ← rSQ 31 f.c; pure (.mad d a b c)
  | 0x05 => do f.noC; let u ← f.only0; let (d, a, b) ← f.d3; pure (.div u d a b)
  | 0x06 => do f.noC; let u ← f.only0; let (d, a, b) ← f.d3; pure (.rem u d a b)
  | 0x07 => do f.noC; f.noFn; let (d, a, b) ← f.d3; pure (.and d a b)
  | 0x08 => do f.noC; f.noFn; let (d, a, b) ← f.d3; pure (.or d a b)
  | 0x09 => do f.noC; f.noFn; let (d, a, b) ← f.d3; pure (.xor d a b)
  | 0x0A => do f.noC; f.noFn; let (d, a, b) ← f.d3; pure (.shl d a b)
  | 0x0B => do f.noC; f.noFn; let (d, a, b) ← f.d3; pure (.shr d a b)
  | 0x0C => do f.noC; f.noFn; let (d, a, b) ← f.d3; pure (.sra d a b)
  | 0x0D => do f.noC; f.noFn; let (d, a, b) ← f.d3; pure (.rot d a b)
  | 0x0E => do f.noC; let u ← f.only0; let (d, a, b) ← f.d3; pure (.min u d a b)
  | 0x0F => do f.noC; let u ← f.only0; let (d, a, b) ← f.d3; pure (.max u d a b)
  | 0x1B => do f.noB; f.noC; f.noFn; let d ← rSQ 10 f.d; let a ← rSQ 17 f.a; pure (.clz d a)
  | 0x1C => do f.noB; f.noC; f.noFn; let d ← rSQ 10 f.d; let a ← rSQ 17 f.a; pure (.ctz d a)
  | 0x1D => do f.noB; f.noC; f.noFn; let d ← rSQ 10 f.d; let a ← rSQ 17 f.a; pure (.popc d a)
  | 0x1E => do f.noC; mbz 47 f.hi; let c ← dICond 43 f.lo; let (d, a, b) ← f.d3; pure (.cmp c d a b)
  | _ => do f.noFn; let (d, a, b) ← f.d3; let c ← rSQ 31 f.c; pure (.sel d a b c)

/-- FA row 0x2: scalar float (R358 R360 R361). -/
def decFA2 (f : FA) : D Instr := do
  f.tail
  f.noMask
  match f.op with
  | 0x20 => do f.noC; let (rm, sat) ← f.fltFixed; let (d, a, b) ← f.d3; pure (.faddF32 rm sat d a b)
  | 0x21 => do f.noC; let (rm, sat) ← f.fltFixed; let (d, a, b) ← f.d3; pure (.faddF64 rm sat d a b)
  | 0x22 => do f.noC; let (rm, sat) ← f.fltFixed; let (d, a, b) ← f.d3; pure (.fsubF32 rm sat d a b)
  | 0x23 => do f.noC; let (rm, sat) ← f.fltFixed; let (d, a, b) ← f.d3; pure (.fsubF64 rm sat d a b)
  | 0x24 => do f.noC; let (rm, sat) ← f.fltFixed; let (d, a, b) ← f.d3; pure (.fmulF32 rm sat d a b)
  | 0x25 => do f.noC; let (rm, sat) ← f.fltFixed; let (d, a, b) ← f.d3; pure (.fmulF64 rm sat d a b)
  | 0x26 => do
    let (rm, sat) ← f.fltFixed; let (d, a, b) ← f.d3; let c ← rSQ 31 f.c; pure (.ffmaF32 rm sat d a b c)
  | 0x27 => do
    let (rm, sat) ← f.fltFixed; let (d, a, b) ← f.d3; let c ← rSQ 31 f.c; pure (.ffmaF64 rm sat d a b c)
  | 0x28 => do f.noC; let (rm, sat) ← f.fltFixed; let (d, a, b) ← f.d3; pure (.fdivF32 rm sat d a b)
  | 0x29 => do f.noC; let (rm, sat) ← f.fltFixed; let (d, a, b) ← f.d3; pure (.fdivF64 rm sat d a b)
  | 0x2A => do
    f.noB; f.noC; let (rm, sat) ← f.fltFixed; let d ← rSQ 10 f.d; let a ← rSQ 17 f.a; pure (.fsqrtF32 rm sat d a)
  | 0x2B => do
    f.noB; f.noC; let (rm, sat) ← f.fltFixed; let d ← rSQ 10 f.d; let a ← rSQ 17 f.a; pure (.fsqrtF64 rm sat d a)
  | 0x2C => do
    f.noC; let t ← f.ty ElemTy.isSFlt; need (f.lo == 0) 2 43; let (d, a, b) ← f.d3; pure (.fmin t d a b)
  | 0x2D => do
    f.noC; let t ← f.ty ElemTy.isSFlt; need (f.lo == 0) 2 43; let (d, a, b) ← f.d3; pure (.fmax t d a b)
  | 0x2E => do
    f.noC; let t ← f.ty ElemTy.isSFlt; let c ← dFCond 43 f.lo; let (d, a, b) ← f.d3; pure (.fcmp t c d a b)
  | _ => do
    f.noB
    let dt ← f.ty (fun _ => true)
    let src ← dTy 43 (fun _ => true) f.lo
    let (om, rm, part) ← f.mode
    need (part == 0) 2 36
    let d ← rSQ 10 f.d
    let a ← rSQ 17 f.a
    pure (.fcvt dt src om rm d a)

/-- FA row 0x3: control flow (R344 R394 R366 R363 R384 R437 R435). -/
def decFA3 (f : FA) : D Instr := do
  f.tail
  f.noMask
  f.noD
  f.noB
  f.noC
  f.noFn
  match f.op with
  | 0x34 => do pure (.callr (← rS 17 f.a))
  | 0x35 => do f.noA; pure .ret
  | 0x36 => do pure (.jr (← rS 17 f.a))
  | 0x38 => do pure (.halt (← rS 17 f.a))
  | 0x39 => do f.noA; pure .nop
  | 0x3A => do f.noA; pure .yield
  | 0x3B => do f.noA; pure .wspill
  | _ => do f.noA; pure .wfill

/-- The fields of an integer vector form with saturation. -/
def vi3 (f : FA) : D (ElemTy × Bool × VQ × VQ × VQ) := do
  let t ← f.ty ElemTy.isVInt
  let s ← f.vint
  let (d, a, b) ← f.v3
  pure (t, s, d, a, b)
/-- The fields of a float vector form. -/
def vf3 (f : FA) : D (ElemTy × Rm × Bool × VQ × VQ × VQ) := do
  let t ← f.ty ElemTy.isVFlt
  let (rm, s) ← f.flt
  let (d, a, b) ← f.v3
  pure (t, rm, s, d, a, b)
/-- The fields of a one-source float vector form. -/
def vf2 (f : FA) : D (ElemTy × Rm × Bool × VQ × VQ) := do
  f.noC
  let t ← f.ty ElemTy.isVFlt
  let (rm, s) ← f.flt
  let (d, a) ← f.v2
  pure (t, rm, s, d, a)
/-- The fields of `vabs` and `vneg`: either class under one opcode (R411, R423). -/
def vabsLike (f : FA) : D (ElemTy × Bool × VQ × VQ) := do
  f.noC
  let t ← f.ty (fun t => t.isVInt || t.isVFlt)
  let (d, a) ← f.v2
  if t.isFlt then do f.fltNone; pure (t, false, d, a)
  else do let s ← f.vint; pure (t, s, d, a)
/-- The fields of an opcode whose integer type sets the lane width only (R414, R425). -/
def vw3 (f : FA) (ok : ElemTy → Bool) : D (ElemTy × VQ × VQ × VQ) := do
  f.noC
  let t ← f.tyOnly ok
  let (d, a, b) ← f.v3
  pure (t, d, a, b)

/-- FA row 0x4: element-wise arithmetic (R411 R416 R423). -/
def decFA4 (f : FA) : D Instr := do
  f.tail
  match f.op with
  | 0x40 => do f.noC; let (t, s, d, a, b) ← vi3 f; pure (.vaddI t s f.mask d a b)
  | 0x41 => do f.noC; let (t, rm, s, d, a, b) ← vf3 f; pure (.vaddF t rm s f.mask d a b)
  | 0x42 => do f.noC; let (t, s, d, a, b) ← vi3 f; pure (.vsubI t s f.mask d a b)
  | 0x43 => do f.noC; let (t, rm, s, d, a, b) ← vf3 f; pure (.vsubF t rm s f.mask d a b)
  | 0x44 => do f.noC; let (t, s, d, a, b) ← vi3 f; pure (.vmulI t s f.mask d a b)
  | 0x45 => do f.noC; let (t, rm, s, d, a, b) ← vf3 f; pure (.vmulF t rm s f.mask d a b)
  | 0x46 => do let (t, s, d, a, b) ← vi3 f; let c ← rVQ 31 f.c; pure (.vfmaI t s f.mask d a b c)
  | 0x47 => do let (t, rm, s, d, a, b) ← vf3 f; let c ← rVQ 31 f.c; pure (.vfmaF t rm s f.mask d a b c)
  | 0x48 => do f.noC; let (t, s, d, a, b) ← vi3 f; need (!s) 3 46; pure (.vmaxI t f.mask d a b)
  | 0x49 => do
    f.noC; let t ← f.ty ElemTy.isVFlt; f.fltNone; let (d, a, b) ← f.v3; pure (.vmaxF t f.mask d a b)
  | 0x4A => do f.noC; let (t, s, d, a, b) ← vi3 f; need (!s) 3 46; pure (.vminI t f.mask d a b)
  | 0x4B => do
    f.noC; let t ← f.ty ElemTy.isVFlt; f.fltNone; let (d, a, b) ← f.v3; pure (.vminF t f.mask d a b)
  | 0x4C => do
    f.noC
    let t ← f.ty ElemTy.isVInt
    let c ← dICond 43 f.lo
    let d ← rM 10 f.d
    let a ← rVQ 17 f.a
    let b ← rVQ 24 f.b
    pure (.vcmpI t c f.mask d a b)
  | 0x4D => do
    f.noC
    let t ← f.ty ElemTy.isVFlt
    let c ← dFCond 43 f.lo
    let d ← rM 10 f.d
    let a ← rVQ 17 f.a
    let b ← rVQ 24 f.b
    pure (.vcmpF t c f.mask d a b)
  | 0x4E => do let (t, s, d, a) ← vabsLike f; pure (.vabs t s f.mask d a)
  | _ => do let (t, s, d, a) ← vabsLike f; pure (.vneg t s f.mask d a)

/-- FA row 0x5 (R411 R424 R419 R418 R414 R425 R426 R415). -/
def decFA5 (f : FA) : D Instr := do
  f.tail
  match f.op with
  | 0x50 => do
    f.noC
    let t ← f.ty (fun t => t.isVInt || t.isVFlt)
    let (d, a, b) ← f.v3
    if t.isFlt then do let (rm, s) ← f.flt; pure (.vdiv t rm s f.mask d a b)
    else do let s ← f.vint; need (!s) 3 46; pure (.vdiv t .rne false f.mask d a b)
  | 0x51 => do let (t, rm, s, d, a) ← vf2 f; pure (.vsqrt t rm s f.mask d a)
  | 0x52 => do let (t, rm, s, d, a) ← vf2 f; pure (.vrcp t rm s f.mask d a)
  | 0x53 => do let (t, rm, s, d, a) ← vf2 f; pure (.vrsqrt t rm s f.mask d a)
  | 0x54 => do let (t, rm, s, d, a) ← vf2 f; pure (.vexp2 t rm s f.mask d a)
  | 0x55 => do let (t, rm, s, d, a) ← vf2 f; pure (.vlog2 t rm s f.mask d a)
  | 0x56 => do
    let t ← f.ty (fun t => t == .bf16 || t == .f16 || t == .e4m3 || t == .e5m2 || t == .i8 || t == .n8)
    let (rm, s) ← f.flt
    need (!(t == .i8 || t == .n8) || rm == .rne) 2 44
    let (d, a, b) ← f.v3
    let c ← rVQ 31 f.c
    pure (.vdot t rm s f.mask d a b c)
  | 0x57 => do let (t, d, a, b) ← vw3 f ElemTy.isVInt; pure (.vand t f.mask d a b)
  | 0x58 => do let (t, d, a, b) ← vw3 f ElemTy.isVInt; pure (.vor t f.mask d a b)
  | 0x59 => do let (t, d, a, b) ← vw3 f ElemTy.isVInt; pure (.vxor t f.mask d a b)
  | 0x5A => do let (t, d, a, b) ← vw3 f ElemTy.isVInt; pure (.vshl t f.mask d a b)
  | 0x5B => do let (t, d, a, b) ← vw3 f ElemTy.isVInt; pure (.vshr t f.mask d a b)
  | 0x5C => do let (t, d, a, b) ← vw3 f ElemTy.isVInt; pure (.vsra t f.mask d a b)
  | 0x5D => do let (t, d, a, b) ← vw3 f ElemTy.isVec; let m ← f.lmask; pure (.vsel t m d a b)
  | 0x5E => do f.noC; let t ← f.tyOnly ElemTy.isVec; let (d, a) ← f.v2; pure (.vmov t f.mask d a)
  | _ => do
    f.noB
    f.noC
    let t ← f.tyOnly ElemTy.isVec
    let d ← rVQ 10 f.d
    let a ← rSQ 17 f.a
    pure (.vbcast t f.mask d a)

/-- The fields of a `vcvt` form: types, mode, registers (R165). `fits` says whether the widths fit the opcode. -/
def vcvtF (f : FA) (fits : Nat → Nat → Bool) : D (ElemTy × ElemTy × Om × Rm × BitVec 2 × VQ × VQ) := do
  let dt ← f.ty ElemTy.isVec
  let src ← dTy 43 ElemTy.isVec f.lo
  let (om, rm, part) ← f.mode
  let known := dt.isVec && src.isVec
  need (!known || fits dt.lane src.lane) 2 43
  need (!known || part == 0 || partOk part (Nat.max dt.lane src.lane) (Nat.min dt.lane src.lane)) 2 36
  let (d, a) ← f.v2
  pure (dt, src, om, rm, part, d, a)

/-- The fields of `vqnt` and `vdqnt`: format, mode, registers d and a, scalar b (R167, R168). -/
def vqntF (f : FA) : D (Fmt × Om × Rm × BitVec 2 × VQ × VQ × SReg) := do
  f.noMask
  mbz 47 f.hi
  let fmt ← dFmt 43 Fmt.isMx f.lo
  let (om, rm, part) ← f.mode
  let d ← rVQ 10 f.d
  let a ← rVQ 17 f.a
  let b ← rS 24 f.b
  pure (fmt, om, rm, part, d, a, b)

/-- FA row 0x6 (R427 R428 R429 R420 R417 R430 R168 R431). -/
def decFA6 (f : FA) : D Instr := do
  f.tail
  match f.op with
  | 0x60 => do
    let t ← f.tyOnly ElemTy.isVec
    let (d, a, b) ← f.v3
    let c ← rVQ 31 f.c
    pure (.vperm t f.mask d a b c)
  | 0x61 => do
    f.noB
    let op ← f.red
    let t ← f.ty ElemTy.isVInt
    let s ← f.vint
    need (!s) 3 46
    let m ← f.lmask
    let d ← rSQ 10 f.d
    let a ← rVQ 17 f.a
    pure (.vredI op t m d a)
  | 0x62 => do
    f.noB
    let op ← f.red
    let t ← f.ty ElemTy.isVFlt
    let (rm, s) ← f.flt
    need (op == .sum || op == .max || op == .min) 2 31
    need (op == .sum || f.lo == 0) 2 31
    let m ← f.lmask
    let d ← rSQ 10 f.d
    let a ← rVQ 17 f.a
    pure (.vredF op t rm s m d a)
  | 0x63 => do
    let op ← f.red
    let t ← f.ty ElemTy.isVInt
    let s ← f.vint
    let (d, a) ← f.v2
    pure (.vscanI op t s f.mask d a)
  | 0x64 => do
    let op ← f.red
    let t ← f.ty ElemTy.isVFlt
    let (rm, s) ← f.flt
    need (op == .sum || op == .max || op == .min) 2 31
    need (op == .sum || f.lo == 0) 2 31
    let (d, a) ← f.v2
    pure (.vscanF op t rm s f.mask d a)
  | 0x65 => do
    f.noC
    let t ← f.tyOnly ElemTy.isVec
    let d ← rVQ 10 f.d
    let a ← rVQ 17 f.a
    let b ← rS 24 f.b
    pure (.vslide t f.mask d a b)
  | 0x66 => do
    f.noC
    let t ← f.ty ElemTy.isVec
    mbz 45 (f.fn.extractLsb' 2 2)
    let (d, a, b) ← f.v3
    pure (.vzip f.f0 (bit1 (f.fn.extractLsb' 1 1)) t f.mask d a b)
  | 0x67 => do
    f.noC
    f.noMask
    let t ← f.tyOnly ElemTy.isVec
    let d ← rSQ 10 f.d
    let a ← rVQ 17 f.a
    let b ← rS 24 f.b
    pure (.vext t d a b)
  | 0x69 => do
    f.noC
    f.noMask
    let t ← f.tyOnly ElemTy.isVec
    let d ← rV 10 f.d
    let a ← rSQ 17 f.a
    let b ← rS 24 f.b
    pure (.vins t d a b)
  | 0x6A => do
    let (dt, src, om, rm, part, d, a) ← vcvtF f (fun x y => x == y)
    need (part == 0) 2 36
    pure (.vcvtSame dt src om rm part f.mask d a)
  | 0x6B => do
    let (dt, src, om, rm, part, d, a) ← vcvtF f (fun x y => decide (y < x))
    pure (.vcvtWide dt src om rm part f.mask d a)
  | 0x6C => do
    let (dt, src, om, rm, part, d, a) ← vcvtF f (fun x y => decide (x < y))
    pure (.vcvtNarrow dt src om rm part f.mask d a)
  | 0x6D => do let (fmt, om, rm, part, d, a, b) ← vqntF f; pure (.vqnt fmt om rm part d b a)
  | 0x6E => do
    let (fmt, om, rm, part, d, a, b) ← vqntF f
    need (rm == .rne) 2 31
    pure (.vdqnt fmt om part d a b)
  | _ => do
    f.noB
    f.noC
    f.noFn
    let d ← rVQ 10 f.d
    let a ← rS 17 f.a
    pure (.vrnd f.mask d a)

/-- FA row 0x7: masks (R373 R380). -/
def decFA7 (f : FA) : D Instr := do
  f.tail
  f.noC
  match f.op with
  | 0x70 => do f.noMask; f.noFn; pure (.mand (← rM 10 f.d) (← rM 17 f.a) (← rM 24 f.b))
  | 0x71 => do f.noMask; f.noFn; pure (.mor (← rM 10 f.d) (← rM 17 f.a) (← rM 24 f.b))
  | 0x72 => do f.noMask; f.noFn; pure (.mxor (← rM 10 f.d) (← rM 17 f.a) (← rM 24 f.b))
  | 0x73 => do f.noMask; f.noFn; pure (.mnot (← rM 10 f.d) (← rM 17 f.a) (← rS 24 f.b))
  | 0x74 => do f.noMask; f.noFn; pure (.mpopc (← rS 10 f.d) (← rM 17 f.a) (← rS 24 f.b))
  | 0x75 => do f.noMask; f.noFn; pure (.mfirst (← rS 10 f.d) (← rM 17 f.a) (← rS 24 f.b))
  | 0x76 => do f.noMask; f.noFn; pure (.mset (← rM 10 f.d) (← rS 17 f.a) (← rS 24 f.b))
  | 0x78 => do f.noMask; f.noFn; f.noB; pure (.msetB8 (← rM 10 f.d) (← rV 17 f.a))
  | 0x79 => do f.noMask; f.noFn; f.noB; pure (.msetB16 (← rM 10 f.d) (← rV 17 f.a))
  | 0x7A => do f.noMask; f.noFn; f.noB; pure (.msetB32 (← rM 10 f.d) (← rV 17 f.a))
  | 0x7B => do f.noMask; f.noFn; f.noB; pure (.mmov (← rM 10 f.d) (← rM 17 f.a))
  | 0x7C => do f.noMask; f.noB; let hi ← f.only0; pure (.mmovS hi (← rS 10 f.d) (← rM 17 f.a))
  | 0x7D => do f.noFn; f.noB; pure (.mmovB8 f.mask (← rV 10 f.d) (← rM 17 f.a))
  | 0x7E => do f.noFn; f.noB; pure (.mmovB16 f.mask (← rV 10 f.d) (← rM 17 f.a))
  | _ => do f.noFn; f.noB; pure (.mmovB32 f.mask (← rV 10 f.d) (← rM 17 f.a))

/-- FA rows 0x9 and 0xA: fence, ports, execution (R148 R387 R398 R399 R365 R362 R405 R406 R347 R386 R434). -/
def decFAA (f : FA) : D Instr := do
  f.tail
  f.noMask
  match f.op with
  | 0x9B => do
    f.noD
    f.noA
    f.noB
    f.noC
    mbz 50 (f.fn.extractLsb' 7 1)
    let sc ← dScope 47 (f.fn.extractLsb' 4 3)
    let o ← coded 43 (ordReserved f.lo) (Ord.ofCode f.lo) (fun o => o != .plain) .acq
    pure (.fence o sc)
  | 0xA0 => do f.noC; f.noFn; pure (.pbind (← rS 10 f.d) (← rQ 24 f.b) (← rS 17 f.a))
  | 0xA1 => do f.noC; f.noFn; f.noD; f.noA; pure (.pfree (← rQ 24 f.b))
  | 0xA2 => do f.noC; f.noFn; f.noA; pure (.pstat (← rS 10 f.d) (← rQ 24 f.b))
  | 0xA3 => do f.noC; f.noFn; f.noD; f.noA; pure (.pclose (← rQ 24 f.b))
  | 0xA4 => do
    f.noC
    f.noD
    f.noA
    mbz 50 (f.fn.extractLsb' 7 1)
    let q ← rQ 24 f.b
    if f.fn.extractLsb' 6 1 = 1 then pure (.pmark q (some (f.fn.extractLsb' 0 6)))
    else do mbz 43 (f.fn.extractLsb' 0 6); pure (.pmark q none)
  | 0xA5 => do
    f.noFn
    f.noA
    let d ← rS 10 f.d
    let b ← rS 24 f.b
    let c ← rS 31 f.c
    need (c.toNat ≤ 28) 4 31
    pure (.start d b c)
  | 0xA6 => do
    f.noFn
    let d ← rS 10 f.d
    let a ← rS 17 f.a
    let b ← rS 24 f.b
    let c ← rS 31 f.c
    need (c.toNat ≤ 28) 4 31
    pure (.spawn d a b c)
  | 0xA7 => do f.noB; f.noC; f.noFn; pure (.join (← rS 10 f.d) (← rS 17 f.a))
  | 0xA9 => do f.noA; f.noB; f.noC; f.noFn; pure (.follow (← rS 10 f.d))
  | 0xAA => do f.noD; f.noA; f.noB; f.noC; f.noFn; pure .leave
  | 0xAB => do f.noB; f.noC; f.noFn; pure (.task (← rS 10 f.d) (← rS 17 f.a))
  | 0xAC => do f.noD; f.noA; f.noB; f.noC; f.noFn; pure .tdone
  | 0xAD => do f.noB; f.noC; f.noFn; pure (.ckpt (← rS 10 f.d) (← rS 17 f.a))
  | 0xAE => do f.noD; f.noA; f.noB; f.noC; f.noFn; pure .park
  | _ => do f.noD; f.noC; f.noFn; pure (.wake (← rS 17 f.a) (← rS 24 f.b))

/-- FA rows 0xB to 0xD: holds, deposits, counters, queues, tiles (R364 R352 R409 R214 R392 R190 R191). -/
def decFAB (f : FA) : D Instr := do
  f.tail
  match f.op with
  | 0xB0 => do f.noMask; f.noA; f.noB; f.noC; f.noFn; pure (.hold (← rV 10 f.d))
  | 0xB2 => do f.noMask; f.noA; f.noB; f.noC; f.noFn; pure (.hclr (← rV 10 f.d))
  | 0xB4 => do f.noMask; f.noD; let hi ← f.only0; pure (.depv hi (← rS 17 f.a) (← rS 24 f.b) (← rV 31 f.c))
  | 0xB6 => do f.noMask; f.noD; let hi ← f.only0; pure (.deps hi (← rS 17 f.a) (← rS 24 f.b) (← rS 31 f.c))
  | 0xB8 => do f.noMask; f.noA; f.noB; f.noC; let n ← f.ctr; pure (.unpost (← rS 10 f.d) n)
  | 0xB9 => do f.noMask; f.noD; f.noB; f.noC; let k ← f.ctr; pure (.ctradd k (← rS 17 f.a))
  | 0xBB => do f.noMask; f.noD; f.noB; f.noC; let k ← f.ctr; pure (.ctrset k (← rS 17 f.a))
  | 0xBD => do
    f.noMask
    f.noA
    f.noB
    f.noC
    need (f.fn.extractLsb' 6 2 == 0 || f.fn.extractLsb' 0 6 == 0) 3 43
    pure (.ctrget (f.fn.extractLsb' 6 2) (f.fn.extractLsb' 0 6) (← rS 10 f.d))
  | 0xBE => do f.noMask; f.noD; f.noB; f.noC; let k ← f.ctr; pure (.ctrwait k (← rS 17 f.a))
  | 0xCC => do
    f.noMask
    f.noD
    f.noA
    f.noB
    f.noC
    mbz 45 (f.fn.extractLsb' 2 2)
    pure (.qfence f.hi (f.fn.extractLsb' 0 2))
  | 0xCD => do
    f.noMask
    f.noD
    f.noB
    f.noC
    mbz 45 (f.fn.extractLsb' 2 6)
    pure (.qwait (f.fn.extractLsb' 0 2) (← rS 17 f.a))
  | 0xCF => do
    f.noMask
    f.noA
    f.noB
    f.noC
    mbz 47 f.hi
    pure (.qstat (bit1 (f.fn.extractLsb' 3 1)) (bit1 (f.fn.extractLsb' 2 1)) (f.fn.extractLsb' 0 2) (← rS 10 f.d))
  | 0xDB => do
    f.noB
    f.noC
    mbz 46 (f.fn.extractLsb' 3 1)
    let t ← f.ty (fun t => t == .f32 || t == .i32)
    need (f.fn.extractLsb' 1 2 != 3) 3 44
    pure (.mchkRow t (f.fn.extractLsb' 1 2) f.f0 f.mask (← rV 10 f.d) (← rS 17 f.a))
  | 0xDC => do
    f.noB
    f.noC
    mbz 46 (f.fn.extractLsb' 3 1)
    let t ← f.ty (fun t => t == .f32 || t == .i32)
    need (f.fn.extractLsb' 1 2 != 3) 3 44
    pure (.mchkCol t (f.fn.extractLsb' 1 2) f.f0 f.mask (← rV 10 f.d) (← rS 17 f.a))
  | 0xDD => do f.noMask; f.noD; f.noB; f.noC; f.noFn; pure (.mzero (← rS 17 f.a))
  | 0xDE => do f.noMask; f.noD; f.noA; f.noB; f.noC; f.noFn; pure .mzeroSlot0
  | _ => do f.noMask; f.noD; f.noA; f.noB; f.noC; f.noFn; pure .mzeroSlot1

/-- FA row 0xE: system (R376 R275 R274 R408 R407 R356 R296). -/
def decFAE (f : FA) : D Instr := do
  f.tail
  f.noMask
  match f.op with
  | 0xE1 => do f.noB; f.noC; f.noFn; pure (.mfsrReg (← rS 10 f.d) (← rS 17 f.a))
  | 0xE3 => do f.noD; f.noC; f.noFn; pure (.mtsrReg (← rS 24 f.b) (← rS 17 f.a))
  | 0xE5 => do f.noD; f.noB; f.noC; let bp ← f.only0; pure (.trapReg bp (← rS 17 f.a))
  | 0xE6 => do f.noD; f.noA; f.noB; f.noC; f.noFn; pure .rett
  | 0xE7 => do f.noD; f.noC; f.noFn; pure (.tlbw (← rS 17 f.a) (← rS 24 f.b))
  | 0xE8 => do f.noD; f.noFn; pure (.tlbwRm (← rS 17 f.a) (← rS 24 f.b) (← rS 31 f.c))
  | 0xE9 => do f.noD; f.noA; f.noB; f.noC; f.noFn; pure .tlbiAll
  | 0xEA => do f.noD; f.noB; f.noC; f.noFn; pure (.tlbiVa (← rS 17 f.a))
  | 0xEB => do f.noD; f.noB; f.noC; f.noFn; pure (.tlbiTn (← rS 17 f.a))
  | 0xED => do f.noC; f.noFn; pure (.ecallReg (← rS 10 f.d) (← rS 17 f.a) (← rS 24 f.b))
  | 0xEE => do f.noC; f.noFn; pure (.injArm (← rS 10 f.d) (← rS 17 f.a) (← rS 24 f.b))
  | _ => do f.noA; f.noB; f.noC; f.noFn; pure (.injOff (← rS 10 f.d))

/-- A shift amount in imm32[5:0] with imm32[31:6] zero (R76). -/
def shAmount (f : FI) : D (BitVec 6) := do mbz 32 (f.imm.extractLsb' 6 26); pure (f.imm.extractLsb' 0 6)
/-- Position and length of a bit field (R76, R342). -/
def bitField (f : FI) : D (BitVec 6 × BitVec 7) := do
  need (f.imm.extractLsb' 15 17 == 0 && f.imm.extractLsb' 6 2 == 0) 3 32
  need (fieldOk (f.imm.extractLsb' 0 6) (f.imm.extractLsb' 8 7)) 2 32
  pure (f.imm.extractLsb' 0 6, f.imm.extractLsb' 8 7)
/-- A counter in fn[5:0] with fn[7:6] zero (R214). -/
def FI.ctr (f : FI) : D KReg := do
  mbz 10 f.d
  mbz 17 f.a
  mbz 30 (f.fn.extractLsb' 6 2)
  pure (f.fn.extractLsb' 0 6)

/-- FI: immediate operations (R336 R397 R349 R381 R342 R420 R380 R364 R214 R392 R376 R275 R356). -/
def decFI (f : FI) : D Instr :=
  match f.op with
  | 0x10 => do mbz 24 f.fn; pure (.addi (← rSQ 10 f.d) (← rSQ 17 f.a) f.imm)
  | 0x11 => do mbz 24 f.fn; pure (.andi (← rSQ 10 f.d) (← rSQ 17 f.a) f.imm)
  | 0x12 => do mbz 24 f.fn; pure (.ori (← rSQ 10 f.d) (← rSQ 17 f.a) f.imm)
  | 0x13 => do mbz 24 f.fn; pure (.xori (← rSQ 10 f.d) (← rSQ 17 f.a) f.imm)
  | 0x14 => do mbz 24 f.fn; let n ← shAmount f; pure (.shli (← rSQ 10 f.d) (← rSQ 17 f.a) n)
  | 0x15 => do mbz 24 f.fn; let n ← shAmount f; pure (.shri (← rSQ 10 f.d) (← rSQ 17 f.a) n)
  | 0x16 => do mbz 24 f.fn; let n ← shAmount f; pure (.srai (← rSQ 10 f.d) (← rSQ 17 f.a) n)
  | 0x17 => do
    mbz 28 (f.fn.extractLsb' 4 4)
    let c ← dICond 24 (f.fn.extractLsb' 0 4)
    pure (.cmpi c (← rSQ 10 f.d) (← rSQ 17 f.a) f.imm)
  | 0x18 => do mbz 24 f.fn; mbz 17 f.a; pure (.movi (← rSQ 10 f.d) f.imm)
  | 0x19 => do
    mbz 25 (f.fn.extractLsb' 1 7)
    let (pos, len) ← bitField f
    pure (.bext (bit1 (f.fn.extractLsb' 0 1)) (← rSQ 10 f.d) (← rSQ 17 f.a) pos len)
  | 0x1A => do
    mbz 24 f.fn
    let (pos, len) ← bitField f
    pure (.bins (← rS 10 f.d) (← rSQ 17 f.a) pos len)
  | 0x68 => do
    mbz 24 (f.fn.extractLsb' 0 4)
    let t ← dTy 28 ElemTy.isVec (f.fn.extractLsb' 4 4)
    need (f.imm.toNat * t.lane < 1024) 2 28
    pure (.vextImm t (← rSQ 10 f.d) (← rVQ 17 f.a) f.imm)
  | 0x77 => do
    mbz 24 f.fn
    mbz 17 f.a
    need (f.imm.toNat ≤ 128) 2 32
    pure (.msetN (← rM 10 f.d) f.imm)
  | 0xB1 => do mbz 10 f.d; mbz 17 f.a; mbz 24 f.fn; pure (.holdSet f.imm)
  | 0xBA => do let k ← f.ctr; pure (.ctraddImm k f.imm)
  | 0xBC => do let k ← f.ctr; pure (.ctrsetImm k f.imm)
  | 0xBF => do let k ← f.ctr; pure (.ctrwaitImm k f.imm)
  | 0xCE => do
    mbz 10 f.d
    mbz 17 f.a
    mbz 26 (f.fn.extractLsb' 2 6)
    pure (.qwaitImm (f.fn.extractLsb' 0 2) f.imm)
  | 0xE0 => do
    mbz 24 f.fn
    mbz 17 f.a
    mbz 32 (f.imm.extractLsb' 12 20)
    need (srDefined (f.imm.extractLsb' 0 12).toNat) 3 32
    pure (.mfsr (← rS 10 f.d) (f.imm.extractLsb' 0 12))
  | 0xE2 => do
    mbz 24 f.fn
    mbz 10 f.d
    mbz 32 (f.imm.extractLsb' 12 20)
    need (srDefined (f.imm.extractLsb' 0 12).toNat) 3 32
    pure (.mtsr (f.imm.extractLsb' 0 12) (← rS 17 f.a))
  | 0xE4 => do
    mbz 10 f.d
    mbz 17 f.a
    mbz 25 (f.fn.extractLsb' 1 7)
    pure (.trap (bit1 (f.fn.extractLsb' 0 1)) f.imm)
  | _ => do mbz 24 f.fn; pure (.ecall (← rS 10 f.d) (← rS 17 f.a) f.imm)

/-- FB: branches (R341 R343 R344 R371). -/
def decFB (f : FB) : D Instr := do
  mbz 28 f.zero
  match f.op with
  | 0x30 => do mbz 10 f.a; mbz 17 f.b; dNoCond f.cond; pure (.br f.off)
  | 0x31 => do let c ← dICond 24 f.cond; pure (.bcnd c (← rS 10 f.a) (← rS 17 f.b) f.off)
  | 0x32 => do let c ← dMCond 24 f.cond; pure (.bmask c (← rM 10 f.a) (← rS 17 f.b) f.off)
  | 0x33 => do mbz 10 f.a; mbz 17 f.b; dNoCond f.cond; pure (.call f.off)
  | _ => do
    mbz 17 f.b
    dNoCond f.cond
    let a ← rS 10 f.a
    need (a != 0) 4 10
    pure (.loop a f.off)

/-- FX: long immediates and absolute addresses (R384 R341 R381 R336 R344 R415 R380 R367 R400 R421 R432). -/
def decFX (f : FX) : D Instr := do
  mbz 17 f.zero
  match f.op with
  | 0x3D => do mbz 10 f.d; mbz 32 f.imm; pure .nopW
  | 0x3F => do mbz 10 f.d; pure (.brAbs f.imm)
  | 0xF0 => do pure (.movw (← rS 10 f.d) f.imm)
  | 0xF1 => do pure (.addiFx (← rS 10 f.d) f.imm)
  | 0xF2 => do pure (.andiFx (← rS 10 f.d) f.imm)
  | 0xF3 => do pure (.oriFx (← rS 10 f.d) f.imm)
  | 0xF4 => do pure (.xoriFx (← rS 10 f.d) f.imm)
  | 0xF5 => do mbz 10 f.d; pure (.callAbs f.imm)
  | 0xF6 => do pure (.vbcastImm (← rVQ 10 f.d) f.imm)
  | 0xF7 => do pure (.msetLo (← rM 10 f.d) f.imm)
  | 0xF8 => do pure (.msetHi (← rM 10 f.d) f.imm)
  | 0xF9 => do pure (.ldAbs (← rS 10 f.d) f.imm)
  | 0xFA => do pure (.stAbs (← rS 10 f.d) f.imm)
  | 0xFB => do pure (.vldAbs (← rV 10 f.d) f.imm)
  | _ => do pure (.vstAbs (← rV 10 f.d) f.imm)

/-- FL row 0x8: loads and stores (R367 R400 R421 R432). -/
def decFL8 (f : FL) : D Instr :=
  match f.op with
  | 0x80 => do
    f.plain; f.noMask; let z ← dSz f.sz (LdSz.ofCode f.sz) .n8; pure (.ld z (← rS 10 f.d) (← f.addr))
  | 0x81 => do
    f.noMask
    let o ← dOrd Ord.isLd f.ord
    let sc ← dScope 45 f.scope
    let z ← dSz f.sz (LdSz.ofCode f.sz) .n8
    pure (.ldOrdered o sc z (← rS 10 f.d) (← f.addr))
  | 0x82 => do
    f.plain; f.noMask; let z ← dSz f.sz (StSz.ofCode f.sz) .n8; pure (.st z (← rS 10 f.d) (← f.addr))
  | 0x83 => do
    f.noMask
    let o ← dOrd Ord.isSt f.ord
    let sc ← dScope 45 f.scope
    let z ← dSz f.sz (StSz.ofCode f.sz) .n8
    pure (.stOrdered o sc z (← rS 10 f.d) (← f.addr))
  | 0x84 => do f.plain; dSzIs f.sz 7; pure (.vld f.mask (← rV 10 f.d) (← f.addr))
  | 0x85 => do
    let o ← dOrd Ord.isLd f.ord
    let sc ← dScope 45 f.scope
    dSzIs f.sz 7
    pure (.vldOrdered o sc f.mask (← rV 10 f.d) (← f.addr))
  | 0x86 => do f.plain; dSzIs f.sz 7; pure (.vst f.mask (← rV 10 f.d) (← f.addr))
  | 0x87 => do
    let o ← dOrd Ord.isSt f.ord
    let sc ← dScope 45 f.scope
    dSzIs f.sz 7
    pure (.vstOrdered o sc f.mask (← rV 10 f.d) (← f.addr))
  | 0x88 => do
    f.plain; let w ← dSz f.sz (EW.ofCode f.sz) .b8; pure (.vldx w f.mask (← rV 10 f.d) (← f.xaddr))
  | 0x89 => do
    let o ← dOrd Ord.isLd f.ord
    let sc ← dScope 45 f.scope
    let w ← dSz f.sz (EW.ofCode f.sz) .b8
    pure (.vldxOrdered o sc w f.mask (← rV 10 f.d) (← f.xaddr))
  | 0x8A => do
    f.plain; let w ← dSz f.sz (EW.ofCode f.sz) .b8; pure (.vstx w f.mask (← rV 10 f.d) (← f.xaddr))
  | 0x8B => do
    let o ← dOrd Ord.isSt f.ord
    let sc ← dScope 45 f.scope
    let w ← dSz f.sz (EW.ofCode f.sz) .b8
    pure (.vstxOrdered o sc w f.mask (← rV 10 f.d) (← f.xaddr))
  | 0x8C => do
    f.plain; let w ← dSz f.sz (EW.ofCode f.sz) .b8; pure (.vlds w f.mask (← rV 10 f.d) (← f.addr))
  | 0x8D => do
    let o ← dOrd Ord.isLd f.ord
    let sc ← dScope 45 f.scope
    let w ← dSz f.sz (EW.ofCode f.sz) .b8
    pure (.vldsOrdered o sc w f.mask (← rV 10 f.d) (← f.addr))
  | 0x8E => do
    f.plain; let w ← dSz f.sz (EW.ofCode f.sz) .b8; pure (.vsts w f.mask (← rV 10 f.d) (← f.addr))
  | _ => do
    let o ← dOrd Ord.isSt f.ord
    let sc ← dScope 45 f.scope
    let w ← dSz f.sz (EW.ofCode f.sz) .b8
    pure (.vstsOrdered o sc w f.mask (← rV 10 f.d) (← f.addr))

/-- The mode of `ldf`: 8, 9, 12 (R86). -/
def dLdf (f : FL) : D LdfMode := coded 37 (ordReserved f.ord) (LdfMode.ofCode f.ord) (fun _ => true) .wf
/-- The mode of `stf`: 10, 11 (R86). -/
def dStf (f : FL) : D StfMode := coded 37 (ordReserved f.ord) (StfMode.ofCode f.ord) (fun _ => true) .sf

/-- The fields of `vamo`: operation, order, scope, registers (R412). -/
def vamoF (f : FL) (size : Nat) : D (AmoOp × Ord × Scope × VReg × SReg × VIdx × BitVec 40) := do
  dSzIs f.sz size
  let o ← dOrd (fun _ => true) f.ord
  let sc ← dScope 45 f.scope
  let (op, disp) ← f.amo
  need (op != .cas) 2 48
  let d ← rV 10 f.d
  let a ← rS 17 f.a
  if f.b = 0 then do mbz 35 f.scale; pure (op, o, sc, d, a, .none, disp)
  else do let b ← rV 24 f.b; pure (op, o, sc, d, a, .v b, disp)

/-- FL row 0x9: synchronising and maintenance accesses (R369 R402 R359 R337 R412 R403 R391 R346). -/
def decFL9 (f : FL) : D Instr :=
  match f.op with
  | 0x90 => do
    f.noMask
    let mode ← dLdf f
    let sc ← dScope 45 f.scope
    let z ← dSz f.sz (LdSz.ofCode f.sz) .n8
    pure (.ldfS mode sc z (← rS 10 f.d) (← f.addr))
  | 0x91 => do
    let mode ← dLdf f
    let sc ← dScope 45 f.scope
    dSzIs f.sz 7
    pure (.ldfV mode sc f.mask (← rV 10 f.d) (← f.addr))
  | 0x92 => do
    f.noMask
    let mode ← dStf f
    let sc ← dScope 45 f.scope
    let z ← dSz f.sz (StSz.ofCode f.sz) .n8
    pure (.stfS mode sc z (← rS 10 f.d) (← f.addr))
  | 0x93 => do
    let mode ← dStf f
    let sc ← dScope 45 f.scope
    dSzIs f.sz 7
    pure (.stfV mode sc f.mask (← rV 10 f.d) (← f.addr))
  | 0x94 => do f.noMask; f.plain; dSzIs f.sz 0; mbz 10 f.d; pure (.fset (← f.addr))
  | 0x95 => do f.noMask; f.plain; dSzIs f.sz 0; mbz 10 f.d; pure (.fclr (← f.addr))
  | 0x96 => do
    f.noMask
    mbz 35 f.scale
    dSzIs f.sz 2
    let o ← dOrd (fun _ => true) f.ord
    let sc ← dScope 45 f.scope
    let (op, disp) ← f.amo
    pure (.amo32 op o sc (← rS 10 f.d) (← rS 17 f.a) disp (← rS 24 f.b))
  | 0x97 => do
    f.noMask
    mbz 35 f.scale
    dSzIs f.sz 3
    let o ← dOrd (fun _ => true) f.ord
    let sc ← dScope 45 f.scope
    let (op, disp) ← f.amo
    pure (.amo64 op o sc (← rS 10 f.d) (← rS 17 f.a) disp (← rS 24 f.b))
  | 0x98 => do
    let (op, o, sc, d, a, b, disp) ← vamoF f 2
    pure (.vamo32 op o sc f.mask d a b f.scale disp)
  | 0x99 => do
    let (op, o, sc, d, a, b, disp) ← vamoF f 1
    pure (.vamo16 op o sc f.mask d a b f.scale disp)
  | 0x9A => do
    f.noMask
    f.plainZ
    mbz 35 f.scale
    let w ← dSz f.sz (NW.ofCode f.sz) .bit4
    pure (.stn w (← rS 10 f.d) (← rS 17 f.a) (← rS 24 f.b) f.disp)
  | 0x9C => do f.noMask; f.plainZ; dSzIs f.sz 0; mbz 10 f.d; pure (.pref (← f.addr))
  | 0x9D => do
    f.noMask
    f.plainZ
    dSzIs f.sz 0
    mbz 10 f.d
    mbz 35 f.scale
    let a ← rS 17 f.a
    let b ← rS 24 f.b
    pure (.prefRange a f.disp b)
  | 0x9E => do
    f.noMask
    dPlain f.ord
    dSzIs f.sz 0
    mbz 35 f.scale
    let sc ← dScope 45 f.scope
    let d ← rS 10 f.d
    let a ← rS 17 f.a
    let b ← rS 24 f.b
    pure (.cwbr sc d a f.disp b)
  | _ => do
    f.noMask
    dPlain f.ord
    dSzIs f.sz 0
    mbz 35 f.scale
    let sc ← dScope 45 f.scope
    let d ← rS 10 f.d
    let a ← rS 17 f.a
    let b ← rS 24 f.b
    pure (.cinvr sc d a f.disp b)

/-- FM: the eight `mma` opcodes (R80, R378). -/
def decFM (f : FM) : D Instr := do
  mbz 64 f.zero
  let kc ← dKc f.kc
  need (f.swz != 3) 3 55
  need (f.chk != 3) 3 53
  need (f.kb.toNat ≤ 8) 3 49
  need (f.chk == 0 || f.ms == 0) 2 45
  let fa ← dFmt 37 (fun _ => true) f.fa
  let fb ← dFmt 41 (fun _ => true) f.fb
  let acc ← rS 10 f.acc
  let qa ← rQ 17 f.qa
  let qb ← rQ 24 f.qb
  let m : MmaF := ⟨kc, f.swz, f.chk, f.kb, bit1 f.zacc, bit1 f.keep, f.ms, fb, fa, f.mc, f.mr, qb, qa, acc⟩
  match f.op with
  | 0xD0 => pure (.mma16Slot0 m)
  | 0xD1 => pure (.mma16Slot1 m)
  | 0xD2 => pure (.mma8fSlot0 m)
  | 0xD3 => pure (.mma8fSlot1 m)
  | 0xD4 => pure (.mma8iSlot0 m)
  | 0xD5 => pure (.mma8iSlot1 m)
  | 0xD6 => pure (.mma4Slot0 m)
  | _ => pure (.mma4Slot1 m)

/-- The program of `mupl` (R184). -/
def muF (f : FE) : D Word := do
  f.noD; f.noA; f.noB; f.noC; f.noE; f.noFn; f.noQe; f.noKc
  need (muWords (muList f.imm)) 3 64
  need ((muWord f.imm 0).extractLsb' 12 4 != 0) 2 64
  pure f.imm

/-- FE other than the porter forms (R340 R384 R352 R215 R184 R398 R399 R349 R345). -/
def decFEA (f : FE) : D Instr :=
  match f.op with
  | 0x3E => do f.noD; f.noA; f.noB; f.noC; f.noE; f.noFn; f.noQe; f.noKc; f.noImm; pure .nopX
  | 0xA8 => do
    f.noD; f.noC; f.noE; f.noFn; f.noQe; f.noKc
    mbz 64 (f.imm.extractLsb' 16 48)
    pure (.bar (← rS 17 f.a) (← rS 24 f.b) (f.imm.extractLsb' 0 16))
  | 0xB3 => do
    f.noD; f.noE; f.noQe; f.noImm
    mbz 46 (f.fn.extractLsb' 1 7)
    let kc ← dKc f.kc
    pure (.depvK (bit1 (f.fn.extractLsb' 0 1)) (← rS 17 f.a) (← rS 24 f.b) (← rV 31 f.c) kc)
  | 0xB5 => do
    f.noD; f.noE; f.noQe; f.noImm
    mbz 46 (f.fn.extractLsb' 1 7)
    let kc ← dKc f.kc
    pure (.depsK (bit1 (f.fn.extractLsb' 0 1)) (← rS 17 f.a) (← rS 24 f.b) (← rS 31 f.c) kc)
  | 0xB7 => do
    f.noE; f.noImm
    need (f.kc.extractLsb' 6 1 == 1) 3 57
    mbz 53 (f.qe.extractLsb' 1 3)
    mbz 52 (f.fn.extractLsb' 7 1)
    let any := bit1 (f.fn.extractLsb' 6 1)
    let rearm := bit1 (f.qe.extractLsb' 0 1)
    need (!any || f.fn.extractLsb' 0 6 == 0) 3 45
    need (rearm || f.c == 0) 3 31
    let d ← rS 10 f.d
    let a ← rS 17 f.a
    let b ← rS 24 f.b
    let c ← rS 31 f.c
    pure (.post rearm any (f.fn.extractLsb' 0 6) d a b c (f.kc.extractLsb' 0 6))
  | 0xD8 => do let p ← muF f; pure (.mupl1 p)
  | 0xD9 => do let p ← muF f; pure (.mupl2 p)
  | 0xDA => do let p ← muF f; pure (.mupl3 p)
  | 0xFD => do
    f.noA; f.noB; f.noE; f.noFn; f.noQe; f.noKc
    let d ← rS 10 f.d
    let c ← rS 31 f.c
    need (c.toNat ≤ 28) 4 31
    pure (.startFe d c f.imm)
  | 0xFE => do
    f.noB; f.noE; f.noFn; f.noQe; f.noKc
    let d ← rS 10 f.d
    let a ← rS 17 f.a
    let c ← rS 31 f.c
    need (c.toNat ≤ 28) 4 31
    pure (.spawnFe d a c f.imm)
  | 0xFF => do
    f.noB; f.noC; f.noE; f.noQe; f.noKc
    mbz 49 (f.fn.extractLsb' 4 4)
    let c ← dICond 45 (f.fn.extractLsb' 0 4)
    pure (.cmpiFe c (← rS 10 f.d) (← rS 17 f.a) f.imm)
  | 0xCA => do
    f.noD; f.noB; f.noC; f.noE; f.noFn; f.noKc; f.noImm; f.noSwz
    pure (.chainHead (f.qe.extractLsb' 0 2) (← rS 17 f.a))
  | _ => do
    f.noD; f.noA; f.noB; f.noC; f.noE; f.noFn; f.noKc; f.noImm; f.noSwz
    pure (.chainApp (f.qe.extractLsb' 0 2))

/-- FE: the porter forms (R195, R196, R202, R203). -/
def decFEC (f : FE) : D Instr := do
  let g ← f.cpy
  match f.op with
  | 0xC0 => do
    let stage ← f.stage 4
    let swz ← f.swz
    let fmt := f.fn.extractLsb' 0 4
    if stage.toNat ≤ 2 then do f.noFmt; f.noImm
    else need (fmt == 4 || fmt == 5 || fmt == 6) (if 10 ≤ fmt.toNat then 3 else 2) 45
    f.noE
    pure (.cpy g stage fmt swz (← rS 17 f.a) (← rS 24 f.b) (← rS 31 f.c) f.imm)
  | 0xC1 => do
    let stage ← f.stage 2
    let swz ← f.swz
    f.stageFmt
    pure (.cpy2d g stage swz (← rS 17 f.a) (← rS 24 f.b) (← rS 31 f.c) (← rS 38 f.e) f.imm)
  | 0xC2 => do
    let stage ← f.stage 2
    let swz ← f.swz
    f.stageFmt
    f.noImm
    pure (.cpy3d g stage swz (← rS 17 f.a) (← rS 24 f.b) (← rS 31 f.c) (← rS 38 f.e))
  | 0xC3 => do
    let stage ← f.stage 2
    let swz ← f.swz
    f.stageFmt
    pure (.cpyMc g stage swz (← rS 17 f.a) (← rS 24 f.b) (← rS 31 f.c) (← rS 38 f.e) f.imm)
  | 0xC4 => do
    f.noSwz
    mbz 50 (f.fn.extractLsb' 5 3)
    let fmt ← dFmt 45 (fun _ => true) (f.fn.extractLsb' 0 4)
    f.noImm
    let e ← rS 38 f.e
    need (fmt.isMx || f.e == 0) 3 38
    need (!fmt.isMx || f.e != 0) 2 38
    pure (.cpyQ g fmt (← rQ 17 f.a) (← rS 24 f.b) (← rS 31 f.c) e)
  | 0xC5 => do
    f.noSwz
    mbz 50 (f.fn.extractLsb' 5 3)
    let fmt ← dFmt 45 (fun _ => true) (f.fn.extractLsb' 0 4)
    let e ← rS 38 f.e
    need (fmt.isMx || f.e == 0) 3 38
    need (!fmt.isMx || f.e != 0) 2 38
    pure (.cpyQ2d g fmt (← rQ 17 f.a) (← rS 24 f.b) (← rS 31 f.c) e f.imm)
  | 0xC6 => do
    f.noSwz
    f.noE
    mbz 51 (f.fn.extractLsb' 6 2)
    let p := f.fn.extractLsb' 0 4
    need (2 ≤ p.toNat && p.toNat ≤ 8) 2 45
    pure (.cpyPl g (bit1 (f.fn.extractLsb' 5 1)) p (← rSQ 17 f.a) (← rS 24 f.b) (← rS 31 f.c) f.imm)
  | 0xC7 => do
    let _ ← f.stage 0
    f.noSwz
    f.stageFmt
    f.noB
    f.noE
    pure (.cpyFill g (← rS 17 f.a) (← rS 31 f.c) f.imm)
  | 0xC8 => do
    f.noSwz
    mbz 50 (f.fn.extractLsb' 5 3)
    f.noFmt
    mbz 64 (f.imm.extractLsb' 17 15)
    pure (.cpyxG g (← rS 17 f.a) (← rS 24 f.b) (← rS 31 f.c) (← rS 38 f.e) f.imm)
  | _ => do
    f.noSwz
    mbz 50 (f.fn.extractLsb' 5 3)
    f.noFmt
    mbz 64 (f.imm.extractLsb' 17 15)
    pure (.cpyxS g (← rS 17 f.a) (← rS 24 f.b) (← rS 31 f.c) (← rS 38 f.e) f.imm)

/-! The format of an opcode (R92). -/

/-- The seven formats. -/
inductive Fm where
  | fa | fi | fb | fl | fx | fm | fe
deriving DecidableEq, Repr

/-- Instruction length in bytes (R70). -/
def Fm.bytes : Fm → Nat
  | .fa | .fi | .fb => 8
  | .fl | .fx => 12
  | .fm | .fe => 16

/-- The format of each opcode, read off the map of R92. -/
def formatOf (op : Nat) : Fm :=
  if 0x10 ≤ op && op ≤ 0x1A then .fi
  else if (0x30 ≤ op && op ≤ 0x33) || op == 0x37 then .fb
  else if op == 0x3D || op == 0x3F then .fx
  else if op == 0x3E || op == 0xA8 || op == 0xB3 || op == 0xB5 || op == 0xB7 then .fe
  else if op == 0x68 || op == 0x77 || op == 0xB1 || op == 0xBA || op == 0xBC || op == 0xBF || op == 0xCE
    || op == 0xE0 || op == 0xE2 || op == 0xE4 || op == 0xEC then .fi
  else if 0x80 ≤ op && op ≤ 0x9F && op != 0x9B then .fl
  else if (0xC0 ≤ op && op ≤ 0xCB) || (0xD8 ≤ op && op ≤ 0xDA) then .fe
  else if 0xD0 ≤ op && op ≤ 0xD7 then .fm
  else if 0xF0 ≤ op && op ≤ 0xFC then .fx
  else if 0xFD ≤ op then .fe
  else .fa

/-- FA by row. -/
def decFA (f : FA) : D Instr :=
  let o := f.op.toNat
  if o < 0x20 then decFA0 f
  else if o < 0x30 then decFA2 f
  else if o < 0x40 then decFA3 f
  else if o < 0x50 then decFA4 f
  else if o < 0x60 then decFA5 f
  else if o < 0x70 then decFA6 f
  else if o < 0x80 then decFA7 f
  else if o < 0xB0 then decFAA f
  else if o < 0xE0 then decFAB f
  else decFAE f

/-- The instruction and the faults of the fields. -/
def decRaw : Raw → D Instr
  | .fa f => decFA f
  | .fi f => decFI f
  | .fb f => decFB f
  | .fl f => if f.op.toNat < 0x90 then decFL8 f else decFL9 f
  | .fx f => decFX f
  | .fm f => decFM f
  | .fe f => if 0xC0 ≤ f.op.toNat && f.op.toNat < 0xCA then decFEC f else decFEA f

/-- The opcode of a field record. -/
def Raw.op : Raw → BitVec 8
  | .fa f => f.op
  | .fi f => f.op
  | .fb f => f.op
  | .fl f => f.op
  | .fx f => f.op
  | .fm f => f.op
  | .fe f => f.op

/-- The lowest field bit among the faults of one subcode. -/
def lowestBit (sub : Nat) : List (Nat × Nat) → Option Nat
  | [] => none
  | (s, b) :: t =>
    match lowestBit sub t with
    | none => if s = sub then some b else none
    | some b' => if s = sub && b < b' then some b else some b'

/-- The fault that the device reports (R91): reserved fields first, then undefined values, then operand classes; in
one check the field whose lowest bit is lowest. -/
def firstFault (op : Nat) (l : List (Nat × Nat)) : Option DecErr :=
  match lowestBit 3 l with
  | some b => some ⟨3, b, op⟩
  | none =>
    match lowestBit 2 l with
    | some b => some ⟨2, b, op⟩
    | none =>
      match lowestBit 4 l with
      | some b => some ⟨4, b, op⟩
      | none => none

/-- Decode a field record. -/
def ofRaw (r : Raw) : Except DecErr Instr :=
  let p := decRaw r []
  match firstFault r.op.toNat p.2 with
  | some e => .error e
  | none => .ok p.1

/-- Little-endian value of a byte list (R1). -/
def leNat : List Byte → Nat
  | [] => 0
  | b :: t => b.toNat + 256 * leNat t

/-- The first n bytes of a number, little-endian. -/
def leBytes : Nat → Nat → List Byte
  | 0, _ => []
  | n + 1, v => BitVec.ofNat 8 v :: leBytes n (v / 256)

/-- The field record of the n bytes of an instruction with opcode `op`. -/
def rawOf (fmt : Fm) (v : Nat) : Raw :=
  match fmt with
  | .fa => .fa (FA.unpack (BitVec.ofNat 64 v))
  | .fi => .fi (FI.unpack (BitVec.ofNat 64 v))
  | .fb => .fb (FB.unpack (BitVec.ofNat 64 v))
  | .fl => .fl (FL.unpack (BitVec.ofNat 96 v))
  | .fx => .fx (FX.unpack (BitVec.ofNat 96 v))
  | .fm => .fm (FM.unpack (BitVec.ofNat 128 v))
  | .fe => .fe (FE.unpack (BitVec.ofNat 128 v))

/-- The instruction length that the first byte gives (R70); none for code 0b11. -/
def lengthCode (b0 : Byte) : Option Nat :=
  match b0.toNat % 4 with
  | 0 => some 8
  | 1 => some 12
  | 2 => some 16
  | _ => none

/-- The opcode in bits [9:2] (R70). -/
def opcodeOf (v : Nat) : Nat := (v / 4) % 256

/-- Decode the bytes at an address (R91, up to the privilege check): the length code, the fetch boundary, the length
of the opcode, then the fields. Missing bytes read as zero. The result holds the instruction and its length. -/
def decodeAt (pc : Nat) (bytes : List Byte) : Except DecErr (Instr × Nat) :=
  let v := leNat (bytes.take 16)
  match lengthCode (BitVec.ofNat 8 v) with
  | none => .error ⟨1, 0, opcodeOf v⟩
  | some n =>
    if 32 < pc % 32 + n then .error ⟨5, 0, opcodeOf v⟩
    else if (formatOf (opcodeOf v)).bytes ≠ n then .error ⟨1, 0, opcodeOf v⟩
    else
      match ofRaw (rawOf (formatOf (opcodeOf v)) v) with
      | .error e => .error e
      | .ok i => .ok (i, n)

/-- Decode a byte string that begins at a fetch-block boundary. -/
def decode (bytes : List Byte) : Except DecErr (Instr × Nat) := decodeAt 0 bytes

/-- The instruction of a word as spec/opcode_table.json numbers its bits: the bytes little-endian, zero above. -/
def decodeTableWord (nbits w : Nat) : Option Instr :=
  match decode (leBytes 16 (w % 2 ^ nbits)) with
  | .ok (i, _) => some i
  | .error _ => none

/-! The encoder, written from the same tables. -/

/-- A truth value as a one-bit field. -/
def b1 (b : Bool) : BitVec 1 := BitVec.ofBool b
/-- The float layout of fn: rounding in [3:1], sat in [0], type or zero above (R84). -/
def fnFlt (hi : BitVec 4) (rm : Rm) (sat : Bool) : BitVec 8 := hi ++ rm.code ++ b1 sat
/-- The vector integer layout of fn (R84). -/
def fnInt (t : ElemTy) (sat : Bool) : BitVec 8 := t.code ++ b1 sat ++ 0#3
/-- A type with fn[3:0] zero. -/
def fnTy (t : ElemTy) : BitVec 8 := t.code ++ 0#4
/-- A variant in fn[0]. -/
def fn0 (b : Bool) : BitVec 8 := 0#7 ++ b1 b
/-- The conversion mode (R85). -/
def cMode (om : Om) (rm : Rm) (part : BitVec 2) : BitVec 7 := part ++ om.code ++ rm.code
/-- A reduction operation in c (R428). -/
def cRed (op : RedOp) : BitVec 7 := 0#4 ++ op.code
/-- A counter or entry in fn[5:0]. -/
def fnCtr (k : BitVec 6) : BitVec 8 := 0#2 ++ k

/-- Three scalar operands. -/
def raw3 (op : BitVec 8) (d a b : SQ) (fn : BitVec 8) : Option Raw :=
  some (.fa { op, d := eSQ d, a := eSQ a, b := eSQ b, fn })
/-- Four scalar operands. -/
def raw4 (op : BitVec 8) (d a b c : SQ) (fn : BitVec 8) : Option Raw :=
  some (.fa { op, d := eSQ d, a := eSQ a, b := eSQ b, c := eSQ c, fn })
/-- Two scalar operands. -/
def raw2 (op : BitVec 8) (d a : SQ) (fn : BitVec 8) (c : BitVec 7 := 0) : Option Raw :=
  some (.fa { op, d := eSQ d, a := eSQ a, c, fn })
/-- Vector operands under a mask. -/
def rawV (op : BitVec 8) (m : VMask) (d a : BitVec 7) (b c : BitVec 7) (fn : BitVec 8) : Option Raw :=
  some (.fa { op, d, a, b, c, fn, mr := m.m, mn := b1 m.n, mz := b1 m.z })
/-- Two scalar operands and an immediate. -/
def rawI (op : BitVec 8) (d a : BitVec 7) (imm : BitVec 32) (fn : BitVec 8 := 0) : Option Raw :=
  some (.fi { op, d, a, imm, fn })
/-- A memory form. -/
def rawM (op : BitVec 8) (d : BitVec 7) (m : Addr) (sz : BitVec 4) (ord : BitVec 4 := 0) (sc : BitVec 3 := 0)
    (k : LMask := ⟨0, false⟩) : Option Raw :=
  some (.fl { op, d, a := eS m.a, b := eS m.b, mr := k.m, mn := b1 k.n, scale := m.scale, ord, sz, scope := sc,
              disp := m.disp })
/-- A memory form with an index vector. -/
def rawX (op : BitVec 8) (d : BitVec 7) (m : XAddr) (sz : BitVec 4) (k : LMask) (ord : BitVec 4 := 0)
    (sc : BitVec 3 := 0) : Option Raw :=
  some (.fl { op, d, a := eS m.a, b := eV m.b, mr := k.m, mn := b1 k.n, scale := m.scale, ord, sz, scope := sc,
              disp := m.disp })
/-- A porter form. -/
def rawC (op : BitVec 8) (f : CpyF) (a b c e : BitVec 7) (fn : BitVec 8) (swz : BitVec 4) (imm : Word) : Option Raw :=
  some (.fe { op, d := eS f.d, a, b, c, e, fn := fn ||| (0#3 ++ b1 f.bytes ++ 0#4),
              qe := swz.extractLsb' 0 2 ++ f.queue, kc := eKc f.kc, imm })
/-- An `mma`. -/
def rawMma (op : BitVec 8) (f : MmaF) : Option Raw :=
  some (.fm { op, acc := eS f.acc, qa := eQ f.qa, qb := eQ f.qb, mr := f.mr, mc := f.mc, fa := f.fa.code,
              fb := f.fb.code, ms := f.ms, keep := b1 f.keep, zacc := b1 f.zacc, kb := f.kb, chk := f.chk,
              swz := f.swz, kc := eKc f.kc })
/-- An atomic's displacement field. -/
def amoDisp (op : AmoOp) (disp : BitVec 40) : BitVec 48 := op.code ++ disp

/-- The field record of an opcode's instruction; none for a device event, which has no encoding. -/
def toRaw : Instr → Option Raw
  | .add d a b => raw3 0x00 d a b 0
  | .sub d a b => raw3 0x01 d a b 0
  | .mul d a b => raw3 0x02 d a b 0
  | .mulh u d a b => raw3 0x03 d a b (fn0 u)
  | .mad d a b c => raw4 0x04 d a b c 0
  | .div u d a b => raw3 0x05 d a b (fn0 u)
  | .rem u d a b => raw3 0x06 d a b (fn0 u)
  | .and d a b => raw3 0x07 d a b 0
  | .or d a b => raw3 0x08 d a b 0
  | .xor d a b => raw3 0x09 d a b 0
  | .shl d a b => raw3 0x0A d a b 0
  | .shr d a b => raw3 0x0B d a b 0
  | .sra d a b => raw3 0x0C d a b 0
  | .rot d a b => raw3 0x0D d a b 0
  | .min u d a b => raw3 0x0E d a b (fn0 u)
  | .max u d a b => raw3 0x0F d a b (fn0 u)
  | .addi d a imm => rawI 0x10 (eSQ d) (eSQ a) imm
  | .andi d a imm => rawI 0x11 (eSQ d) (eSQ a) imm
  | .ori d a imm => rawI 0x12 (eSQ d) (eSQ a) imm
  | .xori d a imm => rawI 0x13 (eSQ d) (eSQ a) imm
  | .shli d a n => rawI 0x14 (eSQ d) (eSQ a) (0#26 ++ n)
  | .shri d a n => rawI 0x15 (eSQ d) (eSQ a) (0#26 ++ n)
  | .srai d a n => rawI 0x16 (eSQ d) (eSQ a) (0#26 ++ n)
  | .cmpi c d a imm => rawI 0x17 (eSQ d) (eSQ a) imm (0#4 ++ c.code)
  | .movi d imm => rawI 0x18 (eSQ d) 0 imm
  | .bext sg d a pos len => rawI 0x19 (eSQ d) (eSQ a) (0#17 ++ len ++ 0#2 ++ pos) (fn0 sg)
  | .bins d a pos len => rawI 0x1A (eS d) (eSQ a) (0#17 ++ len ++ 0#2 ++ pos)
  | .clz d a => raw2 0x1B d a 0
  | .ctz d a => raw2 0x1C d a 0
  | .popc d a => raw2 0x1D d a 0
  | .cmp c d a b => raw3 0x1E d a b (0#4 ++ c.code)
  | .sel d a b c => raw4 0x1F d a b c 0
  | .faddF32 rm sat d a b => raw3 0x20 d a b (fnFlt 0 rm sat)
  | .faddF64 rm sat d a b => raw3 0x21 d a b (fnFlt 0 rm sat)
  | .fsubF32 rm sat d a b => raw3 0x22 d a b (fnFlt 0 rm sat)
  | .fsubF64 rm sat d a b => raw3 0x23 d a b (fnFlt 0 rm sat)
  | .fmulF32 rm sat d a b => raw3 0x24 d a b (fnFlt 0 rm sat)
  | .fmulF64 rm sat d a b => raw3 0x25 d a b (fnFlt 0 rm sat)
  | .ffmaF32 rm sat d a b c => raw4 0x26 d a b c (fnFlt 0 rm sat)
  | .ffmaF64 rm sat d a b c => raw4 0x27 d a b c (fnFlt 0 rm sat)
  | .fdivF32 rm sat d a b => raw3 0x28 d a b (fnFlt 0 rm sat)
  | .fdivF64 rm sat d a b => raw3 0x29 d a b (fnFlt 0 rm sat)
  | .fsqrtF32 rm sat d a => raw2 0x2A d a (fnFlt 0 rm sat)
  | .fsqrtF64 rm sat d a => raw2 0x2B d a (fnFlt 0 rm sat)
  | .fmin t d a b => raw3 0x2C d a b (fnTy t)
  | .fmax t d a b => raw3 0x2D d a b (fnTy t)
  | .fcmp t c d a b => raw3 0x2E d a b (t.code ++ c.code)
  | .fcvt dt src om rm d a => raw2 0x2F d a (dt.code ++ src.code) (cMode om rm 0)
  | .br off => some (.fb { op := 0x30, off })
  | .bcnd c a b off => some (.fb { op := 0x31, a := eS a, b := eS b, cond := c.code, off })
  | .bmask c a b off => some (.fb { op := 0x32, a := eM a, b := eS b, cond := c.code, off })
  | .call off => some (.fb { op := 0x33, off })
  | .callr a => some (.fa { op := 0x34, a := eS a })
  | .ret => some (.fa { op := 0x35 })
  | .jr a => some (.fa { op := 0x36, a := eS a })
  | .loop a off => some (.fb { op := 0x37, a := eS a, off })
  | .halt a => some (.fa { op := 0x38, a := eS a })
  | .nop => some (.fa { op := 0x39 })
  | .yield => some (.fa { op := 0x3A })
  | .wspill => some (.fa { op := 0x3B })
  | .wfill => some (.fa { op := 0x3C })
  | .nopW => some (.fx { op := 0x3D })
  | .nopX => some (.fe { op := 0x3E })
  | .brAbs t => some (.fx { op := 0x3F, imm := t })
  | .vaddI t s m d a b => rawV 0x40 m (eVQ d) (eVQ a) (eVQ b) 0 (fnInt t s)
  | .vaddF t rm s m d a b => rawV 0x41 m (eVQ d) (eVQ a) (eVQ b) 0 (fnFlt t.code rm s)
  | .vsubI t s m d a b => rawV 0x42 m (eVQ d) (eVQ a) (eVQ b) 0 (fnInt t s)
  | .vsubF t rm s m d a b => rawV 0x43 m (eVQ d) (eVQ a) (eVQ b) 0 (fnFlt t.code rm s)
  | .vmulI t s m d a b => rawV 0x44 m (eVQ d) (eVQ a) (eVQ b) 0 (fnInt t s)
  | .vmulF t rm s m d a b => rawV 0x45 m (eVQ d) (eVQ a) (eVQ b) 0 (fnFlt t.code rm s)
  | .vfmaI t s m d a b c => rawV 0x46 m (eVQ d) (eVQ a) (eVQ b) (eVQ c) (fnInt t s)
  | .vfmaF t rm s m d a b c => rawV 0x47 m (eVQ d) (eVQ a) (eVQ b) (eVQ c) (fnFlt t.code rm s)
  | .vmaxI t m d a b => rawV 0x48 m (eVQ d) (eVQ a) (eVQ b) 0 (fnInt t false)
  | .vmaxF t m d a b => rawV 0x49 m (eVQ d) (eVQ a) (eVQ b) 0 (fnTy t)
  | .vminI t m d a b => rawV 0x4A m (eVQ d) (eVQ a) (eVQ b) 0 (fnInt t false)
  | .vminF t m d a b => rawV 0x4B m (eVQ d) (eVQ a) (eVQ b) 0 (fnTy t)
  | .vcmpI t c m d a b => rawV 0x4C m (eM d) (eVQ a) (eVQ b) 0 (t.code ++ c.code)
  | .vcmpF t c m d a b => rawV 0x4D m (eM d) (eVQ a) (eVQ b) 0 (t.code ++ c.code)
  | .vabs t s m d a => rawV 0x4E m (eVQ d) (eVQ a) 0 0 (fnInt t s)
  | .vneg t s m d a => rawV 0x4F m (eVQ d) (eVQ a) 0 0 (fnInt t s)
  | .vdiv t rm s m d a b => rawV 0x50 m (eVQ d) (eVQ a) (eVQ b) 0 (fnFlt t.code rm s)
  | .vsqrt t rm s m d a => rawV 0x51 m (eVQ d) (eVQ a) 0 0 (fnFlt t.code rm s)
  | .vrcp t rm s m d a => rawV 0x52 m (eVQ d) (eVQ a) 0 0 (fnFlt t.code rm s)
  | .vrsqrt t rm s m d a => rawV 0x53 m (eVQ d) (eVQ a) 0 0 (fnFlt t.code rm s)
  | .vexp2 t rm s m d a => rawV 0x54 m (eVQ d) (eVQ a) 0 0 (fnFlt t.code rm s)
  | .vlog2 t rm s m d a => rawV 0x55 m (eVQ d) (eVQ a) 0 0 (fnFlt t.code rm s)
  | .vdot t rm s m d a b c => rawV 0x56 m (eVQ d) (eVQ a) (eVQ b) (eVQ c) (fnFlt t.code rm s)
  | .vand t m d a b => rawV 0x57 m (eVQ d) (eVQ a) (eVQ b) 0 (fnTy t)
  | .vor t m d a b => rawV 0x58 m (eVQ d) (eVQ a) (eVQ b) 0 (fnTy t)
  | .vxor t m d a b => rawV 0x59 m (eVQ d) (eVQ a) (eVQ b) 0 (fnTy t)
  | .vshl t m d a b => rawV 0x5A m (eVQ d) (eVQ a) (eVQ b) 0 (fnTy t)
  | .vshr t m d a b => rawV 0x5B m (eVQ d) (eVQ a) (eVQ b) 0 (fnTy t)
  | .vsra t m d a b => rawV 0x5C m (eVQ d) (eVQ a) (eVQ b) 0 (fnTy t)
  | .vsel t k d a b => rawV 0x5D ⟨k.m, k.n, false⟩ (eVQ d) (eVQ a) (eVQ b) 0 (fnTy t)
  | .vmov t m d a => rawV 0x5E m (eVQ d) (eVQ a) 0 0 (fnTy t)
  | .vbcast t m d a => rawV 0x5F m (eVQ d) (eSQ a) 0 0 (fnTy t)
  | .vperm t m d a b c => rawV 0x60 m (eVQ d) (eVQ a) (eVQ b) (eVQ c) (fnTy t)
  | .vredI op t k d a => rawV 0x61 ⟨k.m, k.n, false⟩ (eSQ d) (eVQ a) 0 (cRed op) (fnInt t false)
  | .vredF op t rm s k d a => rawV 0x62 ⟨k.m, k.n, false⟩ (eSQ d) (eVQ a) 0 (cRed op) (fnFlt t.code rm s)
  | .vscanI op t s m d a => rawV 0x63 m (eVQ d) (eVQ a) 0 (cRed op) (fnInt t s)
  | .vscanF op t rm s m d a => rawV 0x64 m (eVQ d) (eVQ a) 0 (cRed op) (fnFlt t.code rm s)
  | .vslide t m d a b => rawV 0x65 m (eVQ d) (eVQ a) (eS b) 0 (fnTy t)
  | .vzip hi uz t m d a b => rawV 0x66 m (eVQ d) (eVQ a) (eVQ b) 0 (t.code ++ 0#2 ++ b1 uz ++ b1 hi)
  | .vext t d a b => rawV 0x67 ⟨0, false, false⟩ (eSQ d) (eVQ a) (eS b) 0 (fnTy t)
  | .vextImm t d a imm => rawI 0x68 (eSQ d) (eVQ a) imm (fnTy t)
  | .vins t d a b => rawV 0x69 ⟨0, false, false⟩ (eV d) (eSQ a) (eS b) 0 (fnTy t)
  | .vcvtSame dt src om rm p m d a => rawV 0x6A m (eVQ d) (eVQ a) 0 (cMode om rm p) (dt.code ++ src.code)
  | .vcvtWide dt src om rm p m d a => rawV 0x6B m (eVQ d) (eVQ a) 0 (cMode om rm p) (dt.code ++ src.code)
  | .vcvtNarrow dt src om rm p m d a => rawV 0x6C m (eVQ d) (eVQ a) 0 (cMode om rm p) (dt.code ++ src.code)
  | .vqnt f om rm p d b a => rawV 0x6D ⟨0, false, false⟩ (eVQ d) (eVQ a) (eS b) (cMode om rm p) (0#4 ++ f.code)
  | .vdqnt f om p d a b => rawV 0x6E ⟨0, false, false⟩ (eVQ d) (eVQ a) (eS b) (cMode om .rne p) (0#4 ++ f.code)
  | .vrnd m d a => rawV 0x6F m (eVQ d) (eS a) 0 0 0
  | .mand d a b => some (.fa { op := 0x70, d := eM d, a := eM a, b := eM b })
  | .mor d a b => some (.fa { op := 0x71, d := eM d, a := eM a, b := eM b })
  | .mxor d a b => some (.fa { op := 0x72, d := eM d, a := eM a, b := eM b })
  | .mnot d a b => some (.fa { op := 0x73, d := eM d, a := eM a, b := eS b })
  | .mpopc d a b => some (.fa { op := 0x74, d := eS d, a := eM a, b := eS b })
  | .mfirst d a b => some (.fa { op := 0x75, d := eS d, a := eM a, b := eS b })
  | .mset d a b => some (.fa { op := 0x76, d := eM d, a := eS a, b := eS b })
  | .msetN d n => rawI 0x77 (eM d) 0 n
  | .msetB8 d a => some (.fa { op := 0x78, d := eM d, a := eV a })
  | .msetB16 d a => some (.fa { op := 0x79, d := eM d, a := eV a })
  | .msetB32 d a => some (.fa { op := 0x7A, d := eM d, a := eV a })
  | .mmov d a => some (.fa { op := 0x7B, d := eM d, a := eM a })
  | .mmovS hi d a => some (.fa { op := 0x7C, d := eS d, a := eM a, fn := fn0 hi })
  | .mmovB8 m d a => rawV 0x7D m (eV d) (eM a) 0 0 0
  | .mmovB16 m d a => rawV 0x7E m (eV d) (eM a) 0 0 0
  | .mmovB32 m d a => rawV 0x7F m (eV d) (eM a) 0 0 0
  | .ld z d m => rawM 0x80 (eS d) m z.code
  | .ldOrdered o sc z d m => rawM 0x81 (eS d) m z.code o.code sc.code
  | .st z d m => rawM 0x82 (eS d) m z.code
  | .stOrdered o sc z d m => rawM 0x83 (eS d) m z.code o.code sc.code
  | .vld k d m => rawM 0x84 (eV d) m 7 0 0 k
  | .vldOrdered o sc k d m => rawM 0x85 (eV d) m 7 o.code sc.code k
  | .vst k d m => rawM 0x86 (eV d) m 7 0 0 k
  | .vstOrdered o sc k d m => rawM 0x87 (eV d) m 7 o.code sc.code k
  | .vldx w k d x => rawX 0x88 (eV d) x w.code k
  | .vldxOrdered o sc w k d x => rawX 0x89 (eV d) x w.code k o.code sc.code
  | .vstx w k d x => rawX 0x8A (eV d) x w.code k
  | .vstxOrdered o sc w k d x => rawX 0x8B (eV d) x w.code k o.code sc.code
  | .vlds w k d m => rawM 0x8C (eV d) m w.code 0 0 k
  | .vldsOrdered o sc w k d m => rawM 0x8D (eV d) m w.code o.code sc.code k
  | .vsts w k d m => rawM 0x8E (eV d) m w.code 0 0 k
  | .vstsOrdered o sc w k d m => rawM 0x8F (eV d) m w.code o.code sc.code k
  | .ldfS mode sc z d m => rawM 0x90 (eS d) m z.code mode.code sc.code
  | .ldfV mode sc k d m => rawM 0x91 (eV d) m 7 mode.code sc.code k
  | .stfS mode sc z d m => rawM 0x92 (eS d) m z.code mode.code sc.code
  | .stfV mode sc k d m => rawM 0x93 (eV d) m 7 mode.code sc.code k
  | .fset m => rawM 0x94 0 m 0
  | .fclr m => rawM 0x95 0 m 0
  | .amo32 op o sc d a disp b => rawM 0x96 (eS d) ⟨a, b, 0, amoDisp op disp⟩ 2 o.code sc.code
  | .amo64 op o sc d a disp b => rawM 0x97 (eS d) ⟨a, b, 0, amoDisp op disp⟩ 3 o.code sc.code
  | .vamo32 op o sc k d a b scale disp =>
    match b with
    | .none => rawM 0x98 (eV d) ⟨a, 0, scale, amoDisp op disp⟩ 2 o.code sc.code k
    | .v r => rawX 0x98 (eV d) ⟨a, r, scale, amoDisp op disp⟩ 2 k o.code sc.code
  | .vamo16 op o sc k d a b scale disp =>
    match b with
    | .none => rawM 0x99 (eV d) ⟨a, 0, scale, amoDisp op disp⟩ 1 o.code sc.code k
    | .v r => rawX 0x99 (eV d) ⟨a, r, scale, amoDisp op disp⟩ 1 k o.code sc.code
  | .stn w d a b disp => rawM 0x9A (eS d) ⟨a, b, 0, disp⟩ w.code
  | .fence o sc => some (.fa { op := 0x9B, fn := 0#1 ++ sc.code ++ o.code })
  | .pref m => rawM 0x9C 0 m 0
  | .prefRange a disp b => rawM 0x9D 0 ⟨a, b, 0, disp⟩ 0
  | .cwbr sc d a disp b => rawM 0x9E (eS d) ⟨a, b, 0, disp⟩ 0 0 sc.code
  | .cinvr sc d a disp b => rawM 0x9F (eS d) ⟨a, b, 0, disp⟩ 0 0 sc.code
  | .pbind d q a => some (.fa { op := 0xA0, d := eS d, a := eS a, b := eQ q })
  | .pfree q => some (.fa { op := 0xA1, b := eQ q })
  | .pstat d q => some (.fa { op := 0xA2, d := eS d, b := eQ q })
  | .pclose q => some (.fa { op := 0xA3, b := eQ q })
  | .pmark q k => some (.fa { op := 0xA4, b := eQ q, fn := 0#1 ++ eKc k })
  | .start d b c => some (.fa { op := 0xA5, d := eS d, b := eS b, c := eS c })
  | .spawn d a b c => some (.fa { op := 0xA6, d := eS d, a := eS a, b := eS b, c := eS c })
  | .join d a => some (.fa { op := 0xA7, d := eS d, a := eS a })
  | .bar a b mask => some (.fe { op := 0xA8, a := eS a, b := eS b, imm := 0#48 ++ mask })
  | .follow d => some (.fa { op := 0xA9, d := eS d })
  | .leave => some (.fa { op := 0xAA })
  | .task d a => some (.fa { op := 0xAB, d := eS d, a := eS a })
  | .tdone => some (.fa { op := 0xAC })
  | .ckpt d a => some (.fa { op := 0xAD, d := eS d, a := eS a })
  | .park => some (.fa { op := 0xAE })
  | .wake a b => some (.fa { op := 0xAF, a := eS a, b := eS b })
  | .hold d => some (.fa { op := 0xB0, d := eV d })
  | .holdSet regs => rawI 0xB1 0 0 regs
  | .hclr d => some (.fa { op := 0xB2, d := eV d })
  | .depvK hi a b c k => some (.fe { op := 0xB3, a := eS a, b := eS b, c := eV c, fn := fn0 hi, kc := eKc k })
  | .depv hi a b c => some (.fa { op := 0xB4, a := eS a, b := eS b, c := eV c, fn := fn0 hi })
  | .depsK hi a b c k => some (.fe { op := 0xB5, a := eS a, b := eS b, c := eS c, fn := fn0 hi, kc := eKc k })
  | .deps hi a b c => some (.fa { op := 0xB6, a := eS a, b := eS b, c := eS c, fn := fn0 hi })
  | .post rearm any n d a b c k =>
    some (.fe { op := 0xB7, d := eS d, a := eS a, b := eS b, c := eS c, fn := 0#1 ++ b1 any ++ n,
                qe := 0#3 ++ b1 rearm, kc := eKc (some k) })
  | .unpost d n => some (.fa { op := 0xB8, d := eS d, fn := fnCtr n })
  | .ctradd k a => some (.fa { op := 0xB9, a := eS a, fn := fnCtr k })
  | .ctraddImm k imm => rawI 0xBA 0 0 imm (fnCtr k)
  | .ctrset k a => some (.fa { op := 0xBB, a := eS a, fn := fnCtr k })
  | .ctrsetImm k imm => rawI 0xBC 0 0 imm (fnCtr k)
  | .ctrget which k d => some (.fa { op := 0xBD, d := eS d, fn := which ++ k })
  | .ctrwait k a => some (.fa { op := 0xBE, a := eS a, fn := fnCtr k })
  | .ctrwaitImm k imm => rawI 0xBF 0 0 imm (fnCtr k)
  | .cpy f stage fmt swz a b c imm => rawC 0xC0 f (eS a) (eS b) (eS c) 0 (stage ++ 0#1 ++ fmt) swz imm
  | .cpy2d f stage swz a b c e imm => rawC 0xC1 f (eS a) (eS b) (eS c) (eS e) (stage ++ 0#5) swz imm
  | .cpy3d f stage swz a b c e => rawC 0xC2 f (eS a) (eS b) (eS c) (eS e) (stage ++ 0#5) swz 0
  | .cpyMc f stage swz a b c e imm => rawC 0xC3 f (eS a) (eS b) (eS c) (eS e) (stage ++ 0#5) swz imm
  | .cpyQ f fmt a b c e => rawC 0xC4 f (eQ a) (eS b) (eS c) (eS e) (0#4 ++ fmt.code) 0 0
  | .cpyQ2d f fmt a b c e imm => rawC 0xC5 f (eQ a) (eS b) (eS c) (eS e) (0#4 ++ fmt.code) 0 imm
  | .cpyPl f mid p a b c imm => rawC 0xC6 f (eSQ a) (eS b) (eS c) 0 (0#2 ++ b1 mid ++ 0#1 ++ p) 0 imm
  | .cpyFill f a c imm => rawC 0xC7 f (eS a) 0 (eS c) 0 0 0 imm
  | .cpyxG f a b c e imm => rawC 0xC8 f (eS a) (eS b) (eS c) (eS e) 0 0 imm
  | .cpyxS f a b c e imm => rawC 0xC9 f (eS a) (eS b) (eS c) (eS e) 0 0 imm
  | .chainHead q a => some (.fe { op := 0xCA, a := eS a, qe := 0#2 ++ q })
  | .chainApp q => some (.fe { op := 0xCB, qe := 0#2 ++ q })
  | .qfence mask q => some (.fa { op := 0xCC, fn := mask ++ 0#2 ++ q })
  | .qwait q a => some (.fa { op := 0xCD, a := eS a, fn := 0#6 ++ q })
  | .qwaitImm q imm => rawI 0xCE 0 0 imm (0#6 ++ q)
  | .qstat clr stw q d => some (.fa { op := 0xCF, d := eS d, fn := 0#4 ++ b1 clr ++ b1 stw ++ q })
  | .mma16Slot0 f => rawMma 0xD0 f
  | .mma16Slot1 f => rawMma 0xD1 f
  | .mma8fSlot0 f => rawMma 0xD2 f
  | .mma8fSlot1 f => rawMma 0xD3 f
  | .mma8iSlot0 f => rawMma 0xD4 f
  | .mma8iSlot1 f => rawMma 0xD5 f
  | .mma4Slot0 f => rawMma 0xD6 f
  | .mma4Slot1 f => rawMma 0xD7 f
  | .mupl1 imm => some (.fe { op := 0xD8, imm })
  | .mupl2 imm => some (.fe { op := 0xD9, imm })
  | .mupl3 imm => some (.fe { op := 0xDA, imm })
  | .mchkRow t swz p m d a => rawV 0xDB m (eV d) (eS a) 0 0 (t.code ++ 0#1 ++ swz ++ b1 p)
  | .mchkCol t swz p m d a => rawV 0xDC m (eV d) (eS a) 0 0 (t.code ++ 0#1 ++ swz ++ b1 p)
  | .mzero a => some (.fa { op := 0xDD, a := eS a })
  | .mzeroSlot0 => some (.fa { op := 0xDE })
  | .mzeroSlot1 => some (.fa { op := 0xDF })
  | .mfsr d n => rawI 0xE0 (eS d) 0 (0#20 ++ n)
  | .mfsrReg d a => some (.fa { op := 0xE1, d := eS d, a := eS a })
  | .mtsr n a => rawI 0xE2 0 (eS a) (0#20 ++ n)
  | .mtsrReg b a => some (.fa { op := 0xE3, a := eS a, b := eS b })
  | .trap bp imm => rawI 0xE4 0 0 imm (fn0 bp)
  | .trapReg bp a => some (.fa { op := 0xE5, a := eS a, fn := fn0 bp })
  | .rett => some (.fa { op := 0xE6 })
  | .tlbw a b => some (.fa { op := 0xE7, a := eS a, b := eS b })
  | .tlbwRm a b c => some (.fa { op := 0xE8, a := eS a, b := eS b, c := eS c })
  | .tlbiAll => some (.fa { op := 0xE9 })
  | .tlbiVa a => some (.fa { op := 0xEA, a := eS a })
  | .tlbiTn a => some (.fa { op := 0xEB, a := eS a })
  | .ecall d a imm => rawI 0xEC (eS d) (eS a) imm
  | .ecallReg d a b => some (.fa { op := 0xED, d := eS d, a := eS a, b := eS b })
  | .injArm d a b => some (.fa { op := 0xEE, d := eS d, a := eS a, b := eS b })
  | .injOff d => some (.fa { op := 0xEF, d := eS d })
  | .movw d imm => some (.fx { op := 0xF0, d := eS d, imm })
  | .addiFx d imm => some (.fx { op := 0xF1, d := eS d, imm })
  | .andiFx d imm => some (.fx { op := 0xF2, d := eS d, imm })
  | .oriFx d imm => some (.fx { op := 0xF3, d := eS d, imm })
  | .xoriFx d imm => some (.fx { op := 0xF4, d := eS d, imm })
  | .callAbs imm => some (.fx { op := 0xF5, imm })
  | .vbcastImm d imm => some (.fx { op := 0xF6, d := eVQ d, imm })
  | .msetLo d imm => some (.fx { op := 0xF7, d := eM d, imm })
  | .msetHi d imm => some (.fx { op := 0xF8, d := eM d, imm })
  | .ldAbs d imm => some (.fx { op := 0xF9, d := eS d, imm })
  | .stAbs d imm => some (.fx { op := 0xFA, d := eS d, imm })
  | .vldAbs d imm => some (.fx { op := 0xFB, d := eV d, imm })
  | .vstAbs d imm => some (.fx { op := 0xFC, d := eV d, imm })
  | .startFe d c imm => some (.fe { op := 0xFD, d := eS d, c := eS c, imm })
  | .spawnFe d a c imm => some (.fe { op := 0xFE, d := eS d, a := eS a, c := eS c, imm })
  | .cmpiFe c d a imm => some (.fe { op := 0xFF, d := eS d, a := eS a, fn := 0#4 ++ c.code, imm })
  | _ => none

/-- The bits of a field record. -/
def Raw.value : Raw → Nat
  | .fa f => f.pack.toNat
  | .fi f => f.pack.toNat
  | .fb f => f.pack.toNat
  | .fl f => f.pack.toNat
  | .fx f => f.pack.toNat
  | .fm f => f.pack.toNat
  | .fe f => f.pack.toNat

/-- The format of a field record. -/
def Raw.format : Raw → Fm
  | .fa _ => .fa
  | .fi _ => .fi
  | .fb _ => .fb
  | .fl _ => .fl
  | .fx _ => .fx
  | .fm _ => .fm
  | .fe _ => .fe
/-- The length of a field record in bytes. -/
def Raw.bytes : Raw → Nat
  | .fa _ | .fi _ | .fb _ => 8
  | .fl _ | .fx _ => 12
  | .fm _ | .fe _ => 16

/-- The bytes of an instruction at its address, lowest first (R70); empty for a device event. -/
def encode (i : Instr) : List Byte :=
  match toRaw i with
  | some r => leBytes r.bytes r.value
  | none => []

/-- Words, lowest address first, as the spec writes encodings. -/
def wordBytes : List (BitVec 32) → List Byte
  | [] => []
  | w :: t => leBytes 4 w.toNat ++ wordBytes t

end Sys2Proof
end

