-- ==== Sys2Proof/Config.lean ====
section
/-! DEFINITION. Sys2Proof/Config.lean: what an implementation fixes (constants) and the free values, which nothing in
the model constrains: opaque, without a body (log 4, 5, 8, 9, 10). -/
namespace Sys2Proof.Config

/-- The choice among n candidates that the spec leaves to the device (R6), at choice number `tick`. -/
opaque pick (tick n : Nat) : Nat
/-- For how many choices a thing that may happen can be put off (R49; log 4). -/
opaque patience : Nat
/-- The victim way when an L1 set, whose replacement the spec does not give, is full (R121; log 8). -/
opaque victim (tick n : Nat) : Nat
/-- Mesh cycles that pass in one step (R35, R301; log 9). -/
opaque meshCycles (tick : Nat) : Nat
/-- Energy of a quantum in microjoules per tenant (R268). -/
opaque energy (quantum tenant : Nat) : Nat
/-- Whether the rail telemetry of a quantum asks for a lower clock of a chiplet: above the limits (R302). -/
opaque railsHigh (quantum chip : Nat) : Bool
/-- Whether it lets the clock of a chiplet rise again: below 95 % of the limits (R302). -/
opaque railsLow (quantum chip : Nat) : Bool
/-- What an injected matrix-cell error makes of a group sum: sign, magnitude, exponent; none where the cell is not hit (R295). -/
opaque cellError (tick row col group : Nat) : Option (Bool × Nat × Int)
/-- What an injected error makes of the sum of a checksum path; rows are 0 to 63, columns 64 to 127 (R187, R295). -/
opaque pathError (tick line : Nat) : Option (Bool × Nat × Int)
/-- Whether the members of a collective on other panels have not called to build it yet (0), have called (1), or cannot, as their panel
runs no launch of the tenant that covers the subgroup (2) (R222; log 40). -/
opaque peerCalls (tick : Nat) : Nat
/-- Whether the members of a run on other panels have started it (R223; log 40). -/
opaque peerStarts (tick : Nat) : Bool
/-- A byte of the buffer of a member on another panel, by run, member and offset (R223, R224; log 40). -/
opaque peerByte (run member off : Nat) : Byte
/-- How many of the unacknowledged messages of a failed port its peer has accepted (R246). -/
opaque accepted (tick port : Nat) : Nat
/-- SHA-512 (R109, R269, R303). -/
opaque sha512 (message : List Byte) : List Byte
/-- Check of an ECDSA P-521 signature: key, digest, signature (R109, R303, R307). -/
opaque verify (key digest signature : List Byte) : Bool
/-- ECDSA P-521 signature of the device identity key over a digest: 132 bytes, two big-endian halves (R269, R307). -/
opaque signature (digest : List Byte) : BitVec 1056
/-- The identity public key, uncompressed (R303). -/
opaque identityKey : BitVec 1064
/-- A fresh device key for a session (R307), by session count. -/
opaque sessionKey (n : Nat) : BitVec 1064
/-- The 64-byte session key that both sides derive (R307). -/
opaque sharedKey (hostKey : List Byte) (n : Nat) : BitVec 512
/-- The first 16 bytes of HMAC-SHA-512 under a session key (R307). -/
opaque hmac (key : BitVec 512) (message : List Byte) : BitVec 128
/-- The firmware image in flash passes its check (R303). -/
opaque flashImageOk : Bool
/-- A recovery image passes its check: ECDSA P-521 over its SHA-512 digest against the vendor key (R303). -/
opaque imageOk (image : List Byte) : Bool
/-- The recovery request that the boot ROM sends, whose payload the spec does not give (R303). -/
opaque recoveryRequest : List Byte
/-- Version fields of the capability records, by identifier (R304). -/
opaque capVersion (identifier : Nat) : Nat
/-- The manufacturing test map (R25): good sites of each physical chiplet. -/
opaque sitesOk (pchip : Nat) : BitVec 9
/-- The manufacturing test map: routers that passed (R25). -/
opaque routerOk (pchip : Nat) : Bool
/-- The base of a section of a role that the tenant runtime chooses for a launch's copy of an image (R102; log 59): image, submission
(0 for the load), role, 0 code, 1 data, 2 zero; a multiple of 64 KiB is taken of it. -/
opaque sectionBase (image copy role target : Nat) : Nat
/-- The route entry that the firmware writes for a panel after a re-cabling (R243, R246). -/
opaque route (cabling : List Byte) (panel dest : Nat) : BitVec 32
/-- Pod size (R304). -/
opaque podSize : BitVec 8
/-- Crossing latency in mesh cycles that calibration fixes: 4 to 6 (R298). -/
opaque crossing : Nat
/-- Global-window address of the first capability record (R304). -/
opaque capBase : Word
/-- Panel-local address of the first capability record, where its bytes lie (R304). -/
opaque capPhys : Nat

end Sys2Proof.Config
end

