-- ==== Sys2Proof/Machine/State.lean ====
section
/-! DEFINITION. Sys2Proof/Machine/State.lean: everything the spec gives the panel, as plain data (INVENTORY.md, State).
Tables are `Cells`, read with an explicit default, so that an untouched unit is not listed. -/
namespace Sys2Proof.Machine

/-- Why the machine stops with a fault. -/
inductive Fault where
  /-- Raised by `runEvent` for an event that names a unit the panel does not have (a core at or above 2,048, R16).
  Safe: the device has no such unit, and `step` never performs such an event. -/
  | noSuchUnit
deriving DecidableEq, Repr

/-- Why an instruction or event has no meaning. -/
inductive Refusal where
  /-- Raised by the arms of `exec` that have no meaning yet. Safe. -/
  | notModelled (mnemonic : String)
deriving DecidableEq, Repr

/-- Why a context is waiting (R36). -/
inductive Wait where
  | mma
  | port (q : QReg)
  | hold (v : VReg)
  | line (core line : Nat)
  | counter (k : KReg) (v : Word)
  | queue (q : Nat) (v : Word)
  | page (va : Word)
  | park
deriving DecidableEq, Repr

/-- The state of a context of a live group (R34); `saved` is the group's. -/
inductive Status where
  | free
  | ready
  | waiting (w : Wait)
deriving DecidableEq, Repr

/-- A port register (R56, R57, R58): kind 0 unbound, 1 to 6 as in the descriptor; `write` is the direction; `fixed` marks a
binding that the launch made (R38, R105). -/
structure Port where
  kind : Nat := 0
  idx : Nat := 0
  write : Bool := false
  ended : Bool := false
  drains : BitVec 8 := 0
  base : Word := 0
  stride : Word := 0
  count : Nat := 0
  pos : Nat := 0
  fixed : Bool := false
deriving DecidableEq, Repr

/-- A side-logged or held store (R287, R289): kind 1 store, 2 `stn`, 3 reduction. -/
structure SideEntry where
  actor : Actor
  kind : Nat
  va : Nat
  sz : Nat
  redOp : Nat
  op : MemOp
  faulted : Bool := false
deriving DecidableEq, Repr

/-- A pending imprecise or asynchronous report (R272). -/
structure Report where
  code : Nat
  tval : Word
  mem : Bool := false
  held : Option SideEntry := none
deriving DecidableEq, Repr

/-- The access that the instruction at `pc` has outstanding (R35): its number, how many replies it waits for, the lines
it has got, whether one of them was waited for on an empty line, an answer, the cores in whose retry lists it may wait (panel, core),
and whether cancels have been sent to them (R238). -/
structure Access where
  pc : Word
  id : Nat
  need : Nat := 0
  got : List Part := []
  rels : List Rel := []
  waited : Bool := false
  ans : Option Answer := none
  lists : List (Nat × Nat) := []
  cancelling : Bool := false
deriving DecidableEq, Repr

/-- A task record in the queue of a launch (R42): address of code, arguments, four ranges, who queued it; for a task that
was lent and pre-empted the core it must resume on (R45). -/
structure TaskRec where
  pc : Word
  args : List Word
  ranges : List (Word × Word)
  actor : Actor
  onCore : Option Nat := none
deriving DecidableEq, Repr

/-- A task on a core (R43 to R45): its slot, its record, its stage (0 fetching, 1 running, 2 writing back, 3 suspended), and
for each range where its whole lines lie in the partition and how many bytes they are; the agent of its fetches. -/
structure TaskRun where
  slot : Nat
  task : TaskRec
  stage : Nat
  offs : List (Nat × Nat)
  eng : Actor
deriving DecidableEq, Repr

/-- Follow mode (R41): the leader, whether the follower has entered, and the addresses that the leader issued and the
follower has not executed, with the instructions. -/
structure Follow where
  leader : Nat
  active : Bool
  trail : List (Word × Instr)
deriving DecidableEq, Repr

/-- One hardware context (R34, R50 to R69, R270, R277). -/
structure Ctx where
  status : Status := .free
  pc : Word := 0
  low : Cells Word := Cells.empty
  stack : Cells Word := Cells.empty
  wb : Nat := 0
  lo : Nat := 0
  v : Cells Line := Cells.empty
  holds : BitVec 32 := 0
  deposited : List (VReg × Rel) := []
  m : Cells MaskW := Cells.empty
  ports : Cells Port := Cells.empty
  rng : BitVec 32 := 1
  priv : BitVec 2 := 0
  cause : Word := 0
  epc : Word := 0
  tval : Word := 0
  tscr : Cells Word := Cells.empty
  ev : Cells Word := Cells.empty
  token : Bool := false
  tokenRel : Option Rel := none
  met : Option (List Rel) := none
  exitVal : Word := 0
  exitRel : Option Rel := none
  follow : Option Follow := none
  task : Option TaskRec := none
  childOf : Nat := 0
  bar : Option (Nat × Nat) := none
  reports : List Report := []
  access : Option Access := none
  late : List LateReg := []
  spawnReply : Option SpawnAns := none
  unacked : Nat := 0
  acquireEpoch : Nat := 0
  eligible : Nat := 0
  agent : Nat := 0
  region : Nat := 1
  touched : Bool := false
  clock : Clock := Cells.empty
  fenceRel : Option Rel := none
  maint : List Nat := []
  maintCount : Nat := 0
  observed : List Rel := []
  sawMiss : Bool := false
  sawMark : Bool := false
  walkFault : Option (Nat × Word) := none
deriving DecidableEq, Repr

/-- A counter (R212) with the join of the releasing increments since its last `ctrset` (R150). -/
structure Counter where
  val : Word := 0
  rels : List Rel := []
deriving DecidableEq, Repr

/-- A crier entry (R215): `tie` orders what happens before the firing. -/
structure Entry where
  armed : Bool := false
  ctr : KReg := 0
  thr : Word := 0
  stride : Word := 0
  rearm : Bool := false
  record : List Byte := []
  ctx : Nat := 0
  actor : Option Actor := none
deriving DecidableEq, Repr

/-- A firing on its way through the dispatch queue (R217), with the number of its increment (R149). -/
structure Firing where
  entry : Nat
  record : List Byte
  ctx : Nat
  actor : Option Actor
  rels : List Rel
  batch : Nat := 0
deriving DecidableEq, Repr

/-- A local queue (R56): its elements and whether its ends are bound. -/
structure LocalQ where
  elems : List Elem := []
  reader : Bool := false
  writer : Bool := false
deriving DecidableEq, Repr

/-- A channel end declared for a core (R56, R58, R105): received elements at the reader, free slots at the writer. -/
structure Chan where
  declared : Bool := false
  ctx : Nat := 0
  out : Bool := false
  high : Bool := false
  peer : Nat := 0
  bound : Bool := false
  slots : List Elem := []
  allowance : Nat := 8
deriving DecidableEq, Repr

/-- A complete operand in a FIFO (R174): format tag, row length, 64 rows, scale bytes, poison (R290). -/
structure Operand where
  tag : BitVec 4
  len : Nat
  rows : List Byte
  scales : List Byte
  poison : Bool
deriving DecidableEq, Repr

/-- An operand FIFO (R56): at most two operands; `bound` while a port names it. -/
structure Fifo where
  ops : List Operand := []
  bound : Bool := false
deriving DecidableEq, Repr

/-- A porter command with the values it took at issue (R195, R196, R205): `fifo` is the operand FIFO of forms 0xC4 to 0xC6,
`shape` the shape record of `.3d`, `done` the done counter and `batch` the increment of a fired command (R149, R218). -/
structure Cmd where
  op : Nat
  fn : BitVec 8
  kc : Option KReg
  swz : Nat
  a : Word
  b : Word
  c : Word
  e : Word
  imm : Word
  fifo : Option Nat := none
  shape : Nat := 0
  actor : Actor
  done : Option KReg := none
  batch : Nat := 0
deriving DecidableEq, Repr

/-- A chain in a queue (R206): the record it stands at, its phase (0 reads the record, 1 performs it, 2 writes its status, 4
completes it, 5 ends after a bad record, 3 reads its next field), whether it is paused there, and the status it writes with its error. -/
structure Chain where
  actor : Actor
  cur : Word
  phase : Nat := 0
  paused : Bool := false
  status : Nat := 0
deriving DecidableEq, Repr

/-- An entry of a porter queue (R193): a command, a fence with the entry numbers it waits for (R207), a chain with the
command or the fence of its record. -/
inductive QItem where
  | cmd (c : Cmd)
  | fence (need : List (Nat × Nat))
  | chain (c : Chain) (cmd : Option Cmd) (need : List (Nat × Nat))
deriving DecidableEq, Repr

/-- The running command of a queue: steps done, the row or operand rows, scales and poison so far, remote lines it has got, poison
of the row by unit, the releases that its accesses have observed, empty lines it waited for, accesses not acknowledged, bytes each receiver got, receivers whose increment has been sent, events raised, whether it has moved everything, its failure
(R209), whether it waits for a walk or a reply, and the address of a page it waits for (R286). -/
structure Run where
  pos : Nat := 0
  rows : List Byte := []
  scales : List Byte := []
  poison : Bool := false
  buf : List Part := []
  psn : List Bool := []
  seen : List Rel := []
  waited : List Nat := []
  acks : Nat := 0
  bytes : Nat := 0
  told : List Nat := []
  events : List Nat := []
  finished : Bool := false
  fail : Option (Nat × Word) := none
  waiting : Bool := false
  page : Option Word := none
deriving DecidableEq, Repr

/-- A porter queue (R193, R210): entries, the number of entries enqueued and taken out, the completion number, the last
error, the running command, the releases of what has completed. -/
structure Queue where
  items : List QItem := []
  enq : Nat := 0
  deq : Nat := 0
  num : Word := 0
  error : Bool := false
  code : BitVec 8 := 0
  run : Run := {}
  rels : List Rel := []
deriving DecidableEq, Repr

/-- A microprogram (R184). -/
abbrev Program := List (BitVec 16)

/-- An `mma` in the unit queue (R179): its context and fields, the tile, the masks it read, how many lines it has claimed,
its program, and its operands once popped. -/
structure Mma where
  ctx : Nat
  pc : Word
  op : BitVec 8
  f : MmaF
  tile : Nat
  rows : BitVec 64
  cols : BitVec 64
  fa : Nat
  fb : Nat
  claimed : Nat := 0
  ready : Bool := false
  prog : Program := []
  operands : Option (Operand × Operand) := none
deriving DecidableEq, Repr

/-- A checkpoint slot (R291, R292). -/
structure Ckpt where
  seq : Nat
  ctxs : Cells Ctx
  trapvec : Word
  lqs : Cells LocalQ
  ranges : List (Nat × List Byte × List Bool)
  bytes : Nat
deriving DecidableEq, Repr

/-- A mark of conflict detection on a 4-byte word (R143). `issuer` is the agent and region whose accesses happen before
the region of an engine (R137 rule 4). -/
structure Mark where
  agent : Nat
  region : Nat
  tenant : Nat
  launch : Nat
  core : Nat
  engine : Bool
  issuer : Nat × Nat
  write : Bool
  plain : Bool
deriving DecidableEq, Repr

/-- A group (R27, R30 to R34): everything a launch owns on one core. Launch 0 marks a core with nothing bound. `parked` holds the marks
of an evicted partition and `parkedRels` its releases by the offsets of their words, those of lines from 2^22 on (R137, R144, R263). -/
structure Group where
  launch : Nat := 0
  tenant : Nat := 0
  tgen : Nat := 0
  gname : Word := 0
  r : Nat := 32
  helpers : Nat := 0
  part : Nat := 0
  gmap : BitVec 24 := 0
  rect : Word := 0
  role : Nat := 0
  save : Nat := 0
  trapvec : Word := 0
  ctxs : Cells Ctx := Cells.empty
  counters : Cells Counter := Cells.empty
  cmask : BitVec 64 := 0
  emask : BitVec 64 := 0
  entries : Cells Entry := Cells.empty
  crossed : List Firing := []
  firings : List Firing := []
  lqs : Cells LocalQ := Cells.empty
  chans : Cells Chan := Cells.empty
  fifos : Cells Fifo := Cells.empty
  queues : Cells Queue := Cells.empty
  progs : Cells Program := Cells.empty
  sideLog : List SideEntry := []
  lent : List (Nat × Ctx) := []
  taskBusy : List TaskRun := []
  suspended : List Ctx := []
  porterLast : Nat := 3
  batch : Nat := 0
  fired : Option (Nat × Actor) := none
  ckpt : Option Ckpt := none
  absent : Bool := false
  parked : List (Nat × List Mark) := []
  parkedRels : List (Nat × Option Rel) := []
  boundSeq : Nat := 0
deriving DecidableEq, Repr

/-- A dirty word of an L1 line (R121): its number, the context that stored it, its virtual address, what its store releases. -/
structure DirtyWord where
  word : Nat
  actor : Actor
  va : Nat
  rel : Option Rel
deriving DecidableEq, Repr

/-- An L1 line (R121, R122): whether its clean words are held, fill epoch, dirty words, data, poison by
64-byte half, what is known of each dirty word, the releases that came with the fill. -/
structure L1Line where
  held : Bool := false
  epoch : Nat := 0
  dirty : BitVec 32 := 0
  data : Line := 0
  poison : BitVec 2 := 0
  writes : List DirtyWord := []
  rels : List (Nat × Rel) := []
deriving DecidableEq, Repr

/-- A keep slot (R183): tag (launch, tile, swizzle, integer accumulator), the keys of the tile lines, the tile. -/
structure Keep where
  launch : Nat
  tile : Nat
  lines : List Nat
  swz : Nat
  isInt : Bool
  data : List Byte
deriving DecidableEq, Repr

/-- Who waits on a scratchpad line (R118): a local context or a remote access in the retry list. -/
structure LineWaiter where
  line : Nat
  isLocal : Bool
  msg : SyncMsg
deriving DecidableEq, Repr

/-- A compute core (R11, R35). -/
structure Core where
  cycle : Word := 0
  running : Bool := true
  stretched : Bool := false
  last : Nat := 10
  group : Group := {}
  stop : Nat := 0
  saved : List Group := []
  tlb : List (Word × Word) := []
  l1 : Cells L1Line := Cells.empty
  epoch : Nat := 0
  keeps : List (Nat × Keep) := []
  mmas : List Mma := []
  waiters : List LineWaiter := []
  backoffs : List Retry := []
  reserved : Nat := 0
  fills : List (Nat × Nat) := []
  owed : List (Nat × List Who) := []
  stubs : List (Nat × Nat) := []
  isolated : Bool := false
deriving DecidableEq, Repr

/-- A cache-slice sector (R124): valid, dirty, written words, whether it is being fetched, and the open transaction (R250): its requester
and whether it is exclusive, the panels that have still to acknowledge, the owner that was asked for its data, the requests behind. -/
structure Sector where
  valid : Bool := false
  dirty : Bool := false
  words : BitVec 16 := 0
  fetching : Bool := false
  busy : Option (Nat × Bool) := none
  pending : List Nat := []
  asked : Option Nat := none
  queued : List (Nat × Bool) := []
deriving DecidableEq, Repr

/-- Proxy slice states of a sector homed elsewhere (R248). -/
inductive Proxy where
  | i | s | e | o | m
deriving DecidableEq, Repr

/-- An optical port (R239 to R242, R246): its sequences, slot counters and key generations, the flits not acknowledged with the messages
that end in them, the messages that wait, the send allowances and the pool, the slots received since it trained. -/
structure Optical where
  up : Bool := false
  peer : Nat := 0
  sendSeq : Nat := 0
  ackedSeq : Nat := 0
  recvSeq : Nat := 0
  sendSlots : Nat := 0
  recvSlots : Nat := 0
  keyGen : Nat := 0
  nextGen : Nat := 0
  replay : List (Nat × Nat) := []
  sent : List (Nat × Nat × Event) := []
  queue : List (Nat × Event) := []
  allowances : Cells Nat := Cells.empty
  pool : Nat := 0
  slotClock : Nat := 0
  frozen : Bool := false
  authFails : List Nat := []
deriving DecidableEq, Repr

/-- A tenant (R251, R252, R267). -/
structure Tenant where
  registered : Bool := false
  test : Bool := false
  share : Nat := 0
  ceiling : Nat := 0
  descr : Nat := 0
  evictBase : Nat := 0
  evictLen : Nat := 0
  keys : List (List Byte) := []
  gen : BitVec 24 := 0
  resets : Nat := 0
  meters : Cells Word := Cells.empty
  meterSeq : Nat := 0
  deficit : Int := 0
  got : Nat := 0
  inWindow : Bool := false
  energyRem : Nat := 0
  resetting : Bool := false
  faultSeq : Nat := 0
deriving DecidableEq, Repr

/-- The life of a launch (R26, R253). -/
inductive Stage where
  | queued | bound | saving | saved | retired
deriving DecidableEq, Repr

/-- A barrier of a subgroup (R46, R47): completions, the members that have arrived with their releases and event values,
the root's mask and address, the releases of the last completion. -/
structure Barrier where
  epoch : Nat := 0
  arrived : List Nat := []
  rels : List Rel := []
  gather : Option (Nat × Word) := none
  sums : List (Nat × Word) := []
  done : List Rel := []
deriving DecidableEq, Repr

/-- A collective of a launch (R222 to R226): who has called to build it, its members by index, which of them have started the
run with what they released, who has called to release it, the address of the last call to build it, what it took from each member
core. -/
structure Collective where
  id : Nat
  record : List Byte
  waiting : List Nat := []
  built : Bool := false
  members : List Nat := []
  gen : Nat := 0
  started : List Nat := []
  rels : List Rel := []
  leaving : List Nat := []
  addr : Word := 0
  taken : List (Nat × BitVec 64 × BitVec 64) := []
deriving DecidableEq, Repr

/-- A launch (R26, R253, R273): `seq` counts submissions, `deps` holds those of the launches that it depends on, which a number that is
assigned again cannot change; `bases` are those of the sections of its copy (R102). -/
structure Launch where
  stage : Stage := .retired
  tenant : Nat := 0
  image : Nat := 0
  kernel : Nat := 0
  x0 : Nat := 0
  y0 : Nat := 0
  lw : Nat := 0
  lh : Nat := 0
  prio : Nat := 0
  seq : Nat := 0
  deps : List Nat := []
  bases : List (Nat × Nat × Nat × Nat) := []
  r : Nat := 32
  helpers : Nat := 0
  part : Nat := 0
  taskGran : Nat := 0
  taskWb : Bool := false
  nameBase : Nat := 0
  nameGen : Nat := 0
  boundAt : Nat := 0
  tasks : List TaskRec := []
  bars : Cells Barrier := Cells.empty
  colls : List Collective := []
  evict : Option Nat := none
  status : List Byte := []
  late14 : Nat := 0
  live : List Nat := []
deriving DecidableEq, Repr

/-- A container that a tenant has loaded (R106 to R110): its bytes, the base of each section, who holds it. -/
structure Image where
  tenant : Nat := 0
  name : List Byte := []
  bytes : List Byte := []
  bases : List (Nat × Nat × Nat × Nat) := []
  holders : List Nat := []
deriving DecidableEq, Repr

/-- A host session (R305, R307): number, key, completions by request number. -/
structure Session where
  num : Nat
  key : BitVec 512
  done : List (Nat × Nat × List Byte)
  used : Nat
deriving DecidableEq, Repr

/-- The error injector (R295, R296). -/
structure Injector where
  ctl : BitVec 64 := 0
  seed : BitVec 32 := 1
  arm : Option (Nat × Nat × Word) := none
deriving DecidableEq, Repr

/-- Power phases (R303). -/
inductive Phase where
  | reset | recovery | running
deriving DecidableEq, Repr

/-- A name of the name table (R30): the largest generation it has held, and the core and launch it names now. -/
structure Name where
  gen : Nat := 0
  owner : Option (Nat × Nat) := none
deriving DecidableEq, Repr

/-- The storage of the panel and its marks (R113 to R126, R143, R247, R290). -/
structure Store where
  mem : Memory := Cells.empty
  empties : Cells Bool := Cells.empty
  poison : Cells Bool := Cells.empty
  meta32 : Cells (BitVec 32) := Cells.empty
  sectors : Cells Sector := Cells.empty
  proxies : Cells Proxy := Cells.empty
  marks : Cells (List Mark) := Cells.empty
  rels : Cells (Option Rel) := Cells.empty
deriving DecidableEq, Repr

/-- The management tables (R19 to R25, R115, R126, R127, R233, R243, R258). -/
structure Tables where
  smap : Cells (BitVec 64) := Cells.empty
  cmap : Cells (BitVec 16) := Cells.empty
  cstate : Cells (BitVec 2) := Cells.empty
  detour : Cells Nat := Cells.empty
  vown : Cells (BitVec 32) := Cells.empty
  arr : Cells (BitVec 128) := Cells.empty
  dom : Cells (BitVec 32) := Cells.empty
  hash : Cells (BitVec 64) := Cells.empty
  podrt : Cells (BitVec 32) := Cells.empty
  slott : Cells (BitVec 256) := Cells.empty
  slots : Cells Word := Cells.empty
  chipErr : Cells (BitVec 8) := Cells.empty
  mhz : Cells Nat := Cells.empty
  replayMarks : List (Nat × Nat) := []
deriving DecidableEq, Repr

/-- A domain switch in progress (R131, R132): who asked for it, the tenant, the record. -/
structure Switch where
  who : Who
  tenant : Nat
  record : Nat
deriving DecidableEq, Repr

/-- What happens next: an event, or the turn of a core. -/
inductive Choice where
  | idle
  | event (e : Event)
  | turn (core : Nat)
deriving DecidableEq, Repr

/-- The panel: cores, storage, tables, firmware (with `hostClocks`, what happened before the next request of a quadrant's agent,
R153, `hostOpen`, requests whose completion is still to come, and `flash`, a firmware image written since manufacture, R303) and the model's own fields (`tick`, `curCore`, `curCtx`, `event`,
`agenda`, `hostOut`, `podOut`, `due`, what could happen at the last step with the choice number since when (R49), and `podHeld`, messages that wait for a held route (R244); log 4). -/
structure State where
  phase : Phase := .reset
  flash : Option (List Byte) := none
  panel : BitVec 6 := 0
  cores : Cells Core := Cells.empty
  store : Store := {}
  tables : Tables := {}
  optical : Cells Optical := Cells.empty
  inj : Injector := {}
  counts : Cells Nat := Cells.empty
  tenants : Cells Tenant := Cells.empty
  launches : Cells Launch := Cells.empty
  nextLaunch : Nat := 1
  submitted : Nat := 0
  switch : Option Switch := none
  names : Cells Name := Cells.empty
  images : Cells Image := Cells.empty
  nextImage : Nat := 1
  sessions : List Session := []
  sessionCount : Nat := 0
  hostClocks : Cells Clock := Cells.empty
  hostOpen : List HostReq := []
  mesh : Nat := 0
  window : Nat := 0
  backlogged : List Nat := []
  tick : Nat := 0
  nextAgent : Nat := 1
  nextId : Nat := 1
  curCore : Nat := 0
  curCtx : Nat := 0
  event : Option Event := none
  agenda : List Event := []
  hostOut : List (Nat × List Byte) := []
  podOut : List (Nat × Event) := []
  podHeld : List (Nat × Event) := []
  due : List (Choice × Nat) := []
deriving DecidableEq, Repr

/-- The panel right after reset (R19, R21, R303): every field at its reset value (INVENTORY.md, State). -/
def State.reset : State := {}

/-- What a meaning answers. -/
abbrev Res := Host.Outcome State Fault Refusal

end Sys2Proof.Machine
end

