-- ==== Sys2Proof/Machine/Ops.lean ====
section
/-! DEFINITION. Sys2Proof/Machine/Ops.lean: the named operations over the state: units and their accessors, the monad
of a meaning, scalar, vector, mask and special registers, happens-before (R134 to R143), taking a trap and returning
from it (R271 to R274), ending launches, messages in flight. -/
namespace Sys2Proof.Machine

/-! ## Units -/

/-- A core by logical number. -/
def State.core (s : State) (n : Nat) : Core := Cells.get {} s.cores n
/-- Replace a core. -/
def State.setCore (s : State) (n : Nat) (c : Core) : State := { s with cores := Cells.set {} s.cores n c }
/-- Change a core. -/
def State.modCore (s : State) (n : Nat) (f : Core → Core) : State := s.setCore n (f (s.core n))
/-- The bound group of a core. -/
def State.group (s : State) (n : Nat) : Group := (s.core n).group
/-- Change the bound group of a core. -/
def State.modGroup (s : State) (n : Nat) (f : Group → Group) : State :=
  s.modCore n fun c => { c with group := f c.group }
/-- A context of a group. -/
def Group.ctx (g : Group) (c : Nat) : Ctx := Cells.get {} g.ctxs c
/-- Replace a context of a group. -/
def Group.setCtx (g : Group) (c : Nat) (x : Ctx) : Group := { g with ctxs := Cells.set {} g.ctxs c x }
/-- Change a context of a group. -/
def Group.modCtx (g : Group) (c : Nat) (f : Ctx → Ctx) : Group := g.setCtx c (f (g.ctx c))
/-- A context of a core's bound group. -/
def State.ctx (s : State) (n c : Nat) : Ctx := (s.group n).ctx c
/-- Replace a context. -/
def State.setCtx (s : State) (n c : Nat) (x : Ctx) : State := s.modGroup n fun g => g.setCtx c x
/-- Change a context. -/
def State.modCtx (s : State) (n c : Nat) (f : Ctx → Ctx) : State := s.modGroup n fun g => g.modCtx c f
/-- The context whose turn it is. -/
def State.me (s : State) : Ctx := s.ctx s.curCore s.curCtx
/-- Replace the context whose turn it is. -/
def State.setMe (s : State) (x : Ctx) : State := s.setCtx s.curCore s.curCtx x
/-- Change the context whose turn it is. -/
def State.modMe (s : State) (f : Ctx → Ctx) : State := s.setMe (f s.me)
/-- The group of the context whose turn it is. -/
def State.myGroup (s : State) : Group := s.group s.curCore

/-- A launch by number. -/
def State.launch (s : State) (n : Nat) : Launch := Cells.get {} s.launches n
def State.modLaunch (s : State) (n : Nat) (f : Launch → Launch) : State :=
  { s with launches := Cells.set {} s.launches n (f (s.launch n)) }
/-- A tenant by identifier. -/
def State.tenant (s : State) (n : Nat) : Tenant := Cells.get {} s.tenants n
def State.modTenant (s : State) (n : Nat) (f : Tenant → Tenant) : State :=
  { s with tenants := Cells.set {} s.tenants n (f (s.tenant n)) }
/-- Add to a usage meter (R267). -/
def State.meter (s : State) (tenant i n : Nat) : State :=
  s.modTenant tenant fun t =>
    { t with meters := Cells.set 0 t.meters i (Cells.get 0 t.meters i + BitVec.ofNat 64 n) }

/-- The management counters; two of them stand at each router (R22, R133, R232, R236, R246, R264, R284). -/
inductive Count where
  | misroute (pchip : Nat) | dropped | meshReplay (pchip : Nat) | replayed | authFail | nackDropped | slowSave | faultDropped | malformed
  | sessionDrop | notifyDropped | corrected | ackDropped | badState
deriving DecidableEq, Repr

/-- The key of a management counter. -/
def Count.key : Count → Nat
  | .misroute p => 1024 + p | .dropped => 1 | .meshReplay p => 2048 + p | .replayed => 3 | .authFail => 4 | .nackDropped => 5
  | .slowSave => 6 | .faultDropped => 7 | .malformed => 8 | .sessionDrop => 9 | .notifyDropped => 10
  | .corrected => 11 | .ackDropped => 12 | .badState => 13
/-- Add one to a management counter. -/
def State.bump (s : State) (k : Count) : State :=
  { s with counts := Cells.set 0 s.counts k.key (Cells.get 0 s.counts k.key + 1) }

/-- Panel number of the own panel, 0 to 63 (R68). -/
def State.myPanel (s : State) : Nat := s.panel.toNat

/-- Put a message or an event in flight. -/
def State.post (s : State) (e : Event) : State := { s with agenda := s.agenda ++ [e] }
/-- Number of ones among n bits. -/
def popCount (n x : Nat) : Nat := ((List.range n).filter fun i => x.testBit i).length
/-- Flits of a message that carries n bytes of data (R227). -/
def flitsFor (n : Nat) : Nat := 1 + (n + 63) / 64
/-- Flits of the messages of a memory operation: one message a line or lane. -/
def opFlits : MemOp → Nat
  | .fill _ ps => ps.length
  | .load ps => ps.length
  | .store ps => (ps.map fun p => flitsFor (popCount 128 p.mask.toNat)).sum
  | .atomic _ _ _ ls => ls.length
  | .fired _ _ _ ls => ls.length
  | .nibble _ _ _ _ _ => 1
  | .setLine _ _ => 1
  | .maint _ ps => ps.length
/-- What a tenant's agent injects with a message: the tenant and the flits (R267, meters 7 and 8); replies are not its
agents' (log 10). -/
def Event.load (s : State) : Event → Option (Nat × Nat)
  | .memoryRequest m => some (m.actor.tenant, opFlits m.op)
  | .remoteSyncAccess m =>
    some (m.actor.tenant, if m.store.isSome then flitsFor (popCount 128 m.part.mask.toNat) else 1)
  | .depositArrival m => some (m.tenant, flitsFor 128)
  | .wakeArrival m => some (m.tenant, 1)
  | .spawnRequest m => some (m.tenant, 1)
  | .channelElementArrival m => some ((Cells.get {} s.launches m.src.launch : Launch).tenant, match m.elem with
      | .data _ _ => flitsFor 128
      | _ => 1)
  | .counterIncrement i => (i.ack.map fun a => ((Cells.get {} s.launches a.2.1 : Launch).tenant, 1))
  | _ => none
/-- Meter what a message has injected into the mesh (R267). -/
def State.meterMesh (s : State) (e : Event) : State :=
  match Event.load s e with
  | some (t, n) => s.meter t 7 (64 * n)
  | none => s
/-- A fresh choice number: every consultation of a free value advances it (log 4). -/
def State.ticked (s : State) : State := { s with tick := s.tick + 1 }

/-! ## Geometry (R16, R22, R29) -/

/-- Column of a logical core. -/
def coreX (n : Nat) : Nat := n % 64
/-- Row of a logical core. -/
def coreY (n : Nat) : Nat := n / 64
/-- The logical core at (x, y). -/
def coreAt (x y : Nat) : Nat := 64 * y + x
/-- Logical chiplet of a logical core. -/
def chipOf (n : Nat) : Nat := 16 * (coreY n / 2) + coreX n / 4
/-- Local index of a logical core in its chiplet. -/
def localIdx (n : Nat) : Nat := coreX n % 4 + 4 * (coreY n % 2)
/-- The core at a local index of a chiplet. -/
def coreOfLocal (chip i : Nat) : Nat := coreAt (4 * (chip % 16) + i % 4) (2 * (chip / 16) + i / 4)
/-- Quadrant of a logical chiplet (R12). -/
def quadrantOf (chip : Nat) : Nat := (chip % 16) / 8 + 2 * (chip / 16 / 8)

/-- Fields of a rectangle or subgroup descriptor (R28, R29). -/
def dLw (d : Nat) : Nat := d % 8
def dLh (d : Nat) : Nat := d / 8 % 8
def dX (d : Nat) : Nat := d / 64 % 64
def dY (d : Nat) : Nat := d / 4096 % 32
/-- Build a rectangle value (R28). -/
def mkRect (x y lw lh : Nat) : Word := BitVec.ofNat 64 (4096 * y + 64 * x + 8 * lh + lw)
/-- Whether a descriptor is legal in a launch rectangle (R29). -/
def subgroupOk (rect d : Nat) : Bool :=
  d < 2 ^ 17 && dLw d ≤ dLw rect && dLh d ≤ dLh rect && dX d % 2 ^ dLw d == 0 && dY d % 2 ^ dLh d == 0
    && dX d + 2 ^ dLw d ≤ 2 ^ dLw rect && dY d + 2 ^ dLh d ≤ 2 ^ dLh rect
/-- The cores of a subgroup, in ascending member order (R201). -/
def subgroupCores (rect d : Nat) : List Nat :=
  (List.range (2 ^ dLw d * 2 ^ dLh d)).map fun m =>
    coreAt (dX rect + dX d + m % 2 ^ dLw d) (dY rect + dY d + m / 2 ^ dLw d)
/-- The cores of a rectangle. -/
def rectCores (rect : Nat) : List Nat := subgroupCores rect (dLw rect + 8 * dLh rect)
/-- Whether a core lies in a rectangle. -/
def inRect (rect n : Nat) : Bool :=
  dX rect ≤ coreX n && coreX n < dX rect + 2 ^ dLw rect && dY rect ≤ coreY n && coreY n < dY rect + 2 ^ dLh rect
/-- Thread slot of a context in its launch (R116): 16·(w·dy + dx) + c. -/
def threadSlot (rect n c : Nat) : Nat :=
  16 * (2 ^ dLw rect * (coreY n - dY rect) + (coreX n - dX rect)) + c

/-! ## Remap tables (R19, R21) -/

/-- SMAP of a physical chiplet; its reset value maps index i to site i. -/
def Tables.smapOf (t : Tables) (p : Nat) : BitVec 64 := Cells.get 0x000001FF76543210#64 t.smap p
/-- Reset value of a CMAP entry: valid, pchip 18·cy + cx + 1. -/
def cmapReset (chip : Nat) : BitVec 16 := BitVec.ofNat 16 (2 ^ 15 + 18 * (chip / 16) + chip % 16 + 1)
/-- CMAP entry of a logical chiplet. -/
def Tables.cmapOf (t : Tables) (chip : Nat) : BitVec 16 := Cells.get (cmapReset chip) t.cmap chip
/-- CSTATE of a physical chiplet. -/
def Tables.cstateOf (t : Tables) (p : Nat) : BitVec 2 := Cells.get 0 t.cstate p
/-- Whether a logical chiplet is in service (R21, R23). -/
def Tables.chipValid (t : Tables) (chip : Nat) : Bool := (t.cmapOf chip).getLsbD 15
/-- Physical chiplet of a logical one. -/
def Tables.pchipOf (t : Tables) (chip : Nat) : Nat := ((t.cmapOf chip).extractLsb' 0 9).toNat
/-- Site that serves a local index. -/
def siteOf (smap : BitVec 64) (i : Nat) : Nat := (smap.extractLsb' (4 * i) 4).toNat
/-- sr.site of a core (R18). -/
def siteWord (t : Tables) (n : Nat) : Word :=
  BitVec.ofNat 64 (16 * t.pchipOf (chipOf n) + siteOf (t.smapOf (t.pchipOf (chipOf n))) (localIdx n))

/-- Route entry of a panel (R243). -/
def Tables.route (t : Tables) (d : Nat) : BitVec 32 := Cells.get 0 t.podrt d
/-- What R244 says of a panel: valid, held or unreachable. -/
inductive Route where
  | here | valid | held | unreachable
deriving DecidableEq, Repr
/-- The route of a panel field (R243, R244). -/
def State.routeTo (s : State) (d : Nat) : Route :=
  let t := s.tables
  if d = 255 || d = s.myPanel then .here
  else if (t.route d).extractLsb' 30 2 = 1 then .valid
  else if (t.route d).extractLsb' 30 2 = 2 then .held
  else .unreachable

/-! ## The monad of a meaning -/

/-- Why a meaning ends before its effect: a precise trap (the state stays as it was, R4, R8), or a turn spent or a wait
begun, which changes the original state by `f` only (R35, R36). -/
inductive Stop where
  | trap (code : Nat) (tval : Word) (mem : Bool)
  | stay (f : State → State)

/-- A computation of a meaning. -/
abbrev M := StateT State (Except Stop)

/-- Raise a precise trap. -/
def trapM {α : Type} (code : Nat) (tval : Word := 0) (mem : Bool := false) : M α := throw (.trap code tval mem)
/-- Spend the turn, changing the original state by `f`. -/
def stayM {α : Type} (f : State → State) : M α := throw (.stay f)
/-- A re-issue wait: the turn is spent without effect (R35). -/
def spend {α : Type} : M α := stayM id
/-- Begin a wait of R36. -/
def waitM {α : Type} (w : Wait) : M α := stayM fun s => s.modMe fun c => { c with status := .waiting w }
/-- The state. -/
def getS : M State := get
/-- Change the state. -/
def modS (f : State → State) : M Unit := modify f
/-- The current context. -/
def me : M Ctx := do return (← get).me
/-- Change the current context. -/
def modMe (f : Ctx → Ctx) : M Unit := modify fun s => s.modMe f
/-- The current group. -/
def myGroup : M Group := do return (← get).myGroup
/-- Change the current group. -/
def modMyGroup (f : Group → Group) : M Unit := modify fun s => s.modGroup s.curCore f
/-- Require a condition or trap. -/
def needM (c : Bool) (code : Nat) (tval : Word := 0) : M Unit := if c then pure () else trapM code tval

/-! ## Scalar registers (R50 to R53) -/

/-- Stack index of a window register s8 to s31. -/
def Ctx.stackIdx (c : Ctx) (r : SReg) : Nat := c.wb + (r.toNat - 8)
/-- The value of a scalar register: s0 reads zero. -/
def Ctx.s (c : Ctx) (r : SReg) : Word :=
  if r = 0 then 0 else if r.toNat < 8 then Cells.get 0 c.low r.toNat else Cells.get 0 c.stack (c.stackIdx r)
/-- Write a scalar register: a write to s0 is discarded. -/
def Ctx.setSReg (c : Ctx) (r : SReg) (v : Word) : Ctx :=
  if r = 0 then c
  else if r.toNat < 8 then { c with low := Cells.set 0 c.low r.toNat v }
  else { c with stack := Cells.set 0 c.stack (c.stackIdx r) v }
/-- The key of a scalar register among late results (R35). -/
def Ctx.skey (c : Ctx) (r : SReg) : Nat := if r.toNat < 8 then r.toNat else 8 + c.stackIdx r
/-- Whether a scalar register is resident (R51). -/
def Ctx.resident (c : Ctx) (res : Nat) (r : SReg) : Bool :=
  r.toNat < 8 || (c.lo ≤ c.stackIdx r && c.stackIdx r < c.lo + res)

/-- The record of an illegal instruction (R91). -/
def illegalRecord (e : DecErr) : Word := BitVec.ofNat 64 (4096 * e.bit + 16 * e.op + e.sub)
/-- Raise the illegal-instruction fault. -/
def illegal {α : Type} (sub bit op : Nat) : M α := trapM 1 (illegalRecord ⟨sub, bit, op⟩)

/-- The first named register that is not resident, by field bit (R53). -/
def firstAbsent (c : Ctx) (res : Nat) : List (Nat × SReg) → Option Nat
  | [] => none
  | (b, r) :: t => if c.resident res r then firstAbsent c res t else some b

/-- Check that every scalar register an instruction names is in the store (R51, R53). -/
def names (op : Nat) (rs : List (Nat × SReg)) : M Unit := do
  let s ← get
  match firstAbsent s.me s.myGroup.r rs with
  | none => pure ()
  | some b => illegal 4 b op

/-- Read a scalar register; a late result spends the turn (R35). -/
def rdS (r : SReg) : M Word := do
  let c ← me
  if c.late.contains (.s (c.skey r)) then spend else pure (c.s r)
/-- Write a scalar register. -/
def wrS (r : SReg) (v : Word) : M Unit :=
  modMe fun c => { c.setSReg r v with late := c.late.filter (· != .s (c.skey r)) }
/-- Write a scalar result that becomes available late (R35). -/
def wrSLate (r : SReg) (v : Word) : M Unit :=
  modMe fun c =>
    if r = 0 then c
    else { c.setSReg r v with late := .s (c.skey r) :: c.late.filter (· != .s (c.skey r)) }
/-- The four registers s[c] to s[c+3] (R38). -/
def rdArgs (r : SReg) : M (List Word) := do
  return [← rdS r, ← rdS (r + 1), ← rdS (r + 2), ← rdS (r + 3)]

/-! ## Mask registers (R55) -/

/-- A mask register: m0 reads all ones. -/
def Ctx.mask (c : Ctx) (r : MReg) : MaskW := if r = 0 then BitVec.allOnes 128 else Cells.get 0 c.m r.toNat
/-- Write a mask register: a write to m0 is discarded. -/
def Ctx.setMask (c : Ctx) (r : MReg) (v : MaskW) : Ctx :=
  if r = 0 then c else { c with m := Cells.set 0 c.m r.toNat v }
def rdM (r : MReg) : M MaskW := do return (← me).mask r
def wrM (r : MReg) (v : MaskW) : M Unit := modMe fun c => c.setMask r v

/-! ## Events (R277) -/

/-- Add to an event counter of a context record. -/
def Ctx.addEv (c : Ctx) (i : Nat) (n : Nat) : Ctx :=
  { c with ev := Cells.set 0 c.ev i (Cells.get 0 c.ev i + BitVec.ofNat 64 n) }
/-- Count an event of the current context. -/
def event (i n : Nat) : M Unit := if n = 0 then pure () else modMe fun c => c.addEv i n
/-- Count an event of a context. -/
def State.addEv (s : State) (core ctx i n : Nat) : State := s.modCtx core ctx fun c => c.addEv i n

/-! ## Happens-before (R134 to R138) -/

/-- Join of two clocks. -/
def joinClock (a b : Clock) : Clock :=
  b.list.foldl (fun acc p => Cells.set 0 acc p.1 (Nat.max (Cells.get 0 acc p.1) p.2)) a
/-- Whether a region happens before the holder of a clock. -/
def clockHas (c : Clock) (agent region : Nat) : Bool := region ≤ Cells.get 0 c agent

/-- Whether a scope of an agent of `core` on panel `panel` covers an agent of another core (R136). -/
def covers (sc : Scope) (panel core panel' core' : Nat) : Bool :=
  match sc with
  | .context => false
  | .core => panel == panel' && core == core'
  | .chiplet => panel == panel' && chipOf core == chipOf core'
  | .panel => panel == panel'
  | .pod => true

/-- A context as the agent of an access (R134). -/
def State.actor (s : State) (core ctx : Nat) : Actor :=
  let g := s.group core
  let c := g.ctx ctx
  ⟨⟨core, ctx, g.launch⟩, .context, c.agent, c.region, g.tenant, g.tgen, c.clock, (0, 0), s.myPanel⟩
/-- The current context as an agent. -/
def myActor : M Actor := do let s ← get; return s.actor s.curCore s.curCtx

/-- What an agent's release makes visible: its clock with its own region. -/
def relClock (a : Actor) : Clock := Cells.set 0 a.clock a.agent a.region
/-- A release of an agent. -/
def actorRel (a : Actor) (panel : Nat) (sc : Scope) : Rel := ⟨relClock a, sc, panel, a.who.core, []⟩
/-- The release of the current context at a scope. -/
def myRel (sc : Scope) : M Rel := do return actorRel (← myActor) (← get).myPanel sc

/-- What an acquire at a scope, by an agent of a core, gets from a release that it observes: the clocks whose scopes match
(R136). -/
def relSeen (r : Rel) (panel core : Nat) (sc : Scope) (clock : Clock) : Clock :=
  if covers sc panel core r.panel r.core then
    ((r.scope, r.clock) :: r.more).foldl (fun acc p =>
      if covers p.1 r.panel r.core panel core then joinClock acc p.2 else acc) clock
  else clock
/-- A context joins a release that its acquire observes, when the scopes match (R136). -/
def Ctx.acquireRel (c : Ctx) (panel core : Nat) (sc : Scope) (r : Rel) : Ctx :=
  { c with clock := relSeen r panel core sc c.clock }
/-- The agent of an access that acquires at a scope: what it observes happens before it (R137). -/
def acquiring (a : Actor) (acq : Option Scope) (rs : List Rel) : Actor :=
  match acq with
  | none => a
  | some sc => { a with clock := rs.foldl (fun c r => relSeen r a.panel a.who.core sc c) a.clock }
/-- The current context acquires releases at a scope. -/
def acquire (sc : Scope) (rs : List Rel) : M Unit := do
  let s ← get
  modMe fun c => rs.foldl (fun c r => c.acquireRel s.myPanel s.curCore sc r) c
/-- A plain read observes a release; a later acquire fence joins it (R137 rule 3). -/
def observe (rs : List Rel) : M Unit := modMe fun c => { c with observed := rs ++ c.observed }

/-- A synchronising instruction ends the region before it and begins another (R138). -/
def Ctx.nextRegion (c : Ctx) : Ctx := { c with region := c.region + 1, touched := false }
/-- End the current region. -/
def endRegion : M Unit := modMe Ctx.nextRegion
/-- The release that a write after a release fence carries (R137 rule 3). -/
def fenceRel : M (Option Rel) := do return (← me).fenceRel

/-! ## Pending reports and messages (R272) -/

/-- Queue an imprecise or asynchronous report for a context of a launch, in the live or the saved group; a context
that has halted leaves cause 0x14 in its launch's record (R142, R273). -/
def Group.report (g : Group) (ctx : Nat) (r : Report) : Group :=
  if (g.ctx ctx).reports.any (fun q => q.code == 0x14) && r.code == 0x14 then g.modCtx ctx fun c => c.addEv 13 1
  else g.modCtx ctx fun c => { c with reports := c.reports ++ [r] }
/-- Change the group of a launch on a core, bound or saved there. -/
def State.modLaunchGroup (s : State) (core launch : Nat) (f : Group → Group) : State :=
  s.modCore core fun c =>
    if c.group.launch = launch then { c with group := f c.group }
    else { c with saved := c.saved.map fun g => if g.launch = launch then f g else g }
/-- The group of a launch on a core, bound or saved. -/
def State.launchGroup (s : State) (core launch : Nat) : Option Group :=
  if (s.core core).group.launch = launch then some (s.core core).group
  else (s.core core).saved.find? fun g => g.launch == launch
/-- Report to a context of a launch. -/
def State.report (s : State) (w : Who) (r : Report) : State :=
  match s.launchGroup w.core w.launch with
  | none => s
  | some g =>
    if (g.ctx w.ctx).status = .free && !(g.taskBusy.any fun t => t.slot == w.ctx && t.stage == 0) then
      (if r.code = 0x14 then s.modLaunch w.launch fun l => { l with late14 := l.late14 + 1 } else s)
    else s.modLaunchGroup w.core w.launch fun g => g.report w.ctx r
/-- Count an event for a context of a launch. -/
def State.eventOf (s : State) (w : Who) (i n : Nat) : State :=
  s.modLaunchGroup w.core w.launch fun g => g.modCtx w.ctx fun c => c.addEv i n

/-! ## Ending launches (R26, R34, R265, R273) -/

/-- The 32-byte status record (R273). -/
def statusRecord (status code core ctx : Nat) (epc tval : Word) (late14 : Nat) : List Byte :=
  [BitVec.ofNat 8 status, BitVec.ofNat 8 code] ++ leBytes 2 core ++ [BitVec.ofNat 8 ctx] ++ leBytes 3 0
    ++ leBytes 8 epc.toNat ++ leBytes 8 tval.toNat ++ leBytes 8 late14

/-- Whether an access comes from a launch of a panel: launch numbers are panel-local (R253). -/
def Actor.ofLaunch (a : Actor) (panel n : Nat) : Bool := a.panel == panel && a.who.launch == n
/-- Forget the accesses that wait at a core for a launch of a panel. -/
def Core.dropWaits (c : Core) (panel n : Nat) : Core :=
  { c with
    waiters := c.waiters.filter fun w => !Actor.ofLaunch w.msg.actor panel n
    backoffs := c.backoffs.filter fun m => !Actor.ofLaunch m.actor panel n }
/-- Take a launch of the own panel off a core: the bound group, saved images, `mma` operations, waiters, keep slots. -/
def Core.dropLaunch (c : Core) (panel n : Nat) : Core :=
  let c := if c.group.launch = n then { c with group := {}, mmas := [], stop := 0 } else c
  { c.dropWaits panel n with
    saved := c.saved.filter fun g => g.launch != n
    keeps := c.keeps.filter fun k => k.2.launch != n
    tlb := c.tlb.filter fun e => (e.1.extractLsb' 37 24).toNat != n }
/-- Free the names of a launch (R30, R65). -/
def freeNames (n : Nat) (names : Cells Name) : Cells Name :=
  names.keys.foldl (fun acc k =>
    Cells.modify {} acc k fun x =>
      match x.owner with
      | some (_, l) => if l = n then { x with owner := none } else x
      | none => x) names
/-! ## Slot rows (R258, R259) -/

/-- A bind record with go set. -/
def slotRecord (action tgen tenant launch gname save gmap part helpers r : Nat) : BitVec 256 :=
  BitVec.ofNat 256 (2 ^ 255 + action % 8 * 2 ^ 252 + tgen % 2 ^ 24 * 2 ^ 216 + tenant % 2 ^ 16 * 2 ^ 200 + launch % 2 ^ 24 * 2 ^ 160
    + gname % 2 ^ 64 * 2 ^ 96 + save % 2 ^ 29 * 2 ^ 41 + gmap % 2 ^ 24 * 2 ^ 17 + part % 16 * 2 ^ 13 + helpers % 16 * 2 ^ 9 + r % 512)
/-- The dispatcher's action of a row. -/
def slotAction (chip row : Nat) : Nat → Option Event
  | 1 => some (.slotBind chip row)
  | 2 => some (.slotSave chip row)
  | 3 => some (.slotResume chip row)
  | 4 => some (.slotEvictPartition chip row)
  | 5 => some (.slotResetStop chip row)
  | 6 => some (.slotRetire chip row)
  | _ => none
/-- Write the record of a row; with go it starts the action. -/
def State.writeRow (s : State) (chip row : Nat) (v : BitVec 256) : State :=
  let s := { s with tables := { s.tables with slott := Cells.set 0 s.tables.slott (8 * chip + row) v } }
  if v.getLsbD 255 then
    match slotAction chip row (v.extractLsb' 252 3).toNat with
    | some e => s.post e
    | none => s
  else s

/-- Account the cores of a launch up to now (R255): those to which its groups are bound. -/
def State.account (s : State) (n : Nat) : State :=
  let l := s.launch n
  if l.stage = .bound || l.stage = .saving then
    let held := (l.live.filter fun c => (s.group c).launch == n).length
    (s.modTenant l.tenant fun t => { t with got := t.got + held * (s.mesh - l.boundAt) }).modLaunch n fun l =>
      { l with boundAt := s.mesh }
  else s
/-- Whether a launch admits its tenant: it is bound or saved, or has a collective built (R252). -/
def Launch.admits (l : Launch) : Bool := l.stage != .queued && l.stage != .retired || !l.colls.isEmpty
/-- Retire a launch on every core with a status record; the firmware retires its rows (R259). -/
def State.retire (s : State) (n : Nat) (record : List Byte) : State :=
  let s := s.account n
  let s := if (s.launch n).admits then s.modTenant (s.launch n).tenant fun t => { t with inWindow := true } else s
  let live := (s.launch n).live
  let s := live.foldl (fun s c => s.writeRow (chipOf c) (localIdx c) (slotRecord 6 0 0 n 0 0 0 0 0 0)) s
  let s := { s with
    cores := s.cores.keys.foldl (fun cs k => Cells.modify {} cs k fun c => c.dropLaunch s.myPanel n) s.cores
    names := freeNames n s.names }
  s.modLaunch n fun l => { l with stage := .retired, status := record, tasks := [], bars := Cells.empty, colls := [],
                                  evict := none, live := [] }
/-- Retire a launch with a status whose other bytes are zero (R273). -/
def State.retireWith (s : State) (n status : Nat) : State :=
  s.retire n (statusRecord status 0 0 0 0 0 (s.launch n).late14)

/-- Retire a launch whose group on a core could not be restored (R273, R293). -/
def State.unrecoverable (s : State) (n core : Nat) : State :=
  s.retire n (statusRecord 0x0C 0 core 0 0 0 (s.launch n).late14)

/-! ## Traps (R270 to R274) -/

/-- The busy bit of sr.cause. -/
def Ctx.busy (c : Ctx) : Bool := c.cause.getLsbD 15
/-- The value that trap entry writes to sr.cause (R270, R271). -/
def causeWord (mem : Bool) (prev : BitVec 2) (imp : Bool) (code : Nat) : Word :=
  BitVec.ofNat 64 (2 ^ 15 + (if mem then 2 ^ 11 else 0) + 2 ^ 9 * prev.toNat + (if imp then 2 ^ 8 else 0) + code)
/-- Fatal trap: the launch is stopped on every core and retired with status 0x0B (R273). -/
def State.fatal (s : State) (core ctx code : Nat) (epc tval : Word) : State :=
  let n := (s.group core).launch
  s.retire n (statusRecord 0x0B code core ctx epc tval (s.launch n).late14)
/-- The context after trap entry. -/
def Ctx.trapped (c : Ctx) (vec : Word) (code : Nat) (tval epc : Word) (mem imp : Bool) : Ctx :=
  { c with
    cause := causeWord mem c.priv imp code, epc := epc, tval := tval, priv := 1
    pc := vec + BitVec.ofNat 64 (32 * code)
    status := .ready, follow := none, access := none, spawnReply := none, met := none, sawMiss := false, sawMark := false,
    walkFault := none }
/-- Take a trap (R271): fatal when busy or without a handler table. -/
def State.enterTrap (s : State) (core ctx code : Nat) (tval epc : Word) (mem imp : Bool) : State :=
  if (s.ctx core ctx).busy || (s.group core).trapvec = 0 then s.fatal core ctx code epc tval
  else s.modCtx core ctx fun c => c.trapped (s.group core).trapvec code tval epc mem imp
/-- Return from a trap (R274): pc from sr.epc with bits [1:0] cleared, level from prev, busy clear. -/
def Ctx.returned (c : Ctx) : Ctx :=
  { c with pc := c.epc &&& ~~~3#64, priv := c.cause.extractLsb' 9 2, cause := c.cause &&& ~~~(1#64 <<< 15) }

/-- Causes whose sr.epc is the next instruction: software trap and breakpoint (R272). -/
def epcIsNext (code : Nat) : Bool := code == 0x13 || code == 0x16

/-- The state that a meaning of an instruction of `len` bytes leaves: its effect, a wait or a spent turn, or a trap. -/
def State.turn (s : State) (len : Nat) (m : M Unit) : State :=
  match m s with
  | .ok (_, s') => s'
  | .error (.stay f) => f s
  | .error (.trap code tval mem) =>
    let pc := s.me.pc
    let epc := if epcIsNext code then pc + BitVec.ofNat 64 len else pc
    s.enterTrap s.curCore s.curCtx code tval epc mem false
/-- Run a meaning of an instruction of `len` bytes: a next state in every case. -/
def runInstr (len : Nat) (m : M Unit) (s : State) : Res := .next (s.turn len m)

/-- Move past an instruction of `len` bytes; the outstanding access and wait marks are done with. -/
def advance (len : Nat) : M Unit :=
  modMe fun c => { c with pc := c.pc + BitVec.ofNat 64 len, access := none, spawnReply := none, sawMiss := false,
                          sawMark := false, walkFault := none }
/-- Set the program counter, bits [1:0] cleared (R71). -/
def jumpTo (target : Word) : M Unit :=
  modMe fun c => { c with pc := target &&& ~~~3#64, access := none, spawnReply := none, sawMiss := false,
                          sawMark := false, walkFault := none }
/-- An instruction of `len` bytes that falls through. -/
def instr (len : Nat) (m : M Unit) (s : State) : Res := runInstr len (do m; advance len) s

/-- The privilege check (R7): lower levels raise cause 0x02. -/
def level (l : BitVec 2) : M Unit := do
  let c ← me
  needM (l.toNat ≤ c.priv.toNat) 2

/-- Run the meaning of the device event at hand; a step of the table that is not at hand does not occur and changes
nothing (log 6). -/
def runEvent (i : Instr) (s : State) (f : Event → State → State) : Res :=
  match s.event with
  | none => .next s
  | some e => if e.instr = i then (if e.wf then .next (f e ({ s with event := none }.meterMesh e)) else .fault .noSuchUnit)
              else .next s

end Sys2Proof.Machine
end

