-- ==== Sys2Proof/Machine/Memory.lean ====
section
/-! DEFINITION. Sys2Proof/Machine/Memory.lean: storage at the homes: keys of places (R111), bytes and lines, full and
empty lines with their waiters (R117, R118), poison (R290), sectors (R124), conflict marks (R139 to R143), address
ranges (R126, R127), counters and their increments (R213, R217). -/
namespace Sys2Proof.Machine

/-! ## Bytes of lines -/

/-- Byte i of a line. -/
def lineByte (l : Line) (i : Nat) : Byte := l.extractLsb' (8 * i) 8
/-- A line with byte i replaced. -/
def setLineByte (l : Line) (i : Nat) (b : Byte) : Line :=
  (l &&& ~~~((0xFF#1024) <<< (8 * i))) ||| ((b.setWidth 1024) <<< (8 * i))
/-- The line of a byte list, lowest byte first. -/
def lineOf (bs : List Byte) : Line := BitVec.ofNat 1024 (leNat (bs.take 128))
/-- The n bytes of a line from byte i, as a number. -/
def lineNat (l : Line) (i n : Nat) : Nat := (l >>> (8 * i)).toNat % 256 ^ n
/-- The mask of n bytes from byte i. -/
def maskOf (i n : Nat) : BitVec 128 := BitVec.ofNat 128 ((2 ^ n - 1) * 2 ^ i)
/-- The first byte that a mask touches. -/
def lowByte (m : BitVec 128) : Nat := ((List.range 128).find? fun i => m.getLsbD i).getD 0
/-- The 4-byte words that a byte mask touches (R140). -/
def wordsOf (mask : BitVec 128) : List Nat :=
  (List.range 32).filter fun w => mask.extractLsb' (4 * w) 4 != 0
/-- The word mask of a byte mask. -/
def wordMask (mask : BitVec 128) : BitVec 32 :=
  (wordsOf mask).foldl (fun acc w => acc ||| (1#32 <<< w)) 0
/-- The byte mask of a word mask. -/
def byteMask (w : BitVec 32) : BitVec 128 :=
  (List.range 32).foldl (fun acc i => if w.getLsbD i then acc ||| maskOf (4 * i) 4 else acc) 0
/-- Bytes of `new` under a mask over `old`. -/
def mergeLine (mask : BitVec 128) (new old : Line) : Line :=
  (List.range 128).foldl (fun acc i => if mask.getLsbD i then setLineByte acc i (lineByte new i) else acc) old

/-! ## Keys: one number space for the storage of the panel -/

/-- Base of the vault keys. -/
def vaultBase : Nat := 2 ^ 56
/-- Base of the scratchpad keys. -/
def scratchBase : Nat := 2 ^ 57
/-- Key of a byte of a vault. -/
def vaultKey (chip off : Nat) : Nat := vaultBase + chip * 2 ^ 29 + off
/-- Key of a physical byte of a scratchpad. -/
def scratchKey (core off : Nat) : Nat := scratchBase + core * 2 ^ 21 + off
/-- Key of a physical address of the own panel. -/
def physKey (pa : Nat) : Nat := pa % 2 ^ 46
/-- Key of the proxy copy of a physical address homed on another panel (R248). -/
def proxyKey (pa : Nat) : Nat := 2 ^ 58 + pa
/-- Whether a key is that of a proxy copy. -/
def isProxyKey (k : Nat) : Bool := 2 ^ 58 ≤ k && k < 2 ^ 59
/-- Whether a key lies in a scratchpad. -/
def isScratchKey (k : Nat) : Bool := scratchBase ≤ k && k < 2 ^ 58
/-- Key of a place that this panel serves: its own storage, or its proxy copy of a line homed elsewhere; none for
a scratchpad or vault of another panel, and for a peer, which the owner resolves. -/
def State.keyOf (s : State) : Place → Option Nat
  | .phys pa => some (if pa / 2 ^ 46 = s.myPanel then physKey pa else proxyKey pa)
  | .vault p chip off => if p = s.myPanel then some (vaultKey chip off) else none
  | .scratch p core off => if p = s.myPanel then some (scratchKey core off) else none
  | .peer _ _ _ => none
/-- The panel whose units serve a request to a place: the own one for global memory, through its home or proxy slice
(R248). -/
def State.placePanel (s : State) : Place → Nat
  | .phys _ => s.myPanel
  | .vault p _ _ => p
  | .scratch p _ _ => p
  | .peer p _ _ => p
/-- Physical offset of a partition offset (R120): window granule g lies in physical granule gmap[g]. -/
def gmapOff (gmap : BitVec 24) (off : Nat) : Nat :=
  (gmap.extractLsb' (3 * (off / 2 ^ 18)) 3).toNat * 2 ^ 18 + off % 2 ^ 18

/-! ## Reading and writing storage -/

/-- The n bytes from a key, lowest first. -/
def Store.bytes (st : Store) : Nat → Nat → List Byte
  | _, 0 => []
  | k, n + 1 => st.mem.read k :: st.bytes (k + 1) n
/-- The n bytes from a key, little-endian (R1). -/
def Store.num (st : Store) (k n : Nat) : Nat := leNat (st.bytes k n)
/-- The 128 bytes from a key. -/
def Store.line (st : Store) (k : Nat) : Line := lineOf (st.bytes k 128)
/-- Write bytes from a key. -/
def Store.setBytes (st : Store) : Nat → List Byte → Store
  | _, [] => st
  | k, b :: t => ({ st with mem := st.mem.write k b } : Store).setBytes (k + 1) t
/-- Write the masked bytes of a line. -/
def Store.setLine (st : Store) (k : Nat) (mask : BitVec 128) (l : Line) : Store :=
  { st with mem :=
      (List.range 128).foldl (fun m i => if mask.getLsbD i then m.write (k + i) (lineByte l i) else m) st.mem }
/-- Whether a scratchpad line is empty (R117). -/
def Store.isEmpty (st : Store) (k : Nat) : Bool := Cells.get false st.empties (k / 128)
/-- Set the full/empty bit of a line. -/
def Store.setEmpty (st : Store) (k : Nat) (e : Bool) : Store :=
  { st with empties := Cells.set false st.empties (k / 128) e }
/-- Whether a 64-byte unit is poisoned (R290). -/
def Store.poisoned (st : Store) (k : Nat) : Bool := Cells.get false st.poison (k / 64)
/-- Set the poison mark of a 64-byte unit. -/
def Store.setPoison (st : Store) (k : Nat) (p : Bool) : Store :=
  { st with poison := Cells.set false st.poison (k / 64) p }
/-- Whether an access of a line reads poison: of the two halves the mask touches; a scratchpad line is one unit. -/
def Store.readsPoison (st : Store) (k : Nat) (mask : BitVec 128) : Bool :=
  (st.poisoned k && (mask.extractLsb' 0 64 != 0 || isScratchKey k))
    || (st.poisoned (k + 64) && (mask.extractLsb' 64 64 != 0 || isScratchKey k))
/-- Poison that a write clears: a whole sector, or a whole scratchpad line (R290). -/
def Store.clearPoison (st : Store) (k : Nat) (mask : BitVec 128) : Store :=
  let full := mask == BitVec.allOnes 128
  let st := if full || (!isScratchKey k && mask.extractLsb' 0 64 == BitVec.allOnes 64) then st.setPoison k false
            else st
  if full || (!isScratchKey k && mask.extractLsb' 64 64 == BitVec.allOnes 64) then st.setPoison (k + 64) false
  else st
/-- A slice sector (R124). -/
def Store.sector (st : Store) (k : Nat) : Sector := Cells.get {} st.sectors (k / 64)
/-- Change a slice sector. -/
def Store.modSector (st : Store) (k : Nat) (f : Sector → Sector) : Store :=
  { st with sectors := Cells.modify {} st.sectors (k / 64) f }
/-- The effect of a write on the slice sectors of a physical line: dirty, with the written words (R124). -/
def Store.dirtySectors (st : Store) (k : Nat) (mask : BitVec 128) : Store :=
  if vaultBase ≤ k && !isProxyKey k then st
  else
    let w := wordMask mask
    let st := if w.extractLsb' 0 16 = 0 then st
      else st.modSector k fun x => { x with dirty := true, words := x.words ||| w.extractLsb' 0 16 }
    if w.extractLsb' 16 16 = 0 then st
    else st.modSector (k + 64) fun x => { x with dirty := true, words := x.words ||| w.extractLsb' 16 16 }
/-- Whether a read of a physical line must fetch a sector from HBM first (R124): invalid, with a word outside the
mask. -/
def Store.needsFetch (st : Store) (k : Nat) (mask : BitVec 128) : List Nat :=
  if vaultBase ≤ k then []
  else
    let w := wordMask mask
    (if (st.sector k).valid || w.extractLsb' 0 16 &&& ~~~(st.sector k).words = 0 then [] else [k / 64])
      ++ (if (st.sector (k + 64)).valid || w.extractLsb' 16 16 &&& ~~~(st.sector (k + 64)).words = 0 then []
          else [k / 64 + 1])
/-- Metadata of a sector (R247). -/
def Store.metaOf (st : Store) (k : Nat) : BitVec 32 := Cells.get 0 st.meta32 (k / 64)
/-- Coherence state in a sector's metadata. -/
def metaState (m : BitVec 32) : Nat := (m.extractLsb' 0 3).toNat
/-- The sectors (key div 64) of a line whose bytes a mask touches. -/
def touchedSectors (k : Nat) (mask : BitVec 128) : List Nat :=
  (if mask.extractLsb' 0 64 = 0 then [] else [k / 64]) ++ (if mask.extractLsb' 64 64 = 0 then [] else [k / 64 + 1])
/-- Whether another panel may hold a copy of the touched sectors of an own physical line. -/
def Store.sharedOut (st : Store) (k : Nat) (mask : BitVec 128) : Bool :=
  k < vaultBase && (touchedSectors k mask).any fun q => metaState (Cells.get 0 st.meta32 q) != 0
/-- Record the release that the last write of each touched word carries (R137). -/
def Store.setRels (st : Store) (k : Nat) (mask : BitVec 128) (r : Option Rel) : Store :=
  { st with rels := (wordsOf mask).foldl (fun acc w => Cells.set none acc (k / 4 + w) r) st.rels }
/-- The releases that the touched words carry, by word. -/
def Store.relPairs (st : Store) (k : Nat) (mask : BitVec 128) : List (Nat × Rel) :=
  (wordsOf mask).filterMap fun w => (Cells.get none st.rels (k / 4 + w)).map fun r => (w, r)
/-- The releases that a read of the touched words observes. -/
def Store.relsOf (st : Store) (k : Nat) (mask : BitVec 128) : List Rel := (st.relPairs k mask).map (·.2)
/-- The releases of the words of a part that its mask touches. -/
def partSeen (p : Part) : List Rel := (p.rels.filter fun q => (wordsOf p.mask).contains q.1).map (·.2)

/-- The key of the release that the last fill of a scratchpad line made (R151). -/
def lineRelKey (k : Nat) : Nat := 2 ^ 60 + k / 128
/-- Record the release of a fill. -/
def Store.setLineRel (st : Store) (k : Nat) (r : Option Rel) : Store :=
  { st with rels := Cells.set none st.rels (lineRelKey k) r }
/-- The release that a wait for a full line observes. -/
def Store.lineRel (st : Store) (k : Nat) : Option Rel := Cells.get none st.rels (lineRelKey k)

/-- Drop the keep slots of a core that hold a written line (R183). -/
def Core.dropKeeps (c : Core) (k : Nat) : Core :=
  { c with keeps := c.keeps.filter fun p => !p.2.lines.contains k }
/-- The core of a scratchpad key. -/
def coreOfKey (k : Nat) : Nat := (k - scratchBase) / 2 ^ 21
/-- Write the masked bytes of a line at its home, with everything that goes with a write: sectors, poison, keep slots,
the release it carries. -/
def State.writeHome (s : State) (k : Nat) (mask : BitVec 128) (l : Line) (r : Option Rel) : State :=
  let s := { s with store :=
    ((((s.store.setLine k mask l).dirtySectors k mask).clearPoison k mask).setRels k mask r) }
  if isScratchKey k then
    (if (s.core (coreOfKey k)).keeps.isEmpty then s else s.modCore (coreOfKey k) fun c => c.dropKeeps k)
  else s

/-! ## Conflict marks (R139 to R143) -/

/-- Whether two accesses conflict: another agent of the tenant, one writes, one is plain, regions concurrent
(R138, R140). -/
def Mark.conflicts (m : Mark) (a : Actor) (write plain : Bool) : Bool :=
  m.agent != a.agent && m.tenant == a.tenant && (m.write || write) && (m.plain || plain)
    && !clockHas a.clock m.agent m.region
    && !(m.issuer.1 == a.agent && a.region ≤ m.issuer.2)
    && !(a.issuer.1 == m.agent && m.region ≤ a.issuer.2)
/-- The marks of a word. -/
def Store.marksAt (st : Store) (w : Nat) : List Mark := Cells.get [] st.marks w
/-- The lowest conflicting word of an access to the words of a line. -/
def Store.conflictIn (st : Store) (a : Actor) (write plain : Bool) (k : Nat) (mask : BitVec 128) : Option Nat :=
  (wordsOf mask).find? fun w => (st.marksAt (k / 4 + w)).any fun m => m.conflicts a write plain
/-- Record the marks of an access. -/
def Store.addMarks (st : Store) (a : Actor) (write plain : Bool) (k : Nat) (mask : BitVec 128) : Store :=
  let m : Mark := ⟨a.agent, a.region, a.tenant, a.who.launch, a.who.core, a.engine != .context, a.issuer, write, plain⟩
  { st with marks := (wordsOf mask).foldl (fun acc w =>
      Cells.modify [] acc (k / 4 + w) fun l => if l.contains m then l else m :: l) st.marks }

/-- The contexts of a group: those in its slots, the owners of lent slots, suspended tasks. -/
def Group.allCtxs (g : Group) : List Ctx := g.ctxs.list.map (·.2) ++ g.lent.map (·.2) ++ g.suspended
/-- The agents of a group that may still access memory besides its contexts: commands and chains in its queues, firings and armed
entries, tasks (R134, R143). -/
def Group.engines (g : Group) : List Actor :=
  (g.queues.list.flatMap fun p => p.2.items.filterMap fun i => match i with
    | .cmd c => some c.actor
    | .chain c _ _ => some c.actor
    | .fence _ => none)
    ++ (g.firings ++ g.crossed).filterMap (·.actor)
    ++ g.entries.list.filterMap (fun p => if p.2.armed then p.2.actor else none)
    ++ g.taskBusy.map (·.eng)
/-- Whether a region is concurrent with a region of an agent that has reached `region`, given what happens before it: regions of
the agent itself have ended before that one. -/
def Mark.open (m : Mark) (agent region : Nat) (clock : Clock) : Bool :=
  if m.agent = agent then region ≤ m.region else !clockHas clock m.agent m.region
/-- Whether a mark can still matter: some live context or engine of its tenant is concurrent with its region, or its region has not
ended (R143). -/
def State.markLive (s : State) (m : Mark) : Bool :=
  s.cores.list.any fun p =>
    (p.2.group :: p.2.saved).any fun g =>
      g.tenant == m.tenant
        && (g.allCtxs.any (fun c =>
              c.status != .free && m.open c.agent c.region c.clock)
            || g.engines.any fun a => m.open a.agent a.region a.clock)
/-- The mark entries in use on a core by its contexts or by its porter: distinct line and region (R143). Accesses of a
core's own contexts to its own scratchpad take none. -/
def State.markEntries (s : State) (core : Nat) (engine : Bool) : List (Nat × Nat × Nat) :=
  (s.store.marks.list.flatMap fun p =>
    (p.2.filter fun m =>
      m.core == core && m.engine == engine && (engine || !(scratchKey core 0 ≤ 4 * p.1 && 4 * p.1 < scratchKey (core + 1) 0))
        && s.markLive m).map fun m => (p.1 / 32, m.agent, m.region)).eraseDups
/-- Whether a core's mark store has n entries free (R143): of 16,384 for its contexts, of 4,096 for its porter. What needs no entry
has room. -/
def State.markFree (s : State) (core : Nat) (engine : Bool) (n : Nat) : Bool :=
  if n = 0 || (s.store.marks.list.map fun p => p.2.length).sum + n ≤ (if engine then 4096 else 16384) then true
  else (s.markEntries core engine).length + n ≤ (if engine then 4096 else 16384)
/-- Whether a mark entry is free for one line. -/
def State.markRoom (s : State) (core : Nat) (engine : Bool) : Bool := s.markFree core engine 1
/-- Whether an agent's region has an entry for the line at a key already (R143). -/
def Store.hasMark (st : Store) (a : Actor) (k : Nat) : Bool :=
  (List.range 32).any fun w => (st.marksAt (k / 4 + w)).any fun m => m.agent == a.agent && m.region == a.region

/-! ## Address ranges and slices (R126, R127) -/

/-- An address-range register. -/
def Tables.arrOf (t : Tables) (i : Nat) : BitVec 128 := Cells.get 0 t.arr i
def arrValid (a : BitVec 128) : Bool := a.getLsbD 127
def arrSwitching (a : BitVec 128) : Bool := a.getLsbD 126
def arrDomain (a : BitVec 128) : Nat := (a.extractLsb' 120 4).toNat
def arrTenant (a : BitVec 128) : Nat := (a.extractLsb' 104 16).toNat
def arrLimit (a : BitVec 128) : Nat := (a.extractLsb' 64 30).toNat
def arrBase (a : BitVec 128) : Nat := (a.extractLsb' 0 30).toNat
/-- Whether a register covers a panel-local address; beyond the 8,000,000,000 lines that HBM backs nothing is covered (R125;
log 53). -/
def arrCovers (a : BitVec 128) (pal : Nat) : Bool :=
  arrValid a && arrBase a ≤ pal / 2 ^ 16 && pal / 2 ^ 16 < arrLimit a && pal / 256 < 8000000000
/-- The valid register of the highest index that covers an address decides for it. -/
def Tables.decides (t : Tables) (pal : Nat) : Option (BitVec 128) :=
  (List.range 16).reverse.findSome? fun i => if arrCovers (t.arrOf i) pal then some (t.arrOf i) else none
/-- The owning tenant of an address: 0 when no register covers it. -/
def Tables.ownerOf (t : Tables) (pal : Nat) : Nat :=
  match t.decides pal with
  | some a => arrTenant a
  | none => 0
/-- Parity of a number's bits. -/
def parity {n : Nat} (x : BitVec n) : Bool := (List.range n).foldl (fun acc i => acc != x.getLsbD i) false
/-- Member number of a line in a domain (R127). -/
def Tables.member (t : Tables) (dom la : Nat) : Nat :=
  let d := Cells.get (0 : BitVec 32) t.dom dom
  (List.range (d.extractLsb' 28 4).toNat).foldl (fun j i =>
    if parity (BitVec.ofNat 44 la &&& (Cells.get (0 : BitVec 64) t.hash (12 * dom + i)).extractLsb' 0 44)
    then j + 2 ^ i else j) 0
/-- The home slice of a physical address of the own panel: the panel-local part selects the range, the line address PA[51:8] the
member (R127). -/
def Tables.homeSlice (t : Tables) (pa : Nat) : Option Nat :=
  (t.decides (pa % 2 ^ 46)).map fun a =>
    let d := Cells.get (0 : BitVec 32) t.dom (arrDomain a)
    (d.extractLsb' 0 12).toNat + t.member (arrDomain a) (pa / 256) * (d.extractLsb' 16 12).toNat

/-- VOWN entry of a vault page (R115). -/
def Tables.vownOf (t : Tables) (chip page : Nat) : BitVec 32 := Cells.get 0 t.vown (256 * chip + page)
/-- Whether a vault access of a tenant is refused (R115). -/
def Tables.vaultRefused (t : Tables) (tenant chip off : Nat) (write : Bool) : Bool :=
  let e := t.vownOf chip (off / 2 ^ 21)
  !e.getLsbD 17 || (e.extractLsb' 0 16).toNat != tenant || (write && !e.getLsbD 16)

/-! ## Endpoints and sending (R227 to R230, R239 to R245) -/

/-- The endpoint of the unit that serves a place (R228): a core, or for a vault or a slice the service core of its chiplet; the slices
of a line homed elsewhere are this panel's proxy slices (R248; log 19). -/
def State.placeEnd (s : State) : Place → Nat
  | .scratch _ core _ | .peer _ core _ => core
  | .vault _ chip _ => 2048 + chip
  | .phys pa =>
    if pa / 2 ^ 46 = s.myPanel then 2048 + (s.tables.homeSlice pa).getD 0 / 16
    else 2048 + Nat.xor (pa / 256) (pa / 2 ^ 20) % 4096 / 16
/-- The core that a name's index starts at (R30). -/
def nameCore (n : Word) : Nat := (n.extractLsb' 0 32).toNat % 2048
/-- The places of a memory operation. -/
def opPlaces : MemOp → List Place
  | .fill _ ps | .load ps | .store ps | .setLine ps _ | .maint _ ps => ps.map (·.place)
  | .atomic _ _ _ ls | .fired _ _ _ ls => ls.map (·.place)
  | .nibble p _ _ _ _ => [p.place]
/-- Endpoints and class of a message (R228, R230): its source, its destinations, its network: 0 request, 1 reply, 2 deposit, 3
synchronisation retry, 4 management. A reply carries the endpoint that answers; coherence messages and their
acknowledgements keep one order for each panel and slice (R250; log 53). None: not a message of the mesh. -/
def State.endsOf (s : State) : Event → Option (Nat × List Nat × Nat)
  | .memoryRequest m => some (m.actor.who.core, ((opPlaces m.op).map s.placeEnd).eraseDups, if m.tries = 0 then 0 else 3)
  | .remoteSyncAccess m => some (m.actor.who.core, [s.placeEnd m.part.place], if m.tries = 0 then 0 else 3)
  | .syncCancel w core => some (w.core, [core], 3)
  | .depositArrival m => some (m.src.core, [nameCore m.name], 2)
  | .wakeArrival m => some (m.src.core, [nameCore m.name], 0)
  | .spawnRequest m => some (m.src.core, [nameCore m.name], 0)
  | .channelElementArrival m => some (m.src.core, [m.core], 2)
  | .counterIncrement i => some ((match i.rel with
      | some r => r.core
      | none => 0), [i.core], 0)
  | .replyData m => some (m.src, [m.who.core], 1)
  | .depositNack m => some (2304, [m.dst.core], 1)
  | .spawnReply m => some (nameCore m.name, [m.dst.core], 1)
  | .drainMarkerAck m => some (2304, [m.core], 1)
  | .accessNack m => some (s.placeEnd m.part.place, [m.actor.who.core], 1)
  | .absentAnswer m | .replayCompletion m | .unreachableReturn m =>
    some (((opPlaces m.op).map s.placeEnd).headD 0, [m.actor.who.core], 1)
  | .dropNotice core => some (2304, [core], 1)
  | .readShared p q | .readExclusive p q | .ownerWriteBack p q _ _ _ _ | .grantAck p q _ | .coherenceForward p q _ _ | .invalidation p q =>
    some (2320 + p, [s.placeEnd (.phys (s.myPanel * 2 ^ 46 + 64 * q))], 0)
  | .containment _ _ _ _ => some (2304, [2304], 4)
  | _ => none
/-- The lane of a message (R228). -/
def laneOf (src dst cls : Nat) : Nat := (src + 5 * dst + 47 * cls) % 128
/-- The port that a message for a panel leaves through (R242): of the set of the route, by the endpoints. A port that is down passes
its messages to the next one of the set that is up (log 20). -/
def State.portFor (s : State) (panel : Nat) (e : Event) : Nat :=
  let r := s.tables.route panel
  let (src, dst, _) := (s.endsOf e).getD (0, [], 0)
  let n := (r.extractLsb' 8 6).toNat + 1
  let set := (List.range n).map fun i => ((r.extractLsb' 0 6).toNat + (src + 5 * dst.headD 0 + i) % n) % 64
  (set.find? fun p => (Cells.get ({} : Optical) s.optical p).up).getD (set.headD 0)
/-- Key of a send allowance: tenant and network (R242). -/
def allowKey (tenant net : Nat) : Nat := 8 * tenant + net
/-- Whether a port can take n link flits of a tenant and a network now (R241, R242, R246): it is up and not frozen, its replay buffer of
1,024 has room, and the tenant's allowance with the pool covers them. -/
def Optical.fits (o : Optical) (tenant net n : Nat) : Bool :=
  o.up && !o.frozen && o.replay.length + n ≤ 1024 && n ≤ Cells.get 0 o.allowances (allowKey tenant net) + o.pool
/-- A sending port takes n link flits (R239, R241, R242): they stay in the replay buffer until acknowledged and spend the tenant's
allowance, then the pool. -/
def Optical.send (o : Optical) (tenant net n : Nat) (item : Nat × Event) : Optical :=
  let own := Nat.min n (Cells.get 0 o.allowances (allowKey tenant net))
  { o with
    sendSeq := (o.sendSeq + n) % 4096, sendSlots := o.sendSlots + n
    replay := o.replay ++ (List.range n).map fun i => ((o.sendSeq + i) % 4096, tenant)
    sent := o.sent ++ [((o.sendSeq + n - 1) % 4096, item.1, item.2)]
    allowances := Cells.modify 0 o.allowances (allowKey tenant net) fun a => a - own
    pool := o.pool - (n - own) }
/-- Tenant, network and link flits of a message: four for three mesh flits (R239); firmware's and replies are of tenant 0xFFFF. -/
def State.linkLoad (s : State) (e : Event) : Nat × Nat × Nat :=
  let (tn, n) := (Event.load s e).getD (0xFFFF, 1)
  (tn, ((s.endsOf e).getD (0, [], 4)).2.2, Nat.min 1024 ((4 * n + 2) / 3))
/-- Change a port. -/
def State.modPort (s : State) (p : Nat) (f : Optical → Optical) : State :=
  { s with optical := Cells.modify {} s.optical p f }
/-- A message leaves through a port; its payload is metered (R267). -/
def State.emit (s : State) (p panel : Nat) (e : Event) : State :=
  let (tn, net, n) := s.linkLoad e
  let s := if tn = 0xFFFF then s else s.meter tn 8 (48 * n)
  { s.modPort p (fun o => o.send tn net n (panel, e)) with podOut := s.podOut ++ [(panel, e)] }
/-- Send what waits at a port, in order on each network, as far as it fits. -/
def State.drainList (s : State) (p : Nat) (blocked : List Nat) : List (Nat × Event) → State
  | [] => s
  | x :: t =>
    let (tn, net, n) := s.linkLoad x.2
    if !blocked.contains net && (Cells.get ({} : Optical) s.optical p).fits tn net n then (s.emit p x.1 x.2).drainList p blocked t
    else (s.modPort p fun o => { o with queue := o.queue ++ [x] }).drainList p (net :: blocked) t
def State.drainPort (s : State) (p : Nat) : State :=
  (s.modPort p fun o => { o with queue := [] }).drainList p [] (Cells.get ({} : Optical) s.optical p).queue
/-- What comes back to its source of a message to a panel that cannot be reached (R245): the request, a refusal of a deposit or a wake,
an inline child, code 3 of an engine. -/
def Event.returned (panel tgen : Nat) : Event → Option Event
  | .memoryRequest m => some (.unreachableReturn m)
  | .remoteSyncAccess m =>
    some (match m.store with
      | some _ => .unreachableReturn ⟨m.actor, m.id, .store [m.part], true, false, m.rel, 0⟩
      | none => .replyData ⟨m.actor.who, m.id, m.actor.engine, m.actor.tgen, .unreachable (BitVec.ofNat 64 m.part.va), none, false, 2304⟩)
  | .depositArrival m => some (.depositNack ⟨m.src, m.kc, 7⟩)
  | .wakeArrival m => some (.depositNack ⟨m.src, none, 9⟩)
  | .spawnRequest m => some (.spawnReply ⟨m.src, m.fired, m.name, .refused⟩)
  | .counterIncrement i => i.ack.map fun a =>
      .replyData ⟨⟨a.1, 0, a.2.1⟩, 0, .porter a.2.2, tgen, .unreachable (BitVec.ofNat 64 (2 ^ 32 * panel + 2 ^ 16 * i.core + i.ctr.toNat)),
        none, true, 2304⟩
  | .readShared _ q | .readExclusive _ q =>
    some (.replyData ⟨⟨0, 0, 0⟩, 0, .context, 0, .unreachable (BitVec.ofNat 64 (panel * 2 ^ 46 + 64 * q)), none, false, 2304⟩)
  | .ownerWriteBack _ _ _ _ _ (some (a, id)) => some (.replyData ⟨a.who, id, .context, a.tgen, .ack none, none, true, 2304⟩)
  | _ => none
/-- Send a message to another panel (R227, R242): through the port of its route, or into the queue of the port. It waits while the
route is held, and comes back where the panel cannot be reached (R244, R245). -/
def State.sendOut (s : State) (panel : Nat) (e : Event) : State :=
  match s.routeTo panel with
  | .held => { s with podHeld := s.podHeld ++ [(panel, e)] }
  | .unreachable =>
    (match Event.returned panel (((Event.load s e).map fun x => (s.tenant x.1).gen.toNat).getD 0) e with
     | some r => s.post r
     | none => s)
  | _ => (s.modPort (s.portFor panel e) fun o => { o with queue := o.queue ++ [(panel, e)] }).drainPort (s.portFor panel e)
/-- A route that was held is open or lost: what waited for it goes on (R244). -/
def State.releaseHeld (s : State) : State :=
  s.podHeld.foldl (fun s x => s.sendOut x.1 x.2) { s with podHeld := [] }

/-! ## Slices (R124, R127, R248) -/

/-- Send a request message of an actor: to a unit of this panel or to another panel. -/
def State.sendTo (s : State) (panel : Nat) (e : Event) : State := if panel = s.myPanel then s.post e else s.sendOut panel e

/-- Contexts that a request has been sent for whose acknowledgement they do not wait for: it is unacknowledged to each until its
reply, for which a reservation is held (R148, R231). -/
def State.oweAll (s : State) (core id : Nat) (ws : List Who) : State :=
  (ws.foldl (fun (s : State) w => s.modLaunchGroup w.core w.launch fun g => g.modCtx w.ctx fun c => { c with unacked := c.unacked + 1 }) s).modCore
    core fun c => { c with reserved := c.reserved + 1, owed := c.owed ++ [(id, ws)] }
/-- A context has sent a request whose acknowledgement it does not wait for: it is unacknowledged until its reply, for which
a reservation is held (R148, R231). -/
def State.owe (s : State) (core ctx : Nat) : State :=
  (s.modCtx core ctx fun c => { c with unacked := c.unacked + 1 }).modCore core fun c => { c with reserved := c.reserved + 1 }
/-- The bytes of a sector. -/
def State.sectorData (s : State) (k : Nat) : BitVec 512 :=
  (s.store.line (k / 128 * 128)).extractLsb' (if k % 128 = 0 then 0 else 512) 512
/-- Write a dirty slice sector to HBM, or an O or M proxy sector to its home, which acknowledges to a waiting instruction (R124,
R130, R346). The home then counts the panel among the holders no more (R249), so the proxy slice keeps no copy (log 53). -/
def State.cleanSector (s : State) (waiter : Option Actor) (q : Nat) : State × Nat :=
  let x : Sector := Cells.get {} s.store.sectors q
  let k := 64 * q
  let s' := { s with store := s.store.modSector k fun x => { x with dirty := false } }
  if isProxyKey k then
    match Cells.get Proxy.i s.store.proxies q with
    | .o | .m =>
      let s' := { s' with store := { s'.store with proxies := Cells.set Proxy.i s'.store.proxies q .i } }
      let back (s : State) (w : Option (Actor × Nat)) : State := s.sendOut ((k - 2 ^ 58) / 2 ^ 46)
        (.ownerWriteBack s.myPanel ((k - 2 ^ 58) % 2 ^ 46 / 64) (s.sectorData k) (s.store.poisoned k) false w)
      (match waiter with
       | none => back s' none
       | some a =>
         let id := s'.nextId
         back (({ s' with nextId := id + 1 } : State).oweAll a.who.core id [a.who]) (some (a, id)), 1)
    | _ => (s', 0)
  else if x.dirty then (s', 1) else (s, 0)
/-- Whether a slice holds something of a sector. -/
def Store.holdsSector (st : Store) (q : Nat) : Bool :=
  let x : Sector := Cells.get {} st.sectors q
  x.valid || x.words != 0 || Cells.get Proxy.i st.proxies q != .i
/-- A slice gives up a sector. -/
def Store.dropSector (st : Store) (q : Nat) : Store :=
  { st.modSector (64 * q) (fun x => { x with valid := false, dirty := false, words := 0 }) with
    proxies := Cells.set Proxy.i st.proxies q .i }
/-- Maintenance of the four sectors of a 256-byte slice line. -/
def State.maintSlice (s : State) (waiter : Option Actor) (inv : Bool) (k : Nat) : State × Nat :=
  let q0 := k / 256 * 4
  let (s, n) := (List.range 4).foldl (fun p i =>
    let (s, n) := p.1.cleanSector waiter (q0 + i)
    (s, p.2 + n)) (s, 0)
  if inv then
    let held := (List.range 4).any fun i => s.store.holdsSector (q0 + i)
    let st := (List.range 4).foldl (fun st i => st.dropSector (q0 + i)) s.store
    ({ s with store := st }, if held then 1 else 0)
  else (s, n)
/-- The slice and the set of a 256-byte line (R124, R127, R248): of the home slice on this panel, or of the proxy slice of a line
homed elsewhere. -/
def State.sliceSet (s : State) (k : Nat) : Option Nat × Nat :=
  let pa := if isProxyKey k then k - 2 ^ 58 else s.myPanel * 2 ^ 46 + k
  let la := pa / 256
  (if isProxyKey k then some (Nat.xor la (la / 2 ^ 12) % 4096) else s.tables.homeSlice pa,
   Nat.xor (la / 2 ^ 10 % 2 ^ 10) (la % 2 ^ 10))
/-- The 256-byte lines that slices of this panel hold, by number. -/
def Store.sliceLines (st : Store) : List Nat :=
  (((st.sectors.keys ++ st.proxies.keys).filter st.holdsSector).map (· / 4)).eraseDups
/-- Make room in the slice for the line of a key: with sixteen lines of its set held, the victim that the device chooses is written
back and dropped, unless a transaction is open on it (R124; log 8). -/
def State.roomSlice (s : State) (k : Nat) : State :=
  if vaultBase ≤ k && !isProxyKey k then s
  else if s.store.sliceLines.length < 16 then s
  else if s.store.sliceLines.contains (k / 256) then s
  else
    let ls := s.store.sliceLines.filter fun l => s.sliceSet (256 * l) == s.sliceSet k
    let free := ls.filter fun l => (List.range 4).all fun i =>
      let x : Sector := Cells.get {} s.store.sectors (4 * l + i)
      !x.fetching && x.busy.isNone
    if ls.length < 16 || free.isEmpty then s
    else (s.maintSlice none true (256 * free.getD (Config.victim s.tick 16 % free.length) 0)).1.ticked

/-! ## Counters (R212, R213, R217) -/

/-- A counter of a group. -/
def Group.counter (g : Group) (k : KReg) : Counter := Cells.get {} g.counters k.toNat
/-- The value of a counter. -/
def Group.kval (g : Group) (k : KReg) : Word := (g.counter k).val
/-- A crier entry of a group. -/
def Group.entry (g : Group) (i : Nat) : Entry := Cells.get {} g.entries i
def Group.setEntry (g : Group) (i : Nat) (e : Entry) : Group := { g with entries := Cells.set {} g.entries i e }

/-- Firings of an entry for an increment from `old` to the exact sum `v` (R217): how many happen, how many surplus
thresholds there are, and the entry afterwards. -/
def Entry.fire (e : Entry) (old : Int) (v : Nat) : Nat × Nat × Entry :=
  let t := e.thr.toNat
  let st := e.stride.toNat
  if !e.rearm then (if old < t ∧ t ≤ v then (1, 0, {}) else (0, 0, e))
  else if st = 0 then (if t ≤ v then (1, 0, e) else (0, 0, e))
  else if v < t || (t : Int) ≤ old then (0, 0, e)
  else
    let n := (v - t) / st + 1
    (Nat.min n 16, n - Nat.min n 16, { e with thr := BitVec.ofNat 64 (t + n * st) })

/-- Test every armed entry on a counter, in ascending index, and queue the firings (R217). -/
def Group.testEntries (g : Group) (k : KReg) (old v : Nat) (rels : List Rel) : Group :=
  let g : Group := { g with batch := g.batch + 1 }
  (List.range 64).foldl (fun g i =>
    let e := g.entry i
    if e.armed && e.ctr == k then
      let (n, surplus, e') := e.fire old v
      let f : Firing := ⟨i, e.record, e.ctx, e.actor, rels, g.batch⟩
      let g := { g with crossed := g.crossed ++ List.replicate n f }
      let g := g.setEntry i e'
      if surplus = 0 then g else g.modCtx e.ctx fun c => c.addEv 11 surplus
    else g) g

/-- A context that waits for a value of a counter finds it met, with the releases that its completion observes (R150, R214). -/
def Ctx.testCounter (c : Ctx) (k : KReg) (v : Word) (rels : List Rel) : Ctx :=
  match c.status with
  | .waiting (.counter j x) => if j = k && x.toNat ≤ v.toNat && c.met.isNone then { c with met := some rels } else c
  | _ => c
/-- The contexts that wait on a counter test it at its change (R214). -/
def Group.testWaits (g : Group) (k : KReg) (v : Word) (rels : List Rel) : Group :=
  { g with ctxs := ⟨g.ctxs.list.map fun p => (p.1, p.2.testCounter k v rels)⟩ }
/-- An increment of a counter (R213): modulo 2^64, a wrap counted for the control context, nothing for d = 0. -/
def Group.increment (g : Group) (k : KReg) (d : Word) (r : Option Rel) : Group :=
  if d = 0 then g
  else
    let c := g.counter k
    let v := c.val.toNat + d.toNat
    let rels := r.toList ++ c.rels
    let g := ({ g with counters := Cells.set {} g.counters k.toNat ⟨BitVec.ofNat 64 v, rels⟩ } : Group).testWaits k (BitVec.ofNat 64 v) rels
    let g := if 2 ^ 64 ≤ v then g.modCtx 0 fun x => x.addEv 12 1 else g
    g.testEntries k c.val.toNat v rels
/-- `ctrset`: the value without a test; earlier releases are no longer observed (R150, R214). -/
def Group.setCounter (g : Group) (k : KReg) (v : Word) : Group :=
  ({ g with counters := Cells.set {} g.counters k.toNat ⟨v, []⟩ } : Group).testWaits k v []

/-! ## Full and empty lines (R117, R118) -/

/-- What a waiter finds when a line is tested: whether its condition holds, and whether it sets the line empty or
full. -/
def syncMet (m : SyncMsg) (empty : Bool) : Bool :=
  match m.load, m.store with
  | some .se, _ => true
  | some _, _ => !empty
  | none, some .wesf => empty
  | none, some .sf => true
  | none, none => !empty

/-- The line state that a served synchronising access leaves. -/
def syncAfter (m : SyncMsg) (empty : Bool) : Bool :=
  match m.load, m.store with
  | some .wfse, _ => true
  | some .se, _ => true
  | some .wf, _ => empty
  | none, some _ => false
  | none, none => empty

/-- The access with an answer taken in. -/
def Access.take (a : Access) (ans : Answer) : Access :=
  match ans with
  | .data parts rels => { a with need := a.need - 1, got := a.got ++ parts, rels := a.rels ++ rels }
  | .waited parts rels =>
    { a with need := a.need - 1, got := a.got ++ parts, rels := a.rels ++ rels, waited := true }
  | .old ls rels =>
    { a with need := a.need - 1, rels := a.rels ++ rels,
             ans := some (.old ((match a.ans with
               | some (.old ks _) => ks
               | _ => []) ++ ls) []) }
  | .ack _ => { a with need := a.need - 1, ans := match a.ans with
      | none => some ans
      | x => x }
  | x => { a with need := a.need - 1, ans := some x }
/-- The answer to an access, put where its context will find it when the instruction issues again; a context that
waits on a line becomes ready (R36). -/
def Ctx.answer (c : Ctx) (id : Nat) (ans : Answer) : Ctx :=
  match c.access with
  | some a => if a.id = id then
      { c with access := some (a.take ans),
               status := match c.status with
                 | .waiting (.line _ _) => .ready
                 | x => x }
    else c
  | none => c
/-- Deliver an answer to a context of a launch, live or saved. A wait that it ends makes the context eligible in the next cycle
(R36). -/
def State.answer (s : State) (w : Who) (id : Nat) (ans : Answer) : State :=
  s.modLaunchGroup w.core w.launch fun g => g.modCtx w.ctx fun c =>
    let c' := c.answer id ans
    if c.status = c'.status then c' else { c' with eligible := (s.core w.core).cycle.toNat + 1 }

/-- Perform a synchronising access whose condition holds, at its home: the conflict test, the read or write, the line
state, the marks (R118, R141). Gives the answer. -/
def State.serveSync (s : State) (k : Nat) (m : SyncMsg) : State × Answer :=
  let plain := m.load.isNone && m.store.isNone
  let write := m.store.isSome
  let rels := (s.store.lineRel k).toList ++ s.store.relsOf k m.part.mask
  let a := acquiring m.actor m.acq rels
  match (if m.part.checked then s.store.conflictIn a write plain k m.part.mask else none) with
  | some w => (s, .conflict (BitVec.ofNat 64 (m.part.va + 4 * w)))
  | none =>
    let s := if m.part.checked then { s with store := s.store.addMarks m.actor write plain k m.part.mask } else s
    let empty := s.store.isEmpty k
    if write then
      let s := s.writeHome k m.part.mask m.part.data m.rel
      ({ s with store := (s.store.setEmpty k (syncAfter m empty)).setLineRel k m.rel }, .ack none)
    else if s.store.readsPoison k m.part.mask then (s, .poisoned (BitVec.ofNat 64 m.part.va))
    else
      let part := { m.part with data := s.store.line k, rels := s.store.relPairs k m.part.mask }
      ({ s with store := s.store.setEmpty k (syncAfter m empty) },
        if plain then .waited [part] rels else .data [part] rels)

/-- Send an answer to whoever waits: a local context at once, a remote requester by a reply. -/
def State.reply (s : State) (m : SyncMsg) (isLocal : Bool) (ans : Answer) : State :=
  if isLocal then s.answer m.actor.who m.id ans
  else
    let e : Event := .replyData ⟨m.actor.who, m.id, m.actor.engine, m.actor.tgen, ans, none, false, s.placeEnd m.part.place⟩
    if m.actor.panel = s.myPanel then s.post e else s.sendOut m.actor.panel e

/-- Test the waiters of a line in arrival order; each whose condition holds completes and leaves the list before the
next is tested (R118). -/
def State.testWaiters (s : State) (core k : Nat) : List LineWaiter → State
  | [] => s
  | w :: t =>
    if w.line = k && syncMet w.msg (s.store.isEmpty k) then
      let (s, ans) := s.serveSync k w.msg
      let s := s.modCore core fun c => { c with waiters := c.waiters.filter (· != w) }
      (s.reply w.msg w.isLocal ans).testWaiters core k t
    else s.testWaiters core k t
/-- Change the state of a scratchpad line and test its waiters (R118). -/
def State.setLineState (s : State) (k : Nat) (empty : Bool) : State :=
  let s := { s with store := s.store.setEmpty k empty }
  s.testWaiters (coreOfKey k) k (s.core (coreOfKey k)).waiters

end Sys2Proof.Machine
end

