-- ==== Sys2Proof/Machine/Translate.lean ====
section
/-! DEFINITION. Sys2Proof/Machine/Translate.lean: windows and address checks (R111 to R116), the TLB (R278, R279), page
walks (R281 to R284), and where an address lies. -/
namespace Sys2Proof.Machine

/-- What an access does to its bytes. -/
inductive Kind where
  | load | store | atomic | exec
deriving DecidableEq, Repr

/-- Whether an access writes. -/
def Kind.writes : Kind → Bool
  | .store | .atomic => true
  | _ => false

/-- Where an address lies: its line, the byte in the line, the address, its size, whether it is checked (R139), and the
counter it aliases on the own core (R113). -/
structure Tgt where
  place : Place
  byte : Nat
  va : Nat
  size : Nat
  checked : Bool
  aliasOf : Option KReg
deriving DecidableEq, Repr

/-- Why an address does not resolve: a cause, a TLB miss, or a wait (held route, switching range). -/
inductive Bad where
  | trap (code : Nat)
  | miss
  | wait
deriving DecidableEq, Repr

/-! ## TLB entries (R279) -/

/-- Size of a page by code. -/
def pageBits (size : Nat) : Nat := if size = 0 then 16 else if size = 1 then 21 else 30
def tagValid (t : Word) : Bool := t.getLsbD 63
def tagSize (t : Word) : Nat := (t.extractLsb' 61 2).toNat
def tagLaunch (t : Word) : Nat := (t.extractLsb' 37 24).toNat
def tagVpn (t : Word) : Nat := (t.extractLsb' 0 36).toNat
def dataUnchecked (d : Word) : Bool := d.getLsbD 56
def dataPrivate (d : Word) : Bool := d.getLsbD 55
def dataSlot (d : Word) : Nat := (d.extractLsb' 40 15).toNat
def dataX (d : Word) : Bool := d.getLsbD 39
def dataW (d : Word) : Bool := d.getLsbD 38
def dataR (d : Word) : Bool := d.getLsbD 37
def dataPfn (d : Word) : Nat := (d.extractLsb' 0 36).toNat

/-- Whether a tag covers an address of a launch. -/
def tagCovers (t : Word) (launch va : Nat) : Bool :=
  tagValid t && tagLaunch t == launch && tagVpn t * 2 ^ 16 / 2 ^ pageBits (tagSize t) == va / 2 ^ pageBits (tagSize t)
/-- Whether an entry serves an access: covers it, and a private entry only its own thread slot (R278). -/
def entryServes (e : Word × Word) (launch slot va : Nat) : Bool :=
  tagCovers e.1 launch va && (!dataPrivate e.2 || dataSlot e.2 == slot)
/-- The entry that serves an access. -/
def tlbFind (tlb : List (Word × Word)) (launch slot va : Nat) : Option (Word × Word) :=
  tlb.find? fun e => entryServes e launch slot va
/-- Move an entry to the front: it is the most recently used. -/
def tlbTouch (tlb : List (Word × Word)) (e : Word × Word) : List (Word × Word) :=
  if tlb.head? = some e then tlb else e :: tlb.erase e
/-- Whether two tags of one launch overlap. -/
def tagsOverlap (a b : Word) : Bool :=
  let m := Nat.max (pageBits (tagSize a)) (pageBits (tagSize b))
  tagLaunch a == tagLaunch b && tagVpn a * 2 ^ 16 / 2 ^ m == tagVpn b * 2 ^ 16 / 2 ^ m
/-- Whether `tlbw` accepts a tag and data (R279): size, reserved bits, alignment of the frame. -/
def entryOk (t d : Word) : Bool :=
  tagSize t != 3 && !t.getLsbD 36 && d.extractLsb' 57 7 == 0 && !d.getLsbD 36
    && dataPfn d % 2 ^ (pageBits (tagSize t) - 16) == 0
/-- `tlbw`: invalidate the overlapping entries of the launch, then write an invalid or the least recently used entry
(R279). -/
def tlbInsert (tlb : List (Word × Word)) (t d : Word) : List (Word × Word) :=
  let rest := tlb.filter fun e => !tagsOverlap e.1 t
  if tagValid t then (t, d) :: rest.take 511 else rest

/-! ## Walks (R281 to R284) -/

/-- A tenant's translation descriptor field (R281), read at its home. -/
def State.descr (s : State) (tenant off n : Nat) : Nat := s.store.num (physKey ((s.tenant tenant).descr + off)) n
/-- Whether the descriptor has no reserved value (R281). -/
def State.descrOk (s : State) (tenant : Nat) : Bool :=
  let lay := s.descr tenant 8 1
  let fq := s.descr tenant 0x0C 4
  lay ≤ 1 && (lay = 0 || (4 ≤ s.descr tenant 9 1 && s.descr tenant 9 1 ≤ 28)) && s.descr tenant 0x0A 2 == 0
    && (fq == 0 || (fq ≤ 65536 && 2 ^ fq.log2 == fq)) && s.descr tenant 0x10 8 % 32 == 0
    && s.descr tenant 0x21 7 == 0 && s.descr tenant 0x20 1 < 128 && s.descr tenant 0x28 8 % 4096 == 0
    && s.descr tenant 0x30 16 == 0
/-- Private base and log2 of the private size of a launch (R116, R281). -/
def State.privBase (s : State) (tenant launch : Nat) : Option (Nat × Nat) :=
  let e := physKey (s.descr tenant 0x28 8 + 16 * (launch % 256))
  let lg := s.store.num (e + 4) 1
  let pb := s.store.num (e + 8) 8
  if s.descrOk tenant && s.store.num e 4 == launch && s.store.num (e + 5) 3 == 0 && 20 ≤ lg && lg ≤ 32
      && pb % 2 ^ lg == 0
  then some (pb, lg) else none

/-- How a walk of the tables ends: a leaf (size code, address, no-demand, unchecked, x, w, r), missing, or malformed. -/
inductive Leaf where
  | leaf (size pa : Nat) (flags : Nat)
  | missing (noDemand : Bool)
  | malformed
deriving DecidableEq, Repr

/-- Alignment of the table below a level (R282): 16 KiB, 4 KiB, 256 bytes. -/
def tableAlign (level : Nat) : Nat := if level = 3 then 2 ^ 14 else if level = 2 then 2 ^ 14 else if level = 1 then 2 ^ 12 else 2 ^ 8
/-- Index of a level (R282). -/
def levelIndex (level va : Nat) : Nat :=
  if level = 3 then va / 2 ^ 41 % 2048 else if level = 2 then va / 2 ^ 30 % 2048
  else if level = 1 then va / 2 ^ 21 % 512 else va / 2 ^ 16 % 32
/-- Read a leaf entry of size code `size` (R282). -/
def leafOf (e : Word) (size : Nat) : Leaf :=
  let pa := (e.extractLsb' 8 44).toNat * 256
  if pa % 2 ^ pageBits size = 0 then .leaf size pa (e.extractLsb' 0 8).toNat else .malformed
/-- Walk the radix tables from a level down (R282, R284). -/
def State.radix (s : State) (va : Nat) : Nat → Nat → Leaf
  | level, table =>
    let e := BitVec.ofNat 64 (s.store.num (physKey (table + 8 * levelIndex level va)) 8)
    let next := (e.extractLsb' 8 44).toNat * 256
    if table % tableAlign level ≠ 0 then .malformed
    else if !e.getLsbD 0 then .missing (e.getLsbD 6)
    else if e.extractLsb' 52 12 ≠ 0 || e.getLsbD 7 then .malformed
    else match level with
      | 0 => if e.getLsbD 1 then leafOf e 0 else .malformed
      | 1 => if e.getLsbD 1 then leafOf e 1 else s.radix va 0 next
      | 2 => if e.getLsbD 1 then leafOf e 2 else s.radix va 1 next
      | n + 3 => if e.getLsbD 1 then .malformed else s.radix va (n + 2) next
/-- One probe of the hashed table for a page size (R283). -/
def State.probe (s : State) (root m va size : Nat) : Option Leaf :=
  let vpn := va / 2 ^ pageBits size * 2 ^ (pageBits size - 16)
  let bucket := (Nat.xor vpn (vpn / 2 ^ m)) % 2 ^ m
  (List.range 4).findSome? fun i =>
    let a := physKey (root + 64 * bucket + 16 * i)
    let t := BitVec.ofNat 64 (s.store.num a 8)
    let e := BitVec.ofNat 64 (s.store.num (a + 8) 8)
    if tagValid t && tagSize t == size && tagVpn t == vpn then
      some (if t.extractLsb' 36 25 ≠ 0 then .malformed
            else if !e.getLsbD 0 then .missing (e.getLsbD 6)
            else if e.extractLsb' 52 12 ≠ 0 || e.getLsbD 7 || !e.getLsbD 1 then .malformed else leafOf e size)
    else none
/-- Walk a tenant's tables for a global address (R281 to R283). -/
def State.walk (s : State) (tenant va : Nat) : Leaf :=
  if !s.descrOk tenant then .malformed
  else
    let root := s.descr tenant 0 8
    if s.descr tenant 8 1 = 0 then s.radix va 3 root
    else
      let m := s.descr tenant 9 1
      match [0, 1, 2].findSome? fun z => s.probe root m va z with
      | some l => l
      | none => .missing false
/-- The private-area owner of a global address of a launch (R116): its thread slot. -/
def State.privSlot (s : State) (tenant launch threads va : Nat) : Option Nat :=
  match s.privBase tenant launch with
  | none => none
  | some (pb, lg) => if pb ≤ va && va < pb + threads * 2 ^ lg then some ((va - pb) / 2 ^ lg) else none
/-- Whether a global address lies in the private area of another launch of the tenant (R116). -/
def State.foreignPriv (s : State) (tenant launch va : Nat) : Bool :=
  s.launches.list.any fun p =>
    p.1 != launch && p.2.tenant == tenant && p.2.stage != .retired
      && (s.privSlot tenant p.1 (16 * 2 ^ p.2.lw * 2 ^ p.2.lh) va).isSome
/-- The TLB entry of a leaf for a launch (R279, R282): flags unchecked, x, w, r; the private attribute from the
private area. -/
def entryOf (launch va size pa flags : Nat) (slot : Option Nat) : Word × Word :=
  let vpn := va / 2 ^ pageBits size * 2 ^ (pageBits size - 16)
  (BitVec.ofNat 64 (2 ^ 63 + size * 2 ^ 61 + launch % 2 ^ 24 * 2 ^ 37 + vpn % 2 ^ 36),
   BitVec.ofNat 64 ((if flags / 32 % 2 = 1 then 2 ^ 56 else 0)
     + (match slot with
        | some k => 2 ^ 55 + k % 2 ^ 15 * 2 ^ 40
        | none => 0)
     + flags / 4 % 8 * 2 ^ 37 + pa / 2 ^ 16 % 2 ^ 36))

/-! ## Where an address lies (R111 to R116) -/

/-- Whether a partition offset names a counter alias (R113). -/
def isAlias (off : Nat) : Bool := 0x200000 ≤ off && off < 0x200200
/-- Window checks of a partition offset (R113): inside the partition, or an alias by 8 bytes. -/
def partOk113 (part off size : Nat) : Bool := off < part * 2 ^ 18 || (isAlias off && size == 8)

/-- Permission of a page for an access (R73, R279): a store to a code page is refused. -/
def permitted (d : Word) : Kind → Bool
  | .load => dataR d
  | .store => dataW d && !dataX d
  | .atomic => dataR d && dataW d && !dataX d
  | .exec => dataX d

/-- The logical chiplet whose slice serves a physical address: its home on the own panel, else its proxy slice, logical slice
(LA XOR (LA >> 12)) mod 4,096 (R127, R248). -/
def State.servingChip (s : State) (pa : Nat) : Option Nat :=
  if pa / 2 ^ 46 = s.myPanel then (s.tables.homeSlice pa).map (· / 16)
  else some (Nat.xor (pa / 256) (pa / 256 / 2 ^ 12) % 4096 / 16)
/-- Whether an access may go to the slice that serves a physical address (R23). -/
def State.servedPhys (s : State) (pa : Nat) : Bool :=
  match s.servingChip pa with
  | some c => s.tables.chipValid c
  | none => false
/-- Resolve a physical address: own panel through the address ranges (R126), another panel through its route (R244,
R245). An access whose slice lies on an invalid chiplet is refused (R23). `un` is the unchecked attribute. -/
def State.resolvePhys (s : State) (pa va size : Nat) (un : Bool) : Except Bad Tgt :=
  if pa / 2 ^ 46 = s.myPanel then
    match s.tables.decides (pa % 2 ^ 46) with
    | none => .error (.trap 4)
    | some a =>
      if arrSwitching a then .error .wait
      else if !s.servedPhys pa then .error (.trap 4)
      else .ok ⟨.phys (pa / 128 * 128), pa % 128, va, size, !un && arrTenant a != 0xFFFF, none⟩
  else
    match s.routeTo (pa / 2 ^ 46) with
    | .held => .error .wait
    | .unreachable => .error (.trap 0x11)
    | _ => if s.servedPhys pa then .ok ⟨.phys (pa / 128 * 128), pa % 128, va, size, false, none⟩ else .error (.trap 4)

/-- Resolve a global address through the TLB (R278); the access check and the private slot follow. -/
def State.resolveGlobal (s : State) (a : Actor) (va size : Nat) (g : Nat) (k : Kind) : Except Bad Tgt :=
  let grp := s.group a.who.core
  let slot := threadSlot grp.rect.toNat a.who.core a.who.ctx
  match tlbFind (s.core a.who.core).tlb a.who.launch slot g with
  | none => .error .miss
  | some e =>
    if permitted e.2 k then
      s.resolvePhys (dataPfn e.2 * 2 ^ 16 + g % 2 ^ pageBits (tagSize e.1)) va size (dataUnchecked e.2)
    else .error (.trap 7)

/-- Resolve an own-scratchpad offset. -/
def State.resolveOwn (s : State) (a : Actor) (va off size : Nat) : Except Bad Tgt :=
  let grp := s.group a.who.core
  if !partOk113 grp.part off size then .error (.trap 4)
  else if va % size ≠ 0 then .error (.trap 3)
  else if isAlias off then
    let k := (off - 0x200000) / 8
    if grp.cmask.getLsbD k then
      .ok ⟨.scratch s.myPanel a.who.core 0, 0, va, size, false, some (BitVec.ofNat 6 k)⟩
    else .error (.trap 7)
  else
    let p := gmapOff grp.gmap off
    .ok ⟨.scratch s.myPanel a.who.core (p / 128 * 128), p % 128, va, size, true, none⟩

/-- Resolve a peer-scratchpad address (R114): on the own panel the core must lie in the accessor's rectangle, on a valid chiplet
(R23). -/
def State.resolvePeer (s : State) (a : Actor) (va size : Nat) : Except Bad Tgt :=
  let grp := s.group a.who.core
  let panel := va / 2 ^ 48 % 256
  let core := va / 2 ^ 32 % 2048
  let off := va % 2 ^ 22
  if va / 2 ^ 56 % 16 ≠ 0 || va / 2 ^ 43 % 32 ≠ 0 || va / 2 ^ 22 % 2 ^ 10 ≠ 0 then .error (.trap 4)
  else if panel = 255 || panel = s.myPanel then
    if !partOk113 grp.part off size then .error (.trap 4)
    else if va % size ≠ 0 then .error (.trap 3)
    else if !inRect grp.rect.toNat core then .error (.trap 7)
    else if !s.tables.chipValid (chipOf core) then .error (.trap 4)
    else .ok ⟨.peer s.myPanel core (off / 128 * 128), off % 128, va, size, !isAlias off, none⟩
  else if !(off < 0x200000 || (isAlias off && size == 8)) then .error (.trap 4)
  else if va % size ≠ 0 then .error (.trap 3)
  else
    match s.routeTo panel with
    | .held => .error .wait
    | .unreachable => .error (.trap 0x11)
    | _ => .ok ⟨.peer panel core (off / 128 * 128), off % 128, va, size, false, none⟩

/-- Resolve a vault address (R115); ownership is checked at the vault. -/
def State.resolveVault (s : State) (va size : Nat) : Except Bad Tgt :=
  let panel := va / 2 ^ 48 % 256
  let chip := va / 2 ^ 32 % 256
  let off := va % 2 ^ 29
  if va / 2 ^ 56 % 16 ≠ 0 || va / 2 ^ 40 % 256 ≠ 0 || va / 2 ^ 29 % 8 ≠ 0 then .error (.trap 4)
  else if panel = 255 || panel = s.myPanel then
    if !s.tables.chipValid chip then .error (.trap 4)
    else if va % size ≠ 0 then .error (.trap 3)
    else .ok ⟨.vault s.myPanel chip (off / 128 * 128), off % 128, va, size, true, none⟩
  else if va % size ≠ 0 then .error (.trap 3)
  else
    match s.routeTo panel with
    | .held => .error .wait
    | .unreachable => .error (.trap 0x11)
    | _ => .ok ⟨.vault panel chip (off / 128 * 128), off % 128, va, size, false, none⟩

/-- Resolve a private-window address (R116). -/
def State.resolvePrivate (s : State) (a : Actor) (va size : Nat) (k : Kind) : Except Bad Tgt :=
  let grp := s.group a.who.core
  let o := va % 2 ^ 32
  if va / 2 ^ 32 % 2 ^ 28 ≠ 0 then .error (.trap 4)
  else
    match s.privBase a.tenant a.who.launch with
    | none => .error (.trap 4)
    | some (pb, lg) =>
      if 2 ^ lg ≤ o then .error (.trap 4)
      else if va % size ≠ 0 then .error (.trap 3)
      else s.resolveGlobal a va size (pb + threadSlot grp.rect.toNat a.who.core a.who.ctx * 2 ^ lg + o) k

/-- Resolve an effective address in the order of R112: window, alignment, translation and ownership. -/
def State.resolve (s : State) (a : Actor) (va : Word) (size : Nat) (k : Kind) : Except Bad Tgt :=
  let v := va.toNat
  match (va.extractLsb' 60 4).toNat with
  | 0x0 => if v / 2 ^ 52 % 256 ≠ 0 then .error (.trap 4)
           else if v % size ≠ 0 then .error (.trap 3)
           else s.resolveGlobal a v size v k
  | 0x8 => if v / 2 ^ 22 % 2 ^ 38 ≠ 0 then .error (.trap 4) else s.resolveOwn a v (v % 2 ^ 22) size
  | 0x9 => s.resolvePeer a v size
  | 0xA => s.resolveVault v size
  | 0xB => s.resolvePrivate a v size k
  | _ => .error (.trap 4)

/-- Mark the entry that a global or private address uses as recently used. -/
def State.touchTlb (s : State) (a : Actor) (g : Nat) : State :=
  let slot := threadSlot (s.group a.who.core).rect.toNat a.who.core a.who.ctx
  match tlbFind (s.core a.who.core).tlb a.who.launch slot g with
  | none => s
  | some e =>
    if (s.core a.who.core).tlb.head? = some e then s
    else s.modCore a.who.core fun c => { c with tlb := tlbTouch c.tlb e }
/-- The rectangle of the launch that an agent acts for: of its group on the core, bound or saved. -/
def State.rectOf (s : State) (a : Actor) : Nat :=
  ((s.launchGroup a.who.core a.who.launch).getD (s.group a.who.core)).rect.toNat
/-- The global address of a global or private window address (R116). -/
def State.globalOf (s : State) (a : Actor) (va : Word) : Option Nat :=
  match (va.extractLsb' 60 4).toNat with
  | 0x0 => some va.toNat
  | 0xB =>
    (s.privBase a.tenant a.who.launch).map fun p =>
      p.1 + threadSlot (s.rectOf a) a.who.core a.who.ctx * 2 ^ p.2 + va.toNat % 2 ^ 32
  | _ => none

end Sys2Proof.Machine
end

