-- ==== Sys2Proof/Machine/Access.lean ====
section
/-! DEFINITION. Sys2Proof/Machine/Access.lean: the accesses of a context: releases and acquires at the L1 (R122, R148),
L1 lines (R121, R122), loads, stores and atomics with their checks, waits, conflicts and side log (R112, R141, R287). -/
namespace Sys2Proof.Machine

/-! ## L1 (R121, R122) -/

/-- The L1 key of a cached place; places that this panel serves have the keys of the storage. -/
def State.l1Key (s : State) (p : Place) : Nat :=
  match s.keyOf p with
  | some k => k
  | none =>
    match p with
    | .vault q chip off => 2 ^ 59 + q * 2 ^ 40 + chip * 2 ^ 29 + off
    | _ => 0
/-- The place of an L1 key. -/
def State.placeOfKey (s : State) (k : Nat) : Place :=
  if k < 2 ^ 46 then .phys (s.myPanel * 2 ^ 46 + k)
  else if isProxyKey k then .phys (k - 2 ^ 58)
  else if k < scratchBase then .vault s.myPanel ((k - vaultBase) / 2 ^ 29) ((k - vaultBase) % 2 ^ 29)
  else .vault ((k - 2 ^ 59) / 2 ^ 40) ((k - 2 ^ 59) % 2 ^ 40 / 2 ^ 29) (k % 2 ^ 29)
/-- Whether a key is of this panel's own storage. -/
def ownKey (k : Nat) : Bool := k < 2 ^ 58
/-- An L1 line. -/
def Core.line (c : Core) (k : Nat) : L1Line := Cells.get {} c.l1 k
def Core.setL1 (c : Core) (k : Nat) (l : L1Line) : Core := { c with l1 := Cells.set {} c.l1 k l }
/-- Whether a line serves the words of a load by a context with acquire epoch A (R122). -/
def L1Line.hits (l : L1Line) (ae : Nat) (mask : BitVec 128) : Bool :=
  (l.held && ae ≤ l.epoch) || wordMask mask &&& ~~~l.dirty = 0
/-- The keys of the lines in the set of a key (R121: 1,024 sets by address bits [16:7]). -/
def Core.setKeys (c : Core) (k : Nat) : List Nat := c.l1.keys.filter fun j => j / 128 % 1024 == k / 128 % 1024

/-- Fills of a line that are on their way bring older bytes than the core has written or read since: they are not kept (R122,
R145). -/
def Core.dropFills (c : Core) (k : Nat) : Core := { c with fills := c.fills.filter fun p => p.2 != k }
/-- The bytes of the words that dirty words name. -/
def dirtyMask (ws : List DirtyWord) : BitVec 128 := ws.foldl (fun m w => m ||| maskOf (4 * w.word) 4) 0
/-- Write the dirty words of an L1 line to its home: at once for storage of this panel, by one message to a proxy slice or
another panel, which is unacknowledged to every context that stored one of them and to the contexts in `also` (R122, R148).
A vault page that refuses the words is reported to the contexts that stored them (R115). -/
def State.writeBackLine (s : State) (core : Nat) (also : List Who) (k : Nat) (l : L1Line) : State :=
  if l.dirty = 0 then s
  else
    let mask := byteMask l.dirty
    let whos := (l.writes.map fun w => w.actor.who).eraseDups
    if ownKey k && !s.store.sharedOut k mask then
      let refused (w : DirtyWord) : Bool := match s.placeOfKey k with
        | .vault _ chip off => s.tables.vaultRefused w.actor.tenant chip off true
        | _ => false
      let bad := l.writes.filter refused
      let s := whos.foldl (fun (s : State) w =>
        match ((bad.filter fun x => x.actor.who == w).map (·.va)).min? with
        | some va => s.report w ⟨7, BitVec.ofNat 64 va, false, none⟩
        | none => s) s
      (l.writes.filter fun w => !refused w).foldl (fun (s : State) w => s.writeHome k (maskOf (4 * w.word) 4) l.data w.rel) s
    else
      match l.writes with
      | [] => s
      | w :: _ =>
        let p : Part := ⟨s.placeOfKey k, w.va - 4 * w.word, mask, l.data, false, l.writes.filterMap fun x => x.rel.map fun r => (x.word, r)⟩
        let id := s.nextId
        (({ s with nextId := id + 1 } : State).oweAll core id (whos ++ also).eraseDups).sendTo (s.placePanel p.place)
          (.memoryRequest ⟨w.actor, id, .store [p], false, true, none, 0⟩)
/-- A line whose dirty words have been written back. -/
def L1Line.cleaned (l : L1Line) : L1Line :=
  if l.held then
    { l with dirty := 0, writes := []
             rels := (l.rels.filter fun p => !(l.dirty.getLsbD p.1)) ++ l.writes.filterMap fun w => w.rel.map fun r => (w.word, r) }
  else {}
/-- Write back every dirty word of a core's L1 (R122). -/
def State.flushL1 (s : State) (a : Actor) : State :=
  (s.core a.who.core).l1.list.foldl (fun s p =>
    if p.2.dirty = 0 then s
    else
      (s.writeBackLine a.who.core [a.who] p.1 p.2).modCore a.who.core fun c =>
        (c.setL1 p.1 (c.line p.1).cleaned).dropFills p.1) s
/-- Write back and drop one L1 line (R123). -/
def State.dropL1 (s : State) (core k : Nat) : State :=
  (s.writeBackLine core [] k ((s.core core).line k)).modCore core fun c => (c.setL1 k {}).dropFills k
/-- Make room in the set of a key: with twelve lines held, the victim that the device chooses is written back and
dropped (R121; log 8). -/
def State.roomL1 (s : State) (core k : Nat) : State :=
  let ks := (s.core core).setKeys k
  if ks.contains k || ks.length < 12 then s
  else (s.dropL1 core (ks.getD (Config.victim s.tick 12 % 12) 0)).ticked
/-- Install a fetched line: the dirty words stay, the fill is stamped with its epoch (R122). A fill that a later fill, a write or a
drop of the line has passed is not kept. -/
def State.fillL1 (s : State) (core id k epoch : Nat) (poison : BitVec 2) (p : Part) : State :=
  if p.mask ≠ BitVec.allOnes 128 || !(s.core core).fills.contains (id, k) then s
  else
    let s := s.roomL1 core k
    s.modCore core fun c =>
      let l := c.line k
      let c := { c with fills := c.fills.filter fun f => f.2 != k || id < f.1 }
      c.setL1 k { l with held := true, epoch := epoch, data := mergeLine (byteMask l.dirty) l.data p.data, poison := poison
                         rels := p.rels }

/-- The acquire epochs of a group's contexts. -/
def Group.epochs (g : Group) : List Nat := g.allCtxs.map (·.acquireEpoch)
/-- A group with every acquire epoch 0. -/
def Group.noEpochs (g : Group) : Group :=
  let z (c : Ctx) : Ctx := { c with acquireEpoch := 0 }
  { g with ctxs := ⟨g.ctxs.list.map fun p => (p.1, z p.2)⟩, lent := g.lent.map fun p => (p.1, z p.2)
           suspended := g.suspended.map z }
/-- The L1 wrap: every clean line invalid, E and every A_c back to 0 (R122). A line with dirty words keeps its clean words where no
context would fetch them again. -/
def Core.wrapL1 (c : Core) : Core :=
  let top := ((c.group :: c.saved).flatMap Group.epochs).foldl Nat.max 0
  { c with
    epoch := 0
    l1 := c.l1.list.foldl (fun acc p =>
      if p.2.dirty = 0 then Cells.set {} acc p.1 {}
      else Cells.set {} acc p.1 { p.2 with held := p.2.held && top ≤ p.2.epoch, epoch := 0 }) c.l1
    fills := []
    group := c.group.noEpochs
    saved := c.saved.map Group.noEpochs }

/-- Scope chiplet or wider (R122). -/
def scWide : Scope → Bool
  | .context | .core => false
  | _ => true
/-- The L1 side of an acquire: E advances and the context records it (R122). At the limit the turn is spent until the
wrap has happened. -/
def acquireL1 (sc : Scope) : M Unit := do
  if scWide sc then
    let s ← get
    let e := (s.core s.curCore).epoch
    if 0xFFFFFFFF ≤ e then spend
    else
      modS fun s => s.modCore s.curCore fun c => { c with epoch := e + 1 }
      modMe fun c => { c with acquireEpoch := e + 1 }
  else pure ()
/-- Whether a context has entries in the side log. -/
def Group.sideOf (g : Group) (ctx : Nat) : List SideEntry := g.sideLog.filter fun e => e.actor.who.ctx == ctx
/-- A release waits for the context's earlier accesses, then writes back the L1 at scope chiplet or wider (R122, R130,
R148, R287). -/
def releaseM (sc : Scope) : M Unit := do
  let s ← get
  if s.me.unacked ≠ 0 || !s.me.maint.isEmpty || !(s.myGroup.sideOf s.curCtx).isEmpty then spend
  else if scWide sc then
    let a ← myActor
    modS fun s => s.flushL1 a
    let s ← get
    if s.me.unacked ≠ 0 then stayM fun s => s.flushL1 a else pure ()
  else pure ()
/-- A synchronising instruction that is a release: wait, then begin its region; gives the release. -/
def beginRelease (sc : Scope) : M Rel := do
  releaseM sc
  endRegion
  myRel sc
/-- The acquire side of a synchronising instruction. -/
def endAcquire (sc : Scope) (rs : List Rel) : M Unit := do
  acquireL1 sc
  acquire sc rs

/-! ## Resolving the addresses of a context -/

/-- The walk fault that was recorded for the page of an address. -/
def walkFaultFor (c : Ctx) (va : Word) : Option Nat :=
  match c.walkFault with
  | some (code, v) => if v = va then some code else none
  | none => none

/-- Code of a walk fault that sends a store to the side log (R284). -/
def sideLogCode : Nat := 0x100

/-- Kind of access in a fault record (R285): 1 load, 2 store or reduction. -/
def faultKind (k : Kind) (reduction : Bool) : Nat := if k = .store || reduction then 2 else 1

/-- Resolve an address for the current context: traps are raised with the address in sr.tval, a TLB miss starts one
walk and spends the turn (R278), a recorded walk fault is raised (R284). None: the store goes to the side log. -/
def resolveM (va : Word) (size : Nat) (k : Kind) (reduction : Bool := false) : M (Option Tgt) := do
  let s ← get
  let a ← myActor
  match s.resolve a va size k with
  | .ok t =>
    (match s.globalOf a va with
     | some g => modS fun s => s.touchTlb a g
     | none => pure ())
    pure (some t)
  | .error (.trap code) => trapM code va
  | .error .wait => spend
  | .error .miss =>
    match walkFaultFor s.me va with
    | some code => if code = sideLogCode then pure none else trapM code va
    | none =>
      if s.me.sawMiss then spend
      else stayM fun s =>
        let w : Walk := ⟨a, va, faultKind k reduction, k = .store || reduction, k = .exec⟩
        (s.modMe fun c => { c.addEv 15 1 with sawMiss := true }).post (.pageWalk w)

/-- Resolve the lanes of an access in ascending order; none for a lane that goes to the side log. -/
def resolveLanes (size : Nat) (k : Kind) (reduction : Bool) :
    List (Nat × Word) → M (List (Nat × Option Tgt))
  | [] => pure []
  | (i, va) :: t => do
    let x ← resolveM va size k reduction
    let r ← resolveLanes size k reduction t
    pure ((i, x) :: r)

/-- The window and alignment checks alone (R112, steps 1 and 2), for lanes that the side log serves (R287). -/
def limitsM (size : Nat) : List (Nat × Word) → M Unit
  | [] => pure ()
  | (_, va) :: t => do
    let s ← get
    let a ← myActor
    match s.resolve a va size .load with
    | .error (.trap 4) => trapM 4 va
    | .error (.trap 3) => trapM 3 va
    | _ => limitsM size t
/-- Whether an own vault page refuses a target (R115). -/
def State.vaultRefusesT (s : State) (a : Actor) (write : Bool) (t : Tgt) : Bool :=
  match t.place with
  | .vault q chip off => q == s.myPanel && s.tables.vaultRefused a.tenant chip off write
  | _ => false
/-- The ownership check of a load or of a write at its vault (R112, step 3; R115): cause 0x07 with the address of the first target
that is refused. -/
def ownedM (write : Bool) (ts : List Tgt) : M Unit := do
  let s ← get
  let a ← myActor
  match ts.find? fun t => s.vaultRefusesT a write t with
  | some t => trapM 7 (BitVec.ofNat 64 t.va)
  | none => pure ()

/-- A counter alias in a vector, synchronising or atomic access raises the address-window fault (R113). -/
def aliasOf (t : Tgt) : Bool :=
  t.aliasOf.isSome || (match t.place with
    | .peer _ _ off => isAlias off
    | _ => false)

/-- The lines of a list of targets, each once, with the bytes touched. -/
def partsOf (ts : List Tgt) : List Part :=
  ts.foldl (fun acc t =>
    let m := maskOf t.byte t.size
    if acc.any fun p => p.place == t.place then
      acc.map fun p => if p.place = t.place then { p with mask := p.mask ||| m } else p
    else acc ++ [⟨t.place, t.va - t.byte, m, 0, t.checked, []⟩]) []
/-- The line of a place among parts. -/
def findPart (ps : List Part) (p : Place) : Option Part := ps.find? fun q => q.place == p

/-! ## Conflicts of a context (R141, R143) -/

/-- The key on the own panel where a part's words are marked: peer parts through the owner's granules. -/
def State.markKey (s : State) (a : Actor) (p : Place) : Option Nat :=
  match p with
  | .peer q core off =>
    if q = s.myPanel then
      (s.launchGroup core a.who.launch).map fun g => scratchKey core (gmapOff g.gmap off)
    else none
  | p => s.keyOf p
/-- The mark entries that an access of the current context needs: one for each checked line outside its own scratchpad that its region
has no entry for (R143). -/
def State.markNeed (s : State) (a : Actor) (ps : List Part) : Nat :=
  (ps.filter fun p => p.checked && (match s.markKey a p.place with
    | some k => !(scratchKey a.who.core 0 ≤ k && k < scratchKey (a.who.core + 1) 0) && !s.store.hasMark a k
    | none => false)).length
/-- Wait for free mark entries, counting the stall once (R143). -/
def markRoomM (ps : List Part) : M Unit := do
  let s ← get
  if s.markFree s.curCore false (s.markNeed (s.actor s.curCore s.curCtx) ps) then pure ()
  else if s.me.sawMark then spend
  else stayM fun s => s.modMe fun c => { c.addEv 14 1 with sawMark := true }

/-- The lowest conflicting address among checked parts. -/
def State.conflictOf (s : State) (a : Actor) (write plain : Bool) (ps : List Part) : Option Nat :=
  (ps.filterMap fun p =>
    if p.checked then
      match s.markKey a p.place with
      | some k => (s.store.conflictIn a write plain k p.mask).map fun w => p.va + 4 * w
      | none => none
    else none).min?
/-- Record the marks of checked parts. -/
def State.markParts (s : State) (a : Actor) (write plain : Bool) (ps : List Part) : State :=
  ps.foldl (fun s p =>
    if p.checked then
      match s.markKey a p.place with
      | some k => { s with store := s.store.addMarks a write plain k p.mask }
      | none => s
    else s) s
/-- Check and mark the parts of an access of the current context: a conflict raises cause 0x0B with the lowest
conflicting address (R141). -/
def checkM (write plain : Bool) (ps : List Part) : M Unit := do
  let s ← get
  let a ← myActor
  match s.conflictOf a write plain ps with
  | some va => trapM 0x0B (BitVec.ofNat 64 va)
  | none => modS fun s => (s.markParts a write plain ps).modMe fun c => { c with touched := true }

/-! ## Waiting for requests and lines -/

/-- What has come back for the instruction at issue: nothing sent yet, or the access. An answer that refuses raises its
cause; outstanding replies spend the turn (R35). -/
def pendingM : M (Option Access) := do
  let c ← me
  match c.access with
  | none => pure none
  | some a =>
    if a.pc ≠ c.pc then pure none
    else
      match a.ans with
      | some (.refused t) => trapM 7 t
      | some (.conflict t) => trapM 0x0B t
      | some (.poisoned t) => trapM 0x10 t true
      | some (.unreachable t) => trapM 0x11 t
      | some (.missing t) => trapM 6 t
      | some (.outside t) => trapM 4 t
      | some .cancelled => modMe fun c => { c with access := none }; pure none
      | _ => if a.need ≠ 0 then spend else pure (some a)

/-- Reply reservations a request takes (R231): 256 per core. -/
def reserveM (n : Nat) : M Unit := do
  let s ← get
  if (s.core s.curCore).reserved + n ≤ 256 then pure () else spend

/-- The write-back that a release of this instruction has made, for a turn that is spent with its request sent (R122):
the L1 of the current core, clean after it. -/
def keepFlush : M (State → State) := do
  let s ← get
  let a ← myActor
  let clean := (s.core s.curCore).l1.list.all fun p => p.2.dirty == 0
  return fun s => if clean then s.flushL1 a else s
/-- Whether the instruction at issue has waited on an empty line already. -/
def Ctx.hasWaited (c : Ctx) : Bool :=
  match c.access with
  | some a => a.pc == c.pc && a.waited
  | none => false
/-- The retry list that a request may wait in (R237): the panel and the core of a synchronising access or of a load in a peer
scratchpad. -/
def State.listOf (s : State) (panel : Nat) : Event → List (Nat × Nat)
  | .remoteSyncAccess m => [(panel, s.placeEnd m.part.place)]
  | .memoryRequest ⟨_, _, .load [p], _, _, _, _⟩ =>
    (match p.place with
     | .peer _ core _ => [(panel, core)]
     | _ => [])
  | _ => []
/-- Send request messages and wait for their replies: the turn is spent with the access recorded. `pre` is done to the
state first. -/
def sendAndWait {α : Type} (pre : State → State) (msgs : List (Nat × (Nat → Event))) (got : List Part)
    (rels : List Rel) : M α := do
  let flush ← keepFlush
  stayM fun s =>
    let s := pre (flush s)
    let id := s.nextId
    let s := { s with nextId := id + 1 }
    let s := s.modCore s.curCore fun c => { c with reserved := c.reserved + msgs.length }
    let s := s.modMe fun c => { c with access := some { pc := c.pc, id, need := msgs.length, got, rels, waited := c.hasWaited,
                                                              lists := msgs.flatMap fun m => s.listOf m.1 (m.2 id) } }
    let fills := (msgs.flatMap fun m => match m.2 id with
      | .memoryRequest ⟨_, _, .fill _ ps, _, _, _, _⟩ => ps.map fun p => (id, s.l1Key p.place)
      | _ => [])
    let s := s.modCore s.curCore fun c => { c with fills := c.fills ++ fills }
    msgs.foldl (fun s m => if m.1 = s.myPanel then s.post (m.2 id) else s.sendOut m.1 (m.2 id)) s
/-- Send a message for which the context does not wait; it is unacknowledged until its reply (R148). -/
def sendPosted (panel : Nat) (e : Event) : M Unit :=
  modS fun s =>
    let s := s.owe s.curCore s.curCtx
    if panel = s.myPanel then s.post e else s.sendOut panel e

/-- Wait on a local scratchpad line (R36, R117): the access joins the line's waiters in arrival order (R118). -/
def waitLine {α : Type} (k : Nat) (m : Nat → SyncMsg) (got : List Part) (rels : List Rel) : M α := do
  let flush ← keepFlush
  stayM fun s =>
    let s := flush s
    let id := s.nextId
    let s := { s with nextId := id + 1 }
    let s := s.modCore s.curCore fun c => { c with waiters := c.waiters ++ [⟨k, true, m id⟩] }
    s.modMe fun c => { c with access := some { pc := c.pc, id, need := 1, got, rels, waited := c.hasWaited },
                              status := .waiting (.line (coreOfKey k) k) }

/-! ## Loads (R367, R421) -/

/-- A load's value from a line. -/
def tgtNat (t : Tgt) (l : Line) : Nat := lineNat l t.byte t.size

/-- Bytes of a load that the context's own side-log entries cover, newest first (R287): all, some or none. -/
inductive Cover where
  | all (v : Nat)
  | some
  | none
deriving DecidableEq, Repr

/-- The byte of a side entry at a virtual address. -/
def SideEntry.byteAt (e : SideEntry) (va : Nat) : Option Byte :=
  match e.op with
  | .store ps => ps.findSome? fun p =>
      if p.va ≤ va && va < p.va + 128 && p.mask.getLsbD (va - p.va) then some (lineByte p.data (va - p.va)) else none
  | _ => none
/-- How a context's side-log entries cover bytes. -/
def sideCover (es : List SideEntry) (va n : Nat) : Cover :=
  let bs := (List.range n).map fun i => es.reverse.findSome? fun e => e.byteAt (va + i)
  if bs.all Option.isSome then .all (leNat (bs.map fun b => b.getD 0))
  else if bs.any Option.isSome then .some else .none

/-- The first empty own-scratchpad line among parts that has not been served yet. -/
def State.firstEmpty (s : State) (got ps : List Part) : Option (Nat × Part) :=
  ps.findSome? fun p =>
    match p.place with
    | .scratch _ _ _ =>
      (match s.keyOf p.place with
       | some k => if s.store.isEmpty k && (findPart got p.place).isNone then some (k, p) else none
       | none => none)
    | _ => none
/-- Whether the L1 may serve a place (R121): global and vault. -/
def cachedPlace : Place → Bool
  | .phys _ | .vault _ _ _ => true
  | _ => false
/-- What an L1 line gives a part over fetched bytes and their releases: the dirty words and theirs. -/
def L1Line.over (l : L1Line) (p : Part) (data : Line) (rels : List (Nat × Rel)) : Part :=
  { p with data := mergeLine (byteMask l.dirty) l.data data
           rels := (rels.filter fun q => !l.dirty.getLsbD q.1) ++ l.writes.filterMap fun w => w.rel.map fun r => (w.word, r) }
/-- The data of a part that can be read now, with the releases it carries: an own scratchpad line, an L1 hit, or what a reply
brought. -/
def State.partNow (s : State) (got : List Part) (home : Bool) (p : Part) : Option Part :=
  let c := s.core s.curCore
  match p.place with
  | .scratch _ _ _ =>
    (match findPart got p.place with
     | some q => some { p with data := q.data, rels := q.rels }
     | none => (s.keyOf p.place).map fun k => { p with data := s.store.line k, rels := s.store.relPairs k p.mask })
  | _ =>
    match findPart got p.place with
    | some q =>
      let l := c.line (s.l1Key p.place)
      some (if cachedPlace p.place then l.over p q.data q.rels else { p with data := q.data, rels := q.rels })
    | none =>
      if cachedPlace p.place && !home then
        let l := c.line (s.l1Key p.place)
        if l.hits s.me.acquireEpoch p.mask then some (l.over p l.data l.rels) else none
      else none
/-- Whether a part reads poison in the own storage or the own L1 (R290). -/
def State.partPoison (s : State) (p : Part) : Bool :=
  match p.place with
  | .scratch _ _ _ => (match s.keyOf p.place with
      | some k => s.store.readsPoison k p.mask
      | none => false)
  | _ =>
    let l := (s.core s.curCore).line (s.l1Key p.place)
    cachedPlace p.place && l.held
      && ((l.poison.getLsbD 0 && p.mask.extractLsb' 0 64 != 0) || (l.poison.getLsbD 1 && p.mask.extractLsb' 64 64 != 0))

/-- The request for the parts that are missing: one message to each panel; the fill of a line carries the address that asks for it. -/
def requestsFor (s : State) (a : Actor) (sync home : Bool) (rel : Option Rel) (ps : List Part) :
    List (Nat × (Nat → Event)) :=
  let full := ps.map fun p => if cachedPlace p.place && !home then { p with va := p.va + lowByte p.mask, mask := BitVec.allOnes 128 } else p
  let one (q : List Part) (panel : Nat) : Nat × (Nat → Event) :=
    (panel, fun id => .memoryRequest
      ⟨a, id, if home then .load q else .fill (s.core a.who.core).epoch q, sync, false, rel, 0⟩)
  ((full.map fun p => s.placePanel p.place).eraseDups).map fun n =>
    one (full.filter fun p => s.placePanel p.place == n) n

/-- Read lanes: (lane, value), once every check has passed. `home` for ordered forms of scope chiplet or wider, `acq`
for the scope of an ordered form, whose access is synchronising (R139); what an acquire observes happens before its access (R137). Gives the releases that the access observed, and whether it waited on an empty
line. -/
def loadLanes (size : Nat) (home : Bool) (acq : Option Scope) (lanes : List (Nat × Word)) :
    M (List (Nat × Nat) × List Rel × Bool) := do
  if lanes.isEmpty then pure ([], [], false)
  else
    let side := (← myGroup).sideOf (← get).curCtx
    let cov := lanes.map fun p => sideCover side p.2.toNat size
    if cov.any (· == .some) then spend
    else
      let logged := (lanes.zip cov).filterMap fun p =>
        match p.2 with
        | .all v => some (p.1.1, v)
        | _ => none
      let rest := lanes.filter fun p => !(logged.any fun q => q.1 == p.1)
      limitsM size (lanes.filter fun p => logged.any fun q => q.1 == p.1)
      let ts ← resolveLanes size .load false rest
      let tgts := ts.filterMap fun p => p.2
      let ps := partsOf (tgts.filter fun t => t.aliasOf.isNone)
      ownedM false tgts
      markRoomM ps
      let acc ← pendingM
      let got := (acc.map (·.got)).getD []
      let rels := (acc.map (·.rels)).getD []
      let s ← get
      let a ← myActor
      match s.firstEmpty got ps with
      | some (k, p) =>
        waitLine k (fun id => ⟨a, id, { p with checked := false }, none, none, none, none, 0⟩) got rels
      | none =>
        let missing := ps.filter fun p => (s.partNow got home p).isNone
        if !missing.isEmpty then
          let msgs := requestsFor s a acq.isSome home none missing
          reserveM msgs.length
          sendAndWait (fun s => if home then missing.foldl (fun s p =>
              if cachedPlace p.place then s.dropL1 s.curCore (s.l1Key p.place) else s) s else s) msgs got rels
        else
          let here := (ps.filterMap fun p => s.partNow got home p).flatMap partSeen
          let waited := (acc.map (·.waited)).getD false
          (if waited then acquire .panel (here ++ rels) else pure ())
          (match acq with
           | some sc => acquire sc (here ++ rels)
           | none => pure ())
          checkM false acq.isNone ps
          match ps.find? fun p => s.partPoison p with
          | some p => trapM 0x10 (BitVec.ofNat 64 (((tgts.filter fun t => t.place == p.place).map (·.va)).min?.getD p.va)) true
          | none =>
            let now := ps.filterMap fun p => s.partNow got home p
            let vals := ts.filterMap fun p =>
              p.2.map fun t =>
                (p.1, match t.aliasOf with
                      | some k => (s.myGroup.kval k).toNat
                      | none => match findPart now t.place with
                        | some q => tgtNat t q.data
                        | none => 0)
            pure (logged ++ vals, here ++ rels, waited)

/-- What every load does once its bytes are there: an ordered form acquires at its scope; a plain load that waited on an
empty line acquires at panel scope (R117, R135); otherwise a later fence may observe. -/
def afterLoad (ord : Option (Ord × Scope)) (rels : List Rel) (waited : Bool) : M Unit := do
  (if waited then do
    endRegion
    endAcquire .panel rels
    endRegion
  else pure ())
  match ord with
  | some (_, sc) => do
    endAcquire sc rels
    endRegion
  | none => observe rels

/-- The acquire of an ordered load begins its own region. -/
def beforeLoad (ord : Option (Ord × Scope)) : M Unit := do
  match ord with
  | some (.sc, sc) => releaseM sc; endRegion
  | some _ => endRegion
  | none => pure ()

/-- Read lanes as a plain or ordered load. -/
def loadM (size : Nat) (ord : Option (Ord × Scope)) (lanes : List (Nat × Word)) : M (List (Nat × Nat)) := do
  beforeLoad ord
  let wide := match ord with
    | some (_, sc) => scWide sc
    | none => false
  let (vals, rels, waited) ← loadLanes size wide (ord.map (·.2)) lanes
  afterLoad ord rels waited
  pure vals

/-! ## Stores (R400, R432) -/

/-- The parts of a store with their data: a later lane prevails over an earlier one (R432). -/
def storeParts (ts : List (Tgt × Nat)) : List Part :=
  let ps := partsOf (ts.map (·.1))
  ps.map fun p =>
    { p with data := ts.foldl (fun l t =>
        if t.1.place = p.place then
          mergeLine (maskOf t.1.byte t.1.size) (BitVec.ofNat 1024 (t.2 % 256 ^ t.1.size * 256 ^ t.1.byte)) l
        else l) 0 }

/-- A plain store to a cached place (R121, R122): whole words, dirty words, and words of a line that its context would not fetch
again, become dirty in the L1. Where it covers a part of another word, the line is written back and dropped and the whole
store goes to the home (R146; log 7). -/
def State.storeL1 (s : State) (a : Actor) (p : Part) (rel : Option Rel) : State :=
  let core := a.who.core
  let k := s.l1Key p.place
  let s := s.roomL1 core k
  let l := (s.core core).line k
  let words := wordsOf p.mask
  let fresh := l.held && (s.ctx core a.who.ctx).acquireEpoch ≤ l.epoch
  if words.all fun w => p.mask.extractLsb' (4 * w) 4 == 0xF || l.dirty.getLsbD w || fresh then
    s.modCore core fun c => c.setL1 k
      { l with
        dirty := words.foldl (fun d w => d ||| (1#32 <<< w)) l.dirty
        data := mergeLine p.mask p.data l.data
        writes := (l.writes.filter fun x => !words.contains x.word) ++ words.map fun w => ⟨w, a, p.va + 4 * w, rel⟩ }
  else
    let s := s.dropL1 core k
    if ownKey k && !s.store.sharedOut k p.mask then s.writeHome k p.mask p.data rel
    else
      (s.owe core a.who.ctx).sendTo (s.placePanel p.place)
        (.memoryRequest ⟨a, 0, .store [p], false, true, rel, 0⟩)

/-- Whether a store to a part is refused at an own-panel vault (R115). -/
def State.vaultRefuses (s : State) (a : Actor) (write : Bool) (p : Part) : Bool :=
  match p.place with
  | .vault q chip off => q == s.myPanel && s.tables.vaultRefused a.tenant chip off write
  | _ => false

/-- Perform one part of a store: own scratchpad at once, the L1 for a plain store, a message otherwise; a refused vault
page is reported imprecisely (R114, R115). -/
def storePart (home sync : Bool) (rel : Option Rel) (p : Part) : M Unit := do
  let s ← get
  let a ← myActor
  if s.vaultRefuses a true p then
    modMe fun c => { c with reports := c.reports ++ [⟨7, BitVec.ofNat 64 (p.va + lowByte p.mask), false, none⟩] }
  else
    match p.place with
    | .scratch _ _ _ =>
      (match s.keyOf p.place with
       | some k => modS fun s => s.writeHome k p.mask p.data rel
       | none => pure ())
    | .peer q _ _ => sendPosted q (.memoryRequest ⟨a, 0, .store [p], sync, true, rel, 0⟩)
    | _ =>
      if home then do
        modS fun s => s.dropL1 s.curCore (s.l1Key p.place)
        sendPosted (s.placePanel p.place) (.memoryRequest ⟨a, 0, .store [p], sync, true, rel, 0⟩)
      else modS fun s => s.storeL1 a p rel

/-- Perform each part of a store. -/
def storeEach (home sync : Bool) (rel : Option Rel) : List Part → M Unit
  | [] => pure ()
  | p :: t => do storePart home sync rel p; storeEach home sync rel t

/-- Retire stores into the side log: one entry per line, 256 entries in all (R287, R433). -/
def sideLogM (es : List SideEntry) : M Unit := do
  let g ← myGroup
  if 256 < g.sideLog.length + es.length then spend
  else modMyGroup fun g => { g with sideLog := g.sideLog ++ es }

/-- Parts of a store by virtual line, for the side log. -/
def sideParts (size : Nat) (ls : List (Nat × Word × Nat)) : List Part :=
  let ts : List (Tgt × Nat) := ls.map fun p =>
    (⟨.phys (p.2.1.toNat / 128 * 128), p.2.1.toNat % 128, p.2.1.toNat, size, false, none⟩, p.2.2)
  storeParts ts

/-- Whether the context has side-log entries on the page (64 KiB) of an address (R287). -/
def loggedPage (es : List SideEntry) (va : Nat) : Bool := es.any fun e => e.va / 2 ^ 16 == va / 2 ^ 16

/-- Write lanes: (lane, address, value). `code` is the size code for a held-store record (R289). -/
def storeM (size code : Nat) (ord : Option (Ord × Scope)) (lanes : List (Nat × Word × Nat)) : M Unit := do
  let rel ← (match ord with
    | some (_, sc) => do pure (some (← beginRelease sc))
    | none => fenceRel)
  (if lanes.isEmpty then pure ()
  else do
    let ts ← resolveLanes size .store false (lanes.map fun p => (p.1, p.2.1))
    let side := (← myGroup).sideOf (← get).curCtx
    if ts.any (fun p => p.2.isNone) || lanes.any (fun p => loggedPage side p.2.1.toNat) then
      let a ← myActor
      sideLogM ((sideParts size lanes).map fun p => ⟨a, 1, p.va + lowByte p.mask, code, 0, .store [p], false⟩)
    else
      let pairs : List (Tgt × Nat) := (ts.zip lanes).filterMap fun p => p.1.2.map fun t => (t, p.2.2.2)
      let wide := match ord with
        | some (_, sc) => scWide sc
        | none => false
      let mem := pairs.filter fun p => p.1.aliasOf.isNone
      let ps := storeParts mem
      markRoomM ps
      reserveM ps.length
      checkM true ord.isNone ps
      storeEach wide ord.isSome rel ps
      let full := 64 ≤ (← myGroup).firings.length && pairs.any fun p => p.1.aliasOf.isSome
      if full then spend
      else modMyGroup fun g => pairs.foldl (fun g p =>
        match p.1.aliasOf with
        | some k => g.increment k (BitVec.ofNat 64 p.2) rel
        | none => g) g)
  match ord with
  | some (.sc, sc) => do endAcquire sc []; endRegion
  | some _ => endRegion
  | none => pure ()

end Sys2Proof.Machine
end

