-- ==== Sys2Proof/Machine/Numbers.lean ====
section
/-! DEFINITION. Sys2Proof/Machine/Numbers.lean: the number formats bit by bit (R154 to R158), rounding and overflow
(R159 to R161), exact arithmetic on dyadic numbers, and the operations of scalar and lane arithmetic (R157). -/
namespace Sys2Proof.Machine

/-! ## Formats (R154, R155) -/

/-- A floating format: width, mantissa width, bias, the largest finite magnitude, the encoding of infinity and of the
canonical NaN as magnitudes. -/
structure FFmt where
  w : Nat
  m : Nat
  bias : Nat
  maxF : Nat
  infB : Option Nat
  nanB : Option Nat
deriving DecidableEq, Repr

def fmtF64 : FFmt := ⟨64, 52, 1023, 0x7FEFFFFFFFFFFFFF, some 0x7FF0000000000000, some 0x7FF8000000000000⟩
def fmtF32 : FFmt := ⟨32, 23, 127, 0x7F7FFFFF, some 0x7F800000, some 0x7FC00000⟩
def fmtF16 : FFmt := ⟨16, 10, 15, 0x7BFF, some 0x7C00, some 0x7E00⟩
def fmtBf16 : FFmt := ⟨16, 7, 127, 0x7F7F, some 0x7F80, some 0x7FC0⟩
def fmtE5m2 : FFmt := ⟨8, 2, 15, 0x7B, some 0x7C, some 0x7E⟩
def fmtE4m3 : FFmt := ⟨8, 3, 7, 0x7E, none, some 0x7F⟩
def fmtE2m1 : FFmt := ⟨4, 1, 1, 0x7, none, none⟩

/-- What a type code denotes: a floating format, or an integer format (signed, width). -/
inductive NumFmt where
  | flt (f : FFmt)
  | int (signed : Bool) (w : Nat)
deriving DecidableEq, Repr

/-- The format of a type (R83). -/
def numFmt : ElemTy → NumFmt
  | .i8 => .int true 8 | .i16 => .int true 16 | .i32 => .int true 32 | .i64 => .int true 64
  | .n8 => .int false 8 | .n16 => .int false 16 | .n32 => .int false 32 | .n64 => .int false 64
  | .bf16 => .flt fmtBf16 | .f16 => .flt fmtF16 | .f32 => .flt fmtF32 | .f64 => .flt fmtF64
  | .e4m3 => .flt fmtE4m3 | .e5m2 => .flt fmtE5m2 | .e2m1 => .flt fmtE2m1

/-- Whether a type is signed integer. -/
def isSignedTy (t : ElemTy) : Bool :=
  match numFmt t with
  | .int s _ => s
  | .flt _ => false
/-- The floating format of a float type; f32 for the others, which no float opcode names. -/
def fltOf (t : ElemTy) : FFmt :=
  match numFmt t with
  | .flt f => f
  | .int _ _ => fmtF32

/-- Exponent of the smallest normal: emin. -/
def emin (f : FFmt) : Int := 1 - (f.bias : Int)
/-- Exponent of the smallest subnormal. -/
def eLow (f : FFmt) : Int := emin f - (f.m : Int)

/-! ## Values (R155) -/

/-- An exact value: NaN, an infinity, or (−1)^neg · mag · 2^exp; a zero keeps its sign. -/
inductive FVal where
  | nan
  | inf (neg : Bool)
  | num (neg : Bool) (mag : Nat) (exp : Int)
deriving DecidableEq, Repr

/-- The value of an encoding of a floating format. -/
def fval (f : FFmt) (x : Nat) : FVal :=
  let b := x % 2 ^ f.w
  let neg := decide (2 ^ (f.w - 1) ≤ b)
  let mag := b % 2 ^ (f.w - 1)
  if mag ≤ f.maxF then
    let e := mag / 2 ^ f.m
    let man := mag % 2 ^ f.m
    if e = 0 then .num neg man (eLow f) else .num neg (2 ^ f.m + man) (eLow f + (e : Int) - 1)
  else if f.infB = some mag then .inf neg
  else .nan

/-- The integer that bits of an integer format denote. -/
def ival (signed : Bool) (w x : Nat) : Int :=
  let b := x % 2 ^ w
  if signed && decide (2 ^ (w - 1) ≤ b) then (b : Int) - (2 ^ w : Int) else b
/-- The encoding of an integer, modulo 2^w: `wrap_i`. -/
def ibits (w : Nat) (x : Int) : Nat := (x % (2 ^ w : Int)).toNat
/-- Range of an integer format. -/
def ilo (signed : Bool) (w : Nat) : Int := if signed then -(2 ^ (w - 1) : Int) else 0
def ihi (signed : Bool) (w : Nat) : Int := if signed then (2 ^ (w - 1) : Int) - 1 else (2 ^ w : Int) - 1
/-- `sat_i`. -/
def satI (signed : Bool) (w : Nat) (x : Int) : Int := min (max x (ilo signed w)) (ihi signed w)
/-- Whether an integer lies in a format. -/
def inI (signed : Bool) (w : Nat) (x : Int) : Bool := decide (ilo signed w ≤ x) && decide (x ≤ ihi signed w)

/-- An integer as an exact value. -/
def ofInt (x : Int) : FVal := .num (decide (x < 0)) x.natAbs 0
/-- The encoding of a sign and magnitude. -/
def signed (f : FFmt) (neg : Bool) (mag : Nat) : Nat := if neg then 2 ^ (f.w - 1) + mag else mag
/-- The canonical NaN of a format; e2m1 has none and takes 0 (R160). -/
def nanOf (f : FFmt) : Nat := f.nanB.getD 0

/-! ## Rounding (R159) -/

/-- The decision of `rnd` from the discarded part: lo, the remainder of 2^shift, whether non-zero bits lie below it. -/
def roundUp (rm : Rm) (neg : Bool) (lo rem shift : Nat) (sticky : Bool) (rw : Nat) : Bool :=
  let half := 2 ^ shift
  let r2 := 2 * rem
  match rm with
  | .rne => decide (half < r2) || (decide (r2 = half) && (sticky || decide (lo % 2 = 1)))
  | .rtz => false
  | .rdn => (decide (0 < rem) || sticky) && neg
  | .rup => (decide (0 < rem) || sticky) && !neg
  | .rna => decide (half ≤ r2)
  | .rsr => decide (65536 ≤ rem * 65536 / 2 ^ shift + rw)

/-- `rnd` of mag · 2^exp (with non-zero bits below when `sticky`) to a unit 2^q: the multiple, and whether it was rounded
up. -/
def rndUnit (rm : Rm) (neg : Bool) (mag : Nat) (exp q : Int) (sticky : Bool) (rw : Nat) : Nat × Bool :=
  if q ≤ exp then (mag * 2 ^ (exp - q).toNat, false)
  else
    let shift := (q - exp).toNat
    let lo := mag / 2 ^ shift
    let up := roundUp rm neg lo (mag % 2 ^ shift) shift sticky rw
    (if up then lo + 1 else lo, up)

/-- `rnd` to a floating format, exponent unbounded above: the magnitude as an encoding that runs on past the largest
finite one, and whether it was rounded up. -/
def rndMag (f : FFmt) (rm : Rm) (neg : Bool) (mag : Nat) (exp : Int) (sticky : Bool) (rw : Nat) : Nat × Bool :=
  if mag = 0 then (0, false)
  else
    let q := max ((mag.log2 : Int) + exp) (emin f) - (f.m : Int)
    let (n, up) := rndUnit rm neg mag exp q sticky rw
    (n + (q - eLow f).toNat * 2 ^ f.m, up)

/-- `rnd` to an integer. -/
def rndInt (rm : Rm) (neg : Bool) (mag : Nat) (exp : Int) (rw : Nat) : Int :=
  let n := (rndUnit rm neg mag exp 0 false rw).1
  if neg then -(n : Int) else n

/-! ## Overflow and conversions (R160, R161) -/

/-- The outcome of an operation on one element: bits with the event counter it raises (R162, R277), or a trap of
a kind (R161). -/
inductive NRes where
  | ok (bits : Nat) (ev : Option Nat)
  | trap (kind : Nat)
deriving DecidableEq, Repr

/-- The bits of an outcome. -/
def NRes.bits : NRes → Nat
  | .ok b _ => b
  | .trap _ => 0

/-- A finite overflow (R160). `up`: whether `rnd` rounded the magnitude up. -/
def overflow (f : FFmt) (om : Om) (rm : Rm) (neg up : Bool) : NRes :=
  match om with
  | .trap => .trap 1
  | .sat => .ok (signed f neg f.maxF) (some 0)
  | .ovf =>
    let toInf := match rm with
      | .rne | .rna => true
      | .rtz => false
      | .rdn => neg
      | .rup => !neg
      | .rsr => up
    match f.infB, f.nanB with
    | some i, _ => .ok (signed f neg (if toInf then i else f.maxF)) none
    | none, some n => .ok (if toInf then n else signed f neg f.maxF) none
    | none, none => .ok (signed f neg f.maxF) (some 0)

/-- Round a finite value to a floating format under an overflow mode. -/
def finF (f : FFmt) (om : Om) (rm : Rm) (neg : Bool) (mag : Nat) (exp : Int) (sticky : Bool) (rw : Nat) : NRes :=
  let (b, up) := rndMag f rm neg mag exp sticky rw
  if b ≤ f.maxF then .ok (signed f neg b) none else overflow f om rm neg up

/-- A value to a floating format (R160). -/
def toFlt (f : FFmt) (om : Om) (rm : Rm) (v : FVal) (rw : Nat) : NRes :=
  match v with
  | .num neg mag exp => finF f om rm neg mag exp false rw
  | .inf neg =>
    (match f.infB, f.nanB, om with
     | some i, _, _ => .ok (signed f neg i) none
     | none, some n, .ovf => .ok n none
     | none, _, .trap => .trap 2
     | none, _, _ => .ok (signed f neg f.maxF) (some 1))
  | .nan =>
    (match f.nanB, om with
     | some n, _ => .ok n none
     | none, .trap => .trap 3
     | none, _ => .ok 0 (some 2))

/-- A float value to an integer format (R161). -/
def fltToInt (sg : Bool) (w : Nat) (om : Om) (rm : Rm) (v : FVal) (rw : Nat) : NRes :=
  match v with
  | .nan => (match om with
    | .trap => .trap 3
    | _ => .ok 0 (some 3))
  | .inf neg => (match om with
    | .trap => .trap 4
    | _ => .ok (ibits w (if neg then ilo sg w else ihi sg w)) (some 3))
  | .num neg mag exp =>
    let x := rndInt rm neg mag exp rw
    if inI sg w x then .ok (ibits w x) none
    else match om with
      | .trap => .trap 4
      | _ => .ok (ibits w (satI sg w x)) (some 3)

/-- An integer to an integer format (R161). -/
def intToInt (sg : Bool) (w : Nat) (om : Om) (x : Int) : NRes :=
  if inI sg w x then .ok (ibits w x) none
  else match om with
    | .trap => .trap 4
    | .sat => .ok (ibits w (satI sg w x)) (some 4)
    | .ovf => .ok (ibits w x) none

/-- Convert an element of type `st` to type `dt` (R161). -/
def convert (dt st : ElemTy) (om : Om) (rm : Rm) (x rw : Nat) : NRes :=
  match numFmt dt, numFmt st with
  | .flt f, .flt g => toFlt f om rm (fval g x) rw
  | .flt f, .int s w => toFlt f om rm (ofInt (ival s w x)) rw
  | .int s w, .flt g => fltToInt s w om rm (fval g x) rw
  | .int s w, .int s' w' => intToInt s w om (ival s' w' x)

/-! ## Exact arithmetic (R156, R157) -/

/-- The signed multiple of 2^e that a sign and magnitude at a higher exponent make. -/
def scaled (neg : Bool) (mag : Nat) (exp e : Int) : Int :=
  let n : Int := mag * 2 ^ (exp - e).toNat
  if neg then -n else n
/-- Negate. -/
def fneg : FVal → FVal
  | .nan => .nan
  | .inf n => .inf !n
  | .num n m e => .num (!n) m e
/-- The exact sum; the sign of an exact zero is that of round to nearest, −0 under rdn for opposite signs (R156). -/
def faddX (rm : Rm) : FVal → FVal → FVal
  | .nan, _ => .nan
  | _, .nan => .nan
  | .inf a, .inf b => if a = b then .inf a else .nan
  | .inf a, _ => .inf a
  | _, .inf b => .inf b
  | .num na ma ea, .num nb mb eb =>
    let e := min ea eb
    let s := scaled na ma ea e + scaled nb mb eb e
    if s = 0 then .num (if na = nb then na else rm == .rdn) 0 e
    else .num (decide (s < 0)) s.natAbs e
/-- The exact product. -/
def fmulX : FVal → FVal → FVal
  | .nan, _ => .nan
  | _, .nan => .nan
  | .inf a, .inf b => .inf (a != b)
  | .inf a, .num b m _ => if m = 0 then .nan else .inf (a != b)
  | .num a m _, .inf b => if m = 0 then .nan else .inf (a != b)
  | .num a ma ea, .num b mb eb => .num (a != b) (ma * mb) (ea + eb)

/-- Overflow mode of arithmetic (R157): fn[0]. -/
def satMode (sat : Bool) : Om := if sat then .sat else .ovf
/-- Sum, difference, product, fused multiply-add. -/
def fAdd (f : FFmt) (rm : Rm) (sat : Bool) (rw a b : Nat) : NRes :=
  toFlt f (satMode sat) rm (faddX rm (fval f a) (fval f b)) rw
def fSub (f : FFmt) (rm : Rm) (sat : Bool) (rw a b : Nat) : NRes :=
  toFlt f (satMode sat) rm (faddX rm (fval f a) (fneg (fval f b))) rw
def fMul (f : FFmt) (rm : Rm) (sat : Bool) (rw a b : Nat) : NRes :=
  toFlt f (satMode sat) rm (fmulX (fval f a) (fval f b)) rw
def fFma (f : FFmt) (rm : Rm) (sat : Bool) (rw a b c : Nat) : NRes :=
  toFlt f (satMode sat) rm (faddX rm (fmulX (fval f a) (fval f b)) (fval f c)) rw

/-- The quotient of two finite non-zero magnitudes, to 128 bits or more, and whether it is inexact. -/
def quot (ma : Nat) (ea : Int) (mb : Nat) (eb : Int) : Nat × Int × Bool :=
  let s := 128 + mb.log2
  let n := ma * 2 ^ s
  (n / mb, ea - eb - (s : Int), n % mb != 0)
/-- Division of values. -/
def fDivV (f : FFmt) (rm : Rm) (sat : Bool) (rw : Nat) (a b : FVal) : NRes :=
  let special (v : FVal) : NRes := toFlt f (satMode sat) rm v rw
  match a, b with
  | .nan, _ => special .nan
  | _, .nan => special .nan
  | .inf _, .inf _ => special .nan
  | .inf x, .num y _ _ => special (.inf (x != y))
  | .num x _ _, .inf y => special (.num (x != y) 0 0)
  | .num x ma ea, .num y mb eb =>
    if mb = 0 then (if ma = 0 then special .nan else special (.inf (x != y)))
    else if ma = 0 then special (.num (x != y) 0 0)
    else
      let (q, e, st) := quot ma ea mb eb
      finF f (satMode sat) rm (x != y) q e st rw
def fDiv (f : FFmt) (rm : Rm) (sat : Bool) (rw a b : Nat) : NRes := fDivV f rm sat rw (fval f a) (fval f b)
/-- One as a value. -/
def oneV : FVal := .num false 1 0
/-- Reciprocal. -/
def fRcp (f : FFmt) (rm : Rm) (sat : Bool) (rw a : Nat) : NRes := fDivV f rm sat rw oneV (fval f a)

/-- The bits of the integer square root from bit i down: `r` is what has been found. -/
def isqrtFrom (n : Nat) : Nat → Nat → Nat
  | 0, r => r
  | i + 1, r => let t := r + 2 ^ i; isqrtFrom n i (if t * t ≤ n then t else r)
/-- floor of the square root. -/
def isqrt (n : Nat) : Nat := isqrtFrom n (n.log2 / 2 + 1) 0
/-- The square root of a finite positive magnitude to 128 bits or more, and whether it is inexact. -/
def sqrtX (m : Nat) (e : Int) : Nat × Int × Bool :=
  let s := 256 + (e % 2).toNat
  let n := m * 2 ^ s
  let r := isqrt n
  (r, (e - (s : Int)) / 2, r * r != n)
/-- Square root (R157): below −0 the canonical NaN; −0 gives −0. -/
def fSqrt (f : FFmt) (rm : Rm) (sat : Bool) (rw a : Nat) : NRes :=
  match fval f a with
  | .num n m e =>
    if m = 0 then .ok (signed f n 0) none
    else if n then .ok (nanOf f) none
    else let (r, e', st) := sqrtX m e; finF f (satMode sat) rm false r e' st rw
  | .inf false => toFlt f (satMode sat) rm (.inf false) rw
  | _ => .ok (nanOf f) none
/-- Reciprocal square root of a finite positive magnitude: 1/√(m·2^e) = √(2^−e / m), exact when m is a square
power. -/
def rsqrtX (m : Nat) (e : Int) : Nat × Int × Bool :=
  let s := 2 * (128 + m.log2) + (e % 2).toNat
  let n := 2 ^ s / m
  let r := isqrt n
  (r, (-e - (s : Int)) / 2, r * r * m != 2 ^ s)

/-! ## Comparison, minimum, maximum (R82, R157) -/

/-- Exact order of two numbers: less, equal or greater; −0 equals +0. -/
def cmpNum : FVal → FVal → Option Ordering
  | .nan, _ => none
  | _, .nan => none
  | .inf a, .inf b => some (if a = b then .eq else if a then .lt else .gt)
  | .inf a, _ => some (if a then .lt else .gt)
  | _, .inf b => some (if b then .gt else .lt)
  | .num na ma ea, .num nb mb eb =>
    let e := min ea eb
    some (compare (scaled na ma ea e) (scaled nb mb eb e))
/-- Whether a value is a zero with a minus sign, as bits. -/
def negBits (f : FFmt) (x : Nat) : Bool := decide (2 ^ (f.w - 1) ≤ x % 2 ^ f.w)
/-- Minimum or maximum of encodings (R157): −0 below +0; one NaN gives the other operand; two NaN give NaN. -/
def fMinMax (f : FFmt) (mx : Bool) (a b : Nat) : Nat :=
  let a := a % 2 ^ f.w
  let b := b % 2 ^ f.w
  match fval f a, fval f b with
  | .nan, .nan => nanOf f
  | .nan, _ => b
  | _, .nan => a
  | x, y =>
    let less := match cmpNum x y with
      | some .lt => true
      | some .gt => false
      | _ => negBits f a && !negBits f b
    if mx then (if less then b else a) else (if less then a else b)

/-! ## Stochastic rounding (R163, R164) -/

/-- One step of the generator. -/
def rngStep (x : BitVec 32) : BitVec 32 :=
  let x := x ^^^ (x <<< 13)
  let x := x ^^^ (x >>> 17)
  x ^^^ (x <<< 5)
/-- n outputs of the generator. -/
def rngOutputs : Nat → BitVec 32 → List (BitVec 32)
  | 0, _ => []
  | n + 1, x => let y := rngStep x; y :: rngOutputs n y
/-- The random word of a result element. -/
def rwOf (os : List (BitVec 32)) (i : Nat) : Nat :=
  let o := (os.getD (i / 2) 0).toNat
  if i % 2 = 0 then o % 65536 else o / 65536
/-- A value of the generator as it is stored: zero is stored as 1 (R68). -/
def rngStored (x : BitVec 32) : BitVec 32 := if x = 0 then 1 else x

/-! ## Exponential and logarithm (R419)

The exact value is irrational but for arguments that give a power of two; the fixed-point values below carry 320 bits of
fraction, and non-zero bits always lie below. -/

/-- Bits of fraction. -/
def fxp : Nat := 320
/-- Twice the sum of z^(2k+1) / (2k+1) for k from i: the series of ln((1+z)/(1−z)). `p` is z^(2i+1). -/
def atanhSum (z2 : Nat) : Nat → Nat → Nat → Nat
  | 0, _, _ => 0
  | n + 1, k, p => 2 * p / (2 * k + 1) + atanhSum z2 n (k + 1) (p * z2 / 2 ^ fxp)
/-- ln of (1+z)/(1−z) in fixed point. -/
def lnZ (z : Nat) : Nat := atanhSum (z * z / 2 ^ fxp) 110 0 z
/-- ln 2 in fixed point. -/
def ln2 : Nat := lnZ (2 ^ fxp / 3)
/-- The sum of y^k / k! from k = i: `t` is y^i / i!. -/
def expSum (y : Nat) : Nat → Nat → Nat → Nat
  | 0, _, _ => 0
  | n + 1, k, t => t + expSum y n (k + 1) (t * y / 2 ^ fxp / (k + 1))
/-- 2^x for a finite x: magnitude, exponent, whether inexact. Exponents beyond ±4096, far outside every lane format, are
cut off there. -/
def exp2X (neg : Bool) (m : Nat) (e : Int) : Nat × Int × Bool :=
  let x : Int := if 0 ≤ e then (m : Int) * 2 ^ e.toNat * 2 ^ fxp
    else (m : Int) * 2 ^ fxp / 2 ^ (-e).toNat
  let exact := decide (-(fxp : Int) ≤ e)
  let x : Int := if neg then (if exact then -x else -x - 1) else x
  let whole := max (-4096) (min 4096 (x / 2 ^ fxp))
  let frac := (x % 2 ^ fxp).toNat
  if frac = 0 && exact then (1, whole, false)
  else (expSum (frac * ln2 / 2 ^ fxp) 80 0 (2 ^ fxp), whole - (fxp : Int), true)
/-- log2 of a finite positive x = m · 2^e: sign, magnitude, exponent, whether inexact. -/
def log2X (m : Nat) (e : Int) : Bool × Nat × Int × Bool :=
  let whole : Int := (m.log2 : Int) + e
  let p := 2 ^ m.log2
  if m = p then (decide (whole < 0), whole.natAbs, 0, false)
  else
    let frac := lnZ ((m - p) * 2 ^ fxp / (m + p)) * 2 ^ fxp / ln2
    let v : Int := whole * 2 ^ fxp + frac
    if v < 0 then (true, (-v - 1).toNat, -(fxp : Int), true) else (false, v.toNat, -(fxp : Int), true)

/-- `vexp2` of an element (R419). -/
def fExp2 (f : FFmt) (rm : Rm) (sat : Bool) (rw a : Nat) : NRes :=
  match fval f a with
  | .nan => .ok (nanOf f) none
  | .inf false => toFlt f (satMode sat) rm (.inf false) rw
  | .inf true => .ok 0 none
  | .num n m e => let (r, e', st) := exp2X n m e; finF f (satMode sat) rm false r e' st rw
/-- `vlog2` of an element (R419). -/
def fLog2 (f : FFmt) (rm : Rm) (sat : Bool) (rw a : Nat) : NRes :=
  match fval f a with
  | .nan => .ok (nanOf f) none
  | .inf false => toFlt f (satMode sat) rm (.inf false) rw
  | .inf true => .ok (nanOf f) none
  | .num n m e =>
    if m = 0 then toFlt f (satMode sat) rm (.inf true) rw
    else if n then .ok (nanOf f) none
    else let (ng, r, e', st) := log2X m e; finF f (satMode sat) rm ng r e' st rw
/-- `vrsqrt` of an element (R424). -/
def fRsqrt (f : FFmt) (rm : Rm) (sat : Bool) (rw a : Nat) : NRes :=
  match fval f a with
  | .nan => .ok (nanOf f) none
  | .inf false => .ok 0 none
  | .inf true => .ok (nanOf f) none
  | .num n m e =>
    if m = 0 then toFlt f (satMode sat) rm (.inf n) rw
    else if n then .ok (nanOf f) none
    else let (r, e', st) := rsqrtX m e; finF f (satMode sat) rm false r e' st rw

end Sys2Proof.Machine
end

