-- ==== Sys2Proof/Machine/Flags.lean ====
section
/-! DEFINITION. Sys2Proof/Machine/Flags.lean: the conditions of compares and branches (R82). The device has no flag
register: a condition is computed by the instruction that tests it. -/
namespace Sys2Proof.Machine

/-- An integer condition on two numbers of w bits (R82). -/
def icond (w : Nat) (c : ICond) (x y : Nat) : Bool :=
  let u := x % 2 ^ w
  let v := y % 2 ^ w
  let a := ival true w x
  let b := ival true w y
  match c with
  | .eq => u == v
  | .ne => u != v
  | .lt => decide (a < b)
  | .ge => decide (b ≤ a)
  | .ltu => decide (u < v)
  | .geu => decide (v ≤ u)
  | .le => decide (a ≤ b)
  | .gt => decide (b < a)
  | .leu => decide (u ≤ v)
  | .gtu => decide (v < u)

/-- A float condition on two encodings (R82): an operand NaN makes the pair unordered; zeros are equal. -/
def fcond (f : FFmt) (c : FCond) (x y : Nat) : Bool :=
  let r := cmpNum (fval f x) (fval f y)
  match c with
  | .eq => r == some .eq
  | .ne => r != some .eq
  | .lt => r == some .lt
  | .ge => r == some .gt || r == some .eq
  | .uo => r == none
  | .ord => r != none
  | .le => r == some .lt || r == some .eq
  | .gt => r == some .gt

/-- The lane count that a scalar names (R343): 1 to 128, else 128. -/
def laneCount (v : Word) : Nat := if 1 ≤ v.toNat && v.toNat ≤ 128 then v.toNat else 128
/-- The low n bits of a mask, as a number. -/
def lowMask (m : MaskW) (n : Nat) : Nat := m.toNat % 2 ^ n
/-- A branch condition on the low n bits of a mask (R343). -/
def mcond (c : MCond) (m : MaskW) (n : Nat) : Bool :=
  match c with
  | .any => lowMask m n != 0
  | .all => lowMask m n == 2 ^ n - 1
  | .none => lowMask m n == 0
/-- Number of ones among the low n bits. -/
def onesIn (x n : Nat) : Nat := ((List.range n).filter fun i => x.testBit i).length
/-- Index of the lowest one among the low n bits, or n. -/
def lowestOne (x n : Nat) : Nat := ((List.range n).find? fun i => x.testBit i).getD n
/-- Zero bits above the highest one of 64 bits. -/
def leadingZeros (x : Nat) : Nat := ((List.range 64).find? fun i => x.testBit (63 - i)).getD 64

end Sys2Proof.Machine
end

