-- ==== Sys2Proof/Machine/Operands.lean ====
section
/-! DEFINITION. Sys2Proof/Machine/Operands.lean: the operand forms: scalar positions that take registers or ports (R334),
vector positions (R410), port reads and appends (R56 to R60), holds (R61), masked lanes (R55), effective addresses
(R78, R88). -/
namespace Sys2Proof.Machine

/-! ## Local queues and channels -/

/-- A local queue of a group. -/
def Group.lq (g : Group) (i : Nat) : LocalQ := Cells.get {} g.lqs i
def Group.setLq (g : Group) (i : Nat) (q : LocalQ) : Group := { g with lqs := Cells.set {} g.lqs i q }
/-- A channel end of a group. -/
def Group.chan (g : Group) (i : Nat) : Chan := Cells.get {} g.chans i
def Group.setChan (g : Group) (i : Nat) (c : Chan) : Group := { g with chans := Cells.set {} g.chans i c }
/-- A port of a context. -/
def Ctx.port (c : Ctx) (q : QReg) : Port := Cells.get {} c.ports q.toNat
def Ctx.setPort (c : Ctx) (q : QReg) (p : Port) : Ctx := { c with ports := Cells.set {} c.ports q.toNat p }

/-- Whether an element is a drain marker. -/
def isDrain : Elem → Bool
  | .drain _ _ => true
  | _ => false
/-- The counter of a drain marker. -/
def drainCtr : Elem → Option KReg
  | .drain k _ => k
  | _ => none
/-- Release of a drain marker. -/
def elemRel : Elem → Option Rel
  | .data _ r => r
  | .finish r => r
  | .drain _ r => r
/-- A drain acknowledgement at the writer side (R59): the port that names the end counts it, and the counter rises. -/
def Group.ackDrain (g : Group) (kind idx : Nat) (k : Option KReg) : Group :=
  let hit (p : Port) : Bool := p.kind == kind && p.idx == idx && p.write
  let g := { g with ctxs := ⟨g.ctxs.list.map fun x =>
    (x.1, { x.2 with ports := ⟨x.2.ports.list.map fun y =>
      (y.1, if hit y.2 then { y.2 with drains := y.2.drains + 1 } else y.2)⟩ })⟩ }
  match k with
  | some k => g.increment k 1 none
  | none => g
/-- The reader end removes and acknowledges the drain markers it has reached (R59). -/
def Group.reachLq (g : Group) (i : Nat) : Group :=
  let q := g.lq i
  if !q.reader then g
  else
    let ds := q.elems.takeWhile isDrain
    ds.foldl (fun g e => g.ackDrain 4 i (drainCtr e)) (g.setLq i { q with elems := q.elems.dropWhile isDrain })
/-- The same for a channel's reader end: the slot and the acknowledgement go back by a message. -/
def State.reachChan (s : State) (core n : Nat) : State :=
  let g := s.group core
  let c := g.chan n
  if !c.bound || c.out then s
  else
    let ds := c.slots.takeWhile isDrain
    let s := s.modGroup core fun g => g.setChan n { c with slots := c.slots.dropWhile isDrain }
    ds.foldl (fun s e => s.post (.drainMarkerAck ⟨c.peer, g.launch, some n, none, drainCtr e, 1, true⟩)) s

/-! ## Ports (R56 to R60) -/

/-- Port misuse (R60): cause 0x0E, the port in [2:0], the case in [7:4]. -/
def misuse {α : Type} (case : Nat) (q : QReg) : M α := trapM 0x0E (BitVec.ofNat 64 (16 * case + q.toNat))

/-- What a popped element delivers; an end marker gives zero and sets ended (R59). -/
def takeElem (q : QReg) (sc : Scope) (e : Elem) : M Line := do
  endRegion
  endAcquire sc (elemRel e).toList
  endRegion
  match e with
  | .data v _ => pure v
  | _ => do
    modMe fun c => c.setPort q { c.port q with ended := true }
    pure 0

/-- Pop an element from a port (R56): an empty port is a wait. -/
def popPort (q : QReg) : M Line := do
  let s ← get
  let p := s.me.port q
  if p.kind = 0 then misuse 1 q
  else if p.kind = 6 then misuse 3 q
  else if p.write then misuse 2 q
  else if p.kind = 1 then
    if p.count ≤ p.pos then misuse 6 q
    else do
      let vs ← loadM 128 none [(0, p.base + BitVec.ofNat 64 p.pos * p.stride)]
      modMe fun c => c.setPort q { c.port q with pos := p.pos + 1 }
      pure (BitVec.ofNat 1024 ((vs.map (·.2)).getD 0 0))
  else if p.kind = 3 then
    let lq := s.myGroup.lq p.idx
    match lq.elems with
    | [] => waitM (.port q)
    | e :: t => do
      modMyGroup fun g => (g.setLq p.idx { lq with elems := t }).reachLq p.idx
      takeElem q .core e
  else
    let ch := s.myGroup.chan p.idx
    match ch.slots with
    | [] => waitM (.port q)
    | e :: t => do
      modMyGroup fun g => g.setChan p.idx { ch with slots := t }
      modS fun s => (s.post (.drainMarkerAck ⟨ch.peer, s.myGroup.launch, some p.idx, none, none, 1, false⟩)).reachChan
        s.curCore p.idx
      takeElem q .panel e

/-- Append an element or a marker to a local queue or a channel; a full port is a wait. -/
def pushElem (q : QReg) (p : Port) (mk : Option Rel → Elem) : M Unit := do
  let s ← get
  if p.kind = 4 then
    if 8 ≤ (s.myGroup.lq p.idx).elems.length then waitM (.port q)
    else do
      let r ← beginRelease .core
      modMyGroup fun g =>
        let lq := g.lq p.idx
        (g.setLq p.idx { lq with elems := lq.elems ++ [mk (some r)] }).reachLq p.idx
      endRegion
  else
    let ch := s.myGroup.chan p.idx
    if ch.allowance = 0 then waitM (.port q)
    else do
      let r ← beginRelease .panel
      modMyGroup fun g => g.setChan p.idx { g.chan p.idx with allowance := ch.allowance - 1 }
      modS fun s => s.post (.channelElementArrival ⟨⟨s.curCore, s.curCtx, s.myGroup.launch⟩, ch.peer, p.idx, mk (some r), s.myGroup.tgen⟩)
      endRegion

/-- Append one element of 1,024 bits to a port (R56). -/
def appendPort (q : QReg) (v : Line) : M Unit := do
  let p := (← me).port q
  if p.kind = 0 then misuse 1 q
  else if p.kind = 6 then misuse 3 q
  else if !p.write then misuse 2 q
  else if p.kind = 2 then
    if p.count ≤ p.pos then misuse 6 q
    else do
      storeM 128 7 none [(0, p.base + BitVec.ofNat 64 p.pos * p.stride, v.toNat)]
      modMe fun c => c.setPort q { c.port q with pos := p.pos + 1 }
  else pushElem q p (.data v)

/-! ## Scalar positions -/

/-- The scalar registers that positions name, with their field bits. -/
def sqRegs (l : List (Nat × SQ)) : List (Nat × SReg) :=
  l.filterMap fun p =>
    match p.2 with
    | .s r => some (p.1, r)
    | .q _ => none
/-- Check the scalar registers that positions name (R51). -/
def namesQ (op : Nat) (l : List (Nat × SQ)) : M Unit := names op (sqRegs l)
/-- Read a scalar position: a port gives bits [63:0] of its element. -/
def rdQ : SQ → M Word
  | .s r => rdS r
  | .q q => do return (← popPort q).setWidth 64
/-- Write a scalar position: a port takes one element, zero-extended. -/
def wrQ : SQ → Word → M Unit
  | .s r, v => wrS r v
  | .q q, v => appendPort q (v.setWidth 1024)
/-- Write a scalar result that becomes available late (R35). -/
def wrQLate : SQ → Word → M Unit
  | .s r, v => wrSLate r v
  | .q q, v => appendPort q (v.setWidth 1024)

/-! ## Vector registers and positions (R54, R61, R410) -/

/-- The value of a vector register. -/
def Ctx.vreg (c : Ctx) (r : VReg) : Line := Cells.get 0 c.v r.toNat
/-- Write a vector register; a deposit that nothing has read is no longer observed. -/
def Ctx.setV (c : Ctx) (r : VReg) (v : Line) : Ctx :=
  { c with v := Cells.set 0 c.v r.toNat v, late := c.late.filter (· != .v r),
           deposited := c.deposited.filter fun p => p.1 != r }
/-- Whether a register is held. -/
def Ctx.held (c : Ctx) (r : VReg) : Bool := c.holds.getLsbD r.toNat
/-- A write to a held register raises cause 0x0C (R61). -/
def freshV (r : VReg) : M Unit := do
  let c ← me
  if c.held r then trapM 0x0C (BitVec.ofNat 64 r.toNat) else pure ()
/-- Read a vector register: a held one makes the context wait, a late result spends the turn, and the first read of
a deposited register acquires at pod scope (R61, R135). -/
def rdV (r : VReg) : M Line := do
  let c ← me
  if c.held r then waitM (.hold r)
  else if c.late.contains (.v r) then spend
  else
    let ds := c.deposited.filter fun p => p.1 == r
    (if ds.isEmpty then pure ()
    else do
      endRegion
      endAcquire .pod (ds.map (·.2))
      modMe fun c => { c with deposited := c.deposited.filter fun p => p.1 != r }
      endRegion)
    pure (c.vreg r)
/-- Write a vector register. -/
def wrV (r : VReg) (v : Line) : M Unit := modMe fun c => c.setV r v
/-- Check a vector destination. -/
def freshVQ : VQ → M Unit
  | .v r => freshV r
  | .q _ => pure ()
/-- Read a vector position. -/
def rdVQ : VQ → M Line
  | .v r => rdV r
  | .q q => popPort q
/-- Write a vector position. -/
def wrVQ : VQ → Line → M Unit
  | .v r, v => wrV r v
  | .q q, v => appendPort q v
/-- Write a vector result that becomes available late (R35). -/
def wrVQLate : VQ → Line → M Unit
  | .v r, v => modMe fun c => let c := c.setV r v; { c with late := .v r :: c.late }
  | .q q, v => appendPort q v
/-- What the lanes that an instruction does not write keep: the register, or zero for a port (R410). -/
def oldVQ (c : Ctx) : VQ → Line
  | .v r => c.vreg r
  | .q _ => 0

/-! ## Lanes (R54, R55) -/

/-- Lane i of width w. -/
def laneNat (l : Line) (w i : Nat) : Nat := l.toNat / 2 ^ (w * i) % 2 ^ w
/-- The register whose n lanes of width w are given. -/
def ofLanes (w n : Nat) (f : Nat → Nat) : Line :=
  BitVec.ofNat 1024 ((List.range n).foldl (fun acc i => acc + f i % 2 ^ w * 2 ^ (w * i)) 0)
/-- Whether a lane is active. -/
def laneOn (m : MaskW) (n : Bool) (i : Nat) : Bool := m.getLsbD i != n
/-- The mask of a mask operand. -/
def rdMask (k : VMask) : M MaskW := rdM k.m
/-- Whether the inactive lanes of a destination are zeroed: `.z`, or a port. -/
def zeroing (k : VMask) : VQ → Bool
  | .v _ => k.z
  | .q _ => true

/-- The event numbers that results raise, each once. -/
def eventsOf (rs : List NRes) : List Nat :=
  (rs.filterMap fun r =>
    match r with
    | .ok _ (some e) => some e
    | _ => none).eraseDups
/-- Count a list of events, one each. -/
def countAll : List Nat → M Unit
  | [] => pure ()
  | e :: t => do event e 1; countAll t
/-- The lowest trapping lane and its kind. -/
def trapOf (rs : List (Nat × NRes)) : Option (Nat × Nat) :=
  rs.findSome? fun p =>
    match p.2 with
    | .trap k => some (p.1, k)
    | _ => none
/-- Raise the conversion trap of the lowest trapping lane (R161), and count the events of the active lanes. -/
def settle (rs : List (Nat × NRes)) : M Unit :=
  match trapOf rs with
  | some (l, k) => trapM 0x0A (BitVec.ofNat 64 (l + 256 * k))
  | none => countAll (eventsOf (rs.map (·.2)))

/-- The register that n lanes of width w make under a mask (R55). -/
def mergeLanes (w n : Nat) (on : Nat → Bool) (z : Bool) (old : Line) (f : Nat → Nat) : Line :=
  ofLanes w n fun i => if on i then f i else if z then 0 else laneNat old w i
/-- Compute and write n lanes of width w under a mask. `put` writes the destination. -/
def vecOp (w n : Nat) (k : VMask) (d : VQ) (put : VQ → Line → M Unit) (f : Nat → NRes) : M Unit := do
  let m ← rdMask k
  let on := laneOn m k.n
  let rs := (List.range n).map fun i => (i, if on i then f i else .ok 0 none)
  settle (rs.filter fun p => on p.1)
  let c ← me
  let bits (i : Nat) : Nat := ((rs.getD i (0, .ok 0 none)).2).bits
  put d (mergeLanes w n on (zeroing k d) (oldVQ c d) bits)

/-- Random words for n result elements (R164): outputs are taken under rsr only. -/
def rngTake (rm : Rm) (n : Nat) : M (Nat → Nat) := do
  if rm = .rsr then
    let os := rngOutputs ((n + 1) / 2) (← me).rng
    modMe fun c => { c with rng := os.getLastD c.rng }
    pure (rwOf os)
  else pure fun _ => 0

/-! ## Effective addresses (R78, R88) -/

/-- The multiplier of a scale code for an access of `size` bytes. -/
def scaleOf (code : BitVec 2) (size : Nat) : Nat :=
  if code = 0 then 1 else if code = 1 then size else if code = 2 then 128 else 256
/-- The registers of a memory operand, with their field bits. -/
def addrRegs (m : Addr) : List (Nat × SReg) := [(17, m.a), (24, m.b)]
/-- The effective address of a memory operand. -/
def eaM (m : Addr) (size : Nat) : M Word := do
  let a ← rdS m.a
  let b ← rdS m.b
  return a + b * BitVec.ofNat 64 (scaleOf m.scale size) + m.disp.signExtend 64

end Sys2Proof.Machine
end

