-- ==== Sys2Proof/Machine/Scalar.lean ====
section
/-! DEFINITION. Sys2Proof/Machine/Scalar.lean: scalar integer instructions, immediates, bit counts, compares and selects
(R335, R336, R342, R348, R349, R355, R372, R374, R381, R385, R389, R393, R395 to R397, R404, R436). -/
namespace Sys2Proof.Machine

/-! ## Shared shapes -/

/-- d := f(a, b): ports pop a before b, then the destination is appended (R334). -/
def alu2 (op : Nat) (d a b : SQ) (f : Word → Word → Word) (s : State) : Res :=
  instr 8 (do
    namesQ op [(10, d), (17, a), (24, b)]
    let x ← rdQ a
    let y ← rdQ b
    wrQ d (f x y)) s
/-- The same with a result that becomes available late (R35). -/
def alu2Late (op : Nat) (d a b : SQ) (f : Word → Word → Word) (s : State) : Res :=
  instr 8 (do
    namesQ op [(10, d), (17, a), (24, b)]
    let x ← rdQ a
    let y ← rdQ b
    wrQLate d (f x y)) s
/-- d := f(a). -/
def alu1 (op : Nat) (d a : SQ) (f : Word → Word) (s : State) : Res :=
  instr 8 (do
    namesQ op [(10, d), (17, a)]
    let x ← rdQ a
    wrQ d (f x)) s
/-- d := f(a, b, c). -/
def alu3 (op : Nat) (d a b c : SQ) (f : Word → Word → Word → Word) (s : State) : Res :=
  instr 8 (do
    namesQ op [(10, d), (17, a), (24, b), (31, c)]
    let x ← rdQ a
    let y ← rdQ b
    let z ← rdQ c
    wrQ d (f x y z)) s
/-- d := f(d) in format FX. -/
def aluFx (op : Nat) (d : SReg) (f : Word → Word) (s : State) : Res :=
  instr 12 (do
    names op [(10, d)]
    let x ← rdS d
    wrS d (f x)) s

/-- A condition as a scalar. -/
def boolWord (b : Bool) : Word := if b then 1 else 0
/-- High half of a product (R372). -/
def mulHigh (u : Bool) (x y : Word) : Word :=
  if u then BitVec.ofNat 64 (x.toNat * y.toNat / 2 ^ 64) else BitVec.ofInt 64 (x.toInt * y.toInt / 2 ^ 64)
/-- Quotient (R355): zero divisor gives all ones; a signed quotient truncates toward zero. -/
def divWord (u : Bool) (x y : Word) : Word :=
  if y = 0 then BitVec.allOnes 64
  else if u then BitVec.ofNat 64 (x.toNat / y.toNat) else BitVec.ofInt 64 (x.toInt.tdiv y.toInt)
/-- Remainder (R393): a zero divisor gives the dividend. -/
def remWord (u : Bool) (x y : Word) : Word :=
  if y = 0 then x
  else if u then BitVec.ofNat 64 (x.toNat % y.toNat) else BitVec.ofInt 64 (x.toInt.tmod y.toInt)
/-- Shift amount (R397): bits [5:0]. -/
def amount (y : Word) : Nat := (y.extractLsb' 0 6).toNat
/-- Minimum and maximum (R374). -/
def minWord (u : Bool) (x y : Word) : Word :=
  if u then (if x.toNat ≤ y.toNat then x else y) else (if x.toInt ≤ y.toInt then x else y)
def maxWord (u : Bool) (x y : Word) : Word :=
  if u then (if x.toNat ≤ y.toNat then y else x) else (if x.toInt ≤ y.toInt then y else x)
/-- Bit field of `bext` (R342). -/
def bitField (sg : Bool) (x : Word) (pos len : Nat) : Word :=
  let f := x.toNat / 2 ^ pos % 2 ^ len
  if sg && decide (2 ^ (len - 1) ≤ f) then BitVec.ofInt 64 ((f : Int) - 2 ^ len) else BitVec.ofNat 64 f
/-- Bit field of `bins` (R342). -/
def putField (x y : Word) (pos len : Nat) : Word :=
  let m := BitVec.ofNat 64 ((2 ^ len - 1) * 2 ^ pos)
  (x &&& ~~~m) ||| ((y <<< pos) &&& m)

/-! ## 0x00 to 0x0F -/

def execAdd (d a b : SQ) (s : State) : Res := alu2 0x00 d a b (fun x y => x + y) s
def execSub (d a b : SQ) (s : State) : Res := alu2 0x01 d a b (fun x y => x - y) s
def execMul (d a b : SQ) (s : State) : Res := alu2 0x02 d a b (fun x y => x * y) s
def execMulh (u : Bool) (d a b : SQ) (s : State) : Res := alu2 0x03 d a b (mulHigh u) s
def execMad (d a b c : SQ) (s : State) : Res := alu3 0x04 d a b c (fun x y z => x * y + z) s
def execDiv (u : Bool) (d a b : SQ) (s : State) : Res := alu2Late 0x05 d a b (divWord u) s
def execRem (u : Bool) (d a b : SQ) (s : State) : Res := alu2Late 0x06 d a b (remWord u) s
def execAnd (d a b : SQ) (s : State) : Res := alu2 0x07 d a b (fun x y => x &&& y) s
def execOr (d a b : SQ) (s : State) : Res := alu2 0x08 d a b (fun x y => x ||| y) s
def execXor (d a b : SQ) (s : State) : Res := alu2 0x09 d a b (fun x y => x ^^^ y) s
def execShl (d a b : SQ) (s : State) : Res := alu2 0x0A d a b (fun x y => x <<< amount y) s
def execShr (d a b : SQ) (s : State) : Res := alu2 0x0B d a b (fun x y => x >>> amount y) s
def execSra (d a b : SQ) (s : State) : Res := alu2 0x0C d a b (fun x y => x.sshiftRight (amount y)) s
def execRot (d a b : SQ) (s : State) : Res := alu2 0x0D d a b (fun x y => x.rotateLeft (amount y)) s
def execMin (u : Bool) (d a b : SQ) (s : State) : Res := alu2 0x0E d a b (minWord u) s
def execMax (u : Bool) (d a b : SQ) (s : State) : Res := alu2 0x0F d a b (maxWord u) s

/-! ## 0x10 to 0x1F -/

def execAddi (d a : SQ) (imm : BitVec 32) (s : State) : Res := alu1 0x10 d a (fun x => x + imm.signExtend 64) s
def execAndi (d a : SQ) (imm : BitVec 32) (s : State) : Res := alu1 0x11 d a (fun x => x &&& imm.signExtend 64) s
def execOri (d a : SQ) (imm : BitVec 32) (s : State) : Res := alu1 0x12 d a (fun x => x ||| imm.signExtend 64) s
def execXori (d a : SQ) (imm : BitVec 32) (s : State) : Res := alu1 0x13 d a (fun x => x ^^^ imm.signExtend 64) s
def execShli (d a : SQ) (n : BitVec 6) (s : State) : Res := alu1 0x14 d a (fun x => x <<< n.toNat) s
def execShri (d a : SQ) (n : BitVec 6) (s : State) : Res := alu1 0x15 d a (fun x => x >>> n.toNat) s
def execSrai (d a : SQ) (n : BitVec 6) (s : State) : Res := alu1 0x16 d a (fun x => x.sshiftRight n.toNat) s
def execCmpi (c : ICond) (d a : SQ) (imm : BitVec 32) (s : State) : Res :=
  alu1 0x17 d a (fun x => boolWord (icond 64 c x.toNat (imm.signExtend 64).toNat)) s
def execMovi (d : SQ) (imm : BitVec 32) (s : State) : Res :=
  instr 8 (do
    namesQ 0x18 [(10, d)]
    wrQ d (imm.signExtend 64)) s
def execBext (sg : Bool) (d a : SQ) (pos : BitVec 6) (len : BitVec 7) (s : State) : Res :=
  alu1 0x19 d a (fun x => bitField sg x pos.toNat len.toNat) s
def execBins (d : SReg) (a : SQ) (pos : BitVec 6) (len : BitVec 7) (s : State) : Res :=
  instr 8 (do
    namesQ 0x1A [(10, .s d), (17, a)]
    let y ← rdQ a
    let x ← rdS d
    wrS d (putField x y pos.toNat len.toNat)) s
def execClz (d a : SQ) (s : State) : Res := alu1 0x1B d a (fun x => BitVec.ofNat 64 (leadingZeros x.toNat)) s
def execCtz (d a : SQ) (s : State) : Res := alu1 0x1C d a (fun x => BitVec.ofNat 64 (lowestOne x.toNat 64)) s
def execPopc (d a : SQ) (s : State) : Res := alu1 0x1D d a (fun x => BitVec.ofNat 64 (onesIn x.toNat 64)) s
def execCmp (c : ICond) (d a b : SQ) (s : State) : Res :=
  alu2 0x1E d a b (fun x y => boolWord (icond 64 c x.toNat y.toNat)) s
def execSel (d a b c : SQ) (s : State) : Res := alu3 0x1F d a b c (fun x y z => if z ≠ 0 then x else y) s

/-! ## Long immediates (R336, R381, R385, R436, R349) -/

def execMovw (d : SReg) (imm : Word) (s : State) : Res :=
  instr 12 (do
    names 0xF0 [(10, d)]
    wrS d imm) s
def execAddiFx (d : SReg) (imm : Word) (s : State) : Res := aluFx 0xF1 d (fun x => x + imm) s
def execAndiFx (d : SReg) (imm : Word) (s : State) : Res := aluFx 0xF2 d (fun x => x &&& imm) s
def execOriFx (d : SReg) (imm : Word) (s : State) : Res := aluFx 0xF3 d (fun x => x ||| imm) s
def execXoriFx (d : SReg) (imm : Word) (s : State) : Res := aluFx 0xF4 d (fun x => x ^^^ imm) s
def execCmpiFe (c : ICond) (d a : SReg) (imm : Word) (s : State) : Res :=
  instr 16 (do
    names 0xFF [(10, d), (17, a)]
    let x ← rdS a
    wrS d (boolWord (icond 64 c x.toNat imm.toNat))) s

end Sys2Proof.Machine
end

