-- ==== Sys2Proof/Machine/Control.lean ====
section
/-! DEFINITION. Sys2Proof/Machine/Control.lean: branches, calls, returns, loops, `nop` forms, `yield`, and the register
window (R52, R53, R341, R343, R344, R366, R371, R384, R394, R435, R437). -/
namespace Sys2Proof.Machine

/-! ## The register window (R52, R53) -/

/-- Stack indices that read zero after they enter the store. -/
def zeroStack (c : Ctx) (lo n : Nat) : Ctx :=
  { c with stack := (List.range n).foldl (fun acc i => Cells.set 0 acc (lo + i) 0) c.stack }
/-- The window shift of a call (R52): cause 0x08 with 1 at the stack limit, 0 when a spill is needed. -/
def shiftUp : M Unit := do
  let s ← get
  let c := s.me
  if 65536 < c.wb + 40 then trapM 8 1
  else if c.lo + s.myGroup.r < c.wb + 40 then trapM 8 0
  else modMe fun c => zeroStack { c with wb := c.wb + 16 } (c.wb + 24) 16
/-- The window shift of a return (R52): cause 0x09 with 1 below the first frame, 0 when a fill is needed. -/
def shiftDown : M Unit := do
  let c ← me
  if c.wb < 16 then trapM 9 1
  else if c.wb - 16 < c.lo then trapM 9 0
  else modMe fun c => { c with wb := c.wb - 16 }

/-! ## Branches (R341, R343, R366, R371) -/

/-- Target of an FB branch: A + 4·sext(offset). -/
def branchTarget (pc : Word) (off : BitVec 32) : Word := pc + (off.signExtend 64) <<< 2
/-- Branch when a condition holds, else go on at A + 8. -/
def branchIf (taken : Bool) (off : BitVec 32) : M Unit := do
  let c ← me
  if taken then jumpTo (branchTarget c.pc off) else advance 8

def execBr (off : BitVec 32) (s : State) : Res := runInstr 8 (branchIf true off) s
def execBcnd (c : ICond) (a b : SReg) (off : BitVec 32) (s : State) : Res :=
  runInstr 8 (do
    names 0x31 [(10, a), (17, b)]
    let x ← rdS a
    let y ← rdS b
    branchIf (icond 64 c x.toNat y.toNat) off) s
def execBmask (c : MCond) (a : MReg) (b : SReg) (off : BitVec 32) (s : State) : Res :=
  runInstr 8 (do
    names 0x32 [(17, b)]
    let n ← rdS b
    let m ← rdM a
    branchIf (mcond c m (if b = 0 then 128 else laneCount n)) off) s
def execJr (a : SReg) (s : State) : Res :=
  runInstr 8 (do
    names 0x36 [(17, a)]
    jumpTo (← rdS a)) s
def execLoop (a : SReg) (off : BitVec 32) (s : State) : Res :=
  runInstr 8 (do
    names 0x37 [(10, a)]
    let x ← rdS a
    wrS a (x - 1)
    branchIf (x - 1 ≠ 0) off) s
def execBrAbs (target : Word) (s : State) : Res := runInstr 12 (jumpTo target) s

/-! ## Calls and returns (R344, R394) -/

/-- The effect of a call of length n to t. -/
def callM (t : Word) (n : Nat) : M Unit := do
  let a := (← me).pc
  shiftUp
  wrS 31 (a + BitVec.ofNat 64 n)
  jumpTo t
def execCall (off : BitVec 32) (s : State) : Res := runInstr 8 (do callM (branchTarget (← me).pc off) 8) s
def execCallAbs (target : Word) (s : State) : Res := runInstr 12 (callM target 12) s
def execCallr (a : SReg) (s : State) : Res :=
  runInstr 8 (do
    names 0x34 [(17, a)]
    callM (← rdS a) 8) s
/-- `ret` (R394): the return address is s31 of the current frame. -/
def retM : M Unit := do
  let t ← rdS 31
  shiftDown
  jumpTo t
def execRet (s : State) : Res := runInstr 8 retM s

/-! ## Hints (R384, R437) -/

def execNop (s : State) : Res := instr 8 (pure ()) s
def execNopW (s : State) : Res := instr 12 (pure ()) s
def execNopX (s : State) : Res := instr 16 (pure ()) s
def execYield (s : State) : Res := instr 8 (pure ()) s

/-! ## Spill and fill (R53, R435) -/

/-- Private-window address of the spill home of a stack index (R50). -/
def spillHome (j : Nat) : Word := BitVec.ofNat 64 (0xB * 2 ^ 60 + 8 * j)
/-- The sixteen words of a spill line as one number. -/
def spillLine (c : Ctx) (lo : Nat) : Nat :=
  (List.range 16).foldl (fun acc i => acc + (Cells.get 0 c.stack (lo + i)).toNat * 2 ^ (64 * i)) 0
/-- Stack indices lo to lo + 15 from a line. -/
def unspill (c : Ctx) (lo v : Nat) : Ctx :=
  { c with stack := (List.range 16).foldl (fun acc i =>
      Cells.set 0 acc (lo + i) (BitVec.ofNat 64 (v / 2 ^ (64 * i)))) c.stack }
/-- `wspill`: legal when lo ≤ wb. No register field is at fault: the record names field bit 0, as for `wfill` (DESIGN CHOICE, log 57). -/
def execWspill (s : State) : Res :=
  instr 8 (do
    level 1
    let c ← me
    let r := (← myGroup).r
    if c.wb < c.lo then illegal 4 0 0x3B
    else if (List.range 16).any fun i => c.late.contains (.s (8 + c.lo + i)) then spend
    else
      storeM 128 7 none [(0, spillHome c.lo, spillLine c c.lo)]
      modMe fun c => zeroStack { c with lo := c.lo + 16 } (c.lo + r) 16) s
/-- `wfill`: legal when lo ≥ 16. The discarded indices are no longer in the store; the return address of the frame
whose `ret` took the fill trap stays readable to that `ret` (R53, example; log 12). -/
def execWfill (s : State) : Res :=
  instr 8 (do
    level 1
    let c ← me
    if c.lo < 16 then illegal 4 0 0x3C
    else
      let vs ← loadM 128 none [(0, spillHome (c.lo - 16))]
      modMe fun c => unspill { c with lo := c.lo - 16 } (c.lo - 16) ((vs.map (·.2)).getD 0 0)) s

end Sys2Proof.Machine
end

