-- ==== Sys2Proof/Machine/Home.lean ====
section
/-! DEFINITION. Sys2Proof/Machine/Home.lean: what a home does with a request: where a place lies there (R114, R115), atomics
(R337, R412), stores, sub-byte stores (R403), line states (R118), and the answers (R231). -/
namespace Sys2Proof.Machine

/-! ## Places at their home -/

/-- Where a place lies at its home. -/
inductive At where
  | key (k : Nat)
  | ctr (core launch : Nat) (k : KReg)
  | absent
  | refused
  | outside
deriving DecidableEq, Repr

/-- The group whose partition a peer access reaches (R114): the accessor's launch on the own panel; for another panel the
bound launch of the tenant, else its most recently bound resident partition, else one that has been evicted. -/
def State.peerGroup (s : State) (a : Actor) (core : Nat) : Option Group :=
  if a.panel = s.myPanel then s.launchGroup core a.who.launch
  else
    let c := s.core core
    if c.group.launch ≠ 0 && c.group.tenant = a.tenant then some c.group
    else
      let gs := c.saved.filter fun g => g.tenant == a.tenant
      let best (gs : List Group) : Option Group := gs.find? fun g => gs.all fun h => h.boundSeq ≤ g.boundSeq
      match best (gs.filter fun g => !g.absent) with
      | some g => some g
      | none => best gs
/-- Where byte `byte` of a place lies, for an access of an actor. A place on an invalid chiplet is outside (R23). -/
def State.locate (s : State) (a : Actor) (write : Bool) (p : Place) (byte : Nat) : At :=
  match p with
  | .peer _ core off =>
    if a.panel ≠ s.myPanel && !s.tables.chipValid (chipOf core) then .outside
    else (match s.peerGroup a core with
     | none => .refused
     | some g =>
       if isAlias off then
         let k := (off + byte - 0x200000) / 8
         if g.cmask.getLsbD k then .ctr core g.launch (BitVec.ofNat 6 k) else .refused
       else if g.absent then .absent
       else if g.part * 2 ^ 18 ≤ off then .refused
       else .key (scratchKey core (gmapOff g.gmap off)))
  | .vault q chip off =>
    if a.panel ≠ s.myPanel && !s.tables.chipValid chip then .outside
    else if s.tables.vaultRefused a.tenant chip off write then .refused
    else (match s.keyOf (.vault q chip off) with
      | some k => .key k
      | none => .refused)
  | p => (match s.keyOf p with
    | some k => .key k
    | none => .refused)

/-! ## Atomics (R337, R412) -/

/-- The float format of an atomic of n bytes. -/
def amoFmt (n : Nat) : FFmt := if n = 8 then fmtF64 else if n = 4 then fmtF32 else fmtBf16
/-- The new value of an atomic of n bytes; none when a `.cas` fails. -/
def amoNew (op : AmoOp) (n x y e : Nat) : Option Nat :=
  let w := 8 * n
  let x := x % 2 ^ w
  let y := y % 2 ^ w
  match op with
  | .add => some ((x + y) % 2 ^ w)
  | .and => some (Nat.land x y)
  | .or => some (Nat.lor x y)
  | .xor => some (Nat.xor x y)
  | .max => some (if ival true w x ≤ ival true w y then y else x)
  | .min => some (if ival true w x ≤ ival true w y then x else y)
  | .maxu => some (if x ≤ y then y else x)
  | .minu => some (if x ≤ y then x else y)
  | .swap => some y
  | .cas => if x = e % 2 ^ w then some y else none
  | .fadd => some (fAdd (amoFmt n) .rne false 0 x y).bits
  | .fmax => some (fMinMax (amoFmt n) true x y)
  | .fmin => some (fMinMax (amoFmt n) false x y)

/-- The line that holds a value of n bytes at a byte. -/
def valLine (byte n v : Nat) : Line := BitVec.ofNat 1024 (v % 256 ^ n * 256 ^ byte)
/-- One lane of an atomic at a key: the old value is given. -/
def State.atomAt (s : State) (op : AmoOp) (n k : Nat) (l : AtomLane) (r : Option Rel) : State × Word :=
  let x := s.store.num (k + l.byte) n
  match amoNew op n x l.x.toNat l.y.toNat with
  | some v => (s.writeHome k (maskOf l.byte n) (valLine l.byte n v) r, BitVec.ofNat 64 x)
  | none => (s, BitVec.ofNat 64 x)
/-- Whether the atomic of a lane writes. -/
def State.atomWrites (s : State) (op : AmoOp) (n k : Nat) (l : AtomLane) : Bool :=
  (amoNew op n (s.store.num (k + l.byte) n) l.x.toNat l.y.toNat).isSome
/-- The key of a lane; lanes at counters are refused before a request is made (R113). -/
def State.laneKey (s : State) (a : Actor) (l : AtomLane) : Option Nat :=
  match s.locate a true l.place l.byte with
  | .key k => some k
  | _ => none
/-- The lowest conflict of the lanes of an atomic (R141). -/
def State.atomConflict (s : State) (a : Actor) (op : AmoOp) (n : Nat) (ls : List AtomLane) : Option Nat :=
  (ls.filterMap fun l =>
    if l.checked then
      match s.laneKey a l with
      | some k => (s.store.conflictIn a (s.atomWrites op n k l) false k (maskOf l.byte n)).map fun w => l.va - l.byte + 4 * w
      | none => none
    else none).min?
/-- The first poisoned lane (R290). -/
def State.atomPoison (s : State) (a : Actor) (n : Nat) (ls : List AtomLane) : Option Nat :=
  (ls.filterMap fun l =>
    match s.laneKey a l with
    | some k => if s.store.readsPoison k (maskOf l.byte n) then some l.va else none
    | none => none).min?
/-- Perform the lanes in order, with their marks. -/
def State.atomAll (s : State) (a : Actor) (op : AmoOp) (n : Nat) (r : Option Rel) :
    List AtomLane → State × List (Nat × Word) × List Rel
  | [] => (s, [], [])
  | l :: t =>
    match s.laneKey a l with
    | none => s.atomAll a op n r t
    | some k =>
      let m := maskOf l.byte n
      let s := if l.checked then { s with store := s.store.addMarks a (s.atomWrites op n k l) false k m } else s
      let rels := s.store.relsOf k m
      let (s, x) := s.atomAt op n k l r
      let (s, xs, rs) := s.atomAll a op n r t
      (s, (l.lane, x) :: xs, rels ++ rs)
/-- The releases that the words of the lanes carry. -/
def State.laneRels (s : State) (a : Actor) (n : Nat) (ls : List AtomLane) : List Rel :=
  ls.flatMap fun l => match s.laneKey a l with
    | some k => s.store.relsOf k (maskOf l.byte n)
    | none => []
/-- A whole atomic at the home: every lane or none (R412). -/
def State.homeAtomic (s : State) (a : Actor) (op : AmoOp) (n : Nat) (acq : Option Scope) (r : Option Rel) (ls : List AtomLane) :
    State × Answer :=
  match s.atomConflict (acquiring a acq (s.laneRels a n ls)) op n ls with
  | some va => (s, .conflict (BitVec.ofNat 64 va))
  | none =>
    match s.atomPoison a n ls with
    | some va => (s, .poisoned (BitVec.ofNat 64 va))
    | none =>
      let (s, xs, rels) := s.atomAll a op n r ls
      (s, .old xs rels)

/-- The new value of an element under an operation of a crier's kind 2, with its operand and its compare operand or divisor
(R219), and whether an integer saturated; none when a compare fails. -/
def firedNew (op x y z : Nat) : Option Nat × Bool :=
  match op with
  | 0 => (some ((x + y) % 2 ^ 32), false)
  | 1 => (some (fAdd fmtF32 .rne false 0 x y).bits, false)
  | 2 => (some (fAdd fmtBf16 .rne false 0 x y).bits, false)
  | 3 => (some (fMinMax fmtF32 true x y), false)
  | 4 => (some (fMinMax fmtF32 false x y), false)
  | 5 => (some (if ival true 32 x ≤ ival true 32 y then y else x), false)
  | 6 => (some (if ival true 32 x ≤ ival true 32 y then x else y), false)
  | 7 => (some (ibits 32 (satI true 32 (ival true 32 x + ival true 32 y))), !inI true 32 (ival true 32 x + ival true 32 y))
  | 8 => (some (fDivV fmtF32 .rne false 0 (fval fmtF32 x) (.num false z 0)).bits, false)
  | 9 => (some y, false)
  | _ => (if x = z then some y else none, false)
/-- A fired atomic at its home, element by element in ascending order, each performed and its conflict reported (R142, R219); with an
acquiring order what an element observes happens before it (R137). -/
def State.homeFired (s : State) (a : Actor) (op n : Nat) (acq : Bool) (r : Option Rel) : List AtomLane → State
  | [] => s
  | l :: t =>
    match s.laneKey a l with
    | none => s.homeFired a op n acq r t
    | some k =>
      let m := maskOf l.byte n
      let a := if acq then acquiring a (some .pod) (s.store.relsOf k m) else a
      let (v, sat) := firedNew op (s.store.num (k + l.byte) n) (l.x.toNat % 256 ^ n) l.y.toNat
      let s := match (if l.checked then s.store.conflictIn a v.isSome false k m else none) with
        | some w => s.report a.who ⟨0x14, BitVec.ofNat 64 (l.va - l.byte + 4 * w), false, none⟩
        | none => s
      let s := if l.checked then { s with store := s.store.addMarks a v.isSome false k m } else s
      let s := if sat then s.eventOf a.who 4 1 else s
      (match v with
       | some v => s.writeHome k m (valLine l.byte n v) r
       | none => s).homeFired a op n acq r t

/-! ## Sub-byte stores and line states (R403, R118) -/

/-- `stn` at a key: one read-modify-write of a byte. -/
def State.homeNibble (s : State) (k byte pos width : Nat) (v : Byte) (r : Option Rel) : State :=
  let x := (s.store.mem.read (k + byte)).toNat
  let m := (2 ^ width - 1) * 2 ^ pos
  let y := x - Nat.land x m + v.toNat % 2 ^ width * 2 ^ pos
  s.writeHome k (maskOf byte 1) (valLine byte 1 y) r
/-- `fset` and `fclr` at a key: the state, the release of an `fset`, the waiter test (R119, R151). -/
def State.homeSetLine (s : State) (k : Nat) (full : Bool) (r : Option Rel) : State :=
  let s := if full then { s with store := s.store.setLineRel k r } else s
  s.setLineState k (!full)

/-! ## Requests (R231, R123) -/

/-- The places that an operation touches, with the bytes it touches, and whether it writes. -/
def opParts : MemOp → List Part
  | .fill _ ps => ps
  | .load ps => ps
  | .store ps => ps
  | .atomic _ n _ ls => ls.map fun l => ⟨l.place, l.va - l.byte, maskOf l.byte n, 0, l.checked, []⟩
  | .fired _ n _ ls => ls.map fun l => ⟨l.place, l.va - l.byte, maskOf l.byte n, 0, l.checked, []⟩
  | .nibble p byte _ _ _ => [{ p with mask := maskOf byte 1 }]
  | .setLine ps _ => ps.map fun p => { p with mask := 0 }
  | .maint _ ps => ps
def opWrites : MemOp → Bool
  | .fill _ _ => false
  | .load _ => false
  | .maint _ _ => false
  | _ => true
def opReads : MemOp → Bool
  | .store _ => false
  | .setLine _ _ => false
  | .maint _ _ => false
  | _ => true

/-- The first place of an operation that is absent, and the first refused one with its address. -/
def State.anyAbsent (s : State) (m : MemMsg) : Bool :=
  (opParts m.op).any fun p => s.locate m.actor (opWrites m.op) p.place 0 == .absent
def State.firstRefused (s : State) (m : MemMsg) : Option Nat :=
  (opParts m.op).findSome? fun p =>
    if s.locate m.actor (opWrites m.op) p.place (lowByte p.mask) = .refused then some (p.va + lowByte p.mask) else none

def State.firstOutside (s : State) (m : MemMsg) : Option Nat :=
  (opParts m.op).findSome? fun p =>
    if s.locate m.actor (opWrites m.op) p.place (lowByte p.mask) = .outside then some (p.va + lowByte p.mask) else none

/-- Write a part at its home: the words that it names carry the releases that it names, else all carry one (R137). -/
def State.writePart (s : State) (k : Nat) (p : Part) (r : Option Rel) : State :=
  let s := s.writeHome k p.mask p.data r
  if p.rels.isEmpty then s
  else { s with store := p.rels.foldl (fun st q => st.setRels k (maskOf (4 * q.1) 4) (some q.2)) s.store }
/-- Perform the parts of a store at their homes; 8-byte groups at counter aliases are increments (R113). -/
def State.homeStore (s : State) (a : Actor) (r : Option Rel) : List Part → State
  | [] => s
  | p :: t =>
    (match s.locate a true p.place (lowByte p.mask) with
     | .key k => s.writePart k p r
     | .ctr core launch k =>
       s.post (.counterIncrement ⟨core, launch, k, BitVec.ofNat 64 (lineNat p.data (lowByte p.mask) 8), r, none, a.tenant, a.tgen⟩)
     | _ => s).homeStore a r t
/-- Read the parts of a load, with the releases that their words carry; an alias reads the counter. -/
def State.homeLoad (s : State) (a : Actor) (ps : List Part) : List Part :=
  ps.map fun p =>
    match s.locate a false p.place (lowByte p.mask) with
    | .key k => { p with data := s.store.line k, rels := s.store.relPairs k p.mask }
    | .ctr core launch k =>
      let v := match s.launchGroup core launch with
        | some g => (g.kval k).toNat
        | none => 0
      { p with data := valLine (lowByte p.mask) 8 v }
    | _ => p
/-- The first part of a load that reads poison; a fill carries its poison mark on (R391). -/
def State.loadPoison (s : State) (a : Actor) (ps : List Part) : Option Nat :=
  ps.findSome? fun p =>
    match s.locate a false p.place (lowByte p.mask) with
    | .key k => if s.store.readsPoison k p.mask then some (p.va + lowByte p.mask) else none
    | _ => none
/-- The empty scratchpad line that a load waits for at a peer (R117), as a synchronising access. -/
def State.loadWaits (s : State) (a : Actor) (ps : List Part) : Option Nat :=
  ps.findSome? fun p =>
    match p.place, s.locate a false p.place (lowByte p.mask) with
    | .peer _ _ _, .key k => if s.store.isEmpty k then some k else none
    | _, _ => none

/-- Maintenance of a list of keys by a step that counts. -/
def maintAll (f : State → Nat → State × Nat) : List Nat → State × Nat → State × Nat
  | [], p => p
  | k :: t, p => let (s, n) := f p.1 k; maintAll f t (s, p.2 + n)
/-- Perform an operation at its home. -/
def State.homeOp (s : State) (m : MemMsg) : State × Answer :=
  match m.op with
  | .fill _ ps => (s, .data (s.homeLoad m.actor ps) [])
  | .load ps =>
    (match s.loadPoison m.actor ps with
     | some va => (s, .poisoned (BitVec.ofNat 64 va))
     | none => (s, .data (s.homeLoad m.actor ps) []))
  | .store ps => (s.homeStore m.actor m.rel ps, .ack none)
  | .atomic op n acq ls => s.homeAtomic m.actor op n acq m.rel ls
  | .fired op n acq ls => (s.homeFired m.actor op n acq m.rel ls, if acq then .old [] (s.laneRels m.actor n ls) else .ack none)
  | .nibble p byte pos w v =>
    (match s.locate m.actor true p.place byte with
     | .key k =>
       (match (if p.checked then s.store.conflictIn m.actor true false k (maskOf byte 1) else none) with
        | some w => (s, .conflict (BitVec.ofNat 64 (p.va + 4 * w)))
        | none =>
          let s := if p.checked then { s with store := s.store.addMarks m.actor true false k (maskOf byte 1) } else s
          (s.homeNibble k byte pos w v m.rel, .ack none))
     | _ => (s, .ack none))
  | .setLine ps full =>
    (ps.foldl (fun s p => match s.locate m.actor true p.place 0 with
      | .key k => s.homeSetLine k full m.rel
      | _ => s) s, .ack none)
  | .maint inv ps =>
    let p := maintAll (fun s k => s.maintSlice none inv k) ((ps.filterMap fun p => (s.keyOf p.place).map fun k => k / 256 * 256).eraseDups)
      (s, 0)
    (p.1, .old [(0, BitVec.ofNat 64 p.2)] [])

/-- Send a reply of an endpoint to where a request came from. -/
def State.replyTo (s : State) (src : Nat) (a : Actor) (id : Nat) (posted : Bool) (epoch : Option Nat) (ans : Answer) : State :=
  let e : Event := .replyData ⟨a.who, id, a.engine, a.tgen, ans, epoch, posted, src⟩
  if a.panel = s.myPanel then s.post e else s.sendOut a.panel e

end Sys2Proof.Machine
end

