-- ==== Sys2Proof/Machine/Float.lean ====
section
/-! DEFINITION. Sys2Proof/Machine/Float.lean: scalar float instructions (R358, R360, R361). -/
namespace Sys2Proof.Machine

/-- The random word of a scalar instruction: one output, its low half (R164). -/
def rngOne (rm : Rm) : M Nat := do return (← rngTake rm 1) 0

/-- A float operation of two operands (R358). -/
def fop2 (op : Nat) (f : FFmt) (rm : Rm) (sat : Bool) (d a b : SQ)
    (g : FFmt → Rm → Bool → Nat → Nat → Nat → NRes) (put : SQ → Word → M Unit) (s : State) : Res :=
  instr 8 (do
    namesQ op [(10, d), (17, a), (24, b)]
    let x ← rdQ a
    let y ← rdQ b
    let r := g f rm sat (← rngOne rm) x.toNat y.toNat
    settle [(0, r)]
    put d (BitVec.ofNat 64 r.bits)) s
/-- Fused multiply-add (R358). -/
def fop3 (op : Nat) (f : FFmt) (rm : Rm) (sat : Bool) (d a b c : SQ) (s : State) : Res :=
  instr 8 (do
    namesQ op [(10, d), (17, a), (24, b), (31, c)]
    let x ← rdQ a
    let y ← rdQ b
    let z ← rdQ c
    let r := fFma f rm sat (← rngOne rm) x.toNat y.toNat z.toNat
    settle [(0, r)]
    wrQ d (BitVec.ofNat 64 r.bits)) s
/-- Square root (R358). -/
def fop1 (op : Nat) (f : FFmt) (rm : Rm) (sat : Bool) (d a : SQ) (s : State) : Res :=
  instr 8 (do
    namesQ op [(10, d), (17, a)]
    let x ← rdQ a
    let r := fSqrt f rm sat (← rngOne rm) x.toNat
    settle [(0, r)]
    wrQLate d (BitVec.ofNat 64 r.bits)) s

def execFaddF32 (rm : Rm) (sat : Bool) (d a b : SQ) (s : State) : Res := fop2 0x20 fmtF32 rm sat d a b fAdd wrQ s
def execFaddF64 (rm : Rm) (sat : Bool) (d a b : SQ) (s : State) : Res := fop2 0x21 fmtF64 rm sat d a b fAdd wrQ s
def execFsubF32 (rm : Rm) (sat : Bool) (d a b : SQ) (s : State) : Res := fop2 0x22 fmtF32 rm sat d a b fSub wrQ s
def execFsubF64 (rm : Rm) (sat : Bool) (d a b : SQ) (s : State) : Res := fop2 0x23 fmtF64 rm sat d a b fSub wrQ s
def execFmulF32 (rm : Rm) (sat : Bool) (d a b : SQ) (s : State) : Res := fop2 0x24 fmtF32 rm sat d a b fMul wrQ s
def execFmulF64 (rm : Rm) (sat : Bool) (d a b : SQ) (s : State) : Res := fop2 0x25 fmtF64 rm sat d a b fMul wrQ s
def execFfmaF32 (rm : Rm) (sat : Bool) (d a b c : SQ) (s : State) : Res := fop3 0x26 fmtF32 rm sat d a b c s
def execFfmaF64 (rm : Rm) (sat : Bool) (d a b c : SQ) (s : State) : Res := fop3 0x27 fmtF64 rm sat d a b c s
def execFdivF32 (rm : Rm) (sat : Bool) (d a b : SQ) (s : State) : Res := fop2 0x28 fmtF32 rm sat d a b fDiv wrQLate s
def execFdivF64 (rm : Rm) (sat : Bool) (d a b : SQ) (s : State) : Res := fop2 0x29 fmtF64 rm sat d a b fDiv wrQLate s
def execFsqrtF32 (rm : Rm) (sat : Bool) (d a : SQ) (s : State) : Res := fop1 0x2A fmtF32 rm sat d a s
def execFsqrtF64 (rm : Rm) (sat : Bool) (d a : SQ) (s : State) : Res := fop1 0x2B fmtF64 rm sat d a s

def execFmin (t : ElemTy) (d a b : SQ) (s : State) : Res :=
  alu2 0x2C d a b (fun x y => BitVec.ofNat 64 (fMinMax (fltOf t) false x.toNat y.toNat)) s
def execFmax (t : ElemTy) (d a b : SQ) (s : State) : Res :=
  alu2 0x2D d a b (fun x y => BitVec.ofNat 64 (fMinMax (fltOf t) true x.toNat y.toNat)) s
def execFcmp (t : ElemTy) (c : FCond) (d a b : SQ) (s : State) : Res :=
  alu2 0x2E d a b (fun x y => boolWord (fcond (fltOf t) c x.toNat y.toNat)) s

/-- An element written to a scalar register (R154): sign-extended for signed integers, zero-extended otherwise. -/
def extendTy (t : ElemTy) (x : Nat) : Word :=
  match numFmt t with
  | .int sg w => BitVec.ofInt 64 (ival sg w x)
  | .flt f => BitVec.ofNat 64 (x % 2 ^ f.w)

def execFcvt (dt st : ElemTy) (om : Om) (rm : Rm) (d a : SQ) (s : State) : Res :=
  instr 8 (do
    namesQ 0x2F [(10, d), (17, a)]
    let x ← rdQ a
    let r := convert dt st om rm x.toNat (← rngOne rm)
    settle [(0, r)]
    wrQ d (extendTy dt r.bits)) s

end Sys2Proof.Machine
end

