-- ==== Sys2Proof/Machine/Vector.lean ====
section
/-! DEFINITION. Sys2Proof/Machine/Vector.lean: element-wise vector instructions (R411, R414 to R416, R418, R419,
R423 to R426). -/
namespace Sys2Proof.Machine

/-! ## Shared shapes -/

/-- Lanes of a type (R54). -/
def lanesOf (t : ElemTy) : Nat := 1024 / t.lane
/-- One source. A held destination is found before any access (R410). -/
def vec1 (t : ElemTy) (k : VMask) (d a : VQ) (put : VQ → Line → M Unit) (rm : Rm) (f : Nat → Nat → NRes)
    (s : State) : Res :=
  instr 8 (do
    freshVQ d
    let x ← rdVQ a
    let rw ← rngTake rm (lanesOf t)
    vecOp t.lane (lanesOf t) k d put fun i => f (rw i) (laneNat x t.lane i)) s
/-- Two sources. -/
def vec2 (t : ElemTy) (k : VMask) (d a b : VQ) (put : VQ → Line → M Unit) (rm : Rm) (f : Nat → Nat → Nat → NRes)
    (s : State) : Res :=
  instr 8 (do
    freshVQ d
    let x ← rdVQ a
    let y ← rdVQ b
    let rw ← rngTake rm (lanesOf t)
    vecOp t.lane (lanesOf t) k d put fun i => f (rw i) (laneNat x t.lane i) (laneNat y t.lane i)) s
/-- Three sources. -/
def vec3 (t : ElemTy) (k : VMask) (d a b c : VQ) (rm : Rm) (f : Nat → Nat → Nat → Nat → NRes) (s : State) : Res :=
  instr 8 (do
    freshVQ d
    let x ← rdVQ a
    let y ← rdVQ b
    let z ← rdVQ c
    let rw ← rngTake rm (lanesOf t)
    vecOp t.lane (lanesOf t) k d wrVQ fun i =>
      f (rw i) (laneNat x t.lane i) (laneNat y t.lane i) (laneNat z t.lane i)) s

/-- An exact integer result in a type: clamped with the event, or wrapped (R411). -/
def intRes (t : ElemTy) (sat : Bool) (e : Int) : NRes :=
  if sat then (if inI (isSignedTy t) t.bits e then .ok (ibits t.bits e) none
               else .ok (ibits t.bits (satI (isSignedTy t) t.bits e)) (some 4))
  else .ok (ibits t.bits e) none
/-- A lane as an integer of its type. -/
def laneInt (t : ElemTy) (x : Nat) : Int := ival (isSignedTy t) t.bits x
/-- A result without an event. -/
def plainRes (x : Nat) : NRes := .ok x none

/-- Integer operations of two lanes. -/
def intOp2 (t : ElemTy) (sat : Bool) (g : Int → Int → Int) (_rw x y : Nat) : NRes :=
  intRes t sat (g (laneInt t x) (laneInt t y))
/-- Float operations of two lanes. -/
def fltOp2 (t : ElemTy) (rm : Rm) (sat : Bool) (g : FFmt → Rm → Bool → Nat → Nat → Nat → NRes) (rw x y : Nat) : NRes :=
  g (fltOf t) rm sat rw x y
/-- Bitwise operations of two lanes. -/
def bitOp2 (g : Nat → Nat → Nat) (_rw x y : Nat) : NRes := .ok (g x y) none

/-! ## 0x40 to 0x4F -/

def execVaddI (t : ElemTy) (sat : Bool) (m : VMask) (d a b : VQ) (s : State) : Res :=
  vec2 t m d a b wrVQ .rne (intOp2 t sat fun x y => x + y) s
def execVaddF (t : ElemTy) (rm : Rm) (sat : Bool) (m : VMask) (d a b : VQ) (s : State) : Res :=
  vec2 t m d a b wrVQ rm (fltOp2 t rm sat fAdd) s
def execVsubI (t : ElemTy) (sat : Bool) (m : VMask) (d a b : VQ) (s : State) : Res :=
  vec2 t m d a b wrVQ .rne (intOp2 t sat fun x y => x - y) s
def execVsubF (t : ElemTy) (rm : Rm) (sat : Bool) (m : VMask) (d a b : VQ) (s : State) : Res :=
  vec2 t m d a b wrVQ rm (fltOp2 t rm sat fSub) s
def execVmulI (t : ElemTy) (sat : Bool) (m : VMask) (d a b : VQ) (s : State) : Res :=
  vec2 t m d a b wrVQ .rne (intOp2 t sat fun x y => x * y) s
def execVmulF (t : ElemTy) (rm : Rm) (sat : Bool) (m : VMask) (d a b : VQ) (s : State) : Res :=
  vec2 t m d a b wrVQ rm (fltOp2 t rm sat fMul) s
def execVfmaI (t : ElemTy) (sat : Bool) (m : VMask) (d a b c : VQ) (s : State) : Res :=
  vec3 t m d a b c .rne (fun _ x y z => intRes t sat (laneInt t x * laneInt t y + laneInt t z)) s
def execVfmaF (t : ElemTy) (rm : Rm) (sat : Bool) (m : VMask) (d a b c : VQ) (s : State) : Res :=
  vec3 t m d a b c rm (fun rw x y z => fFma (fltOf t) rm sat rw x y z) s
def execVmaxI (t : ElemTy) (m : VMask) (d a b : VQ) (s : State) : Res :=
  vec2 t m d a b wrVQ .rne (intOp2 t false max) s
def execVmaxF (t : ElemTy) (m : VMask) (d a b : VQ) (s : State) : Res :=
  vec2 t m d a b wrVQ .rne (bitOp2 (fMinMax (fltOf t) true)) s
def execVminI (t : ElemTy) (m : VMask) (d a b : VQ) (s : State) : Res :=
  vec2 t m d a b wrVQ .rne (intOp2 t false min) s
def execVminF (t : ElemTy) (m : VMask) (d a b : VQ) (s : State) : Res :=
  vec2 t m d a b wrVQ .rne (bitOp2 (fMinMax (fltOf t) false)) s

/-- The mask that n lane conditions write (R416): inactive lanes kept, or zero under `.z`; bits n and above zero. -/
def maskOfLanes (n : Nat) (on : Nat → Bool) (z : Bool) (old : MaskW) (f : Nat → Bool) : MaskW :=
  (List.range n).foldl (fun acc i =>
    if (if on i then f i else if z then false else old.getLsbD i) then acc ||| (1#128 <<< i) else acc) 0
/-- Compare lanes into a mask (R416). -/
def vcmpM (t : ElemTy) (k : VMask) (d : MReg) (a b : VQ) (f : Nat → Nat → Bool) (s : State) : Res :=
  instr 8 (do
    let x ← rdVQ a
    let y ← rdVQ b
    let m ← rdMask k
    let old ← rdM d
    wrM d (maskOfLanes (lanesOf t) (laneOn m k.n) k.z old fun i => f (laneNat x t.lane i) (laneNat y t.lane i))) s
def execVcmpI (t : ElemTy) (c : ICond) (m : VMask) (d : MReg) (a b : VQ) (s : State) : Res :=
  vcmpM t m d a b (icond t.bits c) s
def execVcmpF (t : ElemTy) (c : FCond) (m : VMask) (d : MReg) (a b : VQ) (s : State) : Res :=
  vcmpM t m d a b (fcond (fltOf t) c) s

/-- A float lane with its sign changed by `g`; a NaN gives the canonical NaN (R411, R423). -/
def signOp (t : ElemTy) (g : Bool → Bool) (x : Nat) : NRes :=
  let f := fltOf t
  match fval f x with
  | .nan => .ok (nanOf f) none
  | _ => .ok (signed f (g (negBits f x)) (x % 2 ^ (f.w - 1))) none
def execVabs (t : ElemTy) (sat : Bool) (m : VMask) (d a : VQ) (s : State) : Res :=
  vec1 t m d a wrVQ .rne (fun _ x =>
    if t.isVInt then intRes t sat (laneInt t x).natAbs else signOp t (fun _ => false) x) s
def execVneg (t : ElemTy) (sat : Bool) (m : VMask) (d a : VQ) (s : State) : Res :=
  vec1 t m d a wrVQ .rne (fun _ x =>
    if t.isVInt then intRes t sat (-(laneInt t x)) else signOp t (fun n => !n) x) s

/-! ## 0x50 to 0x5F -/

/-- Integer division of a lane (R411): a zero divisor gives all ones; −2^(w−1) by −1 wraps. -/
def intDiv (t : ElemTy) (x y : Nat) : NRes :=
  if laneInt t y = 0 then .ok (2 ^ t.bits - 1) none else intRes t false ((laneInt t x).tdiv (laneInt t y))
def execVdiv (t : ElemTy) (rm : Rm) (sat : Bool) (m : VMask) (d a b : VQ) (s : State) : Res :=
  if t.isVInt then vec2 t m d a b wrVQLate .rne (fun _ x y => intDiv t x y) s
  else vec2 t m d a b wrVQLate rm (fltOp2 t rm sat fDiv) s
def execVsqrt (t : ElemTy) (rm : Rm) (sat : Bool) (m : VMask) (d a : VQ) (s : State) : Res :=
  vec1 t m d a wrVQLate rm (fun rw x => fSqrt (fltOf t) rm sat rw x) s
def execVrcp (t : ElemTy) (rm : Rm) (sat : Bool) (m : VMask) (d a : VQ) (s : State) : Res :=
  vec1 t m d a wrVQ rm (fun rw x => fRcp (fltOf t) rm sat rw x) s
def execVrsqrt (t : ElemTy) (rm : Rm) (sat : Bool) (m : VMask) (d a : VQ) (s : State) : Res :=
  vec1 t m d a wrVQ rm (fun rw x => fRsqrt (fltOf t) rm sat rw x) s
def execVexp2 (t : ElemTy) (rm : Rm) (sat : Bool) (m : VMask) (d a : VQ) (s : State) : Res :=
  vec1 t m d a wrVQ rm (fun rw x => fExp2 (fltOf t) rm sat rw x) s
def execVlog2 (t : ElemTy) (rm : Rm) (sat : Bool) (m : VMask) (d a : VQ) (s : State) : Res :=
  vec1 t m d a wrVQ rm (fun rw x => fLog2 (fltOf t) rm sat rw x) s

/-- One result lane of `vdot` (R418): k products of elements of type t are added to z and rounded once. -/
def dotLane (t : ElemTy) (rm : Rm) (sat : Bool) (rw : Nat) (x y z : Line) (i : Nat) : NRes :=
  let k := 32 / t.bits
  let el (l : Line) (j : Nat) : Nat := laneNat l t.bits (k * i + j)
  let zl := laneNat z 32 i
  if t.isVInt then
    intRes .i32 sat ((List.range k).foldl (fun acc j => acc + laneInt t (el x j) * laneInt t (el y j)) (laneInt .i32 zl))
  else
    let f := fltOf t
    toFlt fmtF32 (satMode sat) rm ((List.range k).foldl (fun acc j =>
      faddX rm acc (fmulX (fval f (el x j)) (fval f (el y j)))) (fval fmtF32 zl)) rw
def execVdot (t : ElemTy) (rm : Rm) (sat : Bool) (m : VMask) (d a b c : VQ) (s : State) : Res :=
  instr 8 (do
    freshVQ d
    let x ← rdVQ a
    let y ← rdVQ b
    let z ← rdVQ c
    let rw ← rngTake (if t.isVInt then .rne else rm) 32
    vecOp 32 32 m d wrVQ fun i => dotLane t rm sat (rw i) x y z i) s

/-- Shift lanes (R425): an amount of w or more gives zeros, or copies of the sign bit. -/
def shlLane (w : Nat) (_rw x y : Nat) : NRes := .ok (if w ≤ y then 0 else x * 2 ^ y % 2 ^ w) none
def shrLane (w : Nat) (_rw x y : Nat) : NRes := .ok (if w ≤ y then 0 else x / 2 ^ y) none
def sraLane (w : Nat) (_rw x y : Nat) : NRes := .ok (ibits w (ival true w x / 2 ^ min y w)) none
def execVand (t : ElemTy) (m : VMask) (d a b : VQ) (s : State) : Res := vec2 t m d a b wrVQ .rne (bitOp2 Nat.land) s
def execVor (t : ElemTy) (m : VMask) (d a b : VQ) (s : State) : Res := vec2 t m d a b wrVQ .rne (bitOp2 Nat.lor) s
def execVxor (t : ElemTy) (m : VMask) (d a b : VQ) (s : State) : Res := vec2 t m d a b wrVQ .rne (bitOp2 Nat.xor) s
def execVshl (t : ElemTy) (m : VMask) (d a b : VQ) (s : State) : Res := vec2 t m d a b wrVQ .rne (shlLane t.lane) s
def execVshr (t : ElemTy) (m : VMask) (d a b : VQ) (s : State) : Res := vec2 t m d a b wrVQ .rne (shrLane t.lane) s
def execVsra (t : ElemTy) (m : VMask) (d a b : VQ) (s : State) : Res := vec2 t m d a b wrVQ .rne (sraLane t.lane) s

def execVsel (t : ElemTy) (m : LMask) (d a b : VQ) (s : State) : Res :=
  instr 8 (do
    freshVQ d
    let x ← rdVQ a
    let y ← rdVQ b
    let k ← rdM m.m
    wrVQ d (ofLanes t.lane (lanesOf t) fun i =>
      if laneOn k m.n i then laneNat x t.lane i else laneNat y t.lane i)) s
def execVmov (t : ElemTy) (m : VMask) (d a : VQ) (s : State) : Res :=
  vec1 t m d a wrVQ .rne (fun _ x => plainRes x) s
/-- A scalar as a lane (R415): under e2m1 bits [3:0], the upper bits zero. -/
def laneVal (t : ElemTy) (x : Nat) : Nat := x % 2 ^ t.bits
def execVbcast (t : ElemTy) (m : VMask) (d : VQ) (a : SQ) (s : State) : Res :=
  instr 8 (do
    namesQ 0x5F [(17, a)]
    freshVQ d
    let x ← rdQ a
    vecOp t.lane (lanesOf t) m d wrVQ fun _ => .ok (laneVal t x.toNat) none) s
def execVbcastImm (d : VQ) (imm : Word) (s : State) : Res :=
  instr 12 (do
    freshVQ d
    wrVQ d (ofLanes 64 16 fun _ => imm.toNat)) s

end Sys2Proof.Machine
end

