-- ==== Sys2Proof/Machine/Lanes.lean ====
section
/-! DEFINITION. Sys2Proof/Machine/Lanes.lean: lane movement, reductions and scans, conversions, block quantisation and the
generator (R165 to R169, R417, R420, R427 to R431). -/
namespace Sys2Proof.Machine

/-! ## Lane movement (R427, R420) -/

/-- Lane k of va followed by vb. -/
def tableLane (w n : Nat) (x y : Line) (k : Nat) : Nat := if k < n then laneNat x w k else laneNat y w (k - n)
def execVperm (t : ElemTy) (m : VMask) (d a b c : VQ) (s : State) : Res :=
  instr 8 (do
    freshVQ d
    let x ← rdVQ a
    let y ← rdVQ b
    let z ← rdVQ c
    let n := lanesOf t
    vecOp t.lane n m d wrVQ fun i =>
      let j := laneNat z t.lane i
      plainRes (if j < 2 * n then tableLane t.lane n x y j else 0)) s
def execVslide (t : ElemTy) (m : VMask) (d a : VQ) (b : SReg) (s : State) : Res :=
  instr 8 (do
    names 0x65 [(24, b)]
    freshVQ d
    let x ← rdVQ a
    let k := (← rdS b).toInt
    let n := lanesOf t
    vecOp t.lane n m d wrVQ fun i =>
      let j := (i : Int) + k
      plainRes (if 0 ≤ j ∧ j < n then laneNat x t.lane j.toNat else 0)) s
def execVzip (hi uz : Bool) (t : ElemTy) (m : VMask) (d a b : VQ) (s : State) : Res :=
  instr 8 (do
    freshVQ d
    let x ← rdVQ a
    let y ← rdVQ b
    let n := lanesOf t
    let h := if hi then 1 else 0
    vecOp t.lane n m d wrVQ fun i =>
      plainRes (if uz then tableLane t.lane n x y (2 * i + h)
                else laneNat (if i % 2 = 0 then x else y) t.lane (i / 2 + h * n / 2))) s
/-- An extracted lane (R420). -/
def extLane (t : ElemTy) (x : Line) (i : Nat) : Word :=
  if lanesOf t ≤ i then 0 else extendTy t (laneNat x t.lane i)
def execVext (t : ElemTy) (d : SQ) (a : VQ) (b : SReg) (s : State) : Res :=
  instr 8 (do
    names 0x67 (sqRegs [(10, d)] ++ [(24, b)])
    let x ← rdVQ a
    let i ← rdS b
    wrQ d (extLane t x i.toNat)) s
def execVextImm (t : ElemTy) (d : SQ) (a : VQ) (imm : BitVec 32) (s : State) : Res :=
  instr 8 (do
    namesQ 0x68 [(10, d)]
    let x ← rdVQ a
    wrQ d (extLane t x imm.toNat)) s
def execVins (t : ElemTy) (d : VReg) (a : SQ) (b : SReg) (s : State) : Res :=
  instr 8 (do
    names 0x69 (sqRegs [(17, a)] ++ [(24, b)])
    freshV d
    let x ← rdQ a
    let i ← rdS b
    let old ← rdV d
    wrV d (ofLanes t.lane (lanesOf t) fun j => if j = i.toNat then laneVal t x.toNat else laneNat old t.lane j)) s

/-! ## Reductions and scans (R428, R429) -/

/-- An integer reduction over values of a type; the value when no lane is active. -/
def redInt (op : RedOp) (t : ElemTy) (xs : List Nat) : Int :=
  let sg := isSignedTy t
  let vs := xs.map (laneInt t)
  match op with
  | .sum => vs.foldl (· + ·) 0
  | .max => vs.foldl max (ilo sg t.bits)
  | .min => vs.foldl min (ihi sg t.bits)
  | .and => (xs.foldl Nat.land (2 ^ t.bits - 1) : Nat)
  | .or => (xs.foldl Nat.lor 0 : Nat)
  | .xor => (xs.foldl Nat.xor 0 : Nat)
/-- The scalar of an integer reduction: a sum is exact; bitwise results are zero-extended (R428). -/
def redIntWord (op : RedOp) (t : ElemTy) (xs : List Nat) : Word := BitVec.ofInt 64 (redInt op t xs)
/-- The exact float sum of lanes; +0 when there is none. -/
def sumFlt (f : FFmt) (rm : Rm) : List Nat → FVal
  | [] => .num false 0 0
  | x :: t => t.foldl (fun acc y => faddX rm acc (fval f y)) (fval f x)
/-- A float reduction to f32 (R428). -/
def redFlt (op : RedOp) (t : ElemTy) (rm : Rm) (sat : Bool) (rw : Nat) (xs : List Nat) : NRes :=
  let f := fltOf t
  match op with
  | .sum => toFlt fmtF32 (satMode sat) rm (sumFlt f rm xs) rw
  | .max =>
    (match xs with
     | [] => toFlt fmtF32 .ovf .rne (.inf true) 0
     | x :: r => toFlt fmtF32 .ovf .rne (fval f (r.foldl (fMinMax f true) x)) 0)
  | _ =>
    (match xs with
     | [] => toFlt fmtF32 .ovf .rne (.inf false) 0
     | x :: r => toFlt fmtF32 .ovf .rne (fval f (r.foldl (fMinMax f false) x)) 0)
/-- The active lanes of a register up to lane i, in lane order. -/
def activeLanes (t : ElemTy) (on : Nat → Bool) (x : Line) (n : Nat) : List Nat :=
  ((List.range n).filter on).map (laneNat x t.lane)
def execVredI (op : RedOp) (t : ElemTy) (m : LMask) (d : SQ) (a : VQ) (s : State) : Res :=
  instr 8 (do
    namesQ 0x61 [(10, d)]
    let x ← rdVQ a
    let k ← rdM m.m
    wrQ d (redIntWord op t (activeLanes t (laneOn k m.n) x (lanesOf t)))) s
def execVredF (op : RedOp) (t : ElemTy) (rm : Rm) (sat : Bool) (m : LMask) (d : SQ) (a : VQ) (s : State) : Res :=
  instr 8 (do
    namesQ 0x62 [(10, d)]
    let x ← rdVQ a
    let k ← rdM m.m
    let r := redFlt op t rm sat (← rngOne rm) (activeLanes t (laneOn k m.n) x (lanesOf t))
    settle [(0, r)]
    wrQ d (BitVec.ofNat 64 r.bits)) s
/-- One lane of an integer scan (R429): only a sum can leave its type. -/
def scanInt (op : RedOp) (t : ElemTy) (sat : Bool) (xs : List Nat) : NRes := intRes t (sat && op = .sum) (redInt op t xs)
/-- One lane of a float scan in its own type (R429); a NaN that stands alone is the canonical one (R156). -/
def scanFlt (op : RedOp) (t : ElemTy) (rm : Rm) (sat : Bool) (rw : Nat) (xs : List Nat) : NRes :=
  let f := fltOf t
  match op with
  | .sum => toFlt f (satMode sat) rm (sumFlt f rm xs) rw
  | .max => (match xs with
    | [] => plainRes 0
    | x :: r => plainRes (r.foldl (fMinMax f true) (fMinMax f true x x)))
  | _ => (match xs with
    | [] => plainRes 0
    | x :: r => plainRes (r.foldl (fMinMax f false) (fMinMax f false x x)))
/-- A scan: each active lane from the active lanes up to it. -/
def vscanM (t : ElemTy) (m : VMask) (d a : VQ) (rm : Rm) (f : Nat → List Nat → NRes) (s : State) : Res :=
  instr 8 (do
    freshVQ d
    let x ← rdVQ a
    let k ← rdMask m
    let rw ← rngTake rm (lanesOf t)
    vecOp t.lane (lanesOf t) m d wrVQ fun i => f (rw i) (activeLanes t (laneOn k m.n) x (i + 1))) s
def execVscanI (op : RedOp) (t : ElemTy) (sat : Bool) (m : VMask) (d a : VQ) (s : State) : Res :=
  vscanM t m d a .rne (fun _ xs => scanInt op t sat xs) s
def execVscanF (op : RedOp) (t : ElemTy) (rm : Rm) (sat : Bool) (m : VMask) (d a : VQ) (s : State) : Res :=
  vscanM t m d a rm (fun rw xs => scanFlt op t rm sat rw xs) s

/-! ## Conversions (R165, R417) -/

/-- Convert n elements: source element i from lane `src i`, destination element i to lane `dst i`; the other destination
lanes are kept, or zero in a port. -/
def vcvtM (dt st : ElemTy) (om : Om) (rm : Rm) (m : VMask) (d a : VQ) (n off : Nat) (s : State) : Res :=
  instr 8 (do
    freshVQ d
    let x ← rdVQ a
    let rw ← rngTake rm n
    let k ← rdMask m
    let on := laneOn k m.n
    let wide := if st.lane < dt.lane then off else 0
    let at0 := if dt.lane < st.lane then off else 0
    let rs := (List.range n).map fun i =>
      (i, if on i then convert dt st om rm (laneNat x st.lane (wide + i)) (rw i) else .ok 0 none)
    settle (rs.filter fun p => on p.1)
    let old := oldVQ (← me) d
    wrVQ d (ofLanes dt.lane (1024 / dt.lane) fun j =>
      if at0 ≤ j ∧ j < at0 + n then
        let i := j - at0
        if on i then ((rs.getD i (0, .ok 0 none)).2).bits else if zeroing m d then 0 else laneNat old dt.lane j
      else laneNat old dt.lane j)) s
def execVcvtSame (dt st : ElemTy) (om : Om) (rm : Rm) (_part : BitVec 2) (m : VMask) (d a : VQ) (s : State) : Res :=
  vcvtM dt st om rm m d a (1024 / dt.lane) 0 s
def execVcvtWide (dt st : ElemTy) (om : Om) (rm : Rm) (part : BitVec 2) (m : VMask) (d a : VQ) (s : State) : Res :=
  vcvtM dt st om rm m d a (1024 / dt.lane) (part.toNat * (1024 / dt.lane)) s
def execVcvtNarrow (dt st : ElemTy) (om : Om) (rm : Rm) (part : BitVec 2) (m : VMask) (d a : VQ) (s : State) : Res :=
  vcvtM dt st om rm m d a (1024 / st.lane) (part.toNat * (1024 / st.lane)) s

/-! ## Block quantisation (R167, R168, R430) -/

/-- Element format, emax and element width of a block format. -/
def blockOf : Fmt → FFmt × Int × Nat
  | .mx8e4 => (fmtE4m3, 8, 8)
  | .mx8e5 => (fmtE5m2, 15, 8)
  | _ => (fmtE2m1, 2, 4)
/-- Exponent of a value: floor(log2 |x|). -/
def expOf : FVal → Int
  | .num _ m e => (m.log2 : Int) + e
  | _ => 0
/-- Whether a value is finite and not zero. -/
def finNonzero : FVal → Bool
  | .num _ m _ => m != 0
  | _ => false
/-- The exponent e of a block (R167): by the largest finite magnitude. -/
def blockExp (emax : Int) (vs : List FVal) : Int :=
  let es := (vs.filter finNonzero).map expOf
  match es.max? with
  | none => -127
  | some m => max (-127) (min 127 (m - emax))
/-- One element of a block. -/
def blockElem (f : FFmt) (e : Int) (rm : Rm) (rw : Nat) : FVal → NRes
  | .nan => .ok 0 none
  | .inf n => .ok (signed f n f.maxF) (some 1)
  | .num n m x => .ok (signed f n (min (rndMag f rm n m (x - e) false rw).1 f.maxF)) none
/-- Place block elements of width w at a part of a register. -/
def putBlock (w p : Nat) (old : Line) (el : Nat → Nat) : Line :=
  ofLanes w (1024 / w) fun j => if 32 * p ≤ j ∧ j < 32 * p + 32 then el (j - 32 * p) else laneNat old w j
/-- What the overflow mode `trap` makes of a value: the kinds of R161 of a NaN and an infinity. -/
def nonFinite : FVal → NRes
  | .nan => .trap 3
  | .inf _ => .trap 2
  | .num _ _ _ => .ok 0 none
def execVqnt (fm : Fmt) (om : Om) (rm : Rm) (part : BitVec 2) (d : VQ) (b : SReg) (a : VQ) (s : State) : Res :=
  instr 8 (do
    names 0x6D [(24, b)]
    freshVQ d
    let sb ← rdS b
    let x ← rdVQ a
    let (f, emax, w) := blockOf fm
    let vs := (List.range 32).map fun i => fval fmtF32 (laneNat x 32 i)
    (if om = .trap then settle ((List.range 32).zip (vs.map nonFinite)) else pure ())
    let rw ← rngTake rm 32
    let anyNan := vs.contains .nan
    let e := blockExp emax vs
    let rs := (List.range 32).map fun i =>
      if anyNan then .ok 0 none else blockElem f e rm (rw i) (vs.getD i .nan)
    countAll (eventsOf rs)
    let sc := if anyNan then 0xFF else (e + 127).toNat
    let old := oldVQ (← me) d
    wrVQ d (putBlock w part.toNat old fun i => (rs.getD i (.ok 0 none)).bits)
    wrS b (putField sb (BitVec.ofNat 64 sc) (8 * part.toNat) 8)) s
/-- A value times a power of two. -/
def scaleV (e : Int) : FVal → FVal
  | .num n m x => .num n m (x + e)
  | v => v
def execVdqnt (fm : Fmt) (om : Om) (part : BitVec 2) (d a : VQ) (b : SReg) (s : State) : Res :=
  instr 8 (do
    names 0x6E [(24, b)]
    freshVQ d
    let sb ← rdS b
    let x ← rdVQ a
    let (f, _, w) := blockOf fm
    let sc := sb.toNat / 2 ^ (8 * part.toNat) % 256
    vecOp 32 32 ⟨0, false, false⟩ d wrVQ fun i =>
      let v := if sc = 0xFF then .nan else fval f (laneNat x w (32 * part.toNat + i))
      toFlt fmtF32 om .rne (scaleV ((sc : Int) - 127) v) 0) s

/-! ## The generator (R169, R431) -/

def execVrnd (m : VMask) (d : VQ) (a : SReg) (s : State) : Res :=
  instr 8 (do
    names 0x6F [(17, a)]
    freshVQ d
    let x ← rdS a
    (if a = 0 then pure () else modMe fun c => { c with rng := rngStored (x.setWidth 32) })
    let os := rngOutputs 32 (← me).rng
    modMe fun c => { c with rng := os.getLastD c.rng }
    vecOp 32 32 m d wrVQ fun i => plainRes (os.getD i 0).toNat) s

end Sys2Proof.Machine
end

