-- ==== Sys2Proof/Machine/LoadStore.lean ====
section
/-! DEFINITION. Sys2Proof/Machine/LoadStore.lean: scalar and vector loads and stores (R367, R400, R421, R432). -/
namespace Sys2Proof.Machine

/-! ## Scalar (R367, R400) -/

/-- Bytes of a load size (R87). -/
def ldBytes : LdSz → Nat
  | .n8 | .i8 => 1
  | .n16 | .i16 => 2
  | .n32 | .i32 => 4
  | .n64 => 8
/-- Extension of a loaded value (R367). -/
def ldExtend (sz : LdSz) (x : Nat) : Word :=
  match sz with
  | .i8 | .i16 | .i32 => BitVec.ofInt 64 (ival true (8 * ldBytes sz) x)
  | _ => BitVec.ofNat 64 (x % 256 ^ ldBytes sz)
/-- Bytes and code of a store size (R87). -/
def stBytes : StSz → Nat
  | .n8 => 1
  | .n16 => 2
  | .n32 => 4
  | .n64 => 8
def stCode : StSz → Nat
  | .n8 => 0
  | .n16 => 1
  | .n32 => 2
  | .n64 => 3
/-- The value of the one lane of a scalar load. -/
def oneLane (vs : List (Nat × Nat)) : Nat := (vs.map (·.2)).getD 0 0

/-- A scalar load. -/
def ldOneM (op : Nat) (ord : Option (Ord × Scope)) (sz : LdSz) (d : SReg) (m : Addr) (s : State) : Res :=
  instr 12 (do
    names op ((10, d) :: addrRegs m)
    let ea ← eaM m (ldBytes sz)
    let vs ← loadM (ldBytes sz) ord [(0, ea)]
    wrS d (ldExtend sz (oneLane vs))) s
def execLd (sz : LdSz) (d : SReg) (m : Addr) (s : State) : Res := ldOneM 0x80 none sz d m s
def execLdOrdered (o : Ord) (sc : Scope) (sz : LdSz) (d : SReg) (m : Addr) (s : State) : Res :=
  ldOneM 0x81 (some (o, sc)) sz d m s
def execLdAbs (d : SReg) (addr : Word) (s : State) : Res :=
  instr 12 (do
    names 0xF9 [(10, d)]
    let vs ← loadM 8 none [(0, addr)]
    wrS d (BitVec.ofNat 64 (oneLane vs))) s

/-- A scalar store. -/
def stOneM (op : Nat) (ord : Option (Ord × Scope)) (sz : StSz) (d : SReg) (m : Addr) (s : State) : Res :=
  instr 12 (do
    names op ((10, d) :: addrRegs m)
    let ea ← eaM m (stBytes sz)
    let x ← rdS d
    storeM (stBytes sz) (stCode sz) ord [(0, ea, x.toNat)]) s
def execSt (sz : StSz) (d : SReg) (m : Addr) (s : State) : Res := stOneM 0x82 none sz d m s
def execStOrdered (o : Ord) (sc : Scope) (sz : StSz) (d : SReg) (m : Addr) (s : State) : Res :=
  stOneM 0x83 (some (o, sc)) sz d m s
def execStAbs (d : SReg) (addr : Word) (s : State) : Res :=
  instr 12 (do
    names 0xFA [(10, d)]
    let x ← rdS d
    storeM 8 3 none [(0, addr, x.toNat)]) s

/-! ## Lanes (R421, R432) -/

/-- Width of an indexed or strided access (R87). -/
def ewBits : EW → Nat
  | .b8 => 8
  | .b16 => 16
  | .b32 => 32
def ewCode : EW → Nat
  | .b8 => 0
  | .b16 => 1
  | .b32 => 2
/-- The active lanes of n under a mask. -/
def activeIdx (n : Nat) (m : MaskW) (neg : Bool) : List Nat := (List.range n).filter (laneOn m neg)
/-- Window and alignment of a whole 128-byte access (R421): causes 0x04 and 0x03, before any lane. -/
def checkLine (va : Word) (k : Kind) : M Unit := do
  let s ← get
  match s.resolve (← myActor) va 128 k with
  | .error (.trap 4) => trapM 4 va
  | .error (.trap 3) => trapM 3 va
  | _ => pure ()
/-- Addresses of an indexed access: base + zext(lane of vb) · scale. -/
def indexedAddr (base : Word) (w : Nat) (x : Line) (scale i : Nat) : Word :=
  base + BitVec.ofNat 64 (laneNat x w i * scale)
/-- Addresses of a strided access: base + i · stride · scale. -/
def stridedAddr (base stride : Word) (scale i : Nat) : Word := base + BitVec.ofNat 64 i * stride * BitVec.ofNat 64 scale

/-- Load the active of n lanes of width w into a register, keeping the others. -/
def loadLanesInto (w : Nat) (ord : Option (Ord × Scope)) (k : LMask) (d : VReg) (addr : Nat → Word) : M Unit := do
  let m ← rdM k.m
  let n := 1024 / w
  let vs ← loadM (w / 8) ord ((activeIdx n m k.n).map fun i => (i, addr i))
  let old := (← me).vreg d
  wrV d (ofLanes w n fun i =>
    match vs.find? fun p => p.1 == i with
    | some p => p.2
    | none => laneNat old w i)
/-- Store the active of n lanes of width w of a register. -/
def storeLanesFrom (w code : Nat) (ord : Option (Ord × Scope)) (k : LMask) (x : Line) (addr : Nat → Word) : M Unit := do
  let m ← rdM k.m
  storeM (w / 8) code ord ((activeIdx (1024 / w) m k.n).map fun i => (i, addr i, laneNat x w i))
/-- The 128-byte check when a lane is active. -/
def checkVec (k : LMask) (va : Word) (kind : Kind) : M Unit := do
  let m ← rdM k.m
  if (activeIdx 32 m k.n).isEmpty then pure () else checkLine va kind
/-- Lane i of a consecutive access. -/
def lineAddr (ea : Word) (i : Nat) : Word := ea + BitVec.ofNat 64 (4 * i)

/-- `vld` and its ordered form. -/
def vldM (op : Nat) (ord : Option (Ord × Scope)) (k : LMask) (d : VReg) (m : Addr) (s : State) : Res :=
  instr 12 (do
    names op (addrRegs m)
    freshV d
    let ea ← eaM m 128
    checkVec k ea .load
    loadLanesInto 32 ord k d (lineAddr ea)) s
def execVld (k : LMask) (d : VReg) (m : Addr) (s : State) : Res := vldM 0x84 none k d m s
def execVldOrdered (o : Ord) (sc : Scope) (k : LMask) (d : VReg) (m : Addr) (s : State) : Res :=
  vldM 0x85 (some (o, sc)) k d m s
def execVldAbs (d : VReg) (addr : Word) (s : State) : Res :=
  instr 12 (do
    freshV d
    checkVec ⟨0, false⟩ addr .load
    loadLanesInto 32 none ⟨0, false⟩ d (lineAddr addr)) s

/-- `vst` and its ordered form. -/
def vstM (op : Nat) (ord : Option (Ord × Scope)) (k : LMask) (d : VReg) (m : Addr) (s : State) : Res :=
  instr 12 (do
    names op (addrRegs m)
    let x ← rdV d
    let ea ← eaM m 128
    checkVec k ea .store
    storeLanesFrom 32 7 ord k x (lineAddr ea)) s
def execVst (k : LMask) (d : VReg) (m : Addr) (s : State) : Res := vstM 0x86 none k d m s
def execVstOrdered (o : Ord) (sc : Scope) (k : LMask) (d : VReg) (m : Addr) (s : State) : Res :=
  vstM 0x87 (some (o, sc)) k d m s
def execVstAbs (d : VReg) (addr : Word) (s : State) : Res :=
  instr 12 (do
    let x ← rdV d
    checkVec ⟨0, false⟩ addr .store
    storeLanesFrom 32 7 none ⟨0, false⟩ x (lineAddr addr)) s

/-- `vldx` and its ordered form. -/
def vldxM (op : Nat) (ord : Option (Ord × Scope)) (w : EW) (k : LMask) (d : VReg) (x : XAddr) (s : State) : Res :=
  instr 12 (do
    names op [(17, x.a)]
    freshV d
    let a ← rdS x.a
    let ix ← rdV x.b
    loadLanesInto (ewBits w) ord k d
      (indexedAddr (a + x.disp.signExtend 64) (ewBits w) ix (scaleOf x.scale (ewBits w / 8)))) s
def execVldx (w : EW) (k : LMask) (d : VReg) (x : XAddr) (s : State) : Res := vldxM 0x88 none w k d x s
def execVldxOrdered (o : Ord) (sc : Scope) (w : EW) (k : LMask) (d : VReg) (x : XAddr) (s : State) : Res :=
  vldxM 0x89 (some (o, sc)) w k d x s

/-- `vstx` and its ordered form. -/
def vstxM (op : Nat) (ord : Option (Ord × Scope)) (w : EW) (k : LMask) (d : VReg) (x : XAddr) (s : State) : Res :=
  instr 12 (do
    names op [(17, x.a)]
    let v ← rdV d
    let a ← rdS x.a
    let ix ← rdV x.b
    storeLanesFrom (ewBits w) (ewCode w) ord k v
      (indexedAddr (a + x.disp.signExtend 64) (ewBits w) ix (scaleOf x.scale (ewBits w / 8)))) s
def execVstx (w : EW) (k : LMask) (d : VReg) (x : XAddr) (s : State) : Res := vstxM 0x8A none w k d x s
def execVstxOrdered (o : Ord) (sc : Scope) (w : EW) (k : LMask) (d : VReg) (x : XAddr) (s : State) : Res :=
  vstxM 0x8B (some (o, sc)) w k d x s

/-- `vlds` and its ordered form. -/
def vldsM (op : Nat) (ord : Option (Ord × Scope)) (w : EW) (k : LMask) (d : VReg) (m : Addr) (s : State) : Res :=
  instr 12 (do
    names op (addrRegs m)
    freshV d
    let a ← rdS m.a
    let b ← rdS m.b
    loadLanesInto (ewBits w) ord k d
      (stridedAddr (a + m.disp.signExtend 64) b (scaleOf m.scale (ewBits w / 8)))) s
def execVlds (w : EW) (k : LMask) (d : VReg) (m : Addr) (s : State) : Res := vldsM 0x8C none w k d m s
def execVldsOrdered (o : Ord) (sc : Scope) (w : EW) (k : LMask) (d : VReg) (m : Addr) (s : State) : Res :=
  vldsM 0x8D (some (o, sc)) w k d m s

/-- `vsts` and its ordered form. -/
def vstsM (op : Nat) (ord : Option (Ord × Scope)) (w : EW) (k : LMask) (d : VReg) (m : Addr) (s : State) : Res :=
  instr 12 (do
    names op (addrRegs m)
    let v ← rdV d
    let a ← rdS m.a
    let b ← rdS m.b
    storeLanesFrom (ewBits w) (ewCode w) ord k v
      (stridedAddr (a + m.disp.signExtend 64) b (scaleOf m.scale (ewBits w / 8)))) s
def execVsts (w : EW) (k : LMask) (d : VReg) (m : Addr) (s : State) : Res := vstsM 0x8E none w k d m s
def execVstsOrdered (o : Ord) (sc : Scope) (w : EW) (k : LMask) (d : VReg) (m : Addr) (s : State) : Res :=
  vstsM 0x8F (some (o, sc)) w k d m s

end Sys2Proof.Machine
end

