-- ==== Sys2Proof/Machine/Sync.lean ====
section
/-! DEFINITION. Sys2Proof/Machine/Sync.lean: full/empty accesses, line states, atomics, sub-byte stores, fences, prefetch
and ranged maintenance (R119, R129, R130, R148, R337 to R339, R346, R359, R369, R391, R402, R403, R412). -/
namespace Sys2Proof.Machine

/-! ## Full/empty accesses (R369, R402) -/

/-- The window of an address. -/
def windowOf (va : Word) : Nat := (va.extractLsb' 60 4).toNat
/-- Only the own and the peer scratchpad windows (R359, R369, R402). -/
def scratchWindow (va : Word) : M Unit := needM (windowOf va = 8 || windowOf va = 9) 4 va
/-- Resolve an address in a scratchpad window; a counter alias raises cause 0x04. -/
def resolveScratch (va : Word) (n : Nat) (k : Kind) : M Tgt := do
  scratchWindow va
  match ← resolveM va n k with
  | none => spend
  | some t => if aliasOf t then trapM 4 va else pure t
/-- The part of a target with a byte mask and data. -/
def tgtPart (t : Tgt) (mask : BitVec 128) (data : Line) : Part := ⟨t.place, t.va - t.byte, mask, data, t.checked, []⟩

/-- Perform a synchronising access of the own scratchpad at once, or join the line's waiters (R36, R118). -/
def ownSync (k : Nat) (m : SyncMsg) : M Answer := do
  let s ← get
  if syncMet m (s.store.isEmpty k) then
    let (s', ans) := s.serveSync k m
    match ans with
    | .conflict t => trapM 0x0B t
    | .poisoned t => trapM 0x10 t true
    | _ =>
      set (s'.testWaiters (coreOfKey k) k (s'.core (coreOfKey k)).waiters)
      pure ans
  else waitLine k (fun id => { m with id }) [] []
/-- Perform a synchronising access where its line lives: here, or by a message whose answer is awaited (R237). -/
def syncAccess (t : Tgt) (m : SyncMsg) : M Answer := do
  match ← pendingM with
  | some acc => pure (acc.ans.getD (.data acc.got acc.rels))
  | none =>
    match t.place with
    | .peer q _ _ =>
      markRoomM [m.part]
      reserveM 1
      sendAndWait id [(q, fun id => .remoteSyncAccess { m with id })] [] []
    | p =>
      match (← get).keyOf p with
      | some k => ownSync k m
      | none => spend

/-- `ldf`: the line read, as an acquire in modes 8 and 9 (R135). -/
def ldfLine (mode : LdfMode) (sc : Scope) (n : Nat) (ea : Word) (mask : Tgt → BitVec 128) : M (Tgt × Line) := do
  endRegion
  let t ← resolveScratch ea n .load
  let a ← myActor
  let ans ← syncAccess t ⟨a, 0, tgtPart t (mask t) 0, some mode, none, if mode = .se then none else some sc, none, 0⟩
  let (line, rels) : Line × List Rel := match ans with
    | .data ps rels => (((ps.map (·.data)).getD 0 0), rels)
    | _ => (0, [])
  (if mode = .se then pure () else endAcquire sc rels)
  endRegion
  pure (t, line)
def execLdfS (mode : LdfMode) (sc : Scope) (sz : LdSz) (d : SReg) (m : Addr) (s : State) : Res :=
  instr 12 (do
    names 0x90 ((10, d) :: addrRegs m)
    let n := ldBytes sz
    let ea ← eaM m n
    let (t, l) ← ldfLine mode sc n ea fun t => maskOf t.byte n
    wrS d (ldExtend sz (lineNat l t.byte n))) s
/-- The byte mask of the active 32-bit lanes. -/
def laneBytes (m : MaskW) (neg : Bool) : BitVec 128 :=
  (activeIdx 32 m neg).foldl (fun acc i => acc ||| maskOf (4 * i) 4) 0
def execLdfV (mode : LdfMode) (sc : Scope) (k : LMask) (d : VReg) (m : Addr) (s : State) : Res :=
  instr 12 (do
    names 0x91 (addrRegs m)
    freshV d
    let ea ← eaM m 128
    let mk ← rdM k.m
    let (_, l) ← ldfLine mode sc 128 ea fun _ => laneBytes mk k.n
    let old := (← me).vreg d
    wrV d (mergeLine (laneBytes mk k.n) l old)) s

/-- `stf`: the line written and set full, as a release (R402). A store returned unreachable in transit enters the side
log (R245). -/
def stfLine (mode : StfMode) (sc : Scope) (n code : Nat) (ea : Word) (mask : Tgt → BitVec 128) (data : Tgt → Line) :
    M Unit := do
  let r ← beginRelease sc
  let t ← resolveScratch ea n .store
  let a ← myActor
  let part := tgtPart t (mask t) (data t)
  let c ← me
  match c.access.bind (·.ans) with
  | some (.unreachable v) =>
    let e : SideEntry := ⟨a, 1, part.va, code, 0, .store [part], true⟩
    modMe fun c => { c with reports := c.reports ++ [⟨0x11, v, false, some e⟩] }
  | _ =>
    let _ ← syncAccess t ⟨a, 0, part, none, some mode, none, some r, 0⟩
  endRegion
def execStfS (mode : StfMode) (sc : Scope) (sz : StSz) (d : SReg) (m : Addr) (s : State) : Res :=
  instr 12 (do
    names 0x92 ((10, d) :: addrRegs m)
    let n := stBytes sz
    let ea ← eaM m n
    let x ← rdS d
    stfLine mode sc n (stCode sz) ea (fun t => maskOf t.byte n) fun t => valLine t.byte n x.toNat) s
def execStfV (mode : StfMode) (sc : Scope) (k : LMask) (d : VReg) (m : Addr) (s : State) : Res :=
  instr 12 (do
    names 0x93 (addrRegs m)
    let x ← rdV d
    let ea ← eaM m 128
    let mk ← rdM k.m
    stfLine mode sc 128 7 ea (fun _ => laneBytes mk k.n) fun _ => x) s

/-- `fset` and `fclr` (R118, R119, R359): own lines at once, peer lines by a posted message. -/
def setLineM (op : Nat) (m : Addr) (full : Bool) : M Unit := do
  names op (addrRegs m)
  let ea := (← eaM m 1) &&& ~~~127#64
  let r ← (if full then do pure (some (← beginRelease .panel)) else pure none)
  let t ← resolveScratch ea 128 .store
  let a ← myActor
  (match t.place with
   | .peer q _ _ => do
     reserveM 1
     sendPosted q (.memoryRequest ⟨a, 0, .setLine [tgtPart t 0 0] full, false, true, r, 0⟩)
   | p => do
     match (← get).keyOf p with
     | some k => modS fun s => s.homeSetLine k full r
     | none => pure ())
  if full then endRegion else pure ()
def execFset (m : Addr) (s : State) : Res := instr 12 (setLineM 0x94 m true) s
def execFclr (m : Addr) (s : State) : Res := instr 12 (setLineM 0x95 m false) s

/-! ## Atomics (R337 to R339, R412, R413) -/

/-- Code of an atomic operation. -/
def amoCode : AmoOp → Nat
  | .add => 0 | .and => 1 | .or => 2 | .xor => 3 | .max => 4 | .min => 5 | .maxu => 6 | .minu => 7 | .swap => 8
  | .cas => 9 | .fadd => 10 | .fmax => 11 | .fmin => 12
/-- The release side of an ordered atomic; a plain one carries an earlier fence's release. -/
def beginAtomic (o : Ord) (sc : Scope) : M (Option Rel) := do
  match o with
  | .plain => fenceRel
  | .acq => endRegion; fenceRel
  | _ => return some (← beginRelease sc)
/-- The scope at which an atomic acquires. -/
def acqScope (o : Ord) (sc : Scope) : Option Scope :=
  match o with
  | .plain | .rel => none
  | _ => some sc
/-- The acquire side of an ordered atomic. -/
def endAtomic (o : Ord) (sc : Scope) (rels : List Rel) : M Unit := do
  match o with
  | .plain => observe rels
  | .rel => endRegion
  | _ => endAcquire sc rels; endRegion
/-- One lane of an atomic from its target. -/
def atomLane (i : Nat) (t : Tgt) (x y : Word) : AtomLane := ⟨i, t.place, t.byte, t.va, x, y, t.checked⟩
/-- Whether every lane lies in the own scratchpad. -/
def allOwn (ls : List AtomLane) : Bool :=
  ls.all fun l => match l.place with
    | .scratch _ _ _ => true
    | _ => false
/-- Perform atomics at their homes: own scratchpad lanes at once, others by one message to each panel (R123, R146). The
answer is none where the home refused the access and the registers keep their values (R115). -/
def atomics (op : AmoOp) (n : Nat) (acq : Option Scope) (r : Option Rel) (ls : List AtomLane) :
    M (Option (List (Nat × Word)) × List Rel) := do
  if ls.isEmpty then pure (some [], [])
  else
    let s ← get
    let a ← myActor
    if allOwn ls then
      match s.homeAtomic a op n acq r ls with
      | (_, .conflict t) => trapM 0x0B t
      | (_, .poisoned t) => trapM 0x10 t true
      | (s', .old xs rels) => do
        set s'
        modMe fun c => { c with touched := true }
        pure (some xs, rels)
      | _ => pure (none, [])
    else
      match ← pendingM with
      | some acc => do
        modMe fun c => { c with touched := true }
        pure (match acc.ans with
          | some (.old xs _) => some xs
          | _ => none, acc.rels)
      | none =>
        markRoomM (ls.map fun l => ⟨l.place, l.va - l.byte, maskOf l.byte n, 0, l.checked, []⟩)
        let panels := (ls.map fun l => s.placePanel l.place).eraseDups
        reserveM panels.length
        sendAndWait (fun s => ls.foldl (fun s l =>
            if cachedPlace l.place then s.dropL1 s.curCore (s.l1Key l.place) else s) s)
          (panels.map fun q => (q, fun id =>
            .memoryRequest ⟨a, id, .atomic op n acq (ls.filter fun l => s.placePanel l.place == q), true, false, r, 0⟩)) [] []

/-- `amo` of n bytes. -/
def amoM (opc n : Nat) (op : AmoOp) (o : Ord) (sc : Scope) (d a : SReg) (disp : BitVec 40) (b : SReg) (s : State) : Res :=
  instr 12 (do
    names opc [(10, d), (17, a), (24, b)]
    let base ← rdS a
    let y ← rdS b
    let e ← rdS d
    let ea := base + disp.signExtend 64
    let red := d = 0 && o = .plain
    let r ← beginAtomic o sc
    let side := (← myGroup).sideOf (← get).curCtx
    let t ← resolveM ea n .atomic red
    let act ← myActor
    let logIt (l : AtomLane) : M Unit :=
      sideLogM [⟨act, 3, ea.toNat, if n = 8 then 3 else 2, amoCode op, .atomic op n none [l], false⟩]
    match t with
    | none => logIt ⟨0, .phys 0, 0, ea.toNat, y, e, true⟩
    | some t =>
      if aliasOf t then trapM 4 ea
      else if loggedPage side ea.toNat then (if red then logIt (atomLane 0 t y e) else spend)
      else
        let (xs, rels) ← atomics op n (acqScope o sc) r [atomLane 0 t y e]
        (match xs with
         | some ((_, x) :: _) => wrS d x
         | _ => pure ())
        endAtomic o sc rels) s
def execAmo32 (op : AmoOp) (o : Ord) (sc : Scope) (d a : SReg) (disp : BitVec 40) (b : SReg) (s : State) : Res :=
  amoM 0x96 4 op o sc d a disp b s
def execAmo64 (op : AmoOp) (o : Ord) (sc : Scope) (d a : SReg) (disp : BitVec 40) (b : SReg) (s : State) : Res :=
  amoM 0x97 8 op o sc d a disp b s

/-- Resolve the lanes of a `vamo` in ascending order; a counter alias raises cause 0x04 (R413). -/
def vamoLanes (n : Nat) (x : Line) : List (Nat × Word) → M (List AtomLane)
  | [] => pure []
  | (i, ea) :: t => do
    match ← resolveM ea n .atomic with
    | none => spend
    | some g =>
      if aliasOf g then trapM 4 ea
      else
        let r ← vamoLanes n x t
        pure (atomLane i g (BitVec.ofNat 64 (laneNat x (8 * n) i)) 0 :: r)
/-- `vamo` of n-byte lanes. -/
def vamoM (opc n : Nat) (op : AmoOp) (o : Ord) (sc : Scope) (k : LMask) (d : VReg) (a : SReg) (b : VIdx)
    (scale : BitVec 2) (disp : BitVec 40) (s : State) : Res :=
  instr 12 (do
    names opc [(17, a)]
    freshV d
    let x ← rdV d
    let ix ← (match b with
      | .none => pure 0
      | .v r => rdV r)
    let base := (← rdS a) + disp.signExtend 64
    let m ← rdM k.m
    let w := 8 * n
    let addr (i : Nat) : Word := match b with
      | .none => base + BitVec.ofNat 64 (i * n)
      | .v _ => indexedAddr base w ix (scaleOf scale n) i
    let r ← beginAtomic o sc
    let lanes := (activeIdx (1024 / w) m k.n).map fun i => (i, addr i)
    let side := (← myGroup).sideOf (← get).curCtx
    let ls ← vamoLanes n x lanes
    (if lanes.any fun p => loggedPage side p.2.toNat then spend else pure ())
    let (xs, rels) ← atomics op n (acqScope o sc) r ls
    (match xs with
     | some xs => wrV d (ofLanes w (1024 / w) fun i =>
         match xs.find? fun p => p.1 == i with
         | some p => p.2.toNat
         | none => laneNat x w i)
     | none => pure ())
    endAtomic o sc rels) s
def execVamo32 (op : AmoOp) (o : Ord) (sc : Scope) (k : LMask) (d : VReg) (a : SReg) (b : VIdx) (scale : BitVec 2)
    (disp : BitVec 40) (s : State) : Res := vamoM 0x98 4 op o sc k d a b scale disp s
def execVamo16 (op : AmoOp) (o : Ord) (sc : Scope) (k : LMask) (d : VReg) (a : SReg) (b : VIdx) (scale : BitVec 2)
    (disp : BitVec 40) (s : State) : Res := vamoM 0x99 2 op o sc k d a b scale disp s

/-! ## Sub-byte stores (R403) -/

/-- Width and size code of `stn`. -/
def nwBits : NW → Nat
  | .bit4 => 4
  | .bit2 => 2
  | .bit1 => 1
def nwCode : NW → Nat
  | .bit4 => 8
  | .bit2 => 9
  | .bit1 => 10
def execStn (w : NW) (d a b : SReg) (disp : BitVec 48) (s : State) : Res :=
  instr 12 (do
    names 0x9A [(10, d), (17, a), (24, b)]
    let base ← rdS a
    let e ← rdS b
    let x ← rdS d
    let bit := e.toNat * nwBits w
    let ea := base + disp.signExtend 64 + BitVec.ofNat 64 (bit / 8)
    let pos := bit % 8
    let v : Byte := x.setWidth 8
    let r ← fenceRel
    let side := (← myGroup).sideOf (← get).curCtx
    let t ← resolveM ea 1 .store
    let act ← myActor
    let entry (p : Part) (byte : Nat) : SideEntry :=
      ⟨act, 2, ea.toNat, nwCode w, 0, .nibble p byte pos (nwBits w) v, false⟩
    match t with
    | none => sideLogM [entry ⟨.phys 0, ea.toNat / 128 * 128, maskOf (ea.toNat % 128) 1, 0, true, []⟩ (ea.toNat % 128)]
    | some t =>
      let part := tgtPart t (maskOf t.byte 1) 0
      if aliasOf t then trapM 4 ea
      else if loggedPage side ea.toNat then sideLogM [entry part t.byte]
      else if (← get).vaultRefuses act true part then
        modMe fun c => { c with reports := c.reports ++ [⟨7, ea, false, none⟩] }
      else
        markRoomM [part]
        reserveM 1
        checkM true false [part]
        let s ← get
        match t.place with
        | .scratch _ _ _ =>
          (match s.keyOf t.place with
           | some k => modS fun s => s.homeNibble k t.byte pos (nwBits w) v r
           | none => pure ())
        | p =>
          (if cachedPlace p then modS fun s => s.dropL1 s.curCore (s.l1Key p) else pure ())
          sendPosted (s.placePanel p)
            (.memoryRequest ⟨act, 0, .nibble { part with checked := false } t.byte pos (nwBits w) v, true, true, r, 0⟩)) s

/-! ## Fences (R148) -/

/-- Whether an order releases, or acquires. -/
def ordReleases : Ord → Bool
  | .rel | .ar | .sc => true
  | _ => false
def ordAcquires : Ord → Bool
  | .acq | .ar | .sc => true
  | _ => false
/-- Width of a scope. -/
def scopeRank : Scope → Nat
  | .context => 0 | .core => 1 | .chiplet => 2 | .panel => 3 | .pod => 4
/-- What later writes carry after a release fence: one as wide as the last replaces it, a narrower one stands beside it for what it
has released since (R137 rule 3). -/
def fenceMark (old : Option Rel) (r : Rel) : Option Rel :=
  match old with
  | some o =>
    if scopeRank o.scope ≤ scopeRank r.scope then some r
    else some { o with more := (r.scope, r.clock) :: o.more.filter fun p => scopeRank r.scope < scopeRank p.1 }
  | none => some r
def execFence (o : Ord) (sc : Scope) (s : State) : Res :=
  instr 8 (do
    (if ordReleases o then do
      releaseM sc
      let r ← myRel sc
      modMe fun c => { c with fenceRel := fenceMark c.fenceRel r }
    else pure ())
    endRegion
    (if ordAcquires o then do
      endAcquire sc (← me).observed
    else pure ())) s

/-! ## Prefetch (R391) -/

/-- A line that a prefetch asks for: in a cached window, present in the TLB, readable, not held. -/
def State.prefTgt (s : State) (a : Actor) (va : Word) : Option Tgt :=
  match s.resolve a va 1 .load with
  | .ok t =>
    if cachedPlace t.place && !((s.core a.who.core).line (s.l1Key t.place)).held && !s.vaultRefuses a false (tgtPart t 0 0)
    then some t else none
  | .error _ => none
/-- Ask for the line of an address; with no reply reservation free nothing is asked. -/
def prefLine (va : Word) : M Unit := do
  let s ← get
  let a ← myActor
  match s.prefTgt a va with
  | none => pure ()
  | some t =>
    if 256 ≤ (s.core s.curCore).reserved then pure ()
    else modS fun s =>
      let id := s.nextId
      let s := { s with nextId := id + 1 }.modCore s.curCore fun c =>
        { c with reserved := c.reserved + 1, fills := c.fills ++ [(id, s.l1Key t.place)] }
      s.sendTo (s.placePanel t.place) (.memoryRequest
        ⟨a, id, .fill (s.core a.who.core).epoch [tgtPart t (BitVec.allOnes 128) 0], false, true, none, 0⟩)
def prefLines : List Word → M Unit
  | [] => pure ()
  | va :: t => do prefLine va; prefLines t
/-- The 128-byte lines of a range. -/
def rangeLines (ea : Word) (len : Nat) : List Word :=
  if len = 0 then []
  else (List.range ((ea.toNat % 128 + len - 1) / 128 + 1)).map fun i =>
    BitVec.ofNat 64 (ea.toNat / 128 * 128 + 128 * i)
def execPref (m : Addr) (s : State) : Res :=
  instr 12 (do
    names 0x9C (addrRegs m)
    let ea ← eaM m 1
    prefLines (rangeLines ea 1)) s
def execPrefRange (a : SReg) (disp : BitVec 48) (b : SReg) (s : State) : Res :=
  instr 12 (do
    names 0x9D [(17, a), (24, b)]
    let ea := (← rdS a) + disp.signExtend 64
    let len ← rdS b
    prefLines (rangeLines ea (min len.toNat (2 ^ 24)))) s

/-! ## Ranged maintenance (R129, R130, R346) -/

/-- The key of the line of an address for maintenance, without permission or conflict checks; none where the page has no
valid translation, or in a scratchpad window. -/
def State.maintKey (s : State) (a : Actor) (va : Word) : Option Nat :=
  match windowOf va with
  | 0xA =>
    (match s.resolveVault va.toNat 1 with
     | .ok t => some (s.l1Key t.place)
     | .error _ => none)
  | _ =>
    match s.globalOf a va with
    | none => none
    | some g =>
      let slot := threadSlot (s.group a.who.core).rect.toNat a.who.core a.who.ctx
      let pa := match tlbFind (s.core a.who.core).tlb a.who.launch slot g with
        | some e => some (dataPfn e.2 * 2 ^ 16 + g % 2 ^ pageBits (tagSize e.1))
        | none => (match s.walk a.tenant g with
          | .leaf size pa _ => some (pa + g % 2 ^ pageBits size)
          | _ => none)
      pa.map fun pa => s.l1Key (.phys (pa / 128 * 128))
/-- Dirty 64-byte halves of an L1 line. -/
def dirtyHalves (l : L1Line) : Nat :=
  (if l.dirty.extractLsb' 0 16 = 0 then 0 else 1) + (if l.dirty.extractLsb' 16 16 = 0 then 0 else 1)
/-- Maintenance of one L1 line: `inv` also drops it. Counts the sectors written back or the lines invalidated. -/
def State.maintL1 (s : State) (a : Actor) (inv : Bool) (k : Nat) : State × Nat :=
  let l := (s.core a.who.core).line k
  if l = {} then (s, 0)
  else if inv then
    ((s.writeBackLine a.who.core [a.who] k l).modCore a.who.core fun c => (c.setL1 k {}).dropFills k, 1)
  else
    ((s.writeBackLine a.who.core [a.who] k l).modCore a.who.core fun c => (c.setL1 k l.cleaned).dropFills k, dirtyHalves l)
/-- The physical address of a key of global memory. -/
def State.paOfKey (s : State) (k : Nat) : Nat := if isProxyKey k then k - 2 ^ 58 else s.myPanel * 2 ^ 46 + k
/-- The lines that maintenance at pod scope must be done on at their home panel, by panel: those homed elsewhere, and those homed here
that other panels hold (R129, R346). -/
def State.podLines (s : State) (keys : List Nat) : List (Nat × List Part) :=
  let ks := keys.filter fun k => isProxyKey k || s.store.sharedOut k (BitVec.allOnes 128)
  ((ks.map fun k => s.paOfKey k / 2 ^ 46).eraseDups).map fun q =>
    (q, (ks.filter fun k => s.paOfKey k / 2 ^ 46 == q).map fun k =>
      ⟨.phys (s.paOfKey k), s.paOfKey k, BitVec.allOnes 128, 0, false, []⟩)
/-- Whether the operation may be sent to a home panel: a held route waits, an unreachable panel is skipped (R244, R346). -/
def podRoutes (s : State) : List (Nat × List Part) → M (List (Nat × List Part))
  | [] => pure []
  | (q, ps) :: t => do
    let r ← podRoutes s t
    match s.routeTo q with
    | .held => spend
    | .unreachable => pure r
    | _ => pure ((q, ps) :: r)
/-- `cwbr` and `cinvr`: every level that the scope reaches, the proxy slice before the home panel; the count is a late result, which
is there when every write-back is acknowledged (R130). -/
def maintM (op : Nat) (inv : Bool) (sc : Scope) (d a : SReg) (disp : BitVec 48) (b : SReg) (s : State) : Res :=
  instr 12 (do
    names op [(10, d), (17, a), (24, b)]
    let ea := (← rdS a) + disp.signExtend 64
    let len ← rdS b
    if len = 0 then wrSLate d 0
    else if 2 ^ 24 < len.toNat then trapM 4 len
    else
      let s ← get
      let act ← myActor
      let last := ea + len - 1
      let bad (va : Word) : Bool := match s.resolve act va 1 .load with
        | .error (.trap 4) => true
        | _ => false
      (if bad ea then trapM 4 ea else if bad last then trapM 4 last else pure ())
      let keys := (rangeLines ea len.toNat).filterMap (s.maintKey act)
      let wide := keys.filter fun k => scWide sc && (k < vaultBase || isProxyKey k)
      let done ← pendingM
      let msgs ← podRoutes s (if sc = .pod && done.isNone then s.podLines wide else [])
      let level (s : State) : State × Nat :=
        let p := maintAll (fun s k => s.maintL1 act inv k) keys (s, 0)
        let here := wide.filter fun k => sc != .pod || isProxyKey k || !s.store.sharedOut k (BitVec.allOnes 128)
        maintAll (fun s k => s.maintSlice (some act) inv k) ((here.map fun k => k / 256 * 256).eraseDups) p
      if !msgs.isEmpty then
        reserveM msgs.length
        sendAndWait (fun s => (level s).1.modMe fun c => { c with maintCount := (level s).2 })
          (msgs.map fun m => (m.1, fun id => .memoryRequest ⟨act, id, .maint inv m.2, false, false, none, 0⟩)) [] []
      else
        let far := match done with
          | some acc => (match acc.ans with
            | some (.old xs _) => (xs.map fun x => x.2.toNat).sum
            | _ => 0) + s.me.maintCount
          | none => 0
        let p := if done.isSome then (s, far) else level s
        set p.1
        wrSLate d (BitVec.ofNat 64 p.2)
        modMe fun c => { c with maint := if d = 0 then c.maint else c.skey d :: c.maint, maintCount := 0 }) s
def execCwbr (sc : Scope) (d a : SReg) (disp : BitVec 48) (b : SReg) (s : State) : Res := maintM 0x9E false sc d a disp b s
def execCinvr (sc : Scope) (d a : SReg) (disp : BitVec 48) (b : SReg) (s : State) : Res := maintM 0x9F true sc d a disp b s

end Sys2Proof.Machine
end

