-- ==== Sys2Proof/Machine/Ports.lean ====
section
/-! DEFINITION. Sys2Proof/Machine/Ports.lean: the port instructions (R57 to R60, R387, R388). -/
namespace Sys2Proof.Machine

/-! ## Descriptors (R57) -/

/-- Read n bytes (n a multiple of 8) at an address as one plain access of the context that is aligned to `al`: the faults of
R112 name the address itself. Gives the bytes as a number. -/
def readBlock (va : Word) (n al : Nat) : M Nat := do
  let off := va.toNat % 2 ^ 22
  let part := (← myGroup).part
  (if windowOf va = 8 && 0x200000 ≤ off then trapM 4 va
  else if windowOf va = 9 && 0x200000 ≤ off then trapM 4 va
  else if windowOf va = 8 && part * 2 ^ 18 < off + n then trapM 4 va
  else pure ())
  let s ← get
  let a ← myActor
  (match s.resolve a va 1 .load with
   | .error (.trap 4) => trapM 4 va
   | _ => if va.toNat % al ≠ 0 then trapM 3 va else pure ())
  let vs ← tryCatch (loadM 8 none ((List.range (n / 8)).map fun i => (i, va + BitVec.ofNat 64 (8 * i)))) fun e =>
    match e with
    | .trap 3 _ m => throw (.trap 3 va m)
    | .trap 4 _ m => throw (.trap 4 va m)
    | .trap 7 _ m => throw (.trap 7 va m)
    | e => throw e
  return vs.foldl (fun acc p => acc + p.2 % 2 ^ 64 * 2 ^ (64 * p.1)) 0

/-- The port that a descriptor describes for a context of a group, unbound in the group yet; none where the descriptor is
bad (R57, R387). -/
def portOf (g : Group) (ctx : Nat) (d : Nat) : Option Port :=
  let f (i n : Nat) : Nat := d / 256 ^ i % 256 ^ n
  let kind := f 0 1
  let idx := f 1 1
  let cnt := f 24 8
  if f 2 6 ≠ 0 then none
  else
    match kind with
    | 1 | 2 =>
      if f 8 8 % 128 ≠ 0 || f 16 8 % 128 ≠ 0 || cnt = 0 || 2 ^ 32 ≤ cnt then none
      else some { kind, idx := 0, write := kind == 2, base := BitVec.ofNat 64 (f 8 8), stride := BitVec.ofNat 64 (f 16 8),
                  count := cnt }
    | 3 => if idx < 8 then some { kind, idx } else none
    | 4 => if idx < 8 then some { kind, idx, write := true } else none
    | 5 =>
      let c := g.chan idx
      if idx < 64 && c.declared && c.ctx == ctx then some { kind, idx, write := c.out } else none
    | 6 => if idx < 4 then some { kind, idx } else none
    | _ => none
/-- An operand FIFO of a group. -/
def Group.fifo (g : Group) (i : Nat) : Fifo := Cells.get {} g.fifos i
def Group.setFifo (g : Group) (i : Nat) (f : Fifo) : Group := { g with fifos := Cells.set {} g.fifos i f }
/-- Whether the end that a port names is bound already. -/
def Group.endBusy (g : Group) (p : Port) : Bool :=
  match p.kind with
  | 3 => (g.lq p.idx).reader
  | 4 => (g.lq p.idx).writer
  | 5 => (g.chan p.idx).bound
  | 6 => (g.fifo p.idx).bound
  | _ => false
/-- Set or clear the bound mark of the end that a port names. -/
def Group.markEnd (g : Group) (p : Port) (b : Bool) : Group :=
  match p.kind with
  | 3 => g.setLq p.idx { g.lq p.idx with reader := b }
  | 4 => g.setLq p.idx { g.lq p.idx with writer := b }
  | 5 => g.setChan p.idx { g.chan p.idx with bound := b }
  | 6 => g.setFifo p.idx { g.fifo p.idx with bound := b }
  | _ => g
/-- The result of a bind and the group after it: 3 already bound, 2 bad descriptor, 0 busy, 1 bound (R57). -/
def Group.bind (g : Group) (ctx : Nat) (q : QReg) (d : Nat) (fixed : Bool) : Nat × Group :=
  if ((g.ctx ctx).port q).kind ≠ 0 then (3, g)
  else
    match portOf g ctx d with
    | none => (2, g)
    | some p =>
      if g.endBusy p then (0, g)
      else (1, (g.markEnd p true).modCtx ctx fun c => c.setPort q { p with fixed })
/-- A reader end that has just been bound removes the drain markers at its head (R59). -/
def State.reachPort (s : State) (core : Nat) (p : Port) : State :=
  match p.kind with
  | 3 => s.modGroup core fun g => g.reachLq p.idx
  | 5 => s.reachChan core p.idx
  | _ => s
/-- Unbind a port of a context of the bound group (R57, R388): unread channel elements are discarded and their slots
returned, FIFO contents discarded. A drain marker among them gives its slot back and is not acknowledged, which the spec leaves open
(log 57). -/
def State.unbindPort (s : State) (core ctx : Nat) (q : QReg) : State :=
  let g := s.group core
  let p := (g.ctx ctx).port q
  let g' := (g.markEnd p false).modCtx ctx fun c => c.setPort q {}
  match p.kind with
  | 5 =>
    let c := g'.chan p.idx
    if c.out then s.modGroup core fun _ => g'
    else
      let s := s.modGroup core fun _ => g'.setChan p.idx { c with slots := [] }
      if c.slots.isEmpty then s
      else s.post (.drainMarkerAck ⟨c.peer, g.launch, some p.idx, none, none, c.slots.length, false⟩)
  | 6 => s.modGroup core fun _ => g'.setFifo p.idx { g'.fifo p.idx with ops := [] }
  | _ => s.modGroup core fun _ => g'

/-! ## The instructions (R387) -/

def execPbind (d : SReg) (q : QReg) (a : SReg) (s : State) : Res :=
  instr 8 (do
    names 0xA0 [(10, d), (17, a)]
    let x ← rdS a
    let desc ← readBlock x 32 8
    let s ← get
    let (r, g) := s.myGroup.bind s.curCtx q desc false
    (if r = 1 then modS fun s => (s.modGroup s.curCore fun _ => g).reachPort s.curCore ((g.ctx s.curCtx).port q)
    else pure ())
    wrS d (BitVec.ofNat 64 r)) s

/-- Whether a queued or running porter command names a FIFO (R388). -/
def Group.fifoInUse (g : Group) (i : Nat) : Bool :=
  g.queues.list.any fun p => p.2.items.any fun it =>
    match it with
    | .cmd c => c.fifo == some i
    | .chain _ (some c) _ => c.fifo == some i
    | _ => false
def execPfree (q : QReg) (s : State) : Res :=
  instr 8 (do
    let s ← get
    let p := s.me.port q
    if p.kind = 0 then pure ()
    else if p.kind = 6 && s.myGroup.fifoInUse p.idx then spend
    else modS fun s => s.unbindPort s.curCore s.curCtx q) s

/-- The word of `pstat` (R58): an end marker counts as an element that is ready, a drain marker does not (log 57). -/
def portWord (g : Group) (p : Port) : Word :=
  let live (es : List Elem) : Nat := (es.filter fun e => !isDrain e).length
  let left := min 255 (p.count - p.pos)
  let (avail, allow) := match p.kind with
    | 1 => (left, 0)
    | 2 => (0, left)
    | 3 => (live (g.lq p.idx).elems, 0)
    | 4 => (0, 8 - (g.lq p.idx).elems.length)
    | 5 => if p.write then (0, (g.chan p.idx).allowance) else (live (g.chan p.idx).slots, 0)
    | 6 => ((g.fifo p.idx).ops.length, 0)
    | _ => (0, 0)
  BitVec.ofNat 64 (2 ^ 24 * allow + 2 ^ 16 * p.drains.toNat + (if p.ended then 2 ^ 12 else 0) + 16 * avail + p.kind)
def execPstat (d : SReg) (q : QReg) (s : State) : Res :=
  instr 8 (do
    names 0xA2 [(10, d)]
    let s ← get
    wrS d (portWord s.myGroup (s.me.port q))) s

def execPclose (q : QReg) (s : State) : Res :=
  instr 8 (do
    let p := (← me).port q
    if p.kind = 0 then misuse 1 q
    else if p.kind = 6 || !p.write then misuse 5 q
    else if p.kind = 2 then modMe fun c => c.setPort q { p with count := p.pos }
    else pushElem q p .finish) s
def execPmark (q : QReg) (k : Option KReg) (s : State) : Res :=
  instr 8 (do
    let p := (← me).port q
    let g ← myGroup
    if p.kind = 0 then misuse 1 q
    else if p.kind = 6 || !p.write || p.kind = 2 then misuse 5 q
    else
      (match k with
       | some k => needM (g.cmask.getLsbD k.toNat) 7 (BitVec.ofNat 64 k.toNat)
       | none => pure ())
      pushElem q p (.drain k)) s

end Sys2Proof.Machine
end

