-- ==== Sys2Proof/Machine/Threads.lean ====
section
/-! DEFINITION. Sys2Proof/Machine/Threads.lean: starting and ending helpers, barriers, follow mode, tasks, checkpoints, wake
tokens (R34 to R48, R291, R292, R340, R347, R362, R363, R365, R386, R398, R399, R405, R406, R434). -/
namespace Sys2Proof.Machine

/-! ## Group names (R30, R65) -/

def namePanel (n : Word) : Nat := (n.extractLsb' 56 8).toNat
def nameGen (n : Word) : Nat := (n.extractLsb' 32 24).toNat
def nameIdx (n : Word) : Nat := (n.extractLsb' 0 32).toNat
/-- The core and launch that a current name of a tenant on this panel names, while its group has not retired. -/
def State.nameOwner (s : State) (name : Word) (tenant : Nat) : Option (Nat × Nat) :=
  let e : Name := Cells.get {} s.names (nameIdx name)
  match e.owner with
  | some (core, l) => if e.gen = nameGen name && (s.launch l).tenant = tenant && (s.launchGroup core l).isSome then some (core, l) else none
  | none => none
/-- A name of the own panel that is dead raises cause 0x0D (R65). -/
def liveNameM (name : Word) : M Unit := do
  let s ← get
  if namePanel name = s.myPanel && (s.nameOwner name s.myGroup.tenant).isNone then trapM 0x0D name else pure ()
/-- A panel that cannot be reached raises cause 0x11; a held route is a wait (R244, R245). -/
def routeM (name : Word) : M Unit := do
  let s ← get
  if 63 < namePanel name then trapM 0x11 name
  else
    match s.routeTo (namePanel name) with
    | .unreachable => trapM 0x11 name
    | .held => spend
    | _ => pure ()

/-! ## Starting a helper (R34, R38, R398) -/

/-- Whether a helper slot is free: no context, no task, not lent (R365). -/
def Group.slotFree (g : Group) (i : Nat) : Bool :=
  (g.ctx i).status == .free && !(g.lent.any fun p => p.1 == i) && !(g.taskBusy.any fun t => t.slot == i && t.stage != 3)
/-- The lowest free helper slot of a group. -/
def Group.freeSlot (g : Group) : Option Nat := ((List.range g.helpers).map (· + 1)).find? fun i => g.slotFree i
/-- The core epoch advances for a context that acquires as it starts; at its limit the L1 wraps first (R122). -/
def Core.nextEpoch (c : Core) : Core :=
  let c := if 0xFFFFFFFF ≤ c.epoch then c.wrapL1 else c
  { c with epoch := c.epoch + 1 }
/-- The low registers and the stack of a new context: `args` from s8 on. -/
def argStack (args : List Word) : Cells Word :=
  ⟨((List.range args.length).zip args).filter fun p => p.2 != 0⟩
/-- A new context (R38): what the slot keeps is its launch-bound ports, its event counters and its last exit value. -/
def freshCtx (old : Ctx) (pc : Word) (args : List Word) (agent epoch eligible : Nat) (clock : Clock) : Ctx :=
  { status := .ready, pc := pc &&& ~~~3#64, stack := argStack args, ports := old.ports, ev := old.ev,
    exitVal := old.exitVal, exitRel := old.exitRel, agent, acquireEpoch := epoch, eligible, clock }
/-- Start a context in a slot of the bound group of a core: its ports that the launch did not bind are unbound, and its first
instruction acquires `clock` (R135, R137). -/
def State.startIn (s : State) (core slot : Nat) (pc : Word) (args : List Word) (clock : Clock) (tk : Option TaskRec) :
    State :=
  let s := (List.range 8).foldl (fun s q =>
    let p := (s.ctx core slot).port (BitVec.ofNat 3 q)
    if p.kind = 0 || p.fixed then s else s.unbindPort core slot (BitVec.ofNat 3 q)) s
  let s := s.modCore core Core.nextEpoch
  let agent := s.nextAgent
  { s with nextAgent := agent + 1 }.modCtx core slot fun c =>
    { freshCtx c pc args agent (s.core core).epoch ((s.core core).cycle.toNat + 1) clock with
      task := tk, reports := if tk.isSome then c.reports else [] }
/-- Start a helper in the lowest free slot: its index, 0 where none is free. -/
def State.startHelper (s : State) (core : Nat) (pc : Word) (args : List Word) (clock : Clock) : State × Nat :=
  match (s.group core).freeSlot with
  | none => (s, 0)
  | some i => (s.startIn core i pc args clock none, i)

/-- The four argument registers s[c] to s[c+3] with the field bit of c. -/
def argRegs (bit : Nat) (c : SReg) : List (Nat × SReg) := [(bit, c), (bit, c + 1), (bit, c + 2), (bit, c + 3)]
/-- `start` at a target (R398). -/
def startM (d : SReg) (target : Word) (args : List Word) : M Unit := do
  let r ← beginRelease .pod
  let s ← get
  let (s', i) := s.startHelper s.curCore target args r.clock
  set s'
  endRegion
  wrS d (BitVec.ofNat 64 i)
def execStart (d b c : SReg) (s : State) : Res :=
  instr 8 (do
    names 0xA5 ([(10, d), (24, b)] ++ argRegs 31 c)
    startM d (← rdS b) (← rdArgs c)) s
def execStartFe (d c : SReg) (target : Word) (s : State) : Res :=
  instr 16 (do
    names 0xFD ([(10, d)] ++ argRegs 31 c)
    startM d target (← rdArgs c)) s

/-! ## Spawn (R39, R399) -/

/-- The inline child of a refused spawn: the frame is marked inline. -/
def inlineChild (len : Nat) (d : SReg) (target : Word) (args : List Word) : M Unit := do
  let a := (← me).pc
  wrS d 0
  shiftUp
  wrS 8 (args.getD 0 0)
  wrS 9 (args.getD 1 0)
  wrS 10 (args.getD 2 0)
  wrS 11 (args.getD 3 0)
  wrS 31 ((a + BitVec.ofNat 64 len) ||| 1)
  jumpTo target
/-- `spawn` to a target (R399). -/
def spawnM (len : Nat) (d : SReg) (name target : Word) (args : List Word) : M Unit := do
  let c ← me
  match c.spawnReply with
  | some .accepted => do endRegion; endRegion; wrS d 1; advance len
  | some .deadName => trapM 0x0D name
  | some .refused => do endRegion; endRegion; inlineChild len d target args
  | none =>
    if c.access.isSome then spend
    else
      liveNameM name
      routeM name
      let r ← beginRelease .pod
      reserveM 1
      let flush ← keepFlush
      let g ← myGroup
      stayM fun s =>
        let s := flush s
        let e : Event := .spawnRequest ⟨⟨s.curCore, s.curCtx, g.launch⟩, name, target, args, g.tenant, false, r, g.tgen⟩
        let s := s.modCore s.curCore fun c => { c with reserved := c.reserved + 1 }
        (s.modMe fun c => { c with access := some { pc := c.pc, id := 0, need := 1 } }).sendTo (namePanel name) e
def execSpawn (d a b c : SReg) (s : State) : Res :=
  runInstr 8 (do
    names 0xA6 ([(10, d), (17, a), (24, b)] ++ argRegs 31 c)
    spawnM 8 d (← rdS a) (← rdS b) (← rdArgs c)) s
def execSpawnFe (d a c : SReg) (target : Word) (s : State) : Res :=
  runInstr 16 (do
    names 0xFE ([(10, d), (17, a)] ++ argRegs 31 c)
    spawnM 16 d (← rdS a) target (← rdArgs c)) s

/-! ## Join, halt, tdone (R38, R44, R363, R365, R406) -/

def execJoin (d a : SReg) (s : State) : Res :=
  instr 8 (do
    names 0xA7 [(10, d), (17, a)]
    let x ← rdS a
    let s ← get
    let i := x.toNat
    let done (rels : List Rel) (v : Word) : M Unit := do
      endRegion
      endAcquire .core rels
      endRegion
      wrS d v
    if i = 0 || 10 < i || i = s.curCtx then done [] (BitVec.allOnes 64)
    else if !s.myGroup.slotFree i then spend
    else done (s.myGroup.ctx i).exitRel.toList (s.myGroup.ctx i).exitVal) s

/-- Reports of engine conflicts that no context is left to take (R142, R273). -/
def lateReports (c : Ctx) : Nat := (c.reports.filter fun r => r.code == 0x14).length
/-- The context becomes free (R34), which a `join` of its slot observes (R135); `exit` is the slot's new exit value. -/
def endContext (exit : Option Word) : M Unit := do
  let r ← beginRelease .core
  modS fun s => s.modLaunch s.myGroup.launch fun l => { l with late14 := l.late14 + lateReports s.me }
  modMe fun c => { c with
    status := .free, follow := none, access := none, reports := [], task := none,
    exitVal := exit.getD c.exitVal, exitRel := some r }
/-- The ports that the launch bound to a context index: they belong to the slot (R38). -/
def Ctx.fixedPorts (c : Ctx) : Cells Port := ⟨c.ports.list.filter fun p => p.2.fixed⟩
/-- What a lent slot keeps for the task while its owner is parked (R38, R45, R277): its launch-bound ports, event counters and last exit
value. -/
def Ctx.lending (c : Ctx) : Ctx := { ports := c.fixedPorts, ev := c.ev, exitVal := c.exitVal, exitRel := c.exitRel }
/-- A context that goes on in a slot: what belongs to the slot is the slot's (R38, R45, R277). -/
def Ctx.inSlot (c slot : Ctx) : Ctx :=
  { c with
    ports := slot.fixedPorts.list.foldl (fun ps p => Cells.set {} ps p.1 p.2) ⟨c.ports.list.filter fun p => !p.2.fixed⟩
    ev := slot.ev, exitVal := slot.exitVal, exitRel := slot.exitRel }
/-- A lent slot returns to its parked owner, whose event counters have gone on counting (R45, R277). -/
def Group.giveBack (g : Group) (slot : Nat) : Group :=
  match g.lent.find? fun p => p.1 == slot with
  | some (_, owner) => { g.setCtx slot { owner with ev := (g.ctx slot).ev } with lent := g.lent.filter fun p => p.1 != slot }
  | none => g
/-- The end of a task (R44, R406): the context is free, the footprint goes to its write-back; a lent slot returns to its
parked owner (R45). -/
def endTask : M Unit := do
  endContext none
  let s ← get
  let i := s.curCtx
  modMyGroup fun (g : Group) =>
    ({ g with taskBusy := g.taskBusy.map fun t => if t.slot = i && t.stage = 1 then { t with stage := 2 } else t } : Group).giveBack i
/-- `halt` in the order of R363. -/
def haltM (a : SReg) : M Unit := do
  let c ← me
  if (← rdS 31).getLsbD 0 then retM
  else if c.task.isSome then endTask
  else
    let x ← rdS a
    endContext (if (← get).curCtx = 0 then none else some x)
def execHalt (a : SReg) (s : State) : Res :=
  runInstr 8 (do
    names 0x38 [(17, a)]
    haltM a) s
def execTdone (s : State) : Res :=
  runInstr 8 (do if (← me).task.isSome then endTask else haltM 0) s

/-! ## Barriers (R46 to R48, R340) -/

/-- The event values that a member contributes at arrival: sums over the contexts of its group (R47, R277). The counters of a lent slot
go on in the slot (R45), so that each slot is counted once. -/
def addSums (sums : List (Nat × Word)) (g : Group) : List (Nat × Word) :=
  (List.range 16).map fun i =>
    (i, g.ctxs.list.foldl (fun acc c => acc + Cells.get 0 c.2.ev i) (match sums.find? fun p => p.1 == i with
         | some p => p.2
         | none => 0))
/-- The arrival of a member core. -/
def Barrier.arrive (b : Barrier) (core : Nat) (r : Rel) (g : Group) (gather : Option (Nat × Word)) : Barrier :=
  if b.arrived.contains core then b
  else { b with arrived := b.arrived ++ [core], rels := b.rels ++ [r], sums := addSums b.sums g,
                gather := if gather.isSome then gather else b.gather }
/-- A barrier of a launch. -/
def Launch.bar (l : Launch) (d : Nat) : Barrier := Cells.get {} l.bars d
/-- Change a barrier of a launch. -/
def State.modBar (s : State) (launch d : Nat) (f : Barrier → Barrier) : State :=
  s.modLaunch launch fun l => { l with bars := Cells.set {} l.bars d (f (l.bar d)) }
/-- The address check of a gathered record at its root: window and alignment only (R340). -/
def gatherAddrM (va : Word) : M Unit := do
  let s ← get
  let a ← myActor
  match s.resolve a va 8 .store with
  | .error (.trap 4) => trapM 4 va
  | _ => if va.toNat % 8 ≠ 0 then trapM 3 va else pure ()
/-- The first issue of a `bar`: a control context arrives, a helper only waits. -/
def arriveM (d : Nat) (addr : Word) (mask : BitVec 16) (root : Bool) : M Unit := do
  let s ← get
  let n := s.myGroup.launch
  let epoch := ((s.launch n).bar d).epoch
  if s.curCtx ≠ 0 then stayM fun s => s.modMe fun c => { c with bar := some (epoch, d) }
  else
    (if root && mask ≠ 0 then gatherAddrM addr else pure ())
    let r ← beginRelease .panel
    let flush ← keepFlush
    stayM fun s =>
      let s := (flush s).modMe fun c => { c.nextRegion.nextRegion with bar := some (epoch, d) }
      s.modBar n d fun b => b.arrive s.curCore r s.myGroup (if root && mask ≠ 0 then some (mask.toNat, addr) else none)
def execBar (a b : SReg) (mask : BitVec 16) (s : State) : Res :=
  instr 16 (do
    names 0xA8 [(17, a), (24, b)]
    let d ← rdS a
    let addr ← rdS b
    let s ← get
    let g := s.myGroup
    let cores := subgroupCores g.rect.toNat d.toNat
    if !subgroupOk g.rect.toNat d.toNat || !cores.contains s.curCore then trapM 7 d
    else
      match s.me.bar with
      | some (e, d') =>
        if d' ≠ d.toNat then arriveM d.toNat addr mask (cores.head? == some s.curCore)
        else
          let br := (s.launch g.launch).bar d'
          if br.epoch ≤ e then spend
          else do
            modMe fun c => { c with bar := none }
            endRegion
            endAcquire .panel br.done
            endRegion
      | none => arriveM d.toNat addr mask (cores.head? == some s.curCore)) s

/-! ## Follow mode (R41, R362) -/

/-- The cluster leader of a core: the lowest core of the launch in its chiplet. -/
def leaderOf (rect core : Nat) : Nat :=
  ((rectCores rect).filter fun c => chipOf c == chipOf core).foldl Nat.min core
/-- Whether a context may follow its leader: another core, the same image, the leader's context live. -/
def State.canFollow (s : State) (core ctx : Nat) : Bool :=
  let g := s.group core
  let l := leaderOf g.rect.toNat core
  let h := s.group l
  l != core && h.launch == g.launch && h.role == g.role && (h.ctx ctx).status != .free
def execFollow (d : SReg) (s : State) : Res :=
  instr 8 (do
    names 0xA9 [(10, d)]
    let s ← get
    match s.me.follow with
    | some f => if f.active then wrS d 1
                else if s.canFollow s.curCore s.curCtx then spend
                else do
                  modMe fun c => { c with follow := none }
                  wrS d 0
    | none =>
      if s.canFollow s.curCore s.curCtx then
        stayM fun s => s.modMe fun c => { c with follow := some ⟨leaderOf s.myGroup.rect.toNat s.curCore, false, []⟩ }
      else wrS d 0) s
def execLeave (s : State) : Res := instr 8 (modMe fun c => { c with follow := none }) s

/-! ## Tasks (R42, R405) -/

/-- Field of a record held as a number: n bytes from byte i. -/
def field (x i n : Nat) : Nat := x / 256 ^ i % 256 ^ n
/-- The whole lines of a range: the address of the first, the bytes they are. -/
def widen (base len : Nat) : Nat × Nat :=
  if len = 0 then (0, 0) else (base / 128 * 128, (base % 128 + len + 127) / 128 * 128)
/-- The result of queueing a task record (R42). -/
def taskResult (g : Group) (l : Launch) (x : Nat) : Nat :=
  let total := ((List.range 4).map fun i => (widen (field x (40 + 16 * i) 8) (field x (48 + 16 * i) 8)).2).sum
  if g.helpers = 0 then 4
  else if field x 104 24 ≠ 0 then 3
  else if l.taskGran * 2 ^ 18 < total then 2
  else if 256 ≤ l.tasks.length then 0 else 1
def execTask (d a : SReg) (s : State) : Res :=
  instr 8 (do
    names 0xAB [(10, d), (17, a)]
    let va ← rdS a
    let vs ← loadM 128 none [(0, va)]
    let x := (vs.map (·.2)).getD 0 0
    let s ← get
    let g := s.myGroup
    let r := taskResult g (s.launch g.launch) x
    let _ ← beginRelease .pod
    (if r = 1 then do
      let act ← myActor
      let w (i : Nat) : Word := BitVec.ofNat 64 (field x i 8)
      let t : TaskRec := { pc := w 0, args := [w 8, w 16, w 24, w 32], actor := act,
                           ranges := [(w 40, w 48), (w 56, w 64), (w 72, w 80), (w 88, w 96)] }
      modS fun s => s.modLaunch g.launch fun l => { l with tasks := l.tasks ++ [t] }
    else pure ())
    endRegion
    wrS d (BitVec.ofNat 64 r)) s

/-! ## Checkpoints (R291, R292, R347) -/

/-- The context as its image holds it (R37, R69): at its instruction, which executes again from the beginning; every result
has been written. -/
def Ctx.image (c : Ctx) : Ctx :=
  { c with
    status := if c.status = .free then .free else .ready
    access := none, late := [], spawnReply := none, met := none, maint := [], maintCount := 0, unacked := 0, sawMiss := false, sawMark := false, walkFault := none }
/-- Logical chiplet that holds the checkpoints of a chiplet's groups (R292). -/
def buddyOf (chip : Nat) : Nat := 16 * (chip / 16) + (chip % 16 + 1) % 16
/-- Vault bytes that checkpoint slots of a chiplet's groups use. -/
def State.ckptUsed (s : State) (chip : Nat) : Nat :=
  (s.cores.list.map fun p =>
    if chipOf p.1 = chip then
      ((p.2.group :: p.2.saved).map fun g => match g.ckpt with
        | some k => 2 * k.bytes
        | none => 0).sum
    else 0).sum
/-- The ranges of a range record: offset and length of the entries in use. -/
def ckptRanges (x : Nat) : List (Nat × Nat) :=
  ((List.range 8).map fun i => (field x (8 * i) 4, field x (8 * i + 4) 4)).filter fun p => p.2 != 0
/-- The parts of the ranges, as plain reads of the own scratchpad. -/
def ckptParts (s : State) (rs : List (Nat × Nat)) : List Part :=
  rs.flatMap fun p => (List.range (p.2 / 128)).map fun i =>
    let off := p.1 + 128 * i
    ⟨.scratch s.myPanel s.curCore (gmapOff s.myGroup.gmap off), 2 ^ 63 + off, BitVec.allOnes 128, 0, true, []⟩
/-- The bytes and full/empty bits of a range. -/
def State.rangeImage (s : State) (core off len : Nat) : Nat × List Byte × List Bool :=
  let g := s.group core
  (off,
   (List.range (len / 128)).flatMap fun i => s.store.bytes (scratchKey core (gmapOff g.gmap (off + 128 * i))) 128,
   (List.range (len / 128)).map fun i => s.store.isEmpty (scratchKey core (gmapOff g.gmap (off + 128 * i))))
/-- The checkpoint of the current group: the issuer's image stands after its `ckpt` with s[d] = 1. -/
def State.ckptOf (s : State) (d : SReg) (rs : List (Nat × Nat)) (bytes : Nat) : Ckpt :=
  let g := s.myGroup
  let g' := g.modCtx s.curCtx fun c => { c.setSReg d 1 with pc := c.pc + 8 }
  { seq := (match g.ckpt with
      | some k => k.seq + 1
      | none => 1)
    ctxs := ⟨g'.ctxs.list.map fun p => (p.1, p.2.image)⟩
    trapvec := g.trapvec, lqs := g.lqs
    ranges := rs.map fun p => s.rangeImage s.curCore p.1 p.2
    bytes }
def execCkpt (d a : SReg) (s : State) : Res :=
  instr 8 (do
    names 0xAD [(10, d), (17, a)]
    let va ← rdS a
    let x ← (if a = 0 then pure 0 else readBlock va 64 64)
    let rs := ckptRanges x
    let s ← get
    let g := s.myGroup
    let total := (rs.map (·.2)).sum
    let need := 96 * 1024 + total
    let buddy := buddyOf (chipOf s.curCore)
    if s.curCtx ≠ 0 || s.me.task.isSome then wrS d 2
    else if rs.any fun p => p.1 % 128 ≠ 0 || p.2 % 128 ≠ 0 || g.part * 2 ^ 18 < p.1 + p.2 then wrS d 3
    else
      let room := match g.ckpt with
        | some k => need ≤ k.bytes
        | none => s.ckptUsed (chipOf s.curCore) + 2 * need ≤ 2 ^ 26
      if !room || !s.tables.chipValid buddy then wrS d 4
      else if g.queues.list.any (fun q => !q.2.items.isEmpty) || !g.sideLog.isEmpty || !(s.core s.curCore).mmas.isEmpty then
        spend
      else
        let ps := ckptParts s rs
        markRoomM ps
        checkM false true ps
        match ps.find? fun p => s.partPoison p with
        | some p => trapM 0x10 (BitVec.ofNat 64 p.va) true
        | none => do
          modMyGroup fun g => { g with ckpt := some (s.ckptOf d rs (match g.ckpt with
            | some k => k.bytes
            | none => need)) }
          wrS d 0) s

/-! ## Wake tokens (R40, R386, R434) -/

def execPark (s : State) : Res :=
  instr 8 (do
    let c ← me
    if c.token then do
      endRegion
      endAcquire .pod c.tokenRel.toList
      modMe fun c => { c with token := false, tokenRel := none }
      endRegion
    else waitM .park) s
def execWake (a b : SReg) (s : State) : Res :=
  instr 8 (do
    names 0xAF [(17, a), (24, b)]
    let name ← rdS a
    let w ← rdS b
    routeM name
    let r ← beginRelease .pod
    let g ← myGroup
    modS fun s => s.sendTo (namePanel name)
      (.wakeArrival ⟨⟨s.curCore, s.curCtx, g.launch⟩, name, (w.extractLsb' 0 4).toNat, g.tenant, r, g.tgen⟩)
    endRegion) s

end Sys2Proof.Machine
end

