-- ==== Sys2Proof/Machine/Containers.lean ====
section
/-! DEFINITION. Sys2Proof/Machine/Containers.lean: image containers: layout, relocations, checks (R102 to R110), the launch fields they
give and the checks of ports and channels (R26, R31, R32, R105). -/
namespace Sys2Proof.Machine

/-! ## Layout (R106 to R108) -/

/-- The n bytes from an offset as a number. -/
def at' (bs : List Byte) (off n : Nat) : Nat := leNat ((bs.drop off).take n)
/-- A signed byte. -/
def signed8 (x : Nat) : Int := if x < 128 then x else (x : Int) - 256

/-- A role: offset and length of its code, data and scratch sections, length of its zero section, its relocations. -/
structure Role where
  code : Nat × Nat
  data : Nat × Nat
  scratch : Nat × Nat
  zero : Nat
  relOff : Nat
  relCount : Nat
  reserved : Nat
deriving DecidableEq, Repr
/-- A kernel: the launch fields that the program fixes, and its rows. -/
structure Kernel where
  regs : Nat
  helpers : Nat
  part : Nat
  gran : Nat
  flags : Nat
  place : Nat × Nat
  ports : Nat × Nat
  chans : Nat × Nat
  reserved : Nat
deriving DecidableEq, Repr
/-- A placement row. -/
structure PlaceRow where
  dx : Nat
  dy : Nat
  w : Nat
  h : Nat
  role : Nat
  reserved : Nat
  entry : Nat
deriving DecidableEq, Repr
/-- A port row. -/
structure PortRow where
  role : Nat
  ctx : Nat
  qn : Nat
  reserved : Nat
  off : Nat
deriving DecidableEq, Repr
/-- A channel row. -/
structure ChanRow where
  role : Nat
  num : Nat
  ctx : Nat
  out : Nat
  prio : Nat
  dx : Int
  dy : Int
deriving DecidableEq, Repr

def roleCount (bs : List Byte) : Nat := at' bs 8 2
def kernelCount (bs : List Byte) : Nat := at' bs 0xA 2
/-- Role r. -/
def roleAt (bs : List Byte) (r : Nat) : Role :=
  let o := at' bs 0x10 4 + 40 * r
  let f (i : Nat) : Nat := at' bs (o + 4 * i) 4
  ⟨(f 0, f 1), (f 2, f 3), (f 4, f 5), f 6, f 7, f 8, f 9⟩
/-- Kernel k. -/
def kernelAt (bs : List Byte) (k : Nat) : Kernel :=
  let o := at' bs 0x14 4 + 64 * k
  let f (i n : Nat) : Nat := at' bs (o + i) n
  ⟨f 0 2, f 2 1, f 3 1, f 4 1, f 5 1, (f 8 2, f 10 2), (f 12 2, f 14 2), (f 16 2, f 18 2), f 6 2 + f 20 12⟩
def placeAt (bs : List Byte) (i : Nat) : PlaceRow :=
  let o := at' bs 0x18 4 + 16 * i
  let f (i n : Nat) : Nat := at' bs (o + i) n
  ⟨f 0 1, f 1 1, f 2 1, f 3 1, f 4 2, f 6 2, f 8 8⟩
def portAt (bs : List Byte) (i : Nat) : PortRow :=
  let o := at' bs 0x1C 4 + 16 * i
  let f (i n : Nat) : Nat := at' bs (o + i) n
  ⟨f 0 2, f 2 1, f 3 1, f 4 4, f 8 8⟩
def chanAt (bs : List Byte) (i : Nat) : ChanRow :=
  let o := at' bs 0x20 4 + 8 * i
  let f (i n : Nat) : Nat := at' bs (o + i) n
  ⟨f 0 2, f 2 1, f 3 1, f 4 1, f 5 1, signed8 (f 6 1), signed8 (f 7 1)⟩
/-- The boot-tree byte of a logical chiplet. -/
def treeAt (bs : List Byte) (chip : Nat) : Nat := at' bs (at' bs 0x24 4 + chip) 1
/-- Image name. -/
def imageName (bs : List Byte) : List Byte := (bs.drop 0x30).take 16
/-- The rows of a kernel. -/
def rowsOf {α : Type} (f : Nat → α) (r : Nat × Nat) : List α := (List.range r.2).map fun i => f (r.1 + i)
/-- How many rows of each table the kernels name. -/
def rowsUsed (bs : List Byte) (sel : Kernel → Nat × Nat) : Nat :=
  ((List.range (kernelCount bs)).map fun k => let r := sel (kernelAt bs k); r.1 + r.2).foldl Nat.max 0

/-! ## Relocated sections (R102, R107) -/

/-- The bases of a role's sections: code, data, zero; the scratch section has the own-scratchpad window. -/
def Image.base (im : Image) (role target : Nat) : Nat :=
  match im.bases.find? fun b => b.1 == role with
  | some (_, c, d, z) => if target = 0 then c else if target = 1 then d else if target = 2 then z else 2 ^ 63
  | none => 0
/-- Add a number to the 8-byte value at an offset. -/
def addAt (bs : List Byte) (off n : Nat) : List Byte :=
  bs.take off ++ leBytes 8 (at' bs off 8 + n) ++ bs.drop (off + 8)
/-- The bytes of a section of a role (0 code, 1 data, 2 scratch) with its relocations applied. -/
def Image.section' (im : Image) (role sec : Nat) : List Byte :=
  let r := roleAt im.bytes role
  let p := if sec = 0 then r.code else if sec = 1 then r.data else r.scratch
  let raw := (im.bytes.drop p.1).take p.2
  (List.range r.relCount).foldl (fun bs i =>
    let x := at' im.bytes (r.relOff + 8 * i) 8
    if x / 2 ^ 32 % 4 = sec && x % 2 ^ 32 + 8 ≤ bs.length then addAt bs (x % 2 ^ 32) (im.base role (x / 2 ^ 34 % 4)) else bs) raw
/-- The container of a launch, with the bases of its own copy of the sections (R102; log 59). -/
def State.imageOf (s : State) (l : Launch) : Image :=
  let im : Image := Cells.get {} s.images l.image
  if l.bases.isEmpty then im else { im with bases := l.bases }
/-- Whether an address lies in a page of the code section of a role that the image holds (R73, R102). -/
def Image.inCode (im : Image) (va : Nat) : Bool :=
  (List.range (roleCount im.bytes)).any fun r =>
    let b := im.base r 0
    let n := (roleAt im.bytes r).code.2
    n != 0 && b ≤ va && va < b + (n + 0xFFFF) / 2 ^ 16 * 2 ^ 16

/-! ## The checks of a container (R109, R110) -/

/-- The signature matches one of the tenant's keys. -/
def signedBy (keys : List (List Byte)) (bs : List Byte) : Bool :=
  let so := at' bs 0x28 4
  keys.any fun k => (Config.sha512 k).take 8 == (bs.drop so).take 8
    && Config.verify k (Config.sha512 (bs.take so)) ((bs.drop (so + 8)).take 132)
/-- A piece lies inside the container. -/
def inside (bs : List Byte) (off n : Nat) : Bool := off + n ≤ bs.length
/-- Header and offsets. DESIGN CHOICE (log 10): the magic and the version are checked with them, and so are a load length that is not the
total length, a relocation offset outside its section and a code offset that is no multiple of 32, cases that R110 does not name. -/
def offsetsOk (bs : List Byte) : Bool :=
  64 ≤ bs.length && at' bs 0 4 == 0x43524E4A && at' bs 4 2 == 1 && at' bs 0x2C 4 == bs.length
    && at' bs 0x28 4 + 140 == bs.length
    && inside bs (at' bs 0x10 4) (40 * roleCount bs) && inside bs (at' bs 0x14 4) (64 * kernelCount bs)
    && inside bs (at' bs 0x18 4) (16 * rowsUsed bs (·.place)) && inside bs (at' bs 0x1C 4) (16 * rowsUsed bs (·.ports))
    && inside bs (at' bs 0x20 4) (8 * rowsUsed bs (·.chans)) && inside bs (at' bs 0x24 4) 256
    && (List.range (roleCount bs)).all fun r =>
      let x := roleAt bs r
      inside bs x.code.1 x.code.2 && x.code.1 % 32 == 0 && inside bs x.data.1 x.data.2 && inside bs x.scratch.1 x.scratch.2
        && inside bs x.relOff (8 * x.relCount)
        && (List.range x.relCount).all fun i =>
          let y := at' bs (x.relOff + 8 * i) 8
          let len := [x.code.2, x.data.2, x.scratch.2].getD (y / 2 ^ 32 % 4) 0
          y / 2 ^ 32 % 4 == 3 || y % 2 ^ 32 + 8 ≤ len
/-- Every reserved byte is zero. DESIGN CHOICE (log 10): bits 7:1 of a kernel's flags and relocation place 3 count as reserved, and the
reserved bytes of placement and port rows are looked at in the rows that a kernel names. -/
def reservedOk (bs : List Byte) : Bool :=
  at' bs 0xC 4 == 0
    && ((List.range (roleCount bs)).all fun r =>
      let x := roleAt bs r
      x.reserved == 0 && (List.range x.relCount).all fun i =>
        let y := at' bs (x.relOff + 8 * i) 8
        y / 2 ^ 36 == 0 && y / 2 ^ 32 % 4 != 3)
    && ((List.range (kernelCount bs)).all fun k => (kernelAt bs k).reserved == 0 && (kernelAt bs k).flags < 2)
    && ((List.range (rowsUsed bs (·.place))).all fun i => (placeAt bs i).reserved == 0)
    && ((List.range (rowsUsed bs (·.ports))).all fun i => (portAt bs i).reserved == 0)
    && ((List.range 256).all fun c => !(treeAt bs c).testBit 3)
/-- Every row names a role of the container and an entry inside its code at a 4-byte multiple. DESIGN CHOICE (log 10): a port row whose
descriptor does not lie in its role's data section fails here too. -/
def rowsOk (bs : List Byte) : Bool :=
  ((List.range (rowsUsed bs (·.place))).all fun i =>
      let p := placeAt bs i
      p.role < roleCount bs && p.entry % 4 == 0 && p.entry < (roleAt bs p.role).code.2)
    && ((List.range (rowsUsed bs (·.ports))).all fun i =>
      let p := portAt bs i
      p.role < roleCount bs && p.off + 32 ≤ (roleAt bs p.role).data.2)
    && ((List.range (rowsUsed bs (·.chans))).all fun i => (chanAt bs i).role < roleCount bs)
/-- The logical chiplet of a quadrant's agent (R12). -/
def agentChip (q : Nat) : Nat := 8 * (q % 2) + 128 * (q / 2 % 2)
/-- The neighbour of a chiplet in a direction: 0 east, 1 west, 2 north, 3 south; none over the edge. -/
def neighbour (chip dir : Nat) : Option Nat :=
  let x := chip % 16
  let y := chip / 16
  match dir with
  | 0 => if x < 15 then some (chip + 1) else none
  | 1 => if 0 < x then some (chip - 1) else none
  | 2 => if 0 < y then some (chip - 16) else none
  | _ => if y < 15 then some (chip + 16) else none
/-- The children that a tree byte names. -/
def children (bs : List Byte) (chip : Nat) : List Nat :=
  (List.range 4).filterMap fun d => if (treeAt bs chip).testBit (4 + d) then neighbour chip d else none
/-- Following parents from a chiplet reaches a root, each parent naming its child. -/
def reachesRoot (bs : List Byte) : Nat → Nat → Bool
  | 0, _ => false
  | n + 1, chip =>
    if (treeAt bs chip).testBit 2 then true
    else
      match neighbour chip (treeAt bs chip % 4) with
      | some p => (children bs p).contains chip && reachesRoot bs n p
      | none => false
/-- Take chiplets that name no child among the others away, as long as there are any. -/
def peel (bs : List Byte) : Nat → List Nat → List Nat
  | 0, l => l
  | n + 1, l =>
    let l' := l.filter fun c => (children bs c).any fun d => l.contains d
    if l'.length = l.length then l else peel bs n l'
/-- The boot tree has the agents as roots, every chiplet reaches one through parents that name it as a child, and the children that
chiplets name make no cycle. -/
def treeOk (bs : List Byte) : Bool :=
  ((List.range 256).all fun c => (treeAt bs c).testBit 2 == ([0, 1, 2, 3].map agentChip).contains c && reachesRoot bs 257 c)
    && (peel bs 257 (List.range 256)).isEmpty
/-- The index of the first failing check, 0 where all pass (R110, R310). -/
def containerCheck (keys : List (List Byte)) (bs : List Byte) : Nat :=
  if !signedBy keys bs then 1 else if !offsetsOk bs then 2 else if !reservedOk bs then 3 else if !rowsOk bs then 4
  else if !treeOk bs then 5 else 0

/-! ## Launch fields (R26, R31, R32, R103 to R105) -/

/-- Register residency of a request (R31). -/
def residencyOf (n : Nat) : Option Nat :=
  if n = 0 || 256 < n then none else if n < 32 then some 32 else some ((n + 15) / 16 * 16)
/-- Helper slots of a residency and a wish (R32). -/
def helpersOf (r wanted : Nat) : Nat := Nat.min wanted (Nat.min 10 ((2048 - r) / r))
/-- The placement row of an offset: the first that covers it (R104). -/
def Image.rowFor (im : Image) (k : Kernel) (dx dy : Nat) : Option PlaceRow :=
  (rowsOf (placeAt im.bytes) k.place).find? fun p =>
    p.dx ≤ dx && dx < p.dx + p.w && p.dy ≤ dy && dy < p.dy + p.h
/-- The descriptor of a port row, as the container holds it after relocation. -/
def Image.descr (im : Image) (p : PortRow) : Nat := at' (im.section' p.role 1) p.off 32
/-- The channel ends of a role on a core: with their peers. -/
def Image.chansFor (im : Image) (k : Kernel) (role core : Nat) : Cells Chan :=
  ((rowsOf (chanAt im.bytes) k.chans).filter fun c => c.role == role).foldl (fun t c =>
    let peer := coreAt (((coreX core : Int) + c.dx).toNat) (((coreY core : Int) + c.dy).toNat)
    let e : Chan := { declared := true, ctx := c.ctx, out := c.out == 1, high := c.prio == 1, peer := peer }
    Cells.set {} t c.num e) Cells.empty
/-- Bind the ports of a role in a group that has none bound: the group, and whether every row gave 1. DESIGN CHOICE (log 10): a context of
11 or more or a port of 8 or more, for which R105 gives no outcome, counts as a bad declaration. -/
def Image.bindPorts (im : Image) (k : Kernel) (role : Nat) (g : Group) : Group × Bool :=
  ((rowsOf (portAt im.bytes) k.ports).filter fun p => p.role == role).foldl (fun acc p =>
    let (r, g) := acc.1.bind p.ctx (BitVec.ofNat 3 p.qn) (im.descr p) true
    (g, acc.2 && r == 1 && p.ctx < 11 && p.qn < 8 && p.off % 8 == 0)) (g, true)
/-- The peer of a channel row of the core at (dx, dy) of a launch of w by h: its offset, none outside. -/
def chanPeer (w h dx dy : Nat) (c : ChanRow) : Option (Nat × Nat) :=
  let x := (dx : Int) + c.dx
  let y := (dy : Int) + c.dy
  if 0 ≤ x && x < w && 0 ≤ y && y < h then some (x.toNat, y.toNat) else none
/-- Whether the ports and channels of every core of a rectangle pass R105. DESIGN CHOICE (log 10): so must a row's context below 11, its
channel number below 64 and its direction and priority of 0 or 1, for which R105 gives no outcome. -/
def Image.portsOk (im : Image) (k : Kernel) (w h : Nat) : Bool :=
  let rows := rowsOf (chanAt im.bytes) k.chans
  (List.range (w * h)).all fun i =>
    match im.rowFor k (i % w) (i / w) with
    | none => true
    | some row =>
      let mine := rows.filter fun c => c.role == row.role
      (im.bindPorts k row.role { chans := im.chansFor k row.role 0 }).2
        && (mine.map (·.num)).eraseDups.length == mine.length
        && mine.all fun c =>
          c.num < 64 && c.ctx < 11 && c.out < 2 && c.prio < 2
            && (match chanPeer w h (i % w) (i / w) c with
                | none => false
                | some (x, y) =>
                  match im.rowFor k x y with
                  | none => false
                  | some r => rows.any fun d => d.role == r.role && d.num == c.num && d.out != c.out && d.prio == c.prio
                      && d.dx == -c.dx && d.dy == -c.dy)

end Sys2Proof.Machine
end

