-- ==== Sys2Proof/Machine/Engine.lean ====
section
/-! DEFINITION. Sys2Proof/Machine/Engine.lean: the accesses of engines (porter commands, fired operations, task fetches):
their agents (R134, R137 rule 4), translation page by page (R194), waits on empty lines (R117), conflicts (R142), poison
(R290), the own core's L1 (R121). -/
namespace Sys2Proof.Machine

/-- Why an engine stops before its next unit: a state it waits for (an empty line's key, or another), a walk, lines that
must be asked for, a failure with its code (R209) and value. -/
inductive Halt where
  | wait (k : Option Nat)
  | walk (va : Word) (store : Bool)
  | ask (ps : List Part)
  | fail (code : Nat) (tval : Word)
deriving DecidableEq, Repr

/-- An engine at work: the panel, its agent, what it has got. -/
structure Eng where
  s : State
  a : Actor
  run : Run
/-- A computation of an engine: a unit either completes or leaves everything as it was. -/
abbrev E := StateT Eng (Except Halt)

/-- The agent of an engine that a context starts: the context's earlier regions happen before it, and the accesses of its
current region that precede it (R137 rule 4, R138). -/
def State.engineActor (s : State) (core ctx : Nat) (e : Engine) : State × Actor :=
  let a := s.actor core ctx
  ({ s with nextAgent := s.nextAgent + 1 },
   { a with engine := e, agent := s.nextAgent, region := 1, clock := Cells.set 0 a.clock a.agent (a.region - 1),
            issuer := if (s.ctx core ctx).touched then (a.agent, a.region) else (0, 0) })
/-- The agent joins releases: what they make visible happens before its later accesses (R149). -/
def joinActor (a : Actor) (rs : List Rel) : Actor := { a with clock := rs.foldl (fun c r => joinClock c r.clock) a.clock }

/-- Report an engine's conflict to the context it acts for (R142). -/
def State.engineConflict (s : State) (a : Actor) (write : Bool) (ps : List Part) : State :=
  match s.conflictOf a write true ps with
  | some va => s.report a.who ⟨0x14, BitVec.ofNat 64 va, false, none⟩
  | none => s
/-- Check and mark an engine's access; no free mark entry is a wait (R143). -/
def engMark (write : Bool) (p : Part) : E Unit := do
  let g ← get
  if p.checked && !g.s.markRoom g.a.who.core true then throw (.wait none)
  else set { g with s := (g.s.engineConflict g.a write [p]).markParts g.a write true [p] }

/-- Where an address of the engine lies; R209 names the codes of its failures. -/
def engLoc (va : Word) (write : Bool) : E Tgt := do
  let g ← get
  match g.s.resolve g.a va 1 (if write then .store else .load) with
  | .ok t => pure t
  | .error .miss => throw (.walk va write)
  | .error .wait => throw (.wait none)
  | .error (.trap 4) => throw (.fail 1 va)
  | .error (.trap 0x11) => throw (.fail 3 va)
  | .error (.trap _) => throw (.fail 2 va)

/-- The bytes of a line that an engine can read now: the storage of this panel with the own L1's dirty words, or what a
reply brought. -/
def engLine (t : Tgt) (mask : BitVec 128) : E (Line × Bool) := do
  let g ← get
  let got := findPart g.run.buf t.place
  if g.s.placePanel t.place ≠ g.s.myPanel then
    match got with
    | some p => pure (p.data, false)
    | none => throw (.ask [tgtPart t (BitVec.allOnes 128) 0])
  else match g.s.locate g.a false t.place t.byte with
  | .absent => throw (.wait none)
  | .ctr _ _ _ | .outside => throw (.fail 1 (BitVec.ofNat 64 t.va))
  | .key k =>
    if isScratchKey k then
      if g.s.store.isEmpty k then throw (.wait (some k))
      else
        (if g.run.waited.contains k then set { g with a := joinActor g.a (g.s.store.lineRel k).toList } else pure ())
        pure (g.s.store.line k, g.s.store.readsPoison k mask)
    else
      let l := (g.s.core g.a.who.core).line (g.s.l1Key t.place)
      if ownKey k && (g.s.store.needsFetch k mask).isEmpty && !g.s.store.sharedOut k mask then
        pure (mergeLine (byteMask l.dirty) l.data (g.s.store.line k), g.s.store.readsPoison k mask)
      else
        match got with
        | some p => pure (mergeLine (byteMask l.dirty) l.data p.data, g.s.store.readsPoison k mask)
        | none => throw (.ask [tgtPart t (BitVec.allOnes 128) 0])
  | .refused => throw (.fail 2 (BitVec.ofNat 64 t.va))

/-- The pieces of n bytes from an address, none across a line: address and length. -/
def pieces (va n : Nat) : List (Nat × Nat) :=
  if n = 0 then []
  else (List.range ((va % 128 + n + 127) / 128)).map fun i =>
    let lo := max va (va / 128 * 128 + 128 * i)
    (lo, min (va + n) (va / 128 * 128 + 128 * (i + 1)) - lo)
/-- Read pieces: the bytes in order and whether one is poisoned. -/
def engPieces : List (Nat × Nat) → E (List Byte × Bool)
  | [] => pure ([], false)
  | (va, n) :: rest => do
    let t ← engLoc (BitVec.ofNat 64 va) false
    let mask := maskOf t.byte n
    let (l, p) ← engLine t mask
    engMark false (tgtPart t mask 0)
    let (bs, q) ← engPieces rest
    pure ((List.range n).map (fun i => lineByte l (t.byte + i)) ++ bs, p || q)
/-- Read n bytes. -/
def engRead (va : Word) (n : Nat) : E (List Byte × Bool) := engPieces (pieces va.toNat n)
/-- Read n bytes as a little-endian number. -/
def engNum (va : Word) (n : Nat) : E Nat := do return leNat (← engRead va n).1

/-- A message of an engine that must be acknowledged before its command completes (R200); with no reply reservation free the engine
pauses (R231). -/
def engSend (panel : Nat) (e : Event) : E Unit := do
  let g ← get
  if 256 ≤ (g.s.core g.a.who.core).reserved then throw (.wait none)
  else set { g with
    s := (g.s.modCore g.a.who.core fun c => { c with reserved := c.reserved + 1 }).sendTo panel e
    run := { g.run with acks := g.run.acks + 1 } }
/-- Poison the units that a write touches (R290). -/
def Store.poisonMask (st : Store) (k : Nat) (mask : BitVec 128) : Store :=
  let st := if mask.extractLsb' 0 64 != 0 || isScratchKey k then st.setPoison k true else st
  if mask.extractLsb' 64 64 != 0 || isScratchKey k then st.setPoison (k + 64) true else st
/-- The own L1's copy of a line takes the bytes that an engine writes to its home; a fill on its way is not kept. -/
def Core.patchL1 (c : Core) (k : Nat) (mask : BitVec 128) (data : Line) : Core :=
  (if c.line k = {} then c else c.setL1 k { c.line k with data := mergeLine mask data (c.line k).data }).dropFills k
/-- Write one part of a line, with the release that it carries. -/
def engPart (p : Part) (psn : Bool) (rel : Option Rel := none) : E Unit := do
  engMark true p
  let g ← get
  let msg (panel : Nat) : E Unit :=
    engSend panel (.memoryRequest ⟨g.a, 0, .store [{ p with checked := false }], false, true, rel, 0⟩)
  let here (k : Nat) : E Unit := modify fun g =>
    let s := g.s.writeHome k p.mask p.data rel
    let s := if psn then { s with store := s.store.poisonMask k p.mask } else s
    { g with s := if cachedPlace p.place then s.modCore g.a.who.core fun c => c.patchL1 k p.mask p.data else s }
  match p.place with
  | .peer q _ _ => msg q
  | _ =>
    match g.s.locate g.a true p.place 0 with
    | .key k =>
      if isScratchKey k || (ownKey k && !g.s.store.sharedOut k p.mask) then here k
      else do
        modify fun g => { g with s := g.s.modCore g.a.who.core fun c => c.patchL1 (g.s.l1Key p.place) p.mask p.data }
        msg (g.s.placePanel p.place)
    | _ =>
      if g.s.placePanel p.place = g.s.myPanel then throw (.fail 2 (BitVec.ofNat 64 (p.va + lowByte p.mask)))
      else msg (g.s.placePanel p.place)
/-- The peer core that a place lies at. -/
def peerOf : Place → Option (Nat × Nat)
  | .peer q core _ => some (q, core)
  | _ => none
/-- Set scratchpad lines empty or full: own ones at once, those of a peer by one message. -/
def engSetLines (ps : List Part) (full : Bool) : E Unit := do
  let g ← get
  let r := if full then some (actorRel g.a g.s.myPanel .panel) else none
  ps.forM fun p =>
    match p.place with
    | .scratch _ _ _ =>
      (match g.s.keyOf p.place with
       | some k => modify fun g => { g with s := g.s.homeSetLine k full r }
       | none => pure ())
    | _ => pure ()
  ((ps.filterMap fun p => peerOf p.place).eraseDups).forM fun q =>
    engSend q.1 (.memoryRequest ⟨g.a, 0, .setLine (ps.filter fun p => peerOf p.place == some q) full, false, true, r, 0⟩)

/-- Bytes with their addresses as parts of lines, in order of their first bytes: virtual line, mask, data. -/
def byteParts (bs : List (Nat × Byte)) : List (Nat × BitVec 128 × Line) :=
  bs.foldl (fun acc p =>
    let l := p.1 / 128 * 128
    let add (m : BitVec 128) (d : Line) : BitVec 128 × Line := (m ||| maskOf (p.1 % 128) 1, setLineByte d (p.1 % 128) p.2)
    if acc.any fun q => q.1 == l then acc.map fun q => if q.1 = l then (l, add q.2.1 q.2.2) else q
    else acc ++ [(l, add 0 0)]) []
/-- Write parts; `place` gives the place of an address, where it is not the engine's own. -/
def engParts (place : Tgt → Place) (psn : Bool) (rel : Option Rel := none) : List (Nat × BitVec 128 × Line) → E Unit
  | [] => pure ()
  | (va, mask, data) :: t => do
    let g ← engLoc (BitVec.ofNat 64 (va + lowByte mask)) true
    engPart { tgtPart g mask data with place := place g, va := va } psn rel
    engParts place psn rel t
/-- Write bytes at consecutive addresses. -/
def engWrite (va : Word) (bs : List Byte) (psn : Bool := false) (rel : Option Rel := none) : E Unit :=
  engParts (·.place) psn rel (byteParts ((List.range bs.length).zip bs |>.map fun p => ((va + BitVec.ofNat 64 p.1).toNat, p.2)))

end Sys2Proof.Machine
end

