-- ==== Sys2Proof/Machine/Porter.lean ====
section
/-! DEFINITION. Sys2Proof/Machine/Porter.lean: porter commands: their geometry, issue checks, units and completion, and the
instructions 0xC0 to 0xCF (R193 to R211, R345, R350, R392). -/
namespace Sys2Proof.Machine

/-! ## Swizzles (R128) -/

/-- S(i, b) of a swizzle code. -/
def swzByte (code i b : Nat) : Nat :=
  if code = 1 then 128 * (b / 128) + 16 * Nat.xor (b % 128 / 16) (i % 8) + b % 16
  else if code = 2 then 4 * Nat.xor (b / 4) (i % 64) + b % 4
  else b
/-- The stored offset of byte o of a swizzled range. -/
def swzOff (code o : Nat) : Nat := 256 * (o / 256) + swzByte code (o / 256) (o % 256)

/-! ## Geometry (R195 to R197) -/

/-- Stage and format code of a copy. -/
def Cmd.stage (c : Cmd) : Nat := if c.op ≤ 0xC3 then (c.fn.extractLsb' 5 3).toNat else 0
def Cmd.fmt (c : Cmd) : Nat := (c.fn.extractLsb' 0 4).toNat
/-- A 32-bit and a 16-bit signed field as a step of addresses. -/
def stride32 (x : Nat) : Word := (BitVec.ofNat 32 x).signExtend 64
def stride16 (x : Nat) : Word := (BitVec.ofNat 16 x).signExtend 64
/-- Rows, planes, strides and lengths of a copy: R, P, ss, ds, sp, dp, row length. -/
structure Geo where
  rows : Nat := 1
  planes : Nat := 1
  ss : Word := 0
  ds : Word := 0
  sp : Word := 0
  dp : Word := 0
  len : Nat := 0
def Cmd.geo (c : Cmd) : Geo :=
  let i := c.imm.toNat
  match c.op with
  | 0xC1 => { rows := c.e.toNat % 2 ^ 32, ss := stride32 (i / 2 ^ 32), ds := stride32 i, len := c.c.toNat }
  | 0xC2 =>
    { rows := field c.shape 0 4, planes := field c.shape 4 4, ds := stride32 (field c.shape 8 4),
      ss := stride32 (field c.shape 12 4), dp := BitVec.ofNat 64 (field c.shape 16 8),
      sp := BitVec.ofNat 64 (field c.shape 24 8), len := c.c.toNat }
  | 0xC3 =>
    { rows := if i / 2 ^ 16 % 2 ^ 16 = 0 then 1 else i / 2 ^ 16 % 2 ^ 16, ss := stride16 (i / 2 ^ 48),
      ds := stride16 (i / 2 ^ 32), len := c.c.toNat }
  | _ => { len := c.c.toNat }
/-- Whether a format code is an MX format, and bytes of an MX block of 32 elements. -/
def mxCode (f : Nat) : Bool := f = 4 || f = 5 || f = 6
def blockBytes (f : Nat) : Nat := if f = 6 then 16 else 32
/-- Source and destination bytes of a row of c bytes under a stage. -/
def Cmd.srcRow (c : Cmd) (n : Nat) : Nat :=
  if c.op = 0xC7 then 0 else if c.stage = 4 then n / 128 * blockBytes c.fmt else n
def Cmd.dstRow (c : Cmd) (n : Nat) : Nat :=
  match c.stage with
  | 1 => n / 2
  | 2 => 2 * n
  | 3 => n / 128 * blockBytes c.fmt
  | _ => n
/-- Element sizes of the source and the destination (R198 step 3). -/
def Cmd.elemSizes (c : Cmd) : Nat × Nat :=
  match c.stage with
  | 1 => (4, 2)
  | 2 => (2, 4)
  | 3 => (4, 1)
  | 4 => (1, 4)
  | _ => (1, 1)
/-- Element size, index width and count of a gather or scatter (R196). -/
def Cmd.xE (c : Cmd) : Nat := c.imm.toNat % 2 ^ 16
def Cmd.xW (c : Cmd) : Nat := if c.imm.getLsbD 16 then 8 else 4
def Cmd.xM (c : Cmd) : Word := BitVec.ofNat 64 (c.imm.toNat / 2 ^ 32)
/-- Element size of an operand format (R89), and scale bytes of a row of L bytes (R202). -/
def fmtBytes (f : Nat) : Nat := if f < 2 then 2 else 1
def rowScales (f len : Nat) : Nat := if f = 6 then len / 16 else if mxCode f then len / 32 else 0
/-- Row and element strides of an operand read (R202). -/
def Cmd.opStrides (c : Cmd) : Word × Word :=
  if c.op = 0xC4 then (c.c, 0) else (stride32 c.imm.toNat, stride32 (c.imm.toNat / 2 ^ 32))

/-! ## Units (R194, R197): the pieces that a command performs one after another -/

/-- Whether a form copies rows: each row is read, then written (R197). -/
def Cmd.rowCopy (c : Cmd) : Bool := c.op ≤ 0xC3
/-- The chunks of a row: 128 source bytes each, or one block. -/
def Cmd.chunks (c : Cmd) : Nat := (c.geo.len + 127) / 128
/-- The number of units of a command. -/
def Cmd.total (c : Cmd) : Nat :=
  match c.op with
  | 0xC4 | 0xC5 => 64
  | 0xC6 => c.c.toNat
  | 0xC8 | 0xC9 => c.e.toNat
  | 0xC3 => if c.imm.toNat % 2 ^ 16 = 0 then 0 else c.geo.rows * c.chunks
  | _ => c.geo.planes * c.geo.rows * c.chunks
/-- The number of steps of a command: a unit is one, a unit of a row is read in one and written in another. -/
def Cmd.steps (c : Cmd) : Nat := if c.rowCopy then 2 * c.total else c.total
/-- Whether a step of a row reads, and its unit (R197). -/
def Cmd.step (c : Cmd) (n : Nat) : Bool × Nat :=
  if c.rowCopy then
    let k := n % (2 * c.chunks)
    let first := n / (2 * c.chunks) * c.chunks
    if k < c.chunks then (true, first + k) else (false, first + (k - c.chunks))
  else (false, n)
/-- Plane, row and chunk of a unit. -/
def Cmd.split (c : Cmd) (u : Nat) : Nat × Nat × Nat :=
  (u / (c.geo.rows * c.chunks), u / c.chunks % c.geo.rows, u % c.chunks)
/-- Addresses of a unit of a copy: first source byte, source bytes, first destination byte, destination bytes. -/
def Cmd.unit (c : Cmd) (u : Nat) : Word × Nat × Word × Nat :=
  let g := c.geo
  let (p, r, j) := c.split u
  let w (n : Nat) : Word := BitVec.ofNat 64 n
  let n := min 128 (g.len - 128 * j)
  let (sj, sn, dj, dn) := match c.stage with
    | 1 => (128 * j, n, 64 * j, n / 2)
    | 2 => (128 * j, n, 256 * j, 2 * n)
    | 3 => (128 * j, 128, blockBytes c.fmt * j, blockBytes c.fmt)
    | 4 => (blockBytes c.fmt * j, blockBytes c.fmt, 128 * j, 128)
    | _ => (128 * j, n, 128 * j, n)
  (c.b + w p * g.sp + w r * g.ss + w sj, sn, c.a + w p * g.dp + w r * g.ds + w dj, dn)
/-- The addresses of the destination bytes of a unit, in order, for every form but a scatter and a FIFO. -/
def Cmd.dst (c : Cmd) (u : Nat) : List Word :=
  let seq (a : Word) (n : Nat) : List Word := (List.range n).map fun i => a + BitVec.ofNat 64 i
  match c.op with
  | 0xC4 | 0xC5 | 0xC9 => []
  | 0xC6 => if c.fifo.isSome then [] else seq (c.a + BitVec.ofNat 64 (1024 * u)) 1024
  | 0xC8 => seq (c.a + BitVec.ofNat 64 (u * c.xE)) c.xE
  | _ =>
    let (_, _, d, n) := c.unit u
    if c.swz = 0 then seq d n
    else (seq d n).map fun x => c.a + BitVec.ofNat 64 (swzOff c.swz (x - c.a).toNat)
/-- The lines of a list of addresses, each once. -/
def linesOf (as : List Word) : List Nat := (as.map fun a => a.toNat / 128 * 128).eraseDups
/-- Whether a window is a scratchpad window. -/
def isScratchVa (va : Nat) : Bool := va / 2 ^ 60 = 8 || va / 2 ^ 60 = 9
/-- The scratchpad lines of the whole destination (R199). -/
def Cmd.destLines (c : Cmd) : List Nat :=
  if isScratchVa c.a.toNat && c.fifo.isNone then
    ((List.range c.total).flatMap fun u => linesOf (c.dst u)).eraseDups
  else []
/-- The lines of a unit whose last destination byte it writes. -/
def Cmd.lastLines (c : Cmd) (u : Nat) : List Nat :=
  if isScratchVa c.a.toNat then
    (linesOf (c.dst u)).filter fun l =>
      (List.range (c.total - u - 1)).all fun i => !(linesOf (c.dst (u + 1 + i))).contains l
  else []

/-! ## Receivers (R200, R201) -/

/-- The selected members of a multicast: member number and core. -/
def Cmd.members (c : Cmd) (rect : Nat) : List (Nat × Nat) :=
  ((List.range 16).zip (subgroupCores rect c.e.toNat)).filter fun p => c.imm.getLsbD p.1
/-- A clock with the first region of the agents of a multicast's members: what the command does to one member is part of the command
(R134, R149; log 14). -/
def withMembers (agent : Nat) (c : Clock) : Clock := (List.range 16).foldl (fun c m => Cells.set 0 c (agent + 1 + m) 1) c
/-- A clock without them: what an increment at one member covers (R314). -/
def memberless (agent : Nat) (c : Clock) : Clock := (List.range 16).foldl (fun c m => Cells.set 0 c (agent + 1 + m) 0) c
/-- The agent of a multicast's writes to member m. -/
def memberActor (a : Actor) (m : Nat) : Actor := { a with agent := a.agent + 1 + m, clock := relClock a }
/-- The receivers of a command: panel, core and the agent whose writes its increment covers (R314). -/
def State.receivers (s : State) (c : Cmd) (a : Actor) : List (Nat × Nat × Actor) :=
  let here := a.who.core
  if c.op = 0xC3 then
    (c.members (s.group here).rect.toNat).map fun p =>
      (s.myPanel, p.2, { memberActor a p.1 with clock := memberless a.agent (relClock a) })
  else if c.fifo.isNone && c.a.toNat / 2 ^ 60 = 9 then
    let q := c.a.toNat / 2 ^ 48 % 256
    [(if q = 255 then s.myPanel else q, c.a.toNat / 2 ^ 32 % 2048, a)]
  else [(s.myPanel, here, a)]
/-- The place of an own-scratchpad address at a member of a multicast. -/
def memberPlace (s : State) (here core : Nat) (t : Tgt) : Place :=
  if core = here then t.place else .peer s.myPanel core (t.va % 2 ^ 22 / 128 * 128)
/-- Where a line of the destination lies, for its full/empty state; none where it does not resolve. -/
def State.linePart (s : State) (a : Actor) (va : Nat) : Option Part :=
  match s.resolve a (BitVec.ofNat 64 va) 1 .store with
  | .ok t => some (tgtPart t 0 0)
  | .error _ => none
/-- Set destination lines empty or full at every receiver (R199). -/
def engLines (c : Cmd) (full : Bool) (vas : List Nat) : E Unit := do
  let g ← get
  let ps := vas.filterMap (g.s.linePart g.a)
  if c.op = 0xC3 then
    (c.members (g.s.group g.a.who.core).rect.toNat).forM fun m => do
      modify fun g => { g with a := memberActor g.a m.1 }
      engSetLines (ps.map fun p =>
        { p with place := if m.2 = g.a.who.core then p.place else .peer g.s.myPanel m.2 (p.va % 2 ^ 22) }) full
      modify fun h => { h with a := g.a }
  else engSetLines ps full

/-! ## Issue checks (R198, R201 to R204) -/

/-- Checks before the next one; a failure is a cause and a value. -/
abbrev Chk := Except (Nat × Word)
def lim (v lo hi : Nat) : Chk Unit := if lo ≤ v ∧ v ≤ hi then .ok () else .error (4, BitVec.ofNat 64 v)
/-- Window, then alignment, of one byte or element (R112 steps 1 and 2). -/
def State.checkAt (s : State) (a : Actor) (va : Word) (size : Nat) : Chk Unit :=
  match s.resolve a va size .load with
  | .error (.trap 4) => .error (4, va)
  | .error (.trap 3) => .error (3, va)
  | _ => .ok ()
/-- The first and the last byte of a side in the order of R197: `n` bytes at a base with two strides. -/
def sideSpan (base : Word) (g : Geo) (st pt : Word) (n : Nat) : Word × Word :=
  let w (i : Nat) : Word := BitVec.ofNat 64 i
  (base, base + w (g.rows - 1) * st + w (g.planes - 1) * pt + w (n - 1))
/-- The lowest and the highest byte of a side. -/
def sideEnds (base : Word) (g : Geo) (st pt : Word) (n : Nat) : Word × Word :=
  let w (i : Nat) : Word := BitVec.ofNat 64 i
  let ends := [base, base + w (g.rows - 1) * st, base + w (g.planes - 1) * pt,
               base + w (g.rows - 1) * st + w (g.planes - 1) * pt]
  (ends.foldl (fun m x => if x.toNat < m.toNat then x else m) base,
   ends.foldl (fun m x => if m.toNat < x.toNat then x else m) base + w (n - 1))
/-- Check the first and the last byte of a side. -/
def State.checkSide (s : State) (a : Actor) (ends : Word × Word) (n size : Nat) : Chk Unit :=
  if n = 0 then .ok ()
  else do
    s.checkAt a ends.1 size
    s.checkAt a (ends.2 - BitVec.ofNat 64 (size - 1)) size
/-- Step 2: limits of lengths, counts, strides and totals. -/
def Cmd.limits (c : Cmd) : Chk Unit := do
  let g := c.geo
  let n := c.c.toNat
  match c.op with
  | 0xC4 | 0xC5 =>
    lim n 32 256
    (if n % 32 ≠ 0 then .error (4, c.c) else .ok ())
    let ks := c.opStrides.2
    if ks ≠ 0 && (c.fmt = 6 || c.fmt = 9) then .error (4, ks) else .ok ()
  | 0xC6 =>
    lim n 1 65535
    lim (128 * c.fmt * n) 0 (2 ^ 24)
    (if c.fifo.isSome then .ok () else lim (1024 * n) 0 (2 ^ 24))
    if c.imm.toNat % 128 ≠ 0 then .error (4, c.imm)
    else if c.fifo.isSome && n % 16 ≠ 0 then .error (4, c.c) else .ok ()
  | 0xC8 | 0xC9 =>
    lim c.e.toNat 1 (2 ^ 20)
    lim c.xE 4 4096
    (if c.xE % 4 ≠ 0 then .error (4, BitVec.ofNat 64 c.xE) else .ok ())
    lim (c.e.toNat * c.xE) 0 (2 ^ 24)
  | _ =>
    if c.op = 0xC0 ∨ c.op = 0xC7 then lim n 0 (2 ^ 24) else lim n 1 65536
    if c.op = 0xC1 ∨ c.op = 0xC2 then lim g.rows 1 65535 else .ok ()
    if c.op = 0xC2 then lim g.planes 1 65535 else .ok ()
    let q := if 3 ≤ c.stage then 128 else c.elemSizes.1
    (if n % q ≠ 0 then .error (4, c.c) else .ok ())
    lim (g.planes * g.rows * c.srcRow n) 0 (2 ^ 24)
    lim (g.planes * g.rows * c.dstRow n) 0 (2 ^ 24)
/-- Step 3: the windows and alignment of each side. -/
def State.sides (s : State) (a : Actor) (c : Cmd) : Chk Unit := do
  let g := c.geo
  let n := c.c.toNat
  match c.op with
  | 0xC4 | 0xC5 =>
    let (rs, ks) := c.opStrides
    let es := fmtBytes c.fmt
    (if ks = 0 then s.checkSide a (sideSpan c.b { rows := 64 } rs 0 n) n es
    else s.checkSide a (sideSpan c.b { rows := 64, planes := n / es } rs ks es) n es)
    let k := rowScales c.fmt n
    s.checkSide a (sideSpan c.e { rows := 64 } (BitVec.ofNat 64 k) 0 k) k 1
  | 0xC6 =>
    s.checkSide a (sideSpan c.b { rows := n, planes := c.fmt } 128 c.imm 128) n 128
    if c.fifo.isSome then .ok () else s.checkSide a (sideSpan c.a {} 0 0 (1024 * n)) (1024 * n) 1
  | 0xC8 | 0xC9 =>
    let m := c.e.toNat
    s.checkSide a (sideSpan c.c {} 0 0 (m * c.xW)) m c.xW
    s.checkSide a (sideSpan (if c.op = 0xC8 then c.a else c.b) {} 0 0 (m * c.xE)) m 1
  | _ =>
    let (es, ed) := c.elemSizes
    s.checkSide a (sideSpan c.b g g.ss g.sp (c.srcRow g.len)) (c.srcRow g.len) es
    s.checkSide a (sideSpan c.a g g.ds g.dp (c.dstRow g.len)) (c.dstRow g.len) ed
    (if 3 ≤ c.stage then s.checkSide a (sideSpan c.imm {} 0 0 (g.len / 128)) (g.len / 128) 1 else .ok ())
    if c.op = 0xC3 ∧ c.a.toNat / 2 ^ 60 ≠ 8 then .error (4, c.a) else .ok ()
/-- The subgroup of a multicast (R201). -/
def multicastOk (rect : Nat) (c : Cmd) : Bool :=
  let d := c.e.toNat
  subgroupOk rect d && dLw d + dLh d ≤ 4 && c.imm.toNat % 2 ^ 16 < 2 ^ 2 ^ (dLw d + dLh d)
/-- Step 4: the conditions of a destination swizzle (R197). -/
def Cmd.swzOk (c : Cmd) : Bool :=
  let g := c.geo
  let (lo, hi) := sideEnds c.a g g.ds g.dp (c.dstRow g.len)
  c.swz = 0 || (isScratchVa c.a.toNat && c.a.toNat % 256 == 0 && (g.len = 0 || (c.a.toNat ≤ lo.toNat
    && lo.toNat ≤ hi.toNat && hi.toNat < c.a.toNat + 16384)))
/-- Every check of R198 after the fields. -/
def State.cmdCheck (s : State) (c : Cmd) : Chk Unit := do
  let g := s.group c.actor.who.core
  c.limits
  s.sides c.actor c
  (if c.op = 0xC3 && !multicastOk g.rect.toNat c then .error (7, c.e) else .ok ())
  (if c.swzOk then .ok () else .error (4, c.a))
  match c.kc with
  | some k => if g.cmask.getLsbD k.toNat then .ok () else .error (7, BitVec.ofNat 64 k.toNat)
  | none => .ok ()

/-! ## Performing a unit -/

/-- A little-endian list as numbers of n bytes. -/
def groupBytes (n : Nat) (bs : List Byte) : List Nat :=
  (List.range (bs.length / n)).map fun i => leNat ((bs.drop (n * i)).take n)
/-- Convert the source bytes of a unit under stages 1 and 2; the events that the elements raise. -/
def convBytes (dt st : ElemTy) (n m : Nat) (bs : List Byte) : List Byte × List Nat :=
  let rs := (groupBytes n bs).map fun x => convert dt st .ovf .rne x 0
  (rs.flatMap fun r => leBytes m r.bits, eventsOf rs)
/-- The operand format of a code of R89 among the MX formats. -/
def mxFmt (f : Nat) : Fmt := if f = 4 then .mx8e4 else if f = 5 then .mx8e5 else .mx4
/-- Quantise a block under rne and sat (R167): elements, scale, events. -/
def quantBlock (f : Nat) (bs : List Byte) : List Byte × Byte × List Nat :=
  let (ff, emax, w) := blockOf (mxFmt f)
  let vs := (groupBytes 4 bs).map (fval fmtF32)
  let nan := vs.contains .nan
  let e := blockExp emax vs
  let rs := vs.map fun v => if nan then .ok 0 none else blockElem ff e .rne 0 v
  (leBytes (blockBytes f) ((List.range rs.length).foldl (fun acc i =>
      acc + (rs.getD i (.ok 0 none)).bits % 2 ^ w * 2 ^ (w * i)) 0),
   BitVec.ofNat 8 (if nan then 0xFF else (e + 127).toNat), eventsOf rs)
/-- Decode a block under ovf (R168). -/
def dequantBlock (f : Nat) (bs : List Byte) (sc : Byte) : List Byte × List Nat :=
  let (ff, _, w) := blockOf (mxFmt f)
  let x := leNat bs
  let rs := (List.range 32).map fun i =>
    toFlt fmtF32 .ovf .rne (if sc = 0xFF then .nan else scaleV ((sc.toNat : Int) - 127) (fval ff (x / 2 ^ (w * i) % 2 ^ w))) 0
  (rs.flatMap fun r => leBytes 4 r.bits, eventsOf rs)
/-- Decode p planes of a group (R170, R171). -/
def decodePlanes (p : Nat) (mid : Bool) (planes : List (List Byte)) : List Byte :=
  (List.range 1024).map fun i =>
    let v := (List.range p).foldl (fun acc j =>
      if ((planes.getD j []).getD (i / 8) 0).getLsbD (i % 8) then acc + 2 ^ (7 - j) else acc) 0
    BitVec.ofNat 8 (if mid && p < 8 then Nat.lor v (2 ^ (7 - p)) else v)

/-- Count what a unit has done: destination bytes, and each event of the command once, for its issuer (R162, R197). -/
def engDone (bytes : Nat) (evs : List Nat) : E Unit :=
  modify fun g =>
    let new := evs.eraseDups.filter fun e => !g.run.events.contains e
    { g with s := new.foldl (fun s e => s.eventOf g.a.who e 1) g.s
             run := { g.run with bytes := g.run.bytes + bytes, events := g.run.events ++ new } }
/-- Write the bytes of a unit at their addresses, at each member of a multicast; lines that end there become full. -/
def engPut (c : Cmd) (u : Nat) (bs : List Byte) (psn : Bool) : E Unit := do
  let g ← get
  let ps := byteParts (((c.dst u).map (·.toNat)).zip bs)
  (if c.op = 0xC3 then
    (c.members (g.s.group g.a.who.core).rect.toNat).forM fun m => do
      modify fun h => { h with a := memberActor g.a m.1 }
      engParts (memberPlace g.s g.a.who.core m.2) psn none ps
      modify fun h => { h with a := g.a }
  else engParts (·.place) psn none ps)
  engDone bs.length []
  engLines c true (c.lastLines u)
/-- Read the row of an operand: packed, or element by element (R202). -/
def readRow (base : Word) (ks : Word) (es n : Nat) : Nat → E (List Byte × Bool)
  | 0 => if ks = 0 then engRead base n else pure ([], false)
  | k + 1 => do
    if ks = 0 then engRead base n
    else
      let (bs, p) ← readRow base ks es n k
      let (cs, q) ← engRead (base + BitVec.ofNat 64 k * ks) es
      pure (bs ++ cs, p || q)
/-- Add rows and scales to the operand that the command writes. -/
def engRows (rows scales : List Byte) (psn : Bool) : E Unit := do
  modify fun g => { g with run := { g.run with rows := g.run.rows ++ rows, scales := g.run.scales ++ scales,
                                               poison := g.run.poison || psn } }
  engDone (rows.length + scales.length) []
/-- A complete operand enters its FIFO (R174). -/
def engOperand (i tag len : Nat) : E Unit :=
  modify fun g =>
    let o : Operand := ⟨BitVec.ofNat 4 tag, len, g.run.rows, g.run.scales, g.run.poison⟩
    { g with
      s := g.s.modGroup g.a.who.core fun gr => gr.setFifo i { gr.fifo i with ops := (gr.fifo i).ops ++ [o] }
      run := { g.run with rows := [], scales := [], poison := false } }
/-- Window and alignment of an element of a gather or scatter (R112, R204). -/
def engElem (va : Word) (size : Nat) : E Unit := do
  let g ← get
  match g.s.resolve g.a va 1 .load with
  | .error (.trap 4) => throw (.fail 1 va)
  | _ => if va.toNat % size ≠ 0 then throw (.fail 6 va) else pure ()
/-- Read the source of a unit into the row of a copy. -/
def readUnit (c : Cmd) (u : Nat) : E Unit := do
  let (sa, sn, _, _) := c.unit u
  let (bs, p) ← engRead sa sn
  modify fun g => { g with run := { g.run with rows := g.run.rows ++ bs, psn := g.run.psn ++ [p] } }
/-- The source bytes of a unit among those of the row that has been read, and whether they are poisoned. -/
def rowUnit (c : Cmd) (u : Nat) : E (List Byte × Bool) := do
  let g ← get
  let (sa, sn, _, _) := c.unit u
  let (s0, _, _, _) := c.unit (u - (c.split u).2.2)
  return ((g.run.rows.drop (sa - s0).toNat).take sn, g.run.psn.getD (c.split u).2.2 false)
/-- The row is done with after its last unit. -/
def rowDone (c : Cmd) (u : Nat) : E Unit :=
  if (c.split u).2.2 + 1 = c.chunks then modify fun g => { g with run := { g.run with rows := [], psn := [] } } else pure ()
/-- Convert the source bytes of a unit under its stage and write them (R197). -/
def writeUnit (c : Cmd) (u : Nat) (bs : List Byte) (p : Bool) : E Unit := do
  let blk := c.imm + BitVec.ofNat 64 (c.split u).2.2
  match c.stage with
  | 1 => let (ds, ev) := convBytes .bf16 .f32 4 2 bs; engPut c u ds p; engDone 0 ev
  | 2 => let (ds, ev) := convBytes .f32 .bf16 2 4 bs; engPut c u ds p; engDone 0 ev
  | 3 =>
    let (ds, sc, ev) := quantBlock c.fmt bs
    engWrite blk [sc] p
    engPut c u ds p
    engDone 0 ev
  | 4 =>
    let (sc, q) ← engRead blk 1
    let (ds, ev) := dequantBlock c.fmt bs (sc.getD 0 0)
    engPut c u ds (p || q)
    engDone 0 ev
  | _ => engPut c u bs p
/-- Perform unit u of a command; of a copy of rows, its write. -/
def runUnit (c : Cmd) (u : Nat) : E Unit := do
  match c.op with
  | 0xC4 | 0xC5 =>
    let (rs, ks) := c.opStrides
    let es := fmtBytes c.fmt
    let n := c.c.toNat
    let (bs, p) ← readRow (c.b + BitVec.ofNat 64 u * rs) ks es n (n / es)
    let k := rowScales c.fmt n
    let (sc, q) ← engRead (c.e + BitVec.ofNat 64 (u * k)) k
    engRows bs sc (p || q)
    if u = 63 then engOperand (c.fifo.getD 0) c.fmt n else pure ()
  | 0xC6 =>
    let planes ← (List.range c.fmt).mapM fun j => engRead (c.b + BitVec.ofNat 64 j * c.imm + BitVec.ofNat 64 (128 * u)) 128
    let v := decodePlanes c.fmt (c.fn.getLsbD 5) (planes.map (·.1))
    let psn := planes.any (·.2)
    match c.fifo with
    | some i =>
      engRows v [] psn
      if u % 16 = 15 then engOperand i 7 256 else pure ()
    | none => engPut c u v psn
  | 0xC8 =>
    let idx ← engNum (c.c + BitVec.ofNat 64 (c.xW * u)) c.xW
    let src := c.b + BitVec.ofNat 64 idx * c.xM
    engElem src c.xE
    engElem (c.a + BitVec.ofNat 64 (u * c.xE)) c.xE
    let (bs, p) ← engRead src c.xE
    engPut c u bs p
  | 0xC9 =>
    let idx ← engNum (c.c + BitVec.ofNat 64 (c.xW * u)) c.xW
    let src := c.b + BitVec.ofNat 64 (u * c.xE)
    let dst := c.a + BitVec.ofNat 64 idx * c.xM
    engElem src c.xE
    engElem dst c.xE
    let (bs, p) ← engRead src c.xE
    let ls := if isScratchVa dst.toNat then (pieces dst.toNat c.xE).map fun q => q.1 / 128 * 128 else []
    engLines c false ls
    engWrite dst bs p
    engDone bs.length []
    engLines c true ls
  | 0xC7 =>
    let (_, _, _, n) := c.unit u
    engPut c u ((List.range n).map fun i => lineByte (c.imm.setWidth 1024) (i % 8)) false
  | _ =>
    let (bs, p) ← rowUnit c u
    writeUnit c u bs p
    rowDone c u

/-! ## Running a command (R194, R200, R209) -/

/-- The other queues' running commands that write into a FIFO. -/
def Group.filling (g : Group) (q i : Nat) : Nat :=
  (g.queues.list.filter fun p => p.1 != q && p.2.run.pos != 0 && !p.2.run.finished && (match p.2.items.head? with
    | some (.cmd c) => c.fifo == some i
    | some (.chain _ (some c) _) => c.fifo == some i
    | _ => false)).length
/-- Whether the FIFO of a command has room for the operand that unit u begins (R202, R203). -/
def Group.roomFor (g : Group) (q : Nat) (c : Cmd) (u : Nat) : Bool :=
  match c.fifo with
  | none => true
  | some i =>
    let first := if c.op = 0xC6 then u % 16 == 0 else u == 0
    !first || (g.fifo i).ops.length + g.filling q i < 2
/-- Whether a store or a marking of an engine is on its way to a core. -/
def State.onWay (s : State) (a : Actor) (core : Nat) : Bool :=
  s.agenda.any fun e =>
    match e with
    | .memoryRequest m | .absentAnswer m | .replayCompletion m =>
      m.actor.engine == a.engine && m.actor.who == a.who && (opParts m.op).any fun p =>
        match p.place with
        | .peer _ c _ => c == core
        | _ => false
    | _ => false
/-- The receivers of a command that have not got their increment, with their number among the receivers. -/
def Eng.untold (g : Eng) (c : Cmd) : List (Nat × Nat × Nat × Actor) :=
  if c.kc.isNone then []
  else
    let rs := g.s.receivers c g.a
    ((List.range rs.length).zip rs).filter fun r => !g.run.told.contains r.1
/-- The increments of a command that has performed its units: to each receiver once all its bytes are written (R200). -/
def engIncrements (c : Cmd) (q : Nat) : E Unit := do
  let g ← get
  match c.kc with
  | none => pure ()
  | some k =>
    let owes (core : Nat) : Bool := if c.op = 0xC3 then g.s.onWay g.a core else g.run.acks != 0
    let due := (g.untold c).filter fun r => !owes r.2.2.1
    due.forM fun r => do
      engSend r.2.1 (.counterIncrement
        ⟨r.2.2.1, if r.2.1 = g.s.myPanel then g.a.who.launch else 0, k,
         if c.fn.getLsbD 4 then BitVec.ofNat 64 g.run.bytes else 1,
         some (actorRel r.2.2.2 g.s.myPanel .pod), some (g.a.who.core, g.a.who.launch, q), g.a.tenant, g.a.tgen⟩)
      modify fun h => { h with run := { h.run with told := r.1 :: h.run.told } }
/-- Perform the next step of a command; after the last one, its increments. -/
def runStep (c : Cmd) (q : Nat) (g : Eng) : Eng × Option Halt :=
  if c.steps ≤ g.run.pos then
    match engIncrements c q g with
    | .ok (_, g) =>
      if !(g.untold c).isEmpty then (g, some (.wait none))
      else
        let s := g.s.meter g.a.tenant 6 (g.run.bytes * (if c.op = 0xC3 then (g.s.receivers c g.a).length else 1))
        ({ g with s := s, run := { g.run with finished := true } }, none)
    | .error h => (g, some h)
  else
    let (reads, u) := c.step g.run.pos
    if !(g.s.group g.a.who.core).roomFor q c u then (g, some (.wait none))
    else
      match (if reads then readUnit c u else runUnit c u) g with
      | .ok (_, g) => ({ g with run := { g.run with pos := g.run.pos + 1 } }, none)
      | .error h => (g, some h)
/-- A failed command is abandoned (R209): its destination lines are set full, its partial operand removed. While their messages find
no reply reservation it waits. -/
def abandon (c : Cmd) (code : Nat) (tval : Word) (g : Eng) : Eng :=
  match engLines c true c.destLines g with
  | .ok (_, g) => { g with run := { g.run with fail := some (code, tval), finished := true, rows := [], psn := []
                                               scales := [], poison := false } }
  | .error _ => { g with run := { g.run with fail := some (code, tval) } }
/-- A queue of a group. -/
def Group.queue (g : Group) (q : Nat) : Queue := Cells.get {} g.queues q
def Group.setQueue (g : Group) (q : Nat) (x : Queue) : Group := { g with queues := Cells.set {} g.queues q x }
/-- The command at the head of a queue. -/
def Queue.head (x : Queue) : Option Cmd :=
  match x.items.head? with
  | some (.cmd c) => some c
  | some (.chain _ (some c) _) => some c
  | _ => none
/-- Replace the command at the head. -/
def Queue.setHead (x : Queue) (c : Cmd) : Queue :=
  { x with items := match x.items with
      | .cmd _ :: t => .cmd c :: t
      | .chain h (some _) n :: t => .chain h (some c) n :: t
      | t => t }
/-- Post what an engine waits for: a walk, or requests for lines. -/
def State.engineAsk (s : State) (a : Actor) (kind : Nat) : Halt → State
  | .walk va st => s.post (.pageWalk ⟨a, va, kind, st, false⟩)
  | .ask ps =>
    ps.foldl (fun s p =>
      (s.modCore a.who.core fun c => { c with reserved := c.reserved + 1 }).sendTo (s.placePanel p.place)
        (.memoryRequest ⟨a, 0, .fill 0 [p], false, false, none, 0⟩)) s
  | _ => s
/-- Perform the next step of the command at the head of a queue (R194); whether anything has changed. -/
def State.porterRun (s : State) (core q : Nat) : State × Bool :=
  let x := (s.group core).queue q
  match x.head with
  | none => (s, false)
  | some c =>
    if x.run.finished || (x.run.waiting && x.run.fail.isNone) then (s, false)
    else
      let a := if x.run.pos = 0 then joinActor c.actor x.rels else c.actor
      let (g, h) : Eng × Option Halt := match x.run.fail with
        | some (code, v) => (⟨s, a, x.run⟩, some (.fail code v))
        | none => runStep c q ⟨s, a, x.run⟩
      let put (g : Eng) : State := g.s.modGroup core fun gr =>
        ({ gr with porterLast := q } : Group).setQueue q { ((gr.queue q).setHead { c with actor := g.a }) with run := g.run }
      match h with
      | none => (put g, true)
      | some (.fail code tval) =>
        let g := abandon c code tval g
        (put g, g.run.finished || x.run.fail.isNone)
      | some (.wait k) =>
        let w := match k with
          | some k => if g.run.waited.contains k then g.run.waited else k :: g.run.waited
          | none => g.run.waited
        (put { g with run := { g.run with waited := w } },
          g.run.pos != x.run.pos || w != x.run.waited || g.run.told != x.run.told)
      | some h => ((put { g with run := { g.run with waiting := true } }).engineAsk g.a 3 h, true)

/-! ## Enqueueing (R193, R199) -/

/-- The ticket of a command enqueued now: 0 behind a chain. -/
def Queue.ticket (x : Queue) : Word :=
  if x.items.any fun i => match i with
    | .chain _ _ _ => true
    | _ => false
  then 0
  else x.num + BitVec.ofNat 64 (x.items.filter fun i => match i with
    | .cmd _ => true
    | _ => false).length + 1
/-- Put an entry into a queue. -/
def State.enqueue (s : State) (core q : Nat) (i : QItem) : State :=
  s.modGroup core fun g => g.setQueue q { g.queue q with items := (g.queue q).items ++ [i], enq := (g.queue q).enq + 1 }
/-- Set the destination lines of a command of queue q empty (R199); the markings sent to other cores are acknowledged before the
queue's next completion. -/
def State.markDest (s : State) (c : Cmd) (q : Nat) : State :=
  match engLines c false c.destLines ⟨s, c.actor, {}⟩ with
  | .ok (_, g) =>
    if g.run.acks = 0 then g.s
    else g.s.modGroup c.actor.who.core fun gr =>
      let x := gr.queue q
      gr.setQueue q { x with run := { x.run with acks := x.run.acks + g.run.acks } }
  | .error _ => s
/-- A full queue is a re-issue wait. -/
def roomM (q : Nat) : M Unit := do
  if 16 ≤ ((← myGroup).queue q).items.length then spend else pure ()
/-- The agents that a command takes: one more for each member of a multicast (R314). -/
def takeAgents (op : Nat) (s : State) : State := if op = 0xC3 then { s with nextAgent := s.nextAgent + 16 } else s
/-- A command whose agent knows the regions of its members. -/
def Cmd.joined (c : Cmd) : Cmd :=
  if c.op = 0xC3 then { c with actor := { c.actor with clock := withMembers c.actor.agent c.actor.clock } } else c
/-- The reply reservations that marking the destination of a command takes: one for each other core (R199, R231). -/
def State.markMsgs (s : State) (c : Cmd) : Nat :=
  if c.op ≠ 0xC3 && c.a.toNat / 2 ^ 60 ≠ 9 then 0 else (s.receivers c c.actor).length
/-- Check, enqueue and write the ticket. `port` is the operand port of forms 0xC4 to 0xC6. -/
def cpyM (f : CpyF) (port : Option QReg) (c : Actor → Cmd) : M Unit := do
  let s ← get
  let q := f.queue.toNat
  let (s', a) := s.engineActor s.curCore s.curCtx (.porter q)
  let s' := takeAgents (c a).op s'
  let fifo := port.bind fun p => if (s.me.port p).kind = 6 then some (s.me.port p).idx else none
  let cmd := ({ c a with fifo := if port.isSome then some (fifo.getD 0) else none } : Cmd).joined
  match s.cmdCheck cmd with
  | .error (code, v) => trapM code v
  | .ok _ =>
    (match port with
     | some p => if fifo.isNone then misuse 7 p else pure ()
     | none => pure ())
    roomM q
    reserveM (s.markMsgs cmd)
    set ((s'.markDest cmd q).enqueue s.curCore q (.cmd cmd))
    wrS f.d (s.myGroup.queue q).ticket

/-- fn of a form: stage and format, with the count mode. -/
def fnOf (f : CpyF) (stage : BitVec 3) (fmt : BitVec 4) : BitVec 8 := stage ++ (if f.bytes then 1#1 else 0#1) ++ fmt
def execCpy (f : CpyF) (stage : BitVec 3) (fmt swz : BitVec 4) (a b c : SReg) (imm : Word) (s : State) : Res :=
  instr 16 (do
    names 0xC0 [(10, f.d), (17, a), (24, b), (31, c)]
    let x ← rdS a
    let y ← rdS b
    let z ← rdS c
    cpyM f none fun act => { op := 0xC0, fn := fnOf f stage fmt, kc := f.kc, swz := swz.toNat, a := x, b := y, c := z, e := 0, imm, actor := act }) s
def execCpy2d (f : CpyF) (stage : BitVec 3) (swz : BitVec 4) (a b c e : SReg) (imm : Word) (s : State) : Res :=
  instr 16 (do
    names 0xC1 [(10, f.d), (17, a), (24, b), (31, c), (38, e)]
    let x ← rdS a
    let y ← rdS b
    let z ← rdS c
    let w ← rdS e
    cpyM f none fun act => { op := 0xC1, fn := fnOf f stage 0, kc := f.kc, swz := swz.toNat, a := x, b := y, c := z, e := w, imm, actor := act }) s
def execCpy3d (f : CpyF) (stage : BitVec 3) (swz : BitVec 4) (a b c e : SReg) (s : State) : Res :=
  instr 16 (do
    names 0xC2 [(10, f.d), (17, a), (24, b), (31, c), (38, e)]
    let x ← rdS a
    let y ← rdS b
    let z ← rdS c
    let w ← rdS e
    let sh ← readBlock w 32 8
    cpyM f none fun act => { op := 0xC2, fn := fnOf f stage 0, kc := f.kc, swz := swz.toNat, a := x, b := y, c := z, e := w, imm := 0, shape := sh, actor := act }) s
def execCpyMc (f : CpyF) (stage : BitVec 3) (swz : BitVec 4) (a b c e : SReg) (imm : Word) (s : State) : Res :=
  instr 16 (do
    names 0xC3 [(10, f.d), (17, a), (24, b), (31, c), (38, e)]
    let x ← rdS a
    let y ← rdS b
    let z ← rdS c
    let w ← rdS e
    cpyM f none fun act => { op := 0xC3, fn := fnOf f stage 0, kc := f.kc, swz := swz.toNat, a := x, b := y, c := z, e := w, imm, actor := act }) s
def execCpyQ (f : CpyF) (fmt : Fmt) (a : QReg) (b c e : SReg) (s : State) : Res :=
  instr 16 (do
    names 0xC4 [(10, f.d), (24, b), (31, c), (38, e)]
    let y ← rdS b
    let z ← rdS c
    let w ← rdS e
    cpyM f (some a) fun act => { op := 0xC4, fn := fnOf f 0 fmt.code, kc := f.kc, swz := 0, a := 0, b := y, c := z, e := w, imm := 0, actor := act }) s
def execCpyQ2d (f : CpyF) (fmt : Fmt) (a : QReg) (b c e : SReg) (imm : Word) (s : State) : Res :=
  instr 16 (do
    names 0xC5 [(10, f.d), (24, b), (31, c), (38, e)]
    let y ← rdS b
    let z ← rdS c
    let w ← rdS e
    cpyM f (some a) fun act => { op := 0xC5, fn := fnOf f 0 fmt.code, kc := f.kc, swz := 0, a := 0, b := y, c := z, e := w, imm, actor := act }) s
def execCpyPl (f : CpyF) (mid : Bool) (p : BitVec 4) (a : SQ) (b c : SReg) (imm : Word) (s : State) : Res :=
  instr 16 (do
    names 0xC6 (sqRegs [(17, a)] ++ [(10, f.d), (24, b), (31, c)])
    let x ← (match a with
      | .s r => rdS r
      | .q _ => pure 0)
    let y ← rdS b
    let z ← rdS c
    let port := match a with
      | .s _ => none
      | .q q => some q
    cpyM f port fun act => { op := 0xC6, fn := fnOf f (if mid then 1 else 0) p, kc := f.kc, swz := 0, a := x, b := y, c := z, e := 0, imm, actor := act }) s
def execCpyFill (f : CpyF) (a c : SReg) (imm : Word) (s : State) : Res :=
  instr 16 (do
    names 0xC7 [(10, f.d), (17, a), (31, c)]
    let x ← rdS a
    let z ← rdS c
    cpyM f none fun act => { op := 0xC7, fn := fnOf f 0 0, kc := f.kc, swz := 0, a := x, b := 0, c := z, e := 0, imm, actor := act }) s
/-- Gather and scatter. -/
def cpyxM (op : Nat) (f : CpyF) (a b c e : SReg) (imm : Word) (s : State) : Res :=
  instr 16 (do
    names op [(10, f.d), (17, a), (24, b), (31, c), (38, e)]
    let x ← rdS a
    let y ← rdS b
    let z ← rdS c
    let w ← rdS e
    cpyM f none fun act => { op := op, fn := fnOf f 0 0, kc := f.kc, swz := 0, a := x, b := y, c := z, e := w, imm, actor := act }) s
def execCpyxG (f : CpyF) (a b c e : SReg) (imm : Word) (s : State) : Res := cpyxM 0xC8 f a b c e imm s
def execCpyxS (f : CpyF) (a b c e : SReg) (imm : Word) (s : State) : Res := cpyxM 0xC9 f a b c e imm s

/-! ## Chains, fences, waits and status (R206 to R208, R210, R345, R392) -/

def execChainHead (queue : BitVec 2) (a : SReg) (s : State) : Res :=
  instr 16 (do
    names 0xCA [(17, a)]
    let va ← rdS a
    let s ← get
    let (s', act) := s.engineActor s.curCore s.curCtx (.porter queue.toNat)
    (match s.resolve act va 1 .load with
     | .error (.trap 4) => trapM 4 va
     | _ => if va.toNat % 64 ≠ 0 then trapM 3 va else pure ())
    roomM queue.toNat
    set (s'.enqueue s.curCore queue.toNat (.chain { actor := act, cur := va } none []))) s
/-- The chain of a queue that is paused goes on; what its issuer did before happens before its reads. -/
def resumeChain (now : Actor) : QItem → QItem
  | .chain c m n =>
    if c.paused then
      .chain { c with paused := false, actor := { c.actor with
        clock := joinClock c.actor.clock now.clock, issuer := if now.issuer.1 = 0 then c.actor.issuer else now.issuer } } m n
    else .chain c m n
  | i => i
def execChainApp (queue : BitVec 2) (s : State) : Res :=
  instr 16 (do
    let s ← get
    let (_, act) := s.engineActor s.curCore s.curCtx (.porter queue.toNat)
    modMyGroup fun g =>
      let x := g.queue queue.toNat
      if x.items.any fun i => match i with
        | .chain c _ _ => c.paused
        | _ => false
      then g.setQueue queue.toNat { x with items := x.items.map (resumeChain act) } else g) s
/-- The entries that a fence on queue q waits for: what the named queues hold now (R207). -/
def fenceNeed (g : Group) (q : Nat) (mask : BitVec 4) : List (Nat × Nat) :=
  (List.range 4).filterMap fun j => if mask.getLsbD j && j ≠ q then some (j, (g.queue j).enq) else none
def execQfence (mask : BitVec 4) (queue : BitVec 2) (s : State) : Res :=
  instr 8 (do
    roomM queue.toNat
    let g ← myGroup
    modS fun s => s.enqueue s.curCore queue.toNat (.fence (fenceNeed g queue.toNat mask))) s
/-- Wait for a completion number, as an acquire of core scope (R208). -/
def qwaitM (q : BitVec 2) (v : Word) : M Unit := do
  let x := (← myGroup).queue q.toNat
  if v.toNat ≤ x.num.toNat then do
    endRegion
    endAcquire .core x.rels
    endRegion
  else waitM (.queue q.toNat v)
def execQwait (queue : BitVec 2) (a : SReg) (s : State) : Res :=
  instr 8 (do
    names 0xCD [(17, a)]
    qwaitM queue (← rdS a)) s
def execQwaitImm (queue : BitVec 2) (imm : BitVec 32) (s : State) : Res :=
  instr 8 (qwaitM queue (imm.setWidth 64)) s
/-- The status word of a queue (R210). -/
def Queue.status (x : Queue) : Word :=
  let chain := x.items.filterMap fun i => match i with
    | .chain c _ _ => some c.paused
    | _ => none
  BitVec.ofNat 64 (2 ^ 24 * x.code.toNat + (if x.error then 2 ^ 16 else 0) + (if chain.isEmpty then 0 else 2 ^ 9)
    + (if chain.contains true then 2 ^ 8 else 0) + x.items.length)
def execQstat (clr st : Bool) (queue : BitVec 2) (d : SReg) (s : State) : Res :=
  instr 8 (do
    names 0xCF [(10, d)]
    let x := (← myGroup).queue queue.toNat
    wrS d (if st then x.status else x.num)
    if st && clr then modMyGroup fun g => g.setQueue queue.toNat { x with error := false, code := 0 } else pure ()) s

end Sys2Proof.Machine
end

