-- ==== Sys2Proof/Machine/Criers.lean ====
section
/-! DEFINITION. Sys2Proof/Machine/Criers.lean: holds, deposits, trigger counters and crier entries: the instructions 0xB0 to
0xBF (R61, R62, R212 to R218, R351, R353, R364, R390, R409). -/
namespace Sys2Proof.Machine

/-! ## Holds (R61, R364) -/

/-- Set hold bits once every earlier write of the registers has been made. -/
def holdM (regs : BitVec 32) : M Unit := do
  let c ← me
  if (List.range 32).any fun i => regs.getLsbD i && c.late.contains (.v (BitVec.ofNat 5 i)) then spend
  else modMe fun c => { c with holds := c.holds ||| regs }
def execHold (d : VReg) (s : State) : Res := instr 8 (holdM (1#32 <<< d.toNat)) s
def execHoldSet (regs : BitVec 32) (s : State) : Res := instr 8 (holdM regs) s
def execHclr (d : VReg) (s : State) : Res :=
  instr 8 (modMe fun c => { c with holds := c.holds &&& ~~~(1#32 <<< d.toNat) }) s

/-! ## Deposits (R62, R65, R353) -/

/-- A counter of the launch, or cause 0x07 (R212). -/
def counterM (k : KReg) : M Unit := do needM ((← myGroup).cmask.getLsbD k.toNat) 7 (BitVec.ofNat 64 k.toNat)
/-- Send a deposit. -/
def depositM (hi : Bool) (name target : Word) (v : Line) (k : Option KReg) : M Unit := do
  (match k with
   | some k => counterM k
   | none => pure ())
  liveNameM name
  routeM name
  let rel ← beginRelease .pod
  let g ← myGroup
  modS fun s => s.sendTo (namePanel name) (.depositArrival
    { src := ⟨s.curCore, s.curCtx, g.launch⟩, name, ctx := (target.extractLsb' 0 4).toNat, reg := target.extractLsb' 8 5,
      val := v, high := hi, kc := k, tenant := g.tenant, tgen := g.tgen, rel })
  endRegion
def execDepvK (hi : Bool) (a b : SReg) (c : VReg) (k : Option KReg) (s : State) : Res :=
  instr 16 (do
    names 0xB3 [(17, a), (24, b)]
    let name ← rdS a
    let t ← rdS b
    depositM hi name t (← rdV c) k) s
def execDepv (hi : Bool) (a b : SReg) (c : VReg) (s : State) : Res :=
  instr 8 (do
    names 0xB4 [(17, a), (24, b)]
    let name ← rdS a
    let t ← rdS b
    depositM hi name t (← rdV c) none) s
def execDepsK (hi : Bool) (a b c : SReg) (k : Option KReg) (s : State) : Res :=
  instr 16 (do
    names 0xB5 [(17, a), (24, b), (31, c)]
    let name ← rdS a
    let t ← rdS b
    depositM hi name t ((← rdS c).setWidth 1024) k) s
def execDeps (hi : Bool) (a b c : SReg) (s : State) : Res :=
  instr 8 (do
    names 0xB6 [(17, a), (24, b), (31, c)]
    let name ← rdS a
    let t ← rdS b
    depositM hi name t ((← rdS c).setWidth 1024) none) s

/-! ## Crier records (R218) -/

/-- A counter byte of a record: zero, or bit 6 with a number. -/
def ctrByteOk (x : Nat) : Bool := x = 0 || (64 ≤ x && x < 128)
/-- The counter that a byte names. -/
def ctrByte (x : Nat) : Option KReg := if x = 0 then none else some (BitVec.ofNat 6 x)
/-- Whether fn and swizzle suit an opcode of a record (R195, R205). -/
def fnOk (op fn swz : Nat) : Bool :=
  let stage := fn / 32
  let fmt := fn % 16
  if op = 0xC0 then swz < 3 && (if stage ≤ 2 then fmt == 0 else stage ≤ 4 && mxCode fmt)
  else if op = 0xC1 || op = 0xC2 || op = 0xC3 then swz < 3 && stage ≤ 2 && fmt == 0
  else (op = 0xC7 || op = 0xC8 || op = 0xC9) && swz == 0 && stage == 0 && fmt == 0
/-- Whether imm64 has no bit outside the fields of a form (R196). -/
def immOk (op fn imm : Nat) : Bool :=
  if op = 0xC0 then 3 ≤ fn / 32 || imm == 0
  else if op = 0xC2 then imm == 0
  else if op = 0xC8 || op = 0xC9 then imm / 2 ^ 17 % 2 ^ 15 == 0
  else true
/-- The command fields of a record at bytes 9 to 12 and 48 to 55 (R196, R205). -/
def cmdBytesOk (x : Nat) : Bool :=
  immOk (field x 9 1) (field x 10 1) (field x 48 8) && fnOk (field x 9 1) (field x 10 1) (field x 12 1 / 4) && ctrByteOk (field x 11 1) && field x 12 1 % 4 == 0
/-- Element bytes of a remote atomic (R219). -/
def firedElem (op : Nat) : Nat := if op = 9 || op = 10 then 8 else if op = 2 then 2 else 4
/-- The bytes that a kind uses, as ranges. -/
def usedBytes : Nat → List (Nat × Nat)
  | 1 => [(0, 3), (9, 13), (16, 56)]
  | 2 => [(0, 32)]
  | 3 => [(0, 2), (8, 24)]
  | 4 => [(0, 6), (8, 24)]
  | 5 => [(0, 2), (16, 56)]
  | 6 => [(0, 2), (8, 56)]
  | 7 => [(0, 4), (16, 24)]
  | _ => []
/-- The limits that a record's bytes alone decide. -/
def recordOk (x : Nat) : Bool :=
  let kind := field x 0 1
  let used := usedBytes kind
  (List.range 64).all (fun i => field x i 1 == 0 || used.any fun r => r.1 ≤ i && i < r.2)
    && ctrByteOk (field x 1 1)
    && (match kind with
        | 1 => field x 2 1 ≤ 3 && cmdBytesOk x
        | 2 =>
          let op := field x 2 1
          let n := field x 4 4
          op ≤ 10 && field x 3 1 ≤ 4 && 0 < n && n ≤ 4096 && n % firedElem op == 0 && (op < 9 || n == 8)
        | 3 => true
        | 4 => field x 2 1 ≤ 15 && field x 3 1 ≤ 31 && field x 4 1 ≤ 1 && ctrByteOk (field x 5 1)
        | 5 => true
        | 6 => true
        | 7 => field x 2 1 ≤ 10 && field x 3 1 ≤ 7
        | _ => false)
/-- Whether the done counter and the refusal counter of a record lie in the mask (R212). -/
def recordCtrs (mask : BitVec 64) (x : Nat) : Bool :=
  let ok (b : Nat) : Bool := match ctrByte b with
    | some k => mask.getLsbD k.toNat
    | none => true
  ok (field x 1 1) && (field x 0 1 != 4 || ok (field x 5 1))

/-! ## Posting (R215, R217, R390) -/

/-- The lowest allocated entry that is free. -/
def Group.freeEntry (g : Group) : Option Nat :=
  (List.range 64).find? fun i => g.emask.getLsbD i && !(g.entry i).armed
/-- Arm an entry and test it at once against the counter's value, as if it had risen from T − 1 (R217). -/
def Group.arm (g : Group) (i : Nat) (e : Entry) : Group :=
  let v := (g.kval e.ctr).toNat
  let (n, surplus, e') := if !e.rearm then (if e.thr.toNat ≤ v then (1, 0, {}) else (0, 0, e))
    else e.fire ((e.thr.toNat : Int) - 1) v
  let f : Firing := ⟨i, e.record, e.ctx, e.actor, (g.counter e.ctr).rels, g.batch + 1⟩
  let g : Group := { g.setEntry i e' with batch := g.batch + 1, crossed := g.crossed ++ List.replicate n f }
  if surplus = 0 then g else g.modCtx e.ctx fun c => c.addEv 11 surplus
def execPost (rearm any : Bool) (n : BitVec 6) (d a b c : SReg) (k : KReg) (s : State) : Res :=
  instr 16 (do
    names 0xB7 [(10, d), (17, a), (24, b), (31, c)]
    let va ← rdS a
    let t ← rdS b
    let st ← rdS c
    counterM k
    let g ← myGroup
    (if any then pure () else needM (g.emask.getLsbD n.toNat) 7 (BitVec.ofNat 64 n.toNat))
    let x ← readBlock va 64 64
    needM (recordOk x && recordCtrs g.cmask x) 7 va
    let g ← myGroup
    let slot := if any then g.freeEntry else if (g.entry n.toNat).armed then none else some n.toNat
    match slot with
    | none => trapM 0x12 (BitVec.ofNat 64 (if any then 64 else n.toNat))
    | some i => do
      let s ← get
      let (s', act) := s.engineActor s.curCore s.curCtx .fired
      set s'
      modMyGroup fun g => g.arm i { armed := true, ctr := k, thr := t, stride := st, rearm, record := leBytes 64 x,
                                    ctx := s.curCtx, actor := some act }
      wrS d (BitVec.ofNat 64 i)) s
def execUnpost (d : SReg) (n : BitVec 6) (s : State) : Res :=
  instr 8 (do
    names 0xB8 [(10, d)]
    let g ← myGroup
    needM (g.emask.getLsbD n.toNat) 7 (BitVec.ofNat 64 n.toNat)
    if (g.entry n.toNat).armed then do
      modMyGroup fun g => g.setEntry n.toNat {}
      wrS d 1
    else wrS d 0) s

/-! ## Counters (R213, R214, R351) -/

/-- `ctradd`: a local increment; a full dispatch queue is a re-issue wait (R217). -/
def ctraddM (k : KReg) (v : Word) : M Unit := do
  counterM k
  if 64 ≤ (← myGroup).firings.length then spend
  else
    let r ← fenceRel
    modMyGroup fun g => g.increment k v r
def execCtradd (k : KReg) (a : SReg) (s : State) : Res :=
  instr 8 (do
    names 0xB9 [(17, a)]
    ctraddM k (← rdS a)) s
def execCtraddImm (k : KReg) (imm : BitVec 32) (s : State) : Res := instr 8 (ctraddM k (imm.setWidth 64)) s
def ctrsetM (k : KReg) (v : Word) : M Unit := do
  counterM k
  modMyGroup fun g => g.setCounter k v
def execCtrset (k : KReg) (a : SReg) (s : State) : Res :=
  instr 8 (do
    names 0xBB [(17, a)]
    ctrsetM k (← rdS a)) s
def execCtrsetImm (k : KReg) (imm : BitVec 32) (s : State) : Res := instr 8 (ctrsetM k (imm.setWidth 64)) s
/-- The mask of armed entries. -/
def Group.armedMask (g : Group) : Word :=
  (List.range 64).foldl (fun acc i => if (g.entry i).armed then acc ||| (1#64 <<< i) else acc) 0
def execCtrget (sel : BitVec 2) (k : KReg) (d : SReg) (s : State) : Res :=
  instr 8 (do
    names 0xBD [(10, d)]
    let g ← myGroup
    (if sel = 0 then counterM k else pure ())
    wrS d (if sel = 0 then g.kval k else if sel = 1 then g.cmask else if sel = 2 then g.emask else g.armedMask)) s
/-- `ctrwait`: an acquire of pod scope once the counter has reached the value (R150, R214). -/
def ctrwaitM (k : KReg) (v : Word) : M Unit := do
  counterM k
  let c := (← myGroup).counter k
  let pass (rels : List Rel) : M Unit := do
    endRegion
    endAcquire .pod rels
    endRegion
    modMe fun c => { c with met := none }
  match (← me).met with
  | some rels => pass rels
  | none => if v.toNat ≤ c.val.toNat then pass c.rels else waitM (.counter k v)
def execCtrwait (k : KReg) (a : SReg) (s : State) : Res :=
  instr 8 (do
    names 0xBE [(17, a)]
    ctrwaitM k (← rdS a)) s
def execCtrwaitImm (k : KReg) (imm : BitVec 32) (s : State) : Res := instr 8 (ctrwaitM k (imm.setWidth 64)) s

end Sys2Proof.Machine
end

