-- ==== Sys2Proof/Machine/Matrix.lean ====
section
/-! DEFINITION. Sys2Proof/Machine/Matrix.lean: the matrix unit: the instructions 0xD0 to 0xDF (R90, R174 to R191, R375, R378,
R382, R383) and the stages of an `mma` (R172, R173, R179 to R192). -/
namespace Sys2Proof.Machine

/-! ## Tiles (R177, R178) -/

/-- Check a tile address: own window, within the partition, a multiple of 256 (R177). -/
def tileM (va : Word) : M Nat := do
  let off := va.toNat % 2 ^ 22
  let part := (← myGroup).part
  if windowOf va ≠ 8 || va.toNat / 2 ^ 22 % 2 ^ 38 ≠ 0 || part * 2 ^ 18 < off + 16384 then trapM 4 va
  else if va.toNat % 256 ≠ 0 then trapM 3 va
  else pure off
/-- Byte offset of element C[i][j] in a tile (R177). -/
def elemOff (swz i j : Nat) : Nat := 256 * i + swzByte swz i (4 * j)
/-- The storage key of tile line n on a core. -/
def State.tileKey (s : State) (core tile n : Nat) : Nat := scratchKey core (gmapOff (s.group core).gmap (tile + 128 * n))
/-- The byte mask of the active elements in tile line n. -/
def activeMask (swz : Nat) (rows cols : BitVec 64) (n : Nat) : BitVec 128 :=
  if rows.getLsbD (n / 2) then
    (List.range 64).foldl (fun acc j =>
      let o := elemOff swz (n / 2) j
      if cols.getLsbD j && o / 128 == n then acc ||| maskOf (o % 128) 4 else acc) 0
  else 0
/-- The parts of the active elements of a tile. -/
def State.tileParts (s : State) (core tile swz : Nat) (rows cols : BitVec 64) : List Part :=
  ((List.range 128).map fun n =>
    (⟨.scratch s.myPanel core (gmapOff (s.group core).gmap (tile + 128 * n)), 2 ^ 63 + tile + 128 * n,
      activeMask swz rows cols n, 0, true, []⟩ : Part)).filter fun p => p.mask != 0
/-- The 4-byte element at a tile offset. -/
def State.tileElem (s : State) (core tile off : Nat) : Nat :=
  s.store.num (s.tileKey core tile (off / 128) + off % 128) 4

/-! ## Elements of operands (R174) -/

/-- Operand class: 0 16-bit, 1 8-bit float, 2 8-bit integer, 3 4-bit (R176). -/
def classOf : Fmt → Nat
  | .bf16 => 0 | .f16 => 0
  | .e4m3 => 1 | .e5m2 => 1 | .mx8e4 => 1 | .mx8e5 => 1
  | .i8 => 2 | .n8 => 2
  | .mx4 => 3 | .e2m1 => 3
/-- Bits of an element of a class, K of an `mma` by its kb, products of a group (R172). -/
def classBits (c : Nat) : Nat := if c = 0 then 16 else if c = 3 then 4 else 8
def depthOf (c kb : Nat) : Nat := 256 * kb / classBits c
def groupOf (c : Nat) : Nat := if c = 0 then 8 else if c = 3 then 32 else 16
/-- kb as a number: 0 means 8 (R80). -/
def MmaKb (f : MmaF) : Nat := if f.kb = 0 then 8 else f.kb.toNat
/-- The float format of an operand format. -/
def opFmt : Fmt → FFmt
  | .bf16 => fmtBf16
  | .f16 => fmtF16
  | .e4m3 | .mx8e4 => fmtE4m3
  | .e5m2 | .mx8e5 => fmtE5m2
  | _ => fmtE2m1
/-- Element k of row i of an operand as bits. -/
def Operand.elem (o : Operand) (w i k : Nat) : Nat :=
  let b := i * o.len + w * k / 8
  if w = 16 then leNat [o.rows.getD b 0, o.rows.getD (b + 1) 0]
  else if w = 8 then (o.rows.getD b 0).toNat
  else (o.rows.getD b 0).toNat / 2 ^ (4 * (k % 2)) % 16
/-- The value of element k of row i with its block scale (R172). -/
def Operand.val (o : Operand) (f : Fmt) (depth i k : Nat) : FVal :=
  let v := fval (opFmt f) (o.elem (classBits (classOf f)) i k)
  if mxCode f.code.toNat then
    let sc := (o.scales.getD (i * (depth / 32) + k / 32) 0).toNat
    if sc = 0xFF then .nan else scaleV ((sc : Int) - 127) v
  else v
/-- The integer value of element k of row i. -/
def Operand.int (o : Operand) (f : Fmt) (i k : Nat) : Int := ival (f == .i8) 8 (o.elem 8 i k)

/-! ## Accumulation (R172, R173, R185) -/

/-- An exact sum of values, in order; the empty sum is +0. -/
def sumF : List FVal → FVal
  | [] => .num false 0 0
  | [v] => v
  | v :: t => t.foldl (faddX .rne) v
/-- What the array produces instead of the sum of group n of element (i, j), where a cell errs (R187, R295). -/
abbrev CellError := Nat → Nat → Nat → Option FVal
/-- An array whose cells do not err. -/
def noError : CellError := fun _ _ _ => none
/-- The integer of a value that an integer cell holds. -/
def toIntV : FVal → Int
  | .num neg mag _ => if neg then -(mag : Int) else mag
  | _ => 0
/-- The sum of group n of element (i, j) of a float `mma`. -/
def floatSum (f : MmaF) (c : Nat) (a b : Operand) (err : CellError) (i j n : Nat) : FVal :=
  let depth := depthOf c (MmaKb f)
  let g := groupOf c
  (err i j n).getD (sumF ((List.range g).map fun x =>
    fmulX (a.val f.fa depth i (g * n + x)) (b.val f.fb depth j (g * n + x))))
/-- The sum of group n of element (i, j) of an integer `mma`. -/
def intSum (f : MmaF) (a b : Operand) (err : CellError) (i j n : Nat) : Int :=
  match err i j n with
  | some v => toIntV v
  | none => ((List.range 16).map fun x => a.int f.fa i (16 * n + x) * b.int f.fb j (16 * n + x)).sum
/-- One element of a float `mma` from its starting bits: a rounding per group. -/
def floatElem (f : MmaF) (c : Nat) (a b : Operand) (err : CellError) (i j start : Nat) : Nat :=
  (List.range (depthOf c (MmaKb f) / groupOf c)).foldl (fun acc n =>
    (toFlt fmtF32 .ovf .rne (faddX .rne (fval fmtF32 acc) (floatSum f c a b err i j n)) 0).bits) start
/-- One element of an integer `mma`: its bits and whether it clamped. -/
def intElem (f : MmaF) (a b : Operand) (err : CellError) (i j start : Nat) : Nat × Bool :=
  (List.range (depthOf 2 (MmaKb f) / 16)).foldl (fun acc n =>
    let v := ival true 32 acc.1 + intSum f a b err i j n
    (ibits 32 (satI true 32 v), acc.2 || !inI true 32 v)) (start, false)

/-! ## Checksums (R187, R188) -/

/-- The magnitude of a value. -/
def absV : FVal → FVal
  | .num _ m e => .num false m e
  | .inf _ => .inf false
  | .nan => .nan
/-- What the checksum path of a line computes instead of Q, where it errs (R188, R295): rows 0 to 63, columns 64 to 127. -/
abbrev PathError := Nat → Option FVal
/-- Whether sums P, Q and T fail: by more than 2^-16 of T for floats, by any difference for integers; lines whose products include an
infinity or a NaN are not checked. -/
def sumsFail (isInt : Bool) (p q t : FVal) : Bool :=
  match t with
  | .num _ _ _ =>
    let d := absV (faddX .rne p (fneg q))
    if isInt then cmpNum d (.num false 0 0) == some .gt else cmpNum (scaleV 16 d) t == some .gt
  | _ => false
/-- Whether active row i fails (R187), with the active columns. -/
def rowFails (f : MmaF) (c : Nat) (a b : Operand) (cols : List Nat) (err : CellError) (path : PathError) (i : Nat) : Bool :=
  let depth := depthOf c (MmaKb f)
  let groups := List.range (depth / groupOf c)
  let ks := List.range depth
  if c = 2 then
    let p := (cols.flatMap fun j => groups.map fun n => intSum f a b err i j n).sum
    let q := (ks.map fun k => a.int f.fa i k * (cols.map fun j => b.int f.fb j k).sum).sum
    sumsFail true (ofInt p) ((path i).getD (ofInt q)) oneV
  else
    let p := sumF (cols.flatMap fun j => groups.map fun n => floatSum f c a b err i j n)
    let q := sumF (ks.map fun k => fmulX (a.val f.fa depth i k) (sumF (cols.map fun j => b.val f.fb depth j k)))
    let t := sumF (cols.flatMap fun j => ks.map fun k => absV (fmulX (a.val f.fa depth i k) (b.val f.fb depth j k)))
    sumsFail false p ((path i).getD q) t
/-- Whether active column j fails, with the active rows. -/
def colFails (f : MmaF) (c : Nat) (a b : Operand) (rows : List Nat) (err : CellError) (path : PathError) (j : Nat) : Bool :=
  let depth := depthOf c (MmaKb f)
  let groups := List.range (depth / groupOf c)
  let ks := List.range depth
  if c = 2 then
    let p := (rows.flatMap fun i => groups.map fun n => intSum f a b err i j n).sum
    let q := (ks.map fun k => (rows.map fun i => a.int f.fa i k).sum * b.int f.fb j k).sum
    sumsFail true (ofInt p) ((path (64 + j)).getD (ofInt q)) oneV
  else
    let p := sumF (rows.flatMap fun i => groups.map fun n => floatSum f c a b err i j n)
    let q := sumF (ks.map fun k => fmulX (sumF (rows.map fun i => a.val f.fa depth i k)) (b.val f.fb depth j k))
    let t := sumF (rows.flatMap fun i => ks.map fun k => absV (fmulX (a.val f.fa depth i k) (b.val f.fb depth j k)))
    sumsFail false p ((path (64 + j)).getD q) t
/-- What the check stage finds (R188): nothing, an element to compute again, a checksum path that erred, or a failure with its record
(R189). -/
inductive Checked where
  | pass
  | correct (i j : Nat)
  | path
  | fail (record : Word)
deriving DecidableEq, Repr
/-- The record of a checksum failure: counts and lowest numbers of the failing rows and columns (R189). -/
def checkRecord (rs cs : List Nat) : Word :=
  BitVec.ofNat 64 (rs.length + 2 ^ 8 * cs.length + 2 ^ 16 * rs.headD 0 + 2 ^ 24 * cs.headD 0)
/-- The check stage (R179, R187, R188): nothing under chk = 0. -/
def checkSums (f : MmaF) (c : Nat) (a b : Operand) (rows cols : List Nat) (err : CellError) (path : PathError) : Checked :=
  if f.chk = 0 then .pass
  else
    let rs := rows.filter (rowFails f c a b cols err path)
    let cs := cols.filter (colFails f c a b rows err path)
    match rs, cs with
    | [], [] => .pass
    | [i], [j] => if f.chk = 2 then .correct i j else .fail (checkRecord rs cs)
    | [i], [] => if rowFails f c a b cols err (fun _ => none) i then .fail (checkRecord rs cs) else .path
    | [], [j] => if colFails f c a b rows err (fun _ => none) j then .fail (checkRecord rs cs) else .path
    | _, _ => .fail (checkRecord rs cs)
/-- The operations of a program up to its first end. -/
def progOf (imm : Word) : Program :=
  ((List.range 4).map fun p => imm.extractLsb' (16 * p) 16).takeWhile fun w => w.extractLsb' 12 4 != 0
/-- Bits of 1.0 in f32. -/
def oneF32 : Nat := 0x3F800000
/-- One operation of a microprogram on f32 bits (R185). -/
def microOp (op x y : Nat) : Nat :=
  let nan := fval fmtF32 x == .nan || fval fmtF32 y == .nan
  let nz (v : Nat) : Bool := v % 2 ^ 31 != 0
  match op with
  | 1 => (fAdd fmtF32 .rne false 0 x y).bits
  | 2 => (fSub fmtF32 .rne false 0 x y).bits
  | 3 => (fMul fmtF32 .rne false 0 x y).bits
  | 4 => fMinMax fmtF32 true x y
  | 5 => fMinMax fmtF32 false x y
  | 6 => if fval fmtF32 x == .nan then nanOf fmtF32 else x % 2 ^ 31
  | 7 => if nan then nanOf fmtF32 else if nz x && nz y then oneF32 else 0
  | _ => if nan then nanOf fmtF32 else if nz x || nz y then oneF32 else 0
/-- One step of a program on (s, t). -/
def microStep (a b : Nat) (st : Nat × Nat) (w : BitVec 16) : Nat × Nat :=
  let src (c : Nat) : Nat :=
    if c = 0 then a else if c = 1 then b else if c = 2 then st.1 else if c = 3 then st.2 else if c = 4 then 0 else oneF32
  let r := microOp (w.extractLsb' 12 4).toNat (src (w.extractLsb' 8 3).toNat) (src (w.extractLsb' 5 3).toNat)
  if w.getLsbD 11 then (r, st.2) else (st.1, r)
/-- One element under a microprogram. -/
def microElem (f : MmaF) (c : Nat) (prog : Program) (a b : Operand) (i j start : Nat) : Nat :=
  let depth := depthOf c (MmaKb f)
  let bitsOf (v : FVal) : Nat := (toFlt fmtF32 .ovf .rne v 0).bits
  (List.range depth).foldl (fun s k =>
    (prog.foldl (microStep (bitsOf (a.val f.fa depth i k)) (bitsOf (b.val f.fb depth j k))) (s, 0)).1) start

/-! ## Issue (R378) -/

/-- A failing operand check (R175). -/
def mmaError {α : Type} (f : MmaF) (kind : Nat) : M α :=
  trapM 0x0F (BitVec.ofNat 64 (f.fa.code.toNat + 16 * f.fb.code.toNat + 256 * kind))
/-- The FIFO that an operand port names (R60 case 4). -/
def mmaPort (q : QReg) : M Nat := do
  let p := (← me).port q
  if p.kind ≠ 6 then misuse 4 q else pure p.idx
/-- `mma`: the issue stage; the context waits until the operation retires. -/
def mmaM (op : Nat) (f : MmaF) (s : State) : Res :=
  runInstr 16 (do
    names op [(10, f.acc)]
    let c := (op - 0xD0) / 2
    let g ← myGroup
    (if classOf f.fa ≠ c || classOf f.fb ≠ c || (f.ms ≠ 0 && c = 2) then mmaError f 0 else pure ())
    (if f.ms ≠ 0 && Cells.get [] g.progs f.ms.toNat = [] then mmaError f 5 else pure ())
    let fa ← mmaPort f.qa
    let fb ← mmaPort f.qb
    let tile ← tileM (← rdS f.acc)
    (match f.kc with
     | some k => needM (g.cmask.getLsbD k.toNat) 7 (BitVec.ofNat 64 k.toNat)
     | none => pure ())
    let rows := ((← rdM f.mr).extractLsb' 0 64)
    let cols := ((← rdM f.mc).extractLsb' 0 64)
    modS fun s => s.modCore s.curCore fun x => { x with mmas := x.mmas ++
      [{ ctx := s.curCtx, pc := s.me.pc, op := BitVec.ofNat 8 op, f, tile, rows, cols, fa, fb }] }
    modMe fun c => { c with status := .waiting .mma, sawMark := false }) s
def execMma16Slot0 (f : MmaF) (s : State) : Res := mmaM 0xD0 f s
def execMma16Slot1 (f : MmaF) (s : State) : Res := mmaM 0xD1 f s
def execMma8fSlot0 (f : MmaF) (s : State) : Res := mmaM 0xD2 f s
def execMma8fSlot1 (f : MmaF) (s : State) : Res := mmaM 0xD3 f s
def execMma8iSlot0 (f : MmaF) (s : State) : Res := mmaM 0xD4 f s
def execMma8iSlot1 (f : MmaF) (s : State) : Res := mmaM 0xD5 f s
def execMma4Slot0 (f : MmaF) (s : State) : Res := mmaM 0xD6 f s
def execMma4Slot1 (f : MmaF) (s : State) : Res := mmaM 0xD7 f s

/-! ## Microprogram slots and tile instructions (R190, R191, R375, R382, R383) -/

/-- Load a microprogram slot. -/
def muplM (n : Nat) (imm : Word) (s : State) : Res :=
  instr 16 (modMyGroup fun g => { g with progs := Cells.set [] g.progs n (progOf imm) }) s
def execMupl1 (imm : Word) (s : State) : Res := muplM 1 imm s
def execMupl2 (imm : Word) (s : State) : Res := muplM 2 imm s
def execMupl3 (imm : Word) (s : State) : Res := muplM 3 imm s

/-- The sum of 64 tile elements: f32 rounded once, i32 clamped. -/
def tileSum (t : ElemTy) (xs : List Nat) : NRes :=
  if t = .f32 then toFlt fmtF32 .ovf .rne (sumF (xs.map (fval fmtF32))) 0
  else intToInt true 32 .sat ((xs.map (ival true 32)).sum)
/-- `mchk`: lane i sums row or column 32·part + i. -/
def mchkM (op : Nat) (row : Bool) (t : ElemTy) (swz : BitVec 2) (part : Bool) (m : VMask) (d : VReg) (a : SReg)
    (s : State) : Res :=
  instr 8 (do
    names op [(17, a)]
    let va ← rdS a
    let _ ← tileM va
    freshV d
    let mk ← rdMask m
    let off (i e : Nat) : Nat :=
      let n := (if part then 32 else 0) + i
      if row then elemOff swz.toNat n e else elemOff swz.toNat e n
    let lanes := ((List.range 32).filter (laneOn mk m.n)).flatMap fun i =>
      (List.range 64).map fun e => (64 * i + e, va + BitVec.ofNat 64 (off i e))
    let vs ← loadM 4 none lanes
    vecOp 32 32 m (.v d) wrVQ fun i =>
      tileSum t ((vs.filter fun p => p.1 / 64 == i).map (·.2))) s
def execMchkRow (t : ElemTy) (swz : BitVec 2) (part : Bool) (m : VMask) (d : VReg) (a : SReg) (s : State) : Res :=
  mchkM 0xDB true t swz part m d a s
def execMchkCol (t : ElemTy) (swz : BitVec 2) (part : Bool) (m : VMask) (d : VReg) (a : SReg) (s : State) : Res :=
  mchkM 0xDC false t swz part m d a s
/-- Zero the lines of a tile. -/
def State.zeroTile (s : State) (core tile : Nat) (r : Option Rel) : State :=
  (List.range 128).foldl (fun s n => s.writeHome (s.tileKey core tile n) (BitVec.allOnes 128) 0 r) s
def execMzero (a : SReg) (s : State) : Res :=
  instr 8 (do
    names 0xDD [(17, a)]
    let tile ← tileM (← rdS a)
    let s ← get
    checkM true true ((s.tileParts s.curCore tile 0 (BitVec.allOnes 64) (BitVec.allOnes 64)))
    let r ← fenceRel
    modS fun s => s.zeroTile s.curCore tile r
    modS fun s => s.modCore s.curCore fun c =>
      { c with keeps := c.keeps.filter fun k => k.2.launch != c.group.launch || k.2.tile != tile }) s
/-- Empty a keep slot. -/
def Core.emptyKeep (c : Core) (n : Nat) : Core := { c with keeps := c.keeps.filter fun k => k.1 != n }
def execMzeroSlot0 (s : State) : Res := instr 8 (modS fun s => s.modCore s.curCore fun c => c.emptyKeep 0) s
def execMzeroSlot1 (s : State) : Res := instr 8 (modS fun s => s.modCore s.curCore fun c => c.emptyKeep 1) s

/-! ## The stages after issue (R179, R180) -/

/-- Change the `mma` of a context. -/
def Core.modMma (c : Core) (ctx : Nat) (f : Mma → Mma) : Core :=
  { c with mmas := c.mmas.map fun m => if m.ctx = ctx then f m else m }
/-- Take the `mma` of a context out of the unit. -/
def Core.dropMma (c : Core) (ctx : Nat) : Core := { c with mmas := c.mmas.filter fun m => m.ctx != ctx }
/-- Set the claimed lines of an `mma` full, unchanged. -/
def State.releaseClaims (s : State) (core : Nat) (m : Mma) (r : Option Rel) : State :=
  (List.range m.claimed).foldl (fun s n => s.homeSetLine (s.tileKey core m.tile n) true
    (if r.isSome then r else s.store.lineRel (s.tileKey core m.tile n))) s
/-- End an `mma` with a precise trap of its context (R175, R189): the lines are released unchanged. -/
def State.mmaTrap (s : State) (core : Nat) (m : Mma) (code : Nat) (tval : Word) (mem : Bool) : State :=
  let s := (s.releaseClaims core m none).modCore core fun c => c.dropMma m.ctx
  s.enterTrap core m.ctx code tval m.pc mem false
/-- Withdraw an `mma` that is not in flight (R192): its context stands at the instruction. -/
def State.withdrawMma (s : State) (core : Nat) (m : Mma) : State :=
  let s := (s.releaseClaims core m none).modCore core fun c => c.dropMma m.ctx
  s.modCtx core m.ctx fun c => { c with status := .ready }
/-- The value of R175 for an `mma`. -/
def Mma.errVal (m : Mma) (kind : Nat) : Word :=
  BitVec.ofNat 64 (m.f.fa.code.toNat + 16 * m.f.fb.code.toNat + 256 * kind)
/-- Whether an older queued `mma` has still to claim the line that an `mma` claims next: lines of one tile are claimed in issue order
(R180). -/
def Core.olderClaims (c : Core) (m : Mma) : Bool :=
  (c.mmas.takeWhile fun o => o.ctx != m.ctx).any fun o =>
    o.tile + 128 * o.claimed ≤ m.tile + 128 * m.claimed && m.tile + 128 * m.claimed < o.tile + 16384
/-- Whether the next line of an `mma` can be claimed. -/
def State.canClaim (s : State) (core : Nat) (m : Mma) : Bool :=
  !m.ready && m.claimed < 128 && !s.store.isEmpty (s.tileKey core m.tile m.claimed) && !(s.core core).olderClaims m
/-- The conflict check of a line at its claim (R181): its full state is acquired (R151), then its active words are read and written. -/
def State.claimMarks (s : State) (core : Nat) (m : Mma) : State × Option Nat :=
  let rels := (s.store.lineRel (s.tileKey core m.tile m.claimed)).toList
  let s := s.modCtx core m.ctx fun c => rels.foldl (fun c r => c.acquireRel s.myPanel core .panel r) c
  let ps := (s.tileParts core m.tile m.f.swz.toNat m.rows m.cols).filter fun p => p.va == 2 ^ 63 + m.tile + 128 * m.claimed
  let a := s.actor core m.ctx
  match s.conflictOf a true true ps with
  | some va => (s, some va)
  | none => ((s.markParts a true true ps).modCtx core m.ctx fun c => { c with touched := true }, none)
/-- Claim the next line; with the last one the program is copied (R175 kind 5, R185). A conflict ends the operation with cause 0x0B,
the lines claimed so far full again (R181). -/
def State.claimLine (s : State) (core ctx : Nat) : State :=
  match (s.core core).mmas.find? fun m => m.ctx == ctx with
  | none => s
  | some m =>
    if s.canClaim core m then
      let (s, conflict) := s.claimMarks core m
      match conflict with
      | some va => s.mmaTrap core m 0x0B (BitVec.ofNat 64 va) false
      | none =>
      let s := s.setLineState (s.tileKey core m.tile m.claimed) true
      let m := { m with claimed := m.claimed + 1 }
      let prog := Cells.get [] (s.group core).progs m.f.ms.toNat
      if m.claimed < 128 then s.modCore core fun c => c.modMma ctx fun _ => m
      else if m.f.ms ≠ 0 && prog = [] then s.mmaTrap core m 0x0F (m.errVal 5) false
      else s.modCore core fun c => c.modMma ctx fun _ => { m with ready := true, prog }
    else s
/-- Whether the FIFOs of an `mma` have complete operands at their heads. -/
def Group.operandsAt (g : Group) (m : Mma) : Option (Operand × Operand) :=
  if m.fa = m.fb then
    match (g.fifo m.fa).ops with
    | a :: b :: _ => some (a, b)
    | _ => none
  else
    match (g.fifo m.fa).ops, (g.fifo m.fb).ops with
    | a :: _, b :: _ => some (a, b)
    | _, _ => none
/-- The oldest `mma` that may start (R180): claimed, with operands, naming no FIFO that an older one names. -/
def Core.nextMma (c : Core) (g : Group) : List Nat → List Mma → Option Mma
  | _, [] => none
  | used, m :: t =>
    if m.ready && (g.operandsAt m).isSome && !used.contains m.fa && !used.contains m.fb then some m
    else c.nextMma g (m.fa :: m.fb :: used) t
/-- Whether the unit runs an `mma`. -/
def Core.mmaRunning (c : Core) : Option Mma := c.mmas.find? fun m => m.operands.isSome
/-- Pop the operands of an `mma`. -/
def Group.popOperands (g : Group) (m : Mma) : Group :=
  let g := g.setFifo m.fa { g.fifo m.fa with ops := (g.fifo m.fa).ops.drop 1 }
  g.setFifo m.fb { g.fifo m.fb with ops := (g.fifo m.fb).ops.drop 1 }
/-- The failing check of R175, kinds 1 to 4. -/
def Mma.headError (m : Mma) (a b : Operand) : Option Nat :=
  let len := 32 * MmaKb m.f
  if a.tag ≠ m.f.fa.code then some 1
  else if b.tag ≠ m.f.fb.code then some 2
  else if a.len ≠ len then some 3
  else if b.len ≠ len then some 4
  else none
/-- Whether the slot of an `mma` holds its tile: the tag of group, tile, swizzle and accumulator type matches (R183). -/
def Core.keepHit (c : Core) (m : Mma) : Bool :=
  c.keeps.any fun k => k.1 == m.op.toNat % 2 && k.2.launch == c.group.launch && k.2.tile == m.tile
    && k.2.swz == m.f.swz.toNat && k.2.isInt == ((m.op.toNat - 0xD0) / 2 == 2)
/-- The lowest poisoned active element that the load stage reads: none where the operation starts from zero or its keep slot hits
(R179, R183). -/
def State.tilePoison (s : State) (core : Nat) (m : Mma) : Option Nat :=
  if m.f.zacc || (s.core core).keepHit m then none
  else (s.tileParts core m.tile m.f.swz.toNat m.rows m.cols).findSome? fun p => if s.partPoison p then some p.va else none
/-- Start the next `mma`: operand checks, pops, poison (R175, R290). -/
def State.startMma (s : State) (core : Nat) : State :=
  let c := s.core core
  match c.mmaRunning, c.nextMma c.group [] c.mmas with
  | none, some m =>
    (match c.group.operandsAt m with
     | none => s
     | some (a, b) =>
       match m.headError a b with
       | some kind => s.mmaTrap core m 0x0F (m.errVal kind) false
       | none =>
         let s := s.modGroup core fun g => g.popOperands m
         let slot := m.op.toNat % 2
         if a.poison || b.poison then
           (s.modCore core fun c => c.emptyKeep slot).mmaTrap core m 0x10
             (BitVec.ofNat 64 ((if a.poison then 1 else 0) + (if b.poison then 2 else 0))) true
         else
           match s.tilePoison core m with
           | some va => (s.modCore core fun c => c.emptyKeep slot).mmaTrap core m 0x10 (BitVec.ofNat 64 va) true
           | none => s.modCore core fun c => c.modMma m.ctx fun m => { m with operands := some (a, b) })
  | _, _ => s
/-- The bits of a mask as numbers. -/
def bitsOn (m : BitVec 64) : List Nat := (List.range 64).filter fun i => m.getLsbD i
/-- Whether the injector hits the matrix cells of a group (R295 kind bit 3). -/
def State.cellsHit (s : State) (core : Nat) : Bool :=
  s.inj.ctl.getLsbD 63 && s.inj.ctl.getLsbD 19 && (s.inj.ctl.extractLsb' 32 16).toNat == (s.group core).tenant
/-- The errors of the array and of the checksum paths in the operation that retires: none unless the injector makes them. -/
def State.cellError (s : State) (core : Nat) : CellError :=
  if s.cellsHit core then fun i j n => (Config.cellError s.tick i j n).map fun v => .num v.1 v.2.1 v.2.2 else noError
def State.pathError (s : State) (core : Nat) : PathError :=
  if s.cellsHit core then fun n => (Config.pathError s.tick n).map fun v => .num v.1 v.2.1 v.2.2 else fun _ => none
/-- New bits of element (i, j), and whether an integer clamped. -/
def State.mmaElem (s : State) (core : Nat) (m : Mma) (a b : Operand) (err : CellError) (i j : Nat) : Nat × Bool :=
  let start := if m.f.zacc then 0 else s.tileElem core m.tile (elemOff m.f.swz.toNat i j)
  let c := (m.op.toNat - 0xD0) / 2
  if m.f.ms ≠ 0 then (microElem m.f c m.prog a b i j start, false)
  else if c = 2 then intElem m.f a b err i j start
  else (floatElem m.f c a b err i j start, false)
/-- Write a new line of the tile: its active elements. -/
def State.retireLine (s : State) (core : Nat) (m : Mma) (a b : Operand) (err : CellError) (r : Rel) (n : Nat) : State × Bool :=
  let mask := activeMask m.f.swz.toNat m.rows m.cols n
  let es := (bitsOn m.cols).filter fun j => m.rows.getLsbD (n / 2) && elemOff m.f.swz.toNat (n / 2) j / 128 == n
  let vs := es.map fun j => (elemOff m.f.swz.toNat (n / 2) j % 128, s.mmaElem core m a b err (n / 2) j)
  let data := vs.foldl (fun l p => mergeLine (maskOf p.1 4) (valLine p.1 4 p.2.1) l) 0
  (if mask = 0 then s else s.writeHome (s.tileKey core m.tile n) mask data (some r), vs.any fun p => p.2.2)
/-- Write the result of the running `mma` and let its context go on (R179, R183): the active elements, the lines full, the counts, the
keep slot, the counter. -/
def State.finishMma (s : State) (core : Nat) (m : Mma) (a b : Operand) (err : CellError) (found : Checked) : State :=
  let r := actorRel (s.actor core m.ctx) s.myPanel .panel
  let (s, sat) := (List.range 128).foldl (fun acc n =>
    let (s', x) := acc.1.retireLine core m a b err r n
    (s', acc.2 || x)) (s, false)
  let s := s.releaseClaims core m (some r)
  let s := if sat then s.addEv core m.ctx 4 1 else s
  let s := match found with
    | .correct _ _ => s.addEv core m.ctx 5 1
    | .path => s.addEv core m.ctx 6 1
    | _ => s
  let c := (m.op.toNat - 0xD0) / 2
  let active := (bitsOn m.rows).length * (bitsOn m.cols).length * depthOf c (MmaKb m.f)
  let tn := (s.group core).tenant
  let s := s.meter tn (c + 1) active
  let s := if m.f.ms ≠ 0 then s.meter tn 5 (active * m.prog.length) else s
  let slot := m.op.toNat % 2
  let keys := (List.range 128).map fun n => s.tileKey core m.tile n
  let kept : Keep := ⟨(s.group core).launch, m.tile, keys, m.f.swz.toNat, c = 2, keys.flatMap fun k => s.store.bytes k 128⟩
  let s := s.modCore core fun x =>
    let x := (x.emptyKeep slot).dropMma m.ctx
    if m.f.keep then { x with keeps := x.keeps ++ [(slot, kept)] } else x
  let s := match m.f.kc with
    | some k => s.modGroup core fun g => g.increment k 1 (some { r with scope := .pod })
    | none => s
  s.modCtx core m.ctx fun c => { c with status := .ready, pc := m.pc + 16, eligible := Nat.max c.eligible ((s.core core).cycle.toNat + 1) }
/-- The check stage and the retire of the running `mma` (R179, R188): a failure that is not corrected ends it with cause 0x10 (R189). -/
def State.retireMma (s : State) (core : Nat) : State :=
  match (s.core core).mmaRunning with
  | none => s
  | some m =>
    match m.operands with
    | none => s
    | some (a, b) =>
      let err := s.cellError core
      let found := checkSums m.f ((m.op.toNat - 0xD0) / 2) a b (bitsOn m.rows) (bitsOn m.cols) err (s.pathError core)
      let s := if s.cellsHit core then s.ticked else s
      match found with
      | .fail record => (s.modCore core fun c => c.emptyKeep (m.op.toNat % 2)).mmaTrap core m 0x10 record false
      | .correct i j => s.finishMma core m a b (fun i' j' n => if i' = i ∧ j' = j then none else err i' j' n) found
      | _ => s.finishMma core m a b err found
/-- Whether the running `mma` may retire: the increment of its counter needs room in the dispatch queue (R217). -/
def State.canRetireMma (s : State) (core : Nat) : Bool :=
  match (s.core core).mmaRunning with
  | none => false
  | some m => m.f.kc.isNone || (s.group core).firings.length < 64

end Sys2Proof.Machine
end

