-- ==== Sys2Proof/Machine/System.lean ====
section
/-! DEFINITION. Sys2Proof/Machine/System.lean: special registers (R18, R28, R33, R67, R68, R376, R377), `trap` and `rett` (R274,
R275), the TLB instructions (R279, R280, R407, R408), `ecall` (R356, R357), the injector (R296). -/
namespace Sys2Proof.Machine

/-! ## Special registers (R68, R376, R377) -/

/-- sr.tid (R68). -/
def tidWord (panel gen idx ctx : Nat) : Word :=
  BitVec.ofNat 64 (panel % 256 * 2 ^ 56 + gen % 2 ^ 20 * 2 ^ 36 + idx % 2 ^ 32 * 16 + ctx % 16)
/-- The value of a special register; `cycle` is read at issue. -/
def State.readSr (s : State) (n : Nat) : Word :=
  let g := s.myGroup
  let c := s.me
  let w (x : Nat) : Word := BitVec.ofNat 64 x
  match n with
  | 0x001 => w s.curCore
  | 0x002 => w (256 * coreY s.curCore + coreX s.curCore)
  | 0x003 => g.rect
  | 0x004 => w s.curCtx
  | 0x005 => g.gname
  | 0x006 => tidWord (namePanel g.gname) (nameGen g.gname) (nameIdx g.gname) s.curCtx
  | 0x007 => w s.myPanel
  | 0x008 => (s.core s.curCore).cycle
  | 0x009 => w (s.mesh / 3)
  | 0x00A => c.rng.setWidth 64
  | 0x00B => w (2 ^ 16 * g.helpers + g.r)
  | 0x00C => w (2 ^ 16 * c.lo + c.wb)
  | 0x00D => w (2 ^ 16 * g.tgen + g.tenant)
  | 0x00E => Config.capBase
  | 0x00F => c.priv.setWidth 64
  | 0x010 => c.cause
  | 0x011 => c.epc
  | 0x012 => c.tval
  | 0x013 => g.trapvec
  | 0x040 => siteWord s.tables s.curCore
  | n => if n < 0x018 then Cells.get 0 c.tscr (n - 0x014) else Cells.get 0 c.ev (n - 0x020)
/-- The lowest level that may read or write a register (R68). -/
def srLevel (n : Nat) : BitVec 2 := if n = 0x040 then 2 else if 0x010 ≤ n ∧ n ≤ 0x017 then 1 else 0
/-- The value of sr.cause after a write (R377): prev keeps its value when 2 or 3 is written. -/
def causeWrite (old v : Word) : Word :=
  (v &&& 0x89FF#64) ||| (if v.getLsbD 10 then old &&& 0x600#64 else v &&& 0x600#64)
/-- Write a special register with the masks of R377; a read-only register ignores it. -/
def writeSr (n : Nat) (v : Word) : M Unit := do
  let c ← me
  match n with
  | 0x00A => modMe fun c => { c with rng := if v.setWidth 32 = (0 : BitVec 32) then 1 else v.setWidth 32 }
  | 0x010 => modMe fun c => { c with cause := causeWrite c.cause v }
  | 0x011 => modMe fun c => { c with epc := v }
  | 0x012 => modMe fun c => { c with tval := v }
  | 0x013 => modMyGroup fun g => { g with trapvec := v &&& ~~~1023#64 }
  | n =>
    if 0x014 ≤ n ∧ n ≤ 0x017 then modMe fun c => { c with tscr := Cells.set 0 c.tscr (n - 0x014) v }
    else if 0x020 ≤ n ∧ n ≤ 0x02F then
      (if c.priv = 0 then pure () else modMe fun c => { c with ev := Cells.set 0 c.ev (n - 0x020) v })
    else pure ()
/-- A register-held number: reserved numbers and set bits above 11 are illegal (R376). -/
def srNumber (op bit : Nat) (x : Word) : M Nat := do
  if x.toNat < 4096 && srDefined x.toNat then pure x.toNat else illegal 3 bit op

def execMfsr (d : SReg) (n : BitVec 12) (s : State) : Res :=
  instr 8 (do
    names 0xE0 [(10, d)]
    level (srLevel n.toNat)
    wrS d ((← get).readSr n.toNat)) s
def execMfsrReg (d a : SReg) (s : State) : Res :=
  instr 8 (do
    names 0xE1 [(10, d), (17, a)]
    let n ← srNumber 0xE1 17 (← rdS a)
    level (srLevel n)
    wrS d ((← get).readSr n)) s
def execMtsr (n : BitVec 12) (a : SReg) (s : State) : Res :=
  instr 8 (do
    names 0xE2 [(17, a)]
    level (srLevel n.toNat)
    writeSr n.toNat (← rdS a)) s
def execMtsrReg (b a : SReg) (s : State) : Res :=
  instr 8 (do
    names 0xE3 [(17, a), (24, b)]
    let n ← srNumber 0xE3 24 (← rdS b)
    level (srLevel n)
    writeSr n (← rdS a)) s

/-! ## Traps (R274, R275) -/

/-- Cause of `trap` and `trap.bp`. -/
def trapCode (bp : Bool) : Nat := if bp then 0x16 else 0x13
def execTrap (bp : Bool) (imm : BitVec 32) (s : State) : Res :=
  instr 8 (trapM (trapCode bp) (imm.setWidth 64)) s
def execTrapReg (bp : Bool) (a : SReg) (s : State) : Res :=
  instr 8 (do
    names 0xE5 [(17, a)]
    trapM (trapCode bp) (← rdS a)) s
def execRett (s : State) : Res :=
  runInstr 8 (do
    level 1
    modMe Ctx.returned) s

/-! ## TLB instructions (R279, R280, R407, R408) -/

/-- Sticky bits of a chiplet's management error register, whose places the spec does not give (log 10): remap conflict,
slot conflict, TLB error. -/
inductive ChipErr where
  | remap | slot | tlb
deriving DecidableEq, Repr
/-- The bit of an error. -/
def ChipErr.bit : ChipErr → BitVec 8
  | .remap => 1
  | .slot => 2
  | .tlb => 4
/-- Set a sticky error bit of a physical chiplet. -/
def State.chipError (s : State) (pchip : Nat) (e : ChipErr) : State :=
  { s with tables := { s.tables with chipErr := Cells.modify 0 s.tables.chipErr pchip fun x => x ||| e.bit } }
/-- `tlbw` into the TLB of a core. -/
def tlbwM (t d : Word) (core : Option Nat) : M Unit := do
  modS fun s =>
    let chip := chipOf s.curCore
    match core with
    | some k =>
      if entryOk t d && chipOf k == chip then s.modCore k fun c => { c with tlb := tlbInsert c.tlb t d }
      else s.chipError (s.tables.pchipOf chip) .tlb
    | none => s.chipError (s.tables.pchipOf chip) .tlb
def execTlbw (a b : SReg) (s : State) : Res :=
  instr 8 (do
    names 0xE7 [(17, a), (24, b)]
    level 2
    let t ← rdS a
    let d ← rdS b
    tlbwM t d (some (← get).curCore)) s
def execTlbwRm (a b c : SReg) (s : State) : Res :=
  instr 8 (do
    names 0xE8 [(17, a), (24, b), (31, c)]
    level 2
    let t ← rdS a
    let d ← rdS b
    let k ← rdS c
    tlbwM t d (some (k.toNat % 2048))) s

/-- Whether a tag is of a launch of a tenant and, for the `.va` form, holds an address. -/
def State.tagOf (s : State) (tenant : Nat) (va : Option Nat) (t : Word) : Bool :=
  (s.launch (tagLaunch t)).tenant == tenant && (match va with
    | some v => tagCovers t (tagLaunch t) v
    | none => true)
/-- Drop the entries that a `tlbi` names on every core. -/
def State.dropTlb (s : State) (tenant : Nat) (va : Option Nat) : State :=
  { s with cores := s.cores.keys.foldl (fun cs k =>
      Cells.modify {} cs k fun c => { c with tlb := c.tlb.filter fun e => !s.tagOf tenant va e.1 }) s.cores }
/-- Whether the result of a walk of a tenant, or of an address of it, is on its way. -/
def State.walksFor (s : State) (tenant : Nat) (va : Option Nat) : Bool :=
  s.agenda.any fun e =>
    match e with
    | .walkResult w (.entry t _) => w.actor.tenant == tenant && (match va with
        | some v => tagCovers t (tagLaunch t) v
        | none => true)
    | .walkResult w _ => w.actor.tenant == tenant
    | _ => false
/-- `tlbi`: a release of panel scope, then the entries, once no walk for them is in flight. -/
def tlbiM (tenant : Nat) (va : Option Nat) : M Unit := do
  let _ ← beginRelease .panel
  (if (← get).walksFor tenant va then spend else pure ())
  modS fun s => s.dropTlb tenant va
  endRegion
def execTlbiAll (s : State) : Res :=
  instr 8 (do
    level 1
    tlbiM (← myGroup).tenant none) s
def execTlbiVa (a : SReg) (s : State) : Res :=
  instr 8 (do
    names 0xEA [(17, a)]
    level 1
    let v ← rdS a
    tlbiM (← myGroup).tenant (some (v.toNat % 2 ^ 52))) s
def execTlbiTn (a : SReg) (s : State) : Res :=
  instr 8 (do
    names 0xEB [(17, a)]
    level 2
    let v ← rdS a
    tlbiM (v.toNat % 2 ^ 16) none) s

/-! ## Services (R355 to R357) -/

/-- The request of a service to the management firmware. -/
def serviceEvent (n : Nat) (w : Who) (d : SReg) (x : Word) : Event :=
  match n with
  | 0x40 => .domainSwitch w d x
  | 0x41 => .collectiveBuild w x
  | 0x42 => .collectiveRelease w x
  | 0x43 => .meterRecordService w d x
  | 0x44 => .pageResolve w d x
  | 0x45 => .pageFail w d x
  | _ => .handlerTableInstall w d x
/-- `ecall` of service n with argument s[a] (R356, R357): the firmware's answer is waited for. -/
def ecallM (d : SReg) (n : Nat) (a : SReg) : M Unit := do
  if n < 0x40 then trapM 0x13 (BitVec.ofNat 64 (2 ^ 32 + n))
  else if 0x47 ≤ n then wrS d (BitVec.allOnes 64)
  else
    (if n = 0x44 ∨ n = 0x45 then level 1 else pure ())
    let x ← rdS a
    match ← pendingM with
    | some acc =>
      wrS d (match acc.ans with
        | some (.old ((_, v) :: _) _) => v
        | _ => 0)
    | none =>
      stayM fun s =>
        let w : Who := ⟨s.curCore, s.curCtx, s.myGroup.launch⟩
        let id := s.nextId
        let s := { s with nextId := id + 1 }
        (s.modMe fun c => { c with access := some { pc := c.pc, id, need := 1 } }).post (serviceEvent n w d x)
def execEcall (d a : SReg) (imm : BitVec 32) (s : State) : Res :=
  instr 8 (do
    names 0xEC [(10, d), (17, a)]
    ecallM d imm.toNat a) s
def execEcallReg (d a b : SReg) (s : State) : Res :=
  instr 8 (do
    names 0xED [(10, d), (17, a), (24, b)]
    let n ← rdS b
    ecallM d (n.toNat % 2 ^ 32) a) s
/-- The firmware returns the status of a service to its caller. -/
def State.service (s : State) (w : Who) (status : Nat) : State :=
  match (s.launchGroup w.core w.launch).bind fun g => (g.ctx w.ctx).access with
  | some a => s.answer w a.id (.old [(0, BitVec.ofNat 64 status)] [])
  | none => s

/-! ## The injector (R296) -/

/-- Whether the operands of `inj.arm` name a unit: kind and target defined, no bit outside a field set. -/
def armOk (a b : Word) : Bool :=
  let kind := b.toNat % 4
  let tgt := b.toNat / 4 % 4
  b.toNat < 16 && kind < 2
    && (match tgt with
        | 0 => a.toNat < 2 ^ 46
        | 1 => a.toNat < 2 ^ 45 && a.toNat / 2 ^ 29 % 2 ^ 7 == 0 && a.toNat / 2 ^ 36 < 288
        | 2 => a.toNat < 2 ^ 45 && a.toNat / 2 ^ 21 % 2 ^ 11 == 0 && a.toNat / 2 ^ 36 < 288 && a.toNat / 2 ^ 32 % 16 < 9
        | _ => false)
def execInjArm (d a b : SReg) (s : State) : Res :=
  instr 8 (do
    names 0xEE [(10, d), (17, a), (24, b)]
    level 2
    let x ← rdS a
    let y ← rdS b
    let old := (← get).inj.arm
    if armOk x y then do
      modS fun s => { s with inj := { s.inj with arm := some (y.toNat % 4, y.toNat / 4 % 4, x) } }
      wrS d (if old.isSome then 1 else 0)
    else wrS d 2) s
def execInjOff (d : SReg) (s : State) : Res :=
  instr 8 (do
    names 0xEF [(10, d)]
    level 2
    let old := (← get).inj.arm
    modS fun s => { s with inj := { s.inj with arm := none } }
    wrS d (if old.isSome then 1 else 0)) s

end Sys2Proof.Machine
end

