-- ==== Sys2Proof/Machine/Requests.lean ====
section
/-! DEFINITION. Sys2Proof/Machine/Requests.lean: requests and their answers as device events: memory requests at their homes and
proxy slices (R123, R124, R231, R248), synchronising accesses, the retry list and back-off (R118, R237, R238), absent and replay
answers (R114, R133), returned and dropped requests (R22, R245, R266), HBM completions (R125), late results (R35), the L1 wrap
(R122). -/
namespace Sys2Proof.Machine

/-- Put a message back at the head of what is in flight: it has not been performed and keeps its place in the order. -/
def State.again (s : State) (e : Event) : State := { s with agenda := e :: s.agenda }
/-- Whether a message of a tenant from a panel carries a generation that is no longer current (R266); firmware has none. A message from
another panel carries that panel's generation, which the receiving port has checked (log 18). -/
def State.stale (s : State) (panel tenant tgen : Nat) : Bool :=
  panel == s.myPanel && tenant != 0xFFFF && (s.tenant tenant).gen.toNat != tgen
/-- Send an event to a panel: to a unit of this one, or out. -/
def State.toPanel (s : State) (panel : Nat) (e : Event) : State := s.sendTo panel e

/-! ## Memory requests (R123, R124, R231, R248, R249) -/

/-- What a request waits for before it can be performed. -/
inductive Block where
  | home (sector : Nat) (write : Bool)
  | fetch (sector : Nat)
  | remote (panel sector key : Nat) (exclusive : Bool)
  | held
  | unreachable (va : Nat)
deriving DecidableEq, Repr

/-- Whether an operation needs a sector homed elsewhere in E or M (R248). -/
def strongMsg (m : MemMsg) : Bool := opWrites m.op || m.sync
/-- Whether the proxy state suffices: a write needs M, since a sector in E is clean for its home (R247), an ordered access E or M. -/
def proxyOk (p : Proxy) (strong write : Bool) : Bool :=
  match p with
  | .i => false
  | .s | .o => !strong
  | .e => !write
  | .m => true
/-- What one part of a request waits for. -/
def State.blockOf (s : State) (m : MemMsg) (p : Part) : List Block :=
  match p.place with
  | .phys pa =>
    (match s.keyOf (.phys pa) with
     | some k =>
       if isProxyKey k then
         (touchedSectors k p.mask).filterMap fun q =>
           if proxyOk (Cells.get Proxy.i s.store.proxies q) (strongMsg m) (opWrites m.op) then none
           else match s.routeTo (pa / 2 ^ 46) with
             | .unreachable => some (.unreachable (p.va + lowByte p.mask))
             | .held => some .held
             | _ => some (.remote (pa / 2 ^ 46) (pa % 2 ^ 46 / 64 + (q - k / 64)) q (strongMsg m))
       else
         ((touchedSectors k p.mask).filterMap fun q =>
           let st := metaState (Cells.get 0 s.store.meta32 q)
           if opWrites m.op && st ≠ 0 then some (.home q true)
           else if st = 2 ∨ st = 4 ∨ 5 ≤ st then some (.home q false) else none)
           ++ (if opReads m.op then (s.store.needsFetch k p.mask).map .fetch else [])
     | none => [])
  | _ => []
/-- Everything a request waits for. -/
def State.blocks (s : State) (m : MemMsg) : List Block := (opParts m.op).flatMap (s.blockOf m)
/-- Ask for what a request waits for: a sector that is being asked for already is not asked for again. -/
def State.unblock (s : State) (tenant : Nat) : Block → State
  | .home q write =>
    if (Cells.get ({} : Sector) s.store.sectors q).fetching then s
    else { s with store := s.store.modSector (64 * q) fun x => { x with fetching := true } }.post (.homePanelRequest q write)
  | .fetch q =>
    if (Cells.get ({} : Sector) s.store.sectors q).fetching then s
    else ({ s with store := s.store.modSector (64 * q) fun x => { x with fetching := true } }.meter tenant 9 64).post
      (.hbmCompletion q)
  | .remote panel sector q exclusive =>
    if (Cells.get ({} : Sector) s.store.sectors q).fetching then s
    else { s with store := s.store.modSector (64 * q) fun x => { x with fetching := true } }.sendOut panel
      (if exclusive then .readExclusive s.myPanel sector else .readShared s.myPanel sector)
  | .held => s
  | .unreachable _ => s
/-- The home slice's requests to HBM in flight (R125). -/
def State.hbmBusy (s : State) (slice : Option Nat) : Nat :=
  (s.agenda.filter fun e => match e with
    | .hbmCompletion q => s.tables.homeSlice (s.myPanel * 2 ^ 46 + 64 * q) == slice
    | _ => false).length
/-- Whether a slice has one of its 256 tags for the read of a sector (R125). -/
def State.hbmRoom (s : State) (q : Nat) : Bool :=
  s.agenda.length < 256 || s.hbmBusy (s.tables.homeSlice (s.myPanel * 2 ^ 46 + 64 * q)) < 256
/-- Where HBM holds a line: stack, pseudo-channel and channel line of LAL (R125). -/
def hbmPlace (lal : Nat) : Nat × Nat × Nat := (lal % 4096 / 128, lal % 4096, lal / 4096)
/-- Sectors written at a proxy slice become M (R248). -/
def State.proxyWritten (s : State) (m : MemMsg) : State :=
  if opWrites m.op then
    (opParts m.op).foldl (fun s p =>
      match s.keyOf p.place with
      | some k =>
        if isProxyKey k then
          { s with store := { s.store with proxies :=
              (touchedSectors k p.mask).foldl (fun t q => Cells.set Proxy.i t q Proxy.m) s.store.proxies } }
        else s
      | none => s) s
  else s

/-- The endpoint that serves a request. -/
def State.msgEnd (s : State) (m : MemMsg) : Nat := ((opPlaces m.op).map s.placeEnd).headD 0
/-- Answer a request that its home refuses (R114, R115): a load precisely, a store or an atomic imprecisely; a posted answer
with an epoch acknowledges nothing. -/
def State.refuse (s : State) (m : MemMsg) (va : Nat) : State :=
  let t := BitVec.ofNat 64 va
  if opWrites m.op && !m.posted && m.actor.engine = .context then
    (s.replyTo (s.msgEnd m) m.actor 0 true (some 0) (.refused t)).replyTo (s.msgEnd m) m.actor m.id false none (.ack none)
  else s.replyTo (s.msgEnd m) m.actor m.id m.posted none (.refused t)
/-- The release that a part is waited for: an ordinary load of an empty line of a peer as an entry of the retry list (R117); its
check is the requester's. -/
def asSync (m : MemMsg) (p : Part) : SyncMsg := ⟨m.actor, m.id, { p with checked := false }, none, none, none, none, m.tries⟩
/-- Entries of a core's retry list. -/
def Core.retries (c : Core) : Nat := (c.waiters.filter fun w => !w.isLocal).length
/-- A remote access whose line is not in the state it needs joins the retry list of 64 entries, or is sent back (R118, R237). -/
def State.retryList (s : State) (k : Nat) (m : SyncMsg) : State :=
  let core := coreOfKey k
  if (s.core core).retries < 64 then s.modCore core fun c => { c with waiters := c.waiters ++ [⟨k, false, m⟩] }
  else s.toPanel m.actor.panel (.accessNack m)
/-- The slices that a request touches make room for its lines (R124, R248). -/
def State.roomFor (s : State) (m : MemMsg) : State :=
  (opParts m.op).foldl (fun s p => match p.place with
    | .phys _ => (match s.keyOf p.place with
      | some k => s.roomSlice k
      | none => s)
    | _ => s) s
/-- Answer a request whose address no range or no served chiplet covers (R23, R126). -/
def State.refuseOutside (s : State) (m : MemMsg) (va : Nat) : State :=
  s.replyTo (s.msgEnd m) m.actor m.id m.posted none (.outside (BitVec.ofNat 64 va))
/-- Answer a request whose panel cannot be reached (R245). -/
def State.refuseUnreachable (s : State) (m : MemMsg) (va : Nat) : State :=
  if m.posted then s.toPanel m.actor.panel (.unreachableReturn m) else s.replyTo (s.msgEnd m) m.actor m.id false none (.unreachable (BitVec.ofNat 64 va))
/-- A sector homed elsewhere cannot be had: the requests that wait for it are answered, and it is asked for no more (R126, R245). -/
def State.failProxy (s : State) (pa : Nat) (ans : Word → Answer) : State :=
  let q := proxyKey pa / 64
  let waits (e : Event) : Bool := match e with
    | .memoryRequest m => (s.blocks m).any fun b => match b with
      | .remote _ _ q' _ => q' == q
      | _ => false
    | _ => false
  let hit := s.agenda.filter waits
  let s := { s with agenda := s.agenda.filter fun e => !waits e, store := s.store.modSector (64 * q) fun x => { x with fetching := false } }
  hit.foldl (fun s e => match e with
    | .memoryRequest m =>
      let va := ((opParts m.op).find? fun p => match p.place with
        | .phys a => (touchedSectors (proxyKey a) p.mask).contains q
        | _ => false).map fun p => Nat.max (p.va + lowByte p.mask) (p.va + pa % 128)
      (match ans 0 with
       | .unreachable _ => s.refuseUnreachable m (va.getD 0)
       | _ => s.refuseOutside m (va.getD 0))
    | _ => s) s
/-- Perform a request at its home. -/
def State.request (s : State) (m : MemMsg) : State :=
  if s.stale m.actor.panel m.actor.tenant m.actor.tgen then
    (s.bump .dropped).toPanel m.actor.panel (.dropNotice m.actor.who.core)
  else
  match s.firstOutside m with
  | some va => s.refuseOutside m va
  | none =>
  if s.anyAbsent m then s.toPanel m.actor.panel (.absentAnswer m)
  else
    match s.firstRefused m with
    | some va => s.refuse m va
    | none =>
      match s.loadWaits m.actor (if opWrites m.op then [] else opParts m.op) with
      | some k =>
        (match opParts m.op with
         | [p] => s.retryList k (asSync m p)
         | _ => s.again (.memoryRequest m))
      | none =>
        match s.blocks m with
        | [] =>
          let s := s.roomFor m
          let (s, ans) := s.homeOp m
          let epoch := match m.op with
            | .fill e _ => some e
            | _ => none
          (s.proxyWritten m).replyTo (s.msgEnd m) m.actor m.id m.posted epoch ans
        | bs =>
          match bs.findSome? fun b => match b with
            | .unreachable va => some va
            | _ => none with
          | some va => s.refuseUnreachable m va
          | none => (bs.foldl (fun s b => s.unblock m.actor.tenant b) s).again (.memoryRequest m)
def execMemoryRequest (s : State) : Res :=
  runEvent .memoryRequest s fun e s =>
    match e with
    | .memoryRequest m => s.request m
    | _ => s

/-- The read of a sector from HBM completes: its written words take precedence (R124, R125). -/
def execHbmCompletion (s : State) : Res :=
  runEvent .hbmCompletion s fun e s =>
    match e with
    | .hbmCompletion q => { s with store := s.store.modSector (64 * q) fun x => { x with fetching := false, valid := true } }
    | _ => s

/-! ## Synchronising accesses (R118, R237, R238) -/

/-- A remote synchronising access at its line: absent or refused, served, or waiting. -/
def State.remoteSync (s : State) (m : SyncMsg) : State :=
  if s.stale m.actor.panel m.actor.tenant m.actor.tgen then
    (s.bump .dropped).toPanel m.actor.panel (.dropNotice m.actor.who.core)
  else
    match s.locate m.actor m.store.isSome m.part.place (lowByte m.part.mask) with
    | .absent => s.toPanel m.actor.panel (.accessNack m)
    | .key k =>
      if syncMet m (s.store.isEmpty k) then
        let (s, ans) := s.serveSync k m
        (s.reply m false ans).testWaiters (coreOfKey k) k (s.core (coreOfKey k)).waiters
      else s.retryList k m
    | _ =>
      let t := BitVec.ofNat 64 (m.part.va + lowByte m.part.mask)
      if m.store.isSome then
        (s.replyTo (s.placeEnd m.part.place) m.actor 0 true (some 0) (.refused t)).replyTo (s.placeEnd m.part.place) m.actor m.id false none (.ack none)
      else s.replyTo (s.placeEnd m.part.place) m.actor m.id false none (.refused t)
def execRemoteSyncAccess (s : State) : Res :=
  runEvent .remoteSyncAccess s fun e s =>
    match e with
    | .remoteSyncAccess m => s.remoteSync m
    | _ => s
/-- A cancel removes the entry of a context from the retry list and says so; an entry that has been served is answered
already (R238). -/
def execSyncCancel (s : State) : Res :=
  runEvent .syncCancel s fun e s =>
    match e with
    | .syncCancel w core =>
      ((s.core core).waiters.filter fun x => !x.isLocal && x.msg.actor.who == w).foldl (fun s x =>
        (s.modCore core fun c => { c with waiters := c.waiters.filter (· != x) }).reply x.msg false .cancelled) s
    | _ => s
/-- A NACK: the requester waits before it sends the access again (R237). -/
def execAccessNack (s : State) : Res :=
  runEvent .accessNack s fun e s =>
    match e with
    | .accessNack m =>
      if (s.launchGroup m.actor.who.core m.actor.who.launch).isSome then
        s.modCore m.actor.who.core fun c => { c with backoffs := c.backoffs ++ [.sync { m with tries := m.tries + 1 }] }
      else s.modCore m.actor.who.core fun c => { c with reserved := c.reserved - 1 }
    | _ => s
/-- Send an access again, on the synchronisation retry network (R230, R237). -/
def State.resend (s : State) : Retry → State
  | .sync m => s.sendTo (s.placePanel m.part.place) (.remoteSyncAccess m)
  | .mem m => s.sendTo (match opParts m.op with
      | p :: _ => s.placePanel p.place
      | [] => s.myPanel) (.memoryRequest m)
/-- The back-off is over: the access is sent again, as a new arrival (R237). -/
def execRetryBackoffExpiry (s : State) : Res :=
  runEvent .retryBackoffExpiry s fun e s =>
    match e with
    | .retryBackoffExpiry m =>
      if (s.core m.actor.who.core).backoffs.contains m then
        (s.modCore m.actor.who.core fun c => { c with backoffs := c.backoffs.erase m }).resend m
      else s
    | _ => s

/-! ## Replies (R231) -/

/-- Poison marks of a line at its home or proxy slice. -/
def State.poisonBits (s : State) (p : Place) : BitVec 2 :=
  match s.keyOf p with
  | some k => (if s.store.poisoned k then 1 else 0) ||| (if s.store.poisoned (k + 64) then 2 else 0)
  | none => 0
/-- The fills that a data return brings to the L1 of the requester's core; what it may not keep the access that waits gets no data
from either (R145). -/
def State.fillParts (s : State) (w : Who) (id epoch : Nat) (ps : List Part) : State :=
  if (s.group w.core).launch ≠ w.launch then s
  else ps.foldl (fun s p =>
    if cachedPlace p.place then s.fillL1 w.core id (s.l1Key p.place) epoch (s.poisonBits p.place) p else s) s
/-- The parts of a fill that no later write or drop of their lines has passed. -/
def State.freshParts (s : State) (core id : Nat) (ps : List Part) : List Part :=
  ps.filter fun p => !cachedPlace p.place || (s.core core).fills.contains (id, s.l1Key p.place)
/-- A posted request of a context is acknowledged. -/
def State.acked (s : State) (w : Who) : State :=
  s.modLaunchGroup w.core w.launch fun g => g.modCtx w.ctx fun c => { c with unacked := c.unacked - 1 }
/-- A posted request is acknowledged to those for whom it was sent: the contexts of an L1 write-back, else its sender. -/
def State.ackedAll (s : State) (w : Who) (id : Nat) : State :=
  match (s.core w.core).owed.find? fun o => o.1 == id with
  | some o => o.2.foldl State.acked (s.modCore w.core fun c => { c with owed := c.owed.filter fun o => o.1 != id })
  | none => s.acked w
/-- A data return, an acknowledgement or a refusal for a context. -/
def State.replyCtx (s : State) (m : Reply) : State :=
  let ans := match m.ans, m.fillEpoch with
    | .data ps rels, some _ => .data (s.freshParts m.who.core m.id ps) rels
    | a, _ => a
  let s := match m.ans, m.fillEpoch with
    | .data ps _, some e => s.fillParts m.who m.id e ps
    | _, _ => s
  if !m.posted then s.answer m.who m.id ans
  else
    let s := if m.fillEpoch.isNone then s.ackedAll m.who m.id else s
    match m.ans with
    | .refused t => s.report m.who ⟨7, t, false, none⟩
    | .outside t => s.report m.who ⟨4, t, false, none⟩
    | .conflict t => s.report m.who ⟨0x14, t, false, none⟩
    | _ => s
/-- The running operation of a group's crier, and those of its tasks by slot, are kept beside those of the four porter queues,
under these numbers. -/
def firedQueue : Nat := 4
def taskQueue : Nat := 5
/-- Change the running command of a queue of a launch. -/
def State.modRun (s : State) (w : Who) (q : Nat) (f : Run → Run) : State :=
  s.modLaunchGroup w.core w.launch fun g => g.setQueue q { g.queue q with run := f (g.queue q).run }
/-- A reply for the running command of a porter queue (R200, R209). -/
def State.replyPorter (s : State) (m : Reply) (q : Nat) : State :=
  s.modRun m.who q fun r =>
    let done : Run := if m.posted then { r with acks := r.acks - 1 } else { r with waiting := false }
    match m.ans with
    | .data ps rels | .waited ps rels => { done with buf := done.buf ++ ps, seen := done.seen ++ ps.flatMap partSeen ++ rels }
    | .old _ rels => { done with seen := done.seen ++ rels }
    | .outside t => { done with fail := if done.fail.isSome then done.fail else some (1, t) }
    | .refused t => { done with fail := if done.fail.isSome then done.fail else some (2, t) }
    | .unreachable t => { done with fail := if done.fail.isSome then done.fail else some (3, t) }
    | .missing t => { done with fail := if done.fail.isSome then done.fail else some (4, t) }
    | _ => done
/-- The grant of a sector homed elsewhere (R248, R249): the proxy slice takes its data and state and acknowledges. -/
def State.grant (s : State) (m : Reply) : State :=
  let take (pa : Nat) (st : Nat) (data : Option Part) (poison : Bool) : State :=
    let k := proxyKey (pa / 64 * 64)
    let s := s.roomSlice k
    let s := match data with
      | some p => { s with store := p.rels.foldl (fun (st : Store) (r : Nat × Rel) => st.setRels (k / 128 * 128) (maskOf (4 * r.1) 4) (some r.2)) (((s.store.setLine (k / 128 * 128) p.mask p.data).setRels (k / 128 * 128) p.mask none)) }
      | none => s
    let x : Proxy := if st = 4 then .m else if st = 2 then .e else .s
    let store := (s.store.modSector k fun q => { q with fetching := false, valid := true, words := 0 }).setPoison k poison
    { s with store := { store with proxies := Cells.set Proxy.i store.proxies (k / 64) x } }.sendOut (pa / 2 ^ 46)
      (.grantAck s.myPanel (pa % 2 ^ 46 / 64) .granted)
  match m.ans with
  | .data [p] _ =>
    (match p.place with
     | .phys pa => take (pa + lowByte p.mask) (m.fillEpoch.getD 1) (some p) false
     | _ => s)
  | .poisoned t => take t.toNat (m.fillEpoch.getD 1) none true
  | .outside t => s.failProxy t.toNat .outside
  | .unreachable t => s.failProxy t.toNat .unreachable
  | _ => s
/-- A reply reaches its requester; one of an old generation is dropped and counted (R266). -/
def State.takeReply (s : State) (m : Reply) : State :=
  if m.who.launch = 0 then s.grant m
  else
    let s := s.modCore m.who.core fun c => { c with reserved := c.reserved - 1 }
    match s.launchGroup m.who.core m.who.launch with
    | none => s.bump .dropped
    | some g =>
      if s.stale s.myPanel g.tenant m.tgen then s.bump .dropped
      else
        match m.engine with
        | .context => s.replyCtx m
        | .porter q => s.replyPorter m q
        | .fired => s.replyPorter m firedQueue
        | .task => s.replyPorter m (taskQueue + m.who.ctx)
def execReplyData (s : State) : Res :=
  runEvent .replyData s fun e s =>
    match e with
    | .replyData m => s.takeReply m
    | _ => s
/-- An absent answer: the requester waits before it sends the access again (R114, R237). -/
def execAbsentAnswer (s : State) : Res :=
  runEvent .absentAnswer s fun e s =>
    match e with
    | .absentAnswer m =>
      if (s.launchGroup m.actor.who.core m.actor.who.launch).isSome then
        s.modCore m.actor.who.core fun c => { c with backoffs := c.backoffs ++ [.mem { m with tries := m.tries + 1 }] }
      else s.modCore m.actor.who.core fun c => { c with reserved := c.reserved - 1 }
    | _ => s
/-- Whether a request is to a range whose switch is in progress: it is held at its requester (R132, R133). -/
def State.switching (s : State) (m : MemMsg) : Bool :=
  (opPlaces m.op).any fun p => match p with
    | .phys pa => pa / 2 ^ 46 == s.myPanel && (s.tables.decides (pa % 2 ^ 46)).any arrSwitching
    | _ => false
/-- A replay completion: once no switch is in progress there, the requester looks its address up again and the request goes to the new
home with its data (R133). -/
def execReplayCompletion (s : State) : Res :=
  runEvent .replayCompletion s fun e s =>
    match e with
    | .replayCompletion m => if s.switching m then s.again e else (s.bump .replayed).post (.memoryRequest m)
    | _ => s

/-! ## Returned and dropped requests (R22, R245, R266) -/

/-- The side-log entries of a store that was returned (R245, R287). -/
def returnedEntries (m : MemMsg) : List SideEntry :=
  match m.op with
  | .store ps => ps.map fun p =>
      ⟨m.actor, 1, p.va + lowByte p.mask, if p.mask = BitVec.allOnes 128 then 7 else (popCount 128 p.mask.toNat).log2, 0,
       .store [p], true⟩
  | .nibble p b pos w v => [⟨m.actor, 2, p.va + b, if w = 4 then 8 else if w = 2 then 9 else 10, 0, .nibble p b pos w v, true⟩]
  | _ => []
/-- A request returned unreachable in transit reaches its source (R245). -/
def State.returned (s : State) (m : MemMsg) : State :=
  let w := m.actor.who
  let s := s.modCore w.core fun c => { c with reserved := c.reserved - 1 }
  let va : Option Nat := match m.op with
    | .atomic _ _ _ ls => ls.head?.map fun (l : AtomLane) => l.va
    | _ => (opParts m.op).head?.map fun (p : Part) => p.va + lowByte p.mask
  let t := BitVec.ofNat 64 (va.getD 0)
  match m.actor.engine with
  | .context =>
    let es := returnedEntries m
    if m.posted || !es.isEmpty then
      let s := if m.posted then s.ackedAll w m.id else s.answer w m.id (.ack none)
      es.foldl (fun s e => s.report w ⟨0x11, BitVec.ofNat 64 e.va, false, some e⟩)
        (s.modLaunchGroup w.core w.launch fun g => { g with sideLog := g.sideLog ++ es })
    else s.answer w m.id (match m.op with
      | .maint _ _ => .old [(0, 0)] []
      | .setLine _ _ => .unreachable t
      | _ => .unreachable t)
  | .porter q => s.replyPorter ⟨w, m.id, m.actor.engine, m.actor.tgen, .unreachable t, none, m.posted, s.msgEnd m⟩ q
  | .fired => s.replyPorter ⟨w, m.id, m.actor.engine, m.actor.tgen, .unreachable t, none, m.posted, s.msgEnd m⟩ firedQueue
  | .task => s.replyPorter ⟨w, m.id, m.actor.engine, m.actor.tgen, .unreachable t, none, m.posted, s.msgEnd m⟩ (taskQueue + w.ctx)
def execUnreachableReturn (s : State) : Res :=
  runEvent .unreachableReturn s fun e s =>
    match e with
    | .unreachableReturn m => s.returned m
    | _ => s
/-- A drop notice releases one reservation of the requester (R266). -/
def execDropNotice (s : State) : Res :=
  runEvent .dropNotice s fun e s =>
    match e with
    | .dropNotice core => s.modCore core fun c => { c with reserved := c.reserved - 1 }
    | _ => s
/-- Reservations without a notice are released; with them the reset of the tenant ends (R266). -/
def execReservationTimeout (s : State) : Res :=
  runEvent .reservationTimeout s fun e s =>
    match e with
    | .reservationTimeout tenant =>
      let s := { s with cores := s.cores.keys.foldl (fun cs k =>
        Cells.modify {} cs k fun (c : Core) => if c.group.launch = 0 then { c with reserved := 0 } else c) s.cores }
      s.modTenant tenant fun t => { t with resetting := false }
    | _ => s
/-- One of the messages in the mesh is lost; which one the device tells (R22). -/
def State.dropOne (s : State) : State :=
  match s.agenda.filter fun e => (s.endsOf e).isSome with
  | [] => s
  | x :: t => { s.ticked with agenda := s.agenda.erase ((x :: t).getD (Config.pick s.tick (t.length + 1) % (t.length + 1)) x) }
/-- A message on its 128th hop is dropped and counted, and a containment event goes to the management core (R22, R236). What that event
names the spec does not say: the model posts that of a failed router, with no site, and the vault not readable (DESIGN CHOICE, log 57). -/
def execHopLimitDrop (s : State) : Res :=
  runEvent .hopLimitDrop s fun e s =>
    match e with
    | .hopLimitDrop pchip => ((s.dropOne).bump (.misroute pchip)).post (.containment pchip 9 true false)
    | _ => s

/-! ## Late results and the L1 wrap (R35, R122) -/

/-- A late result is available. -/
def execResultAvailable (s : State) : Res :=
  runEvent .resultAvailable s fun e s =>
    match e with
    | .resultAvailable core ctx r => s.modCtx core ctx fun c => { c with late := c.late.filter (· != r), maint := match r with
        | .s k => c.maint.erase k
        | .v _ => c.maint }
    | _ => s
def execL1EpochWrap (s : State) : Res :=
  runEvent .l1EpochWrap s fun e s =>
    match e with
    | .l1EpochWrap core => s.modCore core Core.wrapL1
    | _ => s

end Sys2Proof.Machine
end

