-- ==== Sys2Proof/Machine/Coherence.lean ====
section
/-! DEFINITION. Sys2Proof/Machine/Coherence.lean: coherence across panels at the home slice and at the proxy slice (R247 to R250). -/
namespace Sys2Proof.Machine

/-! ## Metadata (R247) -/

def metaOwner (m : BitVec 32) : Nat := (m.extractLsb' 3 6).toNat
def metaSharers (m : BitVec 32) : BitVec 16 := m.extractLsb' 9 16
/-- The sharer bit of a panel's group. -/
def groupBit (p : Nat) : BitVec 16 := 1#16 <<< (p / 4)
/-- Build metadata without a poison mark. -/
def mkMeta (st owner : Nat) (sharers : BitVec 16) : BitVec 32 :=
  BitVec.ofNat 32 (2 ^ 9 * sharers.toNat + 8 * (owner % 64) + st)
/-- The panels of the sharer groups. -/
def sharerPanels (m : BitVec 32) : List Nat := (List.range 64).filter fun p => (metaSharers m).getLsbD (p / 4)
/-- Set the metadata of a sector of the own panel; its poison bit stays. -/
def State.setMeta (s : State) (q : Nat) (m : BitVec 32) : State :=
  { s with store := { s.store with meta32 := Cells.set 0 s.store.meta32 q m } }
/-- The metadata of a sector. -/
def State.metaAt (s : State) (q : Nat) : BitVec 32 := Cells.get 0 s.store.meta32 q
/-- A sector in a reserved state is treated as poisoned and counted (R247). -/
def State.legalMeta (s : State) (q : Nat) : State :=
  if 5 ≤ metaState (s.metaAt q) then
    ({ s.setMeta q 0 with store := (s.setMeta q 0).store.setPoison (64 * q) true }).bump .badState
  else s

/-! ## Transactions at the home (R250) -/

def State.homeSector (s : State) (q : Nat) : Sector := Cells.get {} s.store.sectors q
def State.modHome (s : State) (q : Nat) (f : Sector → Sector) : State :=
  { s with store := s.store.modSector (64 * q) f }
/-- The part of a sector: its place, its bytes. -/
def State.sectorPart (s : State) (pa : Nat) (k : Nat) : Part :=
  let line := pa / 128 * 128
  ⟨.phys line, line, if pa % 128 = 0 then maskOf 0 64 else maskOf 64 64, s.store.line (k / 128 * 128), false, s.store.relPairs (k / 128 * 128) (if pa % 128 = 0 then maskOf 0 64 else maskOf 64 64)⟩
/-- Answer a panel that asked for a sector. -/
def State.cohReply (s : State) (panel : Nat) (ans : Answer) (st : Option Nat) : State :=
  s.sendTo panel (.replyData ⟨⟨0, 0, 0⟩, 0, .context, 0, ans, st, false, 2304⟩)
/-- Send a sector's data to the panel that asked, with the state it grants: S 1, E 2, M 4. -/
def State.sendGrant (s : State) (panel home q : Nat) (k st : Nat) : State :=
  let pa := home * 2 ^ 46 + 64 * q
  s.cohReply panel (if s.store.poisoned k then .poisoned (BitVec.ofNat 64 pa) else .data [s.sectorPart pa k] []) (some st)
/-- The state that the metadata grants to a panel. -/
def grantState (m : BitVec 32) (p : Nat) : Nat :=
  if metaState m = 3 && metaOwner m = p then 2 else if metaState m = 4 && metaOwner m = p then 4 else 1
/-- Panels that can be reached among some; an unreachable one counts as having acknowledged (R250). -/
def State.reachable (s : State) (ps : List Nat) : List Nat :=
  ps.filter fun p => match s.routeTo p with
    | .unreachable => false
    | _ => true
/-- An owner that cannot be reached any more: the sector is poisoned and home-only (R250). -/
def State.lostOwner (s : State) (q : Nat) : State :=
  let s := s.setMeta q 0
  { s with store := s.store.setPoison (64 * q) true }
/-- Whether the owner in the metadata is another panel than P and cannot be reached. -/
def State.ownerLost (s : State) (q p : Nat) : Bool :=
  let m := s.metaAt q
  2 ≤ metaState m && metaOwner m != p && (match s.routeTo (metaOwner m) with
    | .unreachable => true
    | _ => false)
/-- The owner that an exclusive request of a panel, or a home-panel write, recalls. -/
def otherOwner (m : BitVec 32) (p : Nat) : Option Nat := if 2 ≤ metaState m && metaOwner m ≠ p then some (metaOwner m) else none
/-- Invalidate the sharers and recall the owner for an exclusive request of a panel (the own one for a home-panel write):
those that must acknowledge (R249). -/
def State.clearCopies (s : State) (p q : Nat) : State × List Nat :=
  let m := s.metaAt q
  let own := (otherOwner m p).toList
  let sharers := if metaState m = 1 ∨ metaState m = 2 then
      (sharerPanels m).filter fun x => x != p && x != s.myPanel && !own.contains x else []
  let inv := s.reachable sharers
  let rec' := s.reachable own
  let s := inv.foldl (fun s x => s.sendOut x (.invalidation s.myPanel q)) s
  (rec'.foldl (fun s x => s.sendOut x (.coherenceForward s.myPanel q p true)) s, inv ++ rec')
/-- Open a transaction: its requester, who must acknowledge, the owner that was asked. -/
def State.openCoherence (s : State) (q p : Nat) (write : Bool) (pending : List Nat) (asked : Option Nat) : State :=
  s.modHome q fun x => { x with busy := some (p, write), pending, asked }
/-- Begin a request at a sector without an open transaction (R249). `write` is read-exclusive, or a home-panel write for the
own panel. Whether the transaction stays open. A sector that no range covers faults its requester (R126). -/
def State.beginCoherence (s : State) (p q : Nat) (write : Bool) : State × Bool :=
  if p ≠ s.myPanel && (s.tables.decides (64 * q)).isNone then
    (s.cohReply p (.outside (BitVec.ofNat 64 (s.myPanel * 2 ^ 46 + 64 * q))) none, false)
  else
  let s := s.legalMeta q
  let s := if s.ownerLost q p then s.lostOwner q else s
  let m := s.metaAt q
  let st := metaState m
  let k := 64 * q
  if p = s.myPanel then
    if write then
      if st = 0 then (s, false)
      else
        let (s, pend) := s.clearCopies p q
        let s := s.setMeta q 0
        if pend.isEmpty then (s, false) else (s.openCoherence q p true pend (otherOwner m p), true)
    else if st = 2 ∨ st = 4 then
      let o := metaOwner m
      let s := s.sendOut o (.coherenceForward s.myPanel q p false)
      ((s.setMeta q (mkMeta 1 0 (metaSharers m ||| groupBit o))).openCoherence q p false [o] (some o), true)
    else (s, false)
  else if write then
    if st = 0 then (((s.setMeta q (mkMeta 4 p 0)).openCoherence q p true [] none).sendGrant p s.myPanel q k 4, true)
    else
      let (s, pend) := s.clearCopies p q
      let s := (s.setMeta q (mkMeta 4 p 0)).openCoherence q p true pend (otherOwner m p)
      if pend.isEmpty then (s.sendGrant p s.myPanel q k 4, true) else (s, true)
  else if st = 0 then (((s.setMeta q (mkMeta 3 p 0)).openCoherence q p false [] none).sendGrant p s.myPanel q k 2, true)
  else if st = 1 then
    (((s.setMeta q (mkMeta 1 0 (metaSharers m ||| groupBit p))).openCoherence q p false [] none).sendGrant p s.myPanel q k 1, true)
  else if metaOwner m = p then ((s.openCoherence q p false [] none).sendGrant p s.myPanel q k (grantState m p), true)
  else
    let o := metaOwner m
    let s := s.sendOut o (.coherenceForward s.myPanel q p false)
    let m' := if st = 3 then mkMeta 1 0 (groupBit p ||| groupBit o) else mkMeta 2 o (metaSharers m ||| groupBit p)
    ((s.setMeta q m').openCoherence q p false [] (some o), true)
/-- Begin the requests that queue at a sector, in arrival order, until one stays open; a requester that cannot be reached any more is
passed over. -/
def State.nextCoherence (s : State) (q : Nat) : List (Nat × Bool) → State
  | [] => s.modHome q fun x => { x with busy := none, pending := [], asked := none, queued := [] }
  | (p, w) :: t =>
    let s := s.modHome q fun x => { x with busy := none, pending := [], asked := none, queued := t }
    if (s.reachable [p]).isEmpty then s.nextCoherence q t
    else
      let (s, stays) := s.beginCoherence p q w
      let s := if p = s.myPanel && !stays then s.modHome q fun x => { x with fetching := false } else s
      if stays then s else s.nextCoherence q t
/-- A request of a panel at the home slice: behind an open transaction, or at once. -/
def State.coherence (s : State) (p q : Nat) (write : Bool) : State :=
  let x := s.homeSector q
  if x.busy.isSome then s.modHome q fun x => { x with queued := x.queued ++ [(p, write)] }
  else s.nextCoherence q [(p, write)]
/-- The transaction of a sector closes: a home-panel request may go on, the next request begins. -/
def State.closeCoherence (s : State) (q : Nat) : State :=
  let x := s.homeSector q
  let s := match x.busy with
    | some (r, _) => if r = s.myPanel then s.modHome q fun x => { x with fetching := false } else s
    | none => s
  s.nextCoherence q x.queued
/-- A panel that was asked for an acknowledgement has answered; the last one lets the request go on. -/
def State.copyGone (s : State) (p q : Nat) : State :=
  let x := s.homeSector q
  if !x.pending.contains p then s
  else
    let pend := x.pending.erase p
    let s := s.modHome q fun x => { x with pending := pend, asked := if x.asked = some p then none else x.asked }
    if !pend.isEmpty then s
    else
      match x.busy with
      | none => s
      | some (r, _) => if r = s.myPanel then s.closeCoherence q else s.sendGrant r s.myPanel q (64 * q) (grantState (s.metaAt q) r)

def execReadShared (s : State) : Res :=
  runEvent .readShared s fun e s =>
    match e with
    | .readShared p q => s.coherence p q false
    | _ => s
def execReadExclusive (s : State) : Res :=
  runEvent .readExclusive s fun e s =>
    match e with
    | .readExclusive p q => s.coherence p q true
    | _ => s
def execHomePanelRequest (s : State) : Res :=
  runEvent .homePanelRequest s fun e s =>
    match e with
    | .homePanelRequest q w => s.coherence s.myPanel q w
    | _ => s
/-- A write-back of an owner is accepted at once, even while a transaction is open (R250). One that a forward or a recall asked for
answers it; one of the owner's own leaves the sector shared or home-only (R249), and is acknowledged to an instruction that waits. -/
def State.writeBack (s : State) (p q : Nat) (data : BitVec 512) (poison forced : Bool) (waiter : Option (Actor × Nat)) : State :=
  let k := 64 * q
  let mask : BitVec 128 := if k % 128 = 0 then maskOf 0 64 else maskOf 64 64
  let line : Line := if k % 128 = 0 then data.setWidth 1024 else data.setWidth 1024 <<< 512
  let m := s.metaAt q
  let s := s.writeHome (k / 128 * 128) mask line none
  let s := if poison then { s with store := s.store.setPoison k true } else s
  let s := match waiter with
    | some (a, id) => s.sendTo p (.replyData ⟨a.who, id, .context, a.tgen, .ack none, none, true, 2304⟩)
    | none => s
  if forced then (s.modHome q fun x => if x.pending.contains p then x else { x with asked := if x.asked = some p then none else x.asked }).copyGone p q
  else if metaOwner m = p && (metaState m = 2 || metaState m = 4) then
    s.setMeta q (if metaSharers m = 0 then 0 else mkMeta 1 0 (metaSharers m))
  else s
def execOwnerWriteBack (s : State) : Res :=
  runEvent .ownerWriteBack s fun e s =>
    match e with
    | .ownerWriteBack p q d x f w => s.writeBack p q d x f w
    | _ => s
/-- An acknowledgement at the home: the requester has its data, a copy is gone, or an owner that was asked for its data holds none,
for which the home supplies its own (R250). -/
def State.ack (s : State) (p q : Nat) (k : CohAck) : State :=
  let x := s.homeSector q
  match k with
  | .granted => if x.busy.map (·.1) = some p && x.pending.isEmpty then s.closeCoherence q else s
  | .gone => s.copyGone p q
  | .noCopy =>
    if x.pending.contains p then s.copyGone p q
    else if x.asked = some p then
      (match x.busy with
       | none => s
       | some (r, _) => (s.modHome q fun x => { x with asked := none }).sendGrant r s.myPanel q (64 * q) (grantState (s.metaAt q) r))
    else s
def execGrantAck (s : State) : Res :=
  runEvent .grantAck s fun e s =>
    match e with
    | .grantAck p q k => s.ack p q k
    | _ => s
/-- A panel becomes unreachable (R250): its transactions end, its acknowledgements count as given, and a sector that it was asked for
is poisoned and home-only, and its request begins again. The sectors of its own that this panel waits for come back (R245). -/
def State.cohLost (s : State) (d q : Nat) : State :=
  let x := s.homeSector q
  let s := s.modHome q fun x => { x with queued := x.queued.filter fun y => y.1 != d }
  match x.busy with
  | none => s
  | some (r, w) =>
    if r = d then s.closeCoherence q
    else if x.asked = some d then (s.lostOwner q).nextCoherence q ((r, w) :: (s.homeSector q).queued)
    else s.copyGone d q
def State.panelLost (s : State) (d : Nat) : State :=
  let s := (s.store.sectors.keys.filter fun q => 64 * q < vaultBase).foldl (fun s q => s.cohLost d q) s
  let mine := s.store.sectors.keys.filter fun q =>
    let pa := 64 * q - 2 ^ 58
    isProxyKey (64 * q) && pa / 2 ^ 46 == d && (s.homeSector q).fetching
  mine.foldl (fun s q => s.failProxy (64 * q - 2 ^ 58) .unreachable) s

/-! ## The proxy slice (R248, R249) -/

def State.proxyAt (s : State) (q : Nat) : Proxy := Cells.get Proxy.i s.store.proxies q
def State.setProxy (s : State) (q : Nat) (p : Proxy) : State :=
  { s with store := { s.store with proxies := Cells.set Proxy.i s.store.proxies q p } }
/-- A forward or a recall at the owner: it sends its data and changes state; without a copy it says so (R249, R250). -/
def State.forward (s : State) (home q r : Nat) (exclusive : Bool) : State :=
  let k := proxyKey (home * 2 ^ 46 + 64 * q)
  let st := s.proxyAt (k / 64)
  let back (s : State) : State := s.sendOut home (.ownerWriteBack s.myPanel q (s.sectorData k) (s.store.poisoned k) true none)
  let ack (s : State) (a : CohAck) : State := s.sendOut home (.grantAck s.myPanel q a)
  if exclusive then
    (match st with
     | .o | .m => back s
     | .s | .e => ack s .gone
     | .i => ack s .noCopy).setProxy (k / 64) .i
  else
    match st with
    | .i | .s => ack s .noCopy
    | _ =>
      if r = home then (back s).setProxy (k / 64) .s
      else
        let s := s.sendGrant r home q k 1
        (back s).setProxy (k / 64) (if st = .e then .s else .o)
def execCoherenceForward (s : State) : Res :=
  runEvent .coherenceForward s fun e s =>
    match e with
    | .coherenceForward home q r x => s.forward home q r x
    | _ => s
/-- An invalidation drops the copy, if there is one, and is acknowledged (R250). -/
def execInvalidation (s : State) : Res :=
  runEvent .invalidation s fun e s =>
    match e with
    | .invalidation home q =>
      (s.setProxy (proxyKey (home * 2 ^ 46 + 64 * q) / 64) .i).sendOut home (.grantAck s.myPanel q .gone)
    | _ => s

end Sys2Proof.Machine
end

