-- ==== Sys2Proof/Machine/Links.lean ====
section
/-! DEFINITION. Sys2Proof/Machine/Links.lean: mesh lanes and optical links as device events (R232, R239 to R242, R246). -/
namespace Sys2Proof.Machine

/-- A port. -/
def State.port (s : State) (p : Nat) : Optical := Cells.get {} s.optical p
/-- Sequence distance modulo 4,096. -/
def seqDist (a b : Nat) : Nat := (b + 4096 - a) % 4096

/-- A flit with a CRC error on a mesh lane is discarded and sent again, and counted (R232). -/
def execMeshReplayRequest (s : State) : Res :=
  runEvent .meshReplayRequest s fun e s =>
    match e with
    | .meshReplayRequest pchip _ => s.bump (.meshReplay pchip)
    | _ => s

/-- Flits before an acknowledged sequence leave the replay buffer, with the messages that end in them (R241). -/
def Optical.acked (o : Optical) (ack : Nat) : Optical :=
  { o with ackedSeq := ack, replay := o.replay.filter fun p => seqDist ack p.1 < 2048
           sent := o.sent.filter fun p => seqDist ack p.1 < 2048 }
/-- One slot is received (R240). -/
def Optical.slot (o : Optical) : Optical := { o with recvSlots := o.recvSlots + 1, slotClock := o.slotClock + 1 }
/-- An authentication failure at a slot: sixteen within 2^20 slots take the port down (R241). -/
def Optical.authFail (o : Optical) : Optical :=
  { o with authFails := o.slotClock :: o.authFails.filter fun n => o.slotClock < n + 2 ^ 20 }
/-- A data flit: discarded with a replay request on a failed check, else acknowledged (R240, R241). What waits at the port may go. -/
def State.dataFlit (s : State) (p : Nat) (f : LinkFlit) : State :=
  let s := s.modPort p Optical.slot
  let o := s.port p
  if !f.crcOk || !f.tagOk then
    let s := if f.crcOk then (s.modPort p Optical.authFail).bump .authFail else s
    let s := { s with podOut := s.podOut ++ [(o.peer, .linkReplayRequest p o.recvSeq)] }
    if 16 ≤ (s.port p).authFails.length && (s.port p).up then s.post (.authFailureLimit p) else s
  else
    (s.modPort p fun o =>
      let o := o.acked (f.ack % 4096)
      if f.seq = o.recvSeq then { o with recvSeq := (o.recvSeq + 1) % 4096 } else o).drainPort p
def execLinkDataFlit (s : State) : Res :=
  runEvent .linkDataFlit s fun e s =>
    match e with
    | .linkDataFlit p f => s.dataFlit p f
    | _ => s
/-- An idle flit takes one slot and acknowledges (R239, R240). -/
def execLinkIdleFlit (s : State) : Res :=
  runEvent .linkIdleFlit s fun e s =>
    match e with
    | .linkIdleFlit p ack => (s.modPort p fun o => o.slot.acked (ack % 4096)).drainPort p
    | _ => s
/-- A replay request: go back to the first flit not acknowledged; each flit goes out again and takes a slot of its own (R240, R241). -/
def execLinkReplayRequest (s : State) : Res :=
  runEvent .linkReplayRequest s fun e s =>
    match e with
    | .linkReplayRequest p seq => (s.modPort p fun o =>
        let o := o.slot.acked (seq % 4096)
        { o with sendSlots := o.sendSlots + o.replay.length }).drainPort p
    | _ => s
/-- The slot with a rekey mark: the direction goes on under the new keys, its counter from 0 (R240). -/
def execLinkRekeyMark (s : State) : Res :=
  runEvent .linkRekeyMark s fun e s =>
    match e with
    | .linkRekeyMark p => s.modPort p fun o => { o.slot with keyGen := o.nextGen, recvSlots := 0 }
    | _ => s
/-- The management cores agree new keys for a port; the sending direction marks its slot and counts from 0 (R240). -/
def execRekey (s : State) : Res :=
  runEvent .rekey s fun e s =>
    match e with
    | .rekey p =>
      let o := s.port p
      let s := s.modPort p fun o => { o with nextGen := o.keyGen + 1, sendSlots := 0 }
      { s with podOut := s.podOut ++ [(o.peer, .linkRekeyMark p)] }
    | _ => s
/-- Whether a port belongs to the set of a route entry (R243). -/
def inPortSet (r : BitVec 32) (p : Nat) : Bool :=
  (p + 64 - (r.extractLsb' 0 6).toNat) % 64 ≤ (r.extractLsb' 8 6).toNat
/-- Whether some port of a route entry is up. -/
def State.anyUp (s : State) (r : BitVec 32) : Bool := (List.range 64).any fun p => inPortSet r p && (s.port p).up
/-- Panels behind a set of routes that have no port left. -/
def State.cutOff (s : State) : List Nat :=
  (List.range 64).filter fun d =>
    d != s.myPanel && (s.tables.route d).extractLsb' 30 2 == 1 && !s.anyUp (s.tables.route d)
/-- Write the state field of a route entry. -/
def State.setRoute (s : State) (d : Nat) (st : BitVec 2) : State :=
  let r := s.tables.route d
  { s with tables := { s.tables with podrt := Cells.set 0 s.tables.podrt d (st ++ r.extractLsb' 0 30) } }
/-- Collectives with members on a panel lose them (R226). -/
def State.shrinkFor (s : State) (panels : List Nat) : State :=
  s.launches.list.foldl (fun s p =>
    p.2.colls.foldl (fun s c => panels.foldl (fun s d => s.post (.collectiveShrink p.1 c.id d)) s) s) s
/-- A panel cannot be reached any more: its route says so, what waits for a held route is tried again, its part in coherence ends, its
collectives lose it (R226, R245, R250). -/
def State.panelGone (s : State) (d : Nat) : State := ((s.setRoute d 0).releaseHeld.panelLost d).shrinkFor [d]
/-- A port goes down (R241, R246): the management cores find which of its messages the peer has accepted (a free choice), and each of
the others goes out through another port, or comes back where its panel cannot be reached any more; so does what waited at the port. The
panels that no other port reaches become unreachable. -/
def State.portDown (s : State) (p : Nat) : State :=
  let o := s.port p
  let lost := o.sent.drop (Config.accepted s.tick p % (o.sent.length + 1))
  let s := (s.modPort p fun o => { o with up := false, replay := [], sent := [], queue := [] }).ticked
  let s := s.cutOff.foldl State.panelGone s
  let s := lost.foldl (fun (s : State) x => ({ s with podOut := s.podOut.erase x.2 } : State).sendOut x.2.1 x.2.2) s
  o.queue.foldl (fun s x => s.sendOut x.1 x.2) s
/-- Physical chiplet whose router an optical port's link reaches (R438). -/
def portRouter (p : Nat) : Nat := if p < 32 then 18 * (p / 2) else 18 * ((p - 32) / 2) + 17
/-- The ports whose routers are router-dead go down (R438). -/
def State.edgePorts (s : State) : State :=
  ((List.range 64).filter fun p => (s.port p).up && s.tables.cstateOf (portRouter p) == 2).foldl State.portDown s
def execAuthFailureLimit (s : State) : Res :=
  runEvent .authFailureLimit s fun e s =>
    match e with
    | .authFailureLimit p => (s.modPort p fun o => { o with authFails := [] }).portDown p
    | _ => s
def execLinkFailure (s : State) : Res :=
  runEvent .linkFailure s fun e s =>
    match e with
    | .linkFailure p => s.portDown p
    | _ => s
/-- Allowances that come back fill those of the tenant and network, then the pool (R242). -/
def Optical.giveBack (o : Optical) (tenant net n : Nat) : Optical :=
  let a := Cells.get 0 o.allowances (allowKey tenant net)
  let own := if tenant = 0xFFFF then 0 else Nat.min n (4 - a)
  { o with allowances := Cells.set 0 o.allowances (allowKey tenant net) (a + own), pool := Nat.min 4096 (o.pool + (n - own)) }
/-- The initial grant of a new peer: four slots for each tenant and network, and the pool (R242). -/
def Optical.grants (o : Optical) (tenants : List Nat) : Optical :=
  { o with pool := 4096
           allowances := tenants.foldl (fun m t => (List.range 6).foldl (fun m net => Cells.set 0 m (allowKey t net) 4) m) o.allowances }
/-- Send allowances come back (R242); frozen ones keep their count (R246). -/
def execAllowanceReturn (s : State) : Res :=
  runEvent .allowanceReturn s fun e s =>
    match e with
    | .allowanceReturn p tenant net n => (s.modPort p fun o =>
        if o.frozen then o else o.giveBack tenant net n).drainPort p
    | _ => s

end Sys2Proof.Machine
end

