-- ==== Sys2Proof/Machine/Messages.lean ====
section
/-! DEFINITION. Sys2Proof/Machine/Messages.lean: deposits, wakes, spawns, channel elements, drain acknowledgements and counter
increments as they arrive (R39, R40, R56, R59, R62 to R67, R200, R213, R399, R434). -/
namespace Sys2Proof.Machine

/-! ## Deposits (R63 to R67) -/

/-- Whether a context index of a group names a context that is not free. -/
def Group.liveCtx (g : Group) (c : Nat) : Bool := c < 11 && (g.ctx c).status != .free
/-- A deposit into a context: the register is written, its hold cleared, its release observed by the next read (R63, R135). -/
def Ctx.deposit (c : Ctx) (r : VReg) (v : Line) (rel : Rel) : Ctx :=
  { c.setV r v with holds := c.holds &&& ~~~(1#32 <<< r.toNat),
                    deposited := (r, rel) :: c.deposited.filter fun p => p.1 != r }
/-- Apply a deposit at the group that a live name names: to the bound group, or to the saved image (R66). -/
def State.depositAt (s : State) (m : Deposit) (core launch : Nat) : State :=
  match s.launchGroup core launch with
  | none => s
  | some g =>
    if g.liveCtx m.ctx && (g.ctx m.ctx).held m.reg then
      s.modLaunchGroup core launch fun g => g.modCtx m.ctx fun c => c.deposit m.reg m.val m.rel
    else s.toPanel m.rel.panel (.depositNack ⟨m.src, m.kc, 7⟩)
/-- A deposit arrives; one of an old generation is dropped (R266). -/
def State.arriveDeposit (s : State) (m : Deposit) : State :=
  if s.stale m.rel.panel m.tenant m.tgen then s.bump .dropped
  else
    match s.nameOwner m.name m.tenant with
    | none => s.toPanel m.rel.panel (.depositNack ⟨m.src, m.kc, 8⟩)
    | some (core, launch) => s.depositAt m core launch
def execDepositArrival (s : State) : Res :=
  runEvent .depositArrival s fun e s =>
    match e with
    | .depositArrival m => s.arriveDeposit m
    | _ => s
/-- A refusal reaches its sender's core (R63, R65); after the launch has left it is dropped and counted. -/
def execDepositNack (s : State) : Res :=
  runEvent .depositNack s fun e s =>
    match e with
    | .depositNack m =>
      if (s.launchGroup m.dst.core m.dst.launch).isNone then s.bump .nackDropped
      else s.modLaunchGroup m.dst.core m.dst.launch fun g =>
        (match m.kc with
         | some k => g.increment k 1 none
         | none => g).modCtx m.dst.ctx fun c => c.addEv m.event 1
    | _ => s

/-! ## Wakes (R40, R434) -/

/-- A wake arrives: the token is set, in the saved image too; one of an old generation is dropped (R266). -/
def State.arriveWake (s : State) (m : Wake) : State :=
  if s.stale m.rel.panel m.tenant m.tgen then s.bump .dropped
  else match (if m.ctx < 11 then s.nameOwner m.name m.tenant else none) with
  | none => s.toPanel m.rel.panel (.depositNack ⟨m.src, none, 9⟩)
  | some (core, launch) =>
    s.modLaunchGroup core launch fun g => g.modCtx m.ctx fun c =>
      if c.token then c else { c with token := true, tokenRel := some m.rel }
def execWakeArrival (s : State) : Res :=
  runEvent .wakeArrival s fun e s =>
    match e with
    | .wakeArrival m => s.arriveWake m
    | _ => s

/-! ## Spawns (R39, R399) -/

/-- Whether a group is at its retiring stage (R34): its control context has halted and no helper slot holds a context that is
not a task, whether it runs there or is the parked owner of a lent slot (R45). -/
def Group.retiring (g : Group) : Bool :=
  (g.ctx 0).status == .free
    && ((List.range 10).all fun i => (g.ctx (i + 1)).status == .free || (g.ctx (i + 1)).task.isSome)
    && g.lent.all fun p => p.2.status == .free || p.2.task.isSome
/-- A spawn request at its group: accepted with a helper slot, or refused. -/
def State.takeSpawn (s : State) (m : Spawn) : State × SpawnAns :=
  match s.nameOwner m.name m.tenant with
  | none => (s, .deadName)
  | some (core, launch) =>
    let g := s.group core
    if g.launch = launch && (s.core core).stop = 0 && !g.retiring && g.freeSlot.isSome then
      ((s.startHelper core m.pc m.args m.rel.clock).1, .accepted)
    else (s, .refused)
def execSpawnRequest (s : State) : Res :=
  runEvent .spawnRequest s fun e s =>
    match e with
    | .spawnRequest m =>
      if s.stale m.rel.panel m.tenant m.tgen then (s.bump .dropped).toPanel m.rel.panel (.dropNotice m.src.core)
      else
      let (s, ans) := s.takeSpawn m
      s.toPanel m.rel.panel (.spawnReply ⟨m.src, m.fired, m.name, ans⟩)
    | _ => s
/-- The answer reaches its issuer: the waiting context, or the crier whose firing it was (R218). -/
def State.spawnAnswer (s : State) (m : SpawnReply) : State :=
  let s := s.modCore m.dst.core fun c => { c with reserved := c.reserved - 1 }
  if m.fired then
    s.modLaunchGroup m.dst.core m.dst.launch fun g =>
      let x := g.queue firedQueue
      let g := if m.ans = .refused then g.modCtx m.dst.ctx fun c => c.addEv 10 1 else g
      let g := if m.ans = .deadName then g.report m.dst.ctx ⟨0x0D, m.name, false, none⟩ else g
      g.setQueue firedQueue { x with run := { x.run with acks := x.run.acks - 1, poison := m.ans != .accepted } }
  else
    s.modLaunchGroup m.dst.core m.dst.launch fun g => g.modCtx m.dst.ctx fun c =>
      if c.access.isSome then { c with spawnReply := some m.ans } else c
def execSpawnReply (s : State) : Res :=
  runEvent .spawnReply s fun e s =>
    match e with
    | .spawnReply m => s.spawnAnswer m
    | _ => s

/-! ## Channels and drain markers (R56, R59) -/

/-- An element enters the slots of the reading end, of a saved group too, whose resume looks at its drain markers (R59, R66). -/
def execChannelElementArrival (s : State) : Res :=
  runEvent .channelElementArrival s fun e s =>
    match e with
    | .channelElementArrival m =>
      if s.stale s.myPanel (s.launch m.src.launch).tenant m.tgen then s.bump .dropped
      else
      let s := s.modLaunchGroup m.core m.src.launch fun g =>
        g.setChan m.chan { g.chan m.chan with slots := (g.chan m.chan).slots ++ [m.elem] }
      if (s.group m.core).launch = m.src.launch then s.reachChan m.core m.chan else s
    | _ => s
/-- Slots come back to the writing end; a drain acknowledgement is counted there (R59). -/
def execDrainMarkerAck (s : State) : Res :=
  runEvent .drainMarkerAck s fun e s =>
    match e with
    | .drainMarkerAck m =>
      s.modLaunchGroup m.core m.launch fun g =>
        match m.chan with
        | some n =>
          let g := g.setChan n { g.chan n with allowance := (g.chan n).allowance + m.slots }
          if m.drained then g.ackDrain 5 n m.ctr else g
        | none => g
    | _ => s

/-! ## Increments (R200, R212, R213, R221) -/

/-- Value of an increment that found no counter (R209 code 4). -/
def missingCounter (k : KReg) (core panel : Nat) : Word := BitVec.ofNat 64 (2 ^ 32 * panel + 2 ^ 16 * core + k.toNat)
/-- Acknowledge an increment to the porter command that sent it. -/
def State.ackIncrement (s : State) (i : CtrInc) (ok : Bool) : State :=
  match i.ack with
  | none => s
  | some (core, launch, q) =>
    let ans : Answer := if ok then .ack none else .missing (missingCounter i.ctr i.core s.myPanel)
    let panel := match i.rel with
      | some r => r.panel
      | none => s.myPanel
    let tgen := match s.launchGroup core launch with
      | some g => g.tgen
      | none => 0
    s.toPanel panel (.replyData ⟨⟨core, 0, launch⟩, 0, .porter q, tgen, ans, none, true, i.core⟩)
/-- An increment arrives at a counter of the group of a launch, or of whatever launch is bound; the saved group takes it too. -/
def State.arriveIncrement (s : State) (i : CtrInc) : State :=
  if i.tenant ≠ 0 && s.stale ((i.rel.map fun (r : Rel) => r.panel).getD s.myPanel) i.tenant i.tgen then
    (match i.ack with
     | some (core, _, _) => (s.bump .dropped).toPanel ((i.rel.map fun (r : Rel) => r.panel).getD s.myPanel) (.dropNotice core)
     | none => s.bump .dropped)
  else
  let launch := if i.launch = 0 then (s.group i.core).launch else i.launch
  match (if launch = 0 then none else s.launchGroup i.core launch) with
  | none => s.ackIncrement i false
  | some g =>
    if g.cmask.getLsbD i.ctr.toNat then
      (s.modLaunchGroup i.core launch fun g => g.increment i.ctr i.delta i.rel).ackIncrement i true
    else s.ackIncrement i false
def execCounterIncrement (s : State) : Res :=
  runEvent .counterIncrement s fun e s =>
    match e with
    | .counterIncrement i => s.arriveIncrement i
    | _ => s

end Sys2Proof.Machine
end

