-- ==== Sys2Proof/Machine/Runs.lean ====
section
/-! DEFINITION. Sys2Proof/Machine/Runs.lean: collectives (R222 to R226): their descriptors, the members, one run from the last start
increment to the done increments. -/
namespace Sys2Proof.Machine

/-! ## Descriptors (R222, R224) -/

/-- Fields of a collective's descriptor. -/
def Collective.num (c : Collective) (o n : Nat) : Nat := field (leNat c.record) o n
def Collective.kind (c : Collective) : Nat := c.num 0 1
def Collective.desc (c : Collective) : Nat := c.num 8 8
def Collective.bytesEach (c : Collective) : Nat := c.num 0x20 8
/-- The counters of a descriptor. -/
def Collective.startCtr (c : Collective) : KReg := BitVec.ofNat 6 (c.num 3 1)
def Collective.doneCtr (c : Collective) : KReg := BitVec.ofNat 6 (c.num 4 1)
/-- Partition offsets of the buffer and of the status word. -/
def Collective.buffer (c : Collective) : Nat := c.num 0x18 8 % 2 ^ 22
def Collective.statusAt (c : Collective) : Nat := c.num 0x28 8 % 2 ^ 22
/-- The listed panels in member order. -/
def Collective.panels (c : Collective) : List Nat := (List.range (c.num 0x10 1)).map fun i => c.num (0x30 + i) 1
/-- Cores of the subgroup, and the members when the collective was built. -/
def Collective.size (c : Collective) : Nat := 2 ^ dLw c.desc * 2 ^ dLh c.desc
def Collective.full (c : Collective) : Nat := c.panels.length * c.size
/-- The panel of a member, and its core within the launch. -/
def Collective.panelOf (c : Collective) (m : Nat) : Nat := c.panels.getD (m / c.size) 255
def Collective.coreOf (c : Collective) (rect m : Nat) : Nat := (subgroupCores rect c.desc).getD (m % c.size) 0
/-- The members of this panel among the surviving ones, with their cores. -/
def Collective.own (c : Collective) (panel rect : Nat) : List (Nat × Nat) :=
  (c.members.filter fun m => c.panelOf m == panel).map fun m => (m, c.coreOf rect m)
/-- The buffer's length. -/
def Collective.bufLen (c : Collective) : Nat :=
  let k := c.kind
  if k ≤ 2 then c.bytesEach else if k ≤ 4 then c.full * c.bytesEach else 2 * c.full * c.bytesEach
/-- The offsets in a member's buffer that a run reads: what it contributes. -/
def Collective.reads (c : Collective) (m : Nat) : List Nat :=
  match c.kind with
  | 1 => [0]
  | 2 => [0]
  | 3 => [m * c.bytesEach]
  | _ => c.members.map fun j => j * c.bytesEach
/-- The status word (R225). -/
def Collective.status (c : Collective) (result : Nat) : Nat := c.gen % 2 ^ 32 * 2 ^ 32 + c.members.length * 2 ^ 16 + result * 2 ^ 8

/-! ## Combining (R219, R223) -/

/-- The bytes of an element, and the operation that combines two elements. -/
def collElem (ty : Nat) : Nat := if ty = 8 then 2 else 4
def collOp (op ty x y : Nat) : Nat :=
  if ty = 8 then (if op = 1 then fMinMax fmtBf16 true x y else if op = 2 then fMinMax fmtBf16 false x y
                  else ((firedNew 2 x y 0).1).getD x)
  else if ty = 10 then ((firedNew (if op = 1 then 3 else if op = 2 then 4 else 1) x y 0).1).getD x
  else ((firedNew (if op = 1 then 5 else if op = 2 then 6 else 0) x y 0).1).getD x
/-- Combine blocks element by element in member order; an average divides once by the member count. -/
def collCombine (op ty count : Nat) (blocks : List (List Byte)) : List Byte :=
  let n := collElem ty
  match blocks.map (groupBytes n) with
  | [] => []
  | b :: t =>
    let sums := t.foldl (fun (acc : List Nat) (x : List Nat) => (acc.zip x).map fun p => collOp op ty p.1 p.2) b
    (sums.map fun x => if op = 3 then ((firedNew 8 x 0 count).1).getD x else x).flatMap (leBytes n)

/-! ## A run (R223, R224) -/

/-- The rectangle of a launch. -/
def Launch.rect (l : Launch) : Word := mkRect l.x0 l.y0 l.lw l.lh
/-- Storage key of a partition offset of a group on a core. -/
def groupKey (core : Nat) (g : Group) (off : Nat) : Nat := scratchKey core (gmapOff g.gmap off)
/-- Bytes of a partition. -/
def State.partBytes (s : State) (core : Nat) (g : Group) (off n : Nat) : List Byte :=
  (pieces off n).flatMap fun p => s.store.bytes (groupKey core g p.1) p.2
/-- The pieces of a partition with their keys and whether one is poisoned. -/
def State.blockPoison (s : State) (core : Nat) (g : Group) (off n : Nat) : Bool :=
  (pieces off n).any fun p => s.store.readsPoison (groupKey core g (p.1 / 128 * 128)) (maskOf (p.1 % 128) p.2)
/-- Write bytes of a partition as the management firmware: no mark (R140). -/
def State.putWord (s : State) (core : Nat) (g : Group) (off v : Nat) : State :=
  let k := groupKey core g off
  s.writeHome (k / 128 * 128) (maskOf (k % 128) 8) (valLine (k % 128) 8 v) none
/-- Write a block of a partition for a run: whole lines, each checked and marked for the run's agent and reported to the member's
control context (R142, R223), poisoned where a contribution was. -/
def State.putBlock (s : State) (a : Actor) (core : Nat) (g : Group) (off : Nat) (psn : Bool) (bs : List Byte) : State :=
  (List.range (bs.length / 128)).foldl (fun (s : State) i =>
    let o := off + 128 * i
    let k := groupKey core g o
    let all := BitVec.allOnes 128
    let s := match s.store.conflictIn a true true k all with
      | some w => s.report a.who ⟨0x14, BitVec.ofNat 64 (2 ^ 63 + o + 4 * w), false, none⟩
      | none => s
    let s := { s with store := s.store.addMarks a true true k all }
    let s := s.writeHome k all (lineOf (bs.drop (128 * i))) none
    if psn then { s with store := s.store.poisonMask k all } else s) s
/-- The blocks that a run leaves in a member's buffer: offset, whether a contribution was poisoned, bytes. `get` reads a member's
buffer. -/
def Collective.results (c : Collective) (get : Nat → Nat → List Byte × Bool) (m : Nat) : List (Nat × Bool × List Byte) :=
  let b := c.bytesEach
  let comb (off : Nat) : Bool × List Byte :=
    let xs := c.members.map fun j => get j off
    (xs.any (·.2), collCombine (c.num 1 1) (c.num 2 1) c.members.length (xs.map (·.1)))
  let one (o : Nat) (x : List Byte × Bool) : Nat × Bool × List Byte := (o, x.2, x.1)
  match c.kind with
  | 1 => if m = c.num 5 1 then [(0, comb 0)] else []
  | 2 => [(0, comb 0)]
  | 3 => (c.members.filter (· != m)).map fun j => one (j * b) (get j (j * b))
  | 4 => [(m * b, comb (m * b))]
  | _ => c.members.map fun j => one ((c.full + j) * b) (get j (m * b))
/-- Change a collective of a launch. -/
def State.modColl (s : State) (launch id : Nat) (f : Collective → Collective) : State :=
  s.modLaunch launch fun l => { l with colls := l.colls.map fun c => if c.id = id then f c else c }
/-- The own members of a collective with their groups; none where a partition is not resident. -/
def State.collGroups (s : State) (launch : Nat) (c : Collective) : Option (List (Nat × Nat × Group)) :=
  (c.own s.myPanel (s.launch launch).rect.toNat).mapM fun p =>
    match s.launchGroup p.2 launch with
    | some g => if g.absent then none else some (p.1, p.2, g)
    | none => none
/-- Perform a run that every member has started (what a member of another panel contributes is a free value, log 40): results, status word, done increments, each a release (R150, R223 to R225). -/
def State.collRun (s : State) (launch : Nat) (c : Collective) (gs : List (Nat × Nat × Group)) (a : Actor) : State :=
  let a := joinActor { a with agent := s.nextAgent, region := 1 } c.rels
  let run := s.nextAgent
  let s := { s with nextAgent := s.nextAgent + 1 }
  let read (m off : Nat) : List Byte × Bool :=
    match gs.find? fun p => p.1 == m with
    | some (_, core, g) =>
      (s.partBytes core g (c.buffer + off) c.bytesEach, s.blockPoison core g (c.buffer + off) c.bytesEach)
    | none => ((List.range c.bytesEach).map fun i => Config.peerByte run m (off + i), false)
  let out := gs.map fun p => (p, c.results read p.1)
  let s := out.foldl (fun (s : State) (p : (Nat × Nat × Group) × List (Nat × Bool × List Byte)) =>
    let core := p.1.2.1
    let a := { a with who := ⟨core, 0, launch⟩ }
    let s := p.2.foldl (fun (s : State) (r : Nat × Bool × List Byte) =>
      s.putBlock a core p.1.2.2 (c.buffer + r.1) r.2.1 r.2.2) s
    let s := s.putWord core p.1.2.2 c.statusAt (c.status 0)
    s.modLaunchGroup core launch fun g => g.increment c.doneCtr 1 (some (actorRel a s.myPanel .pod))) s
  let left := c.members.foldl (fun (acc : List Nat) m => acc.erase m) c.started
  s.modColl launch c.id fun c => { c with started := left, rels := if left.isEmpty then [] else c.rels }
/-- Whether every surviving member of this panel has started the run at hand. -/
def Collective.ready (c : Collective) (panel : Nat) : Bool := c.members.all fun m => c.panelOf m != panel || c.started.contains m
/-- Whether members of other panels take part: when they start, and what their buffers hold, the device tells (log 40). -/
def Collective.apart (c : Collective) (panel : Nat) : Bool := c.members.any fun m => c.panelOf m != panel

/-- The operation code of a collective's own records; no program can post it (R218). -/
def collOpcode : Nat := 0xF0
/-- The record of a member's entry. -/
def collRecord (id m : Nat) : List Byte := leBytes 64 (2 + collOpcode * 2 ^ 16 + id * 2 ^ 64 + m * 2 ^ 128)
/-- The member number of a record that waits for the members of other panels to start. -/
def collRest : Nat := 2 ^ 64 - 1
/-- Whether a firing waits so. -/
def restFiring (f : Firing) : Bool :=
  field (leNat f.record) 0 1 == 2 && field (leNat f.record) 2 1 == collOpcode && field (leNat f.record) 16 8 == collRest
/-- Put such a firing at the end of the dispatch queue. -/
def engRest (id : Nat) : E Unit :=
  modify fun g => { g with s := (g.s.ticked).modGroup g.a.who.core fun gr =>
    { gr with firings := gr.firings ++ [⟨0, collRecord id collRest, g.a.who.ctx, some g.a, [], 0⟩] } }
/-- Perform the run of a collective, whose member partitions must be resident; where every member of this panel has started the next run
already, that one follows. -/
def engRun (launch : Nat) (c : Collective) : E Unit := do
  let g ← get
  match g.s.collGroups launch c with
  | none => throw (.wait none)
  | some gs => do
    modify fun g => { g with s := (g.s.modColl launch c.id fun _ => c).collRun launch c gs g.a }
    let g ← get
    match (g.s.launch launch).colls.find? fun d => d.id == c.id with
    | some d => if d.apart g.s.myPanel && d.ready g.s.myPanel then engRest c.id else pure ()
    | none => pure ()
/-- A firing that waits for the members of other panels: it performs the run once they have started, else it waits on. -/
def engPeers (launch : Nat) (c : Collective) : E Unit := do
  let g ← get
  if !c.ready g.s.myPanel then pure ()
  else if Config.peerStarts g.s.tick then
    modify fun g => { g with s := g.s.ticked }
    engRun launch c
  else engRest c.id
/-- A member starts a run: its contribution is read, then it counts as started; the last one performs the run, or leaves it to a firing
that waits for the members of other panels. -/
def engMember (launch m : Nat) (c : Collective) : E Unit := do
  (c.reads m).forM fun o => do
    let _ ← engRead (BitVec.ofNat 64 (2 ^ 63 + c.buffer + o)) c.bytesEach
  let g ← get
  let panel := g.s.myPanel
  let before := c.ready panel
  let c := { c with started := c.started ++ [m], rels := actorRel g.a panel .pod :: c.rels }
  if c.apart panel then
    modify fun g => { g with s := g.s.modColl launch c.id fun _ => c }
    if c.ready panel && !before then engRest c.id else pure ()
  else if c.ready panel then engRun launch c
  else modify fun g => { g with s := g.s.modColl launch c.id fun _ => c }
/-- A firing of a collective. -/
def firedColl (x : Nat) : E Unit := do
  let g ← get
  let launch := g.a.who.launch
  match (g.s.launch launch).colls.find? fun c => c.id == field x 8 8 with
  | none => pure ()
  | some c => if field x 16 8 = collRest then engPeers launch c else engMember launch (field x 16 8) c

end Sys2Proof.Machine
end

