-- ==== Sys2Proof/Machine/Fired.lean ====
section
/-! DEFINITION. Sys2Proof/Machine/Fired.lean: crier firings and the operations of the seven kinds of record (R217 to R220). -/
namespace Sys2Proof.Machine

/-- The cause of a failure code of R209. -/
def errCause (code : Nat) : Nat := if code = 1 then 4 else if code = 3 then 0x11 else if code = 6 then 3 else 7
/-- The code of a cause that an issue check gives. -/
def causeErr (cause : Nat) : Nat := if cause = 4 then 1 else if cause = 3 then 6 else 2

/-- Dispatch the next crossing into the queue of 64: the firing takes an agent of its own, after what its increment released
(R149, R217, R220). -/
def State.dispatchFiring (s : State) (core : Nat) : State :=
  let g := s.group core
  match g.crossed with
  | [] => s
  | f :: t =>
    if 64 ≤ g.firings.length then s
    else
      let f := { f with actor := f.actor.map fun a => joinActor { a with agent := s.nextAgent, region := 1 } f.rels }
      { s with nextAgent := s.nextAgent + 1 }.modGroup core fun g => { g with crossed := t, firings := g.firings ++ [f] }
def execCrierFire (s : State) : Res :=
  runEvent .crierFire s fun e s =>
    match e with
    | .crierFire core => s.dispatchFiring core
    | _ => s

/-! ## The operations (R218, R219) -/

/-- A word and a counter byte of a record. -/
def recWord (x i : Nat) : Word := BitVec.ofNat 64 (field x i 8)
/-- The release that a fired operation's messages carry. -/
def firedRel : E Rel := do let g ← get; return actorRel g.a g.s.myPanel .pod
/-- What a fired operation sends must be acknowledged; kind 1 leaves its done counter to the command. -/
def noDone : E Unit := modify fun g => { g with run := { g.run with poison := true } }

/-- The command of a kind 1 record. -/
def firedCmd (a : Actor) (x : Nat) : Cmd :=
  { op := field x 9 1, fn := BitVec.ofNat 8 (field x 10 1), kc := ctrByte (field x 11 1), swz := field x 12 1 / 4 % 4,
    a := recWord x 16, b := recWord x 24, c := recWord x 32, e := recWord x 40, imm := recWord x 48,
    actor := { a with engine := .porter (field x 2 1) }, done := ctrByte (field x 1 1) }
/-- The shape record of a command that an engine performs (R196): aligned to 8, else code 6; its failure is the command's. -/
def engShape (cmd : Cmd) : E (Except (Nat × Word) Nat) :=
  if cmd.op ≠ 0xC2 then pure (.ok 0)
  else if cmd.e.toNat % 8 ≠ 0 then pure (.error (6, cmd.e))
  else tryCatch (do return .ok (← engNum cmd.e 32)) fun h => match h with
    | .fail code v => pure (.error (code, v))
    | h => throw h
/-- The markings of a command's destination need reply reservations (R231). -/
def engReserve (n : Nat) : E Unit := do
  let g ← get
  if 256 < (g.s.core g.a.who.core).reserved + n then throw (.wait none) else pure ()
/-- Kind 1: enqueue a porter command of a batch. -/
def firedPorter (x batch : Nat) : E Unit := do
  let g ← get
  let core := g.a.who.core
  let q := field x 2 1
  let cmd := ({ firedCmd g.a x with batch } : Cmd).joined
  (if 16 ≤ ((g.s.group core).queue q).items.length then throw (.wait none) else pure ())
  let sh ← (do match ← engShape cmd with
    | .ok n => pure n
    | .error (code, v) => throw (.fail code v))
  let cmd := { cmd with shape := sh }
  match g.s.cmdCheck cmd with
  | .error (cause, v) => throw (.fail (causeErr cause) v)
  | .ok _ => do
    engReserve (g.s.markMsgs cmd)
    modify fun g => { g with s := ((takeAgents cmd.op g.s).markDest cmd q).enqueue core q (.cmd cmd) }
    noDone
/-- The elements of a fired atomic: consecutive addresses from the target, in ascending order. -/
def firedLanes (op n : Nat) (z : Word) (ys : List Nat) (va : Word) : List Nat → E (List AtomLane)
  | [] => pure []
  | i :: t => do
    let ea := va + BitVec.ofNat 64 (n * i)
    let l ← engLoc ea true
    let rest ← firedLanes op n z ys va t
    pure ({ atomLane i l (BitVec.ofNat 64 (ys.getD i 0)) z with va := ea.toNat } :: rest)
/-- Kind 2: a remote atomic over a range (R219); like every atomic it writes back and drops the lines of the own L1 first (R123). -/
def firedAtomic (x : Nat) : E Unit := do
  let op := field x 2 1
  let ord := field x 3 1
  let n := firedElem op
  let count := field x 4 4 / n
  let va := recWord x 8
  (if va.toNat % n ≠ 0 then throw (.fail 6 va) else pure ())
  let ys ← (if 8 ≤ op then pure [field x 16 8] else do
    let (bs, _) ← engRead (recWord x 16) (n * count)
    pure (groupBytes n bs))
  let ls ← firedLanes op n (recWord x 24) ys va (List.range count)
  let r ← firedRel
  modify fun g => { g with s := ls.foldl (fun (s : State) l =>
    if cachedPlace l.place then s.dropL1 g.a.who.core (s.l1Key l.place) else s) g.s }
  let g ← get
  (ls.map fun l => g.s.placePanel l.place).eraseDups.forM fun p =>
    engSend p (.memoryRequest ⟨g.a, 0, .fired op n (ord == 1 || 3 ≤ ord) (ls.filter fun l => g.s.placePanel l.place == p), true, true,
      if 2 ≤ ord then some r else none, 0⟩)
/-- Kind 3: add to a counter through its alias (R113, R114). An own counter's increment finds room in the dispatch queue, whose head this
operation leaves (R217; log 58). -/
def firedAdd (x : Nat) : E Unit := do
  let va := recWord x 8
  let v := recWord x 16
  let g ← get
  let r ← firedRel
  match g.s.resolve g.a va 8 .store with
  | .error (.trap 3) => throw (.fail 6 va)
  | .error (.trap 4) => throw (.fail 1 va)
  | .error (.trap 0x11) => throw (.fail 3 va)
  | .error (.trap _) => throw (.fail 2 va)
  | .error .miss => throw (.walk va true)
  | .error .wait => throw (.wait none)
  | .ok t =>
    match t.aliasOf with
    | some k => modify fun g => { g with s := g.s.modGroup g.a.who.core fun gr => gr.increment k v (some r) }
    | none =>
      if aliasOf t then
        engSend (g.s.placePanel t.place) (.memoryRequest
          ⟨g.a, 0, .store [tgtPart { t with checked := false } (maskOf t.byte 8) (valLine t.byte 8 v.toNat)], false, true,
           some r, 0⟩)
      else throw (.fail 1 va)
/-- The route of a name for a fired operation: a held one is a wait, an unreachable one code 3 (R244, R245). -/
def firedRoute (name : Word) : E Unit := do
  let g ← get
  if 63 < namePanel name then throw (.fail 3 name)
  else
    match g.s.routeTo (namePanel name) with
    | .unreachable => throw (.fail 3 name)
    | .held => throw (.wait none)
    | _ => pure ()
/-- Kind 4: a deposit of a 128-byte line. -/
def firedDepositE (x : Nat) : E Unit := do
  let name := recWord x 8
  firedRoute name
  let (bs, _) ← engRead (recWord x 16) 128
  let r ← firedRel
  modify fun g => { g with s := g.s.sendTo (namePanel name) (.depositArrival
    { src := g.a.who, name, ctx := field x 2 1, reg := BitVec.ofNat 5 (field x 3 1), val := lineOf bs, high := field x 4 1 == 1,
      kc := ctrByte (field x 5 1), tenant := g.a.tenant, tgen := g.a.tgen, rel := r }) }
/-- The four arguments of kinds 5 and 6. -/
def recArgs (x : Nat) : List Word := [recWord x 24, recWord x 32, recWord x 40, recWord x 48]
/-- Kind 5: start a helper in the own group. -/
def firedStartE (x : Nat) : E Unit := do
  let r ← firedRel
  let g ← get
  let (s, i) := g.s.startHelper g.a.who.core (recWord x 16) (recArgs x) r.clock
  if i = 0 then do
    set { g with s := g.s.eventOf g.a.who 10 1 }
    noDone
  else set { g with s }
/-- Kind 6: spawn a helper in a named group; a dead name of the own panel is reported (R218). -/
def firedSpawnE (x : Nat) : E Unit := do
  let name := recWord x 8
  let g ← get
  if namePanel name = g.s.myPanel && (g.s.nameOwner name g.a.tenant).isNone then do
    set { g with s := g.s.report g.a.who ⟨0x0D, name, false, none⟩ }
    noDone
  else
    firedRoute name
    let r ← firedRel
    engSend (namePanel name) (.spawnRequest ⟨g.a.who, name, recWord x 16, recArgs x, g.a.tenant, true, r, g.a.tgen⟩)
/-- Kind 7: send a line through a channel port; a port that is no write end of a channel is reported (R60, R218). -/
def firedSend (x : Nat) : E Unit := do
  let g ← get
  let core := g.a.who.core
  let gr := g.s.group core
  let p := (gr.ctx (field x 2 1)).port (BitVec.ofNat 3 (field x 3 1))
  if p.kind ≠ 5 || !p.write then do
    set { g with s := g.s.report g.a.who ⟨0x0E, BitVec.ofNat 64 (16 * 8 + field x 3 1), false, none⟩ }
    noDone
  else
    let ch := gr.chan p.idx
    if ch.allowance = 0 then throw (.wait none)
    else
      let (bs, _) ← engRead (recWord x 16) 128
      let r ← firedRel
      modify fun g =>
        let s := g.s.modGroup core fun gr => gr.setChan p.idx { gr.chan p.idx with allowance := (gr.chan p.idx).allowance - 1 }
        { g with s := s.post (.channelElementArrival ⟨g.a.who, ch.peer, p.idx, .data (lineOf bs) (some { r with scope := .panel }), g.a.tgen⟩) }
/-- The operation of a record. -/
def firedOp (x batch : Nat) : E Unit :=
  match field x 0 1 with
  | 1 => firedPorter x batch
  | 2 => if field x 2 1 = collOpcode then firedColl x else firedAtomic x
  | 3 => firedAdd x
  | 4 => firedDepositE x
  | 5 => firedStartE x
  | 6 => firedSpawnE x
  | _ => firedSend x

/-! ## The head of the dispatch queue -/

/-- The head leaves the dispatch queue. -/
def Group.popFiring (g : Group) : Group :=
  g.setQueue firedQueue { g.queue firedQueue with run := {} } |> fun g => { g with firings := g.firings.drop 1 }
/-- The head has ended: its failure is reported (R209), or its done counter rises with a release (R220); it happens before the next
firing of its increment (R149). -/
def State.endFiring (s : State) (core : Nat) (f : Firing) (a : Actor) : State :=
  let run := ((s.group core).queue firedQueue).run
  let x := leNat f.record
  let a := joinActor a run.seen
  let s := s.modGroup core fun g => { g.popFiring with fired := some (f.batch, a) }
  match run.fail with
  | some (code, v) => s.report a.who ⟨errCause code, v, false, none⟩
  | none =>
    match ctrByte (field x 1 1) with
    | some k => if run.poison then s else s.modGroup core fun g => g.increment k 1 (some (actorRel a s.myPanel .pod))
    | none => s
/-- The next operation that one increment has fired happens after the one before it (R149). -/
def Group.afterFired (g : Group) (f : Firing) (a : Actor) : Actor :=
  match g.fired with
  | some (b, p) => if b = f.batch then { a with clock := joinClock a.clock (relClock p) } else a
  | none => a
/-- Whether a command that the increment of a firing has fired has still to complete. -/
def Group.batchBusy (g : Group) (f : Firing) : Bool :=
  f.batch != 0 && g.queues.list.any fun q => q.2.items.any fun i => match i with
    | .cmd c => c.batch == f.batch
    | _ => false
/-- Perform the head of a core's dispatch queue as far as it goes; whether anything has changed. -/
def State.firedRun (s : State) (core : Nat) : State × Bool :=
  let g := s.group core
  let x := (g.queue firedQueue).run
  match g.firings with
  | [] => (s, false)
  | f :: t =>
    match f.actor with
    | none => (s.modGroup core Group.popFiring, true)
    | some a =>
      let a := g.afterFired f a
      if g.batchBusy f then (s, false)
      else if x.fail.isSome || (x.finished && x.acks = 0) then (s.endFiring core f a, true)
      else if x.finished || x.waiting then (s, false)
      else
        let put (g : Eng) : State := g.s.modGroup core fun gr =>
          let gr := { gr with firings := { f with actor := some g.a } :: t }
          gr.setQueue firedQueue { gr.queue firedQueue with run := g.run }
        match firedOp (leNat f.record) f.batch ⟨s, a, x⟩ with
        | .ok (_, g) => (put { g with run := { g.run with finished := true } }, true)
        | .error (.fail code v) => (put ⟨s, a, { x with fail := some (code, v) }⟩, true)
        | .error (.wait (some k)) =>
          if x.waited.contains k then (s, false) else (put ⟨s, a, { x with waited := k :: x.waited }⟩, true)
        | .error (.wait none) => (s, false)
        | .error h => ((put ⟨s, a, { x with waiting := true }⟩).engineAsk a 3 h, true)
/-- The kind of the head of a core's dispatch queue. -/
def State.headKind (s : State) (core : Nat) : Nat :=
  match (s.group core).firings with
  | [] => 0
  | f :: _ => field (leNat f.record) 0 1
/-- Perform the head if it is of a kind. -/
def State.runKind (s : State) (kind core : Nat) : State := if s.headKind core = kind then (s.firedRun core).1 else s

def execFiredPorterCommand (s : State) : Res :=
  runEvent .firedPorterCommand s fun e s =>
    match e with
    | .firedPorterCommand core => s.runKind 1 core
    | _ => s
def execFiredRemoteAtomic (s : State) : Res :=
  runEvent .firedRemoteAtomic s fun e s =>
    match e with
    | .firedRemoteAtomic core => s.runKind 2 core
    | _ => s
def execFiredCounterAdd (s : State) : Res :=
  runEvent .firedCounterAdd s fun e s =>
    match e with
    | .firedCounterAdd core => s.runKind 3 core
    | _ => s
def execFiredDeposit (s : State) : Res :=
  runEvent .firedDeposit s fun e s =>
    match e with
    | .firedDeposit core => s.runKind 4 core
    | _ => s
def execFiredStart (s : State) : Res :=
  runEvent .firedStart s fun e s =>
    match e with
    | .firedStart core => s.runKind 5 core
    | _ => s
def execFiredSpawn (s : State) : Res :=
  runEvent .firedSpawn s fun e s =>
    match e with
    | .firedSpawn core => s.runKind 6 core
    | _ => s
def execFiredChannelSend (s : State) : Res :=
  runEvent .firedChannelSend s fun e s =>
    match e with
    | .firedChannelSend core => s.runKind 7 core
    | _ => s

end Sys2Proof.Machine
end

