-- ==== Sys2Proof/Machine/Moves.lean ====
section
/-! DEFINITION. Sys2Proof/Machine/Moves.lean: porter commands, fences and chains at the heads of their queues (R193, R194, R200,
R205 to R207, R209), and the stages of `mma` (R179, R180), as device events. -/
namespace Sys2Proof.Machine

/-! ## Commands and fences (R194, R200, R207, R209) -/

/-- Whether an entry is a chain that is paused: none of its commands is outstanding. -/
def pausedChain : QItem → Bool
  | .chain c _ _ => c.paused
  | _ => false
/-- Whether what a fence waits for has completed. -/
def Group.fenceMet (g : Group) (need : List (Nat × Nat)) : Bool :=
  need.all fun p => let x := g.queue p.1; p.2 ≤ x.deq || (x.items.take (p.2 - x.deq)).all pausedChain
/-- The head of a queue leaves it. -/
def Queue.pop (x : Queue) : Queue := { x with items := x.items.drop 1, deq := x.deq + 1 }
/-- The queue goes on after what other queues have completed. -/
def Group.fenceRels (g : Group) (need : List (Nat × Nat)) : List Rel := need.flatMap fun p => (g.queue p.1).rels
/-- Start or go on with the head of a queue; whether anything has changed. -/
def State.porterStart (s : State) (core q : Nat) : State × Bool :=
  let g := s.group core
  let x := g.queue q
  match x.items with
  | .fence need :: _ =>
    if g.fenceMet need then (s.modGroup core fun g => g.setQueue q { x.pop with rels := x.rels ++ g.fenceRels need }, true)
    else (s, false)
  | _ => s.porterRun core q
def execPorterCommandStart (s : State) : Res :=
  runEvent .porterCommandStart s fun e s =>
    match e with
    | .porterCommandStart core q => (s.porterStart core q).1
    | _ => s

/-- Whether the command at the head has finished and everything it sent is acknowledged. -/
def Queue.complete (x : Queue) : Bool := x.head.isSome && x.run.finished && x.run.acks = 0
/-- Whether the completion of the command at the head may be made now: the increment of a done counter waits for room in the dispatch
queue (R217). -/
def Group.mayComplete (g : Group) (q : Nat) : Bool :=
  (g.queue q).complete && (match (g.queue q).head with
    | some c => c.done.isNone || g.firings.length < 64
    | none => false)
/-- Record a failure in a queue (R209, R210). -/
def Queue.failed (x : Queue) (code : Nat) : Queue := { x with error := true, code := BitVec.ofNat 8 code }
/-- The command at the head has completed: the number rises, a failure is recorded and reported, a fired command raises its done
counter and happens before the next firing of its increment. The number of a chain's record rises with the write of its status (R206). -/
def State.porterComplete (s : State) (core q : Nat) : State :=
  let x := (s.group core).queue q
  match x.head with
  | none => s
  | some c =>
    let rel := actorRel c.actor s.myPanel .pod
    let fail := x.run.fail
    let s := if c.batch = 0 then s else s.modGroup core fun g => { g with fired := some (c.batch, c.actor) }
    let s := match fail with
      | some (code, v) => s.report c.actor.who ⟨errCause code, v, false, none⟩
      | none => match c.done with
        | some k => s.modGroup core fun g => g.increment k 1 (some rel)
        | none => s
    let x := { x with run := {} }
    let x := match fail with
      | some (code, _) => x.failed code
      | none => x
    let x := match x.items with
      | .chain ch _ need :: t =>
        { x with items := .chain { ch with phase := 2, status := (fail.map (·.1)).getD 0, actor := joinActor ch.actor [rel] } none need :: t }
      | _ => { x.pop with num := x.num + 1, rels := [rel] }
    s.modGroup core fun g => g.setQueue q x
def execPorterCommandComplete (s : State) : Res :=
  runEvent .porterCommandComplete s fun e s =>
    match e with
    | .porterCommandComplete core q => if (s.group core).mayComplete q then s.porterComplete core q else s
    | _ => s

/-! ## Chains (R205, R206) -/

/-- Whether a record has no reserved value and an opcode of the list (R205, R206). -/
def chainRecordOk (x : Nat) : Bool :=
  let op := field x 9 1
  field x 0 1 / 2 % 32 == 0 && field x 8 1 ≤ 1 && field x 12 1 % 4 == 0 && field x 12 1 < 16 && field x 14 2 == 0
    && (if op = 0xCC then field x 10 1 == 0 && field x 11 1 == 0 && field x 12 1 == 0 && field x 16 1 < 16
        else fnOk op (field x 10 1) (field x 12 1 / 4) && ctrByteOk (field x 11 1) && immOk op (field x 10 1) (field x 48 8))
/-- The command of a record. -/
def chainCmd (a : Actor) (x : Nat) : Cmd :=
  { op := field x 9 1, fn := BitVec.ofNat 8 (field x 10 1), kc := ctrByte (field x 11 1), swz := field x 12 1 / 4 % 4,
    a := recWord x 16, b := recWord x 24, c := recWord x 32, e := recWord x 40, imm := recWord x 48, actor := a }
/-- Put a chain back at the head of its queue. -/
def Queue.setChain (x : Queue) (c : Chain) (m : Option Cmd) (need : List (Nat × Nat)) : Queue :=
  { x with items := .chain c m need :: x.items.drop 1 }
/-- The completion number rises with a release of the chain. -/
def Queue.raise (x : Queue) (r : Rel) : Queue := { x with num := x.num + 1, rels := [r] }
/-- A chain ends: its queue moves on. With a failure the queue records it and the issuer takes the report; where the status of a record
that has been performed could not be written, its command has still completed (R206). -/
def State.endChain (s : State) (core q : Nat) (c : Chain) (err : Option (Nat × Word)) : State :=
  let x := (s.group core).queue q
  let x := if err.isSome && c.status ≠ 5 && (c.phase = 2 || c.phase = 4) then x.raise (actorRel c.actor s.myPanel .pod) else x
  let x := { x.pop with run := {}, rels := [actorRel c.actor s.myPanel .pod] }
  match err with
  | some (code, v) =>
    (s.modGroup core fun g => g.setQueue q (x.failed code)).report c.actor.who ⟨errCause code, v, false, none⟩
  | none => s.modGroup core fun g => g.setQueue q x
/-- What a chain does next with what it has read. -/
inductive Next where
  | chain (c : Chain) (m : Option Cmd) (need : List (Nat × Nat)) (run : Run)
  | ends (err : Option (Nat × Word))
/-- The chain's access in its present phase. -/
def chainStep (core q : Nat) (c : Chain) (need : List (Nat × Nat)) : E Next := do
  match c.phase with
  | 0 =>
    let x ← engNum c.cur 64
    let g ← get
    if field x 8 1 % 2 = 0 then pure (.chain { c with paused := true, actor := g.a } none [] {})
    else if !chainRecordOk x then pure (.chain { c with phase := 2, status := 5, actor := g.a } none [] {})
    else if field x 9 1 = 0xCC then
      pure (.chain { c with phase := 1, actor := g.a } none
        (fenceNeed (g.s.group core) q (BitVec.ofNat 4 (field x 16 1))) {})
    else
      let cmd := (chainCmd { g.a with agent := g.s.nextAgent, region := 1, clock := relClock g.a } x).joined
      let sh ← engShape cmd
      let cmd := { cmd with shape := match sh with
        | .ok n => n
        | .error _ => 0 }
      modify fun g => { g with s := takeAgents cmd.op { g.s with nextAgent := g.s.nextAgent + 1 } }
      let g ← get
      let failed (code : Nat) (v : Word) : Next :=
        .chain { c with phase := 1, actor := g.a } (some cmd) [] { fail := some (code, v), finished := true }
      match sh, g.s.cmdCheck cmd with
      | .error (code, v), _ => pure (failed code v)
      | _, .error (cause, v) => pure (failed (causeErr cause) v)
      | .ok _, .ok _ => do
        engReserve (g.s.markMsgs cmd)
        set { g with s := g.s.markDest cmd q }
        pure (.chain { c with phase := 1, actor := g.a } (some cmd) [] {})
  | 1 =>
    let g ← get
    let gr := g.s.group core
    if gr.fenceMet need then
      pure (.chain { c with phase := 2, status := 0, actor := joinActor g.a (gr.fenceRels need) } none [] {})
    else throw (.wait none)
  | 2 =>
    let g ← get
    let rel := actorRel g.a g.s.myPanel .pod
    let word (o : Nat) (bs : List Byte) : List (Nat × Byte) :=
      (List.range bs.length).zip bs |>.map fun p => ((c.cur + BitVec.ofNat 64 (o + p.1)).toNat, p.2)
    let num := if c.status = 5 then [] else word 56 (leBytes 8 (((g.s.group core).queue q).num + 1).toNat)
    engParts (·.place) false (some rel) (byteParts (word 8 [0] ++ word 13 [BitVec.ofNat 8 c.status] ++ num))
    let g ← get
    if c.status = 5 then pure (.chain { c with phase := 5, actor := g.a } none [] { acks := g.run.acks })
    else pure (.chain { c with phase := 4, actor := g.a } none [] { acks := g.run.acks })
  | 4 =>
    modify fun g => { g with s := g.s.modGroup core fun gr => gr.setQueue q ((gr.queue q).raise (actorRel g.a g.s.myPanel .pod)) }
    let g ← get
    pure (.chain { c with phase := 3, actor := { g.a with region := g.a.region + 1 } } none [] {})
  | 5 => pure (.ends (some (5, c.cur)))
  | _ =>
    let x ← engNum c.cur 8
    let g ← get
    if x % 2 = 1 then pure (.ends none)
    else if x / 64 = 0 then pure (.chain { c with paused := true, actor := g.a } none [] {})
    else pure (.chain { c with phase := 0, cur := BitVec.ofNat 64 (x / 64 * 64), actor := g.a } none [] {})
/-- Go on with the chain at the head of a queue; whether anything has changed. -/
def State.chainRun (s : State) (core q : Nat) : State × Bool :=
  let x := (s.group core).queue q
  match x.items with
  | .chain c none need :: _ =>
    if c.paused then (s, false)
    else
      match x.run.fail with
      | some (code, _) => (s.endChain core q c (some (code, c.cur)), true)
      | none =>
        if x.run.waiting || x.run.acks ≠ 0 then (s, false)
        else
          let a := joinActor c.actor x.rels
          let put (g : Eng) (c : Chain) (m : Option Cmd) (need : List (Nat × Nat)) (run : Run) : State :=
            g.s.modGroup core fun gr => gr.setQueue q { (gr.queue q).setChain c m need with
                run := { run with acks := run.acks + (gr.queue q).run.acks } }
          match chainStep core q c need ⟨s, a, x.run⟩ with
          | .ok (.chain c' m need' run, g) => (put g c' m need' run, true)
          | .ok (.ends err, g) => (g.s.endChain core q { c with actor := g.a } err, true)
          | .error (.fail code _) => (s.endChain core q c (some (if code = 1 then 1 else 2, c.cur)), true)
          | .error (.wait (some k)) =>
            if x.run.waited.contains k then (s, false)
            else (put ⟨s, a, x.run⟩ c none need { x.run with waited := k :: x.run.waited }, true)
          | .error (.wait none) => (s, false)
          | .error h => ((put ⟨s, a, x.run⟩ c none need { x.run with waiting := true }).engineAsk a 3 h, true)
  | _ => (s, false)
def execChainRecordRead (s : State) : Res :=
  runEvent .chainRecordRead s fun e s =>
    match e with
    | .chainRecordRead core q => (s.chainRun core q).1
    | _ => s

/-! ## The matrix unit (R179, R180) -/

def execMmaClaimLine (s : State) : Res :=
  runEvent .mmaClaimLine s fun e s =>
    match e with
    | .mmaClaimLine core ctx => s.claimLine core ctx
    | _ => s
def execMmaStart (s : State) : Res :=
  runEvent .mmaStart s fun e s =>
    match e with
    | .mmaStart core => s.startMma core
    | _ => s
def execMmaRetire (s : State) : Res :=
  runEvent .mmaRetire s fun e s =>
    match e with
    | .mmaRetire core => s.retireMma core
    | _ => s

end Sys2Proof.Machine
end

