-- ==== Sys2Proof/Machine/Pages.lean ====
section
/-! DEFINITION. Sys2Proof/Machine/Pages.lean: page walks by the service cores, demand faults, resolving and failing a page, replay
of side logs, the held-store record (R278, R281 to R289). -/
namespace Sys2Proof.Machine

/-! ## Walks (R278, R284) -/

/-- The flags of a leaf for a launch: its code pages are mapped read-and-execute (R73, R102). -/
def State.codeFlags (s : State) (launch g flags : Nat) : Nat :=
  if (s.imageOf (s.launch launch)).inCode g then flags / 32 * 32 + flags % 4 + 20 else flags
/-- How a walk ends: the entry that it finds, or why there is none. -/
def State.walkEnd (s : State) (w : Walk) : WalkEnd :=
  match s.globalOf w.actor w.va with
  | none => .noPrivate
  | some g =>
    let l := s.launch w.actor.who.launch
    match s.walk w.actor.tenant g with
    | .malformed => .malformed
    | .missing nd => if nd || s.descr w.actor.tenant 0x0C 4 = 0 then .noDemand else .demand
    | .leaf size pa flags =>
      let e := entryOf w.actor.who.launch g size pa (s.codeFlags w.actor.who.launch g flags)
        (s.privSlot w.actor.tenant w.actor.who.launch (16 * 2 ^ l.lw * 2 ^ l.lh) g)
      .entry e.1 e.2
/-- A service core walks a miss; a malformed walk is counted. -/
def execPageWalk (s : State) : Res :=
  runEvent .pageWalk s fun e s =>
    match e with
    | .pageWalk w =>
      let r := s.walkEnd w
      let s := if r = .malformed then s.bump .malformed else s
      s.post (.walkResult w r)
    | _ => s

/-- Write bytes of the own panel's storage as the firmware does: at their home, with a release (R285, R357). -/
def State.poke (s : State) (k : Nat) (bs : List Byte) : State :=
  let r : Rel := ⟨Cells.empty, .pod, s.myPanel, 0, []⟩
  (byteParts ((List.range bs.length).zip bs |>.map fun p => (k + p.1, p.2))).foldl
    (fun s p => s.writeHome p.1 p.2.1 p.2.2 (some r)) s
/-- Add to the notify counter of a tenant's descriptor through the counter's peer alias (R114, R285). -/
def State.notify (s : State) (tenant : Nat) : State :=
  let c := s.descr tenant 0x20 1
  let name := BitVec.ofNat 64 (s.descr tenant 0x18 8)
  let inc (core launch : Nat) : Event :=
    .counterIncrement ⟨core, launch, BitVec.ofNat 6 c, 1, some ⟨Cells.empty, .pod, s.myPanel, 0, []⟩, none, tenant,
      (s.tenant tenant).gen.toNat⟩
  if c < 64 then s
  else if namePanel name = s.myPanel then
    match s.nameOwner name tenant with
    | some (core, launch) => s.post (inc core launch)
    | none => s
  else s.sendOut (namePanel name) (inc (nameIdx name % 2048) 0)
/-- Write the record of a demand fault (R285): a record that would overwrite one that the tenant runtime has not consumed is
dropped and counted; which those are only the runtime knows (log 4). -/
def State.faultRecord (s : State) (w : Walk) : State :=
  let t := w.actor.tenant
  let entries := s.descr t 0x0C 4
  let seq := (s.tenant t).faultSeq + 1
  let s := s.modTenant t fun x => { x with faultSeq := seq }
  if entries < seq && Config.pick s.tick 2 % 2 = 1 then (s.ticked).bump .faultDropped
  else
    let g := match s.launchGroup w.actor.who.core w.actor.who.launch with
      | some g => g.gname
      | none => 0
    let bs := leBytes 8 w.va.toNat ++ leBytes 8 g.toNat ++ [BitVec.ofNat 8 (w.actor.who.ctx + 16 * w.kind)] ++ leBytes 7 0
      ++ leBytes 8 seq
    ((if entries < seq then s.ticked else s).poke (physKey (s.descr t 0x10 8 + 32 * (seq % entries))) bs).notify t

/-- Queue number of an engine's running operation. -/
def engineQueue (a : Actor) : Nat :=
  match a.engine with
  | .porter q => q
  | .fired => firedQueue
  | .task => taskQueue + a.who.ctx
  | .context => 0
/-- What a walk without an entry means for a context (R284). -/
def State.ctxFault (s : State) (w : Walk) (code : Nat) : State :=
  s.modLaunchGroup w.actor.who.core w.actor.who.launch fun g => g.modCtx w.actor.who.ctx fun c =>
    { c with sawMiss := false, walkFault := some (code, w.va) }
/-- What it means for an engine. -/
def State.engineFault (s : State) (w : Walk) (code : Nat) : State :=
  s.modRun w.actor.who (engineQueue w.actor) fun r => { r with waiting := false, fail := some (code, w.va) }
/-- A demand fault (R285 to R287): a load parks, a store goes to the side log, an engine pauses. -/
def State.demandFault (s : State) (w : Walk) : State :=
  let s := s.faultRecord w
  if w.actor.engine ≠ .context then s.modRun w.actor.who (engineQueue w.actor) fun r => { r with page := some w.va }
  else if w.store then s.ctxFault w sideLogCode
  else s.modLaunchGroup w.actor.who.core w.actor.who.launch fun g => (g.modCtx w.actor.who.ctx fun c =>
    { c with sawMiss := false, status := .waiting (.page w.va) }).modCtx w.actor.who.ctx fun c => c.addEv 15 1
/-- Put an entry into the TLB of a core that runs its launch. -/
def State.install (s : State) (core : Nat) (launch : Nat) (t d : Word) : State :=
  if (s.group core).launch = launch then s.modCore core fun c => { c with tlb := tlbInsert c.tlb t d } else s
/-- A walk ends (R284): the entry is written and the access goes on, or it faults. A private entry of another thread slot is a
failed check, and so is a page in the private area of another launch of the tenant, for which no entry is kept (R116). -/
def State.walkDone (s : State) (w : Walk) (r : WalkEnd) : State :=
  let ctx := w.actor.engine = .context
  let fault (code err : Nat) : State := if ctx then s.ctxFault w code else s.engineFault w err
  match r with
  | .entry t d =>
    let foreign := (match s.globalOf w.actor w.va with
      | some g => s.foreignPriv w.actor.tenant w.actor.who.launch g
      | none => false)
    let s := if foreign then s else s.install w.actor.who.core w.actor.who.launch t d
    let slot := threadSlot (s.group w.actor.who.core).rect.toNat w.actor.who.core w.actor.who.ctx
    if foreign || (dataPrivate d && dataSlot d ≠ slot) then (if ctx then s.ctxFault w 7 else s.engineFault w 2)
    else if ctx then
      s.modLaunchGroup w.actor.who.core w.actor.who.launch fun g => g.modCtx w.actor.who.ctx fun c => { c with sawMiss := false }
    else s.modRun w.actor.who (engineQueue w.actor) fun r => { r with waiting := false }
  | .demand => s.demandFault w
  | .noDemand => fault 6 2
  | .malformed => fault 6 2
  | .noPrivate => fault 4 1
def execWalkResult (s : State) : Res :=
  runEvent .walkResult s fun e s =>
    match e with
    | .walkResult w r => s.walkDone w r
    | _ => s

/-! ## Waiting on a page (R286 to R288) -/

/-- The groups of a panel: core and group, live and saved. -/
def State.groups (s : State) : List (Nat × Group) :=
  s.cores.list.flatMap fun p => (p.2.group :: p.2.saved).map fun g => (p.1, g)
/-- Whether an address of a context lies on the page of 2^n bytes that holds a global address. -/
def State.onPage (s : State) (who : Who) (tenant : Nat) (n g : Nat) (va : Word) : Bool :=
  match s.globalOf { s.actor who.core who.ctx with who := who, tenant := tenant } va with
  | some x => x / 2 ^ n == g / 2 ^ n
  | none => false
/-- The address that a context waits for. -/
def pageWait (c : Ctx) : Option Word :=
  match c.status with
  | .waiting (.page v) => some v
  | _ => none
/-- The contexts of a tenant that are parked on a page, those whose slots are lent among them: who, and the address. -/
def State.parkedOn (s : State) (tenant n g : Nat) : List (Who × Word) :=
  s.groups.flatMap fun p =>
    if p.2.tenant ≠ tenant then []
    else (p.2.ctxs.list ++ p.2.lent).filterMap fun q =>
      match pageWait q.2 with
      | some v => if s.onPage ⟨p.1, q.1, p.2.launch⟩ tenant n g v then some (⟨p.1, q.1, p.2.launch⟩, v) else none
      | none => none
/-- The engines of a tenant that are paused on a page: core, launch, queue, address. -/
def State.pausedOn (s : State) (tenant n g : Nat) : List (Nat × Nat × Nat × Word) :=
  s.groups.flatMap fun p =>
    if p.2.tenant ≠ tenant then []
    else p.2.queues.list.filterMap fun q =>
      match q.2.run.page with
      | some v => if s.onPage ⟨p.1, q.1 - taskQueue, p.2.launch⟩ tenant n g v then some (p.1, p.2.launch, q.1, v) else none
      | none => none
/-- The side-log entries of a tenant on a page, in log order. -/
def State.loggedOn (s : State) (tenant n g : Nat) : List (Nat × Nat × SideEntry) :=
  s.groups.flatMap fun p =>
    if p.2.tenant ≠ tenant then []
    else (p.2.sideLog.filter fun e => !e.faulted && s.onPage e.actor.who tenant n g (BitVec.ofNat 64 e.va)).map fun e =>
      (p.1, p.2.launch, e)
/-- The wake message for each parked load (R286). -/
def State.wakeParked (s : State) (ws : List (Who × Word)) : State :=
  ws.foldl (fun s w => s.post (.pageFaultWake w.1 w.2)) s
/-- Change a context, or the owner of its slot while that is lent. -/
def Group.modOwner (g : Group) (c : Nat) (f : Ctx → Ctx) : Group :=
  if g.lent.any fun p => p.1 == c then { g with lent := g.lent.map fun p => if p.1 = c then (p.1, f p.2) else p }
  else g.modCtx c f

/-- The operation of a logged store at the place it resolves to now. -/
def relocate (t : Tgt) : MemOp → MemOp
  | .store ps => .store (ps.map fun p => { p with place := t.place, checked := false })
  | .nibble p b pos w v => .nibble { p with place := t.place, checked := false } b pos w v
  | .atomic op n acq ls => .atomic op n acq (ls.map fun l => { l with place := t.place, byte := t.byte, checked := false })
  | op => op
/-- Remove an entry from the side log of its group. -/
def State.dropEntry (s : State) (e : SideEntry) : State :=
  s.modLaunchGroup e.actor.who.core e.actor.who.launch fun g => { g with sideLog := g.sideLog.erase e }
/-- Replay a side-logged store as the store at this moment (R142, R287): a conflict is performed and reported. An access that goes to
its home first drops the core's copy of its line (R123). -/
def State.replay (s : State) (e : SideEntry) : State :=
  let s := s.dropEntry e
  let w := e.actor.who
  let a := match s.launchGroup w.core w.launch with
    | some g => { e.actor with agent := (g.ctx w.ctx).agent, region := (g.ctx w.ctx).region, clock := (g.ctx w.ctx).clock }
    | none => e.actor
  match s.resolve a (BitVec.ofNat 64 e.va) 1 (if e.kind = 3 then .atomic else .store) with
  | .ok t =>
    let s := if e.kind ≠ 1 && cachedPlace t.place then s.dropL1 w.core (s.l1Key t.place) else s
    let parts := (opParts (relocate t e.op)).map fun p => { p with checked := t.checked }
    let s := (match s.conflictOf a true (e.kind == 1) parts with
      | some va => s.report w ⟨0x14, BitVec.ofNat 64 va, false, none⟩
      | none => s).markParts a true (e.kind == 1) parts
    let rel := (match s.launchGroup w.core w.launch with
      | some g => (g.ctx w.ctx).fenceRel
      | none => none)
    (s.modLaunchGroup w.core w.launch fun g => g.modCtx w.ctx fun c => { c with unacked := c.unacked + 1 }).modCore w.core
      (fun c => { c with reserved := c.reserved + 1 }) |>.sendTo (s.placePanel t.place)
      (.memoryRequest ⟨a, 0, relocate t e.op, e.kind != 1, true, rel, 0⟩)
  | .error (.trap code) => s.report w ⟨code, BitVec.ofNat 64 e.va, false, some e⟩
  | .error _ => s.report w ⟨6, BitVec.ofNat 64 e.va, false, some e⟩

/-- A page that has been found goes into the TLB of a core that waits for it; one of another launch's private area does not (R116). -/
def State.installPage (s : State) (core launch g size pa flags : Nat) : State :=
  let l := s.launch launch
  let e := entryOf launch g size pa (s.codeFlags launch g flags) (s.privSlot l.tenant launch (16 * 2 ^ l.lw * 2 ^ l.lh) g)
  if s.foreignPriv l.tenant launch g then s else s.install core launch e.1 e.2
/-- The side log of a group that resumes: stores whose pages are there by now are replayed in order, the others go on waiting (R261). -/
def State.replayLog (s : State) (core launch : Nat) : State :=
  let es := (s.group core).sideLog.filter (!·.faulted)
  es.foldl (fun (s : State) e =>
    match s.globalOf e.actor (BitVec.ofNat 64 e.va) with
    | none => s.replay e
    | some g => (match s.walk e.actor.tenant g with
      | .leaf size pa flags => (s.installPage core launch g size pa flags).replay e
      | _ => s)) s

/-- Resolve a page (R288): status 2 where nothing waits, 1 where it is still missing; else it is installed, parked loads are
woken, engines go on, side logs are replayed, that of a saved group once it resumes. -/
def State.resolvePage (s : State) (tenant g : Nat) : State × Nat :=
  match s.walk tenant g with
  | .leaf size pa flags =>
    let n := pageBits size
    let parked := s.parkedOn tenant n g
    let paused := s.pausedOn tenant n g
    let logged := s.loggedOn tenant n g
    if parked.isEmpty && paused.isEmpty && logged.isEmpty then (s, 2)
    else
      let cores : List (Nat × Nat) := (parked.map (fun w => (w.1.core, w.1.launch)) ++ paused.map (fun p => (p.1, p.2.1))
        ++ logged.map fun p => (p.1, p.2.1)).eraseDups
      let s := cores.foldl (fun s p => s.installPage p.1 p.2 g size pa flags) s
      let s := s.wakeParked parked
      let s := paused.foldl (fun s p => s.modRun ⟨p.1, 0, p.2.1⟩ p.2.2.1 fun r => { r with waiting := false, page := none }) s
      (logged.foldl (fun s p => if (s.group p.1).launch = p.2.1 then s.replay p.2.2 else s) s, 0)
  | _ =>
    if (s.parkedOn tenant 16 g).isEmpty && (s.pausedOn tenant 16 g).isEmpty && (s.loggedOn tenant 16 g).isEmpty then (s, 2)
    else (s, 1)
/-- Fail a page (R288): parked loads take cause 0x06 when they execute again, engines end with code 2, logged stores are
reported. -/
def State.failPage (s : State) (tenant g : Nat) : State × Nat :=
  let parked := s.parkedOn tenant 16 g
  let paused := s.pausedOn tenant 16 g
  let logged := s.loggedOn tenant 16 g
  if parked.isEmpty && paused.isEmpty && logged.isEmpty then (s, 2)
  else
    let s := parked.foldl (fun s w => s.modLaunchGroup w.1.core w.1.launch fun gr =>
      gr.modOwner w.1.ctx fun c => { c with walkFault := some (6, w.2) }) s
    let s := s.wakeParked parked
    let s := paused.foldl (fun s p => s.modRun ⟨p.1, 0, p.2.1⟩ p.2.2.1 fun r =>
      { r with waiting := false, page := none, fail := some (2, p.2.2.2) }) s
    (logged.foldl (fun s p => (s.dropEntry p.2.2).report p.2.2.actor.who
      ⟨6, BitVec.ofNat 64 p.2.2.va, false, some { p.2.2 with faulted := true }⟩) s, 0)
/-- A service on a page: its address, in the caller's space. -/
def State.pageService (s : State) (w : Who) (va : Word) (f : State → Nat → Nat → State × Nat) : State :=
  match s.launchGroup w.core w.launch with
  | none => s
  | some g =>
    match s.globalOf { s.actor w.core w.ctx with who := w, tenant := g.tenant } va with
    | none => s.service w 2
    | some x => let (s, st) := f s g.tenant x; s.service w st
def execPageResolve (s : State) : Res :=
  runEvent .pageResolve s fun e s =>
    match e with
    | .pageResolve w _ va => s.pageService w va State.resolvePage
    | _ => s
def execPageFail (s : State) : Res :=
  runEvent .pageFail s fun e s =>
    match e with
    | .pageFail w _ va => s.pageService w va State.failPage
    | _ => s

/-! ## The held-store record (R289) -/

/-- The mask and data of an entry from its first byte on. -/
def SideEntry.bytes (e : SideEntry) : BitVec 128 × Line :=
  match e.op with
  | .store (p :: _) => (p.mask >>> lowByte p.mask, p.data >>> (8 * lowByte p.mask))
  | .nibble _ _ pos w v => (1, (BitVec.ofNat 1024 ((v.toNat % 2 ^ w) * 2 ^ pos)))
  | .atomic _ n _ (l :: _) => (maskOf 0 n, l.x.setWidth 1024)
  | _ => (0, 0)
/-- The 160 bytes of the record. -/
def heldRecord (e : SideEntry) : List Byte :=
  let (mask, data) := e.bytes
  leBytes 8 e.va ++ [BitVec.ofNat 8 e.sz, BitVec.ofNat 8 e.kind, BitVec.ofNat 8 e.redOp] ++ leBytes 5 0
    ++ leBytes 16 mask.toNat ++ leBytes 128 data.toNat
/-- The private-window address of the record. -/
def heldVa : Word := 0xB000000000080000#64
/-- Where a byte of the private window lies, by the TLB or by a walk: a key of this panel; none on any fault. -/
def State.privKey (s : State) (a : Actor) (va : Word) : Option Nat :=
  match s.globalOf a va with
  | none => none
  | some g =>
    let pa := match tlbFind (s.core a.who.core).tlb a.who.launch
        (threadSlot (s.group a.who.core).rect.toNat a.who.core a.who.ctx) g with
      | some e => if permitted e.2 .store then some (dataPfn e.2 * 2 ^ 16 + g % 2 ^ pageBits (tagSize e.1)) else none
      | none => (match s.walk a.tenant g with
        | .leaf size pa flags => if flags / 8 % 2 = 1 && flags / 16 % 2 = 0 then some (pa + g % 2 ^ pageBits size) else none
        | _ => none)
    match pa with
    | none => none
    | some pa =>
      match s.resolvePhys pa va.toNat 1 true with
      | .ok t => (s.keyOf t.place).map fun k => k + t.byte
      | .error _ => none
/-- Write the record for a context; none on a fault. The L1 of the core gives up its copies of those lines. -/
def State.writeHeld (s : State) (core ctx : Nat) (e : SideEntry) : Option State :=
  let a := s.actor core ctx
  match s.privKey a heldVa, s.privKey a (heldVa + 128) with
  | some k, some k' =>
    let s := (s.dropL1 core k).dropL1 core k'
    some ((s.poke k ((heldRecord e).take 128)).poke k' ((heldRecord e).drop 128))
  | _, _ => none

end Sys2Proof.Machine
end

