-- ==== Sys2Proof/Machine/Fetch.lean ====
section
/-! DEFINITION. Sys2Proof/Machine/Fetch.lean: fetching an instruction (R70, R71, R73, R91, R284, R290). -/
namespace Sys2Proof.Machine

/-- Where the instruction at `pc` lies: an address outside the global window is in no code page; a page without x raises
cause 0x07, a missing one is a walk and may fault (R284). -/
def fetchKeyM : M Nat := do
  let c ← me
  let pc := c.pc
  if 2 ^ 52 ≤ pc.toNat then trapM 7 pc
  else
    match ← resolveM pc 4 .exec with
    | none => spend
    | some t =>
      let s ← get
      match s.keyOf t.place with
      | none => trapM 7 pc
      | some k =>
        if s.store.readsPoison k (maskOf t.byte 4) then trapM 0x10 pc true else pure (k + t.byte)
/-- The instruction at `pc` with its length, or the decode fault (R91). -/
def fetchM : M (Except DecErr (Instr × Nat)) := do
  let k ← fetchKeyM
  let s ← get
  pure (decodeAt s.me.pc.toNat (s.store.bytes k 16))
/-- What fetching raises: a trap of the fetch, or the illegal-instruction fault. -/
def fetchFaultM : M Unit := do
  match ← fetchM with
  | .ok _ => pure ()
  | .error e => illegal e.sub e.bit e.op
/-- A context whose fetch gives no instruction traps, or waits for the walk of its page. -/
def execIllegalInstructionFetch (s : State) : Res :=
  runEvent .illegalInstructionFetch s fun e s =>
    match e with
    | .illegalInstructionFetch core ctx => ({ s with curCore := core, curCtx := ctx }).turn 0 fetchFaultM
    | _ => s

end Sys2Proof.Machine
end

