-- ==== Sys2Proof/Machine/Contexts.lean ====
section
/-! DEFINITION. Sys2Proof/Machine/Contexts.lean: what happens to contexts between their instructions: reports taken (R272, R289), waits
that end (R36), barriers that complete (R46, R47), a follower too far behind (R41). -/
namespace Sys2Proof.Machine

/-! ## Reports (R272, R289) -/

/-- The order in which pending reports are taken. -/
def reportOrder : List Nat := [0x15, 0x11, 0x06, 0x07, 0x04, 0x03, 0x0D, 0x10, 0x0E, 0x14]
/-- The report that a context takes next. -/
def Ctx.nextReport (c : Ctx) : Option Report :=
  reportOrder.findSome? fun code => c.reports.find? fun r => r.code == code
/-- Whether a core holds an access of a context in back-off (R237). -/
def Retry.holds (w : Who) (id : Nat) : Retry → Bool
  | .sync m => m.actor.who == w && m.id == id
  | .mem m => m.actor.who == w && m.actor.engine == .context && !m.posted && m.id == id
/-- Whether a context waits in a call that every member of a collective must make (R357). -/
def State.inCollective (s : State) (w : Who) : Bool :=
  w.ctx == 0 && (s.launch w.launch).colls.any fun c => c.waiting.contains w.core || c.leaving.contains w.core
/-- Withdraw such a call. -/
def State.leaveCollective (s : State) (w : Who) : State :=
  s.modLaunch w.launch fun l =>
    let left := l.colls.map fun c => { c with waiting := c.waiting.erase w.core, leaving := c.leaving.erase w.core }
    { l with colls := left.filter fun c => c.built || !c.waiting.isEmpty }
/-- Whether a context can leave its instruction now, as if it had not begun: nothing is outstanding, or what is outstanding can
be withdrawn (R37, R192, R237, R357). An access in a remote retry list is withdrawn by its target's answer to a cancel (R238). -/
def State.canLeave (s : State) (core ctx : Nat) : Bool :=
  let c := s.ctx core ctx
  let w : Who := ⟨core, ctx, (s.group core).launch⟩
  !((s.core core).mmas.any fun m => m.ctx == ctx && m.operands.isSome)
    && (match c.access with
        | none => true
        | some a => a.need = 0
            || (s.core core).waiters.any (fun x => x.isLocal && x.msg.actor.who == w)
            || (s.core core).backoffs.any (Retry.holds w a.id)
            || s.inCollective w)
/-- Whether cancels can be sent for what a context has outstanding: an access that may wait in remote retry lists (R238). -/
def State.canCancel (s : State) (core ctx : Nat) : Bool :=
  match (s.ctx core ctx).access with
  | some a => a.need != 0 && !a.lists.isEmpty && !a.cancelling && !s.canLeave core ctx
  | none => false
/-- Send the cancels of a context's access; the target decides which comes first, the access or its cancel (R238). -/
def State.cancelAccess (s : State) (core ctx : Nat) : State :=
  match (s.ctx core ctx).access with
  | some a =>
    a.lists.foldl (fun s p => s.sendTo p.1 (.syncCancel ⟨core, ctx, (s.group core).launch⟩ p.2))
      (s.modCtx core ctx fun c => { c with access := some { a with cancelling := true } })
  | none => s
/-- Withdraw what a context has outstanding: its `mma`, its wait on a line, its call. -/
def State.leaveAccess (s : State) (core ctx : Nat) : State :=
  let w : Who := ⟨core, ctx, (s.group core).launch⟩
  let s := match (s.core core).mmas.find? fun m => m.ctx == ctx with
    | some m => s.withdrawMma core m
    | none => s
  match (s.ctx core ctx).access with
  | none => s
  | some a =>
    let free := ((s.core core).backoffs.filter (Retry.holds w a.id)).length
    let s := s.modCore core fun c => { c with
      waiters := c.waiters.filter fun x => !x.isLocal || x.msg.actor.who != w
      backoffs := c.backoffs.filter fun m => !Retry.holds w a.id m
      reserved := c.reserved - free }
    (s.leaveCollective w).modCtx core ctx fun c =>
      match c.status with
      | .waiting (.line _ _) => { c with access := none, status := .ready, eligible := (s.core core).cycle.toNat + 1 }
      | _ => { c with access := none }
/-- Whether a context has a report to take. -/
def Ctx.reports? (c : Ctx) : Bool := c.status != .free && !c.busy && c.nextReport.isSome
/-- Whether a context takes a report now. -/
def State.canReport (s : State) (core ctx : Nat) : Bool := (s.ctx core ctx).reports? && s.canLeave core ctx
/-- Take a report: it leaves its wait, a held store leaves the side log and its record is written, the trap is entered. -/
def State.takeReport (s : State) (core ctx : Nat) (r : Report) : State :=
  let s := (s.leaveAccess core ctx).modCtx core ctx fun c => { c with reports := c.reports.erase r }
  let pc := (s.ctx core ctx).pc
  match r.held with
  | none => s.enterTrap core ctx r.code r.tval pc r.mem true
  | some e =>
    let s := s.dropEntry e
    match s.writeHeld core ctx e with
    | some s => s.enterTrap core ctx r.code r.tval pc r.mem true
    | none => s.fatal core ctx r.code pc r.tval
/-- A context takes a report; one that waits in a remote retry list is first withdrawn there (R238, R272). -/
def execTrapReport (s : State) : Res :=
  runEvent .trapReport s fun e s =>
    match e with
    | .trapReport core ctx =>
      (match (s.ctx core ctx).nextReport with
       | some r =>
         if s.canReport core ctx then s.takeReport core ctx r
         else if (s.ctx core ctx).reports? && s.canCancel core ctx then s.cancelAccess core ctx else s
       | none => s)
    | _ => s

/-! ## Waits that end (R36) -/

/-- Whether a port can deliver or take an element. -/
def Group.portReady (g : Group) (p : Port) : Bool :=
  match p.kind with
  | 3 => !(g.lq p.idx).elems.isEmpty
  | 4 => (g.lq p.idx).elems.length < 8
  | 5 => if p.write then (g.chan p.idx).allowance != 0 else !(g.chan p.idx).slots.isEmpty
  | _ => true
/-- Whether the reason of a wait has ended; an `mma`, a line and a page end theirs themselves. -/
def Group.waitOver (g : Group) (x : Ctx) : Bool :=
  match x.status with
  | .waiting (.port q) => g.portReady (x.port q)
  | .waiting (.hold v) => !x.held v
  | .waiting (.counter k v) => v.toNat ≤ (g.kval k).toNat
  | .waiting (.queue q v) => v.toNat ≤ (g.queue q).num.toNat
  | .waiting .park => x.token
  | _ => false
/-- A context whose wait has ended is ready and eligible in the next cycle. -/
def execContextReady (s : State) : Res :=
  runEvent .contextReady s fun e s =>
    match e with
    | .contextReady core ctx =>
      if (s.group core).waitOver (s.ctx core ctx) then
        s.modCtx core ctx fun c => { c with status := .ready, eligible := (s.core core).cycle.toNat + 1 }
      else s
    | _ => s

/-! ## Barriers (R46, R47) -/

/-- Whether every member has arrived. -/
def Launch.barFull (l : Launch) (rect d : Nat) : Bool :=
  (subgroupCores rect d).all fun c => (l.bar d).arrived.contains c
/-- One word of a gathered record, written by the porter of the root core: a missing page with demand goes to the side log of
the root's control context, once that has room (R287), another failure is reported to it. None: the write must wait. -/
def State.gatherWord (s : State) (core : Nat) (va v : Word) : Nat → Option State
  | 0 => some s
  | fuel + 1 =>
    let (s, a) := s.engineActor core 0 .context
    let bad (s : State) (code : Nat) : Option State := some (s.report ⟨core, 0, (s.group core).launch⟩ ⟨code, va, false, none⟩)
    match engWrite va (leBytes 8 v.toNat) false none ⟨s, a, {}⟩ with
    | .ok (_, g) => some (g.s.modCtx core 0 fun c => { c with unacked := c.unacked + g.run.acks })
    | .error (.fail code _) => bad s (if code = 1 then 4 else if code = 3 then 0x11 else 7)
    | .error (.walk va' _) =>
      if 256 ≤ (s.group core).sideLog.length then none
      else
      let w : Walk := ⟨a, va', 2, true, false⟩
      (match s.walkEnd w with
       | .entry t d =>
         if dataPrivate d && dataSlot d ≠ threadSlot (s.group core).rect.toNat core 0 then bad s 7
         else (s.install core (s.group core).launch t d).gatherWord core va v fuel
       | .demand =>
         some ((s.faultRecord w).modGroup core fun g => { g with sideLog := g.sideLog ++
           [⟨s.actor core 0, 1, va.toNat, 3, 0, .store
             [⟨.phys 0, va.toNat / 128 * 128, maskOf (va.toNat % 128) 8, valLine (va.toNat % 128) 8 v.toNat, false, []⟩], false⟩] })
       | .malformed => bad (s.bump .malformed) 6
       | .noDemand => bad s 6
       | .noPrivate => bad s 4)
    | .error _ => none
/-- The words of a gathered record, in ascending counter index. -/
def State.gatherAll (s : State) (core : Nat) (va : Word) : List Word → Option State
  | [] => some s
  | v :: t =>
    match s.gatherWord core va v 3 with
    | some s => s.gatherAll core (va + 8) t
    | none => none
/-- The selected sums of a barrier. -/
def Barrier.words (b : Barrier) (mask : Nat) : List Word :=
  (b.sums.filter fun p => mask.testBit p.1).map (·.2)
/-- Complete a barrier: the gathered record, then the next epoch with the releases of every arrival. None: it must wait. The porter of
the root core writes for a bound group: while the root's group is saved the barrier waits for its resume (DESIGN CHOICE, log 57). -/
def State.barrier (s : State) (launch d : Nat) : Option State :=
  let l := s.launch launch
  let b := l.bar d
  let written : Option State := match b.gather with
    | none => some s
    | some (mask, va) =>
      let root := ((subgroupCores l.rect.toNat d).head?).getD 0
      if (s.group root).launch = launch then s.gatherAll root va (b.words mask) else none
  written.map fun s => s.modBar launch d fun b =>
    { b with epoch := b.epoch + 1, arrived := [], rels := [], sums := [], gather := none, done := b.rels }
def execBarrierComplete (s : State) : Res :=
  runEvent .barrierComplete s fun e s =>
    match e with
    | .barrierComplete launch d => if (s.launch launch).barFull (s.launch launch).rect.toNat d then (s.barrier launch d).getD s else s
    | _ => s

/-! ## Follow mode (R41) -/

/-- A follower 32 instructions behind its leader fetches from its own program counter again. -/
def execFollowLagLimit (s : State) : Res :=
  runEvent .followLagLimit s fun e s =>
    match e with
    | .followLagLimit core ctx =>
      s.modCtx core ctx fun c => { c with follow := match c.follow with
        | some f => if 32 ≤ f.trail.length then none else some f
        | none => none }
    | _ => s

end Sys2Proof.Machine
end

