-- ==== Sys2Proof/Machine/Tasks.lean ====
section
/-! DEFINITION. Sys2Proof/Machine/Tasks.lean: hardware tasks: dispatch, footprints, start, write-back, slot lending (R42 to R45, R286,
R405, R406). -/
namespace Sys2Proof.Machine

/-! ## The task area (R26, R43) -/

/-- The task area of a group: its offset and length. The spec does not say where it lies in the partition: the highest granules
(log 10). -/
def Group.taskArea (g : Group) (gran : Nat) : Nat × Nat := ((g.part - gran) * 2 ^ 18, gran * 2 ^ 18)
/-- The pieces of the area that tasks hold. -/
def Group.taskUsed (g : Group) : List (Nat × Nat) := (g.taskBusy.flatMap (·.offs)).filter fun p => p.2 != 0
/-- The lowest place in the area for n bytes clear of the pieces in use: its start or the end of a piece. -/
def placeIn (area : Nat × Nat) (used : List (Nat × Nat)) (n : Nat) : Option Nat :=
  let fits (o : Nat) : Bool :=
    area.1 ≤ o && o + n ≤ area.1 + area.2 && used.all fun p => o + n ≤ p.1 || p.1 + p.2 ≤ o
  ((area.1 :: used.map fun p => p.1 + p.2).filter fits).min?
/-- Places for the ranges of a task, unused ranges at length 0. -/
def placeAll (area : Nat × Nat) (used : List (Nat × Nat)) : List (Word × Word) → Option (List (Nat × Nat))
  | [] => some []
  | (b, l) :: t =>
    let n := (widen b.toNat l.toNat).2
    if n = 0 then (placeAll area used t).map fun r => (0, 0) :: r
    else
      match placeIn area used n with
      | none => none
      | some o => (placeAll area ((o, n) :: used) t).map fun r => (o, n) :: r

/-! ## Copies of footprints -/

/-- Scratchpad-window address of an offset. -/
def windowVa (off : Nat) : Nat := 8 * 2 ^ 60 + off
/-- The copies of a fetch: source, destination, length. -/
def TaskRun.fetches (t : TaskRun) : List (Nat × Nat × Nat) :=
  (t.task.ranges.zip t.offs).flatMap fun p =>
    let base := (widen p.1.1.toNat p.1.2.toNat).1
    (List.range (p.2.2 / 128)).map fun i => (base + 128 * i, windowVa (p.2.1 + 128 * i), 128)
/-- The copies of a write-back: the bytes of each range, none across a line. -/
def TaskRun.backs (t : TaskRun) : List (Nat × Nat × Nat) :=
  (t.task.ranges.zip t.offs).flatMap fun p =>
    (pieces p.1.1.toNat p.1.2.toNat).map fun q =>
      (windowVa (p.2.1 + (q.1 - (widen p.1.1.toNat p.1.2.toNat).1)), q.1, q.2)
/-- Copy one piece. -/
def copyPiece (p : Nat × Nat × Nat) : E Unit := do
  let (bs, psn) ← engRead (BitVec.ofNat 64 p.1) p.2.2
  engWrite (BitVec.ofNat 64 p.2.1) bs psn
/-- Copy pieces from the position of the run on, until one must wait. -/
def copyPieces (ps : List (Nat × Nat × Nat)) : Nat → Eng → Eng × Option Halt
  | 0, g => (g, none)
  | n + 1, g =>
    match ps[g.run.pos]? with
    | none => (g, none)
    | some p =>
      match copyPiece p g with
      | .ok (_, g') => copyPieces ps n { g' with run := { g'.run with pos := g'.run.pos + 1 } }
      | .error h => (g, some h)

/-! ## Stages -/

/-- Change a task of a group, by its slot. -/
def Group.modTask (g : Group) (slot : Nat) (f : TaskRun → TaskRun) : Group :=
  { g with taskBusy := g.taskBusy.map fun t => if t.slot = slot && t.stage ≠ 3 then f t else t }
/-- A task and its footprint leave the core. -/
def Group.dropTask (g : Group) (slot : Nat) : Group :=
  ({ g with taskBusy := g.taskBusy.filter fun t => !(t.slot == slot && t.stage != 3) } : Group).setQueue (taskQueue + slot) {}
/-- The task of a slot at a stage. -/
def Group.taskAt (g : Group) (slot stage : Nat) : Option TaskRun := g.taskBusy.find? fun t => t.slot == slot && t.stage == stage
/-- The arguments of a task: its four words, and where its ranges lie, 0 for an unused one (R43). -/
def TaskRun.argWords (t : TaskRun) : List Word :=
  t.task.args ++ (t.task.ranges.zip t.offs).map fun p =>
    if p.2.2 = 0 then 0 else BitVec.ofNat 64 (windowVa (p.2.1 + p.1.1.toNat % 128))
/-- The fetch of a footprint has ended: the task starts in its slot, after it (R43). -/
def State.startTask (s : State) (core : Nat) (t : TaskRun) : State :=
  let s := s.startIn core t.slot t.task.pc t.argWords (relClock t.eng) (some t.task)
  s.modGroup core fun g => (g.modTask t.slot fun t => { t with stage := 1 }).setQueue (taskQueue + t.slot) {}
/-- A fetch or a write-back has failed: the task is dropped and who queued it takes the report (R405). -/
def State.failTask (s : State) (core : Nat) (t : TaskRun) (code : Nat) (v : Word) : State :=
  (s.modGroup core fun g => (g.dropTask t.slot).giveBack t.slot).report t.task.actor.who ⟨errCause code, v, false, none⟩
/-- Go on with the fetch (stage 0) or the write-back (stage 2) of a task; whether anything has changed. -/
def State.taskCopy (s : State) (core slot stage : Nat) : State × Bool :=
  match (s.group core).taskAt slot stage with
  | none => (s, false)
  | some t =>
    let x := (s.group core).queue (taskQueue + slot)
    let ps := if stage = 0 then t.fetches else if (s.launch (s.group core).launch).taskWb then t.backs else []
    match x.run.fail with
    | some (code, v) => if x.run.acks = 0 then (s.failTask core t code v, true) else (s, false)
    | none =>
      if x.run.waiting then (s, false)
      else
        let put (g : Eng) : State := g.s.modGroup core fun gr =>
          (gr.modTask slot fun t => { t with eng := g.a }).setQueue (taskQueue + slot) { gr.queue (taskQueue + slot) with run := g.run }
        let (g, h) := copyPieces ps (ps.length + 1) ⟨s, t.eng, x.run⟩
        match h with
        | none =>
          if g.run.acks ≠ 0 then (put g, g.run.pos != x.run.pos)
          else if stage = 0 then ((put g).startTask core { t with eng := g.a }, true)
          else ((put g).modGroup core fun gr => gr.dropTask slot, true)
        | some (.fail code v) => (put { g with run := { g.run with fail := some (code, v) } }, true)
        | some (.wait (some k)) =>
          if g.run.waited.contains k then (put g, g.run.pos != x.run.pos)
          else (put { g with run := { g.run with waited := k :: g.run.waited } }, true)
        | some (.wait none) => (put g, g.run.pos != x.run.pos)
        | some h => ((put { g with run := { g.run with waiting := true } }).engineAsk g.a 5 h, true)

/-! ## Dispatch (R43, R45) -/

/-- Whether a core can take the head task of its launch: a suspended one only where it stands, another with room for its
footprint. -/
def State.taskFits (s : State) (launch core : Nat) (t : TaskRec) : Bool :=
  let g := s.group core
  g.launch == launch && launch != 0 && (s.core core).stop == 0 && !(s.core core).isolated
    && (match t.onCore with
        | some c => c == core
        | none => (placeAll (g.taskArea (s.launch launch).taskGran) g.taskUsed t.ranges).isSome)
/-- The engine that fetches a footprint: what its task record released happens before it (R43, R405). -/
def taskActor (t : TaskRec) (core slot launch agent : Nat) : Actor :=
  { t.actor with who := ⟨core, slot, launch⟩, engine := .task, agent := agent, region := 1, clock := relClock t.actor,
                 issuer := (0, 0) }
/-- Put the head task into a slot: a new task begins its fetch, a suspended one goes on (R45). -/
def State.giveTask (s : State) (launch core slot : Nat) (t : TaskRec) : State :=
  let s := s.modLaunch launch fun l => { l with tasks := l.tasks.drop 1 }
  let g := s.group core
  match t.onCore with
  | some _ =>
    (match g.suspended.find? fun c => c.task == some t with
     | none => s
     | some c =>
       s.modGroup core fun (g : Group) =>
         let busy := match g.taskBusy.find? fun r => r.stage == 3 && r.task == t with
           | some r => { r with stage := 1, slot := slot } :: g.taskBusy.erase r
           | none => g.taskBusy
         let g : Group := { g with taskBusy := busy, suspended := g.suspended.erase c }
         g.setCtx slot { c.inSlot (g.ctx slot) with status := .ready, eligible := (s.core core).cycle.toNat + 1 })
  | none =>
    match placeAll (g.taskArea (s.launch launch).taskGran) g.taskUsed t.ranges with
    | none => s
    | some offs =>
      let run : TaskRun := ⟨slot, t, 0, offs, taskActor t core slot launch s.nextAgent⟩
      (({ s with nextAgent := s.nextAgent + 1 }.modGroup core fun g =>
        ({ g with taskBusy := g.taskBusy ++ [run] } : Group).setQueue (taskQueue + slot) {}).taskCopy core slot 0).1
/-- Whether the head task can be dispatched to a free slot. -/
def State.canDispatch (s : State) (launch core slot : Nat) : Bool :=
  match (s.launch launch).tasks with
  | [] => false
  | t :: _ => s.taskFits launch core t && 1 ≤ slot && slot ≤ (s.group core).helpers && (s.group core).slotFree slot
def execTaskDispatch (s : State) : Res :=
  runEvent .taskDispatch s fun e s =>
    match e with
    | .taskDispatch launch core slot =>
      (match (s.launch launch).tasks with
       | t :: _ => if s.canDispatch launch core slot then s.giveTask launch core slot t else s
       | [] => s)
    | _ => s
/-- The fetch of a footprint goes on; at its end the task starts. -/
def execTaskStart (s : State) : Res :=
  runEvent .taskStart s fun e s =>
    match e with
    | .taskStart core slot => (s.taskCopy core slot 0).1
    | _ => s
/-- The write-back of a footprint goes on, if the policy asks for it; at its end the footprint is unpinned (R44). -/
def execTaskUnpin (s : State) : Res :=
  runEvent .taskUnpin s fun e s =>
    match e with
    | .taskUnpin core slot => (s.taskCopy core slot 2).1
    | _ => s

/-! ## Slot lending (R45, R286) -/

/-- Whether a context has work under way outside its instructions: commands, entries, firings, logged stores, tasks. -/
def State.hasWork (s : State) (core ctx : Nat) : Bool :=
  let g := s.group core
  let mine (a : Actor) : Bool := a.who == ⟨core, ctx, g.launch⟩
  (g.queues.list.any fun q => q.2.items.any fun i => match i with
    | .cmd c => mine c.actor
    | .chain c _ _ => mine c.actor
    | .fence _ => false)
    || (g.entries.list.any fun e => e.2.armed && e.2.ctx == ctx) || ((g.firings ++ g.crossed).any fun f => f.ctx == ctx)
    || (g.sideLog.any fun e => mine e.actor) || (g.taskBusy.any fun t => mine t.task.actor)
    || (s.launch g.launch).tasks.any fun t => mine t.actor
/-- Whether the slot of a parked context can be lent to the head task. R45 lets the dispatcher lend it and does not make it: the model
lends no slot whose parked context is a task itself, has stores not acknowledged or has work under way (DESIGN CHOICE, log 57). -/
def State.canLend (s : State) (launch core slot : Nat) : Bool :=
  let g := s.group core
  match (s.launch launch).tasks with
  | [] => false
  | t :: _ =>
    s.taskFits launch core t && 1 ≤ slot && slot ≤ g.helpers && (pageWait (g.ctx slot)).isSome
      && (g.ctx slot).unacked == 0 && (g.ctx slot).task.isNone && !s.hasWork core slot
      && !(g.lent.any fun p => p.1 == slot) && !(g.taskBusy.any fun r => r.slot == slot && r.stage != 3)
def execSlotLend (s : State) : Res :=
  runEvent .slotLend s fun e s =>
    match e with
    | .slotLend launch core slot =>
      (match (s.launch launch).tasks with
       | t :: _ =>
         if s.canLend launch core slot then
           (s.modGroup core fun g => ({ g with lent := g.lent ++ [(slot, g.ctx slot)] } : Group).setCtx slot (g.ctx slot).lending).giveTask
             launch core slot t
         else s
       | [] => s)
    | _ => s
/-- The lent task of a slot is pre-empted: it goes back to the head of the queue with its footprint pinned, and resumes only
here. -/
def State.preemptTask (s : State) (core slot : Nat) : State :=
  let s := s.leaveAccess core slot
  let g := s.group core
  match g.taskAt slot 1 with
  | none => s
  | some r =>
    let rec' : TaskRec := { r.task with onCore := some core }
    let c : Ctx := { (g.ctx slot).image with task := some rec', follow := none }
    let s := s.modLaunch g.launch fun l => { l with tasks := rec' :: l.tasks }
    s.modGroup core fun g =>
      ({ g with taskBusy := { r with task := rec', stage := 3 } :: g.taskBusy.erase r,
                suspended := g.suspended ++ [c] } : Group).giveBack slot
/-- Whether a wake message can be taken: a lent task must be at an instruction boundary with nothing outstanding. -/
def State.canWake (s : State) (w : Who) : Bool :=
  let g := s.group w.core
  if g.launch == w.launch && g.lent.any fun p => p.1 == w.ctx then
    (g.taskAt w.ctx 0).isNone && s.canLeave w.core w.ctx && (g.ctx w.ctx).unacked == 0
  else true
/-- The wake message of a parked load: the slot comes back to its owner if it was lent, and the load executes again. -/
def execPageFaultWake (s : State) : Res :=
  runEvent .pageFaultWake s fun e s =>
    match e with
    | .pageFaultWake w va =>
      if s.canWake w then
        let cycle := (s.core w.core).cycle.toNat + 1
        let s := if (s.group w.core).launch = w.launch && (s.group w.core).lent.any fun p => p.1 == w.ctx
          then s.preemptTask w.core w.ctx else s
        s.modLaunchGroup w.core w.launch fun g => g.modCtx w.ctx fun c =>
          if pageWait c = some va then { c with status := .ready, eligible := cycle } else c
      else if s.canCancel w.core w.ctx then (s.cancelAccess w.core w.ctx).again e
      else s.again e
    | _ => s

end Sys2Proof.Machine
end

