-- ==== Sys2Proof/Machine/Scheduling.lean ====
section
/-! DEFINITION. Sys2Proof/Machine/Scheduling.lean: the firmware's scheduling: names (R30), effective priorities and eligibility (R253,
R254), deficits and grants (R255 to R257), admission (R252), granules and eviction (R27, R263), sections at bind (R102). -/
namespace Sys2Proof.Machine

/-- Insert into a list by an order. -/
def insertBy {α : Type} (le : α → α → Bool) (x : α) : List α → List α
  | [] => [x]
  | y :: t => if le x y then x :: y :: t else y :: insertBy le x t
/-- Sort by an order, keeping the order of equals. -/
def sortBy {α : Type} (le : α → α → Bool) : List α → List α
  | [] => []
  | x :: t => insertBy le x (sortBy le t)

/-! ## Launches -/

/-- Launches that have not retired. -/
def State.openLaunches (s : State) : List Nat := (s.launches.list.filter fun p => p.2.stage != .retired).map (·.1)
/-- The cores of a launch. -/
def Launch.cores (l : Launch) : List Nat := rectCores l.rect.toNat
/-- Whether the rectangles of two launches share a core. -/
def Launch.meets (a b : Launch) : Bool := a.cores.any fun c => inRect b.rect.toNat c
/-- Whether a launch occupies its cores. -/
def Launch.holds (l : Launch) : Bool := l.stage == .bound || l.stage == .saving
/-- The logical chiplets in service. -/
def State.validChips (s : State) : List Nat := (List.range 256).filter fun c => s.tables.chipValid c
/-- Whether every dependence is met, that is, the launch that it named has retired, and every chiplet in service holds the container (R110, R253). -/
def State.eligible (s : State) (l : Launch) : Bool :=
  (l.deps.all fun d => s.openLaunches.all fun n => (s.launch n).seq != d)
    && s.validChips.all fun c => (s.imageOf l).holders.contains c
/-- The own priority of a launch, capped at its tenant's ceiling (R253). -/
def State.ownPrio (s : State) (l : Launch) : Nat := Nat.min l.prio (s.tenant l.tenant).ceiling
/-- Effective priority, following dependences at most `depth` levels (R254). -/
def State.effPrio (s : State) : Nat → Nat → Nat
  | 0, n => s.ownPrio (s.launch n)
  | depth + 1, n =>
    ((s.openLaunches.filter fun m => (s.launch m).stage == .queued && (s.launch m).deps.contains (s.launch n).seq).map fun m =>
      s.effPrio depth m).foldl Nat.max (s.ownPrio (s.launch n))
/-- Effective priority of a launch. -/
def State.eff (s : State) (n : Nat) : Nat := s.effPrio 8 n

/-! ## Tenants (R252, R255 to R257) -/

/-- Mesh cycles of a quantum: 1 ms at 3 GHz (R255, R297). -/
def quantumCycles : Nat := 3000000
/-- Whether a tenant is admitted: it has a launch bound or saved, or a collective built. -/
def State.admitted (s : State) (t : Nat) : Bool :=
  s.openLaunches.any fun n => (s.launch n).tenant == t && (s.launch n).admits
/-- The registered tenants. -/
def State.tenantIds (s : State) : List Nat := (s.tenants.list.filter fun p => p.2.registered).map (·.1)
/-- The admitted tenants. -/
def State.admittedIds (s : State) : List Nat := s.tenantIds.filter fun t => s.admitted t
/-- Whether a tenant may have a launch bound: admitted, or one of at most 32. -/
def State.admissible (s : State) (t : Nat) : Bool := s.admitted t || s.admittedIds.length < 32
/-- Whether a launch can be granted its cores: bound already, saved, or queued and eligible. -/
def State.grantable (s : State) (n : Nat) : Bool :=
  let l := s.launch n
  l.stage == .bound || l.stage == .saved
    || (l.stage == .queued && s.eligible l && s.admissible l.tenant && !(s.tenant l.tenant).resetting)
/-- Whether a tenant is backlogged now (R256). -/
def State.backlog (s : State) (t : Nat) : Bool :=
  s.openLaunches.any fun n => (s.launch n).tenant == t && (s.grantable n || (s.launch n).stage == .saving)
/-- Entitlement of a tenant in a window, in core-quanta (R256): W sums the shares of the tenants admitted in it, now or before. -/
def State.entitlement (s : State) (t : Nat) : Nat :=
  let shares := (s.tenantIds.filter fun u => s.admitted u || (s.tenant u).inWindow).map fun u => (s.tenant u).share
  if shares.sum = 0 then 0 else 204800 * (s.tenant t).share / shares.sum
/-- The deficit of a tenant, in core-cycles of the mesh: what it carried into the window, its entitlement so far, less what it has
received (R257). -/
def State.deficit (s : State) (t : Nat) : Int :=
  (s.tenant t).deficit + (s.entitlement t * (s.window % 100) * quantumCycles / 100 : Nat) - (s.tenant t).got
/-- The tenants in the order of grants: those with a share first, descending deficit, ascending identifier. -/
def State.grantOrder (s : State) : List Nat :=
  sortBy (fun a b =>
    let za := (s.tenant a).share == 0
    let zb := (s.tenant b).share == 0
    if za != zb then zb
    else if s.deficit a = s.deficit b then decide (a ≤ b) else decide (s.deficit b ≤ s.deficit a)) s.tenantIds
/-- The launches of a tenant that can be granted, in the order of R253: descending effective priority, what is bound first, in
submission order. -/
def State.launchOrder (s : State) (t : Nat) : List Nat :=
  sortBy (fun a b =>
    if s.eff a = s.eff b then
      (let ba := (s.launch a).stage == .bound
       let bb := (s.launch b).stage == .bound
       if ba != bb then ba else decide ((s.launch a).seq ≤ (s.launch b).seq))
    else decide (s.eff b ≤ s.eff a)) (s.openLaunches.filter fun n => (s.launch n).tenant == t && s.grantable n)
/-- The launches that are granted cores: in order, each whose rectangle meets none chosen before. -/
def State.chosen (s : State) : List Nat :=
  (s.grantOrder.flatMap fun t => s.launchOrder t).foldl (fun acc n =>
    if acc.any fun m => (s.launch m).meets (s.launch n) then acc else acc ++ [n]) []

/-! ## Names (R30) -/

/-- A name-table index. -/
def State.name (s : State) (i : Nat) : Name := Cells.get {} s.names i
/-- Whether n indices from a base can be given out. -/
def State.namesFree (s : State) (base n : Nat) : Bool :=
  (List.range n).all fun i => (s.name (base + i)).owner.isNone && (s.name (base + i)).gen < 0xFFFFFF
/-- The lowest free block of n indices, and its generation. -/
def State.nameBlock (s : State) (n : Nat) : Nat × Nat :=
  let base := ((0 :: s.names.keys.map (· + 1)).filter fun b => s.namesFree b n).min?.getD 0
  (base, ((List.range n).map fun i => (s.name (base + i)).gen).foldl Nat.max 0 + 1)
/-- A group name. -/
def nameWord (panel gen idx : Nat) : Nat := panel * 2 ^ 56 + gen * 2 ^ 32 + idx
/-- Give a launch its names. -/
def State.giveNames (s : State) (n : Nat) : State :=
  let l := s.launch n
  let cores := l.cores
  let (base, gen) := s.nameBlock cores.length
  { s with names := ((List.range cores.length).zip cores).foldl (fun t (p : Nat × Nat) =>
      Cells.set {} t (base + p.1) { gen, owner := some (p.2, n) }) s.names }.modLaunch n fun l =>
    { l with nameBase := base, nameGen := gen }

/-! ## Granules (R27, R120, R263) -/

/-- The physical granules of a partition. -/
def granules (gmap : BitVec 24) (part : Nat) : List Nat := (List.range part).map fun g => (gmap.extractLsb' (3 * g) 3).toNat
/-- The granules that resident partitions of a core hold. -/
def Core.held (c : Core) : List Nat :=
  (c.group :: c.saved).flatMap fun g => if g.launch = 0 || g.absent then [] else granules g.gmap g.part
/-- A granule map from a list of granules. -/
def gmapOf (gs : List Nat) : Nat := ((List.range gs.length).zip gs).foldl (fun acc p => acc + p.2 * 8 ^ p.1) 0
/-- The lowest free granules of a core for a partition. -/
def Core.freeMap (c : Core) (part : Nat) : Option Nat :=
  let free := (List.range 8).filter fun g => !c.held.contains g
  if part ≤ free.length then some (gmapOf (free.take part)) else none
/-- The saved group of a launch on a core. -/
def Core.savedOf (c : Core) (n : Nat) : Option Group := c.saved.find? fun g => g.launch == n
/-- Bytes of a partition in an eviction block (R263). -/
def evictBytes : Nat := 2080 * 1024
/-- The lowest free block in the tenant's eviction area for a launch. -/
def State.evictBlock (s : State) (n : Nat) : Option Nat :=
  let l := s.launch n
  match l.evict with
  | some b => some b
  | none =>
    let used := s.openLaunches.filterMap fun m =>
      if (s.launch m).tenant = l.tenant then (s.launch m).evict.map fun b => (b, (s.launch m).cores.length * evictBytes) else none
    placeIn ((s.tenant l.tenant).evictBase, (s.tenant l.tenant).evictLen) used (l.cores.length * evictBytes)
/-- Save-area offset for a group on a core: the lowest of nine areas of 288 KiB for each row that no saved group has. -/
def State.saveArea (s : State) (core : Nat) : Nat :=
  let at' (k : Nat) : Nat := (9 * localIdx core + k) * (288 * 1024)
  (((List.range 9).map at').find? fun o => (s.core core).saved.all fun g => g.save != o).getD 0
/-- Write the record of an action for a group on a core. -/
def State.actRow (s : State) (action core : Nat) (g : Group) : State :=
  s.writeRow (chipOf core) (localIdx core)
    (slotRecord action g.tgen g.tenant g.launch g.gname.toNat g.save g.gmap.toNat g.part g.helpers g.r)
/-- Whether a row is idle. -/
def State.rowIdle (s : State) (core : Nat) : Bool :=
  !(Cells.get (0 : BitVec 256) s.tables.slott (8 * chipOf core + localIdx core)).getLsbD 255

/-- Evict the partitions of one launch for cores that need granules: tenants without a share first, then the oldest (R263). -/
def State.evictFor (s : State) (n : Nat) (cores : List Nat) : State :=
  let resident (m c : Nat) : Bool := match (s.core c).savedOf m with
    | some g => !g.absent && g.part != 0
    | none => false
  let cands := s.openLaunches.filter fun m =>
    m != n && (s.launch m).stage == .saved && (cores.any fun c => resident m c) && (s.evictBlock m).isSome
      && (s.launch m).cores.all fun c => s.rowIdle c
  let order := sortBy (fun a b =>
    let za := (s.tenant (s.launch a).tenant).share == 0
    let zb := (s.tenant (s.launch b).tenant).share == 0
    if za != zb then za else decide ((s.launch a).boundAt ≤ (s.launch b).boundAt)) cands
  match order with
  | [] => s
  | m :: _ =>
    let s := s.modLaunch m fun l => { l with evict := s.evictBlock m }
    (s.launch m).cores.foldl (fun s c => match (s.core c).savedOf m with
      | some g => if g.absent || g.part = 0 then s else s.actRow 4 c g
      | none => s) s

/-! ## Binding and resuming (R26, R27, R102, R253, R257, R259) -/

/-- The firmware stores bytes at a physical address of another panel: a posted store of the tenant, a release. -/
def State.placeAway (s : State) (tenant pa : Nat) (bs : List Byte) : State :=
  let a : Actor := ⟨⟨0, 0, 0⟩, .context, 0, 0, tenant, (s.tenant tenant).gen.toNat, Cells.empty, (0, 0), s.myPanel⟩
  (byteParts ((List.range bs.length).zip bs |>.map fun p => (pa + p.1, p.2))).foldl (fun s p =>
    s.sendOut (pa / 2 ^ 46) (.memoryRequest
      ⟨a, 0, .store [⟨.phys p.1, p.1, p.2.1, p.2.2, false, []⟩], true, true, some ⟨Cells.empty, .pod, s.myPanel, 0, []⟩, 0⟩)) s
/-- Write bytes at a global address of a tenant through its tables, page by page of 64 KiB; a page that the tenant runtime has not mapped
takes nothing: its bytes are the runtime's to bring when it maps it (log 59). -/
def State.placeBytes (s : State) (tenant va : Nat) : Nat → List Byte → State
  | 0, _ => s
  | n + 1, bs =>
    let k := 0x10000 - va % 0x10000
    let s := match s.walk tenant va with
      | .leaf size pa _ =>
        if (pa / 2 ^ 46 : Nat) = s.myPanel then s.poke (physKey (pa + va % 2 ^ pageBits size)) (bs.take k)
        else s.placeAway tenant (pa + va % 2 ^ pageBits size) (bs.take k)
      | _ => s
    if bs.length ≤ k then s else s.placeBytes tenant (va + k) n (bs.drop k)
/-- Write the code and data of a launch's roles, and clear their zero sections: one copy per launch (R102). -/
def State.placeSections (s : State) (n : Nat) : State :=
  let l := s.launch n
  let im := s.imageOf l
  let put (s : State) (va : Nat) (bs : List Byte) : State := s.placeBytes l.tenant va (bs.length / 0x10000 + 2) bs
  (List.range (roleCount im.bytes)).foldl (fun s r =>
    let s := put s (im.base r 0) (im.section' r 0)
    let s := put s (im.base r 1) (im.section' r 1)
    put s (im.base r 2) (List.replicate (roleAt im.bytes r).zero 0)) s
/-- The group that a launch binds on a core. -/
def State.newGroup (s : State) (n core gmap : Nat) : Group :=
  let l := s.launch n
  let idx := l.nameBase + (2 ^ l.lw * (coreY core - l.y0) + (coreX core - l.x0))
  { launch := n, tenant := l.tenant, tgen := (s.tenant l.tenant).gen.toNat,
    gname := BitVec.ofNat 64 (nameWord s.myPanel l.nameGen idx), r := l.r, helpers := l.helpers, part := l.part,
    gmap := BitVec.ofNat 24 gmap, rect := l.rect, save := s.saveArea core }
/-- Start a launch whose cores are free: bind it or resume it; where granules are lacking, evict first. -/
def State.startLaunch (s : State) (n : Nat) : State :=
  let l := s.launch n
  if l.stage = .queued then
    let lacking := l.cores.filter fun c => ((s.core c).freeMap l.part).isNone
    if !lacking.isEmpty then s.evictFor n lacking
    else
      let s := (s.modLaunch n fun l => { l with stage := .bound, boundAt := s.mesh, live := l.cores }).giveNames n
      l.cores.foldl (fun s c => s.actRow 1 c (s.newGroup n c (((s.core c).freeMap l.part).getD 0))) (s.placeSections n)
  else
    let map (c : Nat) (g : Group) : Option Nat := if g.absent then (s.core c).freeMap g.part else some g.gmap.toNat
    let lacking := l.cores.filter fun c => match (s.core c).savedOf n with
      | some g => (map c g).isNone
      | none => false
    if !lacking.isEmpty then s.evictFor n lacking
    else
      let s := s.modLaunch n fun l => { l with stage := .bound, boundAt := s.mesh }
      l.cores.foldl (fun s c => match (s.core c).savedOf n with
        | some g => s.actRow 3 c { g with gmap := BitVec.ofNat 24 ((map c g).getD 0) }
        | none => s) s
/-- Pre-empt a launch: every one of its groups is saved (R257, R259). -/
def State.saveLaunch (s : State) (n : Nat) : State :=
  let s := (s.account n).modLaunch n fun l => { l with stage := .saving }
  (s.launch n).live.foldl (fun s c => s.actRow 2 c (s.group c)) s
/-- Whether a launch can be pre-empted: its rows are idle and each of its cores has room for one more saved group (R260). -/
def State.canSave (s : State) (n : Nat) : Bool :=
  (s.launch n).live.all fun c => s.rowIdle c && (s.core c).saved.length < 8 && (s.group c).launch == n
/-- The firmware's grants: launches that are chosen start on free cores; at a quantum boundary what stands in their way is
pre-empted. A grant that would admit a 33rd tenant is not made (R234, R252). -/
def State.grants (s : State) (preempt : Bool) : State :=
  let chosen := s.chosen
  chosen.foldl (fun s n =>
    let l := s.launch n
    if l.stage = .queued && !s.admissible l.tenant then s
    else if l.stage = .queued || l.stage = .saved then
      let inWay := s.openLaunches.filter fun m => m != n && (s.launch m).holds && (s.launch m).meets l
      if inWay.isEmpty then (if l.cores.all fun c => s.rowIdle c && !(s.core c).isolated then s.startLaunch n else s)
      else if preempt then
        (inWay.filter fun m => (s.launch m).stage == .bound && !chosen.contains m && s.canSave m).foldl
          (fun s m => s.saveLaunch m) s
      else s
    else s) s

/-! ## Quanta and windows (R255 to R257, R268, R302) -/

/-- Clock changes that a quantum's telemetry asks for: down a step of 65 MHz, or back up towards the nominal point (R302). -/
def State.clockSteps (s : State) (q : Nat) : List Event :=
  s.validChips.filterMap fun c =>
    let mhz := Cells.get 1950 s.tables.mhz c
    if Config.railsHigh q c then (if 650 < mhz then some (.clockChange c (mhz - 65)) else none)
    else if Config.railsLow q c && mhz < 1950 then some (.clockChange c (mhz + 65)) else none
/-- Assign the energy of a quantum (R268). -/
def State.addEnergy (s : State) (q : Nat) : State :=
  (0xFFFF :: s.tenantIds).foldl (fun s t =>
    let e := (s.tenant t).energyRem + Config.energy q t
    (s.modTenant t fun x => { x with energyRem := e % 1000 }).meter t 10 (e / 1000)) s
/-- A quantum boundary: time has come to it, cores are accounted, energy is read, grants are made; with the last of a window they
follow the end of the window. -/
def State.quantum (s : State) : State :=
  let q := s.window + 1
  let s := { s with window := q, mesh := Nat.max s.mesh (q * quantumCycles) }
  let s := s.openLaunches.foldl State.account s
  let s := s.addEnergy q
  let s := { s with backlogged := s.backlogged.filter fun t => s.backlog t }
  let s := (s.clockSteps q).foldl State.post s
  if q % 100 = 0 then s.post .schedulingWindowEnd else s.grants true
def execQuantumBoundary (s : State) : Res := runEvent .quantumBoundary s fun _ s => s.quantum
/-- The end of a window: the deficit of a tenant that was backlogged throughout is carried forward (R256). -/
def execSchedulingWindowEnd (s : State) : Res :=
  runEvent .schedulingWindowEnd s fun _ s =>
    let carry (t : Nat) : Int :=
      if s.backlogged.contains t then
        (s.tenant t).deficit + (s.entitlement t * quantumCycles : Nat) - (s.tenant t).got
      else 0
    let new := s.tenantIds.map fun t => (t, carry t)
    let s := new.foldl (fun s p => s.modTenant p.1 fun t => { t with deficit := p.2, got := 0, inWindow := false }) s
    { s with backlogged := s.tenantIds.filter fun t => s.backlog t }.grants true

end Sys2Proof.Machine
end

