-- ==== Sys2Proof/Machine/Slots.lean ====
section
/-! DEFINITION. Sys2Proof/Machine/Slots.lean: the dispatcher's actions on a row: bind, save, resume, evict, reset stop, retire (R27, R30 to
R38, R69, R120, R186, R192, R211, R221, R258 to R265), and the retirement of groups (R34, R253). -/
namespace Sys2Proof.Machine

/-! ## Rows (R258, R259) -/

/-- The record of a row. -/
def State.row (s : State) (chip row : Nat) : BitVec 256 := Cells.get 0 s.tables.slott (8 * chip + row)
def recAction (v : BitVec 256) : Nat := (v.extractLsb' 252 3).toNat
def recLaunch (v : BitVec 256) : Nat := (v.extractLsb' 160 24).toNat
def recPart (v : BitVec 256) : Nat := (v.extractLsb' 13 4).toNat
def recHelpers (v : BitVec 256) : Nat := (v.extractLsb' 9 4).toNat
def recRes (v : BitVec 256) : Nat := (v.extractLsb' 0 9).toNat
def recGmap (v : BitVec 256) : BitVec 24 := v.extractLsb' 17 24
/-- The group that a record describes, without its state. -/
def recGroup (v : BitVec 256) : Group :=
  { launch := recLaunch v, tenant := (v.extractLsb' 200 16).toNat, tgen := (v.extractLsb' 216 24).toNat,
    gname := v.extractLsb' 96 64, r := recRes v, helpers := recHelpers v, part := recPart v, gmap := recGmap v,
    save := (v.extractLsb' 41 29).toNat }
/-- An action ends: go is cleared, the done count rises, the result is written. -/
def State.endAction (s : State) (chip row result : Nat) : State :=
  let k := 8 * chip + row
  let v := s.row chip row
  let done := (Cells.get (0 : Word) s.tables.slots k).toNat / 2 ^ 32 + 1
  { s with tables := { s.tables with
      slott := Cells.set 0 s.tables.slott k (v &&& ~~~(1#256 <<< 255))
      slots := Cells.set 0 s.tables.slots k (BitVec.ofNat 64 (done % 2 ^ 32 * 2 ^ 32 + result)) } }
/-- Whether a row's core is in service. -/
def State.coreUp (s : State) (chip row : Nat) : Bool := s.tables.chipValid chip && !(s.core (coreOfLocal chip row)).isolated
/-- Perform an action whose record is at hand: refused with result 2 out of service, with 1 where it cannot be done. -/
def State.act (s : State) (chip row action : Nat) (ok : BitVec 256 → Bool) (f : BitVec 256 → State → State) : State :=
  let v := s.row chip row
  if !v.getLsbD 255 || recAction v ≠ action then s
  else if !s.coreUp chip row then s.endAction chip row 2
  else if !ok v then s.endAction chip row 1
  else (f v s).endAction chip row 0

/-! ## Zeroing (R120, R264) -/

/-- A table without the keys of a range. -/
def dropRange {α : Type} (m : Cells α) (lo n : Nat) : Cells α := ⟨m.list.filter fun p => !(lo ≤ p.1 && p.1 < lo + n)⟩
/-- Storage from a key on, n bytes, becomes zero: lines full, no poison, no releases, no marks. -/
def Store.zero (st : Store) (k n : Nat) : Store :=
  { st with
    mem := dropRange st.mem k n
    empties := dropRange st.empties (k / 128) (n / 128)
    poison := dropRange st.poison (k / 64) (n / 64)
    rels := dropRange (dropRange st.rels (k / 4) (n / 4)) (lineRelKey k) (n / 128)
    marks := dropRange st.marks (k / 4) (n / 4) }
/-- Remote accesses that wait at lines of granules which change hands are answered that they must try again: they find the partition,
or its absence, by name (R114, R118, R237). -/
def State.nackWaiters (s : State) (core : Nat) (gs : List Nat) : State :=
  let hit (w : LineWaiter) : Bool := !w.isLocal && gs.any fun g => w.line / 2 ^ 18 == scratchKey core (g * 2 ^ 18) / 2 ^ 18
  let ws := (s.core core).waiters.filter hit
  ws.foldl (fun s w => s.toPanel w.msg.actor.panel (.accessNack w.msg))
    (s.modCore core fun c => { c with waiters := c.waiters.filter fun w => !hit w })
/-- The granules of a partition become zero, all their lines full; nothing goes on waiting there. -/
def State.zeroGranules (s : State) (core : Nat) (gmap : BitVec 24) (part : Nat) : State :=
  (granules gmap part).foldl (fun s g => { s with store := s.store.zero (scratchKey core (g * 2 ^ 18)) (2 ^ 18) })
    (s.nackWaiters core (granules gmap part))
/-- Write bytes into a partition from offset 0. -/
def State.fillPartition (s : State) (core : Nat) (gmap : BitVec 24) (part : Nat) (bs : List Byte) : State :=
  (List.range part).foldl (fun s g =>
    { s with store := s.store.setBytes (scratchKey core (gmapOff gmap (g * 2 ^ 18))) ((bs.drop (g * 2 ^ 18)).take (2 ^ 18)) }) s

/-! ## Bind (R31, R32, R34, R38, R105, R212, R253) -/

/-- Whether a record's residency and helpers keep R31 and R32. -/
def recGrantOk (v : BitVec 256) : Bool :=
  let r := recRes v
  32 ≤ r && r ≤ 256 && r % 16 == 0 && recHelpers v ≤ Nat.min 10 ((2048 - r) / r)
/-- Whether the granules of a record are distinct and no other partition holds one. -/
def Core.granulesOk (c : Core) (v : BitVec 256) : Bool :=
  let gs := granules (recGmap v) (recPart v)
  let other := (c.group :: c.saved).flatMap fun g =>
    if g.launch = 0 || g.launch = recLaunch v || g.absent then [] else granules g.gmap g.part
  gs.eraseDups.length == gs.length && gs.all fun g => !other.contains g
/-- What happened before a launch is bound: the regions of launches of its tenant that have retired (R138, R143; log 10). -/
def State.bindClock (s : State) (tenant : Nat) : Clock :=
  s.store.marks.list.foldl (fun c p => p.2.foldl (fun c m =>
    if m.tenant = tenant && (s.launch m.launch).stage == .retired then
      Cells.set 0 c m.agent (Nat.max (Cells.get 0 c m.agent) m.region)
    else c) c) Cells.empty
/-- Bind the group of a record: registers zero, ports and channels as declared, the scratch section in its partition, the control
context at its entry. -/
def State.bindGroup (s : State) (core : Nat) (v : BitVec 256) : State :=
  let s := s.account (recLaunch v)
  let l := s.launch (recLaunch v)
  let im := s.imageOf l
  let k := kernelAt im.bytes l.kernel
  let p := (im.rowFor k (coreX core - l.x0) (coreY core - l.y0)).getD ⟨0, 0, 0, 0, 0, 0, 0⟩
  let g : Group := { recGroup v with
    rect := l.rect, role := p.role, cmask := BitVec.allOnes 64, emask := BitVec.allOnes 64,
    chans := im.chansFor k p.role core, boundSeq := s.nextAgent }
  let g := (im.bindPorts k p.role g).1
  let s := (s.zeroGranules core g.gmap g.part).fillPartition core g.gmap g.part (im.section' p.role 2)
  let s := s.modCore core fun c => { c with group := g, mmas := [], keeps := [], stop := 0 }
  s.startIn core 0 (BitVec.ofNat 64 (im.base p.role 0 + p.entry)) [] (s.bindClock g.tenant) none
def execSlotBind (s : State) : Res :=
  runEvent .slotBind s fun e s =>
    match e with
    | .slotBind chip row =>
      let core := coreOfLocal chip row
      s.act chip row 1
        (fun v => (s.group core).launch == 0 && recLaunch v != 0 && recGrantOk v && (s.core core).granulesOk v)
        fun v s => s.bindGroup core v
    | _ => s

/-! ## Save (R37, R69, R260) -/

/-- What stands in the way of saving a context is withdrawn: at once, or by cancels to remote retry lists (R192, R238). -/
def State.withdraw (s : State) (core i : Nat) : State :=
  if (s.ctx core i).status != .free && s.canLeave core i && ((s.ctx core i).access.any fun a => a.need != 0)
      || ((s.core core).mmas.any fun m => m.ctx == i && m.operands.isNone)
  then s.leaveAccess core i
  else if s.canCancel core i then s.cancelAccess core i else s
/-- A save begins: no context issues again; what can be withdrawn is. The core remembers when it stopped. -/
def execSlotSave (s : State) : Res :=
  runEvent .slotSave s fun e s =>
    match e with
    | .slotSave chip row =>
      let core := coreOfLocal chip row
      let v := s.row chip row
      if !v.getLsbD 255 || recAction v ≠ 2 then s
      else if !s.coreUp chip row then s.endAction chip row 2
      else if (s.group core).launch = 0 then s.endAction chip row 1
      else
        let s := s.modCore core fun c => { c with stop := 1 + s.mesh }
        (List.range 11).foldl (fun s i => s.withdraw core i) s
    | _ => s
/-- Whether a porter queue has no command under way: nothing moved, nothing to be acknowledged, and no record whose status is still to
be written. -/
def Queue.idle (x : Queue) : Bool :=
  x.run == {} && (match x.items with
    | .chain c none _ :: _ => c.phase != 2 && c.phase != 4 && c.phase != 5
    | _ => true)
/-- How many requests of an engine's operation wait for an absent partition (R114, R237): the posted ones, the others. -/
def State.absentWaits (s : State) (core launch q : Nat) : Nat × Nat :=
  let mine := (s.core core).backoffs.filterMap fun m => match m with
    | .mem m => if m.actor.engine != .context && m.actor.who.launch == launch && engineQueue m.actor == q then some m.posted else none
    | .sync _ => none
  ((mine.filter id).length, (mine.filter (!·)).length)
/-- Whether everything that an engine's operation has outstanding waits for an absent partition; it goes on waiting while the group is
saved. -/
def State.rests (s : State) (core q : Nat) : Bool :=
  let g := s.group core
  let r := (g.queue q).run
  let w := s.absentWaits core g.launch q
  r.acks == w.1 && (!r.waiting || w.2 != 0)
/-- Whether a running command may be suspended at its next unit: what it waits for is an absent partition or a mark entry (R211). -/
def State.suspendable (s : State) (core q : Nat) : Bool :=
  let x := (s.group core).queue q
  s.rests core q && x.run.fail.isNone && !(s.porterStart core q).2 && !(s.chainRun core q).2
    && (x.run.acks != 0 || x.run.waiting || (match x.head with
        | none => true
        | some c => !(s.markRoom core true) || (s.receivers c c.actor).any fun p =>
            match s.launchGroup p.2.1 c.actor.who.launch with
            | some g => g.absent
            | none => false))
/-- Whether a firing waits as R218 lets it: a porter command or a channel send. -/
def State.firingRests (s : State) (core : Nat) : Bool :=
  let g := s.group core
  g.firings.isEmpty || ((s.headKind core == 1 || s.headKind core == 7) && s.rests core firedQueue && !(s.firedRun core).2)
/-- Whether a context can be saved at its instruction: nothing outstanding that could not be withdrawn or has not come back, no ranged
maintenance under way (R130). -/
def State.canSaveCtx (s : State) (core i : Nat) : Bool :=
  let c := s.ctx core i
  c.status == .free || (c.maint.isEmpty && (s.canLeave core i || c.spawnReply.isSome))
/-- Whether the stop phase of a save has ended (R260). -/
def State.stopDone (s : State) (core : Nat) : Bool :=
  let g := s.group core
  (s.core core).stop != 0 && (s.core core).mmas.isEmpty
    && ((List.range 4).all fun q => (g.queue q).idle || s.suspendable core q)
    && s.firingRests core
    && ((List.range 11).all fun i => s.canSaveCtx core i)
    && (g.lent.all fun p => s.canWake ⟨core, p.1, g.launch⟩)
/-- The image of a context in a save area: an answer that has come back stays with it. -/
def Ctx.savedImage (c : Ctx) : Ctx :=
  { c.image with
    access := c.access.filter fun a => a.need == 0 || c.spawnReply.isSome
    spawnReply := c.spawnReply, unacked := c.unacked }
/-- A group as its save area holds it (R261). -/
def Group.savedImage (g : Group) : Group :=
  { g with ctxs := ⟨g.ctxs.list.map fun p => (p.1, p.2.savedImage)⟩ }
/-- The 4,608 bytes of a context's image (R69). -/
def Ctx.imageBytes (c : Ctx) : List Byte :=
  let flag (b : Bool) (i : Nat) : Nat := if b then 2 ^ i else 0
  let port (q : Nat) : Nat :=
    let p := c.port (BitVec.ofNat 3 q)
    p.kind % 16 + flag p.ended 4 + p.idx % 256 * 2 ^ 8 + p.drains.toNat * 2 ^ 16
  leBytes 8 c.pc.toNat ++ leBytes 8 (2 ^ 16 * c.lo + c.wb)
    ++ leBytes 8 (c.holds.toNat + flag c.token 32 + flag (c.follow.any (·.active)) 33 + flag c.task.isSome 34)
    ++ leBytes 8 c.rng.toNat ++ ((List.range 4).flatMap fun i => leBytes 8 (Cells.get (0 : Word) c.tscr i).toNat)
    ++ ((List.range 31).flatMap fun i => leBytes 8 (c.s (BitVec.ofNat 5 (i + 1))).toNat)
    ++ leBytes 8 (match c.bar with
      | some (e, d) => 2 ^ 63 + e % 2 ^ 31 * 2 ^ 32 + d % 2 ^ 17
      | none => 0)
    ++ ((List.range 7).flatMap fun i => leBytes 16 (c.mask (BitVec.ofNat 3 (i + 1))).toNat) ++ leBytes 16 0
    ++ ((List.range 8).flatMap fun q => leBytes 8 (port q))
    ++ (List.range 32).flatMap fun i => leBytes 128 (c.vreg (BitVec.ofNat 5 i)).toNat
/-- The images of the live contexts in a save area, in the order of their indices (R69, R260; log 32). -/
def State.writeImages (s : State) (core : Nat) (g : Group) : State :=
  let live := g.ctxs.list.filter fun p => p.2.status != .free
  { s with store := s.store.setBytes (vaultKey (chipOf core) g.save) (live.flatMap fun p => p.2.imageBytes) }
/-- The write phase: lent tasks go back, the group's state is in its save area, the core is free for the next bind. -/
def State.saveGroup (s : State) (chip row : Nat) : State :=
  let core := coreOfLocal chip row
  let s := (s.group core).lent.foldl (fun s p => s.preemptTask core p.1) s
  let s := (List.range 11).foldl (fun s i => s.withdraw core i) s
  let g := (s.group core).savedImage
  let s := (s.account g.launch).writeImages core g
  let slow := quantumCycles < s.mesh + 1 - (s.core core).stop
  let s := s.modCore core fun c => { c with
    group := {}, saved := c.saved ++ [g], stop := 0, keeps := []
    waiters := c.waiters.filter fun w => !(w.isLocal && w.msg.actor.who.launch == g.launch) }
  let s := (if slow then s.bump .slowSave else s).endAction chip row 0
  let l := s.launch g.launch
  if l.live.all fun c => ((s.core c).savedOf g.launch).isSome then
    (s.modLaunch g.launch fun l => { l with stage := .saved, boundAt := s.mesh }).grants false
  else s
def execSaveWritePhase (s : State) : Res :=
  runEvent .saveWritePhase s fun e s =>
    match e with
    | .saveWritePhase chip row => if s.stopDone (coreOfLocal chip row) then s.saveGroup chip row else s
    | _ => s

/-! ## Resume (R37, R69, R221, R263) -/

/-- Bytes and line bits of a partition in its eviction block (R263). -/
def State.blockKey (s : State) (n core : Nat) : Nat :=
  let l := s.launch n
  physKey ((l.evict.getD 0) + (2 ^ l.lw * (coreY core - l.y0) + (coreX core - l.x0)) * evictBytes)
/-- What a table holds for the words or lines of a partition, by offset: `key` is the table's key of a storage key, `unit` the bytes of
an entry (R137, R143). -/
def partCells {α : Type} (m : Cells α) (key : Nat → Nat) (unit core : Nat) (gmap : BitVec 24) (part : Nat) : List (Nat × α) :=
  (List.range part).flatMap fun i =>
    let lo := key (scratchKey core (gmapOff gmap (i * 2 ^ 18)))
    (m.list.filter fun p => lo ≤ p.1 && p.1 < lo + 2 ^ 18 / unit).map fun p => (i * 2 ^ 18 + unit * (p.1 - lo), p.2)
/-- A group whose partition is evicted keeps its marks and releases (R137, R144). -/
def State.park (s : State) (core : Nat) (g : Group) : Group :=
  { g with
    absent := true
    parked := partCells s.store.marks (· / 4) 4 core g.gmap g.part
    parkedRels := partCells s.store.rels (· / 4) 4 core g.gmap g.part
      ++ (partCells s.store.rels lineRelKey 128 core g.gmap g.part).map fun p => (p.1 + 2 ^ 22, p.2) }
/-- They come back with the partition. -/
def State.unpark (s : State) (core : Nat) (gmap : BitVec 24) (g : Group) : State :=
  let k (off : Nat) : Nat := scratchKey core (gmapOff gmap off)
  { s with store := { s.store with
      marks := g.parked.foldl (fun m p => Cells.set [] m (k p.1 / 4) p.2) s.store.marks
      rels := g.parkedRels.foldl (fun m p =>
        Cells.set none m (if p.1 < 2 ^ 22 then k p.1 / 4 else lineRelKey (k (p.1 - 2 ^ 22))) p.2) s.store.rels } }
/-- A partition comes back from its eviction block. -/
def State.restorePartition (s : State) (core n : Nat) (gmap : BitVec 24) (part : Nat) : State :=
  let k := s.blockKey n core
  let s := (s.zeroGranules core gmap part).fillPartition core gmap part (s.store.bytes k (part * 2 ^ 18))
  (List.range (part * 2048)).foldl (fun s i =>
    let b := s.store.mem.read (k + part * 2 ^ 18 + i / 8)
    { s with store := s.store.setEmpty (scratchKey core (gmapOff gmap (128 * i))) (!b.getLsbD (i % 8)) }) s
/-- A saved context as it resumes: ready at its instruction; follow mode goes on only if R41 would let it. -/
def State.resumed (s : State) (core epoch now : Nat) (i : Nat) (c : Ctx) : Ctx :=
  { c with
    acquireEpoch := Nat.min c.acquireEpoch epoch
    eligible := now + 1
    follow := match c.follow with
      | some f => if f.active && s.canFollow core i && (s.ctx f.leader i).pc == c.pc then some { f with trail := [] } else none
      | none => none }
/-- Resume a saved group. Drain markers that came for it meanwhile reach its readers now (R59); side-logged stores whose pages have
been found meanwhile are replayed (R261). -/
def State.resumeGroup (s : State) (core : Nat) (v : BitVec 256) : State :=
  let n := recLaunch v
  match (s.core core).savedOf n with
  | none => s
  | some g =>
    let s := s.account n
    let s := if g.absent then (s.restorePartition core n (recGmap v) g.part).unpark core (recGmap v) g else s
    let g : Group := { g with gmap := recGmap v, absent := false, parked := [], parkedRels := [], boundSeq := s.nextAgent }
    let s := s.modCore core fun c => { c with
      group := g, stop := 0, keeps := [], mmas := []
      saved := c.saved.filter fun x => x.launch != n }
    let c := s.core core
    let s := s.modGroup core fun g => { g with ctxs := ⟨g.ctxs.list.map fun p =>
      (p.1, s.resumed core c.epoch c.cycle.toNat p.1 p.2)⟩ }
    let s := ((s.group core).chans.keys.foldl (fun s n => s.reachChan core n) s).replayLog core n
    if s.openLaunches.contains n && (s.launch n).cores.all fun c => match (s.core c).savedOf n with
      | some g => !g.absent
      | none => true
    then s.modLaunch n fun l => { l with evict := none } else s
def execSlotResume (s : State) : Res :=
  runEvent .slotResume s fun e s =>
    match e with
    | .slotResume chip row =>
      let core := coreOfLocal chip row
      s.act chip row 3
        (fun v => (s.group core).launch == 0 && recGrantOk v && (s.core core).granulesOk v
          && ((s.core core).savedOf (recLaunch v)).any fun g => g.gname == (recGroup v).gname)
        fun v s => s.resumeGroup core v
    | _ => s

/-! ## Eviction (R120, R263) -/

/-- The bits of lines, full as one, lowest first. -/
def fullBytes : List Bool → List Byte
  | a :: b :: c :: d :: e :: f :: g :: h :: t =>
    BitVec.ofNat 8 (([a, b, c, d, e, f, g, h].zip [1, 2, 4, 8, 16, 32, 64, 128]).foldl (fun acc p => if p.1 then acc else acc + p.2) 0)
      :: fullBytes t
  | _ => []
/-- Copy a resident partition of a saved launch to its block, then zero its granules; its marks and releases stay with the group (R144).
Where none is resident there is nothing to do. -/
def State.evictPartition (s : State) (core n : Nat) : State :=
  match (s.core core).savedOf n with
  | none => s
  | some g =>
    if g.absent then s
    else
    let k := s.blockKey n core
    let data := (List.range g.part).flatMap fun i => s.store.bytes (scratchKey core (gmapOff g.gmap (i * 2 ^ 18))) (2 ^ 18)
    let bits := (List.range (g.part * 2048)).map fun i => s.store.isEmpty (scratchKey core (gmapOff g.gmap (128 * i)))
    let st := s.store.setBytes k (data ++ fullBytes bits)
    let parked := s.park core g
    (({ s with store := st }).zeroGranules core g.gmap g.part).modLaunchGroup core n fun _ => parked
def execSlotEvictPartition (s : State) : Res :=
  runEvent .slotEvictPartition s fun e s =>
    match e with
    | .slotEvictPartition chip row =>
      let core := coreOfLocal chip row
      (s.act chip row 4 (fun _ => true) fun v s => s.evictPartition core (recLaunch v)).grants false
    | _ => s

/-! ## Reset stop and retire (R259, R265) -/

/-- Stop a group at once, with no save: contexts end, an `mma` is abandoned with its lines full, queues and firings are
discarded. -/
def State.stopGroup (s : State) (core : Nat) : State :=
  let s := (s.core core).mmas.foldl (fun s m => s.releaseClaims core m none) s
  let n := (s.group core).launch
  let s := s.modCore core fun c => { c.dropWaits s.myPanel n with mmas := [], keeps := [], stop := 0 }
  s.modGroup core fun g => { g with
    ctxs := Cells.empty, entries := Cells.empty, crossed := [], firings := [], queues := Cells.empty, lent := [],
    taskBusy := [], suspended := [], sideLog := [], lqs := Cells.empty, fifos := Cells.empty, progs := Cells.empty }
/-- A reset of a tenant stops the group of a core through its row, at once (R265). -/
def State.resetRow (s : State) (core : Nat) : State :=
  let chip := chipOf core
  let row := localIdx core
  let g := s.group core
  let v := slotRecord 5 g.tgen g.tenant g.launch g.gname.toNat g.save g.gmap.toNat g.part g.helpers g.r
  ((({ s with tables := { s.tables with slott := Cells.set 0 s.tables.slott (8 * chip + row) v } } : State).stopGroup core)).endAction
    chip row 0
def execSlotResetStop (s : State) : Res :=
  runEvent .slotResetStop s fun e s =>
    match e with
    | .slotResetStop chip row =>
      let core := coreOfLocal chip row
      s.act chip row 5 (fun _ => true) fun _ s => s.stopGroup core
    | _ => s
/-- Retire a row: the group, bound or saved, leaves the core with its partition; the firmware binds onto the freed core
(R255). -/
def execSlotRetire (s : State) : Res :=
  runEvent .slotRetire s fun e s =>
    match e with
    | .slotRetire chip row =>
      let core := coreOfLocal chip row
      (s.act chip row 6 (fun _ => true) fun v s => s.modCore core fun c => c.dropLaunch s.myPanel (recLaunch v)).grants false
    | _ => s

/-! ## Groups and launches retire (R34, R253, R273) -/

/-- Whether a launch has no task queued, fetching, running or writing back. -/
def State.tasksDone (s : State) (n : Nat) : Bool :=
  (s.launch n).tasks.isEmpty && (s.groups.all fun p => p.2.launch != n || p.2.taskBusy.isEmpty)
/-- Whether the bound group of a core retires. -/
def State.canRetire (s : State) (core : Nat) : Bool :=
  let g := s.group core
  g.launch != 0 && (s.core core).stop == 0 && ((List.range 11).all fun i => (g.ctx i).status == .free) && g.lent.isEmpty
    && ((List.range 4).all fun q => (g.queue q).items.isEmpty) && s.tasksDone g.launch
/-- A group retires; with the last one its launch, with status 0. -/
def State.retireGroup (s : State) (core : Nat) : State :=
  let n := (s.group core).launch
  let s := s.account n
  let s := (s.writeRow (chipOf core) (localIdx core) (slotRecord 6 0 0 n 0 0 0 0 0 0)).modCore core fun c => c.dropLaunch s.myPanel n
  let s := s.modLaunch n fun l => { l with live := l.live.erase core }
  if (s.launch n).live.isEmpty then s.retireWith n 0 else s
def execGroupRetire (s : State) : Res :=
  runEvent .groupRetire s fun e s =>
    match e with
    | .groupRetire core => if s.canRetire core then s.retireGroup core else s
    | _ => s

end Sys2Proof.Machine
end

