-- ==== Sys2Proof/Machine/Services.lean ====
section
/-! DEFINITION. Sys2Proof/Machine/Services.lean: the firmware's services of `ecall` (R131, R132, R269, R328, R357): domain switch, meter
record, handler table; changes of address ranges with their zeroing (R264). -/
namespace Sys2Proof.Machine

/-! ## The caller's memory (R357) -/

/-- Whether the flags of a leaf permit an access: bit 2 r, bit 3 w, bit 4 x (R282). -/
def flagsAllow (flags : Nat) (write : Bool) : Bool :=
  if write then flags.testBit 3 && !flags.testBit 4 else flags.testBit 2
/-- The key of the byte that an agent's address names, through the TLB or a walk; none where it may not be accessed. -/
def State.svcKey (s : State) (a : Actor) (va : Word) (write : Bool) : Option Nat :=
  let key (t : Tgt) : Option Nat :=
    match s.locate a write t.place t.byte with
    | .key k => if aliasOf t then none else some (k + t.byte)
    | _ => none
  match s.resolve a va 1 (if write then .store else .load) with
  | .ok t => key t
  | .error .miss =>
    (match s.globalOf a va with
     | none => none
     | some g =>
       match s.walk a.tenant g with
       | .leaf size pa flags =>
         if flagsAllow (s.codeFlags a.who.launch g flags) write then
           (match s.resolvePhys (pa + g % 2 ^ pageBits size) va.toNat 1 true with
            | .ok t => key t
            | .error _ => none)
         else none
       | _ => none)
  | .error _ => none
/-- Bytes of a line at its key, with the dirty words of the caller's L1 (log 10). -/
def State.svcLine (s : State) (core k n : Nat) : List Byte :=
  let l := (s.core core).line (k / 128 * 128)
  let line := mergeLine (byteMask l.dirty) l.data (s.store.line (k / 128 * 128))
  (List.range n).map fun i => lineByte line (k % 128 + i)
/-- Read the caller's bytes piece by piece. -/
def State.svcPieces (s : State) (a : Actor) : List (Nat × Nat) → Option (List Byte)
  | [] => some []
  | (va, n) :: t =>
    match s.svcKey a (BitVec.ofNat 64 va) false, s.svcPieces a t with
    | some k, some bs => some (s.svcLine a.who.core k n ++ bs)
    | _, _ => none
/-- Read bytes of the caller. -/
def State.svcRead (s : State) (a : Actor) (va : Word) (n : Nat) : Option (List Byte) := s.svcPieces a (pieces va.toNat n)
/-- The keys of pieces that may be written. -/
def State.svcKeys (s : State) (a : Actor) : List (Nat × Nat) → Option (List (Nat × Nat))
  | [] => some []
  | (va, n) :: t =>
    match s.svcKey a (BitVec.ofNat 64 va) true, s.svcKeys a t with
    | some k, some ks => some ((k, n) :: ks)
    | _, _ => none
/-- Write bytes of the caller; none where one may not be written. The caller's L1 gives up its copies. -/
def State.svcWrite (s : State) (a : Actor) (va : Word) (bs : List Byte) : Option State :=
  (s.svcKeys a (pieces va.toNat bs.length)).map fun ks =>
    (ks.foldl (fun (acc : State × List Byte) p =>
      ((acc.1.dropL1 a.who.core (p.1 / 128 * 128)).poke p.1 (acc.2.take p.2), acc.2.drop p.2)) (s, bs)).1
/-- The caller of a service as an agent. -/
def State.caller (s : State) (w : Who) : Actor :=
  let g := (s.launchGroup w.core w.launch).getD {}
  { s.actor w.core w.ctx with who := w, tenant := g.tenant, tgen := g.tgen }

/-! ## Address ranges (R126, R127, R264) -/

/-- Entries of a table whose key passes a test. -/
def keepCells {α : Type} (m : Cells α) (f : Nat → Bool) : Cells α := ⟨m.list.filter fun p => f p.1⟩
/-- New values of the range and domain registers: addresses whose owning tenant changes become zero, with their metadata, before
anything else sees them (R264). -/
def State.setRanges (s : State) (arr : Cells (BitVec 128)) : State :=
  let t : Tables := { s.tables with arr := arr }
  let keeps (pal : Nat) : Bool := vaultBase ≤ pal || s.tables.ownerOf pal == t.ownerOf pal
  { s with
    tables := t
    store := { s.store with
      mem := keepCells s.store.mem keeps
      poison := keepCells s.store.poison fun q => keeps (64 * q)
      meta32 := keepCells s.store.meta32 fun q => keeps (64 * q)
      sectors := keepCells s.store.sectors fun q => keeps (64 * q)
      rels := keepCells s.store.rels fun q => lineRelKey 0 ≤ q || keeps (4 * q)
      marks := keepCells s.store.marks fun q => keeps (4 * q) } }

/-! ## The domain switch (R131, R132, R133) -/

/-- A range rewrite: register, domain, base, limit. -/
structure Rewrite where
  arr : Nat
  dom : Nat
  base : Nat
  limit : Nat
deriving DecidableEq, Repr
/-- A domain definition. -/
structure DomDef where
  dom : Nat
  n : Nat
  sbase : Nat
  sstride : Nat
  rows : List Nat
deriving DecidableEq, Repr
/-- The rewrites of a record. -/
def switchRewrites (x : Nat) : List Rewrite :=
  (List.range (field x 0 1)).map fun i =>
    let o := 8 + 24 * i
    ⟨field x o 1, field x (o + 1) 1, field x (o + 8) 8, field x (o + 16) 8⟩
/-- The definitions of a record. -/
def switchDefs (x : Nat) : List DomDef :=
  (List.range (field x 1 1)).map fun i =>
    let o := 0x40 + 104 * i
    ⟨field x o 1, field x (o + 1) 1, field x (o + 4) 2, field x (o + 6) 2, (List.range 12).map fun k => field x (o + 8 + 8 * k) 8⟩
/-- The value of a register after a rewrite by a tenant. -/
def rewriteArr (panel tenant : Nat) (r : Rewrite) : BitVec 128 :=
  BitVec.ofNat 128 (2 ^ 127 + r.dom * 2 ^ 120 + tenant * 2 ^ 104 + (r.limit - panel * 2 ^ 46) / 2 ^ 16 * 2 ^ 64
    + (r.base - panel * 2 ^ 46) / 2 ^ 16)
/-- Whether two half-open ranges overlap. -/
def overlap (a b c d : Nat) : Bool := a < d && c < b
/-- Whether a record is good (R131, status 1). -/
def State.switchOk (s : State) (tenant x : Nat) : Bool :=
  let rs := switchRewrites x
  let ds := switchDefs x
  let lo := s.myPanel * 2 ^ 46
  field x 0 1 ≤ 2 && field x 1 1 ≤ 2 && field x 2 6 == 0 && field x 0x38 8 == 0 && field x 0x110 48 == 0
    && ((List.range rs.length).all fun i => field x (8 + 24 * i + 2) 6 == 0)
    && ((List.range ds.length).all fun i => field x (0x40 + 104 * i + 2) 2 == 0)
    && (rs.map (·.arr)).eraseDups.length == rs.length && (ds.map (·.dom)).eraseDups.length == ds.length
    && (rs.all fun r => r.arr < 16 && r.dom < 16 && r.base % 2 ^ 16 == 0 && r.limit % 2 ^ 16 == 0 && r.base < r.limit
        && lo ≤ r.base && r.limit ≤ lo + 2 ^ 46)
    && (ds.all fun d => d.dom < 16 && d.n ≤ 12 && (d.rows.all fun h => h < 2 ^ 44)
        && d.sbase + (2 ^ d.n - 1) * d.sstride < 4096)
    && ((List.range rs.length).all fun i => (List.range rs.length).all fun j =>
        match rs[i]?, rs[j]? with
        | some a, some b => i == j || !overlap a.base a.limit b.base b.limit
        | _, _ => true)
    && (rs.all fun r => (List.range 16).all fun i =>
        let a := s.tables.arrOf i
        (rs.any fun q => q.arr == i) || !(arrValid a && arrTenant a == tenant)
          || !overlap r.base r.limit (lo + arrBase a * 2 ^ 16) (lo + arrLimit a * 2 ^ 16))
/-- Whether a valid range of another tenant is in the way (R131, status 2); a range owned by no tenant is not. -/
def State.switchInUse (s : State) (tenant x : Nat) : Bool :=
  let rs := switchRewrites x
  let doms := rs.map (·.dom) ++ (switchDefs x).map (·.dom)
  let lo := s.myPanel * 2 ^ 46
  let arrs := (List.range 16).map s.tables.arrOf
  let other (a : BitVec 128) : Bool := arrValid a && arrTenant a != tenant && arrTenant a != 0
  (rs.any fun r => other (s.tables.arrOf r.arr))
    || (arrs.any fun a => other a && doms.contains (arrDomain a))
    || (rs.any fun r =>
      let edges := (r.base - lo) :: (arrs.flatMap fun a => [arrBase a * 2 ^ 16, arrLimit a * 2 ^ 16]).filter fun e =>
        r.base - lo ≤ e && e < r.limit - lo
      edges.any fun e => match s.tables.decides e with
        | some a => arrTenant a != tenant && arrTenant a != 0 && arrTenant a != 0xFFFF
        | none => false)
/-- The panel-local ranges that a request affects: the new ones, those of the rewritten registers, those of changed domains. -/
def State.affected (s : State) (x : Nat) : List (Nat × Nat) :=
  let rs := switchRewrites x
  let ds := (switchDefs x).map (·.dom)
  let lo := s.myPanel * 2 ^ 46
  (rs.map fun r => (r.base - lo, r.limit - lo))
    ++ ((List.range 16).filterMap fun i =>
      let a := s.tables.arrOf i
      if arrValid a && ((rs.any fun r => r.arr == i) || ds.contains (arrDomain a)) then
        some (arrBase a * 2 ^ 16, arrLimit a * 2 ^ 16) else none)
/-- Whether a panel-local address lies in a range. -/
def inRanges (rs : List (Nat × Nat)) (k : Nat) : Bool := rs.any fun r => r.1 ≤ k && k < r.2
/-- Whether an affected range holds a dirty sector (status 3). -/
def State.dirtyIn (s : State) (rs : List (Nat × Nat)) : Bool :=
  s.store.sectors.list.any fun p => p.2.dirty && 64 * p.1 < vaultBase && inRanges rs (64 * p.1)
/-- A request in flight to a range becomes a replay completion. -/
def replayed (s : State) (rs : List (Nat × Nat)) (e : Event) : Event :=
  match e with
  | .memoryRequest m =>
    if (opParts m.op).any fun p => match p.place with
      | .phys pa => pa / 2 ^ 46 == s.myPanel && inRanges rs (pa % 2 ^ 46)
      | _ => false
    then .replayCompletion m else .memoryRequest m
  | e => e
/-- The registers that a request affects: the rewritten ones and those that map to a changed domain. -/
def State.switchArrs (s : State) (x : Nat) : List Nat :=
  let rs := switchRewrites x
  let ds := (switchDefs x).map (·.dom)
  (List.range 16).filter fun i =>
    let a := s.tables.arrOf i
    arrValid a && ((rs.any fun r => r.arr == i) || ds.contains (arrDomain a))
/-- Step 2: switching is set in the affected registers; requesters hold new requests to their ranges (R126, R132). -/
def State.switchStart (s : State) (w : Who) (tenant x : Nat) : State :=
  { s with
    switch := some ⟨w, tenant, x⟩
    tables := { s.tables with arr := (s.switchArrs x).foldl (fun m i =>
      Cells.set 0 m i (Cells.get 0 m i ||| (1#128 <<< 126))) s.tables.arr } }
/-- Whether the old home slices have no open transaction and no fetch on the ranges (step 3). -/
def State.switchQuiet (s : State) (x : Nat) : Bool :=
  let rs := s.affected x
  s.store.sectors.list.all fun p =>
    !(64 * p.1 < vaultBase && inRanges rs (64 * p.1)) || (p.2.busy.isNone && !p.2.fetching && p.2.queued.isEmpty)
/-- Steps 3 and 4: the old slices give up their sectors, new registers are written, switching is cleared, requests in flight replay. -/
def State.switchDomains (s : State) (tenant x : Nat) : State :=
  let rs := s.affected x
  let s := { s with
    store := { s.store with sectors := keepCells s.store.sectors fun q => !(64 * q < vaultBase && inRanges rs (64 * q)) }
    agenda := s.agenda.map (replayed s rs) }
  let t := s.tables
  let s := { s with tables := { t with
    dom := (switchDefs x).foldl (fun m (d : DomDef) =>
      Cells.set 0 m d.dom (BitVec.ofNat 32 (d.n * 2 ^ 28 + d.sstride % 2 ^ 12 * 2 ^ 16 + d.sbase))) t.dom
    hash := (switchDefs x).foldl (fun m (d : DomDef) => ((List.range 12).zip d.rows).foldl (fun m (p : Nat × Nat) =>
      Cells.set 0 m (12 * d.dom + p.1) (BitVec.ofNat 64 p.2)) m) t.hash
    replayMarks := t.replayMarks ++ rs } }
  let clear := s.tables.arr.keys.foldl (fun m i => Cells.set 0 m i (Cells.get 0 m i &&& ~~~(1#128 <<< 126))) s.tables.arr
  ({ s with switch := none }.setRanges
    ((switchRewrites x).foldl (fun m (r : Rewrite) => Cells.set 0 m r.arr (rewriteArr s.myPanel tenant r)) clear)).post .replayMarkRemoval
/-- The switch in progress ends once the old slices are quiet. -/
def State.switchEnd (s : State) : State :=
  match s.switch with
  | some w => if s.switchQuiet w.record then (s.switchDomains w.tenant w.record).service w.who 0 else s
  | none => s
/-- The service 0x40. -/
def State.domainService (s : State) (w : Who) (addr : Word) : State :=
  let a := s.caller w
  match (if addr.toNat % 64 ≠ 0 then none else s.svcRead a addr 320) with
  | none => s.service w 1
  | some bs =>
    let x := leNat bs
    if !s.switchOk a.tenant x then s.service w 1
    else if s.switch.isSome then s.service w 4
    else if s.switchInUse a.tenant x then s.service w 2
    else if s.dirtyIn (s.affected x) then s.service w 3
    else (s.switchStart w a.tenant x).switchEnd
/-- A request for a switch, or the end of the one that its caller has begun. -/
def execDomainSwitch (s : State) : Res :=
  runEvent .domainSwitch s fun e s =>
    match e with
    | .domainSwitch w _ addr => if s.switch.any fun x => x.who == w then s.switchEnd else s.domainService w addr
    | _ => s
/-- The replay marks go once the requests that were in flight have drained. -/
def execReplayMarkRemoval (s : State) : Res :=
  runEvent .replayMarkRemoval s fun _ s => { s with tables := { s.tables with replayMarks := [] } }

/-! ## Meter records (R269) -/

/-- Big-endian bytes of a number. -/
def beBytes (n x : Nat) : List Byte := (leBytes n x).reverse
/-- The first 8 bytes of the digest of the identity public key. -/
def deviceId : List Byte := (Config.sha512 (beBytes 133 Config.identityKey.toNat)).take 8
/-- The signed record of a tenant with its next sequence number. -/
def State.meterRecord (s : State) (t : Nat) (nonce : List Byte) (final : Bool) : State × List Byte :=
  let x := s.tenant t
  let seq := x.meterSeq + 1
  let body := leBytes 4 0x4D455452 ++ leBytes 2 1 ++ leBytes 2 t ++ deviceId ++ leBytes 8 seq ++ leBytes 8 (s.mesh / 3) ++ nonce
    ++ [BitVec.ofNat 8 s.myPanel, if final then 1 else 0] ++ leBytes 6 0
    ++ ((List.range 11).flatMap fun i => leBytes 8 (Cells.get (0 : Word) x.meters i).toNat)
    ++ leBytes 8 x.gen.toNat ++ leBytes 8 x.resets ++ leBytes 104 0
  (s.modTenant t fun x => { x with meterSeq := seq }, body ++ beBytes 132 (Config.signature (Config.sha512 body)).toNat)
/-- The service 0x43. -/
def State.meterService (s : State) (w : Who) (addr : Word) : State :=
  let a := s.caller w
  if addr.toNat % 64 ≠ 0 || (s.svcKeys a (pieces addr.toNat 388)).isNone then s.service w 1
  else
    match s.svcRead a (addr + 0x20) 8 with
    | none => s.service w 1
    | some nonce =>
      let (s', bs) := s.meterRecord a.tenant nonce false
      match s'.svcWrite a addr bs with
      | some s' => s'.service w 0
      | none => s.service w 1
def execMeterRecordService (s : State) : Res :=
  runEvent .meterRecordService s fun e s =>
    match e with
    | .meterRecordService w _ addr => s.meterService w addr
    | _ => s

/-! ## Handler tables (R328) -/

/-- Whether an address lies in a code page of a launch: an executable page by the TLB or the tables. -/
def State.codePage (s : State) (a : Actor) (va : Word) : Bool :=
  if 2 ^ 52 ≤ va.toNat then false
  else
    match tlbFind (s.core a.who.core).tlb a.who.launch (threadSlot (s.group a.who.core).rect.toNat a.who.core a.who.ctx) va.toNat with
    | some e => dataX e.2
    | none =>
      match s.walk a.tenant va.toNat with
      | .leaf _ _ flags => (s.codeFlags a.who.launch va.toNat flags).testBit 4
      | _ => false
def execHandlerTableInstall (s : State) : Res :=
  runEvent .handlerTableInstall s fun e s =>
    match e with
    | .handlerTableInstall w _ addr =>
      if addr.toNat % 1024 = 0 && s.codePage (s.caller w) addr then
        (s.modLaunchGroup w.core w.launch fun g => { g with trapvec := addr }).service w 0
      else s.service w 1
    | _ => s

end Sys2Proof.Machine
end

