-- ==== Sys2Proof/Machine/Collectives.lean ====
section
/-! DEFINITION. Sys2Proof/Machine/Collectives.lean: the services 0x41 and 0x42 of `ecall`, which build and release a collective (R222,
R357), and the removal of members whose panel is unreachable (R226). Whether and when members on other panels call
is a free value (log 40). -/
namespace Sys2Proof.Machine

/-- Whether a descriptor is good for a caller of a launch (R222, R224). -/
def Collective.good (c : Collective) (panel : Nat) (g : Group) (core : Nat) : Bool :=
  let kind := c.kind
  let op := c.num 1 1
  let ty := c.num 2 1
  let moves := kind == 3 || kind == 5
  let own (a : Nat) : Bool := a / 2 ^ 22 == 2 ^ 63 / 2 ^ 22
  1 ≤ kind && kind ≤ 5 && c.num 6 2 == 0 && c.num 0x11 7 == 0 && c.num 0x70 16 == 0
    && (if moves then op == 0 else op ≤ 3 && [2, 8, 10].contains ty && (op != 3 || ty == 10))
    && c.num 3 1 < 64 && c.num 4 1 < 64 && g.cmask.getLsbD (c.num 3 1) && g.cmask.getLsbD (c.num 4 1)
    && subgroupOk g.rect.toNat c.desc && (subgroupCores g.rect.toNat c.desc).contains core
    && 1 ≤ c.num 0x10 1 && c.num 0x10 1 ≤ 64 && (c.panels.all fun p => p < 64) && c.panels.eraseDups.length == c.panels.length
    && c.panels.contains panel && (kind != 1 || c.num 5 1 < c.full)
    && c.bytesEach % 128 == 0 && c.bytesEach ≤ 2 ^ 20
    && own (c.num 0x18 8) && c.num 0x18 8 % 128 == 0 && c.buffer + c.bufLen ≤ g.part * 2 ^ 18
    && own (c.num 0x28 8) && c.num 0x28 8 % 8 == 0 && c.statusAt + 8 ≤ g.part * 2 ^ 18
/-- The highest entry of a group that is free for the firmware. -/
def Group.lastEntry (g : Group) : Option Nat :=
  (List.range 64).reverse.find? fun i => g.emask.getLsbD i && !(g.entry i).armed
/-- The entry of a member: it fires at the next increment of the start counter. -/
def Collective.entry (c : Collective) (g : Group) (m : Nat) (a : Actor) : Entry :=
  { armed := true, ctr := c.startCtr, thr := g.kval c.startCtr + 1, stride := 1, rearm := true,
    record := collRecord c.id m, ctx := 0, actor := some a }
/-- Arm the entry of a member and write its status word. -/
def State.buildMember (s : State) (launch : Nat) (c : Collective) (m core : Nat) : State :=
  let (s, a) := s.engineActor core 0 .fired
  let g := s.group core
  match g.lastEntry with
  | none => s
  | some i =>
    let s := s.modGroup core fun g =>
      { g.setEntry i (c.entry g m a) with emask := g.emask &&& ~~~(1#64 <<< i) }
    (s.modColl launch c.id fun c => { c with taken := c.taken ++ [(core, 0, 1#64 <<< i)] }).putWord core g c.statusAt (c.status 0)
/-- Answer every own member's call. -/
def State.answerMembers (s : State) (launch : Nat) (cores : List Nat) (status : Nat) : State :=
  cores.foldl (fun s k => s.service ⟨k, 0, launch⟩ status) s
/-- Every member has called: build, or answer 2 where a member has no free entry. -/
def State.buildAll (s : State) (launch : Nat) (c : Collective) : State :=
  let ms := c.own s.myPanel (s.launch launch).rect.toNat
  let cores := ms.map (·.2)
  if ms.all fun p => (s.group p.2).lastEntry.isSome then
    let s := s.modColl launch c.id fun _ => { c with built := true, waiting := [] }
    (ms.foldl (fun s p => s.buildMember launch c p.1 p.2) s).answerMembers launch cores 0
  else
    (s.modLaunch launch fun l => { l with colls := l.colls.filter fun x => x.id != c.id }).answerMembers launch cores 2
/-- Every member of this panel has called: the members of the other panels have not called yet, have, or cannot (log 40). -/
def State.askPeers (s : State) (launch : Nat) (c : Collective) : State :=
  let x := Config.peerCalls s.tick % 3
  let s := s.ticked
  if x = 0 then s
  else if x = 1 then s.buildAll launch c
  else (s.modLaunch launch fun l => { l with colls := l.colls.filter fun x => x.id != c.id }).answerMembers launch
    ((c.own s.myPanel (s.launch launch).rect.toNat).map (·.2)) 3
/-- The service 0x41; the call is repeated while members of other panels have still to call. -/
def State.buildCall (s : State) (w : Who) (addr : Word) : State :=
  let g := (s.launchGroup w.core w.launch).getD {}
  match (if addr.toNat % 64 ≠ 0 || w.ctx ≠ 0 then none else s.svcRead (s.caller w) addr 128) with
  | none => s.service w 1
  | some bs =>
    let l := s.launch w.launch
    let fresh : Collective := { id := s.nextId, record := bs }
    if !fresh.good s.myPanel g w.core then s.service w 1
    else if fresh.panels.any fun p => s.routeTo p == .unreachable then s.service w 3
    else
      let here (c : Collective) : Bool := (c.own s.myPanel l.rect.toNat).all fun p => c.waiting.contains p.2
      match l.colls.find? fun c => !c.built && c.record == bs && c.waiting.contains w.core && here c with
      | some c => s.askPeers w.launch c
      | none =>
      let open' := l.colls.find? fun c => !c.built && c.record == bs && !c.waiting.contains w.core
      let c := open'.getD { fresh with members := List.range fresh.full }
      let c := { c with waiting := c.waiting ++ [w.core], addr }
      let s := { s with nextId := s.nextId + 1 }
      let s := s.modLaunch w.launch fun l => { l with colls := (l.colls.filter fun x => x.id != c.id) ++ [c] }
      if !here c then s else if c.apart s.myPanel then s.askPeers w.launch c else s.buildAll w.launch c
def execCollectiveBuild (s : State) : Res :=
  runEvent .collectiveBuild s fun e s =>
    match e with
    | .collectiveBuild w addr => s.buildCall w addr
    | _ => s

/-- Give a member's counters and entries back. -/
def State.giveBack (s : State) (launch : Nat) (c : Collective) : State :=
  c.taken.foldl (fun (s : State) (t : Nat × BitVec 64 × BitVec 64) =>
    s.modLaunchGroup t.1 launch fun g =>
      let g := (List.range 64).foldl (fun (g : Group) i => if t.2.2.getLsbD i then g.setEntry i {} else g) g
      { g with emask := g.emask ||| t.2.2, cmask := g.cmask ||| t.2.1 }) s
/-- The service 0x42: every current member calls, then the collective is gone. -/
def State.releaseCall (s : State) (w : Who) (addr : Word) : State :=
  match (if addr.toNat % 64 ≠ 0 || w.ctx ≠ 0 then none else s.svcRead (s.caller w) addr 128) with
  | none => s.service w 1
  | some bs =>
    let l := s.launch w.launch
    match l.colls.find? fun c => c.built && c.record == bs && !c.leaving.contains w.core
        && (c.own s.myPanel l.rect.toNat).any fun p => p.2 == w.core with
    | none => s.service w 1
    | some c =>
      let c := { c with leaving := c.leaving ++ [w.core] }
      let cores := (c.own s.myPanel l.rect.toNat).map (·.2)
      if cores.all fun k => c.leaving.contains k then
        ((s.giveBack w.launch c).modLaunch w.launch fun l => { l with colls := l.colls.filter fun x => x.id != c.id }).answerMembers
          w.launch cores 0
      else s.modColl w.launch c.id fun _ => c
def execCollectiveRelease (s : State) : Res :=
  runEvent .collectiveRelease s fun e s =>
    match e with
    | .collectiveRelease w addr => s.releaseCall w addr
    | _ => s

/-! ## Removal of members (R226) -/

/-- Whether a firing of a collective is in flight on a core; one that waits for other panels is not: it goes with the run (R226). -/
def Group.collInFlight (g : Group) (id : Nat) : Bool :=
  (g.crossed ++ g.firings).any fun f => !restFiring f && field (leNat f.record) 2 1 == collOpcode && field (leNat f.record) 0 1 == 2
    && field (leNat f.record) 8 8 == id
/-- Whether a removal can be performed: no firing of the collective is in flight on an own member. -/
def State.canShrink (s : State) (launch id : Nat) : Bool :=
  (s.launch launch).colls.all fun c => c.id != id ||
    (c.own s.myPanel (s.launch launch).rect.toNat).all fun p =>
      match s.launchGroup p.2 launch with
      | some g => !g.collInFlight id
      | none => true
/-- Firings of a collective that wait for other panels go with its run. -/
def Group.dropRest (g : Group) (id : Nat) : Group :=
  let mine (f : Firing) : Bool := restFiring f && field (leNat f.record) 8 8 == id
  let g' := { g with firings := g.firings.filter fun f => !mine f }
  if g.firings.head?.any mine then g'.setQueue firedQueue { g'.queue firedQueue with run := {} } else g'
/-- Steps 1 to 5 on a surviving member; a run that was open ends. -/
def State.shrinkMember (s : State) (launch : Nat) (c : Collective) (wasOpen : Bool) (m core : Nat) : State :=
  let s := s.modLaunchGroup core launch fun g =>
    let g := (g.setCounter c.startCtr 0).setCounter c.doneCtr 0
    let g := g.dropRest c.id
    let mine := (List.range 64).filter fun i => (g.entry i).armed && (g.entry i).record == collRecord c.id m
    mine.foldl (fun (g : Group) i => g.setEntry i { g.entry i with thr := 1 }) g
  let g := (s.launchGroup core launch).getD {}
  let s := s.putWord core g c.statusAt 
    (c.status (if wasOpen then 1 else field (leNat (s.partBytes core g c.statusAt 8)) 1 1))
  if wasOpen then
    s.modLaunchGroup core launch fun g => g.increment c.doneCtr 1 (some ⟨Cells.empty, .pod, s.myPanel, core, []⟩)
  else s
/-- Remove the members of a panel. -/
def State.shrink (s : State) (launch id panel : Nat) : State :=
  match (s.launch launch).colls.find? fun c => c.id == id && c.built with
  | none => s
  | some c =>
    let left := c.members.filter fun m => c.panelOf m != panel
    if left.length = c.members.length then s
    else
      let wasOpen := !c.started.isEmpty
      let c := { c with members := left, gen := c.gen + 1, started := [], rels := [] }
      let s := s.modColl launch id fun _ => c
      (c.own s.myPanel (s.launch launch).rect.toNat).foldl (fun s p => s.shrinkMember launch c wasOpen p.1 p.2) s
def execCollectiveShrink (s : State) : Res :=
  runEvent .collectiveShrink s fun e s =>
    match e with
    | .collectiveShrink launch id panel => s.shrink launch id panel
    | _ => s

end Sys2Proof.Machine
end

