-- ==== Sys2Proof/Machine/Host.lean ====
section
/-! DEFINITION. Sys2Proof/Machine/Host.lean: the host transport (R153, R305 to R310): sessions, tags, completions and their cache, counters,
and the operations of the host: memory, tenants (R251, R252, R265 to R269), containers (R106 to R110), launches (R26, R253),
re-cabling (R246). -/
namespace Sys2Proof.Machine

/-! ## Datagrams (R307, R308, R310) -/

/-- The bytes of a request with the tag field zero. -/
def reqBytes (r : HostReq) : List Byte :=
  leBytes 4 0x48535251 ++ leBytes 2 1 ++ leBytes 1 r.quadrant ++ leBytes 1 r.op ++ leBytes 4 r.session
    ++ leBytes 4 r.payload.length ++ leBytes 8 r.reqNo ++ leBytes 2 r.tenant ++ leBytes 2 r.core ++ leBytes 1 r.ctr.toNat
    ++ leBytes 3 0 ++ leBytes 8 r.addr.toNat ++ leBytes 8 r.arg.toNat ++ leBytes 16 0 ++ r.payload
/-- The bytes of a completion. -/
def doneBytes (r : HostReq) (status value : Nat) (tag : BitVec 128) (payload : List Byte) : List Byte :=
  leBytes 4 0x48535243 ++ leBytes 2 1 ++ leBytes 1 r.quadrant ++ leBytes 1 r.op ++ leBytes 4 r.session
    ++ leBytes 4 payload.length ++ leBytes 8 r.reqNo ++ leBytes 4 status ++ leBytes 4 0 ++ leBytes 8 value ++ leBytes 8 0
    ++ leBytes 16 tag.toNat ++ payload
/-- A completion with its tag under a session key. -/
def sealed (key : BitVec 512) (r : HostReq) (status value : Nat) (payload : List Byte) : List Byte :=
  doneBytes r status value (Config.hmac key (doneBytes r status value 0 payload)) payload
/-- Send a datagram to the source of a request. -/
def State.sendHost (s : State) (r : HostReq) (bs : List Byte) : State := { s with hostOut := s.hostOut ++ [(r.src, bs)] }
/-- The open session that a request travels in, its tag good. -/
def State.sessionOf (s : State) (r : HostReq) : Option Session :=
  s.sessions.find? fun x => x.num == r.session && Config.hmac x.key (reqBytes r) == r.tag
/-- Change a session. -/
def State.modSession (s : State) (num : Nat) (f : Session → Session) : State :=
  { s with sessions := s.sessions.map fun x => if x.num = num then f x else x }

/-! ## Taking up a request (R305, R306) -/

/-- What an operation answers: status, value, payload; none while its completion is still to come. -/
abbrev HostAns := Option (Nat × Nat × List Byte)
/-- A status with value zero. -/
def st (n : Nat) (v : Nat := 0) : HostAns := some (n, v, [])
/-- Whether the request names a counter. -/
def names? (r : HostReq) : Bool := r.ctr.getLsbD 6
/-- Whether the named core is bound to a launch of the tenant with the named counter allocated. -/
def State.counterOk (s : State) (r : HostReq) : Bool :=
  r.core < 2048 && (s.group r.core).launch != 0 && (s.group r.core).tenant == r.tenant
    && (s.group r.core).cmask.getLsbD (r.ctr.extractLsb' 0 6).toNat
/-- The increment of a request that has been performed: a release of everything before it (R150, R153). -/
def State.hostIncrement (s : State) (r : HostReq) : State :=
  if !names? r then s
  else if s.counterOk r then
    s.modGroup r.core fun g => g.increment (r.ctr.extractLsb' 0 6) 1
      (some ⟨Cells.get Cells.empty s.hostClocks r.quadrant, .pod, s.myPanel, r.core, []⟩)
  else s.bump .notifyDropped
/-- Complete a request in its session: the increment where it succeeded, the completion, the cache of 4,096. -/
def State.complete (s : State) (r : HostReq) (x : Session) (a : Nat × Nat × List Byte) : State :=
  let s := if a.1 = 0 then s.hostIncrement r else s
  let bs := sealed x.key r a.1 a.2.1 a.2.2
  let mine (q : Nat × Nat × List Byte) : Bool := q.2.1 == r.quadrant
  let s := s.modSession x.num fun x =>
    let kept := ((r.reqNo, r.quadrant, bs) :: x.done.filter mine).take 4096
    { x with done := kept ++ x.done.filter fun q => !mine q }
  s.sendHost r bs
/-- Take up a request of operation `op` in a session: dropped without one, answered from the cache where it has been performed,
refused where its header is wrong or its counter is not there, else performed by `f`. -/
def State.serveHost (s : State) (r : HostReq) (op : Nat) (f : State → State × HostAns) : State :=
  if 3 < r.quadrant then s.sendHost r (doneBytes r 1 0 0 [])
  else
    match s.sessionOf r with
    | none => s.bump .sessionDrop
    | some x =>
      let s := { s with nextId := s.nextId + 1 }.modSession x.num fun x => { x with used := s.nextId }
      match x.done.find? fun q => q.1 == r.reqNo && q.2.1 == r.quadrant with
      | some q => s.sendHost r q.2.2
      | none =>
        if r.badHeader || r.op ≠ op || r.ctr.getLsbD 7 || (2048 ≤ r.core && r.core ≠ 0xFFFF) || 8192 < r.payload.length
            || (names? r && !s.counterOk r)
        then s.complete r x (1, 0, [])
        else
          match f s with
          | (s, none) => s
          | (s, some a) => s.complete r x a
/-- Complete a request whose operation has ended since. -/
def State.finishHost (s : State) (r : HostReq) : State :=
  let s := { s with hostOpen := s.hostOpen.filter (· != r) }
  match s.sessionOf r with
  | some x => s.complete r x (0, 0, [])
  | none => s
/-- An operation of a registered tenant: another receives status 2. -/
def State.ofTenant (s : State) (r : HostReq) (f : State → State × HostAns) : State × HostAns :=
  if (s.tenant r.tenant).registered then f s else (s, st 2)

/-! ## Sessions and identity (R303, R307) -/

/-- The uncompressed identity public key and a public key of the device. -/
def keyBytes (k : BitVec 1064) : List Byte := beBytes 133 k.toNat
/-- Open a session: the least recently used of 16 makes room. -/
def State.openSession (s : State) (r : HostReq) : State :=
  let n := s.sessionCount + 1
  let dev := keyBytes (Config.sessionKey n)
  let sig := beBytes 132 (Config.signature (Config.sha512 (r.payload ++ dev))).toNat
  let old := (s.sessions.map (·.used)).min?.getD 0
  let kept := if 16 ≤ s.sessions.length then s.sessions.filter fun x => x.used != old else s.sessions
  let new : Session := ⟨n, Config.sharedKey r.payload n, [], s.nextId⟩
  { s with sessionCount := n, nextId := s.nextId + 1, sessions := kept ++ [new] }.sendHost r (doneBytes r 0 n 0 (dev ++ sig))
/-- Whether a request outside sessions is good: its quadrant, its header, its operation. -/
def plainOk (r : HostReq) (op len : Nat) : Bool :=
  r.quadrant ≤ 3 && !r.badHeader && r.op == op && r.session == 0 && r.tag == 0 && r.payload.length == len && !names? r
def execHostOpenSession (s : State) : Res :=
  runEvent .hostOpenSession s fun e s =>
    match e with
    | .hostOpenSession r => if plainOk r 1 133 then s.openSession r else s.sendHost r (doneBytes r 1 0 0 [])
    | _ => s
def execHostCloseSession (s : State) : Res :=
  runEvent .hostCloseSession s fun e s =>
    match e with
    | .hostCloseSession r =>
      let ok := (s.sessionOf r).isSome && r.quadrant ≤ 3 && !r.badHeader && r.payload.isEmpty && r.op == 2
      let s := s.serveHost r 2 fun s => (s, st (if r.payload.isEmpty then 0 else 1))
      if ok then { s with sessions := s.sessions.filter fun x => x.num != r.session } else s
    | _ => s
def execHostIdentity (s : State) : Res :=
  runEvent .hostIdentity s fun e s =>
    match e with
    | .hostIdentity r =>
      s.sendHost r (if plainOk r 3 0 then doneBytes r 0 0 0 (deviceId ++ keyBytes Config.identityKey) else doneBytes r 1 0 0 [])
    | _ => s
/-- A request that no operation takes: status 1. -/
def execHostBadRequest (s : State) : Res :=
  runEvent .hostBadRequest s fun e s =>
    match e with
    | .hostBadRequest r =>
      if r.op = 1 || r.op = 3 then s.sendHost r (doneBytes r 1 0 0 []) else s.serveHost r r.op fun s => (s, st 1)
    | _ => s

/-! ## Memory (R153, R309) -/

/-- The agent of the host's accesses for a tenant: unchecked, no launch. -/
def State.hostActor (s : State) (tenant : Nat) : Actor :=
  ⟨⟨0, 0, 0⟩, .context, 0, 0, tenant, (s.tenant tenant).gen.toNat, Cells.empty, (0, 0), s.myPanel⟩
/-- The parts of pieces of a tenant's memory; an error is the failing address, or none where the access must wait. -/
def State.hostParts (s : State) (tenant : Nat) (write : Bool) : List (Nat × Nat) → Except (Option Nat) (List Part)
  | [] => .ok []
  | (va, n) :: t =>
    if 2 ^ 52 ≤ va then .error (some va)
    else
      match s.walk tenant va with
      | .leaf size pa flags =>
        if !flagsAllow flags write then .error (some va)
        else
          match s.resolvePhys (pa + va % 2 ^ pageBits size) va 1 true, s.hostParts tenant write t with
          | .ok g, .ok ps => .ok (tgtPart g (maskOf g.byte n) 0 :: ps)
          | .error .wait, _ => .error none
          | .error _, _ => .error (some va)
          | _, .error e => .error e
      | _ => .error (some va)
/-- Access n bytes of a tenant for a request: the parts once nothing stands in the way; else the answer, or nothing while what
stands in the way is asked for and the request waits. -/
def State.hostReach (s : State) (r : HostReq) (e : Event) (write : Bool) (n : Nat) : Except (State × HostAns) (List Part) :=
  match s.hostParts r.tenant write (pieces r.addr.toNat n) with
  | .error none => .error (s.again e, none)
  | .error (some va) => .error (s, st 4 va)
  | .ok ps =>
    let m : MemMsg := ⟨s.hostActor r.tenant, 0, if write then .store ps else .load ps, true, false, none, 0⟩
    match s.blocks m with
    | [] => .ok ps
    | bs =>
      match bs.findSome? fun b => match b with
        | .unreachable va => some va
        | _ => none with
      | some va => .error (s, st 4 va)
      | none => .error ((bs.foldl (fun s b => s.unblock r.tenant b) s).again e, none)
/-- The bytes of parts. -/
def State.partsBytes (s : State) (ps : List Part) : List Byte :=
  ps.flatMap fun p =>
    match s.keyOf p.place with
    | some k => s.store.bytes (k + lowByte p.mask) (popCount 128 p.mask.toNat)
    | none => []
/-- Write bytes to parts. -/
def State.writeParts (s : State) (tenant : Nat) (ps : List Part) (bs : List Byte) : State :=
  let s' := (ps.foldl (fun (acc : State × List Byte) p =>
    let lo := lowByte p.mask
    let n := popCount 128 p.mask.toNat
    (match s.keyOf p.place with
     | some k => acc.1.writeHome k p.mask (lineOf (List.replicate lo 0 ++ acc.2.take n)) none
     | none => acc.1, acc.2.drop n)) (s, bs)).1
  s'.proxyWritten ⟨s.hostActor tenant, 0, .store ps, true, false, none, 0⟩
/-- A read joins what the releases of its words make visible to the agent of the quadrant (R153, R306). -/
def State.hostJoin (s : State) (r : HostReq) (ps : List Part) : State :=
  let rels := ps.flatMap fun p => match s.keyOf p.place with
    | some k => s.store.relsOf k p.mask
    | none => []
  { s with hostClocks := Cells.modify Cells.empty s.hostClocks r.quadrant fun c =>
      (rels.filter fun x => x.scope == .pod).foldl (fun c x => joinClock c x.clock) c }
def execHostWrite (s : State) : Res :=
  runEvent .hostWrite s fun e s =>
    match e with
    | .hostWrite r => s.serveHost r 0x10 fun s => s.ofTenant r fun s =>
        if r.payload.isEmpty then (s, st 1)
        else
          match s.hostReach r (.hostWrite r) true r.payload.length with
          | .error x => x
          | .ok ps => (s.writeParts r.tenant ps r.payload, st 0)
    | _ => s
def execHostRead (s : State) : Res :=
  runEvent .hostRead s fun e s =>
    match e with
    | .hostRead r => s.serveHost r 0x11 fun s => s.ofTenant r fun s =>
        if !r.payload.isEmpty || r.arg = 0 || 8192 < r.arg.toNat then (s, st 1)
        else
          match s.hostReach r (.hostRead r) false r.arg.toNat with
          | .error x => x
          | .ok ps => (s.hostJoin r ps, some (0, 0, s.partsBytes ps))
    | _ => s
def execHostNotify (s : State) : Res :=
  runEvent .hostNotify s fun e s =>
    match e with
    | .hostNotify r => s.serveHost r 0x12 fun s => s.ofTenant r fun s => (s, st (if r.payload.isEmpty then 0 else 1))
    | _ => s

/-! ## Tenants (R251, R252, R265 to R267) -/

/-- The registration record of a request. -/
def regOk (r : HostReq) : Bool :=
  let f (o n : Nat) : Nat := at' r.payload o n
  0x20 ≤ r.payload.length && 1 ≤ r.tenant && r.tenant ≤ 0xFFFE && f 2 1 ≤ 7 && f 3 1 ≤ 1 && 1 ≤ f 4 1 && f 4 1 ≤ 8 && f 5 3 == 0
    && r.payload.length == 0x20 + 133 * f 4 1 && f 0x10 8 % 2 ^ 21 == 0 && f 0x18 8 % 2 ^ 21 == 0
/-- The parameters of a registration; what a tenant has accumulated stays with one that is registered. -/
def registered (r : HostReq) (t : Tenant) : Tenant :=
  let f (o n : Nat) : Nat := at' r.payload o n
  let t : Tenant := if t.registered then t else {}
  { t with
    registered := true, test := f 3 1 == 1, share := f 0 2, ceiling := f 2 1, descr := f 8 8, evictBase := f 0x10 8
    evictLen := f 0x18 8, keys := (List.range (f 4 1)).map fun i => (r.payload.drop (0x20 + 133 * i)).take 133 }
def execHostRegisterTenant (s : State) : Res :=
  runEvent .hostRegisterTenant s fun e s =>
    match e with
    | .hostRegisterTenant r => s.serveHost r 0x20 fun s =>
        if !regOk r then (s, st 1)
        else if (s.tenant r.tenant).registered && (s.admitted r.tenant || (s.tenant r.tenant).resetting) then (s, st 5)
        else (s.modTenant r.tenant (registered r), st 0)
    | _ => s
def execHostDeregisterTenant (s : State) : Res :=
  runEvent .hostDeregisterTenant s fun e s =>
    match e with
    | .hostDeregisterTenant r => s.serveHost r 0x21 fun s => s.ofTenant r fun s =>
        if !r.payload.isEmpty then (s, st 1)
        else if s.admitted r.tenant || (s.tenant r.tenant).resetting then (s, st 5)
        else
          let (s, bs) := s.meterRecord r.tenant (leBytes 8 0) true
          ((s.sendHost r bs).modTenant r.tenant fun t => { t with registered := false }, st 0)
    | _ => s
/-- Steps 1 to 6 of a reset; it ends when the reservations are released (R266). -/
def State.resetTenant (s : State) (t : Nat) : State :=
  let mine := s.openLaunches.filter fun n => (s.launch n).tenant == t
  let cores := s.cores.keys.filter fun c => (s.group c).launch != 0 && (s.group c).tenant == t
  let s := cores.foldl (fun s c => s.resetRow c) s
  let s := (s.cores.keys).foldl (fun (s : State) k =>
    let c := s.core k
    let old := (c.group :: c.saved).filter fun g => g.launch != 0 && g.tenant == t && !g.absent
    let s := s.modCore k fun c => { c with
      waiters := c.waiters.filter fun w => w.msg.actor.tenant != t
      stubs := c.stubs.filter fun p => (s.launch p.2).tenant != t }
    old.foldl (fun s g => s.zeroGranules k g.gmap g.part) s) s
  let s := s.modTenant t fun x => { x with gen := x.gen + 1, resets := x.resets + 1, resetting := true }
  let s := (List.range 64).foldl (fun s p =>
    if (s.port p).up && !(s.port p).frozen then
      s.modPort p fun o => { o with allowances := (List.range 6).foldl (fun m net => Cells.set 0 m (allowKey t net) 4) o.allowances }
    else s) s
  mine.foldl (fun s n => s.retireWith n 0x0A) s
def execHostResetTenant (s : State) : Res :=
  runEvent .hostResetTenant s fun e s =>
    match e with
    | .hostResetTenant r =>
      if s.hostOpen.contains r then (if (s.tenant r.tenant).resetting then s else s.finishHost r)
      else s.serveHost r 0x22 fun s => s.ofTenant r fun s =>
        if !r.payload.isEmpty then (s, st 1)
        else if (s.tenant r.tenant).resetting then (s, st 5)
        else ({ s.resetTenant r.tenant with hostOpen := s.hostOpen ++ [r] }, none)
    | _ => s
def execHostMeterRecord (s : State) : Res :=
  runEvent .hostMeterRecord s fun e s =>
    match e with
    | .hostMeterRecord r => s.serveHost r 0x40 fun s => s.ofTenant r fun s =>
        if !r.payload.isEmpty then (s, st 1)
        else
          let (s, bs) := s.meterRecord r.tenant (leBytes 8 r.arg.toNat) false
          (s, some (0, 0, bs))
    | _ => s

/-! ## Containers (R102, R106 to R110) -/

/-- A place for a section of n bytes in pages of its own (R102): where the tenant runtime would have it, or behind all others. -/
def placeSection (used : List (Nat × Nat)) (b n : Nat) : Nat :=
  if used.all fun u => b + n ≤ u.1 || u.1 + u.2 ≤ b then b else (used.map fun u => u.1 + u.2).foldl Nat.max 0
/-- The lengths of a role's sections in whole pages of 64 KiB: code, data, zero. -/
def pagesOf (bs : List Byte) (role : Nat) : List Nat :=
  let r := roleAt bs role
  [r.code.2, r.data.2, r.zero].map fun n => (n + 0xFFFF) / 0x10000 * 0x10000
/-- The bases that the tenant runtime chooses for the sections of a copy of an image: multiples of 64 KiB of the global window, each
section in pages of its own and clear of `used` (R102; log 59). -/
def sectionBases (image copy : Nat) (bs : List Byte) (used : List (Nat × Nat)) : List (Nat × Nat × Nat × Nat) :=
  ((List.range (roleCount bs)).foldl (fun (acc : List (Nat × Nat × Nat × Nat) × List (Nat × Nat)) r =>
    let want (t : Nat) : Nat := Config.sectionBase image copy r t % 2 ^ 36 * 2 ^ 16
    let n (t : Nat) : Nat := (pagesOf bs r).getD t 0
    let u := acc.2
    let b0 := placeSection u (want 0) (n 0)
    let u := (b0, n 0) :: u
    let b1 := placeSection u (want 1) (n 1)
    let u := (b1, n 1) :: u
    let b2 := placeSection u (want 2) (n 2)
    (acc.1 ++ [(r, b0, b1, b2)], (b2, n 2) :: u)) ([], used)).1
/-- The pages that sections at given bases take. -/
def sectionPages (bs : List Byte) (bases : List (Nat × Nat × Nat × Nat)) : List (Nat × Nat) :=
  bases.flatMap fun b => [b.2.1, b.2.2.1, b.2.2.2].zip (pagesOf bs b.1)
/-- Load a container that has passed its checks: the agents' service cores receive it first. -/
def State.loadImage (s : State) (tenant : Nat) (bs : List Byte) : State :=
  let i := s.nextImage
  let im : Image := { tenant, name := imageName bs, bytes := bs, bases := sectionBases i 0 bs [] }
  let s := { s with nextImage := i + 1, images := Cells.set {} s.images i im }
  (List.range 4).foldl (fun s q => s.post (.containerForward i (agentChip q))) s
def execHostLoadContainer (s : State) : Res :=
  runEvent .hostLoadContainer s fun e s =>
    match e with
    | .hostLoadContainer r => s.serveHost r 0x30 fun s => s.ofTenant r fun s =>
        if !r.payload.isEmpty || 2 ^ 32 ≤ r.arg.toNat then (s, st 1)
        else
          match s.hostReach r (.hostLoadContainer r) false r.arg.toNat with
          | .error x => x
          | .ok ps =>
            let bs := s.partsBytes ps
            let bad := containerCheck (s.tenant r.tenant).keys bs
            if bad ≠ 0 then (s, st 7 bad) else (s.loadImage r.tenant bs, st 0)
    | _ => s
/-- A service core's copy is complete: it forwards to its children (R110). What the rebuilt tree is the spec does not say: a chiplet out
of service keeps no copy, and its children get theirs all the same, as from its parent (DESIGN CHOICE, log 10). -/
def execContainerForward (s : State) : Res :=
  runEvent .containerForward s fun e s =>
    match e with
    | .containerForward i chip =>
      let im : Image := Cells.get {} s.images i
      let s := if s.tables.chipValid chip then
          { s with images := Cells.set {} s.images i { im with holders := chip :: im.holders.erase chip } } else s
      (children im.bytes chip).foldl (fun s c => s.post (.containerForward i c)) s
    | _ => s

/-! ## Launches (R26, R253) -/

/-- The latest image of a tenant under a name. -/
def State.imageNamed (s : State) (tenant : Nat) (name : List Byte) : Option Nat :=
  ((s.images.list.filter fun p => p.2.tenant == tenant && p.2.name == name).map (·.1)).getLast?
/-- The launch that a submission asks for. -/
def launchOf (tenant image : Nat) (k : Kernel) (bs : List Byte) : Launch :=
  let f (o n : Nat) : Nat := at' bs o n
  { stage := .queued, tenant, image, kernel := f 0x10 2, x0 := f 0x12 1, y0 := f 0x13 1, lw := f 0x14 1, lh := f 0x15 1
    prio := f 0x16 1, deps := (List.range (f 0x17 1)).map fun i => f (0x20 + 8 * i) 8
    r := (residencyOf k.regs).getD 0, helpers := helpersOf ((residencyOf k.regs).getD 32) k.helpers, part := k.part
    taskGran := k.gran, taskWb := k.flags == 1 }
/-- Whether the rectangle has a legal shape. -/
def Launch.shapeOk (l : Launch) : Bool :=
  l.lw ≤ 6 && l.lh ≤ 5 && l.x0 % 2 ^ l.lw == 0 && l.y0 % 2 ^ l.lh == 0 && l.x0 + 2 ^ l.lw ≤ 64 && l.y0 + 2 ^ l.lh ≤ 32
/-- The roles that a kernel places on a rectangle. -/
def Image.placed (im : Image) (k : Kernel) (w h : Nat) : List (Option PlaceRow) :=
  (List.range (w * h)).map fun i => im.rowFor k (i % w) (i / w)
/-- The status of a submission, in the order of R26: 0 where every check passes. -/
def State.submitStatus (s : State) (tenant : Nat) (bs : List Byte) : Nat :=
  if !(s.tenant tenant).registered then 8
  else
    match s.imageNamed tenant (bs.take 16) with
    | none => 4
    | some i =>
      let im : Image := Cells.get {} s.images i
      let kn := at' bs 0x10 2
      let k := kernelAt im.bytes kn
      let l := launchOf tenant i k bs
      let rows := im.placed k (2 ^ l.lw) (2 ^ l.lh)
      if kernelCount im.bytes ≤ kn then 4
      else if !l.shapeOk then 1
      else if l.cores.any fun c => !s.tables.chipValid (chipOf c) then 5
      else if (residencyOf k.regs).isNone then 2
      else if !im.portsOk k (2 ^ l.lw) (2 ^ l.lh) then 7
      else if 8 < k.part || (rowsOf (placeAt im.bytes) k.place).any fun p => k.part * 2 ^ 18 < (roleAt im.bytes p.role).scratch.2 then 3
      else if k.part < k.gran then 6
      else if rows.any (·.isNone) then 4
      else if l.deps.any fun d => d = 0 || !s.launches.keys.contains d || (s.launch d).tenant ≠ tenant then 9
      else 0
/-- The next launch number: numbers wrap within 24 bits and skip launches that have not retired (R253). -/
def freshLaunch (launches : Cells Launch) : Nat → Nat → Nat
  | 0, n => n
  | fuel + 1, n =>
    let n := if n = 0 || 2 ^ 24 ≤ n then 1 else n
    if (Cells.get ({} : Launch) launches n).stage = .retired then n else freshLaunch launches fuel (n + 1)
/-- Queue a launch that has passed its checks: it takes the next place in the order of submissions, its dependences name launches by
theirs, and its copy of the sections gets pages clear of those of the tenant's other launches. -/
def State.submit (s : State) (tenant : Nat) (bs : List Byte) : State × Nat :=
  let i := (s.imageNamed tenant (bs.take 16)).getD 0
  let im : Image := Cells.get {} s.images i
  let n := freshLaunch s.launches (s.launches.keys.length + 2) s.nextLaunch
  let l := launchOf tenant i (kernelAt im.bytes (at' bs 0x10 2)) bs
  let seq := s.submitted + 1
  let used := (s.openLaunches.filter fun m => (s.launch m).tenant == tenant).flatMap fun m =>
    sectionPages (s.imageOf (s.launch m)).bytes (s.launch m).bases
  let l := { l with seq, deps := l.deps.map fun d => (s.launch d).seq, bases := sectionBases i seq im.bytes used }
  ({ s with nextLaunch := n + 1, submitted := seq, launches := Cells.set {} s.launches n l }, n)
/-- Whether a launch record is well-formed (R309). -/
def recordGood (bs : List Byte) : Bool :=
  let f (o n : Nat) : Nat := at' bs o n
  bs.length == 64 && f 0x16 1 ≤ 7 && f 0x17 1 ≤ 4 && f 0x18 8 == 0
    && (List.range 4).all fun i => i < f 0x17 1 || f (0x20 + 8 * i) 8 == 0
def execHostSubmitLaunch (s : State) : Res :=
  runEvent .hostSubmitLaunch s fun e s =>
    match e with
    | .hostSubmitLaunch r => s.serveHost r 0x31 fun s =>
        if !recordGood r.payload then (s, st 1)
        else if (s.tenant r.tenant).registered && (s.tenant r.tenant).resetting then (s, st 5)
        else
          let code := s.submitStatus r.tenant r.payload
          if code ≠ 0 then (s, st 3 code)
          else
            let (s, n) := s.submit r.tenant r.payload
            (s, st 0 n)
    | _ => s
def execHostLaunchStatus (s : State) : Res :=
  runEvent .hostLaunchStatus s fun e s =>
    match e with
    | .hostLaunchStatus r => s.serveHost r 0x32 fun s => s.ofTenant r fun s =>
        let n := r.arg.toNat
        let l := s.launch n
        if !r.payload.isEmpty || !s.launches.keys.contains n || l.tenant ≠ r.tenant then (s, st 1)
        else if l.stage ≠ .retired then (s, st 6)
        else (s, some (0, 0, l.status))
    | _ => s

/-! ## Re-cabling (R246, R330, R331) -/

/-- The entries of a request: panel, port, peer panel, peer port. -/
def cables (bs : List Byte) : List (Nat × Nat × Nat × Nat) :=
  (List.range (bs.length / 4)).map fun i => (at' bs (4 * i) 1, at' bs (4 * i + 1) 1, at' bs (4 * i + 2) 1, at' bs (4 * i + 3) 1)
/-- The entry that the firmware writes for a panel: valid, or unreachable. -/
def newRoute (bs : List Byte) (panel d : Nat) : BitVec 32 :=
  let v := Config.route bs panel d
  if v.extractLsb' 30 2 = 1 then v &&& 0x403F3F3F#32 else 0
/-- The ports of this panel that a request recables, with their peers. -/
def State.recabled (s : State) (bs : List Byte) : List (Nat × Nat) :=
  ((cables bs).filter fun c => c.1 == s.myPanel).map fun c => (c.2.1, c.2.2.1)
/-- Steps 1 and 2: routes that change are held, the ports freeze. -/
def State.recableStart (s : State) (bs : List Byte) : State :=
  let ds := (List.range 64).filter fun d => d != s.myPanel && s.tables.route d != newRoute bs s.myPanel d
  let s := ds.foldl (fun s d => s.setRoute d 2) s
  (s.recabled bs).foldl (fun s p => s.modPort p.1 fun o => { o with frozen := true }) s
/-- Whether every flit that the frozen ports sent has been acknowledged. -/
def State.recableDrained (s : State) (bs : List Byte) : Bool := (s.recabled bs).all fun p => (s.port p.1).replay.isEmpty
/-- A port that has relocked: a new peer brings fresh sequences and its initial grant, the same peer keeps both; new keys in
both cases (R240, R246). -/
def relocked (tenants : List Nat) (peer : Nat) (o : Optical) : Optical :=
  if o.peer = peer && o.up then { o with frozen := false, keyGen := o.keyGen + 1, nextGen := o.keyGen + 1, sendSlots := 0, recvSlots := 0 }
  else ({ up := true, peer, keyGen := o.keyGen + 1, nextGen := o.keyGen + 1, queue := o.queue } : Optical).grants tenants
/-- Steps 3 to 5: the ports relock, held entries become valid or unreachable. -/
def State.recableEnd (s : State) (bs : List Byte) : State :=
  let ts := s.admittedIds
  let s := (s.recabled bs).foldl (fun s p => s.modPort p.1 (relocked ts p.2)) s
  let held := (List.range 64).filter fun d => (s.tables.route d).extractLsb' 30 2 == 2
  let s := { s with tables := { s.tables with
    podrt := held.foldl (fun m d => Cells.set 0 m d (newRoute bs s.myPanel d)) s.tables.podrt } }
  let s := ((s.recabled bs).foldl (fun s p => s.drainPort p.1) s).edgePorts
  ((held.filter fun d => newRoute bs s.myPanel d == 0).foldl State.panelGone s).releaseHeld
def execHostRecablePod (s : State) : Res :=
  runEvent .hostRecablePod s fun e s =>
    match e with
    | .hostRecablePod r =>
      if s.hostOpen.contains r then (if s.recableDrained r.payload then (s.recableEnd r.payload).finishHost r else s)
      else s.serveHost r 0x50 fun s =>
        if r.payload.length ≠ 4 * r.arg.toNat || (cables r.payload).any fun c =>
            64 ≤ c.1 || 64 ≤ c.2.1 || 64 ≤ c.2.2.1 || 64 ≤ c.2.2.2 then (s, st 1)
        else if s.hostOpen.any fun q => q.op == 0x50 then (s, st 5)
        else ({ s.recableStart r.payload with hostOpen := s.hostOpen ++ [r] }, none)
    | _ => s

end Sys2Proof.Machine
end

