-- ==== Sys2Proof/Machine/Boot.lean ====
section
/-! DEFINITION. Sys2Proof/Machine/Boot.lean: routes of the mesh and detour tables (R22, R233, R438), the remap tables at boot (R25), boot
values of ranges and domains (R439), the capability list (R304), boot and recovery (R303). -/
namespace Sys2Proof.Machine

/-! ## The physical mesh (R22, R233) -/

/-- Neighbours of a physical chiplet on the 18 × 16 grid, in ascending number. -/
def physNext (p : Nat) : List Nat :=
  (if p < 18 then [] else [p - 18]) ++ (if p % 18 = 0 then [] else [p - 1]) ++ (if p % 18 = 17 then [] else [p + 1])
    ++ (if 270 ≤ p then [] else [p + 18])
/-- The next hop in dimension order. -/
def dorNext (p d : Nat) : Nat :=
  if p % 18 < d % 18 then p + 1 else if d % 18 < p % 18 then p - 1 else if p < d then p + 18 else p - 18
/-- Breadth-first levels: nodes with their distance from the first frontier. -/
def levels (next : Nat → List Nat) : Nat → Nat → List Nat → List Nat → List (Nat × Nat)
  | 0, _, _, _ => []
  | _ + 1, _, _, [] => []
  | fuel + 1, depth, seen, front =>
    let new := (front.flatMap next).eraseDups.filter fun v => !seen.contains v
    front.map (fun v => (v, depth)) ++ levels next fuel (depth + 1) (seen ++ new) new
/-- A distance among levels. -/
def distIn (ls : List (Nat × Nat)) (v : Nat) : Option Nat := (ls.find? fun p => p.1 == v).map (·.2)
/-- Whether a router is live. -/
def Tables.live (t : Tables) (p : Nat) : Bool := p < 288 && t.cstateOf p != 2
/-- Live neighbours. -/
def Tables.liveNext (t : Tables) (p : Nat) : List Nat := (physNext p).filter t.live
/-- The router through which the management chiplet reaches the mesh (R438): of physical chiplet (0, 8), else of (0, 7). -/
def Tables.mgmtRouter (t : Tables) : Nat := if t.cstateOf 144 = 2 then 126 else 144
/-- Depths in the spanning tree of the live routers. -/
def Tables.depths (t : Tables) : List (Nat × Nat) := levels t.liveNext 289 0 [t.mgmtRouter] [t.mgmtRouter]
/-- Whether a link leads up: to a router of smaller depth, then of smaller number. -/
def upLink (ds : List (Nat × Nat)) (a b : Nat) : Bool :=
  match distIn ds a, distIn ds b with
  | some x, some y => y < x || (y == x && b < a)
  | _, _ => false
/-- Predecessors in the search for up*/down* paths; state 2v + 1 stands for "only down from here", 2v for "up still allowed". -/
def upDownPrev (t : Tables) (ds : List (Nat × Nat)) (x : Nat) : List Nat :=
  let w := x / 2
  (t.liveNext w).flatMap fun u =>
    if x % 2 = 1 then (if upLink ds u w then [] else [2 * u, 2 * u + 1]) else (if upLink ds u w then [2 * u] else [])
/-- Distances to a destination. -/
def upDownDist (t : Tables) (ds : List (Nat × Nat)) (d : Nat) : List (Nat × Nat) :=
  levels (upDownPrev t ds) 577 0 [2 * d, 2 * d + 1] [2 * d, 2 * d + 1]
/-- The first hops towards a destination: router, next; of several shortest paths the one with the lowest first hop. -/
def detourTo (t : Tables) (ds : List (Nat × Nat)) (d : Nat) : List (Nat × Nat) :=
  let dist := upDownDist t ds d
  (List.range 288).filterMap fun r =>
    match distIn dist (2 * r) with
    | some (n + 1) =>
      ((t.liveNext r).find? fun w => distIn dist (2 * w + if upLink ds r w then 0 else 1) == some n).map fun w => (r, w)
    | _ => none
/-- The detour tables: entry 288·r + d is the next hop of router r towards d, plus 1. -/
def Tables.detours (t : Tables) : Cells Nat :=
  let ds := t.depths
  let all := (List.range 288).map fun d => (d, detourTo t ds d)
  ⟨(List.range 288).flatMap fun r => all.filterMap fun p => (distIn p.2 r).map fun w => (288 * r + p.1, w + 1)⟩
/-- The entry of a router for a destination. -/
def Tables.detourAt (t : Tables) (r d : Nat) : Option Nat :=
  let x := Cells.get 0 t.detour (288 * r + d)
  if x = 0 then none else some (x - 1)
/-- Whether the escape network reaches a destination within a number of hops. -/
def Tables.escapes (t : Tables) (d : Nat) : Nat → Nat → Bool
  | 0, r => r == d
  | n + 1, r => r == d || (match t.detourAt r d with
    | some w => t.escapes d n w
    | none => false)
/-- Whether a message from a router reaches a destination: in dimension order, from a router-dead next hop on by the escape
network in at most 64 hops (R22, R233). -/
def Tables.reaches (t : Tables) (d : Nat) : Nat → Nat → Bool
  | 0, r => r == d
  | n + 1, r => r == d || (if t.live (dorNext r d) then t.reaches d n (dorNext r d) else t.escapes d 64 r)
/-- Whether two logical chiplets reach each other. -/
def Tables.pairOk (t : Tables) (a b : Nat) : Bool :=
  t.reaches (t.pchipOf b) 33 (t.pchipOf a) && t.reaches (t.pchipOf a) 33 (t.pchipOf b)
/-- Take a logical chiplet out of service. -/
def Tables.dropChip (t : Tables) (chip : Nat) : Tables :=
  { t with cmap := Cells.set (cmapReset chip) t.cmap chip (t.cmapOf chip &&& 0x7FFF) }
/-- The higher chiplet of the first failing pair of valid chiplets (R25, step 4). -/
def Tables.badPair (t : Tables) : Option Nat :=
  let valid := (List.range 256).filter t.chipValid
  valid.findSome? fun a => valid.find? fun b => a < b && !t.pairOk a b
/-- Take chiplets out of service until every pair passes. -/
def Tables.settle : Nat → Tables → Tables
  | 0, t => t
  | n + 1, t =>
    match t.badPair with
    | some b => (t.dropChip b).settle n
    | none => t
/-- Rebuild the detour tables for the states of the chiplets, and apply the pair rule. -/
def Tables.rerouted (t : Tables) : Tables := ({ t with detour := t.detours } : Tables).settle 256

/-! ## The remap tables at boot (R25) -/

/-- State of a physical chiplet by the test map. -/
def bootState (p : Nat) : BitVec 2 :=
  if !Config.routerOk p then 2 else if popCount 9 (Config.sitesOk p).toNat < 8 then 1 else 0
/-- The SMAP of a chiplet with its good sites: an index stays on its site where that is good; the others take the lowest-numbered
good sites that no index names yet. -/
def smapFor (good : BitVec 9) : BitVec 64 :=
  let stay := (List.range 8).filter fun i => good.getLsbD i
  let free := (List.range 9).filter fun k => good.getLsbD k && !stay.contains k
  let moved := ((List.range 8).filter fun i => !good.getLsbD i).zip free
  let site (i : Nat) : Nat := if good.getLsbD i then i else ((moved.find? fun p => p.1 == i).map (·.2)).getD i
  BitVec.ofNat 64 (good.toNat * 2 ^ 32 + ((List.range 8).map fun i => site i * 16 ^ i).sum)
/-- Reset value of SMAP. -/
def smapReset : BitVec 64 := 0x000001FF76543210#64
/-- Steps 1 and 2. -/
def Tables.bootSites (t : Tables) : Tables :=
  let t := { t with cstate := (List.range 288).foldl (fun m p => Cells.set 0 m p (bootState p)) t.cstate }
  { t with smap := (List.range 288).foldl (fun m p =>
      if bootState p = 0 then Cells.set smapReset m p (smapFor (Config.sitesOk p)) else m) t.smap }
/-- Step 3: chiplets whose default is not good take spares in ascending order. -/
def Tables.bootChips (t : Tables) : Tables :=
  let good (p : Nat) : Bool := t.cstateOf p == 0
  let dflt (c : Nat) : Nat := 18 * (c / 16) + c % 16 + 1
  let spares := (List.range 288).filter fun p => good p && !((List.range 256).any fun c => dflt c == p)
  let lost := (List.range 256).filter fun c => !good (dflt c)
  let given := lost.zip spares
  { t with cmap := (List.range 256).foldl (fun m c =>
      let v : BitVec 16 := if good (dflt c) then BitVec.ofNat 16 (2 ^ 15 + dflt c)
        else match given.find? fun p => p.1 == c with
          | some (_, p) => BitVec.ofNat 16 (2 ^ 15 + p)
          | none => BitVec.ofNat 16 (dflt c)
      Cells.set (cmapReset c) m c v) t.cmap }

/-! ## Ranges and domains at boot (R439) -/

/-- The largest n, at most 12, and the lowest sbase whose 2^n slices all lie in valid chiplets. -/
def Tables.bootDomain (t : Tables) : Nat × Nat :=
  let ok (n b : Nat) : Bool := (List.range (2 ^ n)).all fun i => t.chipValid ((b + i) / 16)
  (((List.range 13).reverse).findSome? fun n =>
    ((List.range (4096 - 2 ^ n + 1)).find? fun b => ok n b).map fun b => (n, b)).getD (0, 0)
/-- Hash row i: bits i + 12k. -/
def bootRow (i : Nat) : BitVec 64 := BitVec.ofNat 64 (((List.range 4).map fun k => if i + 12 * k ≤ 43 then 2 ^ (i + 12 * k) else 0).sum)
/-- The boot value of ARR0. -/
def bootArr : BitVec 128 := BitVec.ofNat 128 (2 ^ 127 + 0xFFFF * 2 ^ 104 + 0x1DCD650 * 2 ^ 64)
/-- Boot values of the range and domain registers. -/
def Tables.bootRanges (t : Tables) : Tables :=
  let (n, b) := t.bootDomain
  { t with
    arr := Cells.set 0 Cells.empty 0 bootArr
    dom := Cells.set 0 Cells.empty 0 (BitVec.ofNat 32 (n * 2 ^ 28 + 2 ^ 16 + b))
    hash := (List.range n).foldl (fun m i => Cells.set 0 m i (bootRow i)) Cells.empty }

/-! ## The capability list (R304) -/

/-- A record: header and content. -/
def capRecord (ident next : Nat) (body : List Byte) : List Byte :=
  leBytes 2 ident ++ leBytes 2 (Config.capVersion ident) ++ leBytes 4 (16 + body.length) ++ leBytes 8 next ++ body
/-- Core clock of a logical chiplet in MHz, 0 for an invalid one. -/
def Tables.clockOf (t : Tables) (chip : Nat) : Nat := if t.chipValid chip then Cells.get 1950 t.mhz chip else 0
/-- The three records, one after another. -/
def State.capList (s : State) : List Byte :=
  let b := Config.capBase.toNat
  capRecord 1 (b + 32) (leBytes 4 s.validChips.length ++ leBytes 1 s.myPanel ++ [Config.podSize] ++ leBytes 10 0)
    ++ capRecord 2 (b + 576) (leBytes 4 3000000 ++ leBytes 1 Config.crossing ++ leBytes 3 0
      ++ ((List.range 256).flatMap fun c => leBytes 2 (s.tables.clockOf c)) ++ leBytes 8 0)
    ++ capRecord 3 0 (leBytes 2 47101 ++ leBytes 14 0)
/-- The firmware writes the capability list. -/
def State.writeCaps (s : State) : State := s.poke (physKey Config.capPhys) s.capList

/-! ## Boot and recovery (R303) -/

/-- What verified firmware does: remap and detour tables, ranges and domains, the capability list, the host transport. -/
def State.bootFirmware (s : State) : State :=
  { s with phase := .running, tables := (s.tables.bootSites.bootChips.rerouted).bootRanges }.writeCaps
/-- The boot ROM runs the image of the flash, or asks for one. -/
def execBoot (s : State) : Res :=
  runEvent .boot s fun _ s =>
    if s.phase ≠ .reset then s
    else if (match s.flash with
        | some image => Config.imageOk image
        | none => Config.flashImageOk) then s.bootFirmware
    else { s with phase := .recovery, hostOut := s.hostOut ++ [(0, Config.recoveryRequest)] }
/-- An image that arrives in recovery is written to the flash and runs, once it has passed its check. -/
def execRecoveryImage (s : State) : Res :=
  runEvent .recoveryImage s fun e s =>
    match e with
    | .recoveryImage image =>
      if s.phase = .recovery && Config.imageOk image then { s with flash := some image }.bootFirmware else s
    | _ => s

end Sys2Proof.Machine
end

