-- ==== Sys2Proof/Machine/Management.lean ====
section
/-! DEFINITION. Sys2Proof/Machine/Management.lean: writes of the management registers (R5, R19 to R21, R115, R126, R127, R243, R258, R295),
remap changes (R24), uncorrectable errors and containment (R290, R293, R294), migration (R67), clocks and sag (R299, R300). -/
namespace Sys2Proof.Machine

/-- Change the tables. -/
def State.modTables (s : State) (f : Tables → Tables) : State := { s with tables := f s.tables }
/-- Keep bits of a value, the others reading zero. -/
def keepBits {n : Nat} (mask v : BitVec n) : BitVec n := v &&& mask
/-- A field of a value from the previous one where its new encoding is reserved (R5). -/
def fieldOr {n : Nat} (reserved : Nat → Bool) (lo len : Nat) (old new : BitVec n) : BitVec n :=
  if reserved (new.extractLsb' lo len).toNat then
    let m := BitVec.ofNat n ((2 ^ len - 1) * 2 ^ lo)
    (new &&& ~~~m) ||| (old &&& m)
  else new

/-! ## SMAP (R19, R20) -/

/-- The value that a write to SMAP would leave. -/
def smapFormed (old v : BitVec 64) : BitVec 64 :=
  (List.range 8).foldl (fun x i => fieldOr (9 ≤ ·) (4 * i) 4 old x) (keepBits 0x1FFFFFFFFFF v)
/-- Whether the sites that it names are distinct and good. -/
def smapOk (v : BitVec 64) : Bool :=
  let sites := (List.range 8).map fun i => siteOf v i
  sites.eraseDups.length == 8 && sites.all fun k => v.getLsbD (32 + k)
/-- A write to SMAP: whole, or refused with the remap-conflict bit. -/
def State.putSmap (s : State) (p : Nat) (v : BitVec 64) : State :=
  let x := smapFormed (s.tables.smapOf p) v
  if smapOk x then s.modTables fun t => { t with smap := Cells.set smapReset t.smap p x } else s.chipError p .remap
def execSmapWrite (s : State) : Res :=
  runEvent .smapWrite s fun e s =>
    match e with
    | .smapWrite p v => s.putSmap p v
    | _ => s

/-! ## Ranges, vault pages, the injector (R115, R126, R264, R295) -/

def execArrWrite (s : State) : Res :=
  runEvent .arrWrite s fun e s =>
    match e with
    | .arrWrite i v =>
      let m : BitVec 128 := 0xCFFFFF003FFFFFFF000000003FFFFFFF#128
      s.setRanges (Cells.set 0 s.tables.arr i (keepBits m v))
    | _ => s
/-- A vault page whose tenant changes becomes zero before the new owner's first access. -/
def execVownWrite (s : State) : Res :=
  runEvent .vownWrite s fun e s =>
    match e with
    | .vownWrite chip page v =>
      let v := keepBits 0x3FFFF#32 v
      let old := s.tables.vownOf chip page
      let s := s.modTables fun t => { t with vown := Cells.set 0 t.vown (256 * chip + page) v }
      if v.extractLsb' 0 16 = old.extractLsb' 0 16 then s
      else { s with store := s.store.zero (vaultKey chip (page * 2 ^ 21)) (2 ^ 21) }
    | _ => s
/-- The injector serves only a tenant with the test flag. -/
def execInjctlWrite (s : State) : Res :=
  runEvent .injctlWrite s fun e s =>
    match e with
    | .injctlWrite v =>
      let x := fieldOr (fun r => r < 8 || 40 < r) 0 6 s.inj.ctl (keepBits 0x8000FFFF000F003F#64 v)
      let t := s.tenant (x.extractLsb' 32 16).toNat
      let x := if t.registered && t.test then x else x &&& ~~~(1#64 <<< 63)
      { s with inj := { s.inj with ctl := x } }
    | _ => s
def execInjseedWrite (s : State) : Res :=
  runEvent .injseedWrite s fun e s =>
    match e with
    | .injseedWrite v => { s with inj := { s.inj with seed := if v = 0 then 1 else v } }
    | _ => s

/-! ## The other registers (R21, R127, R243, R258, R259) -/

/-- A CMAP entry after a write. -/
def cmapFormed (old v : BitVec 16) : BitVec 16 := fieldOr (288 ≤ ·) 0 9 old (keepBits 0x81FF#16 v)
/-- A CSTATE entry after a write. -/
def cstateFormed (old v : BitVec 2) : BitVec 2 := if v = 3 then old else v
/-- A slot record after a write: reserved fields read zero, reserved values keep the previous ones. -/
def slotFormed (old v : BitVec 256) : BitVec 256 :=
  let used : Nat := (2 ^ 4 - 1) * 2 ^ 252 + (2 ^ 40 - 1) * 2 ^ 200 + (2 ^ 24 - 1) * 2 ^ 160 + (2 ^ 64 - 1) * 2 ^ 96 + (2 ^ 70 - 1)
  fieldOr (· == 7) 252 3 old (fieldOr (9 ≤ ·) 13 4 old (fieldOr (11 ≤ ·) 9 4 old (keepBits (BitVec.ofNat 256 used) v)))
/-- Write a management register that has no step of its own. DESIGN CHOICE (log 10): the spec says of the chiplet error register only
that its bits are sticky and that firmware clears them; a write replaces all eight bits with those written. -/
def State.putReg (s : State) (r : MgmtReg) (v : BitVec 256) : State :=
  match r with
  | .cmap c => s.modTables fun t => { t with cmap := Cells.set (cmapReset c) t.cmap c (cmapFormed (t.cmapOf c) (v.setWidth 16)) }
  | .cstate p => s.modTables fun t => { t with cstate := Cells.set 0 t.cstate p (cstateFormed (t.cstateOf p) (v.setWidth 2)) }
  | .dom i =>
    let x := fieldOr (13 ≤ ·) 28 4 (Cells.get (0 : BitVec 32) s.tables.dom i) (keepBits 0xFFFF0FFF#32 (v.setWidth 32))
    s.modTables fun t => { t with dom := Cells.set 0 t.dom i x }
  | .domRow i k =>
    s.modTables fun t => { t with hash := Cells.set 0 t.hash (12 * i + k) (keepBits 0xFFFFFFFFFFF#64 (v.setWidth 64)) }
  | .podrt d =>
    let x := fieldOr (· == 3) 30 2 (s.tables.route d) (keepBits 0xC03F3F3F#32 (v.setWidth 32))
    s.modTables fun t => { t with podrt := Cells.set 0 t.podrt d x }
  | .slott chip row =>
    let old := s.row chip row
    let new := slotFormed old v
    if old.getLsbD 255 then s.chipError (s.tables.pchipOf chip) .slot
    else if new.getLsbD 255 && recAction new == 0 then (s.writeRow chip row new).endAction chip row 0
    else s.writeRow chip row new
  | .chipErr p => s.modTables fun t => { t with chipErr := Cells.set 0 t.chipErr p (v.setWidth 8) }

/-! ## Remap (R24, R26, R110, R233, R438) -/

/-- Whether a logical chiplet is not what it was: out of service, or served by another physical one. -/
def Tables.moved (t old : Tables) (c : Nat) : Bool := !t.chipValid c || (old.chipValid c && old.pchipOf c != t.pchipOf c)
/-- Containers are distributed again (R110): copies on chiplets that are gone or have moved are lost, and every valid chiplet that
lacks one gets one. -/
def State.redistribute (s : State) (old : Tables) : State :=
  s.images.keys.foldl (fun (s : State) i =>
    let im : Image := Cells.get {} s.images i
    let kept := im.holders.filter fun c => !s.tables.moved old c
    let s := if kept.length = im.holders.length then s else { s with images := Cells.set {} s.images i { im with holders := kept } }
    let lack := (List.range 256).filter fun c => s.tables.chipValid c && !(old.chipValid c && old.pchipOf c == s.tables.pchipOf c)
    lack.foldl (fun s c => s.post (.containerForward i c)) s) s
/-- What follows from chiplets that go out of service, come back or move: queued launches over one that is gone retire with status 0x05,
launches that hold one of its cores with 0x0C, containers are distributed again. -/
def State.chipsChanged (s : State) (old : Tables) : State :=
  let gone (c : Nat) : Bool := old.chipValid c && !s.tables.chipValid c
  let lost (n : Nat) : Option Nat := (s.launch n).cores.find? fun c => gone (chipOf c)
  let s := s.openLaunches.foldl (fun (s : State) n => match lost n with
    | some c => if (s.launch n).stage = .queued then s.retireWith n 0x05 else s.unrecoverable n c
    | none => s) s
  if s.tables.cmap = old.cmap then s else s.redistribute old
/-- New detour tables, the pair rule, and the ports of dead routers, where a state may have changed (R233, R438). -/
def State.reroute (s : State) : State := (s.modTables Tables.rerouted).edgePorts
/-- What follows from a write of a table by itself. -/
def State.regWritten (s : State) (r : MgmtReg) (old : Tables) : State :=
  match r with
  | .cmap _ => (s.chipsChanged old).writeCaps
  | .cstate _ => (s.reroute.chipsChanged old).writeCaps
  | _ => s
def execMgmtRegisterWrite (s : State) : Res :=
  runEvent .mgmtRegisterWrite s fun e s =>
    match e with
    | .mgmtRegisterWrite r v => (s.putReg r v).regWritten r s.tables
    | _ => s
/-- Write remap tables with traffic drained: values formed as the routers form them; new detour tables and the pair rule where a
state has changed. -/
def State.remap (s : State) (r : Remap) : State :=
  let old := s.tables
  let s := r.smaps.foldl (fun s p => s.putSmap p.1 p.2) s
  let s := r.cmaps.foldl (fun s p => s.putReg (.cmap p.1) (p.2.setWidth 256)) s
  let s := r.cstates.foldl (fun s p => s.putReg (.cstate p.1) (p.2.setWidth 256)) s
  let s := if r.cstates.isEmpty then s else s.reroute
  (s.chipsChanged old).writeCaps
def execRemapChange (s : State) : Res :=
  runEvent .remapChange s fun e s =>
    match e with
    | .remapChange r => s.remap r
    | _ => s

/-! ## Restoring groups (R291, R293, R294) -/

/-- A group as its last checkpoint leaves it: no counters, entries, queues or FIFOs; ports and channels as they were bound. -/
def Group.fromCkpt (g : Group) (k : Ckpt) (seq : Nat) : Group :=
  { g with
    ctxs := ⟨k.ctxs.list.map fun p => (p.1, { p.2 with
      reports := [], clock := Cells.empty, observed := [], fenceRel := none, bar := none, follow := none, touched := false
      agent := seq + p.1, region := 1 })⟩
    trapvec := k.trapvec, lqs := k.lqs, counters := Cells.empty, entries := Cells.empty, crossed := [], firings := []
    queues := Cells.empty, fifos := Cells.empty, progs := Cells.empty, sideLog := [], lent := [], taskBusy := [], suspended := []
    cmask := BitVec.allOnes 64, emask := BitVec.allOnes 64, boundSeq := seq, absent := false }
/-- Write the ranges of a checkpoint into a partition that has been zeroed. -/
def State.restoreRanges (s : State) (core : Nat) (g : Group) (k : Ckpt) : State :=
  let s := s.zeroGranules core g.gmap g.part
  k.ranges.foldl (fun (s : State) (r : Nat × List Byte × List Bool) =>
    (List.range r.2.2.length).foldl (fun (s : State) i =>
      let key := scratchKey core (gmapOff g.gmap (r.1 + 128 * i))
      let st := s.store.setLine key (BitVec.allOnes 128) (lineOf (r.2.1.drop (128 * i)))
      { s with store := st.setEmpty key (r.2.2.getD i false) }) s) s
/-- The parked owners of a group's lent slots take a report too: each leaves its wait for it (R45, R272, R294). -/
def State.tellParked (s : State) (core launch : Nat) (r : Report) : State :=
  match s.launchGroup core launch with
  | none => s
  | some g =>
    g.lent.foldl (fun s p => match pageWait p.2 with
      | some va => s.post (.pageFaultWake ⟨core, p.1, launch⟩ va)
      | none => s) (s.modLaunchGroup core launch fun g =>
        { g with lent := g.lent.map fun p => (p.1, { p.2 with reports := p.2.reports ++ [r] }) })
/-- Peer rollback: the other groups of the launch are told, open barriers of the core start again, its collectives are gone. -/
def State.peerRollback (s : State) (launch core seq : Nat) : State :=
  let rect := (s.launch launch).rect.toNat
  let open' := (s.launch launch).bars.keys.filter fun d => (subgroupCores rect d).contains core
  let epoch (d : Nat) : Nat := ((s.launch launch).bar d).epoch
  let s := open'.foldl (fun s d => s.modBar launch d fun b => { b with arrived := [], rels := [], sums := [], gather := none }) s
  let tval := BitVec.ofNat 64 (seq % 2 ^ 32 * 2 ^ 32 + core)
  (s.launch launch).cores.foldl (fun (s : State) c =>
    let s := s.modLaunchGroup c launch fun g => { g with ctxs := ⟨g.ctxs.list.map fun p =>
      (p.1, match p.2.bar with
        | some (n, d) => if open'.contains d && n = epoch d then { p.2 with bar := none } else p.2
        | none => p.2)⟩ }
    if c = core then s
    else ((List.range 11).foldl (fun s i => s.report ⟨c, i, launch⟩ ⟨0x15, tval, false, none⟩) s).tellParked c launch
      ⟨0x15, tval, false, none⟩) s
/-- The execution of a group is lost: its marks go (R144), and it no longer counts in the runs and calls of collectives (R226). -/
def State.loseExecution (s : State) (core launch : Nat) : State :=
  let rect := (s.launch launch).rect.toNat
  let marks : Cells (List Mark) := ⟨s.store.marks.list.filterMap fun p =>
    match p.2.filter fun m => !(m.core == core && m.launch == launch) with
    | [] => none
    | ms => some (p.1, ms)⟩
  let left (c : Collective) : Collective :=
    { c with
      started := c.started.filter fun m => !((c.own s.myPanel rect).contains (m, core))
      waiting := c.waiting.erase core
      leaving := c.leaving.erase core }
  let s : State := { s with store := { s.store with marks := marks } }
  s.modLaunch launch fun l => { l with colls := l.colls.map left }
/-- Restore the group of a launch on a core from its checkpoint, bound or saved; without one the launch is unrecoverable. -/
def State.restoreGroup (s : State) (core launch : Nat) : State :=
  match s.launchGroup core launch with
  | none => s
  | some g =>
    match g.ckpt with
    | none => s.unrecoverable launch core
    | some k =>
      let seq := s.nextAgent
      let s := (({ s with nextAgent := seq + 16 }.loseExecution core launch).restoreRanges core g k).modLaunchGroup core launch
        fun g => g.fromCkpt k seq
      s.peerRollback launch core k.seq
/-- What a failed site loses: its L1, its TLB, what ran on it; remote accesses that waited there are made again. -/
def State.loseSite (s : State) (core : Nat) : State :=
  let c := s.core core
  let again := (c.waiters.filter fun w => !w.isLocal).map fun w => Event.remoteSyncAccess w.msg
  let s := s.modCore core fun c => { c with
    l1 := Cells.empty, tlb := [], keeps := [], mmas := [], waiters := [], backoffs := [], stop := 0, isolated := false, reserved := 0, fills := [],
    owed := c.owed.map fun o => (o.1, []) }
  again.foldl State.post s
/-- The launches with registers or a partition on a core's site. -/
def State.onSite (s : State) (core : Nat) : List Nat :=
  (((s.core core).group :: (s.core core).saved).filter fun g =>
    g.launch != 0 && (g.launch == (s.group core).launch || (!g.absent && g.part != 0))).map (·.launch)
/-- The core that a site serves. -/
def State.coreOfSite (s : State) (pchip site : Nat) : Option Nat :=
  (((List.range 256).find? fun c => s.tables.chipValid c && s.tables.pchipOf c == pchip).bind fun c =>
    ((List.range 8).find? fun i => siteOf (s.tables.smapOf pchip) i == site).map fun i => coreOfLocal c i)
/-- The logical chiplet that a physical one serves. -/
def State.chipServed (s : State) (pchip : Nat) : Option Nat :=
  (List.range 256).find? fun c => s.tables.chipValid c && s.tables.pchipOf c == pchip

/-! ## Containment (R292, R293) -/

/-- Clear the good bit of a site. -/
def smapWithout (v : BitVec 64) (site : Nat) : BitVec 64 := v &&& ~~~(1#64 <<< (32 + site))
/-- Let local index i be served by a site. -/
def smapServe (v : BitVec 64) (i site : Nat) : BitVec 64 := (v &&& ~~~(0xF#64 <<< (4 * i))) ||| (BitVec.ofNat 64 site <<< (4 * i))
/-- A spare good site of a chiplet. -/
def spareSite (v : BitVec 64) : Option Nat :=
  (List.range 9).find? fun k => v.getLsbD (32 + k) && !((List.range 8).any fun i => siteOf v i == k)
/-- A spare good physical chiplet. -/
def Tables.spareChip (t : Tables) : Option Nat :=
  (List.range 288).find? fun p => t.cstateOf p == 0 && !((List.range 256).any fun c => t.chipValid c && t.pchipOf c == p)
/-- The SMAP that takes a failed site out of service: its good bit cleared, and the index that names it served by a spare site. None:
there is no spare. -/
def smapAfter (v : BitVec 64) (site : Nat) : Option (BitVec 64) :=
  match (List.range 8).find? fun i => siteOf v i == site with
  | none => some (smapWithout v site)
  | some i => (spareSite v).map fun k => smapServe (smapWithout v site) i k
/-- A vault that cannot be read is lost, with the save areas of its chiplet and the checkpoints of the chiplet before it. -/
def State.loseVault (s : State) (chip : Nat) : State :=
  let s := { s with store := s.store.zero (vaultKey chip 0) (2 ^ 29) }
  let before := 16 * (chip / 16) + (chip % 16 + 15) % 16
  let s := (List.range 8).foldl (fun s i => s.modCore (coreOfLocal before i) fun c => { c with
    group := { c.group with ckpt := none }, saved := c.saved.map fun g => { g with ckpt := none } }) s
  let lost := (List.range 8).flatMap fun i => (s.core (coreOfLocal chip i)).saved.map fun g => (g.launch, coreOfLocal chip i)
  lost.foldl (fun (s : State) p => if (s.launch p.1).stage = .retired then s else s.unrecoverable p.1 p.2) s
/-- The logical chiplet moves whole to a spare chiplet, or goes out of service. -/
def State.moveChip (s : State) (chip pchip : Nat) (dead : BitVec 2) (vaultReadable : Bool) (old : Tables)
    (restore : State → State) : State :=
  let spare := s.tables.spareChip
  let s := s.putReg (.cstate pchip) (dead.setWidth 256)
  match spare with
  | some p =>
    let s := s.putReg (.cmap chip) (BitVec.ofNat 256 (2 ^ 15 + p))
    let s := if vaultReadable then s else s.loseVault chip
    ((restore s.reroute).chipsChanged old).writeCaps
  | none => ((s.modTables fun t => t.dropChip chip).reroute.chipsChanged old).writeCaps
/-- The steps of containment. -/
def State.contain (s : State) (pchip site : Nat) (routerFailed vaultReadable : Bool) : State :=
  let old := s.tables
  let core := s.coreOfSite pchip site
  let smap := if site < 9 then smapAfter (s.tables.smapOf pchip) site else none
  let dead : BitVec 2 := if routerFailed then 2 else 1
  let restore (s : State) : State :=
    match core with
    | none => s
    | some c =>
      let hit := s.onSite c
      hit.foldl (fun s n => s.restoreGroup c n) (s.loseSite c)
  match s.chipServed pchip with
  | none =>
    let s := (smap.map (s.putSmap pchip)).getD s
    if routerFailed then ((s.putReg (.cstate pchip) 2).reroute.chipsChanged old).writeCaps else s
  | some chip =>
    if routerFailed then s.moveChip chip pchip dead vaultReadable old restore
    else
      match smap with
      | some v => restore (s.putSmap pchip v)
      | none => if core.isSome then s.moveChip chip pchip dead vaultReadable old restore else s
def execContainment (s : State) : Res :=
  runEvent .containment s fun e s =>
    match e with
    | .containment p k r v => s.contain p k r v
    | _ => s

/-! ## Uncorrectable errors (R290, R296) -/

/-- An armed error is spent when its unit is hit. -/
def State.disarm (s : State) : State := { s with inj := { s.inj with arm := none } }
/-- Whether the armed error is of a unit, by its target and a 64-byte-aligned address. -/
def armedAt (inj : Injector) (tgt a : Nat) : Bool :=
  match inj.arm with
  | some (_, t, x) => t == tgt && x.toNat / 64 == a / 64
  | none => false
/-- Mark a unit poisoned, or count a corrected flip where an armed error asks for one. -/
def State.hitUnit (s : State) (armed : Bool) (poison : State → State) : State :=
  if armed then
    (match s.inj.arm with
     | some (0, _, _) => s.disarm.bump .corrected
     | _ => poison s.disarm)
  else poison s
/-- Poison at a storage key. -/
def State.poisonAt (k : Nat) (s : State) : State := { s with store := s.store.setPoison k true }
def execUncorrectableError (s : State) : Res :=
  runEvent .uncorrectableError s fun e s =>
    match e with
    | .uncorrectableError u =>
      (match u with
       | .sector pa => s.hitUnit (armedAt s.inj 0 (pa % 2 ^ 46)) (State.poisonAt (physKey pa))
       | .scratchLine core line =>
         let a := s.tables.pchipOf (chipOf core) * 2 ^ 36
           + siteOf (s.tables.smapOf (s.tables.pchipOf (chipOf core))) (localIdx core) * 2 ^ 32 + 128 * line
         s.hitUnit (armedAt s.inj 2 a || armedAt s.inj 2 (a + 64)) fun s =>
           State.poisonAt (scratchKey core (128 * line) + 64) (State.poisonAt (scratchKey core (128 * line)) s)
       | .vaultSector chip off =>
         s.hitUnit (armedAt s.inj 1 (s.tables.pchipOf chip * 2 ^ 36 + off)) (State.poisonAt (vaultKey chip off))
       | .l1Line core k => s.modCore core fun c => if c.line k = {} then c else c.setL1 k { c.line k with poison := 3 }
       | .control p k => s.post (.containment p k false true))
    | _ => s

/-! ## Migration (R67) -/

/-- A group moves: it is saved first; its new place has an empty L1 and TLB; the old one keeps a stub for its name; then it resumes. -/
def State.migrate (s : State) (core : Nat) : State :=
  let g := s.group core
  if g.launch ≠ 0 then
    (if s.rowIdle core && (s.core core).saved.length < 8 then s.actRow 2 core g else s).post (.migration core)
  else
    match (s.core core).saved.find? fun g => (s.launch g.launch).stage == .bound && !g.absent with
    | none => s
    | some g =>
      let s := s.modCore core fun c => { c with
        l1 := Cells.empty, tlb := [], keeps := [], stubs := (g.gname.toNat % 2 ^ 32, g.launch) :: c.stubs }
      (s.actRow 3 core g).post (.stubRetire core)
def execMigration (s : State) : Res :=
  runEvent .migration s fun e s =>
    match e with
    | .migration core => s.migrate core
    | _ => s
/-- The stub goes once the deposit networks have been drained past the update of the name table. -/
def execStubRetire (s : State) : Res :=
  runEvent .stubRetire s fun e s =>
    match e with
    | .stubRetire core => s.modCore core fun c => { c with stubs := [] }
    | _ => s

/-! ## Clocks (R299, R300, R302) -/

def execClockChange (s : State) : Res :=
  runEvent .clockChange s fun e s =>
    match e with
    | .clockChange chip mhz => (s.modTables fun t => { t with mhz := Cells.set 1950 t.mhz chip mhz }).writeCaps
    | _ => s
def execSupplySagTrip (s : State) : Res :=
  runEvent .supplySagTrip s fun e s =>
    match e with
    | .supplySagTrip core => s.modCore core fun c => { c with stretched := true }
    | _ => s
def execSupplySagClear (s : State) : Res :=
  runEvent .supplySagClear s fun e s =>
    match e with
    | .supplySagClear core => s.modCore core fun c => { c with stretched := false }
    | _ => s

end Sys2Proof.Machine
end

