-- ==== Sys2Proof/Machine/Masks.lean ====
section
/-! DEFINITION. Sys2Proof/Machine/Masks.lean: mask instructions (R373, R380). -/
namespace Sys2Proof.Machine

/-- A mask from two masks. -/
def mask2 (d a b : MReg) (f : MaskW → MaskW → MaskW) (s : State) : Res :=
  instr 8 (do
    let x ← rdM a
    let y ← rdM b
    wrM d (f x y)) s
/-- The lane count that field b gives (R373). -/
def countOf (b : SReg) : M Nat := do
  let v ← rdS b
  return if b = 0 then 128 else laneCount v

def execMand (d a b : MReg) (s : State) : Res := mask2 d a b (fun x y => x &&& y) s
def execMor (d a b : MReg) (s : State) : Res := mask2 d a b (fun x y => x ||| y) s
def execMxor (d a b : MReg) (s : State) : Res := mask2 d a b (fun x y => x ^^^ y) s
def execMnot (d a : MReg) (b : SReg) (s : State) : Res :=
  instr 8 (do
    names 0x73 [(24, b)]
    let n ← countOf b
    let x ← rdM a
    wrM d (~~~x &&& BitVec.ofNat 128 (2 ^ n - 1))) s
def execMpopc (d : SReg) (a : MReg) (b : SReg) (s : State) : Res :=
  instr 8 (do
    names 0x74 [(10, d), (24, b)]
    let n ← countOf b
    let x ← rdM a
    wrS d (BitVec.ofNat 64 (onesIn x.toNat n))) s
def execMfirst (d : SReg) (a : MReg) (b : SReg) (s : State) : Res :=
  instr 8 (do
    names 0x75 [(10, d), (24, b)]
    let n ← countOf b
    let x ← rdM a
    wrS d (BitVec.ofNat 64 (lowestOne x.toNat n))) s
def execMset (d : MReg) (a b : SReg) (s : State) : Res :=
  instr 8 (do
    names 0x76 [(17, a), (24, b)]
    let x ← rdS a
    let y ← rdS b
    wrM d (y ++ x)) s
def execMsetN (d : MReg) (n : BitVec 32) (s : State) : Res :=
  instr 8 (wrM d (BitVec.ofNat 128 (2 ^ n.toNat - 1))) s
/-- A mask from the top bits of lanes of width w (R380). -/
def msetLanes (w : Nat) (d : MReg) (a : VReg) (s : State) : Res :=
  instr 8 (do
    let x ← rdV a
    wrM d (maskOfLanes (1024 / w) (fun _ => true) true 0 fun i => x.getLsbD (w * i + w - 1))) s
def execMsetB8 (d : MReg) (a : VReg) (s : State) : Res := msetLanes 8 d a s
def execMsetB16 (d : MReg) (a : VReg) (s : State) : Res := msetLanes 16 d a s
def execMsetB32 (d : MReg) (a : VReg) (s : State) : Res := msetLanes 32 d a s
def execMmov (d a : MReg) (s : State) : Res := instr 8 (do wrM d (← rdM a)) s
def execMmovS (hi : Bool) (d : SReg) (a : MReg) (s : State) : Res :=
  instr 8 (do
    names 0x7C [(10, d)]
    let x ← rdM a
    wrS d (if hi then x.extractLsb' 64 64 else x.extractLsb' 0 64)) s
/-- Lanes of width w from a mask (R380). -/
def mmovLanes (w : Nat) (m : VMask) (d : VReg) (a : MReg) (s : State) : Res :=
  instr 8 (do
    freshV d
    let x ← rdM a
    vecOp w (1024 / w) m (.v d) wrVQ fun i => plainRes (if x.getLsbD i then 2 ^ w - 1 else 0)) s
def execMmovB8 (m : VMask) (d : VReg) (a : MReg) (s : State) : Res := mmovLanes 8 m d a s
def execMmovB16 (m : VMask) (d : VReg) (a : MReg) (s : State) : Res := mmovLanes 16 m d a s
def execMmovB32 (m : VMask) (d : VReg) (a : MReg) (s : State) : Res := mmovLanes 32 m d a s
def execMsetLo (d : MReg) (imm : Word) (s : State) : Res :=
  instr 12 (do
    let x ← rdM d
    wrM d (x.extractLsb' 64 64 ++ imm)) s
def execMsetHi (d : MReg) (imm : Word) (s : State) : Res :=
  instr 12 (do
    let x ← rdM d
    wrM d (imm ++ x.extractLsb' 0 64)) s

end Sys2Proof.Machine
end

