-- ==== Sys2Proof/Machine/Dispatch.lean ====
section
/-! DEFINITION. Sys2Proof/Machine/Dispatch.lean: the one match from an instruction or device event to its meaning. -/
namespace Sys2Proof.Machine

/-- Perform one step of the opcode table. -/
def exec (i : Instr) (s : State) : Host.Outcome State Fault Refusal :=
  match i with
  | .add d a b => Sys2Proof.Machine.execAdd d a b s
  | .sub d a b => Sys2Proof.Machine.execSub d a b s
  | .mul d a b => Sys2Proof.Machine.execMul d a b s
  | .mulh u d a b => Sys2Proof.Machine.execMulh u d a b s
  | .mad d a b c => Sys2Proof.Machine.execMad d a b c s
  | .div u d a b => Sys2Proof.Machine.execDiv u d a b s
  | .rem u d a b => Sys2Proof.Machine.execRem u d a b s
  | .and d a b => Sys2Proof.Machine.execAnd d a b s
  | .or d a b => Sys2Proof.Machine.execOr d a b s
  | .xor d a b => Sys2Proof.Machine.execXor d a b s
  | .shl d a b => Sys2Proof.Machine.execShl d a b s
  | .shr d a b => Sys2Proof.Machine.execShr d a b s
  | .sra d a b => Sys2Proof.Machine.execSra d a b s
  | .rot d a b => Sys2Proof.Machine.execRot d a b s
  | .min u d a b => Sys2Proof.Machine.execMin u d a b s
  | .max u d a b => Sys2Proof.Machine.execMax u d a b s
  | .addi d a imm => Sys2Proof.Machine.execAddi d a imm s
  | .andi d a imm => Sys2Proof.Machine.execAndi d a imm s
  | .ori d a imm => Sys2Proof.Machine.execOri d a imm s
  | .xori d a imm => Sys2Proof.Machine.execXori d a imm s
  | .shli d a n => Sys2Proof.Machine.execShli d a n s
  | .shri d a n => Sys2Proof.Machine.execShri d a n s
  | .srai d a n => Sys2Proof.Machine.execSrai d a n s
  | .cmpi c d a imm => Sys2Proof.Machine.execCmpi c d a imm s
  | .movi d imm => Sys2Proof.Machine.execMovi d imm s
  | .bext sg d a pos len => Sys2Proof.Machine.execBext sg d a pos len s
  | .bins d a pos len => Sys2Proof.Machine.execBins d a pos len s
  | .clz d a => Sys2Proof.Machine.execClz d a s
  | .ctz d a => Sys2Proof.Machine.execCtz d a s
  | .popc d a => Sys2Proof.Machine.execPopc d a s
  | .cmp c d a b => Sys2Proof.Machine.execCmp c d a b s
  | .sel d a b c => Sys2Proof.Machine.execSel d a b c s
  | .faddF32 rm sat d a b => Sys2Proof.Machine.execFaddF32 rm sat d a b s
  | .faddF64 rm sat d a b => Sys2Proof.Machine.execFaddF64 rm sat d a b s
  | .fsubF32 rm sat d a b => Sys2Proof.Machine.execFsubF32 rm sat d a b s
  | .fsubF64 rm sat d a b => Sys2Proof.Machine.execFsubF64 rm sat d a b s
  | .fmulF32 rm sat d a b => Sys2Proof.Machine.execFmulF32 rm sat d a b s
  | .fmulF64 rm sat d a b => Sys2Proof.Machine.execFmulF64 rm sat d a b s
  | .ffmaF32 rm sat d a b c => Sys2Proof.Machine.execFfmaF32 rm sat d a b c s
  | .ffmaF64 rm sat d a b c => Sys2Proof.Machine.execFfmaF64 rm sat d a b c s
  | .fdivF32 rm sat d a b => Sys2Proof.Machine.execFdivF32 rm sat d a b s
  | .fdivF64 rm sat d a b => Sys2Proof.Machine.execFdivF64 rm sat d a b s
  | .fsqrtF32 rm sat d a => Sys2Proof.Machine.execFsqrtF32 rm sat d a s
  | .fsqrtF64 rm sat d a => Sys2Proof.Machine.execFsqrtF64 rm sat d a s
  | .fmin t d a b => Sys2Proof.Machine.execFmin t d a b s
  | .fmax t d a b => Sys2Proof.Machine.execFmax t d a b s
  | .fcmp t c d a b => Sys2Proof.Machine.execFcmp t c d a b s
  | .fcvt dt st om rm d a => Sys2Proof.Machine.execFcvt dt st om rm d a s
  | .br off => Sys2Proof.Machine.execBr off s
  | .bcnd c a b off => Sys2Proof.Machine.execBcnd c a b off s
  | .bmask c a b off => Sys2Proof.Machine.execBmask c a b off s
  | .call off => Sys2Proof.Machine.execCall off s
  | .callr a => Sys2Proof.Machine.execCallr a s
  | .jr a => Sys2Proof.Machine.execJr a s
  | .loop a off => Sys2Proof.Machine.execLoop a off s
  | .halt a => Sys2Proof.Machine.execHalt a s
  | .brAbs target => Sys2Proof.Machine.execBrAbs target s
  | .vaddI t sat m d a b => Sys2Proof.Machine.execVaddI t sat m d a b s
  | .vaddF t rm sat m d a b => Sys2Proof.Machine.execVaddF t rm sat m d a b s
  | .vsubI t sat m d a b => Sys2Proof.Machine.execVsubI t sat m d a b s
  | .vsubF t rm sat m d a b => Sys2Proof.Machine.execVsubF t rm sat m d a b s
  | .vmulI t sat m d a b => Sys2Proof.Machine.execVmulI t sat m d a b s
  | .vmulF t rm sat m d a b => Sys2Proof.Machine.execVmulF t rm sat m d a b s
  | .vfmaI t sat m d a b c => Sys2Proof.Machine.execVfmaI t sat m d a b c s
  | .vfmaF t rm sat m d a b c => Sys2Proof.Machine.execVfmaF t rm sat m d a b c s
  | .vmaxI t m d a b => Sys2Proof.Machine.execVmaxI t m d a b s
  | .vmaxF t m d a b => Sys2Proof.Machine.execVmaxF t m d a b s
  | .vminI t m d a b => Sys2Proof.Machine.execVminI t m d a b s
  | .vminF t m d a b => Sys2Proof.Machine.execVminF t m d a b s
  | .vcmpI t c m d a b => Sys2Proof.Machine.execVcmpI t c m d a b s
  | .vcmpF t c m d a b => Sys2Proof.Machine.execVcmpF t c m d a b s
  | .vabs t sat m d a => Sys2Proof.Machine.execVabs t sat m d a s
  | .vneg t sat m d a => Sys2Proof.Machine.execVneg t sat m d a s
  | .vdiv t rm sat m d a b => Sys2Proof.Machine.execVdiv t rm sat m d a b s
  | .vsqrt t rm sat m d a => Sys2Proof.Machine.execVsqrt t rm sat m d a s
  | .vrcp t rm sat m d a => Sys2Proof.Machine.execVrcp t rm sat m d a s
  | .vrsqrt t rm sat m d a => Sys2Proof.Machine.execVrsqrt t rm sat m d a s
  | .vexp2 t rm sat m d a => Sys2Proof.Machine.execVexp2 t rm sat m d a s
  | .vlog2 t rm sat m d a => Sys2Proof.Machine.execVlog2 t rm sat m d a s
  | .vdot t rm sat m d a b c => Sys2Proof.Machine.execVdot t rm sat m d a b c s
  | .vand t m d a b => Sys2Proof.Machine.execVand t m d a b s
  | .vor t m d a b => Sys2Proof.Machine.execVor t m d a b s
  | .vxor t m d a b => Sys2Proof.Machine.execVxor t m d a b s
  | .vshl t m d a b => Sys2Proof.Machine.execVshl t m d a b s
  | .vshr t m d a b => Sys2Proof.Machine.execVshr t m d a b s
  | .vsra t m d a b => Sys2Proof.Machine.execVsra t m d a b s
  | .vsel t m d a b => Sys2Proof.Machine.execVsel t m d a b s
  | .vmov t m d a => Sys2Proof.Machine.execVmov t m d a s
  | .vbcast t m d a => Sys2Proof.Machine.execVbcast t m d a s
  | .vperm t m d a b c => Sys2Proof.Machine.execVperm t m d a b c s
  | .vredI op t m d a => Sys2Proof.Machine.execVredI op t m d a s
  | .vredF op t rm sat m d a => Sys2Proof.Machine.execVredF op t rm sat m d a s
  | .vscanI op t sat m d a => Sys2Proof.Machine.execVscanI op t sat m d a s
  | .vscanF op t rm sat m d a => Sys2Proof.Machine.execVscanF op t rm sat m d a s
  | .vslide t m d a b => Sys2Proof.Machine.execVslide t m d a b s
  | .vzip hi uz t m d a b => Sys2Proof.Machine.execVzip hi uz t m d a b s
  | .vext t d a b => Sys2Proof.Machine.execVext t d a b s
  | .vextImm t d a imm => Sys2Proof.Machine.execVextImm t d a imm s
  | .vins t d a b => Sys2Proof.Machine.execVins t d a b s
  | .vcvtSame dt st om rm part m d a => Sys2Proof.Machine.execVcvtSame dt st om rm part m d a s
  | .vcvtWide dt st om rm part m d a => Sys2Proof.Machine.execVcvtWide dt st om rm part m d a s
  | .vcvtNarrow dt st om rm part m d a => Sys2Proof.Machine.execVcvtNarrow dt st om rm part m d a s
  | .vqnt f om rm part d b a => Sys2Proof.Machine.execVqnt f om rm part d b a s
  | .vdqnt f om part d a b => Sys2Proof.Machine.execVdqnt f om part d a b s
  | .vrnd m d a => Sys2Proof.Machine.execVrnd m d a s
  | .mand d a b => Sys2Proof.Machine.execMand d a b s
  | .mor d a b => Sys2Proof.Machine.execMor d a b s
  | .mxor d a b => Sys2Proof.Machine.execMxor d a b s
  | .mnot d a b => Sys2Proof.Machine.execMnot d a b s
  | .mpopc d a b => Sys2Proof.Machine.execMpopc d a b s
  | .mfirst d a b => Sys2Proof.Machine.execMfirst d a b s
  | .mset d a b => Sys2Proof.Machine.execMset d a b s
  | .msetN d n => Sys2Proof.Machine.execMsetN d n s
  | .msetB8 d a => Sys2Proof.Machine.execMsetB8 d a s
  | .msetB16 d a => Sys2Proof.Machine.execMsetB16 d a s
  | .msetB32 d a => Sys2Proof.Machine.execMsetB32 d a s
  | .mmov d a => Sys2Proof.Machine.execMmov d a s
  | .mmovS hi d a => Sys2Proof.Machine.execMmovS hi d a s
  | .mmovB8 m d a => Sys2Proof.Machine.execMmovB8 m d a s
  | .mmovB16 m d a => Sys2Proof.Machine.execMmovB16 m d a s
  | .mmovB32 m d a => Sys2Proof.Machine.execMmovB32 m d a s
  | .ld sz d m => Sys2Proof.Machine.execLd sz d m s
  | .ldOrdered o sc sz d m => Sys2Proof.Machine.execLdOrdered o sc sz d m s
  | .st sz d m => Sys2Proof.Machine.execSt sz d m s
  | .stOrdered o sc sz d m => Sys2Proof.Machine.execStOrdered o sc sz d m s
  | .vld k d m => Sys2Proof.Machine.execVld k d m s
  | .vldOrdered o sc k d m => Sys2Proof.Machine.execVldOrdered o sc k d m s
  | .vst k d m => Sys2Proof.Machine.execVst k d m s
  | .vstOrdered o sc k d m => Sys2Proof.Machine.execVstOrdered o sc k d m s
  | .vldx w k d x => Sys2Proof.Machine.execVldx w k d x s
  | .vldxOrdered o sc w k d x => Sys2Proof.Machine.execVldxOrdered o sc w k d x s
  | .vstx w k d x => Sys2Proof.Machine.execVstx w k d x s
  | .vstxOrdered o sc w k d x => Sys2Proof.Machine.execVstxOrdered o sc w k d x s
  | .vlds w k d m => Sys2Proof.Machine.execVlds w k d m s
  | .vldsOrdered o sc w k d m => Sys2Proof.Machine.execVldsOrdered o sc w k d m s
  | .vsts w k d m => Sys2Proof.Machine.execVsts w k d m s
  | .vstsOrdered o sc w k d m => Sys2Proof.Machine.execVstsOrdered o sc w k d m s
  | .ldfS mode sc sz d m => Sys2Proof.Machine.execLdfS mode sc sz d m s
  | .ldfV mode sc k d m => Sys2Proof.Machine.execLdfV mode sc k d m s
  | .stfS mode sc sz d m => Sys2Proof.Machine.execStfS mode sc sz d m s
  | .stfV mode sc k d m => Sys2Proof.Machine.execStfV mode sc k d m s
  | .fset m => Sys2Proof.Machine.execFset m s
  | .fclr m => Sys2Proof.Machine.execFclr m s
  | .amo32 op o sc d a disp b => Sys2Proof.Machine.execAmo32 op o sc d a disp b s
  | .amo64 op o sc d a disp b => Sys2Proof.Machine.execAmo64 op o sc d a disp b s
  | .vamo32 op o sc k d a b scale disp => Sys2Proof.Machine.execVamo32 op o sc k d a b scale disp s
  | .vamo16 op o sc k d a b scale disp => Sys2Proof.Machine.execVamo16 op o sc k d a b scale disp s
  | .stn w d a b disp => Sys2Proof.Machine.execStn w d a b disp s
  | .fence o sc => Sys2Proof.Machine.execFence o sc s
  | .pref m => Sys2Proof.Machine.execPref m s
  | .prefRange a disp b => Sys2Proof.Machine.execPrefRange a disp b s
  | .cwbr sc d a disp b => Sys2Proof.Machine.execCwbr sc d a disp b s
  | .cinvr sc d a disp b => Sys2Proof.Machine.execCinvr sc d a disp b s
  | .pbind d q a => Sys2Proof.Machine.execPbind d q a s
  | .pfree q => Sys2Proof.Machine.execPfree q s
  | .pstat d q => Sys2Proof.Machine.execPstat d q s
  | .pclose q => Sys2Proof.Machine.execPclose q s
  | .pmark q k => Sys2Proof.Machine.execPmark q k s
  | .start d b c => Sys2Proof.Machine.execStart d b c s
  | .spawn d a b c => Sys2Proof.Machine.execSpawn d a b c s
  | .join d a => Sys2Proof.Machine.execJoin d a s
  | .bar a b mask => Sys2Proof.Machine.execBar a b mask s
  | .follow d => Sys2Proof.Machine.execFollow d s
  | .task d a => Sys2Proof.Machine.execTask d a s
  | .ckpt d a => Sys2Proof.Machine.execCkpt d a s
  | .wake a b => Sys2Proof.Machine.execWake a b s
  | .hold d => Sys2Proof.Machine.execHold d s
  | .holdSet regs => Sys2Proof.Machine.execHoldSet regs s
  | .hclr d => Sys2Proof.Machine.execHclr d s
  | .depvK hi a b c k => Sys2Proof.Machine.execDepvK hi a b c k s
  | .depv hi a b c => Sys2Proof.Machine.execDepv hi a b c s
  | .depsK hi a b c k => Sys2Proof.Machine.execDepsK hi a b c k s
  | .deps hi a b c => Sys2Proof.Machine.execDeps hi a b c s
  | .post rearm any n d a b c k => Sys2Proof.Machine.execPost rearm any n d a b c k s
  | .unpost d n => Sys2Proof.Machine.execUnpost d n s
  | .ctradd k a => Sys2Proof.Machine.execCtradd k a s
  | .ctraddImm k imm => Sys2Proof.Machine.execCtraddImm k imm s
  | .ctrset k a => Sys2Proof.Machine.execCtrset k a s
  | .ctrsetImm k imm => Sys2Proof.Machine.execCtrsetImm k imm s
  | .ctrget sel k d => Sys2Proof.Machine.execCtrget sel k d s
  | .ctrwait k a => Sys2Proof.Machine.execCtrwait k a s
  | .ctrwaitImm k imm => Sys2Proof.Machine.execCtrwaitImm k imm s
  | .cpy f stage fmt swz a b c imm => Sys2Proof.Machine.execCpy f stage fmt swz a b c imm s
  | .cpy2d f stage swz a b c e imm => Sys2Proof.Machine.execCpy2d f stage swz a b c e imm s
  | .cpy3d f stage swz a b c e => Sys2Proof.Machine.execCpy3d f stage swz a b c e s
  | .cpyMc f stage swz a b c e imm => Sys2Proof.Machine.execCpyMc f stage swz a b c e imm s
  | .cpyQ f fmt a b c e => Sys2Proof.Machine.execCpyQ f fmt a b c e s
  | .cpyQ2d f fmt a b c e imm => Sys2Proof.Machine.execCpyQ2d f fmt a b c e imm s
  | .cpyPl f mid p a b c imm => Sys2Proof.Machine.execCpyPl f mid p a b c imm s
  | .cpyFill f a c imm => Sys2Proof.Machine.execCpyFill f a c imm s
  | .cpyxG f a b c e imm => Sys2Proof.Machine.execCpyxG f a b c e imm s
  | .cpyxS f a b c e imm => Sys2Proof.Machine.execCpyxS f a b c e imm s
  | .chainHead queue a => Sys2Proof.Machine.execChainHead queue a s
  | .chainApp queue => Sys2Proof.Machine.execChainApp queue s
  | .qfence mask queue => Sys2Proof.Machine.execQfence mask queue s
  | .qwait queue a => Sys2Proof.Machine.execQwait queue a s
  | .qwaitImm queue imm => Sys2Proof.Machine.execQwaitImm queue imm s
  | .qstat clr st queue d => Sys2Proof.Machine.execQstat clr st queue d s
  | .mma16Slot0 f => Sys2Proof.Machine.execMma16Slot0 f s
  | .mma16Slot1 f => Sys2Proof.Machine.execMma16Slot1 f s
  | .mma8fSlot0 f => Sys2Proof.Machine.execMma8fSlot0 f s
  | .mma8fSlot1 f => Sys2Proof.Machine.execMma8fSlot1 f s
  | .mma8iSlot0 f => Sys2Proof.Machine.execMma8iSlot0 f s
  | .mma8iSlot1 f => Sys2Proof.Machine.execMma8iSlot1 f s
  | .mma4Slot0 f => Sys2Proof.Machine.execMma4Slot0 f s
  | .mma4Slot1 f => Sys2Proof.Machine.execMma4Slot1 f s
  | .mupl1 imm => Sys2Proof.Machine.execMupl1 imm s
  | .mupl2 imm => Sys2Proof.Machine.execMupl2 imm s
  | .mupl3 imm => Sys2Proof.Machine.execMupl3 imm s
  | .mchkRow t swz part m d a => Sys2Proof.Machine.execMchkRow t swz part m d a s
  | .mchkCol t swz part m d a => Sys2Proof.Machine.execMchkCol t swz part m d a s
  | .mzero a => Sys2Proof.Machine.execMzero a s
  | .mfsr d n => Sys2Proof.Machine.execMfsr d n s
  | .mfsrReg d a => Sys2Proof.Machine.execMfsrReg d a s
  | .mtsr n a => Sys2Proof.Machine.execMtsr n a s
  | .mtsrReg b a => Sys2Proof.Machine.execMtsrReg b a s
  | .trap bp imm => Sys2Proof.Machine.execTrap bp imm s
  | .trapReg bp a => Sys2Proof.Machine.execTrapReg bp a s
  | .tlbw a b => Sys2Proof.Machine.execTlbw a b s
  | .tlbwRm a b c => Sys2Proof.Machine.execTlbwRm a b c s
  | .tlbiVa a => Sys2Proof.Machine.execTlbiVa a s
  | .tlbiTn a => Sys2Proof.Machine.execTlbiTn a s
  | .ecall d a imm => Sys2Proof.Machine.execEcall d a imm s
  | .ecallReg d a b => Sys2Proof.Machine.execEcallReg d a b s
  | .injArm d a b => Sys2Proof.Machine.execInjArm d a b s
  | .injOff d => Sys2Proof.Machine.execInjOff d s
  | .movw d imm => Sys2Proof.Machine.execMovw d imm s
  | .addiFx d imm => Sys2Proof.Machine.execAddiFx d imm s
  | .andiFx d imm => Sys2Proof.Machine.execAndiFx d imm s
  | .oriFx d imm => Sys2Proof.Machine.execOriFx d imm s
  | .xoriFx d imm => Sys2Proof.Machine.execXoriFx d imm s
  | .callAbs target => Sys2Proof.Machine.execCallAbs target s
  | .vbcastImm d imm => Sys2Proof.Machine.execVbcastImm d imm s
  | .msetLo d imm => Sys2Proof.Machine.execMsetLo d imm s
  | .msetHi d imm => Sys2Proof.Machine.execMsetHi d imm s
  | .ldAbs d addr => Sys2Proof.Machine.execLdAbs d addr s
  | .stAbs d addr => Sys2Proof.Machine.execStAbs d addr s
  | .vldAbs d addr => Sys2Proof.Machine.execVldAbs d addr s
  | .vstAbs d addr => Sys2Proof.Machine.execVstAbs d addr s
  | .startFe d c target => Sys2Proof.Machine.execStartFe d c target s
  | .spawnFe d a c target => Sys2Proof.Machine.execSpawnFe d a c target s
  | .cmpiFe c d a imm => Sys2Proof.Machine.execCmpiFe c d a imm s
  | .ret => Sys2Proof.Machine.execRet s
  | .nop => Sys2Proof.Machine.execNop s
  | .yield => Sys2Proof.Machine.execYield s
  | .wspill => Sys2Proof.Machine.execWspill s
  | .wfill => Sys2Proof.Machine.execWfill s
  | .nopW => Sys2Proof.Machine.execNopW s
  | .nopX => Sys2Proof.Machine.execNopX s
  | .leave => Sys2Proof.Machine.execLeave s
  | .tdone => Sys2Proof.Machine.execTdone s
  | .park => Sys2Proof.Machine.execPark s
  | .mzeroSlot0 => Sys2Proof.Machine.execMzeroSlot0 s
  | .mzeroSlot1 => Sys2Proof.Machine.execMzeroSlot1 s
  | .rett => Sys2Proof.Machine.execRett s
  | .tlbiAll => Sys2Proof.Machine.execTlbiAll s
  | .domainSwitch => Sys2Proof.Machine.execDomainSwitch s
  | .replayMarkRemoval => Sys2Proof.Machine.execReplayMarkRemoval s
  | .collectiveBuild => Sys2Proof.Machine.execCollectiveBuild s
  | .collectiveRelease => Sys2Proof.Machine.execCollectiveRelease s
  | .meterRecordService => Sys2Proof.Machine.execMeterRecordService s
  | .pageResolve => Sys2Proof.Machine.execPageResolve s
  | .pageFail => Sys2Proof.Machine.execPageFail s
  | .handlerTableInstall => Sys2Proof.Machine.execHandlerTableInstall s
  | .hostOpenSession => Sys2Proof.Machine.execHostOpenSession s
  | .hostCloseSession => Sys2Proof.Machine.execHostCloseSession s
  | .hostIdentity => Sys2Proof.Machine.execHostIdentity s
  | .hostWrite => Sys2Proof.Machine.execHostWrite s
  | .hostRead => Sys2Proof.Machine.execHostRead s
  | .hostNotify => Sys2Proof.Machine.execHostNotify s
  | .hostRegisterTenant => Sys2Proof.Machine.execHostRegisterTenant s
  | .hostDeregisterTenant => Sys2Proof.Machine.execHostDeregisterTenant s
  | .hostResetTenant => Sys2Proof.Machine.execHostResetTenant s
  | .hostLoadContainer => Sys2Proof.Machine.execHostLoadContainer s
  | .hostSubmitLaunch => Sys2Proof.Machine.execHostSubmitLaunch s
  | .hostLaunchStatus => Sys2Proof.Machine.execHostLaunchStatus s
  | .hostMeterRecord => Sys2Proof.Machine.execHostMeterRecord s
  | .hostRecablePod => Sys2Proof.Machine.execHostRecablePod s
  | .containerForward => Sys2Proof.Machine.execContainerForward s
  | .slotBind => Sys2Proof.Machine.execSlotBind s
  | .slotSave => Sys2Proof.Machine.execSlotSave s
  | .saveWritePhase => Sys2Proof.Machine.execSaveWritePhase s
  | .slotResume => Sys2Proof.Machine.execSlotResume s
  | .slotEvictPartition => Sys2Proof.Machine.execSlotEvictPartition s
  | .slotResetStop => Sys2Proof.Machine.execSlotResetStop s
  | .slotRetire => Sys2Proof.Machine.execSlotRetire s
  | .smapWrite => Sys2Proof.Machine.execSmapWrite s
  | .arrWrite => Sys2Proof.Machine.execArrWrite s
  | .vownWrite => Sys2Proof.Machine.execVownWrite s
  | .injctlWrite => Sys2Proof.Machine.execInjctlWrite s
  | .injseedWrite => Sys2Proof.Machine.execInjseedWrite s
  | .mgmtRegisterWrite => Sys2Proof.Machine.execMgmtRegisterWrite s
  | .boot => Sys2Proof.Machine.execBoot s
  | .recoveryImage => Sys2Proof.Machine.execRecoveryImage s
  | .remapChange => Sys2Proof.Machine.execRemapChange s
  | .containment => Sys2Proof.Machine.execContainment s
  | .migration => Sys2Proof.Machine.execMigration s
  | .stubRetire => Sys2Proof.Machine.execStubRetire s
  | .collectiveShrink => Sys2Proof.Machine.execCollectiveShrink s
  | .quantumBoundary => Sys2Proof.Machine.execQuantumBoundary s
  | .schedulingWindowEnd => Sys2Proof.Machine.execSchedulingWindowEnd s
  | .clockChange => Sys2Proof.Machine.execClockChange s
  | .supplySagTrip => Sys2Proof.Machine.execSupplySagTrip s
  | .trapReport => Sys2Proof.Machine.execTrapReport s
  | .contextReady => Sys2Proof.Machine.execContextReady s
  | .barrierComplete => Sys2Proof.Machine.execBarrierComplete s
  | .groupRetire => Sys2Proof.Machine.execGroupRetire s
  | .taskDispatch => Sys2Proof.Machine.execTaskDispatch s
  | .taskStart => Sys2Proof.Machine.execTaskStart s
  | .taskUnpin => Sys2Proof.Machine.execTaskUnpin s
  | .slotLend => Sys2Proof.Machine.execSlotLend s
  | .pageFaultWake => Sys2Proof.Machine.execPageFaultWake s
  | .pageWalk => Sys2Proof.Machine.execPageWalk s
  | .walkResult => Sys2Proof.Machine.execWalkResult s
  | .porterCommandStart => Sys2Proof.Machine.execPorterCommandStart s
  | .porterCommandComplete => Sys2Proof.Machine.execPorterCommandComplete s
  | .chainRecordRead => Sys2Proof.Machine.execChainRecordRead s
  | .mmaClaimLine => Sys2Proof.Machine.execMmaClaimLine s
  | .mmaStart => Sys2Proof.Machine.execMmaStart s
  | .mmaRetire => Sys2Proof.Machine.execMmaRetire s
  | .counterIncrement => Sys2Proof.Machine.execCounterIncrement s
  | .crierFire => Sys2Proof.Machine.execCrierFire s
  | .firedPorterCommand => Sys2Proof.Machine.execFiredPorterCommand s
  | .firedRemoteAtomic => Sys2Proof.Machine.execFiredRemoteAtomic s
  | .firedCounterAdd => Sys2Proof.Machine.execFiredCounterAdd s
  | .firedDeposit => Sys2Proof.Machine.execFiredDeposit s
  | .firedStart => Sys2Proof.Machine.execFiredStart s
  | .firedSpawn => Sys2Proof.Machine.execFiredSpawn s
  | .firedChannelSend => Sys2Proof.Machine.execFiredChannelSend s
  | .depositArrival => Sys2Proof.Machine.execDepositArrival s
  | .depositNack => Sys2Proof.Machine.execDepositNack s
  | .wakeArrival => Sys2Proof.Machine.execWakeArrival s
  | .spawnRequest => Sys2Proof.Machine.execSpawnRequest s
  | .spawnReply => Sys2Proof.Machine.execSpawnReply s
  | .channelElementArrival => Sys2Proof.Machine.execChannelElementArrival s
  | .drainMarkerAck => Sys2Proof.Machine.execDrainMarkerAck s
  | .memoryRequest => Sys2Proof.Machine.execMemoryRequest s
  | .remoteSyncAccess => Sys2Proof.Machine.execRemoteSyncAccess s
  | .syncCancel => Sys2Proof.Machine.execSyncCancel s
  | .replyData => Sys2Proof.Machine.execReplyData s
  | .accessNack => Sys2Proof.Machine.execAccessNack s
  | .retryBackoffExpiry => Sys2Proof.Machine.execRetryBackoffExpiry s
  | .absentAnswer => Sys2Proof.Machine.execAbsentAnswer s
  | .replayCompletion => Sys2Proof.Machine.execReplayCompletion s
  | .unreachableReturn => Sys2Proof.Machine.execUnreachableReturn s
  | .dropNotice => Sys2Proof.Machine.execDropNotice s
  | .reservationTimeout => Sys2Proof.Machine.execReservationTimeout s
  | .hopLimitDrop => Sys2Proof.Machine.execHopLimitDrop s
  | .hbmCompletion => Sys2Proof.Machine.execHbmCompletion s
  | .readShared => Sys2Proof.Machine.execReadShared s
  | .readExclusive => Sys2Proof.Machine.execReadExclusive s
  | .ownerWriteBack => Sys2Proof.Machine.execOwnerWriteBack s
  | .homePanelRequest => Sys2Proof.Machine.execHomePanelRequest s
  | .coherenceForward => Sys2Proof.Machine.execCoherenceForward s
  | .invalidation => Sys2Proof.Machine.execInvalidation s
  | .grantAck => Sys2Proof.Machine.execGrantAck s
  | .meshReplayRequest => Sys2Proof.Machine.execMeshReplayRequest s
  | .linkDataFlit => Sys2Proof.Machine.execLinkDataFlit s
  | .linkIdleFlit => Sys2Proof.Machine.execLinkIdleFlit s
  | .linkReplayRequest => Sys2Proof.Machine.execLinkReplayRequest s
  | .linkRekeyMark => Sys2Proof.Machine.execLinkRekeyMark s
  | .rekey => Sys2Proof.Machine.execRekey s
  | .authFailureLimit => Sys2Proof.Machine.execAuthFailureLimit s
  | .allowanceReturn => Sys2Proof.Machine.execAllowanceReturn s
  | .l1EpochWrap => Sys2Proof.Machine.execL1EpochWrap s
  | .followLagLimit => Sys2Proof.Machine.execFollowLagLimit s
  | .uncorrectableError => Sys2Proof.Machine.execUncorrectableError s
  | .linkFailure => Sys2Proof.Machine.execLinkFailure s
  | .supplySagClear => Sys2Proof.Machine.execSupplySagClear s
  | .illegalInstructionFetch => Sys2Proof.Machine.execIllegalInstructionFetch s
  | .resultAvailable => Sys2Proof.Machine.execResultAvailable s
  | .hostBadRequest => Sys2Proof.Machine.execHostBadRequest s

end Sys2Proof.Machine
end

