-- ==== Sys2Proof/Machine/Schedule.lean ====
section
/-! DEFINITION. Sys2Proof/Machine/Schedule.lean: what the panel may do next (log 4): messages in flight that may be delivered (R64, R66,
R153, R213, R228, R231, R278), units that can go on, cores whose turn may come (R34 to R36), follow mode (R41), the passing of time
(R255, R301), and the state in which a turn or an event is performed. -/
namespace Sys2Proof.Machine

/-! ## Messages in flight -/

/-- Streams besides the messages of the mesh whose order is kept: the slots of a port, the requests of a quadrant's agent (R305). -/
def Event.stream : Event → Option (Nat × Nat)
  | .linkDataFlit p _ | .linkIdleFlit p _ | .linkReplayRequest p _ | .linkRekeyMark p => some (7, p)
  | .hostOpenSession r | .hostCloseSession r | .hostIdentity r | .hostWrite r | .hostRead r | .hostNotify r
  | .hostRegisterTenant r | .hostDeregisterTenant r | .hostResetTenant r | .hostLoadContainer r | .hostSubmitLaunch r
  | .hostLaunchStatus r | .hostMeterRecord r | .hostRecablePod r | .hostBadRequest r => some (8, r.quadrant)
  | _ => none
/-- The logical chiplets whose messages a change of the remap tables drains (R24): those it gives another place and those that a changed
chiplet serves. -/
def State.drains (s : State) : Event → List Nat
  | .remapChange r => r.cmaps.map (·.1) ++ r.smaps.filterMap fun p =>
      (List.range 256).find? fun c => s.tables.chipValid c && s.tables.pchipOf c == p.1
  | .containment p _ _ _ => ((List.range 256).find? fun c => s.tables.chipValid c && s.tables.pchipOf c == p).toList
  | _ => []
/-- The logical chiplet of an endpoint (R228). -/
def endChip (e : Nat) : Option Nat := if e < 2048 then some (chipOf e) else if e < 2304 then some (e - 2048) else none
/-- Whether a message goes to or comes from one of some chiplets. -/
def State.touches (s : State) (chips : List Nat) (e : Event) : Bool :=
  !chips.isEmpty && (match s.endsOf e with
    | some (src, dst, _) => (src :: dst).any fun x => (endChip x).any chips.contains
    | none => false)
/-- Whether an event must wait for an earlier one: messages of one pair of endpoints and one class keep their order (R228), as do the
other streams; a change of the remap tables and the messages that it drains do not pass each other (R24); a stub stays while
deposits are under way (R67). -/
def State.follows (s : State) (e earlier : Event) : Bool :=
  (match s.endsOf e, s.endsOf earlier with
   | some (src, dst, cls), some (src', dst', cls') => src == src' && cls == cls' && dst.any dst'.contains
   | _, _ => false)
  || (match Event.stream e with
   | some x => Event.stream earlier == some x
   | none => false)
  || s.touches (s.drains e) earlier || s.touches (s.drains earlier) e
  || (match e, earlier with
   | .stubRetire _, .depositArrival _ => true
   | _, _ => false)

/-- Whether a core is saving its group or isolated: deposits and wakes wait in its router (R66, R260, R293). -/
def State.routerHolds (s : State) (core : Nat) : Bool := (s.core core).stop != 0 || (s.core core).isolated
/-- Whether the group that a name names takes messages now; a name that is not live is answered at once. -/
def State.nameTakes (s : State) (name : Word) (tenant : Nat) : Bool :=
  match s.nameOwner name tenant with
  | some (core, launch) => !((s.group core).launch == launch && s.routerHolds core)
  | none => true
/-- Whether the dispatch queue of a group has room for what an increment may fire (R217). -/
def State.crierRoom (s : State) (core launch : Nat) : Bool :=
  match s.launchGroup core launch with
  | some g => g.firings.length < 64
  | none => true
/-! ## Injected errors (R295, R296) -/

/-- The unit for which an error is armed. -/
def State.armedUnit (s : State) : Option ErrUnit :=
  match s.inj.arm with
  | some (_, 0, a) => some (.sector (s.myPanel * 2 ^ 46 + a.toNat / 64 * 64))
  | some (_, 1, a) => (s.chipServed (a.toNat / 2 ^ 36)).map fun c => .vaultSector c (a.toNat % 2 ^ 29 / 64 * 64)
  | some (_, _, a) => (s.coreOfSite (a.toNat / 2 ^ 36) (a.toNat / 2 ^ 32 % 16)).map fun c => .scratchLine c (a.toNat % 2 ^ 21 / 128)
  | none => none
/-- The sectors of this panel that a request in flight reads. -/
def State.readSectors (s : State) (m : MemMsg) : List ErrUnit :=
  if !opReads m.op then []
  else (opParts m.op).flatMap fun p => match p.place with
    | .phys pa => if pa / 2 ^ 46 = s.myPanel then
        (touchedSectors (pa % 2 ^ 46 / 128 * 128) p.mask).map fun q => ErrUnit.sector (s.myPanel * 2 ^ 46 + 64 * q) else []
    | .vault _ chip off => (touchedSectors (off / 128 * 128) p.mask).map fun q => ErrUnit.vaultSector chip (64 * q)
    | _ => []
/-- Whether the error that is armed hits a request: its unit is read, and the error comes first. -/
def State.hitFirst (s : State) (m : MemMsg) : Bool :=
  match s.armedUnit with
  | some u => (s.readSectors m).contains u
  | none => false
/-- Whether the seeded injector makes errors of a kind for a tenant (R295). -/
def State.injects (s : State) (kind tenant : Nat) : Bool :=
  s.inj.ctl.getLsbD 63 && s.inj.ctl.getLsbD (16 + kind) && (s.inj.ctl.extractLsb' 32 16).toNat == tenant
/-- Errors that the injector may make now: the armed one when a request reads its unit, or in a scratchpad whose core is bound (log 36);
those of the seeded injector in sectors that its tenant reads, and in the register stores of its cores. -/
def State.injections (s : State) : List Event :=
  if s.inj.arm.isNone && !s.inj.ctl.getLsbD 63 then []
  else
    let reqs := s.agenda.filterMap fun e => match e with
      | .memoryRequest m => some m
      | _ => none
    let armed := match s.armedUnit with
      | some (.scratchLine c l) => if (s.group c).launch = 0 then [] else [Event.uncorrectableError (.scratchLine c l)]
      | some u => if reqs.any fun m => (s.readSectors m).contains u then [.uncorrectableError u] else []
      | none => []
    let fresh (u : ErrUnit) : Bool := match u with
      | .sector pa => !s.store.poisoned (physKey pa)
      | .vaultSector c off => !s.store.poisoned (vaultKey c off)
      | _ => false
    armed
      ++ ((reqs.filter fun m => s.injects 1 m.actor.tenant).flatMap s.readSectors).eraseDups.filterMap
        (fun u => if fresh u then some (.uncorrectableError u) else none)
      ++ (s.cores.list.filter fun p => p.2.group.launch != 0 && s.injects 2 p.2.group.tenant).map fun p =>
        .uncorrectableError (.control (s.tables.pchipOf (chipOf p.1))
          (siteOf (s.tables.smapOf (s.tables.pchipOf (chipOf p.1))) (localIdx p.1)))

/-! ## What can be delivered -/

/-- Whether a request can be performed now: no switch of its range is in progress (R132), no sector that it needs is being fetched, a
route that it needs is not held (R244), its home slice has a tag for a read of HBM (R125), and a line that it would wait for can be
waited for. -/
def State.requestReady (s : State) (m : MemMsg) : Bool :=
  !s.switching m && !s.hitFirst m
  && (s.blocks m).all (fun b => match b with
    | .home q _ => !(Cells.get ({} : Sector) s.store.sectors q).fetching
    | .fetch q => !(Cells.get ({} : Sector) s.store.sectors q).fetching && s.hbmRoom q
    | .remote _ _ q _ => !(Cells.get ({} : Sector) s.store.sectors q).fetching
    | .held => false
    | .unreachable _ => true)
  && ((opParts m.op).length ≤ 1 || opWrites m.op || (s.loadWaits m.actor (opParts m.op)).isNone)
/-- Whether a sector of this panel lies in a range whose switch is in progress. -/
def State.sectorSwitching (s : State) (q : Nat) : Bool := (s.tables.decides (64 * q)).any arrSwitching
/-- Walks in flight at the service core of a chiplet. -/
def State.walksAt (s : State) (chip : Nat) : Nat :=
  (s.agenda.filter fun e => match e with
    | .walkResult w _ => chipOf w.actor.who.core == chip
    | _ => false).length
/-- Whether a host request that names a counter has room in the dispatch queue of its crier (R217, R306). -/
def State.hostRoom (s : State) (r : HostReq) : Bool := !names? r || s.crierRoom r.core (s.group r.core).launch
/-- Whether an event in flight can be performed, apart from its place in the order. -/
def State.deliverable (s : State) (e : Event) : Bool :=
  match e with
  | .memoryRequest m => s.requestReady m
  | .replayCompletion m => !s.switching m
  | .readShared _ q | .readExclusive _ q => !s.sectorSwitching q
  | .depositArrival m => s.nameTakes m.name m.tenant
  | .wakeArrival m => s.nameTakes m.name m.tenant
  | .pageWalk w => s.walksAt (chipOf w.actor.who.core) < 384
  | .counterIncrement i => s.crierRoom i.core (if i.launch = 0 then (s.group i.core).launch else i.launch)
  | .depositNack m => m.kc.isNone || s.crierRoom m.dst.core m.dst.launch
  | .pageFaultWake w _ => s.canWake w || s.canCancel w.core w.ctx
  | .replayMarkRemoval => !(s.agenda.any fun x => match x with
      | .replayCompletion _ => true
      | _ => false)
  | .hostWrite r | .hostRead r | .hostNotify r | .hostSubmitLaunch r | .hostLaunchStatus r | .hostMeterRecord r
  | .hostLoadContainer r | .hostResetTenant r | .hostRecablePod r => s.phase == .running && s.hostRoom r
  | .collectiveShrink launch id _ => s.canShrink launch id
  | .recoveryImage _ => s.phase == .recovery
  | _ => s.phase == .running
/-- The events in flight that may be performed next, with what stays in flight. A drain waits for the messages that can still go. -/
def State.deliveries (s : State) : List Event → List Event → List (Event × List Event)
  | _, [] => []
  | before, e :: t =>
    (if s.deliverable e && !(before.any fun x => s.follows e x && ((s.drains e).isEmpty || s.deliverable x)) then [(e, before ++ t)] else [])
      ++ s.deliveries (before ++ [e]) t

/-! ## What units can do by themselves -/

/-- The event of the head of a dispatch queue. -/
def firedEvent (core : Nat) : Nat → Event
  | 1 => .firedPorterCommand core
  | 2 => .firedRemoteAtomic core
  | 3 => .firedCounterAdd core
  | 4 => .firedDeposit core
  | 5 => .firedStart core
  | 6 => .firedSpawn core
  | _ => .firedChannelSend core
/-- Keep an event where a condition holds. -/
def whenB (c : Bool) (e : Event) : List Event := if c then [e] else []
/-- What can happen to a context between its instructions. -/
def State.ctxEvents (s : State) (core : Nat) (i : Nat) (c : Ctx) : List Event :=
  if c.status = .free then []
  else
    let go := (s.core core).stop == 0
    whenB (go && (s.canReport core i || (c.reports? && s.canCancel core i))) (.trapReport core i)
      ++ whenB (go && (s.group core).waitOver c) (.contextReady core i)
      ++ whenB (match c.follow with
        | some f => 32 ≤ f.trail.length
        | none => false) (.followLagLimit core i)
      ++ (c.late.filter fun r => match r with
          | .s k => !c.maint.contains k || c.unacked == 0
          | .v _ => true).map fun r => .resultAvailable core i r
/-- The queues of a porter, the one after the queue whose command moved last first (R194). -/
def queueOrder (last : Nat) : List Nat := (List.range 4).map fun i => (last + 1 + i) % 4
/-- Whether the head of a queue is a command. -/
def Queue.runs (x : Queue) : Bool := x.head.isSome
/-- What the porter can do: with the core stopping, only commands that have begun go on. Of the running commands the next in turn moves
its next unit (R194); fences and chains of the queues are served beside them. -/
def State.porterEvents (s : State) (core : Nat) : List Event :=
  let g := s.group core
  if g.queues.list.isEmpty then []
  else
    let live := (List.range 4).filter fun q =>
      !(g.queue q).items.isEmpty && ((s.core core).stop == 0 || !(g.queue q).idle)
    let starts := (queueOrder g.porterLast).filter fun q => live.contains q && !(g.queue q).complete && (s.porterStart core q).2
    live.flatMap (fun q => whenB (g.mayComplete q) (.porterCommandComplete core q)
        ++ whenB (s.chainRun core q).2 (.chainRecordRead core q))
      ++ (starts.filter fun q => !(g.queue q).runs).map (fun q => .porterCommandStart core q)
      ++ ((starts.filter fun q => (g.queue q).runs).take 1).map fun q => .porterCommandStart core q
/-- What the matrix unit can do. -/
def State.mmaEvents (s : State) (core : Nat) : List Event :=
  let c := s.core core
  let go := c.stop == 0
  (c.mmas.flatMap fun m => whenB (go && s.canClaim core m) (.mmaClaimLine core m.ctx))
    ++ whenB (go && c.mmaRunning.isNone && (c.nextMma c.group [] c.mmas).isSome) (.mmaStart core)
    ++ whenB (s.canRetireMma core) (.mmaRetire core)
/-- What the crier can do. -/
def State.crierEvents (s : State) (core : Nat) : List Event :=
  let g := s.group core
  whenB ((s.core core).stop == 0 && !g.crossed.isEmpty && g.firings.length < 64) (.crierFire core)
    ++ (if g.firings.isEmpty then [] else whenB (s.firedRun core).2 (firedEvent core (s.headKind core)))
/-- What the dispatcher can do with tasks. -/
def State.taskEvents (s : State) (core : Nat) : List Event :=
  let g := s.group core
  (if (s.launch g.launch).tasks.isEmpty then [] else (List.range 11).flatMap fun i =>
      whenB (s.canDispatch g.launch core i) (.taskDispatch g.launch core i)
        ++ whenB (s.canLend g.launch core i) (.slotLend g.launch core i))
    ++ g.taskBusy.flatMap fun t =>
      whenB (t.stage == 0 && (s.taskCopy core t.slot 0).2) (.taskStart core t.slot)
        ++ whenB (t.stage == 2 && (s.taskCopy core t.slot 2).2) (.taskUnpin core t.slot)
/-- What a core's units can do. -/
def State.coreEvents (s : State) (core : Nat) (c : Core) : List Event :=
  (if c.stop = 0 then c.backoffs else []).map (fun m => .retryBackoffExpiry m)
    ++ (if c.group.launch = 0 then []
        else (c.group.ctxs.list.flatMap fun p => s.ctxEvents core p.1 p.2)
          ++ s.porterEvents core ++ s.mmaEvents core ++ s.crierEvents core ++ s.taskEvents core
          ++ whenB (s.canRetire core) (.groupRetire core)
          ++ whenB (c.stop != 0 && s.stopDone core) (.saveWritePhase (chipOf core) (localIdx core)))
/-- Calls of the firmware to build a collective whose members on this panel have all called and that other panels are part of (R222). -/
def State.buildEvents (s : State) : List Event :=
  s.launches.list.flatMap fun p => (p.2.colls.filter fun c =>
      !c.built && c.apart s.myPanel && (c.own s.myPanel p.2.rect.toNat).all fun q => c.waiting.contains q.2).filterMap fun c =>
    c.waiting.getLast?.map fun core => .collectiveBuild ⟨core, 0, p.1⟩ c.addr
/-- What the firmware can complete: barriers, resets, re-cablings, builds of collectives, a domain switch (R132); and new keys of a
port, whose counters it keeps below 2^40 (R240; log 20). -/
def State.firmwareEvents (s : State) : List Event :=
  (s.launches.list.flatMap fun p => p.2.bars.keys.flatMap fun d =>
      whenB (p.2.barFull p.2.rect.toNat d && (s.barrier p.1 d).isSome) (.barrierComplete p.1 d))
    ++ (s.tenants.list.flatMap fun p => whenB p.2.resetting (.reservationTimeout p.1))
    ++ s.hostOpen.flatMap (fun r =>
      whenB (r.op == 0x22 && !(s.tenant r.tenant).resetting && s.hostRoom r) (.hostResetTenant r)
        ++ whenB (r.op == 0x50 && s.recableDrained r.payload && s.hostRoom r) (.hostRecablePod r))
    ++ s.buildEvents
    ++ (match s.switch with
        | some w => whenB (s.switchQuiet w.record) (.domainSwitch w.who 0 0)
        | none => [])
    ++ s.optical.list.flatMap fun p => whenB (p.2.up && (2 ^ 39 ≤ p.2.sendSlots || 2 ^ 39 ≤ p.2.recvSlots)) (.rekey p.1)

/-! ## The barrel (R35) -/

/-- The contexts of a core in the order in which its barrel searches them. -/
def barrelOrder (last : Nat) : List Nat := (List.range 11).map fun i => (last + 1 + i) % 11
/-- Whether a core issues instructions. -/
def Core.issues (c : Core) : Bool := c.group.launch != 0 && c.stop == 0 && c.running && !c.isolated
/-- The cycle of a core's next issue and the context that issues: idle cycles pass until a ready context is eligible. -/
def Core.next (c : Core) : Option (Nat × Nat) :=
  let ready := c.group.ctxs.list.filter fun p => p.2.status == .ready
  match (ready.map fun p => p.2.eligible).min? with
  | none => none
  | some e =>
    let t := Nat.max c.cycle.toNat e
    ((barrelOrder c.last).find? fun i => ready.any fun p => p.1 == i && p.2.eligible ≤ t).map fun i => (t, i)

/-! ## Choosing (log 4) -/

/-- Whether the turn of a core may come: not that of a follower 32 instructions behind, which leaves follow mode first (R41). -/
def Core.mayTurn (c : Core) : Bool :=
  c.issues && (match c.next with
    | some (_, i) => (match (c.group.ctx i).follow with
      | some f => f.trail.length < 32
      | none => true)
    | none => false)
/-- Everything that may happen next, each with the events that stay in flight. -/
def State.choices (s : State) : List (Choice × List Event) :=
  let alone (c : Choice) : Choice × List Event := (c, s.agenda)
  ((s.deliveries [] s.agenda).map fun p => (.event p.1, p.2))
    ++ (if s.phase = .running then
          (s.cores.list.flatMap fun p => s.coreEvents p.1 p.2).map (fun e => alone (.event e))
            ++ s.firmwareEvents.map (fun e => alone (.event e))
            ++ s.injections.map (fun e => alone (.event e))
            ++ ((s.cores.list.filter fun p => p.2.mayTurn).map fun p => alone (.turn p.1))
        else [])
/-- Time passes by some mesh cycles, within the quantum (log 9). -/
def State.elapse (s : State) : State :=
  { s.ticked with mesh := Nat.min (s.mesh + Config.meshCycles s.tick) ((s.window + 1) * quantumCycles - 1) }
/-- What can happen now in the order in which it could first, with the choice number since when. -/
def State.stillDue (s : State) (cs : List Choice) : List (Choice × Nat) :=
  let kept := s.due.filter fun d => cs.contains d.1
  kept ++ (cs.filter fun c => !(kept.any fun d => d.1 == c)).map fun c => (c, s.tick)
/-- Which of several things happens: what has been put off for as long as the device may put a thing off (R49), else what it picks. -/
def State.pickOf (s : State) (due : List (Choice × Nat)) (c : Choice × List Event) (t : List (Choice × List Event)) :
    Choice × List Event :=
  let picked := (c :: t).getD (Config.pick s.tick (t.length + 1) % (t.length + 1)) c
  match due with
  | d :: _ => if d.2 + Config.patience ≤ s.tick then ((c :: t).find? fun x => x.1 == d.1).getD picked else picked
  | [] => picked
/-- The choice of this step and the state in which it is made: boot after reset, a quantum boundary when its time has come or when
nothing else can happen, else one of the things that may happen. -/
def State.choose (s : State) : Choice × State :=
  if s.phase = .reset then (.event .boot, s)
  else if s.phase = .running && (s.window + 1) * quantumCycles ≤ s.mesh + 1 then (.event .quantumBoundary, s)
  else
    match s.choices with
    | [] => if s.phase = .running then (.event .quantumBoundary, s) else (.idle, s)
    | [c] => (c.1, { s.elapse with agenda := c.2, due := [] })
    | c :: t =>
      let due := s.stillDue ((c :: t).map (·.1))
      let x := s.pickOf due c t
      (x.1, { s.elapse with agenda := x.2, due := due.filter fun d => d.1 != x.1 })

/-! ## A turn (R35, R41) -/

/-- The state in which the context whose turn it is issues: its core's cycle, its next eligibility. -/
def State.turnState (s : State) (core : Nat) : State :=
  match (s.core core).next with
  | none => s
  | some (t, i) =>
    { s with curCore := core, curCtx := i }.modCore core fun c =>
      { c with cycle := BitVec.ofNat 64 t, last := i, group := c.group.modCtx i fun x => { x with eligible := t + 4 } }
/-- Where the current context takes its instruction from: its own fetch, what its leader issued, or nothing yet. -/
inductive Source where
  | fetch
  | leader (i : Instr)
  | wait
deriving DecidableEq, Repr
/-- Follow mode before the turn of the current context: it ends where the leader has gone or has issued another instruction. The `follow`
that enters it, at the address before the first one that the leader issued, is the follower's own fetch. -/
def State.followTurn (s : State) : State × Source :=
  match s.me.follow with
  | none => (s, .fetch)
  | some f =>
    if !f.active then (s, .fetch)
    else
      let g := s.group f.leader
      let off (s : State) : State := s.modMe fun c => { c with follow := none }
      if g.launch ≠ s.myGroup.launch || (g.ctx s.curCtx).status == .free then (off s, .fetch)
      else
        match f.trail with
        | [] => (s, .wait)
        | h :: _ => if h.1 = s.me.pc then (s, .leader h.2) else if h.1 = s.me.pc + 8 then (s, .fetch) else (off s, .fetch)
/-- A follower whose own fetch gives anything but the `follow` that it has entered by has left follow mode. -/
def State.fetched (s : State) (i : Instr) : State :=
  match i with
  | .follow _ => s
  | _ => s.modMe fun c => { c with follow := none }
/-- The instruction that the current context issues, with the state in which it is executed; a fetch that gives none is its own
step. None: the turn of a follower is spent. -/
def State.issue (s : State) : Option (Instr × State) :=
  match s.followTurn with
  | (_, .wait) => none
  | (s', .leader i) => some (i, s')
  | (s', .fetch) =>
    match fetchM s' with
    | .ok (.ok (i, _), s') => some (i, if s'.me.follow.isNone then s' else s'.fetched i)
    | _ => some (.illegalInstructionFetch, { s' with event := some (.illegalInstructionFetch s'.curCore s'.curCtx) })
/-- A leader's context has issued the instruction at an address: followers of it get the instruction. -/
def State.tellFollowers (s : State) (core ctx : Nat) (pc : Word) (i : Instr) : State :=
  s.cores.list.foldl (fun (s : State) p =>
    if chipOf p.1 ≠ chipOf core then s
    else
      match (p.2.group.ctx ctx).follow with
      | some f =>
        if f.leader ≠ core || p.1 = core then s
        else if f.active then s.modCtx p.1 ctx fun c => { c with follow := some { f with trail := f.trail ++ [(pc, i)] } }
        else if pc = (p.2.group.ctx ctx).pc + 8 then
          s.modCtx p.1 ctx fun c => { c with follow := some { f with active := true, trail := [(pc, i)] } }
        else s
      | none => s) s
/-- A follower has executed the instruction at an address. -/
def Ctx.followed (c : Ctx) (pc : Word) : Ctx :=
  match c.follow with
  | some f => if f.active && (f.trail.head?.any fun h => h.1 == pc) then { c with follow := some { f with trail := f.trail.drop 1 } } else c
  | none => c
/-- The registers that a branch reads; none for any other instruction. -/
def branchReads : Instr → Option (List SReg)
  | .br _ | .brAbs _ | .call _ | .callAbs _ => some []
  | .bcnd _ a b _ => some [a, b]
  | .bmask _ _ b _ => some [b]
  | .callr a | .jr a | .loop a _ => some [a]
  | .ret => some [31]
  | _ => none
/-- Whether a context that executes an instruction issues it even if its address does not change: a branch whose operands are
available. Anything else that stays at its address has spent its turn. -/
def Ctx.branches (c : Ctx) (i : Instr) : Bool :=
  match branchReads i with
  | some rs => rs.all fun r => !c.late.contains (.s (c.skey r))
  | none => false
/-- The end of a turn: the core's cycle passes and is metered (R267), followers learn what was issued. -/
def State.endTurn (s : State) (core ctx : Nat) (pc : Word) (tenant cycles : Nat) (i : Option (Instr × Bool)) : State :=
  let s := s.modCore core fun c => { c with cycle := c.cycle + 1 }
  let s := if tenant = 0 then s else s.meter tenant 0 cycles
  match i with
  | none => s
  | some (i, branched) =>
    if (s.ctx core ctx).pc = pc && (s.ctx core ctx).status != .free && !branched then s
    else
      let s := s.modCore core fun c => { c with group := c.group.modCtx ctx fun x => x.followed pc }
      if i = .illegalInstructionFetch then s else s.tellFollowers core ctx pc i

/-! ## Reports before synchronising instructions (R142, R272) -/

/-- Whether an instruction is one of the synchronising instructions of R135 by its opcode and its ord; port accesses, reads of deposits
and loads that wait are known by their effect. -/
def synchronises : Instr → Bool
  | .ldOrdered .. | .stOrdered .. | .vldOrdered .. | .vstOrdered .. | .vldxOrdered .. | .vstxOrdered .. | .vldsOrdered ..
  | .vstsOrdered .. | .ldfS .. | .ldfV .. | .stfS .. | .stfV .. | .fset .. | .fence .. | .depv .. | .depvK .. | .deps .. | .depsK ..
  | .bar .. | .ctrwait .. | .ctrwaitImm .. | .qwait .. | .qwaitImm .. | .join .. | .start .. | .startFe .. | .spawn .. | .spawnFe ..
  | .task .. | .wake .. | .halt .. | .tdone | .park | .pclose .. | .pmark .. => true
  | .amo32 _ o .. | .amo64 _ o .. | .vamo32 _ o .. | .vamo16 _ o .. => o != .plain
  | _ => false
/-- The report that the current context takes in place of an instruction: a synchronising one that it has not begun, or one whose
execution, with the result r, has ended its region. -/
def State.reportFirst (s : State) (i : Instr) (r : Res) : Option Report :=
  let c := s.me
  if c.reports? && c.access.isNone
      && (synchronises i || (match r with
        | .next s' => (s'.ctx s.curCore s.curCtx).region != c.region
        | _ => false))
  then c.nextReport else none

/-! ## Placing one instruction (log 3) -/

/-- Where a placed instruction lies: virtual and physical address of its page. -/
def placedPc : Nat := 0x10000
/-- The group that runs a placed instruction: launch 1 of tenant 1 on core 0, its control context ready. -/
def placedGroup : Group :=
  ({ launch := 1, tenant := 1, r := 32 } : Group).setCtx 0
    { status := .ready, pc := BitVec.ofNat 64 placedPc, agent := 1, region := 1 }
/-- The TLB entry of its code page: 64 KiB, launch 1, executable and readable. -/
def placedEntry : Word × Word := entryOf 1 placedPc 0 placedPc 0x14 none
/-- Put an instruction where a step fetches next. -/
def placeWord (s : State) (nbits w : Nat) : State :=
  let n := (nbits + 7) / 8
  let bytes := leBytes 16 (w % 256 ^ n)
  { s with
    phase := .running
    window := 0, mesh := 0, agenda := [], hostOpen := [], nextLaunch := 2, nextAgent := 2
    due := [], switch := none, inj := {}
    tables := { s.tables with arr := Cells.set 0 Cells.empty 0 bootArr }
    store := { s.store with mem := ((List.range 16).zip bytes).foldl (fun m p => m.write (placedPc + p.1) p.2) s.store.mem }
    tenants := Cells.set {} Cells.empty 1 { registered := true }
    launches := Cells.set {} Cells.empty 1 { stage := .bound, tenant := 1, live := [0] }
    cores := Cells.set {} Cells.empty 0 { group := placedGroup, tlb := [placedEntry] } }

end Sys2Proof.Machine
end

