-- ==== Sys2Proof/Machine/Step.lean ====
section
/-! DEFINITION. Sys2Proof/Machine/Step.lean: one step of the panel, and the state that fetches a given instruction. -/
namespace Sys2Proof.Machine

/-- What a step adds after an instruction: the end of the turn. -/
def afterTurn (core ctx : Nat) (pc : Word) (tenant cycles : Nat) (i : Instr × Bool) (r : Host.Outcome State Fault Refusal) :
    Host.Outcome State Fault Refusal :=
  match r with
  | .next s => .next (s.endTurn core ctx pc tenant cycles (some i))
  | .fault f => .fault f
  | .refused x => .refused x

/-- The turn of a core: its context fetches, decodes and executes one instruction, or takes a report that is due before it (R272). -/
def runTurn (core : Nat) (s : State) : Host.Outcome State Fault Refusal :=
  let t := s.turnState core
  let cycles := (t.core core).cycle.toNat + 1 - (s.core core).cycle.toNat
  match t.issue with
  | none => .next (t.endTurn core t.curCtx t.me.pc t.myGroup.tenant cycles none)
  | some (i, t') =>
    match t'.reportFirst i (exec i t') with
    | some r => .next ((t'.takeReport core t.curCtx r).endTurn core t.curCtx t.me.pc t.myGroup.tenant cycles none)
    | none => afterTurn core t.curCtx t.me.pc t.myGroup.tenant cycles (i, t'.me.branches i) (exec i t')

/-- One step: what the schedule chooses happens. -/
def step (s : State) : Host.Outcome State Fault Refusal :=
  match s.choose with
  | (.idle, s') => .next s'
  | (.event e, s') => exec e.instr { s' with event := some e }
  | (.turn core, s') => runTurn core s'

/-- The state that fetches the instruction whose bits are w (log 3): the panel runs, launch 1 of tenant 1 is bound on core 0 with
its control context at address 0x10000, whose page the TLB maps, executable, to the same physical address. -/
def State.withFetchWord (s : State) (nbits w : Nat) : State := placeWord s nbits w

end Sys2Proof.Machine
end

