-- ==== Sys2Proof/Safety.lean ====
section
/-! DEFINITION. Sys2Proof/Safety.lean: the terms in which statements about the machine are written: what one byte of storage reads as,
the canonical form of the storage, when an operand has its value, what a completed instruction leaves beside its effect, and the
shapes of result that several instructions share. -/
namespace Sys2Proof.Machine

/-! ## Storage -/

/-- One byte of the panel's storage (HBM, vaults, scratchpads), by its storage key. -/
def State.byteAt (s : State) (k : Nat) : Byte := s.store.mem.read k
/-- The storage is in its canonical form. -/
def State.memOk (s : State) : Prop := s.store.mem.wf = true
/-- No byte of storage differs between two states. -/
def SameBytes (s t : State) : Prop := ∀ k, t.byteAt k = s.byteAt k

/-! ## What a completed instruction leaves beside its effect -/

/-- The current context stands `len` bytes on, and what it kept for an access of this instruction is done with. -/
def State.past (s : State) (len : Nat) : State :=
  s.modMe fun c => { c with pc := c.pc + BitVec.ofNat 64 len, access := none, spawnReply := none, sawMiss := false,
                            sawMark := false, walkFault := none }
/-- The current context stands at an address, whose bits [1:0] are cleared (R71). -/
def State.jumped (s : State) (target : Word) : State :=
  s.modMe fun c => { c with pc := target &&& ~~~3#64, access := none, spawnReply := none, sawMiss := false,
                            sawMark := false, walkFault := none }
/-- A scalar register of the current context has been written: a write to s0 is discarded (R50). -/
def State.wroteS (s : State) (d : SReg) (v : Word) : State :=
  s.modMe fun c => { c.setSReg d v with late := c.late.filter (· != .s (c.skey d)) }
/-- The same, with a value that becomes available late (R35). -/
def State.wroteLate (s : State) (d : SReg) (v : Word) : State :=
  s.modMe fun c => if d = 0 then c
    else { c.setSReg d v with late := .s (c.skey d) :: c.late.filter (· != .s (c.skey d)) }
/-- A vector register of the current context has been written. -/
def State.wroteV (s : State) (d : VReg) (v : Line) : State := s.modMe fun c => c.setV d v
/-- A mask register of the current context has been written: a write to m0 is discarded (R55). -/
def State.wroteM (s : State) (d : MReg) (v : MaskW) : State := s.modMe fun c => c.setMask d v

/-! ## Operands -/

/-- Every scalar register of a list (with its field bit) is in the register store of the current context (R51). -/
def State.resident (s : State) (rs : List (Nat × SReg)) : Prop := firstAbsent s.me s.myGroup.r rs = none
/-- The value of a scalar register is there: no late result of it is outstanding (R35). -/
def State.ready (s : State) (r : SReg) : Prop := LateReg.s (s.me.skey r) ∉ s.me.late
/-- The value of a vector register is there: it is not held (R61), not late (R35), and no deposit into it is unread (R135). -/
def State.vready (s : State) (r : VReg) : Prop :=
  s.me.held r = false ∧ LateReg.v r ∉ s.me.late ∧ ∀ p ∈ s.me.deposited, p.1 ≠ r
/-- A scalar position gives x, and the machine is in t after it was read (a port has lost an element). -/
def State.gives (s : State) (a : SQ) (x : Word) (t : State) : Prop := rdQ a s = .ok (x, t)
/-- A scalar position takes v, and the machine is in t after it was written (a port has one element more). -/
def State.takes (s : State) (d : SQ) (v : Word) (t : State) : Prop := wrQ d v s = .ok ((), t)
/-- A vector position gives x. -/
def State.vgives (s : State) (a : VQ) (x : Line) (t : State) : Prop := rdVQ a s = .ok (x, t)
/-- A vector position takes v. -/
def State.vtakes (s : State) (d : VQ) (v : Line) (t : State) : Prop := wrVQ d v s = .ok ((), t)
/-- A vector destination may be written: a held register may not (R61). -/
def State.fresh (s : State) : VQ → Prop
  | .v r => s.me.held r = false
  | .q _ => True

/-! ## Conditions (R82, R343) -/

/-- A condition of R82 on two 64-bit values. -/
def condHolds (c : ICond) (x y : Word) : Bool :=
  match c with
  | .eq => x == y
  | .ne => x != y
  | .lt => x.slt y
  | .ge => y.sle x
  | .ltu => x.ult y
  | .geu => y.ule x
  | .le => x.sle y
  | .gt => y.slt x
  | .leu => x.ule y
  | .gtu => y.ult x
/-- A condition of R343 on the low n bits of a mask. -/
def maskHolds (c : MCond) (m : MaskW) (n : Nat) : Bool :=
  match c with
  | .any => (List.range n).any fun i => m.getLsbD i
  | .all => (List.range n).all fun i => m.getLsbD i
  | .none => (List.range n).all fun i => !m.getLsbD i
/-- A condition as a 64-bit value. -/
def oneIf (b : Bool) : Word := if b then 1 else 0

/-! ## Shapes of scalar instructions -/

/-- An instruction of `len` bytes completes with d := f(a): its operand is read, then its destination is written, and the
context stands after it. The second clause is the same where both are registers. -/
def Unary (len op : Nat) (mk : SQ → SQ → Instr) (f : Word → Word) : Prop :=
  (∀ (s t u : State) (d a : SQ) (x : Word), s.resident (sqRegs [(10, d), (17, a)]) → s.gives a x t → t.takes d (f x) u →
    exec (mk d a) s = .next (u.past len)) ∧
  (∀ (s : State) (d a : SReg), s.resident [(10, d), (17, a)] → s.ready a →
    exec (mk (.s d) (.s a)) s = .next ((s.wroteS d (f (s.me.s a))).past len)) ∧
  (∀ (s : State) (d a : SQ) (b : Nat), firstAbsent s.me s.myGroup.r (sqRegs [(10, d), (17, a)]) = some b →
    exec (mk d a) s = .next (s.enterTrap s.curCore s.curCtx 1 (illegalRecord ⟨4, b, op⟩) s.me.pc false false))
/-- d := f(a, b), a read before b. -/
def Binary (op : Nat) (mk : SQ → SQ → SQ → Instr) (f : Word → Word → Word) : Prop :=
  (∀ (s t u w : State) (d a b : SQ) (x y : Word), s.resident (sqRegs [(10, d), (17, a), (24, b)]) → s.gives a x t →
    t.gives b y u → u.takes d (f x y) w → exec (mk d a b) s = .next (w.past 8)) ∧
  (∀ (s : State) (d a b : SReg), s.resident [(10, d), (17, a), (24, b)] → s.ready a → s.ready b →
    exec (mk (.s d) (.s a) (.s b)) s = .next ((s.wroteS d (f (s.me.s a) (s.me.s b))).past 8)) ∧
  (∀ (s : State) (d a b : SQ) (n : Nat), firstAbsent s.me s.myGroup.r (sqRegs [(10, d), (17, a), (24, b)]) = some n →
    exec (mk d a b) s = .next (s.enterTrap s.curCore s.curCtx 1 (illegalRecord ⟨4, n, op⟩) s.me.pc false false))
/-- d := f(a, b), with a result that becomes available late. -/
def BinaryLate (mk : SQ → SQ → SQ → Instr) (f : Word → Word → Word) : Prop :=
  (∀ (s t u w : State) (d a b : SQ) (x y : Word), s.resident (sqRegs [(10, d), (17, a), (24, b)]) → s.gives a x t →
    t.gives b y u → wrQLate d (f x y) u = .ok ((), w) → exec (mk d a b) s = .next (w.past 8)) ∧
  (∀ (s : State) (d a b : SReg), s.resident [(10, d), (17, a), (24, b)] → s.ready a → s.ready b →
    exec (mk (.s d) (.s a) (.s b)) s = .next ((s.wroteLate d (f (s.me.s a) (s.me.s b))).past 8))
/-- d := f(a, b, c), read in this order. -/
def Ternary (mk : SQ → SQ → SQ → SQ → Instr) (f : Word → Word → Word → Word) : Prop :=
  (∀ (s t u v w : State) (d a b c : SQ) (x y z : Word), s.resident (sqRegs [(10, d), (17, a), (24, b), (31, c)]) →
    s.gives a x t → t.gives b y u → u.gives c z v → v.takes d (f x y z) w → exec (mk d a b c) s = .next (w.past 8)) ∧
  (∀ (s : State) (d a b c : SReg), s.resident [(10, d), (17, a), (24, b), (31, c)] → s.ready a → s.ready b → s.ready c →
    exec (mk (.s d) (.s a) (.s b) (.s c)) s = .next ((s.wroteS d (f (s.me.s a) (s.me.s b) (s.me.s c))).past 8))

/-- d := f(d) in the long immediate format. -/
def InPlace (mk : SReg → Instr) (f : Word → Word) : Prop :=
  ∀ (s : State) (d : SReg), s.resident [(10, d)] → s.ready d → exec (mk d) s = .next ((s.wroteS d (f (s.me.s d))).past 12)

/-! ## Results that may raise events or trap (R158 to R161) -/

/-- The random words that an operation with n results takes (R164): those of the generator under `rsr`, else none. -/
def State.rngWords (s : State) (rm : Rm) (n : Nat) : Nat → Nat :=
  if rm = .rsr then rwOf (rngOutputs ((n + 1) / 2) s.me.rng) else fun _ => 0
/-- The generator after it has given random words for n results (R164). -/
def State.drew (s : State) (rm : Rm) (n : Nat) : State :=
  if rm = .rsr then s.modMe fun c => { c with rng := (rngOutputs ((n + 1) / 2) c.rng).getLastD c.rng } else s
/-- Each event of a list has been counted once for the current context (R277). -/
def State.counted (s : State) (es : List Nat) : State := es.foldl (fun s e => s.modMe fun c => c.addEv e 1) s
/-- The current context has taken a precise trap at its instruction (R271, R272). -/
def State.trapped (s : State) (code : Nat) (tval : Word) : State := s.enterTrap s.curCore s.curCtx code tval s.me.pc false false

/-- A float instruction d := f(a, b): f gets the rounding mode, the saturation bit, a random word and the two encodings. The
events of the result are counted; `late` says that the result becomes available late (R35). -/
def FloatBinary (mk : Rm → Bool → SQ → SQ → SQ → Instr) (f : Rm → Bool → Nat → Nat → Nat → NRes) (late : Bool) : Prop :=
  (∀ (s t u w : State) (rm : Rm) (sat : Bool) (d a b : SQ) (x y : Word),
    s.resident (sqRegs [(10, d), (17, a), (24, b)]) → s.gives a x t → t.gives b y u →
    trapOf [(0, f rm sat (u.rngWords rm 1 0) x.toNat y.toNat)] = none →
    (if late then wrQLate else wrQ) d (BitVec.ofNat 64 (f rm sat (u.rngWords rm 1 0) x.toNat y.toNat).bits)
      ((u.drew rm 1).counted (eventsOf [f rm sat (u.rngWords rm 1 0) x.toNat y.toNat])) = .ok ((), w) →
    exec (mk rm sat d a b) s = .next (w.past 8)) ∧
  (∀ (s : State) (rm : Rm) (sat : Bool) (d a b : SReg), s.resident [(10, d), (17, a), (24, b)] → s.ready a → s.ready b →
    trapOf [(0, f rm sat (s.rngWords rm 1 0) (s.me.s a).toNat (s.me.s b).toNat)] = none →
    exec (mk rm sat (.s d) (.s a) (.s b)) s =
      .next (((if late then State.wroteLate else State.wroteS)
        ((s.drew rm 1).counted (eventsOf [f rm sat (s.rngWords rm 1 0) (s.me.s a).toNat (s.me.s b).toNat])) d
        (BitVec.ofNat 64 (f rm sat (s.rngWords rm 1 0) (s.me.s a).toNat (s.me.s b).toNat).bits)).past 8))
/-- d := f(a). -/
def FloatUnary (mk : Rm → Bool → SQ → SQ → Instr) (f : Rm → Bool → Nat → Nat → NRes) : Prop :=
  ∀ (s : State) (rm : Rm) (sat : Bool) (d a : SReg), s.resident [(10, d), (17, a)] → s.ready a →
    trapOf [(0, f rm sat (s.rngWords rm 1 0) (s.me.s a).toNat)] = none →
    exec (mk rm sat (.s d) (.s a)) s =
      .next ((((s.drew rm 1).counted (eventsOf [f rm sat (s.rngWords rm 1 0) (s.me.s a).toNat])).wroteLate d
        (BitVec.ofNat 64 (f rm sat (s.rngWords rm 1 0) (s.me.s a).toNat).bits)).past 8)
/-- d := f(a, b, c). -/
def FloatTernary (mk : Rm → Bool → SQ → SQ → SQ → SQ → Instr) (f : Rm → Bool → Nat → Nat → Nat → Nat → NRes) : Prop :=
  ∀ (s : State) (rm : Rm) (sat : Bool) (d a b c : SReg), s.resident [(10, d), (17, a), (24, b), (31, c)] → s.ready a →
    s.ready b → s.ready c →
    trapOf [(0, f rm sat (s.rngWords rm 1 0) (s.me.s a).toNat (s.me.s b).toNat (s.me.s c).toNat)] = none →
    exec (mk rm sat (.s d) (.s a) (.s b) (.s c)) s =
      .next ((((s.drew rm 1).counted (eventsOf [f rm sat (s.rngWords rm 1 0) (s.me.s a).toNat (s.me.s b).toNat
          (s.me.s c).toNat])).wroteS d
        (BitVec.ofNat 64 (f rm sat (s.rngWords rm 1 0) (s.me.s a).toNat (s.me.s b).toNat (s.me.s c).toNat).bits)).past 8)

/-! ## Shapes of vector instructions (R54, R55) -/

/-- The active lanes of n lanes under a mask, with their results. -/
def State.lanes (s : State) (n : Nat) (k : VMask) (f : Nat → NRes) : List (Nat × NRes) :=
  ((List.range n).map fun i => (i, if laneOn (s.me.mask k.m) k.n i then f i else .ok 0 none)).filter
    fun p => laneOn (s.me.mask k.m) k.n p.1
/-- The register that n lanes of width w make under a mask: inactive lanes are kept, or zero under `.z` and in a port. -/
def State.merged (s : State) (w n : Nat) (k : VMask) (d : VQ) (f : Nat → NRes) : Line :=
  mergeLanes w n (laneOn (s.me.mask k.m) k.n) (zeroing k d) (oldVQ s.me d) fun i =>
    (((List.range n).map fun i => (i, if laneOn (s.me.mask k.m) k.n i then f i else NRes.ok 0 none)).getD i (0, .ok 0 none)).2.bits
/-- From s, n lanes of width w with results f are written under mask k to d, giving t: their events are counted, none traps. -/
def LanesTo (s : State) (w n : Nat) (k : VMask) (d : VQ) (put : VQ → Line → M Unit) (f : Nat → NRes) (t : State) : Prop :=
  trapOf (s.lanes n k f) = none ∧
  put d (s.merged w n k d f) (s.counted (eventsOf ((s.lanes n k f).map (·.2)))) = .ok ((), t)
/-- An instruction with one vector source. The lanes are computed from the source after its port has been popped and the random
words have been drawn; a lane that traps raises cause 0x0A, a held destination 0x0C. -/
def Vec1 (t : ElemTy) (mk : VMask → VQ → VQ → Instr) (put : VQ → Line → M Unit) (rm : Rm) (f : Nat → Nat → NRes) : Prop :=
  (∀ (s u w : State) (k : VMask) (d a : VQ) (x : Line), s.fresh d → s.vgives a x u →
    LanesTo (u.drew rm (lanesOf t)) t.lane (lanesOf t) k d put
      (fun i => f (u.rngWords rm (lanesOf t) i) (laneNat x t.lane i)) w →
    exec (mk k d a) s = .next (w.past 8)) ∧
  (∀ (s : State) (k : VMask) (r : VReg) (a : VQ), s.me.held r = true →
    exec (mk k (.v r) a) s = .next (s.trapped 0x0C (BitVec.ofNat 64 r.toNat)))
/-- Two vector sources. -/
def Vec2 (t : ElemTy) (mk : VMask → VQ → VQ → VQ → Instr) (put : VQ → Line → M Unit) (rm : Rm) (f : Nat → Nat → Nat → NRes) :
    Prop :=
  (∀ (s u v w : State) (k : VMask) (d a b : VQ) (x y : Line), s.fresh d → s.vgives a x u → u.vgives b y v →
    LanesTo (v.drew rm (lanesOf t)) t.lane (lanesOf t) k d put
      (fun i => f (v.rngWords rm (lanesOf t) i) (laneNat x t.lane i) (laneNat y t.lane i)) w →
    exec (mk k d a b) s = .next (w.past 8)) ∧
  (∀ (s : State) (k : VMask) (r : VReg) (a b : VQ), s.me.held r = true →
    exec (mk k (.v r) a b) s = .next (s.trapped 0x0C (BitVec.ofNat 64 r.toNat)))
/-- Three vector sources. -/
def Vec3 (t : ElemTy) (mk : VMask → VQ → VQ → VQ → VQ → Instr) (rm : Rm) (f : Nat → Nat → Nat → Nat → NRes) : Prop :=
  (∀ (s u v x w : State) (k : VMask) (d a b c : VQ) (la lb lc : Line), s.fresh d → s.vgives a la u → u.vgives b lb v →
    v.vgives c lc x →
    LanesTo (x.drew rm (lanesOf t)) t.lane (lanesOf t) k d wrVQ
      (fun i => f (x.rngWords rm (lanesOf t) i) (laneNat la t.lane i) (laneNat lb t.lane i) (laneNat lc t.lane i)) w →
    exec (mk k d a b c) s = .next (w.past 8)) ∧
  (∀ (s : State) (k : VMask) (r : VReg) (a b c : VQ), s.me.held r = true →
    exec (mk k (.v r) a b c) s = .next (s.trapped 0x0C (BitVec.ofNat 64 r.toNat)))
/-- The mask whose bit i, for i below n, is f i where lane i is on, else the old bit or zero; the bits from n on are zero. -/
def LaneBits (n : Nat) (on : Nat → Bool) (z : Bool) (old : MaskW) (f : Nat → Bool) (m : MaskW) : Prop :=
  ∀ i, i < 128 → m.getLsbD i = (decide (i < n) && (if on i then f i else !z && old.getLsbD i))
/-- The lane count that field b of a mask instruction or branch gives: 1 to 128, else 128; 128 where b is s0 (R343). -/
def State.countIn (s : State) (b : SReg) : Nat :=
  if b = 0 ∨ s.me.s b = 0 ∨ 128 < (s.me.s b).toNat then 128 else (s.me.s b).toNat
/-- A conversion of n elements, element i from lane src + i of type st to lane dst + i of type dt; the other lanes of d are kept,
or zero in a port (R165). -/
def Converts (dt st : ElemTy) (om : Om) (rm : Rm) (n src dst : Nat) (mk : VMask → VQ → VQ → Instr) : Prop :=
  (∀ (s u w : State) (k : VMask) (d a : VQ) (x : Line) (rs : Nat → NRes), s.fresh d → s.vgives a x u →
    rs = (fun i => convert dt st om rm (laneNat x st.lane (src + i)) (u.rngWords rm n i)) →
    trapOf ((u.drew rm n).lanes n k rs) = none →
    ((u.drew rm n).counted (eventsOf (((u.drew rm n).lanes n k rs).map (·.2)))).vtakes d
      (ofLanes dt.lane (1024 / dt.lane) fun j =>
        if dst ≤ j ∧ j < dst + n then
          if laneOn (u.me.mask k.m) k.n (j - dst) then (rs (j - dst)).bits
          else if zeroing k d then 0 else laneNat (oldVQ u.me d) dt.lane j
        else laneNat (oldVQ u.me d) dt.lane j) w →
    exec (mk k d a) s = .next (w.past 8)) ∧
  (∀ (s u : State) (k : VMask) (d a : VQ) (x : Line) (l c : Nat), s.fresh d → s.vgives a x u →
    trapOf ((u.drew rm n).lanes n k fun i => convert dt st om rm (laneNat x st.lane (src + i)) (u.rngWords rm n i)) = some (l, c) →
    exec (mk k d a) s = .next (s.trapped 0x0A (BitVec.ofNat 64 (l + 256 * c))))
/-- Two masks into a mask. -/
def Mask2 (mk : MReg → MReg → MReg → Instr) (f : MaskW → MaskW → MaskW) : Prop :=
  ∀ (s : State) (d a b : MReg), exec (mk d a b) s = .next ((s.wroteM d (f (s.me.mask a) (s.me.mask b))).past 8)

/-! ## Memory -/

/-- A part of an instruction's work that completes now: it gives a, and the machine is in t after it. -/
def Gives {α : Type} (m : M α) (s : State) (a : α) (t : State) : Prop := m s = .ok (a, t)
/-- The effective address of a memory operand for an access of `size` bytes (R79): s[a] + s[b] · scale + disp. -/
def State.addrOf (s : State) (m : Addr) (size : Nat) : Word :=
  s.me.s m.a + s.me.s m.b * BitVec.ofNat 64 (scaleOf m.scale size) + m.disp.signExtend 64
/-- The registers of a memory operand have their values. -/
def State.addrReady (s : State) (m : Addr) : Prop := s.ready m.a ∧ s.ready m.b
/-- The active lanes of width w under a mask. -/
def State.onLanes (s : State) (w : Nat) (k : LMask) : List Nat := (List.range (1024 / w)).filter (laneOn (s.me.mask k.m) k.n)
/-- A whole-line access with an active lane passes the window and alignment checks of its 128 bytes (R421). -/
def State.lineOk (s : State) (k : LMask) (va : Word) (kind : Kind) : Prop :=
  s.onLanes 32 k = [] ∨ (s.resolve (s.actor s.curCore s.curCtx) va 128 kind ≠ .error (.trap 4) ∧
    s.resolve (s.actor s.curCore s.curCtx) va 128 kind ≠ .error (.trap 3))
/-- From s, the active lanes of width w are loaded from their addresses into d, whose other lanes are kept, giving t. -/
def LoadsLanes (s : State) (w : Nat) (ord : Option (Ord × Scope)) (k : LMask) (d : VReg) (addr : Nat → Word) (t : State) : Prop :=
  ∃ vs u, Gives (loadM (w / 8) ord ((s.onLanes w k).map fun i => (i, addr i))) s vs u ∧
    t = u.wroteV d (ofLanes w (1024 / w) fun i =>
      ((vs.find? fun p => p.1 == i).map (·.2)).getD (laneNat (u.me.vreg d) w i))
/-- From s, the active lanes of width w of x are stored at their addresses, giving t. -/
def StoresLanes (s : State) (w code : Nat) (ord : Option (Ord × Scope)) (k : LMask) (x : Line) (addr : Nat → Word) (t : State) :
    Prop :=
  Gives (storeM (w / 8) code ord ((s.onLanes w k).map fun i => (i, addr i, laneNat x w i))) s () t
/-- An address of n bytes in the own scratchpad (R113): window 8, its bits [59:22] zero, inside the partition, aligned, no alias. -/
def State.ownAddr (s : State) (va : Word) (n : Nat) : Prop :=
  (va.extractLsb' 60 4).toNat = 8 ∧ va.toNat / 2 ^ 22 % 2 ^ 38 = 0 ∧ va.toNat % 2 ^ 22 + n ≤ s.myGroup.part * 2 ^ 18 ∧ 0 < n ∧
    va.toNat % n = 0 ∧ isAlias (va.toNat % 2 ^ 22) = false
/-- The storage key of its line, and its byte in the line (R120): partition granules lie where the granule map says. -/
def State.ownKey (s : State) (va : Word) : Nat :=
  scratchKey s.curCore (gmapOff s.myGroup.gmap (va.toNat % 2 ^ 22) / 128 * 128)
def State.ownByte (s : State) (va : Word) : Nat := gmapOff s.myGroup.gmap (va.toNat % 2 ^ 22) % 128
/-- Nothing of the current context stands against an access now: no side-log entry, no request outstanding, a mark entry free. -/
def State.calm (s : State) : Prop :=
  s.myGroup.sideOf s.curCtx = [] ∧ s.me.access = none ∧ s.markRoom s.curCore false = true
/-- Two states differ in conflict marks, and in what the current context has observed and touched. -/
def Quiet (s t : State) : Prop :=
  ∃ mk o, t = ({ s with store := { s.store with marks := mk } } : State).modMe fun c => { c with touched := true, observed := o }

/-! ## Porter commands (R193, R198, R199) -/

/-- The instruction i, whose operands have been read and left the machine in u, enqueues a command: the checks of R198 are made,
a failing one raises its cause; into a queue of fewer than 16 entries the command goes for an agent of its own, its destination
lines are set empty, with a reply reservation for each message that this takes (R231), and the ticket is written; at a full queue
nothing happens and i is issued again. -/
def Enqueues (s u : State) (i : Instr) (f : CpyF) (fifo : Option Nat) (c : Actor → Cmd) : Prop :=
  ∀ p cmd, p = u.engineActor u.curCore u.curCtx (.porter f.queue.toNat) → cmd = ({ c p.2 with fifo } : Cmd).joined →
    (u.cmdCheck cmd = .ok () → (u.myGroup.queue f.queue.toNat).items.length < 16 →
      (u.core u.curCore).reserved + u.markMsgs cmd ≤ 256 →
      exec i s = .next (((((takeAgents cmd.op p.1).markDest cmd f.queue.toNat).enqueue u.curCore f.queue.toNat (.cmd cmd)).wroteS f.d
        (u.myGroup.queue f.queue.toNat).ticket).past 16)) ∧
    (u.cmdCheck cmd = .ok () → 16 ≤ (u.myGroup.queue f.queue.toNat).items.length → exec i s = .next s) ∧
    (∀ code v, u.cmdCheck cmd = .error (code, v) → exec i s = .next (s.trapped code v))

/-! ## The matrix unit (R177, R378) -/

/-- A tile lies in the own window, its lines below 2^22, inside the partition, at a multiple of 256 (R177). -/
def State.tileAt (s : State) (va : Word) : Prop :=
  windowOf va = 8 ∧ va.toNat / 2 ^ 22 % 2 ^ 38 = 0 ∧ va.toNat % 2 ^ 22 + 16384 ≤ s.myGroup.part * 2 ^ 18 ∧ va.toNat % 256 = 0
/-- The instruction mk f of opcode op issues an operation of operand class c: with operands of the class, a loaded program, FIFO
ports at both operands, a tile and a permitted counter, the operation is put behind those of the matrix unit and its
context waits for it; operands of another class raise 0x0F, an operand port that is no FIFO 0x0E. -/
def Issues (op c : Nat) (mk : MmaF → Instr) : Prop :=
  (∀ (s : State) (f : MmaF), s.resident [(10, f.acc)] → s.ready f.acc → classOf f.fa = c → classOf f.fb = c →
    (f.ms ≠ 0 → c ≠ 2 ∧ Cells.get [] s.myGroup.progs f.ms.toNat ≠ []) → (s.me.port f.qa).kind = 6 → (s.me.port f.qb).kind = 6 →
    s.tileAt (s.me.s f.acc) → (∀ k, f.kc = some k → s.myGroup.cmask.getLsbD k.toNat = true) →
    exec (mk f) s = .next ((s.modCore s.curCore fun x => { x with mmas := x.mmas ++
      [{ ctx := s.curCtx, pc := s.me.pc, op := BitVec.ofNat 8 op, f, tile := (s.me.s f.acc).toNat % 2 ^ 22,
         rows := (s.me.mask f.mr).extractLsb' 0 64, cols := (s.me.mask f.mc).extractLsb' 0 64,
         fa := (s.me.port f.qa).idx, fb := (s.me.port f.qb).idx }] }).modMe fun c =>
      { c with status := .waiting .mma, sawMark := false })) ∧
  (∀ (s : State) (f : MmaF), s.resident [(10, f.acc)] → classOf f.fa ≠ c ∨ classOf f.fb ≠ c ∨ (f.ms ≠ 0 ∧ c = 2) →
    exec (mk f) s = .next (s.trapped 0x0F (BitVec.ofNat 64 (f.fa.code.toNat + 16 * f.fb.code.toNat)))) ∧
  (∀ (s : State) (f : MmaF), s.resident [(10, f.acc)] → classOf f.fa = c → classOf f.fb = c → f.ms = 0 →
    (s.me.port f.qa).kind ≠ 6 → exec (mk f) s = .next (s.trapped 0x0E (BitVec.ofNat 64 (64 + f.qa.toNat))))

/-! ## Device events -/

/-- The state in which the device event at hand takes place: it is no longer at hand, and its mesh traffic has been metered (R267). -/
def State.begun (s : State) (e : Event) : State := ({ s with event := none } : State).meterMesh e
/-- The step i of spec/opcode_table.json performs the device event e with effect f. -/
def Happens (i : Instr) (e : Event) (f : State → State) : Prop := ∀ s, s.event = some e → exec i s = .next (f (s.begun e))

end Sys2Proof.Machine
end

