-- ==== Sys2Proof/Certificates/Slice0/Obligations.lean ====
section
/-! DEFINITION. Sys2Proof/Certificates/Slice0/Obligations.lean: the statements of this model, each about the machine (OBLIGATIONS.json
lists them). -/
open Sys2Proof Sys2Proof.Machine

/-! ## Scalar integers -/

/-- R335, R404, R372, R385, R436, R397, R395, R374, R349: the register and port forms of the two-operand integer instructions. -/
def Obligations.ScalarBinary : Prop :=
  Binary 0x00 .add (fun x y => x + y) ∧
  Binary 0x01 .sub (fun x y => x - y) ∧
  Binary 0x02 .mul (fun x y => x * y) ∧
  Binary 0x03 (.mulh true) (fun x y => BitVec.ofNat 64 (x.toNat * y.toNat / 2 ^ 64)) ∧
  Binary 0x03 (.mulh false) (fun x y => BitVec.ofInt 64 (x.toInt * y.toInt / 2 ^ 64)) ∧
  Binary 0x07 .and (fun x y => x &&& y) ∧
  Binary 0x08 .or (fun x y => x ||| y) ∧
  Binary 0x09 .xor (fun x y => x ^^^ y) ∧
  Binary 0x0A .shl (fun x y => x <<< (y.toNat % 64)) ∧
  Binary 0x0B .shr (fun x y => x >>> (y.toNat % 64)) ∧
  Binary 0x0C .sra (fun x y => x.sshiftRight (y.toNat % 64)) ∧
  Binary 0x0D .rot (fun x y => x.rotateLeft (y.toNat % 64)) ∧
  Binary 0x0E (.min true) (fun x y => if x.ule y then x else y) ∧
  Binary 0x0E (.min false) (fun x y => if x.sle y then x else y) ∧
  Binary 0x0F (.max true) (fun x y => if x.ule y then y else x) ∧
  Binary 0x0F (.max false) (fun x y => if x.sle y then y else x) ∧
  (∀ c, Binary 0x1E (.cmp c) (fun x y => oneIf (condHolds c x y))) ∧
  decodeTableWord 64 0x0B142400 = some (.add (.s 9) (.s 10) (.s 11)) ∧
  decodeTableWord 64 0x0B142404 = some (.sub (.s 9) (.s 10) (.s 11)) ∧
  decodeTableWord 64 0x0B142434 = some (.rot (.s 9) (.s 10) (.s 11)) ∧
  decodeTableWord 64 0x0B142438 = some (.min false (.s 9) (.s 10) (.s 11)) ∧
  decodeTableWord 64 0x8000B14243C = some (.max true (.s 9) (.s 10) (.s 11))

/-- R355, R393: quotients and remainders, whose results become available late. -/
def Obligations.ScalarDivision : Prop :=
  BinaryLate (.div true) (fun x y => if y = 0 then BitVec.allOnes 64 else x / y) ∧
  BinaryLate (.div false) (fun x y => if y = 0 then BitVec.allOnes 64 else x.sdiv y) ∧
  BinaryLate (.rem true) (fun x y => if y = 0 then x else x % y) ∧
  BinaryLate (.rem false) (fun x y => if y = 0 then x else x.srem y)

/-- R336, R385, R436, R397, R349, R342: the one-operand instructions with an immediate. -/
def Obligations.ScalarImmediate : Prop :=
  (∀ imm, Unary 8 0x10 (fun d a => .addi d a imm) (fun x => x + imm.signExtend 64)) ∧
  (∀ imm, Unary 8 0x11 (fun d a => .andi d a imm) (fun x => x &&& imm.signExtend 64)) ∧
  (∀ imm, Unary 8 0x12 (fun d a => .ori d a imm) (fun x => x ||| imm.signExtend 64)) ∧
  (∀ imm, Unary 8 0x13 (fun d a => .xori d a imm) (fun x => x ^^^ imm.signExtend 64)) ∧
  (∀ n, Unary 8 0x14 (fun d a => .shli d a n) (fun x => x <<< n.toNat)) ∧
  (∀ n, Unary 8 0x15 (fun d a => .shri d a n) (fun x => x >>> n.toNat)) ∧
  (∀ n, Unary 8 0x16 (fun d a => .srai d a n) (fun x => x.sshiftRight n.toNat)) ∧
  (∀ c imm, Unary 8 0x17 (fun d a => .cmpi c d a imm) (fun x => oneIf (condHolds c x (imm.signExtend 64)))) ∧
  (∀ pos len, Unary 8 0x19 (fun d a => .bext true d a pos len) (fun x => (x.extractLsb' pos.toNat len.toNat).signExtend 64)) ∧
  (∀ pos len, Unary 8 0x19 (fun d a => .bext false d a pos len) (fun x => (x.extractLsb' pos.toNat len.toNat).setWidth 64))

/-- R348, R389: counts of bits. A count of leading zeros n leaves the n highest bits clear and, below 64, bit 63 − n set. -/
def Obligations.BitCounts : Prop :=
  (∃ f : Word → Word, Unary 8 0x1B .clz f ∧ ∀ x, (f x).toNat ≤ 64 ∧ (∀ i, i < 64 → 64 - (f x).toNat ≤ i → x.getLsbD i = false) ∧
    ((f x).toNat < 64 → x.getLsbD (63 - (f x).toNat) = true)) ∧
  (∃ f : Word → Word, Unary 8 0x1C .ctz f ∧ ∀ x, (f x).toNat ≤ 64 ∧ (∀ i, i < (f x).toNat → x.getLsbD i = false) ∧
    ((f x).toNat < 64 → x.getLsbD (f x).toNat = true)) ∧
  Unary 8 0x1D .popc (fun x => BitVec.ofNat 64 ((List.range 64).countP fun i => x.getLsbD i)) ∧
  decodeTableWord 64 0x001A306C = some (.clz (.s 12) (.s 13)) ∧ decodeTableWord 64 0x00142474 = some (.popc (.s 9) (.s 10))

/-- R372, R396: the three-operand instructions. -/
def Obligations.ScalarTernary : Prop :=
  Ternary .mad (fun x y z => x * y + z) ∧ Ternary .sel (fun x y z => if z = 0 then y else x) ∧
  decodeTableWord 64 0x60B14247C = some (.sel (.s 9) (.s 10) (.s 11) (.s 12))

/-- R381, R336, R385, R436, R349, R342: moves of immediates, the long immediate forms, and the insertion of a bit field, which
leaves the other bits of d. -/
def Obligations.ScalarMoves : Prop :=
  (∀ (s t : State) (d : SQ) (imm : BitVec 32), s.resident (sqRegs [(10, d)]) → s.takes d (imm.signExtend 64) t →
    exec (.movi d imm) s = .next (t.past 8)) ∧
  (∀ (s : State) (d : SReg) (imm : Word), s.resident [(10, d)] → exec (.movw d imm) s = .next ((s.wroteS d imm).past 12)) ∧
  (∀ imm, InPlace (fun d => .addiFx d imm) (fun x => x + imm)) ∧
  (∀ imm, InPlace (fun d => .andiFx d imm) (fun x => x &&& imm)) ∧
  (∀ imm, InPlace (fun d => .oriFx d imm) (fun x => x ||| imm)) ∧
  (∀ imm, InPlace (fun d => .xoriFx d imm) (fun x => x ^^^ imm)) ∧
  (∀ (s : State) (c : ICond) (d a : SReg) (imm : Word), s.resident [(10, d), (17, a)] → s.ready a →
    exec (.cmpiFe c d a imm) s = .next ((s.wroteS d (oneIf (condHolds c (s.me.s a) imm))).past 16)) ∧
  (∃ f : Nat → Nat → Word → Word → Word,
    (∀ (s t : State) (d : SReg) (a : SQ) (pos : BitVec 6) (len : BitVec 7) (y : Word), s.resident (sqRegs [(10, .s d), (17, a)]) →
      s.gives a y t → t.ready d →
      exec (.bins d a pos len) s = .next ((t.wroteS d (f pos.toNat len.toNat (t.me.s d) y)).past 8)) ∧
    ∀ pos len x y i, i < 64 →
      (f pos len x y).getLsbD i = if pos ≤ i ∧ i < pos + len then y.getLsbD (i - pos) else x.getLsbD i)

/-! ## Scalar floats (R158 to R166, R358, R360, R361) -/

/-- R358: the rounded operations. The mode, the saturation bit and, under `rsr`, the random word go to the operation; its events
are counted. -/
def Obligations.FloatArithmetic : Prop :=
  FloatBinary .faddF32 (fAdd fmtF32) false ∧ FloatBinary .faddF64 (fAdd fmtF64) false ∧
  FloatBinary .fsubF32 (fSub fmtF32) false ∧ FloatBinary .fsubF64 (fSub fmtF64) false ∧
  FloatBinary .fmulF32 (fMul fmtF32) false ∧ FloatBinary .fmulF64 (fMul fmtF64) false ∧
  FloatBinary .fdivF32 (fDiv fmtF32) true ∧ FloatBinary .fdivF64 (fDiv fmtF64) true ∧
  FloatUnary .fsqrtF32 (fSqrt fmtF32) ∧ FloatUnary .fsqrtF64 (fSqrt fmtF64) ∧
  FloatTernary .ffmaF32 (fFma fmtF32) ∧ FloatTernary .ffmaF64 (fFma fmtF64)

/-- R360, R157, R82: minimum, maximum and comparison of floats. One NaN operand of `fmin` and `fmax` gives the other operand, two give
the canonical NaN; of the others the smaller and the larger, with −0 below +0. A NaN makes a comparison unordered: only ne and uo hold. -/
def Obligations.FloatMinMaxCompare : Prop :=
  (∀ t, Binary 0x2C (.fmin t) (fun x y => BitVec.ofNat 64 (fMinMax (fltOf t) false x.toNat y.toNat))) ∧
  (∀ t, Binary 0x2D (.fmax t) (fun x y => BitVec.ofNat 64 (fMinMax (fltOf t) true x.toNat y.toNat))) ∧
  (∀ t c, Binary 0x2E (.fcmp t c) (fun x y => oneIf (fcond (fltOf t) c x.toNat y.toNat))) ∧
  (∀ (f : FFmt) (hi : Bool) (x y : Nat), x < 2 ^ f.w → y < 2 ^ f.w →
    (fval f x = .nan → fval f y = .nan → fMinMax f hi x y = nanOf f) ∧
    (fval f x = .nan → fval f y ≠ .nan → fMinMax f hi x y = y) ∧
    (fval f x ≠ .nan → fval f y = .nan → fMinMax f hi x y = x)) ∧
  (∀ (f : FFmt) (x y : Nat), x < 2 ^ f.w → y < 2 ^ f.w → fval f x ≠ .nan → fval f y ≠ .nan →
    (cmpNum (fval f x) (fval f y) = some .lt → fMinMax f false x y = x ∧ fMinMax f true x y = y) ∧
    (cmpNum (fval f x) (fval f y) = some .gt → fMinMax f false x y = y ∧ fMinMax f true x y = x) ∧
    (cmpNum (fval f x) (fval f y) = some .eq → 2 ^ (f.w - 1) ≤ x → y < 2 ^ (f.w - 1) →
      fMinMax f false x y = x ∧ fMinMax f true x y = y ∧ fMinMax f false y x = x ∧ fMinMax f true y x = y)) ∧
  (∀ (f : FFmt) (c : FCond) (x y : Nat), fval f x = .nan ∨ fval f y = .nan → fcond f c x y = (c == .ne || c == .uo)) ∧
  decodeTableWord 64 0x000510000B1424B8 = some (.fcmp .f32 .lt (.s 9) (.s 10) (.s 11)) ∧ fval fmtF32 0x7FC00000 = .nan

/-- R361, R161: a conversion writes its result extended to 64 bits, or raises cause 0x0A with the kind of its failure. -/
def Obligations.FloatConvert : Prop :=
  ∀ (s t : State) (dt st : ElemTy) (om : Om) (rm : Rm) (d a : SQ) (x : Word), s.resident (sqRegs [(10, d), (17, a)]) →
    s.gives a x t →
    (∀ w, trapOf [(0, convert dt st om rm x.toNat (t.rngWords rm 1 0))] = none →
      ((t.drew rm 1).counted (eventsOf [convert dt st om rm x.toNat (t.rngWords rm 1 0)])).takes d
        (extendTy dt (convert dt st om rm x.toNat (t.rngWords rm 1 0)).bits) w →
      exec (.fcvt dt st om rm d a) s = .next (w.past 8)) ∧
    (∀ l k, trapOf [(0, convert dt st om rm x.toNat (t.rngWords rm 1 0))] = some (l, k) →
      exec (.fcvt dt st om rm d a) s = .next (s.trapped 0x0A (BitVec.ofNat 64 (l + 256 * k))))

/-! ## Control flow -/

/-- R341, R343, R366, R371: branches. A target is relative to the branch's own address in units of 4 bytes. -/
def Obligations.Branches : Prop :=
  (∀ (s : State) (off : BitVec 32), exec (.br off) s = .next (s.jumped (s.me.pc + off.signExtend 64 * 4))) ∧
  (∀ (s : State) (target : Word), exec (.brAbs target) s = .next (s.jumped target)) ∧
  (∀ (s : State) (a : SReg), s.resident [(17, a)] → s.ready a → exec (.jr a) s = .next (s.jumped (s.me.s a))) ∧
  (∀ (s : State) (c : ICond) (a b : SReg) (off : BitVec 32), s.resident [(10, a), (17, b)] → s.ready a → s.ready b →
    exec (.bcnd c a b off) s =
      .next (if condHolds c (s.me.s a) (s.me.s b) then s.jumped (s.me.pc + off.signExtend 64 * 4) else s.past 8)) ∧
  (∀ (s : State) (c : MCond) (a : MReg) (b : SReg) (off : BitVec 32), s.resident [(17, b)] → s.ready b →
    exec (.bmask c a b off) s =
      .next (if maskHolds c (s.me.mask a) (s.countIn b) then s.jumped (s.me.pc + off.signExtend 64 * 4) else s.past 8)) ∧
  (∀ (s : State) (a : SReg) (off : BitVec 32), s.resident [(10, a)] → s.ready a →
    exec (.loop a off) s =
      .next (if s.me.s a = 1 then (s.wroteS a (s.me.s a - 1)).past 8
             else (s.wroteS a (s.me.s a - 1)).jumped (s.me.pc + off.signExtend 64 * 4)))

/-- R344, R394, R52: a call shifts the register window up by 16, writes the address after it to s31 of the new frame and jumps; a
return takes s31, shifts back and jumps. A call at the stack's end takes 0x08 with 1, one without room in the store 0x08 with 0;
a return without a frame takes 0x09 with 1, one whose frame is not in the store 0x09 with 0. -/
def Obligations.CallsAndReturns : Prop :=
  (∀ (s : State) (off : BitVec 32), s.me.wb + 40 ≤ 65536 → s.me.wb + 40 ≤ s.me.lo + s.myGroup.r →
    exec (.call off) s = .next (((s.modMe fun c => zeroStack { c with wb := c.wb + 16 } (c.wb + 24) 16).wroteS 31
      (s.me.pc + 8)).jumped (s.me.pc + off.signExtend 64 * 4))) ∧
  (∀ (s : State) (target : Word), s.me.wb + 40 ≤ 65536 → s.me.wb + 40 ≤ s.me.lo + s.myGroup.r →
    exec (.callAbs target) s = .next (((s.modMe fun c => zeroStack { c with wb := c.wb + 16 } (c.wb + 24) 16).wroteS 31
      (s.me.pc + 12)).jumped target)) ∧
  (∀ (s : State) (a : SReg), s.resident [(17, a)] → s.ready a → s.me.wb + 40 ≤ 65536 →
    s.me.wb + 40 ≤ s.me.lo + s.myGroup.r →
    exec (.callr a) s = .next (((s.modMe fun c => zeroStack { c with wb := c.wb + 16 } (c.wb + 24) 16).wroteS 31
      (s.me.pc + 8)).jumped (s.me.s a))) ∧
  (∀ (s : State), s.ready 31 → 16 ≤ s.me.wb → s.me.lo ≤ s.me.wb - 16 →
    exec .ret s = .next ((s.modMe fun c => { c with wb := c.wb - 16 }).jumped (s.me.s 31))) ∧
  (∀ (s : State) (off : BitVec 32), 65536 < s.me.wb + 40 → exec (.call off) s = .next (s.trapped 0x08 1)) ∧
  (∀ (s : State) (off : BitVec 32), s.me.wb + 40 ≤ 65536 → s.me.lo + s.myGroup.r < s.me.wb + 40 →
    exec (.call off) s = .next (s.trapped 0x08 0)) ∧
  (∀ (s : State), s.ready 31 → s.me.wb < 16 → exec .ret s = .next (s.trapped 0x09 1)) ∧
  (∀ (s : State), s.ready 31 → 16 ≤ s.me.wb → s.me.wb - 16 < s.me.lo → exec .ret s = .next (s.trapped 0x09 0))

/-- R384, R437: the instructions without an effect but the program counter. -/
def Obligations.Hints : Prop :=
  ∀ s : State, exec .nop s = .next (s.past 8) ∧ exec .nopW s = .next (s.past 12) ∧ exec .nopX s = .next (s.past 16) ∧
    exec .yield s = .next (s.past 8)

/-! ## Vectors -/

/-- R411, R423: element-wise integer arithmetic. A result outside the type wraps, or saturates with its event. -/
def Obligations.VectorInteger : Prop :=
  (∀ t sat, Vec2 t (.vaddI t sat) wrVQ .rne (fun _ x y => intRes t sat (laneInt t x + laneInt t y))) ∧
  (∀ t sat, Vec2 t (.vsubI t sat) wrVQ .rne (fun _ x y => intRes t sat (laneInt t x - laneInt t y))) ∧
  (∀ t sat, Vec2 t (.vmulI t sat) wrVQ .rne (fun _ x y => intRes t sat (laneInt t x * laneInt t y))) ∧
  (∀ t sat, Vec3 t (.vfmaI t sat) .rne (fun _ x y z => intRes t sat (laneInt t x * laneInt t y + laneInt t z))) ∧
  (∀ t, Vec2 t (.vmaxI t) wrVQ .rne (fun _ x y => intRes t false (max (laneInt t x) (laneInt t y)))) ∧
  (∀ t, Vec2 t (.vminI t) wrVQ .rne (fun _ x y => intRes t false (min (laneInt t x) (laneInt t y)))) ∧
  (∀ t sat, t.isVInt = true → Vec1 t (.vabs t sat) wrVQ .rne (fun _ x => intRes t sat (laneInt t x).natAbs)) ∧
  (∀ t sat, t.isVInt = true → Vec1 t (.vneg t sat) wrVQ .rne (fun _ x => intRes t sat (-(laneInt t x)))) ∧
  (∀ t rm sat, t.isVInt = true → Vec2 t (.vdiv t rm sat) wrVQLate .rne
    (fun _ x y => if laneInt t y = 0 then .ok (2 ^ t.bits - 1) none else intRes t false ((laneInt t x).tdiv (laneInt t y))))

/-- R411, R423, R424, R419: element-wise float arithmetic. Each active lane rounds its exact result once, with a random word of
its own under `rsr`; division and square root become available late. -/
def Obligations.VectorFloat : Prop :=
  (∀ t rm sat, Vec2 t (.vaddF t rm sat) wrVQ rm (fun rw x y => fAdd (fltOf t) rm sat rw x y)) ∧
  (∀ t rm sat, Vec2 t (.vsubF t rm sat) wrVQ rm (fun rw x y => fSub (fltOf t) rm sat rw x y)) ∧
  (∀ t rm sat, Vec2 t (.vmulF t rm sat) wrVQ rm (fun rw x y => fMul (fltOf t) rm sat rw x y)) ∧
  (∀ t rm sat, Vec3 t (.vfmaF t rm sat) rm (fun rw x y z => fFma (fltOf t) rm sat rw x y z)) ∧
  (∀ t, Vec2 t (.vmaxF t) wrVQ .rne (fun _ x y => .ok (fMinMax (fltOf t) true x y) none)) ∧
  (∀ t, Vec2 t (.vminF t) wrVQ .rne (fun _ x y => .ok (fMinMax (fltOf t) false x y) none)) ∧
  (∀ t sat, t.isVInt = false → Vec1 t (.vabs t sat) wrVQ .rne (fun _ x => signOp t (fun _ => false) x)) ∧
  (∀ t sat, t.isVInt = false → Vec1 t (.vneg t sat) wrVQ .rne (fun _ x => signOp t (fun n => !n) x)) ∧
  (∀ t rm sat, t.isVInt = false → Vec2 t (.vdiv t rm sat) wrVQLate rm (fun rw x y => fDiv (fltOf t) rm sat rw x y)) ∧
  (∀ t rm sat, Vec1 t (.vsqrt t rm sat) wrVQLate rm (fun rw x => fSqrt (fltOf t) rm sat rw x)) ∧
  (∀ t rm sat, Vec1 t (.vrcp t rm sat) wrVQ rm (fun rw x => fRcp (fltOf t) rm sat rw x)) ∧
  (∀ t rm sat, Vec1 t (.vrsqrt t rm sat) wrVQ rm (fun rw x => fRsqrt (fltOf t) rm sat rw x)) ∧
  (∀ t rm sat, Vec1 t (.vexp2 t rm sat) wrVQ rm (fun rw x => fExp2 (fltOf t) rm sat rw x)) ∧
  (∀ t rm sat, Vec1 t (.vlog2 t rm sat) wrVQ rm (fun rw x => fLog2 (fltOf t) rm sat rw x))

/-- R414, R425, R426: bit operations and shifts of lanes, and `vmov`. A shift by the lane width or more gives zeros, or copies of the
sign bit. -/
def Obligations.VectorBits : Prop :=
  (∀ t, Vec2 t (.vand t) wrVQ .rne (fun _ x y => .ok (Nat.land x y) none)) ∧
  (∀ t, Vec2 t (.vor t) wrVQ .rne (fun _ x y => .ok (Nat.lor x y) none)) ∧
  (∀ t, Vec2 t (.vxor t) wrVQ .rne (fun _ x y => .ok (Nat.xor x y) none)) ∧
  (∀ t, Vec2 t (.vshl t) wrVQ .rne (fun _ x y => .ok (if t.lane ≤ y then 0 else x * 2 ^ y % 2 ^ t.lane) none)) ∧
  (∀ t, Vec2 t (.vshr t) wrVQ .rne (fun _ x y => .ok (if t.lane ≤ y then 0 else x / 2 ^ y) none)) ∧
  (∀ t, Vec2 t (.vsra t) wrVQ .rne (fun _ x y => .ok (ibits t.lane (ival true t.lane x / 2 ^ min y t.lane)) none)) ∧
  (∀ t, Vec1 t (.vmov t) wrVQ .rne (fun _ x => .ok x none)) ∧
  decodeTableWord 64 0x0003000022428D5C = some (.vand .n32 ⟨0, false, false⟩ (.v 3) (.v 1) (.v 2))

/-- R416: comparisons of lanes into a mask. Bits above the lanes of the type become zero; an inactive lane keeps its bit, or zero
under `.z`. -/
def Obligations.VectorCompare : Prop :=
  (∀ (s u v : State) (t : ElemTy) (c : ICond) (k : VMask) (d : MReg) (a b : VQ) (x y : Line) (m : MaskW), s.vgives a x u →
    u.vgives b y v → LaneBits (lanesOf t) (laneOn (v.me.mask k.m) k.n) k.z (v.me.mask d)
      (fun i => icond t.bits c (laneNat x t.lane i) (laneNat y t.lane i)) m →
    exec (.vcmpI t c k d a b) s = .next ((v.wroteM d m).past 8)) ∧
  (∀ (s u v : State) (t : ElemTy) (c : FCond) (k : VMask) (d : MReg) (a b : VQ) (x y : Line) (m : MaskW), s.vgives a x u →
    u.vgives b y v → LaneBits (lanesOf t) (laneOn (v.me.mask k.m) k.n) k.z (v.me.mask d)
      (fun i => fcond (fltOf t) c (laneNat x t.lane i) (laneNat y t.lane i)) m →
    exec (.vcmpF t c k d a b) s = .next ((v.wroteM d m).past 8))

/-- R418, R427: dot products and movements of lanes. -/
def Obligations.VectorMoves : Prop :=
  (∀ (s u v x w : State) (t : ElemTy) (rm : Rm) (sat : Bool) (k : VMask) (d a b c : VQ) (la lb lc : Line), s.fresh d →
    s.vgives a la u → u.vgives b lb v → v.vgives c lc x →
    LanesTo (x.drew (if t.isVInt then .rne else rm) 32) 32 32 k d wrVQ
      (fun i => dotLane t rm sat (x.rngWords (if t.isVInt then .rne else rm) 32 i) la lb lc i) w →
    exec (.vdot t rm sat k d a b c) s = .next (w.past 8)) ∧
  (∀ (s u v w : State) (t : ElemTy) (k : LMask) (d a b : VQ) (x y : Line), s.fresh d → s.vgives a x u → u.vgives b y v →
    v.vtakes d (ofLanes t.lane (lanesOf t) fun i =>
      if laneOn (v.me.mask k.m) k.n i then laneNat x t.lane i else laneNat y t.lane i) w →
    exec (.vsel t k d a b) s = .next (w.past 8)) ∧
  (∀ (s u w : State) (t : ElemTy) (k : VMask) (d : VQ) (a : SQ) (x : Word), s.resident (sqRegs [(17, a)]) → s.fresh d →
    s.gives a x u → LanesTo u t.lane (lanesOf t) k d wrVQ (fun _ => .ok (x.toNat % 2 ^ t.bits) none) w →
    exec (.vbcast t k d a) s = .next (w.past 8)) ∧
  (∀ (s w : State) (d : VQ) (imm : Word), s.fresh d → s.vtakes d (ofLanes 64 16 fun _ => imm.toNat) w →
    exec (.vbcastImm d imm) s = .next (w.past 12)) ∧
  (∀ (s u v x w : State) (t : ElemTy) (k : VMask) (d a b c : VQ) (la lb lc : Line), s.fresh d → s.vgives a la u →
    u.vgives b lb v → v.vgives c lc x →
    LanesTo x t.lane (lanesOf t) k d wrVQ (fun i =>
      let j := laneNat lc t.lane i
      .ok (if j < lanesOf t then laneNat la t.lane j else if j < 2 * lanesOf t then laneNat lb t.lane (j - lanesOf t) else 0)
        none) w →
    exec (.vperm t k d a b c) s = .next (w.past 8)) ∧
  (∀ (s u w : State) (t : ElemTy) (k : VMask) (d a : VQ) (b : SReg) (x : Line), s.resident [(24, b)] → s.fresh d →
    s.vgives a x u → u.ready b →
    LanesTo u t.lane (lanesOf t) k d wrVQ (fun i =>
      .ok (if 0 ≤ (i : Int) + (u.me.s b).toInt ∧ (i : Int) + (u.me.s b).toInt < lanesOf t
        then laneNat x t.lane ((i : Int) + (u.me.s b).toInt).toNat else 0) none) w →
    exec (.vslide t k d a b) s = .next (w.past 8)) ∧
  (∀ (s u v w : State) (hi : Bool) (t : ElemTy) (k : VMask) (d a b : VQ) (x y : Line), s.fresh d → s.vgives a x u →
    u.vgives b y v →
    LanesTo v t.lane (lanesOf t) k d wrVQ (fun i =>
      .ok (laneNat (if i % 2 = 0 then x else y) t.lane (i / 2 + (if hi then 1 else 0) * lanesOf t / 2)) none) w →
    exec (.vzip hi false t k d a b) s = .next (w.past 8)) ∧
  (∀ (s u v w : State) (hi : Bool) (t : ElemTy) (k : VMask) (d a b : VQ) (x y : Line), s.fresh d → s.vgives a x u →
    u.vgives b y v →
    LanesTo v t.lane (lanesOf t) k d wrVQ (fun i =>
      let j := 2 * i + if hi then 1 else 0
      .ok (if j < lanesOf t then laneNat x t.lane j else laneNat y t.lane (j - lanesOf t)) none) w →
    exec (.vzip hi true t k d a b) s = .next (w.past 8))

/-- R420: a lane to a scalar, by register or immediate index, zero beyond the lanes; a scalar into one lane of a register. -/
def Obligations.LaneTransfers : Prop :=
  (∀ (s u w : State) (t : ElemTy) (d : SQ) (a : VQ) (b : SReg) (x : Line), s.resident (sqRegs [(10, d)] ++ [(24, b)]) →
    s.vgives a x u → u.ready b →
    u.takes d (if lanesOf t ≤ (u.me.s b).toNat then 0 else extendTy t (laneNat x t.lane (u.me.s b).toNat)) w →
    exec (.vext t d a b) s = .next (w.past 8)) ∧
  (∀ (s u w : State) (t : ElemTy) (d : SQ) (a : VQ) (imm : BitVec 32) (x : Line), s.resident (sqRegs [(10, d)]) →
    s.vgives a x u → u.takes d (if lanesOf t ≤ imm.toNat then 0 else extendTy t (laneNat x t.lane imm.toNat)) w →
    exec (.vextImm t d a imm) s = .next (w.past 8)) ∧
  (∀ (s u : State) (t : ElemTy) (d : VReg) (a : SQ) (b : SReg) (x : Word), s.resident (sqRegs [(17, a)] ++ [(24, b)]) →
    s.me.held d = false → s.gives a x u → u.ready b → u.vready d →
    exec (.vins t d a b) s = .next ((u.wroteV d (ofLanes t.lane (lanesOf t) fun j =>
      if j = (u.me.s b).toNat then x.toNat % 2 ^ t.bits else laneNat (u.me.vreg d) t.lane j)).past 8))

/-- R428, R429: reductions of the active lanes to a scalar, and scans, whose active lane i reduces the active lanes up to i. -/
def Obligations.ReductionsAndScans : Prop :=
  (∀ (s u w : State) (op : RedOp) (t : ElemTy) (k : LMask) (d : SQ) (a : VQ) (x : Line), s.resident (sqRegs [(10, d)]) →
    s.vgives a x u → u.takes d (redIntWord op t (activeLanes t (laneOn (u.me.mask k.m) k.n) x (lanesOf t))) w →
    exec (.vredI op t k d a) s = .next (w.past 8)) ∧
  (∀ (s u w : State) (op : RedOp) (t : ElemTy) (rm : Rm) (sat : Bool) (k : LMask) (d : SQ) (a : VQ) (x : Line) (r : NRes),
    s.resident (sqRegs [(10, d)]) → s.vgives a x u →
    r = redFlt op t rm sat (u.rngWords rm 1 0) (activeLanes t (laneOn (u.me.mask k.m) k.n) x (lanesOf t)) →
    trapOf [(0, r)] = none → ((u.drew rm 1).counted (eventsOf [r])).takes d (BitVec.ofNat 64 r.bits) w →
    exec (.vredF op t rm sat k d a) s = .next (w.past 8)) ∧
  (∀ (s u w : State) (op : RedOp) (t : ElemTy) (sat : Bool) (k : VMask) (d a : VQ) (x : Line), s.fresh d → s.vgives a x u →
    LanesTo u t.lane (lanesOf t) k d wrVQ (fun i =>
      intRes t sat (redInt op t (activeLanes t (laneOn (u.me.mask k.m) k.n) x (i + 1)))) w →
    exec (.vscanI op t sat k d a) s = .next (w.past 8)) ∧
  (∀ (s u w : State) (op : RedOp) (t : ElemTy) (rm : Rm) (sat : Bool) (k : VMask) (d a : VQ) (x : Line), s.fresh d →
    s.vgives a x u →
    LanesTo (u.drew rm (lanesOf t)) t.lane (lanesOf t) k d wrVQ (fun i => scanFlt op t rm sat (u.rngWords rm (lanesOf t) i)
      (activeLanes t (laneOn (u.me.mask k.m) k.n) x (i + 1))) w →
    exec (.vscanF op t rm sat k d a) s = .next (w.past 8))

/-! ## Conversions, quantisation, random words -/

/-- R165, R161, R164: the conversions between types of the same, a larger and a smaller width. A part selects the lanes of the wider
register; a lane that traps raises cause 0x0A with its kind. -/
def Obligations.VectorConvert : Prop :=
  (∀ dt st om rm part, Converts dt st om rm (1024 / dt.lane) 0 0 (.vcvtSame dt st om rm part)) ∧
  (∀ dt st om rm part, st.lane < dt.lane →
    Converts dt st om rm (1024 / dt.lane) (part.toNat * (1024 / dt.lane)) 0 (.vcvtWide dt st om rm part)) ∧
  (∀ dt st om rm part, dt.lane < st.lane →
    Converts dt st om rm (1024 / st.lane) 0 (part.toNat * (1024 / st.lane)) (.vcvtNarrow dt st om rm part))

/-- R167, R168: a block of 32 f32 values becomes elements under one scale byte of b; a NaN makes the scale 0xFF and the elements zero,
else the scale is the exponent of the largest finite magnitude less emax, within −127 and 127, biased by 127. The inverse multiplies
the elements by the scale. -/
def Obligations.BlockQuantisation : Prop :=
  (∀ (s u v w : State) (fm : Fmt) (om : Om) (rm : Rm) (part : BitVec 2) (d a : VQ) (b : SReg) (x : Line) (vs : List FVal)
    (rs : List NRes), s.resident [(24, b)] → s.fresh d → s.ready b → s.vgives a x u →
    vs = (List.range 32).map (fun i => fval fmtF32 (laneNat x 32 i)) → (om = .trap → ∀ y ∈ vs, y ≠ .nan ∧ ∀ n, y ≠ .inf n) →
    rs = (List.range 32).map (fun i => if vs.contains .nan then NRes.ok 0 none
      else blockElem (blockOf fm).1 (blockExp (blockOf fm).2.1 vs) rm (u.rngWords rm 32 i) (vs.getD i .nan)) →
    v = (u.drew rm 32).counted (eventsOf rs) →
    v.vtakes d (putBlock (blockOf fm).2.2 part.toNat (oldVQ v.me d) fun i => (rs.getD i (.ok 0 none)).bits) w →
    exec (.vqnt fm om rm part d b a) s = .next ((w.wroteS b (putField (s.me.s b)
      (BitVec.ofNat 64 (if vs.contains .nan then 0xFF else (blockExp (blockOf fm).2.1 vs + 127).toNat))
      (8 * part.toNat) 8)).past 8)) ∧
  (∀ (s u w : State) (fm : Fmt) (om : Om) (part : BitVec 2) (d a : VQ) (b : SReg) (x : Line) (sc : Nat),
    s.resident [(24, b)] → s.fresh d → s.ready b → s.vgives a x u → sc = (s.me.s b).toNat / 2 ^ (8 * part.toNat) % 256 →
    LanesTo u 32 32 ⟨0, false, false⟩ d wrVQ (fun i => toFlt fmtF32 om .rne (scaleV ((sc : Int) - 127)
      (if sc = 0xFF then .nan else fval (blockOf fm).1 (laneNat x (blockOf fm).2.2 (32 * part.toNat + i)))) 0) w →
    exec (.vdqnt fm om part d a b) s = .next (w.past 8))

/-- R163, R169: the generator steps by three shifts and exclusive ors, is never zero, and `vrnd` writes 32 outputs, first seeding
the generator where a is not s0. -/
def Obligations.RandomWords : Prop :=
  (∀ (s w : State) (k : VMask) (d : VQ) (a : SReg) (t : State), s.resident [(17, a)] → s.fresh d → s.ready a →
    t = (if a = 0 then s else s.modMe fun c => { c with rng := rngStored ((s.me.s a).setWidth 32) }) →
    LanesTo (t.modMe fun c => { c with rng := (rngOutputs 32 t.me.rng).getLastD t.me.rng }) 32 32 k d wrVQ
      (fun i => .ok ((rngOutputs 32 t.me.rng).getD i 0).toNat none) w →
    exec (.vrnd k d a) s = .next (w.past 8)) ∧
  (∀ x : BitVec 32, rngStored x ≠ 0) ∧
  (∀ x : BitVec 32, x ≠ 0 → ∀ n, ∀ y ∈ rngOutputs n x, y ≠ 0) ∧
  (∀ (x : BitVec 32) (n : Nat), (rngOutputs n x).length = n)

/-! ## Masks -/

/-- R373, R380: mask instructions, and lanes of all ones or zeros from a mask. -/
def Obligations.Masks : Prop :=
  Mask2 .mand (fun x y => x &&& y) ∧ Mask2 .mor (fun x y => x ||| y) ∧ Mask2 .mxor (fun x y => x ^^^ y) ∧
  (∀ (s : State) (d a : MReg) (b : SReg) (m : MaskW), s.resident [(24, b)] → s.ready b →
    (∀ i, i < 128 → m.getLsbD i = (decide (i < s.countIn b) && !(s.me.mask a).getLsbD i)) →
    exec (.mnot d a b) s = .next ((s.wroteM d m).past 8)) ∧
  (∀ (s : State) (d : SReg) (a : MReg) (b : SReg), s.resident [(10, d), (24, b)] → s.ready b →
    exec (.mpopc d a b) s = .next ((s.wroteS d (BitVec.ofNat 64
      ((List.range (s.countIn b)).countP fun i => (s.me.mask a).getLsbD i))).past 8)) ∧
  (∀ (s : State) (d : SReg) (a : MReg) (b : SReg) (n : Nat), s.resident [(10, d), (24, b)] → s.ready b →
    n ≤ s.countIn b → (∀ i, i < n → (s.me.mask a).getLsbD i = false) →
    (n < s.countIn b → (s.me.mask a).getLsbD n = true) →
    exec (.mfirst d a b) s = .next ((s.wroteS d (BitVec.ofNat 64 n)).past 8)) ∧
  (∀ (s : State) (d : MReg) (a b : SReg), s.resident [(17, a), (24, b)] → s.ready a → s.ready b →
    exec (.mset d a b) s = .next ((s.wroteM d (s.me.s b ++ s.me.s a)).past 8)) ∧
  (∀ (s : State) (d : MReg) (n : BitVec 32) (m : MaskW), (∀ i, i < 128 → m.getLsbD i = decide (i < n.toNat)) →
    exec (.msetN d n) s = .next ((s.wroteM d m).past 8)) ∧
  (∀ (s : State) (d : MReg) (a : VReg) (m : MaskW), s.vready a → (∀ i, i < 128 → m.getLsbD i = (s.me.vreg a).getLsbD (8 * i + 7)) →
    exec (.msetB8 d a) s = .next ((s.wroteM d m).past 8)) ∧
  (∀ (s : State) (d : MReg) (a : VReg) (m : MaskW), s.vready a →
    (∀ i, i < 128 → m.getLsbD i = (decide (i < 64) && (s.me.vreg a).getLsbD (16 * i + 15))) →
    exec (.msetB16 d a) s = .next ((s.wroteM d m).past 8)) ∧
  (∀ (s : State) (d : MReg) (a : VReg) (m : MaskW), s.vready a →
    (∀ i, i < 128 → m.getLsbD i = (decide (i < 32) && (s.me.vreg a).getLsbD (32 * i + 31))) →
    exec (.msetB32 d a) s = .next ((s.wroteM d m).past 8)) ∧
  (∀ (s : State) (d a : MReg), exec (.mmov d a) s = .next ((s.wroteM d (s.me.mask a)).past 8)) ∧
  (∀ (s : State) (hi : Bool) (d : SReg) (a : MReg), s.resident [(10, d)] →
    exec (.mmovS hi d a) s = .next ((s.wroteS d ((s.me.mask a).extractLsb' (if hi then 64 else 0) 64)).past 8)) ∧
  (∀ (s : State) (d : MReg) (imm : Word),
    exec (.msetLo d imm) s = .next ((s.wroteM d ((s.me.mask d).extractLsb' 64 64 ++ imm)).past 12)) ∧
  (∀ (s : State) (d : MReg) (imm : Word),
    exec (.msetHi d imm) s = .next ((s.wroteM d (imm ++ (s.me.mask d).extractLsb' 0 64)).past 12)) ∧
  (∀ (s w : State) (k : VMask) (d : VReg) (a : MReg), s.me.held d = false →
    (LanesTo s 8 128 k (.v d) wrVQ (fun i => .ok (if (s.me.mask a).getLsbD i then 2 ^ 8 - 1 else 0) none) w →
      exec (.mmovB8 k d a) s = .next (w.past 8)) ∧
    (LanesTo s 16 64 k (.v d) wrVQ (fun i => .ok (if (s.me.mask a).getLsbD i then 2 ^ 16 - 1 else 0) none) w →
      exec (.mmovB16 k d a) s = .next (w.past 8)) ∧
    (LanesTo s 32 32 k (.v d) wrVQ (fun i => .ok (if (s.me.mask a).getLsbD i then 2 ^ 32 - 1 else 0) none) w →
      exec (.mmovB32 k d a) s = .next (w.past 8)))

/-! ## Operand forms -/

/-- R50, R54, R55, R56, R61: what the operand positions of the statements above are for registers and for the ends of a local queue.
s0 reads zero and m0 reads all ones, and a write to them is discarded; a port pops the element at its head and appends at its tail;
an empty port, a full one, and a held register make the context wait; a port that is not bound is misuse, case 1. -/
def Obligations.OperandForms : Prop :=
  (∀ (s : State) (r : SReg), s.ready r → s.gives (.s r) (s.me.s r) s) ∧
  (∀ (s : State) (r : SReg) (v : Word), s.takes (.s r) v (s.wroteS r v)) ∧
  (∀ (s : State) (r : VReg), s.vready r → s.vgives (.v r) (s.me.vreg r) s) ∧
  (∀ (s : State) (r : VReg) (v : Line), s.vtakes (.v r) v (s.wroteV r v)) ∧
  (∀ c : Ctx, c.s 0 = 0 ∧ c.mask 0 = BitVec.allOnes 128) ∧
  (∀ (c : Ctx) (v : Word) (m : MaskW), c.setSReg 0 v = c ∧ c.setMask 0 m = c) ∧
  (∀ (c : Ctx) (r q : SReg) (v : Word), (c.setSReg r v).s q = if q = r ∧ r ≠ 0 then v else c.s q) ∧
  (∀ (c : Ctx) (r q : MReg) (v : MaskW), (c.setMask r v).mask q = if q = r ∧ r ≠ 0 then v else c.mask q) ∧
  (∀ (c : Ctx) (r q : VReg) (v : Line), (c.setV r v).vreg q = if q = r then v else c.vreg q) ∧
  (∀ (s : State) (q : QReg) (v : Line), (s.me.port q).kind = 0 →
    popPort q s = .error (.trap 0x0E (BitVec.ofNat 64 (16 + q.toNat)) false) ∧
    appendPort q v s = .error (.trap 0x0E (BitVec.ofNat 64 (16 + q.toNat)) false)) ∧
  (∀ (s : State) (q : QReg), (s.me.port q).kind = 3 → (s.me.port q).write = false →
    (s.myGroup.lq (s.me.port q).idx).elems = [] →
    popPort q s = .error (.stay fun s => s.modMe fun c => { c with status := .waiting (.port q) })) ∧
  (∀ (s : State) (q : QReg) (v : Line) (r : Option Rel) (es : List Elem), (s.me.port q).kind = 3 → (s.me.port q).write = false →
    (s.myGroup.lq (s.me.port q).idx).elems = .data v r :: es → ∃ t, s.vgives (.q q) v t ∧ s.gives (.q q) (v.setWidth 64) t) ∧
  (∀ (s : State) (q : QReg) (v : Line), (s.me.port q).kind = 4 → (s.me.port q).write = true →
    8 ≤ (s.myGroup.lq (s.me.port q).idx).elems.length →
    appendPort q v s = .error (.stay fun s => s.modMe fun c => { c with status := .waiting (.port q) })) ∧
  (∀ (s : State) (r : VReg), s.me.held r = true →
    rdV r s = .error (.stay fun s => s.modMe fun c => { c with status := .waiting (.hold r) }))

/-! ## The machine as a whole -/

/-- R19, R21, R126, R163, R270, R295, R303: the state after reset, at the values the spec gives. Reset is followed by boot. -/
def Obligations.ResetState : Prop :=
  State.reset.phase = .reset ∧
  (∀ p, State.reset.tables.smapOf p = 0x000001FF76543210#64 ∧ State.reset.tables.cstateOf p = 0) ∧
  (∀ c, c < 256 → (State.reset.tables.cmapOf c).getLsbD 15 = true ∧
    ((State.reset.tables.cmapOf c).extractLsb' 0 9).toNat = 18 * (c / 16) + c % 16 + 1) ∧
  (∀ i, arrValid (State.reset.tables.arrOf i) = false) ∧
  State.reset.inj.ctl = 0 ∧ State.reset.sessions = [] ∧
  (∀ k, (State.reset.group k).launch = 0 ∧ (State.reset.group k).trapvec = 0) ∧
  (∀ k c, (State.reset.ctx k c).wb = 0 ∧ (State.reset.ctx k c).priv = 0 ∧ (State.reset.ctx k c).cause = 0 ∧
    (State.reset.ctx k c).status = .free) ∧
  step State.reset = exec .boot { State.reset with event := some .boot }

/-- The model's choice (log 2): memory that nothing has written reads as zero; reset memory is canonical. -/
def Obligations.ResetMemory : Prop := State.reset.memOk ∧ ∀ k, State.reset.byteAt k = 0

/-- Storage: a written byte reads back, every other byte keeps its value, writing keeps the canonical form, two memories in canonical form
that read alike are equal; a line write changes exactly its masked bytes. -/
def Obligations.MemoryReadWrite : Prop :=
  (∀ (m : Memory) (a c : Nat) (b : Byte), (m.write a b).read c = if c = a then b else m.read c) ∧
  (∀ (m : Memory) (a : Nat) (b : Byte), m.wf = true → (m.write a b).wf = true) ∧
  (∀ m n : Memory, m.wf = true → n.wf = true → (∀ a, m.read a = n.read a) → m = n) ∧
  (∀ (st : Store) (k c : Nat) (mask : BitVec 128) (l : Line), (st.setLine k mask l).mem.read c =
    if k ≤ c ∧ c < k + 128 ∧ mask.getLsbD (c - k) = true then lineByte l (c - k) else st.mem.read c) ∧
  (∀ (st : Store) (k : Nat) (mask : BitVec 128) (l : Line), st.mem.wf = true → (st.setLine k mask l).mem.wf = true) ∧
  (∀ (st : Store) (k n i : Nat), i < n → (st.bytes k n).getD i 0 = st.mem.read (k + i))

/-- Every step keeps the canonical form of the storage, whatever the state. -/
def Obligations.StepKeepsMemory : Prop := ∀ s t : State, s.memOk → step s = .next t → t.memOk

/-- The frame of every result that is said as a change of the current context: the storage and everything else of the panel, every other
core, what the core and its group hold beside that context, and every other context are unchanged. Writing one register leaves
every other one, and moving on leaves all of them. -/
def Obligations.EffectsFrame : Prop :=
  (∀ (s : State) (f : Ctx → Ctx), SameBytes s (s.modMe f) ∧ { s.modMe f with cores := s.cores } = s ∧
    (∀ k, k ≠ s.curCore → (s.modMe f).core k = s.core k) ∧
    { (s.modMe f).core s.curCore with group := s.myGroup } = s.core s.curCore ∧
    { (s.modMe f).myGroup with ctxs := s.myGroup.ctxs } = s.myGroup ∧
    (∀ k c, k ≠ s.curCore ∨ c ≠ s.curCtx → (s.modMe f).ctx k c = s.ctx k c) ∧ (s.modMe f).me = f s.me) ∧
  (∀ (s : State) (r q : SReg) (v : Word), (s.wroteS r v).me.s q = (if q = r ∧ r ≠ 0 then v else s.me.s q) ∧
    { (s.wroteS r v).me with low := s.me.low, stack := s.me.stack, late := s.me.late } = s.me) ∧
  (∀ (s : State) (r q : VReg) (v : Line), (s.wroteV r v).me.vreg q = (if q = r then v else s.me.vreg q) ∧
    { (s.wroteV r v).me with v := s.me.v, late := s.me.late, deposited := s.me.deposited } = s.me) ∧
  (∀ (s : State) (r q : MReg) (v : MaskW), (s.wroteM r v).me.mask q = (if q = r ∧ r ≠ 0 then v else s.me.mask q) ∧
    { (s.wroteM r v).me with m := s.me.m } = s.me) ∧
  (∀ (s : State) (n : Nat), (s.past n).me.pc = s.me.pc + BitVec.ofNat 64 n ∧
    { (s.past n).me with pc := s.me.pc, access := s.me.access, spawnReply := s.me.spawnReply, sawMiss := s.me.sawMiss,
                         sawMark := s.me.sawMark, walkFault := s.me.walkFault } = s.me) ∧
  (∀ (s : State) (w : Word), (s.jumped w).me.pc = w &&& ~~~3#64 ∧
    { (s.jumped w).me with pc := s.me.pc, access := s.me.access, spawnReply := s.me.spawnReply, sawMiss := s.me.sawMiss,
                           sawMark := s.me.sawMark, walkFault := s.me.walkFault } = s.me)

/-- A turn executes the instruction whose bytes stand at the program counter. The fetch resolves the program counter as an executable
4-byte access, reads 16 bytes there and decodes them; the turn then is `exec` of what they decode to, after which the core's
cycle has passed (R35) and followers learn what was issued (R41), with no byte of storage touched. A report that is due before the
instruction takes its place (R272). -/
def Obligations.StepRunsInstruction : Prop :=
  (∀ (s t u : State) (core : Nat) (i : Instr), s.choose = (.turn core, t) → (t.turnState core).issue = some (i, u) →
    (u.reportFirst i (exec i u) = none →
      step s = afterTurn core (t.turnState core).curCtx (t.turnState core).me.pc (t.turnState core).myGroup.tenant
        (((t.turnState core).core core).cycle.toNat + 1 - (t.core core).cycle.toNat) (i, u.me.branches i) (exec i u)) ∧
    ∀ r, u.reportFirst i (exec i u) = some r →
      step s = .next ((u.takeReport core (t.turnState core).curCtx r).endTurn core (t.turnState core).curCtx
        (t.turnState core).me.pc (t.turnState core).myGroup.tenant
        (((t.turnState core).core core).cycle.toNat + 1 - (t.core core).cycle.toNat) none)) ∧
  (∀ (s t : State) (core : Nat), s.choose = (.turn core, t) → (t.turnState core).issue = none →
    step s = .next ((t.turnState core).endTurn core (t.turnState core).curCtx (t.turnState core).me.pc
      (t.turnState core).myGroup.tenant (((t.turnState core).core core).cycle.toNat + 1 - (t.core core).cycle.toNat) none)) ∧
  (∀ (s u : State), s.me.follow = none →
    (∀ n i, fetchM s = .ok (.ok (i, n), u) → u.me.follow = none → s.issue = some (i, u)) ∧
    ∀ e, fetchM s = .ok (.error e, u) →
      s.issue = some (.illegalInstructionFetch, { s with event := some (.illegalInstructionFetch s.curCore s.curCtx) })) ∧
  (∀ (s u : State) (g : Tgt) (k : Nat), s.me.pc.toNat < 2 ^ 52 → resolveM s.me.pc 4 .exec false s = .ok (some g, u) →
    u.keyOf g.place = some k → u.store.readsPoison k (maskOf g.byte 4) = false →
    fetchM s = .ok (decodeAt u.me.pc.toNat (u.store.bytes (k + g.byte) 16), u)) ∧
  (∀ (pc n : Nat) (bs : List Byte) (i : Instr), decodeAt pc bs = .ok (i, n) ↔ decode bs = .ok (i, n) ∧ pc % 32 + n ≤ 32) ∧
  (∀ (s : State) (core ctx tenant cycles : Nat) (pc : Word) (i : Instr × Bool),
    afterTurn core ctx pc tenant cycles i (.next s) = .next (s.endTurn core ctx pc tenant cycles (some i))) ∧
  (∀ (s : State) (core ctx tenant cycles : Nat) (pc : Word) (i : Option (Instr × Bool)),
    (s.endTurn core ctx pc tenant cycles i).store = s.store ∧
    ((s.endTurn core ctx pc tenant cycles i).core core).cycle = (s.core core).cycle + 1 ∧
    ∀ k c, { (s.endTurn core ctx pc tenant cycles i).ctx k c with follow := (s.ctx k c).follow } = s.ctx k c)

/-- A step that the schedule gives to a device event performs that event; a step in the reset phase is boot. -/
def Obligations.StepPerformsEvents : Prop :=
  (∀ (s t : State) (e : Event), s.choose = (.event e, t) → step s = exec e.instr { t with event := some e }) ∧
  (∀ s t : State, s.choose = (.idle, t) → step s = .next t) ∧
  (∀ s : State, s.phase = .reset → step s = exec .boot { s with event := some .boot }) ∧
  (∀ (s : State) (i : Instr) (f : Event → State → State), s.event = none → runEvent i s f = .next s)

/-! ## Decoding -/

/-- R70 to R91: the decoder reads back every instruction that the encoder writes, with every operand, whatever bytes follow. -/
def Obligations.DecodeEncode : Prop :=
  ∀ (i : Instr) (rest : List Byte), i.wf = true → encode i ≠ [] → decode (encode i ++ rest) = .ok (i, (encode i).length)

/-- Words of the spec's encodings and the instructions they stand for, one of each format and one of each length. -/
def Obligations.DecodeWords : Prop :=
  decodeTableWord 64 0xB142400 = some (.add (.s 9) (.s 10) (.s 11)) ∧
  decodeTableWord 64 0xC0800142464 = some (.bext false (.s 9) (.s 10) 8 12) ∧
  decodeTableWord 64 0x8000B142414 = some (.div true (.s 9) (.s 10) (.s 11)) ∧
  decodeTableWord 64 0x510000B1424B8 = some (.fcmp .f32 .lt (.s 9) (.s 10) (.s 11)) ∧
  decodeTableWord 64 0x50060B14249C = some (.ffmaF64 .rsr false (.s 9) (.s 10) (.s 11) (.s 12)) ∧
  decodeTableWord 64 0x500162852B11C = some (.vfmaF .f32 .rne false { m := 0, n := false, z := false } (.v 12) (.v 9) (.v 8) (.v 12)) ∧
  decodeTableWord 64 0x1100024470930 = some (.vcmpI .i32 .lt { m := 0, n := false, z := false } 2 (.v 3) (.v 4)) ∧
  decodeTableWord 64 0x200009489DB8 = some (.vdqnt .mx8e4 .ovf 0 (.v 7) (.v 4) 9) ∧
  decodeTableWord 96 0x862000142605 = some (.ldOrdered .acq .pod .n64 9 { a := 10, b := 0, scale := 0, disp := 0 }) ∧
  decodeTableWord 96 0x3100000000000027E5 = some (.ldAbs 9 0x3100000000) ∧
  decodeTableWord 96 0x1066200B14265D = some (.amo64 .add .acq .panel 9 10 16 11) ∧
  decodeTableWord 96 0x10000B142669 = some (.stn .bit4 9 10 11 0) ∧
  decodeTableWord 64 0x2800001202E4 = some (.ctradd 5 9) ∧
  decodeTableWord 128 0x3000000000A1202A2 = some (.bar 9 10 3) ∧
  decodeTableWord 128 0x200061C02B42 = some (.mma16Slot0 { kc := none, swz := 0, chk := 0, kb := 0, zacc := false, keep := false, ms := 1, fb := .bf16, fa := .bf16, mc := 0, mr := 0, qb := 1, qa := 0, acc := 10 }) ∧
  decodeTableWord 64 0xA12039C = some (.tlbw 9 10) ∧
  decodeTableWord 64 0x2101000390 = some (.trap true 33)

/-- R70, R71, R91: what is not an instruction. A length code 0 or a wrong length is subcode 1, a fetch boundary crossed is subcode 5, and
the context whose fetch decodes to neither takes cause 0x01 with the record of the fault. -/
def Obligations.IllegalEncodings : Prop :=
  (∀ (pc : Nat) (bs : List Byte), lengthCode (BitVec.ofNat 8 (leNat (bs.take 16))) = none →
    decodeAt pc bs = .error ⟨1, 0, opcodeOf (leNat (bs.take 16))⟩) ∧
  (∀ (pc n : Nat) (bs : List Byte), lengthCode (BitVec.ofNat 8 (leNat (bs.take 16))) = some n → 32 < pc % 32 + n →
    decodeAt pc bs = .error ⟨5, 0, opcodeOf (leNat (bs.take 16))⟩) ∧
  (∀ (pc n : Nat) (bs : List Byte), lengthCode (BitVec.ofNat 8 (leNat (bs.take 16))) = some n → pc % 32 + n ≤ 32 →
    (formatOf (opcodeOf (leNat (bs.take 16)))).bytes ≠ n → decodeAt pc bs = .error ⟨1, 0, opcodeOf (leNat (bs.take 16))⟩) ∧
  (∀ (s u : State) (core ctx : Nat) (e : DecErr), s.event = some (.illegalInstructionFetch core ctx) →
    fetchM { s.begun (.illegalInstructionFetch core ctx) with curCore := core, curCtx := ctx } = .ok (.error e, u) →
    exec .illegalInstructionFetch s = .next (({ s.begun (.illegalInstructionFetch core ctx) with
      curCore := core, curCtx := ctx } : State).trapped 1 (illegalRecord e)))

/-! ## Traps (R7, R271 to R275) -/

/-- R271: taking a trap. sr.cause gets busy, mem, the level before, imp and the code; sr.epc and sr.tval are written; the level becomes
1; the pc goes to sr.trapvec + 32 · code. Nothing else of the context changes but that it stops waiting and following, and no other
context, core or byte of storage. With busy already 1, or without a handler table, it is fatal: the launch retires (R273). -/
def Obligations.TrapEntry : Prop :=
  (∀ (s : State) (core ctx code : Nat) (tval epc : Word) (mem imp : Bool), (s.ctx core ctx).cause.getLsbD 15 = true ∨
    (s.group core).trapvec = 0 → s.enterTrap core ctx code tval epc mem imp = s.fatal core ctx code epc tval) ∧
  ∀ (s t : State) (core ctx code : Nat) (tval epc : Word) (mem imp : Bool), code < 256 → (s.ctx core ctx).cause.getLsbD 15 = false →
    (s.group core).trapvec ≠ 0 → t = s.enterTrap core ctx code tval epc mem imp →
    (t.ctx core ctx).pc = (s.group core).trapvec + BitVec.ofNat 64 (32 * code) ∧ (t.ctx core ctx).epc = epc ∧
    (t.ctx core ctx).tval = tval ∧ (t.ctx core ctx).priv = 1 ∧ (t.ctx core ctx).status = .ready ∧
    (t.ctx core ctx).cause.getLsbD 15 = true ∧ (t.ctx core ctx).cause.getLsbD 11 = mem ∧
    (t.ctx core ctx).cause.extractLsb' 9 2 = (s.ctx core ctx).priv ∧ (t.ctx core ctx).cause.getLsbD 8 = imp ∧
    ((t.ctx core ctx).cause.extractLsb' 0 8).toNat = code ∧ (t.ctx core ctx).cause &&& ~~~0x8FFF#64 = 0 ∧
    (∀ r, (t.ctx core ctx).s r = (s.ctx core ctx).s r ∧ (t.ctx core ctx).vreg r = (s.ctx core ctx).vreg r) ∧
    (∀ r, (t.ctx core ctx).mask r = (s.ctx core ctx).mask r ∧ (t.ctx core ctx).port r = (s.ctx core ctx).port r) ∧
    (t.ctx core ctx).wb = (s.ctx core ctx).wb ∧ (t.ctx core ctx).tscr = (s.ctx core ctx).tscr ∧
    (t.ctx core ctx).follow = none ∧ SameBytes s t ∧
    ∀ k c, k ≠ core ∨ c ≠ ctx → t.ctx k c = s.ctx k c

/-- R7, R376, R377, R68, R274, R279, R280, R296, R346: an instruction executed below its level takes cause 0x02, with sr.epc at the instruction. -/
def Obligations.Privilege : Prop :=
  ∀ s : State, s.me.priv = 0 →
    exec .rett s = .next (s.trapped 2 0) ∧
    (∀ a b, s.resident [(17, a), (24, b)] → exec (.tlbw a b) s = .next (s.trapped 2 0)) ∧
    (∀ a b c, s.resident [(17, a), (24, b), (31, c)] → exec (.tlbwRm a b c) s = .next (s.trapped 2 0)) ∧
    exec .tlbiAll s = .next (s.trapped 2 0) ∧
    (∀ a, s.resident [(17, a)] → exec (.tlbiVa a) s = .next (s.trapped 2 0)) ∧
    (∀ a, s.resident [(17, a)] → exec (.tlbiTn a) s = .next (s.trapped 2 0)) ∧
    (∀ d a b, s.resident [(10, d), (17, a), (24, b)] → exec (.injArm d a b) s = .next (s.trapped 2 0)) ∧
    (∀ d, s.resident [(10, d)] → exec (.injOff d) s = .next (s.trapped 2 0)) ∧
    exec .wspill s = .next (s.trapped 2 0) ∧
    exec .wfill s = .next (s.trapped 2 0) ∧
    (∀ d n, n = 0x040 ∨ (0x010 ≤ n.toNat ∧ n.toNat ≤ 0x017) → s.resident [(10, d)] → exec (.mfsr d n) s = .next (s.trapped 2 0)) ∧
    (∀ n a, n = 0x040 ∨ (0x010 ≤ n.toNat ∧ n.toNat ≤ 0x017) → s.resident [(17, a)] → exec (.mtsr n a) s = .next (s.trapped 2 0)) ∧
    (∀ d a, s.resident [(10, d), (17, a)] → exec (.ecall d a 0x44) s = .next (s.trapped 2 0) ∧ exec (.ecall d a 0x45) s = .next (s.trapped 2 0))


/-! ## Memory -/

/-- R367, R400: scalar loads and stores. A load extends the value that it reads at its effective address; a store writes the low bytes of
s[d] there. -/
def Obligations.ScalarMemory : Prop :=
  (∀ (s t : State) (sz : LdSz) (d : SReg) (m : Addr) (vs : List (Nat × Nat)), s.resident ((10, d) :: addrRegs m) → s.addrReady m →
    Gives (loadM (ldBytes sz) none [(0, s.addrOf m (ldBytes sz))]) s vs t →
    exec (.ld sz d m) s = .next ((t.wroteS d (ldExtend sz (oneLane vs))).past 12)) ∧
  (∀ (s t : State) (o : Ord) (sc : Scope) (sz : LdSz) (d : SReg) (m : Addr) (vs : List (Nat × Nat)),
    s.resident ((10, d) :: addrRegs m) → s.addrReady m →
    Gives (loadM (ldBytes sz) (some (o, sc)) [(0, s.addrOf m (ldBytes sz))]) s vs t →
    exec (.ldOrdered o sc sz d m) s = .next ((t.wroteS d (ldExtend sz (oneLane vs))).past 12)) ∧
  (∀ (s t : State) (d : SReg) (addr : Word) (vs : List (Nat × Nat)), s.resident [(10, d)] →
    Gives (loadM 8 none [(0, addr)]) s vs t →
    exec (.ldAbs d addr) s = .next ((t.wroteS d (BitVec.ofNat 64 (oneLane vs))).past 12)) ∧
  (∀ (s t : State) (sz : StSz) (d : SReg) (m : Addr), s.resident ((10, d) :: addrRegs m) → s.addrReady m → s.ready d →
    Gives (storeM (stBytes sz) (stCode sz) none [(0, s.addrOf m (stBytes sz), (s.me.s d).toNat)]) s () t →
    exec (.st sz d m) s = .next (t.past 12)) ∧
  (∀ (s t : State) (o : Ord) (sc : Scope) (sz : StSz) (d : SReg) (m : Addr), s.resident ((10, d) :: addrRegs m) → s.addrReady m →
    s.ready d → Gives (storeM (stBytes sz) (stCode sz) (some (o, sc)) [(0, s.addrOf m (stBytes sz), (s.me.s d).toNat)]) s () t →
    exec (.stOrdered o sc sz d m) s = .next (t.past 12)) ∧
  (∀ (s t : State) (d : SReg) (addr : Word), s.resident [(10, d)] → s.ready d →
    Gives (storeM 8 3 none [(0, addr, (s.me.s d).toNat)]) s () t → exec (.stAbs d addr) s = .next (t.past 12)) ∧
  (∀ x, ldExtend .n8 x = BitVec.ofNat 64 (x % 2 ^ 8) ∧ ldExtend .n16 x = BitVec.ofNat 64 (x % 2 ^ 16) ∧
    ldExtend .n32 x = BitVec.ofNat 64 (x % 2 ^ 32) ∧ ldExtend .n64 x = BitVec.ofNat 64 x ∧
    ldExtend .i8 x = (BitVec.ofNat 8 x).signExtend 64 ∧ ldExtend .i16 x = (BitVec.ofNat 16 x).signExtend 64 ∧
    ldExtend .i32 x = (BitVec.ofNat 32 x).signExtend 64)

/-- R421, R432: vector loads. Consecutive lanes of 32 bits from the effective address; indexed lanes from s[a] + disp + the lane of v[b]
times the scale; strided lanes from s[a] + disp + i times s[b] times the scale. Inactive lanes are not read and keep their value. -/
def Obligations.VectorLoads : Prop :=
  (∀ (s t : State) (k : LMask) (d : VReg) (m : Addr), s.resident (addrRegs m) → s.addrReady m → s.me.held d = false →
    s.lineOk k (s.addrOf m 128) .load →
    (LoadsLanes s 32 none k d (fun i => s.addrOf m 128 + BitVec.ofNat 64 (4 * i)) t → exec (.vld k d m) s = .next (t.past 12)) ∧
    ∀ o sc, LoadsLanes s 32 (some (o, sc)) k d (fun i => s.addrOf m 128 + BitVec.ofNat 64 (4 * i)) t →
      exec (.vldOrdered o sc k d m) s = .next (t.past 12)) ∧
  (∀ (s t : State) (d : VReg) (addr : Word), s.me.held d = false → s.lineOk ⟨0, false⟩ addr .load →
    LoadsLanes s 32 none ⟨0, false⟩ d (fun i => addr + BitVec.ofNat 64 (4 * i)) t → exec (.vldAbs d addr) s = .next (t.past 12)) ∧
  (∀ (s t : State) (w : EW) (k : LMask) (d : VReg) (x : XAddr), s.resident [(17, x.a)] → s.ready x.a → s.vready x.b →
    s.me.held d = false →
    let addr := fun i => s.me.s x.a + x.disp.signExtend 64 +
      BitVec.ofNat 64 (laneNat (s.me.vreg x.b) (ewBits w) i * scaleOf x.scale (ewBits w / 8))
    (LoadsLanes s (ewBits w) none k d addr t → exec (.vldx w k d x) s = .next (t.past 12)) ∧
    ∀ o sc, LoadsLanes s (ewBits w) (some (o, sc)) k d addr t → exec (.vldxOrdered o sc w k d x) s = .next (t.past 12)) ∧
  (∀ (s t : State) (w : EW) (k : LMask) (d : VReg) (m : Addr), s.resident (addrRegs m) → s.addrReady m → s.me.held d = false →
    let addr := fun i => s.me.s m.a + m.disp.signExtend 64 +
      BitVec.ofNat 64 i * s.me.s m.b * BitVec.ofNat 64 (scaleOf m.scale (ewBits w / 8))
    (LoadsLanes s (ewBits w) none k d addr t → exec (.vlds w k d m) s = .next (t.past 12)) ∧
    ∀ o sc, LoadsLanes s (ewBits w) (some (o, sc)) k d addr t → exec (.vldsOrdered o sc w k d m) s = .next (t.past 12)) ∧
  (∀ (s : State) (k : LMask) (d : VReg) (m : Addr), s.resident (addrRegs m) → s.addrReady m → s.me.held d = false →
    s.onLanes 32 k ≠ [] → ∀ c, c = 3 ∨ c = 4 →
    s.resolve (s.actor s.curCore s.curCtx) (s.addrOf m 128) 128 .load = .error (.trap c) →
    exec (.vld k d m) s = .next (s.trapped c (s.addrOf m 128)))

/-- R421, R432: vector stores, to the same addresses; inactive lanes are not written. -/
def Obligations.VectorStores : Prop :=
  (∀ (s t : State) (k : LMask) (d : VReg) (m : Addr), s.resident (addrRegs m) → s.addrReady m → s.vready d →
    s.lineOk k (s.addrOf m 128) .store →
    (StoresLanes s 32 7 none k (s.me.vreg d) (fun i => s.addrOf m 128 + BitVec.ofNat 64 (4 * i)) t →
      exec (.vst k d m) s = .next (t.past 12)) ∧
    ∀ o sc, StoresLanes s 32 7 (some (o, sc)) k (s.me.vreg d) (fun i => s.addrOf m 128 + BitVec.ofNat 64 (4 * i)) t →
      exec (.vstOrdered o sc k d m) s = .next (t.past 12)) ∧
  (∀ (s t : State) (d : VReg) (addr : Word), s.vready d → s.lineOk ⟨0, false⟩ addr .store →
    StoresLanes s 32 7 none ⟨0, false⟩ (s.me.vreg d) (fun i => addr + BitVec.ofNat 64 (4 * i)) t →
    exec (.vstAbs d addr) s = .next (t.past 12)) ∧
  (∀ (s t : State) (w : EW) (k : LMask) (d : VReg) (x : XAddr), s.resident [(17, x.a)] → s.ready x.a → s.vready x.b → s.vready d →
    let addr := fun i => s.me.s x.a + x.disp.signExtend 64 +
      BitVec.ofNat 64 (laneNat (s.me.vreg x.b) (ewBits w) i * scaleOf x.scale (ewBits w / 8))
    (StoresLanes s (ewBits w) (ewCode w) none k (s.me.vreg d) addr t → exec (.vstx w k d x) s = .next (t.past 12)) ∧
    ∀ o sc, StoresLanes s (ewBits w) (ewCode w) (some (o, sc)) k (s.me.vreg d) addr t →
      exec (.vstxOrdered o sc w k d x) s = .next (t.past 12)) ∧
  (∀ (s t : State) (w : EW) (k : LMask) (d : VReg) (m : Addr), s.resident (addrRegs m) → s.addrReady m → s.vready d →
    let addr := fun i => s.me.s m.a + m.disp.signExtend 64 +
      BitVec.ofNat 64 i * s.me.s m.b * BitVec.ofNat 64 (scaleOf m.scale (ewBits w / 8))
    (StoresLanes s (ewBits w) (ewCode w) none k (s.me.vreg d) addr t → exec (.vsts w k d m) s = .next (t.past 12)) ∧
    ∀ o sc, StoresLanes s (ewBits w) (ewCode w) (some (o, sc)) k (s.me.vreg d) addr t →
      exec (.vstsOrdered o sc w k d m) s = .next (t.past 12))

/-- R112, R113, R117, R120: an access of the own scratchpad. A load of a full line gives its bytes and changes nothing but marks; a store
writes exactly its bytes, at the address that the operand gives, and every other byte keeps its value; a load of an empty line
makes the context wait; an address that does not resolve traps with its cause and the address. -/
def Obligations.ScratchpadAccess : Prop :=
  (∀ (s : State) (va : Word) (n : Nat), s.ownAddr va n → s.calm → s.store.isEmpty (s.ownKey va) = false →
    s.store.readsPoison (s.ownKey va) (maskOf (s.ownByte va) n) = false →
    s.store.conflictIn (s.actor s.curCore s.curCtx) false true (s.ownKey va) (maskOf (s.ownByte va) n) = none →
    ∃ t, Gives (loadM n none [(0, va)]) s [(0, lineNat (s.store.line (s.ownKey va)) (s.ownByte va) n)] t ∧ Quiet s t) ∧
  (∀ (s : State) (va : Word) (n code x : Nat), s.ownAddr va n → s.calm → (s.core s.curCore).reserved < 256 →
    s.ownByte va + n ≤ 128 →
    s.store.conflictIn (s.actor s.curCore s.curCtx) true true (s.ownKey va) (maskOf (s.ownByte va) n) = none →
    ∃ t, Gives (storeM n code none [(0, va, x)]) s () t ∧
      (∀ c, t.byteAt c = if s.ownKey va + s.ownByte va ≤ c ∧ c < s.ownKey va + s.ownByte va + n
        then BitVec.ofNat 8 (x / 256 ^ (c - (s.ownKey va + s.ownByte va))) else s.byteAt c) ∧
      t.me = { s.me with touched := true } ∧ (s.memOk → t.memOk)) ∧
  (∀ (s : State) (va : Word) (n : Nat), s.ownAddr va n → s.calm → s.store.isEmpty (s.ownKey va) = true →
    ∃ f, loadM n none [(0, va)] s = .error (.stay f) ∧ (f s).me.status = .waiting (.line s.curCore (s.ownKey va)) ∧ SameBytes s (f s)) ∧
  (∀ (s : State) (va : Word) (n c : Nat), 0 < n → s.myGroup.sideOf s.curCtx = [] →
    s.resolve (s.actor s.curCore s.curCtx) va n .load = .error (.trap c) → loadM n none [(0, va)] s = .error (.trap c va false)) ∧
  (∀ (s : State) (va : Word) (n : Nat), (va.extractLsb' 60 4).toNat = 8 → va.toNat / 2 ^ 22 % 2 ^ 38 = 0 →
    isAlias (va.toNat % 2 ^ 22) = false → 0 < n →
    (s.myGroup.part * 2 ^ 18 ≤ va.toNat % 2 ^ 22 →
      s.resolve (s.actor s.curCore s.curCtx) va n .load = .error (.trap 4)) ∧
    (va.toNat % 2 ^ 22 < s.myGroup.part * 2 ^ 18 → va.toNat % n ≠ 0 →
      s.resolve (s.actor s.curCore s.curCtx) va n .load = .error (.trap 3)))

/-- R118, R369, R402: full/empty accesses. The mode table of a line: what each access waits for, and the state it leaves. An access
of an own line whose condition does not hold waits; one whose condition holds is served. `fset` and `fclr` set the state of a line. -/
def Obligations.FullEmptyAccesses : Prop :=
  (∀ (s t : State) (mode : LdfMode) (sc : Scope) (sz : LdSz) (d : SReg) (m : Addr) (g : Tgt) (l : Line),
    s.resident ((10, d) :: addrRegs m) → s.addrReady m →
    Gives (ldfLine mode sc (ldBytes sz) (s.addrOf m (ldBytes sz)) fun g => maskOf g.byte (ldBytes sz)) s (g, l) t →
    exec (.ldfS mode sc sz d m) s = .next ((t.wroteS d (ldExtend sz (lineNat l g.byte (ldBytes sz)))).past 12)) ∧
  (∀ (s t : State) (mode : LdfMode) (sc : Scope) (k : LMask) (d : VReg) (m : Addr) (g : Tgt) (l : Line),
    s.resident (addrRegs m) → s.addrReady m → s.me.held d = false →
    Gives (ldfLine mode sc 128 (s.addrOf m 128) fun _ => laneBytes (s.me.mask k.m) k.n) s (g, l) t →
    exec (.ldfV mode sc k d m) s = .next ((t.wroteV d (mergeLine (laneBytes (s.me.mask k.m) k.n) l (t.me.vreg d))).past 12)) ∧
  (∀ (s t : State) (mode : StfMode) (sc : Scope) (sz : StSz) (d : SReg) (m : Addr), s.resident ((10, d) :: addrRegs m) →
    s.addrReady m → s.ready d →
    Gives (stfLine mode sc (stBytes sz) (stCode sz) (s.addrOf m (stBytes sz)) (fun g => maskOf g.byte (stBytes sz))
      fun g => valLine g.byte (stBytes sz) (s.me.s d).toNat) s () t →
    exec (.stfS mode sc sz d m) s = .next (t.past 12)) ∧
  (∀ (s t : State) (mode : StfMode) (sc : Scope) (k : LMask) (d : VReg) (m : Addr), s.resident (addrRegs m) → s.addrReady m →
    s.vready d →
    Gives (stfLine mode sc 128 7 (s.addrOf m 128) (fun _ => laneBytes (s.me.mask k.m) k.n) fun _ => s.me.vreg d) s () t →
    exec (.stfV mode sc k d m) s = .next (t.past 12)) ∧
  (∀ (m : SyncMsg) (e : Bool), m.store = none →
    (m.load = some .wfse → syncMet m e = !e ∧ syncAfter m e = true) ∧ (m.load = some .wf → syncMet m e = !e ∧ syncAfter m e = e) ∧
    (m.load = some .se → syncMet m e = true ∧ syncAfter m e = true)) ∧
  (∀ (m : SyncMsg) (e : Bool), m.load = none →
    (m.store = some .wesf → syncMet m e = e ∧ syncAfter m e = false) ∧ (m.store = some .sf → syncMet m e = true ∧ syncAfter m e = false)) ∧
  (∀ (s : State) (k : Nat) (m : SyncMsg), syncMet m (s.store.isEmpty k) = false →
    ∃ f, ownSync k m s = .error (.stay f) ∧ (f s).me.status = .waiting (.line (coreOfKey k) k) ∧ SameBytes s (f s)) ∧
  (∀ (s : State) (k : Nat) (m : SyncMsg) (mode : LdfMode), m.load = some mode → m.store = none → (s.core (coreOfKey k)).waiters = [] →
    syncMet m (s.store.isEmpty k) = true → s.store.readsPoison k m.part.mask = false → m.part.checked = true →
    s.store.conflictIn (acquiring m.actor m.acq ((s.store.lineRel k).toList ++ s.store.relsOf k m.part.mask)) false false k
      m.part.mask = none →
    ∃ t rels, Gives (ownSync k m) s (.data [{ m.part with data := s.store.line k, rels := s.store.relPairs k m.part.mask }] rels) t ∧
      t.store.isEmpty k = syncAfter m (s.store.isEmpty k) ∧ SameBytes s t ∧ t.cores = s.cores) ∧
  (∀ (s : State) (m : Addr), s.resident (addrRegs m) → s.addrReady m → s.ownAddr (s.addrOf m 1 &&& ~~~127#64) 128 →
    exec (.fclr m) s = .next ((s.homeSetLine (s.ownKey (s.addrOf m 1 &&& ~~~127#64)) false none).past 12)) ∧
  (∀ (s u : State) (m : Addr), s.resident (addrRegs m) → s.addrReady m → s.ownAddr (s.addrOf m 1 &&& ~~~127#64) 128 →
    Gives (releaseM .panel) s () s → u = s.modMe Ctx.nextRegion →
    exec (.fset m) s = .next (((u.homeSetLine (s.ownKey (s.addrOf m 1 &&& ~~~127#64)) true
      (some (actorRel (u.actor u.curCore u.curCtx) u.myPanel .panel))).modMe Ctx.nextRegion).past 12)) ∧
  (∀ (s : State) (k : Nat) (full : Bool) (r : Option Rel), (s.core (coreOfKey k)).waiters = [] →
    (s.homeSetLine k full r).store.isEmpty k = !full ∧ SameBytes s (s.homeSetLine k full r) ∧ (s.homeSetLine k full r).cores = s.cores)

/-- R337, R412, R403: atomics give the old value and write the new one at the effective address; a plain one of the own scratchpad
completes at once, and every other byte keeps its value. `stn` replaces bits of one byte. -/
def Obligations.Atomics : Prop :=
  (∀ (s u v w z : State) (op : AmoOp) (o : Ord) (sc : Scope) (d a b : SReg) (disp : BitVec 40) (r : Option Rel) (g : Tgt) (x : Word)
      (xs : List (Nat × Word)) (rels : List Rel), s.resident [(10, d), (17, a), (24, b)] → s.ready a → s.ready b → s.ready d →
    Gives (beginAtomic o sc) s r u →
    (Gives (resolveM (s.me.s a + disp.signExtend 64) 4 .atomic (d = 0 && o = .plain)) u (some g) v → aliasOf g = false →
      loggedPage (u.myGroup.sideOf u.curCtx) (s.me.s a + disp.signExtend 64).toNat = false →
      Gives (atomics op 4 (acqScope o sc) r [atomLane 0 g (s.me.s b) (s.me.s d)]) v (some ((0, x) :: xs), rels) w →
      Gives (endAtomic o sc rels) (w.wroteS d x) () z → exec (.amo32 op o sc d a disp b) s = .next (z.past 12)) ∧
    (Gives (resolveM (s.me.s a + disp.signExtend 64) 8 .atomic (d = 0 && o = .plain)) u (some g) v → aliasOf g = false →
      loggedPage (u.myGroup.sideOf u.curCtx) (s.me.s a + disp.signExtend 64).toNat = false →
      Gives (atomics op 8 (acqScope o sc) r [atomLane 0 g (s.me.s b) (s.me.s d)]) v (some ((0, x) :: xs), rels) w →
      Gives (endAtomic o sc rels) (w.wroteS d x) () z → exec (.amo64 op o sc d a disp b) s = .next (z.past 12))) ∧
  (∀ (s : State) (op : AmoOp) (sc : Scope) (d a b : SReg) (disp : BitVec 40) (va : Word) (n x : Nat) (i : Instr),
    s.resident [(10, d), (17, a), (24, b)] → s.ready a → s.ready b → s.ready d → va = s.me.s a + disp.signExtend 64 →
    (n = 4 ∧ i = .amo32 op .plain sc d a disp b) ∨ (n = 8 ∧ i = .amo64 op .plain sc d a disp b) →
    s.ownAddr va n → s.ownByte va + n ≤ 128 → s.myGroup.sideOf s.curCtx = [] →
    x = s.store.num (s.ownKey va + s.ownByte va) n → s.store.readsPoison (s.ownKey va) (maskOf (s.ownByte va) n) = false →
    (∀ wr, s.store.conflictIn (s.actor s.curCore s.curCtx) wr false (s.ownKey va) (maskOf (s.ownByte va) n) = none) →
    ∃ t, exec i s = .next t ∧ t.me.s d = (if d = 0 then 0 else BitVec.ofNat 64 x) ∧ t.me.pc = s.me.pc + 12 ∧
      ∀ c, t.byteAt c = match amoNew op n x (s.me.s b).toNat (s.me.s d).toNat with
        | some y => if s.ownKey va + s.ownByte va ≤ c ∧ c < s.ownKey va + s.ownByte va + n
            then BitVec.ofNat 8 (y / 256 ^ (c - (s.ownKey va + s.ownByte va))) else s.byteAt c
        | none => s.byteAt c) ∧
  (∀ n x y e, 1 ≤ n → x < 2 ^ (8 * n) → y < 2 ^ (8 * n) →
    amoNew .add n x y e = some ((x + y) % 2 ^ (8 * n)) ∧ amoNew .and n x y e = some (x &&& y) ∧ amoNew .or n x y e = some (x ||| y) ∧
    amoNew .xor n x y e = some (x ^^^ y) ∧ amoNew .maxu n x y e = some (max x y) ∧ amoNew .minu n x y e = some (min x y) ∧
    amoNew .swap n x y e = some y ∧ amoNew .cas n x y e = (if x = e % 2 ^ (8 * n) then some y else none) ∧
    amoNew .max n x y e = some (if (BitVec.ofNat (8 * n) x).sle (BitVec.ofNat (8 * n) y) then y else x) ∧
    amoNew .min n x y e = some (if (BitVec.ofNat (8 * n) x).sle (BitVec.ofNat (8 * n) y) then x else y)) ∧
  (∀ (s u v w z : State) (op : AmoOp) (o : Ord) (sc : Scope) (k : LMask) (d : VReg) (a : SReg) (scale : BitVec 2) (disp : BitVec 40)
      (r : Option Rel) (ls : List AtomLane) (xs : List (Nat × Word)) (rels : List Rel),
    s.resident [(17, a)] → s.ready a → s.vready d → Gives (beginAtomic o sc) s r u → u.myGroup.sideOf u.curCtx = [] →
    (Gives (vamoLanes 4 (s.me.vreg d) ((s.onLanes 32 k).map fun i => (i, s.me.s a + disp.signExtend 64 + BitVec.ofNat 64 (i * 4)))) u ls v →
      Gives (atomics op 4 (acqScope o sc) r ls) v (some xs, rels) w →
      Gives (endAtomic o sc rels) (w.wroteV d (ofLanes 32 32 fun i =>
        ((xs.find? fun p => p.1 == i).map (·.2.toNat)).getD (laneNat (s.me.vreg d) 32 i))) () z →
      exec (.vamo32 op o sc k d a .none scale disp) s = .next (z.past 12)) ∧
    (Gives (vamoLanes 2 (s.me.vreg d) ((s.onLanes 16 k).map fun i => (i, s.me.s a + disp.signExtend 64 + BitVec.ofNat 64 (i * 2)))) u ls v →
      Gives (atomics op 2 (acqScope o sc) r ls) v (some xs, rels) w →
      Gives (endAtomic o sc rels) (w.wroteV d (ofLanes 16 64 fun i =>
        ((xs.find? fun p => p.1 == i).map (·.2.toNat)).getD (laneNat (s.me.vreg d) 16 i))) () z →
      exec (.vamo16 op o sc k d a .none scale disp) s = .next (z.past 12)) ∧
    ∀ b, s.vready b →
    (Gives (vamoLanes 4 (s.me.vreg d) ((s.onLanes 32 k).map fun i => (i, s.me.s a + disp.signExtend 64 +
        BitVec.ofNat 64 (laneNat (s.me.vreg b) 32 i * scaleOf scale 4)))) u ls v →
      Gives (atomics op 4 (acqScope o sc) r ls) v (some xs, rels) w →
      Gives (endAtomic o sc rels) (w.wroteV d (ofLanes 32 32 fun i =>
        ((xs.find? fun p => p.1 == i).map (·.2.toNat)).getD (laneNat (s.me.vreg d) 32 i))) () z →
      exec (.vamo32 op o sc k d a (.v b) scale disp) s = .next (z.past 12)) ∧
    (Gives (vamoLanes 2 (s.me.vreg d) ((s.onLanes 16 k).map fun i => (i, s.me.s a + disp.signExtend 64 +
        BitVec.ofNat 64 (laneNat (s.me.vreg b) 16 i * scaleOf scale 2)))) u ls v →
      Gives (atomics op 2 (acqScope o sc) r ls) v (some xs, rels) w →
      Gives (endAtomic o sc rels) (w.wroteV d (ofLanes 16 64 fun i =>
        ((xs.find? fun p => p.1 == i).map (·.2.toNat)).getD (laneNat (s.me.vreg d) 16 i))) () z →
      exec (.vamo16 op o sc k d a (.v b) scale disp) s = .next (z.past 12))) ∧
  (∀ (s : State) (w : NW) (d a b : SReg) (disp : BitVec 48) (va : Word) (bit : Nat),
    s.resident [(10, d), (17, a), (24, b)] → s.ready a → s.ready b → s.ready d → bit = (s.me.s b).toNat * nwBits w →
    va = s.me.s a + disp.signExtend 64 + BitVec.ofNat 64 (bit / 8) → s.ownAddr va 1 → s.calm → (s.core s.curCore).reserved < 256 →
    s.store.conflictIn (s.actor s.curCore s.curCtx) true false (s.ownKey va) (maskOf (s.ownByte va) 1) = none →
    ∃ t, exec (.stn w d a b disp) s = .next t ∧ t.me.pc = s.me.pc + 12 ∧ ∀ c i, i < 8 →
      (t.byteAt c).getLsbD i = if c = s.ownKey va + s.ownByte va ∧ bit % 8 ≤ i ∧ i < bit % 8 + nwBits w
        then (s.me.s d).getLsbD (i - bit % 8) else (s.byteAt c).getLsbD i)

/-- R148, R391, R346: fences, prefetches and ranged maintenance. -/
def Obligations.FencesAndMaintenance : Prop :=
  (∀ (s : State) (sc : Scope), s.me.unacked = 0 → s.me.maint = [] → s.myGroup.sideOf s.curCtx = [] →
    (scWide sc = false ∨ ∀ p ∈ (s.core s.curCore).l1.list, p.2.dirty = 0) → Gives (releaseM sc) s () s) ∧
  (∀ (s : State) (sc : Scope), s.me.unacked ≠ 0 ∨ s.myGroup.sideOf s.curCtx ≠ [] ∨ s.me.maint ≠ [] →
    exec (.fence .rel sc) s = .next s ∧ exec (.fence .ar sc) s = .next s ∧ exec (.fence .sc sc) s = .next s) ∧
  (∀ (s t : State) (sc : Scope), t = s.modMe Ctx.nextRegion → ∀ v, Gives (endAcquire sc t.me.observed) t () v →
    exec (.fence .acq sc) s = .next (v.past 8)) ∧
  (∀ (s t : State) (sc : Scope), Gives (releaseM sc) s () t → ∀ u, u = (t.modMe fun c =>
      { c with fenceRel := fenceMark c.fenceRel (actorRel (t.actor t.curCore t.curCtx) t.myPanel sc) }).modMe Ctx.nextRegion →
    exec (.fence .rel sc) s = .next (u.past 8) ∧
    ∀ v, Gives (endAcquire sc u.me.observed) u () v →
      exec (.fence .ar sc) s = .next (v.past 8) ∧ exec (.fence .sc sc) s = .next (v.past 8)) ∧
  (∀ (s : State) (sc : Scope) (rs : List Rel), scWide sc = false → Gives (endAcquire sc rs) s ()
    (s.modMe fun c => rs.foldl (fun c r => c.acquireRel s.myPanel s.curCore sc r) c)) ∧
  (∀ (s : State) (m : Addr), s.resident (addrRegs m) → s.addrReady m →
    ∃ t, exec (.pref m) s = .next (t.past 12) ∧ t.me = s.me ∧ SameBytes s t) ∧
  (∀ (s : State) (a b : SReg) (disp : BitVec 48), s.resident [(17, a), (24, b)] → s.ready a → s.ready b →
    ∃ t, exec (.prefRange a disp b) s = .next (t.past 12) ∧ t.me = s.me ∧ SameBytes s t) ∧
  (∀ (s : State) (sc : Scope) (d a b : SReg) (disp : BitVec 48), s.resident [(10, d), (17, a), (24, b)] → s.ready a → s.ready b →
    (s.me.s b = 0 → exec (.cwbr sc d a disp b) s = .next ((s.wroteLate d 0).past 12) ∧
      exec (.cinvr sc d a disp b) s = .next ((s.wroteLate d 0).past 12)) ∧
    (2 ^ 24 < (s.me.s b).toNat → exec (.cwbr sc d a disp b) s = .next (s.trapped 4 (s.me.s b)) ∧
      exec (.cinvr sc d a disp b) s = .next (s.trapped 4 (s.me.s b))) ∧
    (0 < (s.me.s b).toNat → (s.me.s b).toNat ≤ 2 ^ 24 → s.me.access = none → ∀ ea act keys wide, ea = s.me.s a + disp.signExtend 64 →
      act = s.actor s.curCore s.curCtx → s.resolve act ea 1 .load ≠ .error (.trap 4) →
      s.resolve act (ea + s.me.s b - 1) 1 .load ≠ .error (.trap 4) →
      keys = (rangeLines ea (s.me.s b).toNat).filterMap (s.maintKey act) →
      wide = keys.filter (fun k => scWide sc && (k < vaultBase || isProxyKey k)) →
      (sc = .pod → ∀ k ∈ wide, isProxyKey k = false ∧ s.store.sharedOut k (BitVec.allOnes 128) = false) →
      ∀ inv p, p = maintAll (fun u k => u.maintSlice (some act) inv k) ((wide.map fun k => k / 256 * 256).eraseDups)
          (maintAll (fun u k => u.maintL1 act inv k) keys (s, 0)) →
        exec (if inv then .cinvr sc d a disp b else .cwbr sc d a disp b) s =
          .next (((p.1.wroteLate d (BitVec.ofNat 64 p.2)).modMe fun c =>
            { c with maint := if d = 0 then c.maint else c.skey d :: c.maint, maintCount := 0 }).past 12)))

/-! ## Ports, helpers, tasks -/

/-- R57 to R60, R387, R388: ports are bound from descriptors of 32 bytes, freed, read, closed and marked. -/
def Obligations.Ports : Prop :=
  (∀ (s u : State) (d : SReg) (q : QReg) (a : SReg) (x r : Nat) (g : Group), s.resident [(10, d), (17, a)] → s.ready a →
    Gives (readBlock (s.me.s a) 32 8) s x u → u.myGroup.bind u.curCtx q x false = (r, g) →
    exec (.pbind d q a) s = .next (((if r = 1 then (u.modGroup u.curCore fun _ => g).reachPort u.curCore ((g.ctx u.curCtx).port q)
      else u).wroteS d (BitVec.ofNat 64 r)).past 8)) ∧
  (∀ (g : Group) (ctx : Nat) (q : QReg) (d : Nat) (fixed : Bool),
    (((g.ctx ctx).port q).kind ≠ 0 → g.bind ctx q d fixed = (3, g)) ∧
    (((g.ctx ctx).port q).kind = 0 → portOf g ctx d = none → g.bind ctx q d fixed = (2, g)) ∧
    (∀ p, ((g.ctx ctx).port q).kind = 0 → portOf g ctx d = some p → g.endBusy p = true → g.bind ctx q d fixed = (0, g)) ∧
    ∀ p, ((g.ctx ctx).port q).kind = 0 → portOf g ctx d = some p → g.endBusy p = false →
      (g.bind ctx q d fixed).1 = 1 ∧ (((g.bind ctx q d fixed).2).ctx ctx).port q = { p with fixed }) ∧
  (∀ (s : State) (q : QReg),
    ((s.me.port q).kind = 0 → exec (.pfree q) s = .next (s.past 8)) ∧
    ((s.me.port q).kind = 6 → s.myGroup.fifoInUse (s.me.port q).idx = true → exec (.pfree q) s = .next s) ∧
    ((s.me.port q).kind ≠ 0 → ((s.me.port q).kind = 6 → s.myGroup.fifoInUse (s.me.port q).idx = false) →
      exec (.pfree q) s = .next ((s.unbindPort s.curCore s.curCtx q).past 8)) ∧
    ((s.unbindPort s.curCore s.curCtx q).ctx s.curCore s.curCtx).port q = {}) ∧
  (∀ (s : State) (d : SReg) (q : QReg), s.resident [(10, d)] →
    exec (.pstat d q) s = .next ((s.wroteS d (portWord s.myGroup (s.me.port q))).past 8)) ∧
  (∀ (s : State) (q : QReg) (p : Port), p = s.me.port q →
    (p.kind = 0 → exec (.pclose q) s = .next (s.trapped 0x0E (BitVec.ofNat 64 (16 + q.toNat))) ∧
      ∀ k, exec (.pmark q k) s = .next (s.trapped 0x0E (BitVec.ofNat 64 (16 + q.toNat)))) ∧
    (p.kind ≠ 0 → (p.kind = 6 ∨ p.write = false) → exec (.pclose q) s = .next (s.trapped 0x0E (BitVec.ofNat 64 (80 + q.toNat)))) ∧
    (p.kind ≠ 0 → (p.kind = 6 ∨ p.write = false ∨ p.kind = 2) → ∀ k,
      exec (.pmark q k) s = .next (s.trapped 0x0E (BitVec.ofNat 64 (80 + q.toNat)))) ∧
    (p.kind = 2 → p.write = true → exec (.pclose q) s = .next ((s.modMe fun c => c.setPort q { p with count := p.pos }).past 8)) ∧
    (∀ t, p.kind ≠ 0 → p.kind ≠ 2 → p.kind ≠ 6 → p.write = true → Gives (pushElem q p .finish) s () t →
      exec (.pclose q) s = .next (t.past 8)) ∧
    ∀ t k, p.kind ≠ 0 → p.kind ≠ 2 → p.kind ≠ 6 → p.write = true → (∀ j, k = some j → s.myGroup.cmask.getLsbD j.toNat = true) →
      Gives (pushElem q p (.drain k)) s () t → exec (.pmark q k) s = .next (t.past 8))

/-- R34, R38, R39, R44, R363, R398, R399, R406: helpers are started in the lowest free slot, spawned, joined and ended. -/
def Obligations.Helpers : Prop :=
  (∀ (s u : State) (d c : SReg) (target : Word) (r : Rel) (args : List Word) (p : State × Nat),
    s.resident ([(10, d)] ++ argRegs 31 c) → s.ready c → s.ready (c + 1) → s.ready (c + 2) → s.ready (c + 3) →
    args = [s.me.s c, s.me.s (c + 1), s.me.s (c + 2), s.me.s (c + 3)] → Gives (beginRelease .pod) s r u →
    p = u.startHelper u.curCore target args r.clock →
    exec (.startFe d c target) s = .next (((p.1.modMe Ctx.nextRegion).wroteS d (BitVec.ofNat 64 p.2)).past 16) ∧
    ∀ b, s.resident ([(10, d), (24, b)] ++ argRegs 31 c) → s.ready b → target = s.me.s b →
      exec (.start d b c) s = .next (((p.1.modMe Ctx.nextRegion).wroteS d (BitVec.ofNat 64 p.2)).past 8)) ∧
  (∀ (s : State) (core slot : Nat) (pc : Word) (args : List Word) (clock : Clock) (tk : Option TaskRec),
    ((s.group core).freeSlot = none → s.startHelper core pc args clock = (s, 0)) ∧
    ((s.group core).freeSlot = some slot → (s.startHelper core pc args clock).2 = slot) ∧
    ((s.startIn core slot pc args clock tk).ctx core slot).status = .ready ∧
    ((s.startIn core slot pc args clock tk).ctx core slot).pc = pc &&& ~~~3#64) ∧
  (∀ (s t : State) (d a c : SReg) (target : Word) (args : List Word),
    s.resident ([(10, d), (17, a)] ++ argRegs 31 c) → s.ready a → s.ready c → s.ready (c + 1) → s.ready (c + 2) → s.ready (c + 3) →
    args = [s.me.s c, s.me.s (c + 1), s.me.s (c + 2), s.me.s (c + 3)] →
    (s.me.spawnReply = some .accepted →
      exec (.spawnFe d a c target) s = .next ((((s.modMe Ctx.nextRegion).modMe Ctx.nextRegion).wroteS d 1).past 16)) ∧
    (s.me.spawnReply = some .refused →
      Gives (inlineChild 16 d target args) ((s.modMe Ctx.nextRegion).modMe Ctx.nextRegion) () t →
      exec (.spawnFe d a c target) s = .next t) ∧
    (s.me.spawnReply = some .deadName → exec (.spawnFe d a c target) s = .next (s.trapped 0x0D (s.me.s a))) ∧
    ∀ b, s.resident ([(10, d), (17, a), (24, b)] ++ argRegs 31 c) → s.ready b → target = s.me.s b →
      (s.me.spawnReply = some .accepted →
        exec (.spawn d a b c) s = .next ((((s.modMe Ctx.nextRegion).modMe Ctx.nextRegion).wroteS d 1).past 8)) ∧
      (s.me.spawnReply = some .refused →
        Gives (inlineChild 8 d target args) ((s.modMe Ctx.nextRegion).modMe Ctx.nextRegion) () t → exec (.spawn d a b c) s = .next t) ∧
      (s.me.spawnReply = some .deadName → exec (.spawn d a b c) s = .next (s.trapped 0x0D (s.me.s a)))) ∧
  (∀ (s : State) (d a : SReg) (i : Nat), s.resident [(10, d), (17, a)] → s.ready a → i = (s.me.s a).toNat →
    (i = 0 ∨ 10 < i ∨ i = s.curCtx → exec (.join d a) s =
      .next ((((s.modMe Ctx.nextRegion).modMe Ctx.nextRegion).wroteS d (BitVec.allOnes 64)).past 8)) ∧
    (i ≠ 0 → i ≤ 10 → i ≠ s.curCtx →
      (s.myGroup.slotFree i = false → exec (.join d a) s = .next s) ∧
      ∀ t, s.myGroup.slotFree i = true → Gives (endAcquire .core (s.myGroup.ctx i).exitRel.toList) (s.modMe Ctx.nextRegion) () t →
        exec (.join d a) s = .next (((t.modMe Ctx.nextRegion).wroteS d (s.myGroup.ctx i).exitVal).past 8))) ∧
  (∀ (s t : State) (a : SReg), s.resident [(17, a)] → s.ready a → s.ready 31 →
    ((s.me.s 31).getLsbD 0 = true → Gives retM s () t → exec (.halt a) s = .next t) ∧
    ((s.me.s 31).getLsbD 0 = false → s.me.task.isSome = true → Gives endTask s () t → exec (.halt a) s = .next t) ∧
    ((s.me.s 31).getLsbD 0 = false → s.me.task = none →
      Gives (endContext (if s.curCtx = 0 then none else some (s.me.s a))) s () t → exec (.halt a) s = .next t)) ∧
  (∀ (s t : State), (s.me.task.isSome = true → Gives endTask s () t → exec .tdone s = .next t) ∧
    (s.me.task = none → s.ready 31 → s.ready 0 → (s.me.s 31).getLsbD 0 = false →
      Gives (endContext (if s.curCtx = 0 then none else some 0)) s () t → exec .tdone s = .next t)) ∧
  (∀ (s t : State) (e : Option Word), Gives (endContext e) s () t → t.me.status = .free ∧ t.me.exitVal = e.getD s.me.exitVal ∧ SameBytes s t)

/-- R41, R42, R46, R47, R291, R40: barriers, follow mode, task records, checkpoints and wake tokens. -/
def Obligations.BarriersTasksWakes : Prop :=
  (∀ (s : State) (a b : SReg) (mask : BitVec 16) (d : Word), s.resident [(17, a), (24, b)] → s.ready a → s.ready b → d = s.me.s a →
    (subgroupOk s.myGroup.rect.toNat d.toNat = false ∨ s.curCore ∉ subgroupCores s.myGroup.rect.toNat d.toNat →
      exec (.bar a b mask) s = .next (s.trapped 7 d)) ∧
    (subgroupOk s.myGroup.rect.toNat d.toNat = true → s.curCore ∈ subgroupCores s.myGroup.rect.toNat d.toNat →
      (s.me.bar = none → s.curCtx ≠ 0 → exec (.bar a b mask) s =
        .next (s.modMe fun c => { c with bar := some (((s.launch s.myGroup.launch).bar d.toNat).epoch, d.toNat) })) ∧
      (s.me.bar = none → s.curCtx = 0 → mask = 0 → Gives (releaseM .panel) s () s →
        (∀ p ∈ (s.core s.curCore).l1.list, p.2.dirty = 0) →
        ∃ t, exec (.bar a b mask) s = .next t ∧ t.me.bar = some (((s.launch s.myGroup.launch).bar d.toNat).epoch, d.toNat) ∧
          ((t.launch s.myGroup.launch).bar d.toNat).arrived.contains s.curCore = true ∧ t.me.pc = s.me.pc) ∧
      ∀ e, s.me.bar = some (e, d.toNat) →
        (((s.launch s.myGroup.launch).bar d.toNat).epoch ≤ e → exec (.bar a b mask) s = .next s) ∧
        ∀ t, e < ((s.launch s.myGroup.launch).bar d.toNat).epoch →
          Gives (endAcquire .panel ((s.launch s.myGroup.launch).bar d.toNat).done)
            ((s.modMe fun c => { c with bar := none }).modMe Ctx.nextRegion) () t →
          exec (.bar a b mask) s = .next ((t.modMe Ctx.nextRegion).past 16))) ∧
  (∀ (s : State) (d : SReg), s.resident [(10, d)] →
    (∀ f, s.me.follow = some f → f.active = true → exec (.follow d) s = .next ((s.wroteS d 1).past 8)) ∧
    (s.me.follow = none → s.canFollow s.curCore s.curCtx = false → exec (.follow d) s = .next ((s.wroteS d 0).past 8)) ∧
    (s.me.follow = none → s.canFollow s.curCore s.curCtx = true → exec (.follow d) s = .next
      (s.modMe fun c => { c with follow := some ⟨leaderOf s.myGroup.rect.toNat s.curCore, false, []⟩ }))) ∧
  (∀ s : State, exec .leave s = .next ((s.modMe fun c => { c with follow := none }).past 8)) ∧
  (∀ (s u : State) (d a : SReg) (vs : List (Nat × Nat)) (x r : Nat), s.resident [(10, d), (17, a)] → s.ready a →
    Gives (loadM 128 none [(0, s.me.s a)]) s vs u → x = oneLane vs → r = taskResult u.myGroup (u.launch u.myGroup.launch) x →
    ∀ rel v (w : Nat → Word), Gives (beginRelease .pod) u rel v → w = (fun i => BitVec.ofNat 64 (field x i 8)) →
      (r ≠ 1 → exec (.task d a) s = .next (((v.modMe Ctx.nextRegion).wroteS d (BitVec.ofNat 64 r)).past 8)) ∧
      (r = 1 → exec (.task d a) s = .next ((((v.modLaunch u.myGroup.launch fun l => { l with tasks := l.tasks ++
        [{ pc := w 0, args := [w 8, w 16, w 24, w 32], actor := v.actor v.curCore v.curCtx,
           ranges := [(w 40, w 48), (w 56, w 64), (w 72, w 80), (w 88, w 96)] }] }).modMe Ctx.nextRegion).wroteS d 1).past 8))) ∧
  (∀ (g : Group) (l : Launch) (x : Nat), (g.helpers = 0 → taskResult g l x = 4) ∧
    (g.helpers ≠ 0 → field x 104 24 ≠ 0 → taskResult g l x = 3)) ∧
  (∀ (s : State) (d : SReg), s.resident [(10, d), (17, 0)] →
    (s.curCtx ≠ 0 ∨ s.me.task.isSome = true → s.ready 0 → exec (.ckpt d 0) s = .next ((s.wroteS d 2).past 8)) ∧
    (s.curCtx = 0 → s.me.task = none → s.ready 0 → s.myGroup.ckpt = none → s.ckptUsed (chipOf s.curCore) + 196608 ≤ 2 ^ 26 →
      s.tables.chipValid (buddyOf (chipOf s.curCore)) = true → (∀ q ∈ s.myGroup.queues.list, q.2.items = []) → s.myGroup.sideLog = [] →
      (s.core s.curCore).mmas = [] →
      ∃ t, exec (.ckpt d 0) s = .next t ∧ t.myGroup.ckpt.isSome = true ∧ t.me.s d = 0 ∧ t.me.pc = s.me.pc + 8 ∧ SameBytes s t)) ∧
  (∀ s : State, (s.me.token = false → exec .park s = .next (s.modMe fun c => { c with status := .waiting .park })) ∧
    ∀ t, s.me.token = true → Gives (endAcquire .pod s.me.tokenRel.toList) (s.modMe Ctx.nextRegion) () t →
      exec .park s = .next (((t.modMe fun c => { c with token := false, tokenRel := none }).modMe Ctx.nextRegion).past 8)) ∧
  (∀ (s u : State) (a b : SReg) (r : Rel), s.resident [(17, a), (24, b)] → s.ready a → s.ready b →
    Gives (routeM (s.me.s a)) s () s → Gives (beginRelease .pod) s r u →
    exec (.wake a b) s = .next (((u.sendTo (namePanel (s.me.s a)) (.wakeArrival
      ⟨⟨u.curCore, u.curCtx, u.myGroup.launch⟩, s.me.s a, ((s.me.s b).extractLsb' 0 4).toNat, u.myGroup.tenant, r, u.myGroup.tgen⟩)).modMe
        Ctx.nextRegion).past 8))

/-! ## Holds, deposits, counters -/

/-- R61, R62, R353, R364: holds of vector registers, and deposits into registers of named groups. -/
def Obligations.HoldsAndDeposits : Prop :=
  (∀ (s : State) (d : VReg), LateReg.v d ∉ s.me.late →
    exec (.hold d) s = .next ((s.modMe fun c => { c with holds := c.holds ||| 1#32 <<< d.toNat }).past 8)) ∧
  (∀ (s : State) (d : VReg), LateReg.v d ∈ s.me.late → exec (.hold d) s = .next s) ∧
  (∀ (s : State) (m : BitVec 32), (∀ r : VReg, m.getLsbD r.toNat = true → LateReg.v r ∉ s.me.late) →
    exec (.holdSet m) s = .next ((s.modMe fun c => { c with holds := c.holds ||| m }).past 8)) ∧
  (∀ (s : State) (d : VReg),
    exec (.hclr d) s = .next ((s.modMe fun c => { c with holds := c.holds &&& ~~~(1#32 <<< d.toNat) }).past 8)) ∧
  (∀ (c : Ctx) (d r : VReg), ({ c with holds := c.holds ||| 1#32 <<< d.toNat } : Ctx).held r = (c.held r || r == d) ∧
    ({ c with holds := c.holds &&& ~~~(1#32 <<< d.toNat) } : Ctx).held r = (c.held r && r != d)) ∧
  (∀ (s u : State) (hi : Bool) (a b : SReg) (r : Rel) (m : Line → Option KReg → Deposit), s.ready a → s.ready b →
    Gives (liveNameM (s.me.s a)) s () s → Gives (routeM (s.me.s a)) s () s → Gives (beginRelease .pod) s r u →
    m = (fun v k => { src := ⟨u.curCore, u.curCtx, u.myGroup.launch⟩, name := s.me.s a, ctx := ((s.me.s b).extractLsb' 0 4).toNat,
                      reg := (s.me.s b).extractLsb' 8 5, val := v, high := hi, kc := k, tenant := u.myGroup.tenant,
                      tgen := u.myGroup.tgen, rel := r }) →
    (∀ c : VReg, s.resident [(17, a), (24, b)] → s.vready c →
      exec (.depv hi a b c) s = .next (((u.sendTo (namePanel (s.me.s a)) (.depositArrival (m (s.me.vreg c) none))).modMe
        Ctx.nextRegion).past 8) ∧
      ∀ k, (∀ j, k = some j → s.myGroup.cmask.getLsbD j.toNat = true) →
        exec (.depvK hi a b c k) s = .next (((u.sendTo (namePanel (s.me.s a)) (.depositArrival (m (s.me.vreg c) k))).modMe
          Ctx.nextRegion).past 16)) ∧
    ∀ c : SReg, s.resident [(17, a), (24, b), (31, c)] → s.ready c →
      exec (.deps hi a b c) s = .next (((u.sendTo (namePanel (s.me.s a)) (.depositArrival (m ((s.me.s c).setWidth 1024) none))).modMe
        Ctx.nextRegion).past 8) ∧
      ∀ k, (∀ j, k = some j → s.myGroup.cmask.getLsbD j.toNat = true) →
        exec (.depsK hi a b c k) s = .next (((u.sendTo (namePanel (s.me.s a)) (.depositArrival (m ((s.me.s c).setWidth 1024) k))).modMe
          Ctx.nextRegion).past 16)) ∧
  (∀ (s : State) (hi : Bool) (a b : SReg) (c : VReg), s.resident [(17, a), (24, b)] → s.ready a → s.ready b → s.vready c →
    namePanel (s.me.s a) = s.myPanel → s.nameOwner (s.me.s a) s.myGroup.tenant = none →
    exec (.depv hi a b c) s = .next (s.trapped 0x0D (s.me.s a)))

/-- R212 to R217, R351, R390, R409: counters of the launch and entries of the crier. A counter outside the mask raises cause 0x07. -/
def Obligations.CountersAndCriers : Prop :=
  (∀ (s : State) (k : KReg) (a : SReg) (imm : BitVec 32), s.resident [(17, a)] → s.ready a → s.myGroup.cmask.getLsbD k.toNat = true →
    (s.myGroup.firings.length < 64 →
      exec (.ctradd k a) s = .next ((s.modGroup s.curCore fun g => g.increment k (s.me.s a) s.me.fenceRel).past 8) ∧
      exec (.ctraddImm k imm) s = .next ((s.modGroup s.curCore fun g => g.increment k (imm.setWidth 64) s.me.fenceRel).past 8)) ∧
    (64 ≤ s.myGroup.firings.length → exec (.ctradd k a) s = .next s ∧ exec (.ctraddImm k imm) s = .next s) ∧
    exec (.ctrset k a) s = .next ((s.modGroup s.curCore fun g => g.setCounter k (s.me.s a)).past 8) ∧
    exec (.ctrsetImm k imm) s = .next ((s.modGroup s.curCore fun g => g.setCounter k (imm.setWidth 64)).past 8) ∧
    (∀ rels t, Gives (endAcquire .pod rels) (s.modMe Ctx.nextRegion) () t →
      (s.me.met = some rels ∨ (s.me.met = none ∧ rels = (s.myGroup.counter k).rels ∧ (s.me.s a).toNat ≤ (s.myGroup.kval k).toNat) →
        exec (.ctrwait k a) s = .next (((t.modMe Ctx.nextRegion).modMe fun c => { c with met := none }).past 8)) ∧
      (s.me.met = some rels ∨ (s.me.met = none ∧ rels = (s.myGroup.counter k).rels ∧ imm.toNat ≤ (s.myGroup.kval k).toNat) →
        exec (.ctrwaitImm k imm) s = .next (((t.modMe Ctx.nextRegion).modMe fun c => { c with met := none }).past 8))) ∧
    (∀ v, v = s.me.s a → s.me.met = none → (s.myGroup.kval k).toNat < v.toNat →
      exec (.ctrwait k a) s = .next (s.modMe fun c => { c with status := .waiting (.counter k v) }))) ∧
  (∀ (s : State) (k : KReg) (a : SReg) (imm : BitVec 32), s.resident [(17, a)] → s.ready a → s.myGroup.cmask.getLsbD k.toNat = false →
    exec (.ctradd k a) s = .next (s.trapped 7 (BitVec.ofNat 64 k.toNat)) ∧
    exec (.ctraddImm k imm) s = .next (s.trapped 7 (BitVec.ofNat 64 k.toNat)) ∧
    exec (.ctrset k a) s = .next (s.trapped 7 (BitVec.ofNat 64 k.toNat)) ∧
    exec (.ctrsetImm k imm) s = .next (s.trapped 7 (BitVec.ofNat 64 k.toNat)) ∧
    exec (.ctrwait k a) s = .next (s.trapped 7 (BitVec.ofNat 64 k.toNat)) ∧
    exec (.ctrwaitImm k imm) s = .next (s.trapped 7 (BitVec.ofNat 64 k.toNat))) ∧
  (∀ (s : State) (sel : BitVec 2) (k : KReg) (d : SReg), s.resident [(10, d)] →
    (sel = 0 → s.myGroup.cmask.getLsbD k.toNat = true →
      exec (.ctrget sel k d) s = .next ((s.wroteS d (s.myGroup.kval k)).past 8)) ∧
    (sel = 1 → exec (.ctrget sel k d) s = .next ((s.wroteS d s.myGroup.cmask).past 8)) ∧
    (sel = 2 → exec (.ctrget sel k d) s = .next ((s.wroteS d s.myGroup.emask).past 8)) ∧
    (sel = 3 → exec (.ctrget sel k d) s = .next ((s.wroteS d s.myGroup.armedMask).past 8))) ∧
  (∀ (g : Group) (k j : KReg) (d v : Word) (r : Option Rel),
    (g.increment k d r).kval j = (if j = k then g.kval k + d else g.kval j) ∧ (g.setCounter k v).kval j = if j = k then v else g.kval j) ∧
  (∀ (s u : State) (rearm any : Bool) (n : BitVec 6) (d a b c : SReg) (k : KReg) (x i : Nat) (p : State × Actor),
    s.resident [(10, d), (17, a), (24, b), (31, c)] → s.ready a → s.ready b → s.ready c → s.myGroup.cmask.getLsbD k.toNat = true →
    (any = false → s.myGroup.emask.getLsbD n.toNat = true) → Gives (readBlock (s.me.s a) 64 64) s x u →
    recordOk x = true → recordCtrs s.myGroup.cmask x = true →
    (any = true → u.myGroup.freeEntry = some i) → (any = false → (u.myGroup.entry n.toNat).armed = false ∧ i = n.toNat) →
    p = u.engineActor u.curCore u.curCtx .fired →
    exec (.post rearm any n d a b c k) s = .next (((p.1.modGroup p.1.curCore fun g => g.arm i
      { armed := true, ctr := k, thr := s.me.s b, stride := s.me.s c, rearm, record := leBytes 64 x, ctx := u.curCtx,
        actor := some p.2 }).wroteS d (BitVec.ofNat 64 i)).past 16)) ∧
  (∀ (s : State) (d : SReg) (n : BitVec 6), s.resident [(10, d)] →
    (s.myGroup.emask.getLsbD n.toNat = false → exec (.unpost d n) s = .next (s.trapped 7 (BitVec.ofNat 64 n.toNat))) ∧
    (s.myGroup.emask.getLsbD n.toNat = true → (s.myGroup.entry n.toNat).armed = true →
      exec (.unpost d n) s = .next (((s.modGroup s.curCore fun g => g.setEntry n.toNat {}).wroteS d 1).past 8)) ∧
    (s.myGroup.emask.getLsbD n.toNat = true → (s.myGroup.entry n.toNat).armed = false →
      exec (.unpost d n) s = .next ((s.wroteS d 0).past 8)))

/-! ## Porter commands -/

/-- R193, R198, R199, R196: every form of `cpy` and `cpyx` reads its operands and enqueues one command; what each field of the
command holds. Operand ports of 0xC4 to 0xC6 are FIFO ports. -/
def Obligations.PorterCommands : Prop :=
  (∀ (s : State) (f : CpyF) (stage : BitVec 3) (fmt swz : BitVec 4) (a b c : SReg) (imm : Word),
    s.resident [(10, f.d), (17, a), (24, b), (31, c)] → s.ready a → s.ready b → s.ready c →
    Enqueues s s (.cpy f stage fmt swz a b c imm) f none fun act =>
      { op := 0xC0, fn := fnOf f stage fmt, kc := f.kc, swz := swz.toNat, a := s.me.s a, b := s.me.s b, c := s.me.s c, e := 0, imm, actor := act }) ∧
  (∀ (s : State) (f : CpyF) (stage : BitVec 3) (swz : BitVec 4) (a b c e : SReg) (imm : Word),
    s.resident [(10, f.d), (17, a), (24, b), (31, c), (38, e)] → s.ready a → s.ready b → s.ready c → s.ready e →
    (Enqueues s s (.cpy2d f stage swz a b c e imm) f none fun act =>
      { op := 0xC1, fn := fnOf f stage 0, kc := f.kc, swz := swz.toNat, a := s.me.s a, b := s.me.s b, c := s.me.s c, e := s.me.s e, imm, actor := act }) ∧
    (Enqueues s s (.cpyMc f stage swz a b c e imm) f none fun act =>
      { op := 0xC3, fn := fnOf f stage 0, kc := f.kc, swz := swz.toNat, a := s.me.s a, b := s.me.s b, c := s.me.s c, e := s.me.s e, imm, actor := act }) ∧
    (∀ u sh, Gives (readBlock (s.me.s e) 32 8) s sh u → Enqueues s u (.cpy3d f stage swz a b c e) f none fun act =>
      { op := 0xC2, fn := fnOf f stage 0, kc := f.kc, swz := swz.toNat, a := s.me.s a, b := s.me.s b, c := s.me.s c, e := s.me.s e, imm := 0, shape := sh, actor := act }) ∧
    (Enqueues s s (.cpyxG f a b c e imm) f none fun act =>
      { op := 0xC8, fn := fnOf f 0 0, kc := f.kc, swz := 0, a := s.me.s a, b := s.me.s b, c := s.me.s c, e := s.me.s e, imm, actor := act }) ∧
    (Enqueues s s (.cpyxS f a b c e imm) f none fun act =>
      { op := 0xC9, fn := fnOf f 0 0, kc := f.kc, swz := 0, a := s.me.s a, b := s.me.s b, c := s.me.s c, e := s.me.s e, imm, actor := act })) ∧
  (∀ (s : State) (f : CpyF) (fmt : Fmt) (q : QReg) (b c e : SReg) (imm : Word),
    s.resident [(10, f.d), (24, b), (31, c), (38, e)] → s.ready b → s.ready c → s.ready e →
    ((s.me.port q).kind = 6 →
      (Enqueues s s (.cpyQ f fmt q b c e) f (some (s.me.port q).idx) fun act =>
        { op := 0xC4, fn := fnOf f 0 fmt.code, kc := f.kc, swz := 0, a := 0, b := s.me.s b, c := s.me.s c, e := s.me.s e, imm := 0, actor := act }) ∧
      (Enqueues s s (.cpyQ2d f fmt q b c e imm) f (some (s.me.port q).idx) fun act =>
        { op := 0xC5, fn := fnOf f 0 fmt.code, kc := f.kc, swz := 0, a := 0, b := s.me.s b, c := s.me.s c, e := s.me.s e, imm, actor := act })) ∧
    ((s.me.port q).kind ≠ 6 → ∀ p cmd, p = s.engineActor s.curCore s.curCtx (.porter f.queue.toNat) →
      cmd = { op := 0xC5, fn := fnOf f 0 fmt.code, kc := f.kc, swz := 0, a := 0, b := s.me.s b, c := s.me.s c, e := s.me.s e, imm,
              actor := p.2, fifo := some 0 } →
      s.cmdCheck cmd = .ok () → exec (.cpyQ2d f fmt q b c e imm) s = .next (s.trapped 0x0E (BitVec.ofNat 64 (16 * 7 + q.toNat))))) ∧
  (∀ (s : State) (f : CpyF) (mid : Bool) (p : BitVec 4) (a : SReg) (q : QReg) (b c : SReg) (imm : Word), s.ready b → s.ready c →
    (s.resident [(17, a), (10, f.d), (24, b), (31, c)] → s.ready a →
      Enqueues s s (.cpyPl f mid p (.s a) b c imm) f none fun act =>
        { op := 0xC6, fn := fnOf f (if mid then 1 else 0) p, kc := f.kc, swz := 0, a := s.me.s a, b := s.me.s b, c := s.me.s c, e := 0, imm, actor := act }) ∧
    (s.resident [(10, f.d), (24, b), (31, c)] → (s.me.port q).kind = 6 →
      Enqueues s s (.cpyPl f mid p (.q q) b c imm) f (some (s.me.port q).idx) fun act =>
        { op := 0xC6, fn := fnOf f (if mid then 1 else 0) p, kc := f.kc, swz := 0, a := 0, b := s.me.s b, c := s.me.s c, e := 0, imm, actor := act })) ∧
  (∀ (s : State) (f : CpyF) (a c : SReg) (imm : Word), s.resident [(10, f.d), (17, a), (31, c)] → s.ready a → s.ready c →
    (Enqueues s s (.cpyFill f a c imm) f none fun act =>
      { op := 0xC7, fn := fnOf f 0 0, kc := f.kc, swz := 0, a := s.me.s a, b := 0, c := s.me.s c, e := 0, imm, actor := act }) ∧
    (2 ^ 24 < (s.me.s c).toNat → exec (.cpyFill f a c imm) s = .next (s.trapped 4 (s.me.s c)))) ∧
  (∀ (s : State) (c : Cmd) (code : Nat) (v : Word), s.cmdCheck c = .error (code, v) → code = 3 ∨ code = 4 ∨ code = 7) ∧
  (∀ (x : Queue) (cs : List Cmd), x.items = cs.map .cmd → x.ticket = x.num + BitVec.ofNat 64 cs.length + 1)

/-- R206 to R208, R210, R345, R392: chains, queue fences, queue waits and queue status. -/
def Obligations.PorterQueues : Prop :=
  (∀ (s : State) (queue : BitVec 2) (a : SReg) (va : Word), s.resident [(17, a)] → s.ready a → va = s.me.s a →
    ∀ p, p = s.engineActor s.curCore s.curCtx (.porter queue.toNat) →
    (s.resolve p.2 va 1 .load = .error (.trap 4) → exec (.chainHead queue a) s = .next (s.trapped 4 va)) ∧
    (s.resolve p.2 va 1 .load ≠ .error (.trap 4) →
      (va.toNat % 64 ≠ 0 → exec (.chainHead queue a) s = .next (s.trapped 3 va)) ∧
      (va.toNat % 64 = 0 → 16 ≤ (s.myGroup.queue queue.toNat).items.length → exec (.chainHead queue a) s = .next s) ∧
      (va.toNat % 64 = 0 → (s.myGroup.queue queue.toNat).items.length < 16 → exec (.chainHead queue a) s =
        .next ((p.1.enqueue s.curCore queue.toNat (.chain { actor := p.2, cur := va } none [])).past 16)))) ∧
  (∀ (s : State) (queue : BitVec 2), ∃ t, exec (.chainApp queue) s = .next (t.past 16) ∧ SameBytes s t ∧
    ((∀ c m n, .chain c m n ∈ (s.myGroup.queue queue.toNat).items → c.paused = false) → t.myGroup.queues = s.myGroup.queues) ∧
    ∀ c m n rest, (s.myGroup.queue queue.toNat).items = .chain c m n :: rest → c.paused = true →
      ∃ c' rest', (t.myGroup.queue queue.toNat).items = .chain c' m n :: rest' ∧ c'.paused = false ∧ c'.cur = c.cur) ∧
  (∀ (s : State) (mask : BitVec 4) (queue : BitVec 2),
    (16 ≤ (s.myGroup.queue queue.toNat).items.length → exec (.qfence mask queue) s = .next s) ∧
    ((s.myGroup.queue queue.toNat).items.length < 16 → exec (.qfence mask queue) s =
      .next ((s.enqueue s.curCore queue.toNat (.fence (fenceNeed s.myGroup queue.toNat mask))).past 8))) ∧
  (∀ (g : Group) (q : Nat) (mask : BitVec 4) (j n : Nat), (j, n) ∈ fenceNeed g q mask ↔
    j < 4 ∧ mask.getLsbD j = true ∧ j ≠ q ∧ n = (g.queue j).enq) ∧
  (∀ (s : State) (queue : BitVec 2) (a : SReg) (imm : BitVec 32) (x : Queue), s.resident [(17, a)] → s.ready a →
    x = s.myGroup.queue queue.toNat →
    (∀ t, (s.me.s a).toNat ≤ x.num.toNat → Gives (endAcquire .core x.rels) (s.modMe Ctx.nextRegion) () t →
      exec (.qwait queue a) s = .next ((t.modMe Ctx.nextRegion).past 8)) ∧
    (x.num.toNat < (s.me.s a).toNat → exec (.qwait queue a) s =
      .next (s.modMe fun c => { c with status := .waiting (.queue queue.toNat (s.me.s a)) })) ∧
    (∀ t, imm.toNat ≤ x.num.toNat → Gives (endAcquire .core x.rels) (s.modMe Ctx.nextRegion) () t →
      exec (.qwaitImm queue imm) s = .next ((t.modMe Ctx.nextRegion).past 8)) ∧
    (x.num.toNat < imm.toNat → exec (.qwaitImm queue imm) s =
      .next (s.modMe fun c => { c with status := .waiting (.queue queue.toNat (imm.setWidth 64)) }))) ∧
  (∀ (s : State) (clr : Bool) (queue : BitVec 2) (d : SReg) (x : Queue), s.resident [(10, d)] → x = s.myGroup.queue queue.toNat →
    exec (.qstat clr false queue d) s = .next ((s.wroteS d x.num).past 8) ∧
    exec (.qstat false true queue d) s = .next ((s.wroteS d x.status).past 8) ∧
    exec (.qstat true true queue d) s = .next (((s.wroteS d x.status).modGroup s.curCore fun g =>
      g.setQueue queue.toNat { x with error := false, code := 0 }).past 8)) ∧
  (∀ (x : Queue) (cs : List Cmd), x.items = cs.map .cmd → cs.length ≤ 16 →
    (x.status.extractLsb' 0 8).toNat = cs.length ∧ x.status.extractLsb' 8 2 = 0 ∧ x.status.getLsbD 16 = x.error ∧
    x.status.extractLsb' 24 8 = x.code)

/-! ## The matrix unit -/

/-- R378, R177, R382, R190, R191: the issue of `mma`, the program slots, the sums of tile rows and columns, zeroing. -/
def Obligations.MatrixInstructions : Prop :=
  Issues 0xD0 0 .mma16Slot0 ∧ Issues 0xD1 0 .mma16Slot1 ∧ Issues 0xD2 1 .mma8fSlot0 ∧ Issues 0xD3 1 .mma8fSlot1 ∧
  Issues 0xD4 2 .mma8iSlot0 ∧ Issues 0xD5 2 .mma8iSlot1 ∧ Issues 0xD6 3 .mma4Slot0 ∧ Issues 0xD7 3 .mma4Slot1 ∧
  (∀ (s : State) (imm : Word), ∀ load : Nat → State,
    load = (fun n => s.modGroup s.curCore fun g => { g with progs := Cells.set [] g.progs n (progOf imm) }) →
    exec (.mupl1 imm) s = .next ((load 1).past 16) ∧ exec (.mupl2 imm) s = .next ((load 2).past 16) ∧
    exec (.mupl3 imm) s = .next ((load 3).past 16)) ∧
  (∀ (s u t : State) (ty : ElemTy) (swz : BitVec 2) (part row : Bool) (m : VMask) (d : VReg) (a : SReg) (n e : Nat → Nat → Nat)
      (vs : List (Nat × Nat)), s.resident [(17, a)] → s.ready a → s.tileAt (s.me.s a) → s.me.held d = false →
    n = (fun i _ => (if part then 32 else 0) + i) → e = (fun _ k => k) →
    Gives (loadM 4 none (((List.range 32).filter (laneOn (s.me.mask m.m) m.n)).flatMap fun i => (List.range 64).map fun k =>
      (64 * i + k, s.me.s a + BitVec.ofNat 64
        (if row then elemOff swz.toNat (n i k) (e i k) else elemOff swz.toNat (e i k) (n i k))))) s vs u →
    LanesTo u 32 32 m (.v d) wrVQ (fun i => tileSum ty ((vs.filter fun p => p.1 / 64 == i).map (·.2))) t →
    exec (if row then .mchkRow ty swz part m d a else .mchkCol ty swz part m d a) s = .next (t.past 8)) ∧
  (∀ (s u : State) (a : SReg) (tile : Nat), s.resident [(17, a)] → s.ready a → s.tileAt (s.me.s a) →
    tile = (s.me.s a).toNat % 2 ^ 22 →
    Gives (checkM true true (s.tileParts s.curCore tile 0 (BitVec.allOnes 64) (BitVec.allOnes 64))) s () u →
    exec (.mzero a) s = .next (((u.zeroTile u.curCore tile u.me.fenceRel).modCore (u.zeroTile u.curCore tile u.me.fenceRel).curCore
      fun c => { c with keeps := c.keeps.filter fun k => k.2.launch != c.group.launch || k.2.tile != tile }).past 8)) ∧
  (∀ (s : State) (va : Word), (s.tileAt va → Gives (tileM va) s (va.toNat % 2 ^ 22) s) ∧
    (∀ a, s.resident [(17, a)] → s.ready a → s.me.s a = va →
      (windowOf va ≠ 8 → exec (.mzero a) s = .next (s.trapped 4 va)) ∧
      (windowOf va = 8 → va.toNat / 2 ^ 22 % 2 ^ 38 = 0 → va.toNat % 2 ^ 22 + 16384 ≤ s.myGroup.part * 2 ^ 18 → va.toNat % 256 ≠ 0 →
        exec (.mzero a) s = .next (s.trapped 3 va)))) ∧
  (∀ s : State, exec .mzeroSlot0 s = .next ((s.modCore s.curCore fun c => { c with keeps := c.keeps.filter fun k => k.1 != 0 }).past 8) ∧
    exec .mzeroSlot1 s = .next ((s.modCore s.curCore fun c => { c with keeps := c.keeps.filter fun k => k.1 != 1 }).past 8))

/-! ## Special registers, traps and services -/

/-- R68, R376, R377: which level may read or write a special register, what a read gives, what a write stores. -/
def Obligations.SpecialRegisters : Prop :=
  (∀ (s : State) (d : SReg) (n : BitVec 12), s.resident [(10, d)] →
    ((srLevel n.toNat).toNat ≤ s.me.priv.toNat → exec (.mfsr d n) s = .next ((s.wroteS d (s.readSr n.toNat)).past 8)) ∧
    (s.me.priv.toNat < (srLevel n.toNat).toNat → exec (.mfsr d n) s = .next (s.trapped 2 0)) ∧
    ∀ a, s.resident [(10, d), (17, a)] → s.ready a →
      (s.me.s a = n.setWidth 64 → srDefined n.toNat = true → (srLevel n.toNat).toNat ≤ s.me.priv.toNat →
        exec (.mfsrReg d a) s = .next ((s.wroteS d (s.readSr n.toNat)).past 8)) ∧
      (4096 ≤ (s.me.s a).toNat ∨ srDefined (s.me.s a).toNat = false →
        exec (.mfsrReg d a) s = .next (s.trapped 1 (illegalRecord ⟨3, 17, 0xE1⟩)))) ∧
  (∀ (s : State) (a : SReg) (n : BitVec 12), s.resident [(17, a)] → s.ready a →
    (s.me.priv.toNat < (srLevel n.toNat).toNat → exec (.mtsr n a) s = .next (s.trapped 2 0)) ∧
    ((srLevel n.toNat).toNat ≤ s.me.priv.toNat → ∀ t, Gives (writeSr n.toNat (s.me.s a)) s () t →
      exec (.mtsr n a) s = .next (t.past 8) ∧
      ∀ b, s.resident [(17, a), (24, b)] → s.ready b → s.me.s b = n.setWidth 64 → srDefined n.toNat = true →
        exec (.mtsrReg b a) s = .next (t.past 8)) ∧
    ∀ b, s.resident [(17, a), (24, b)] → s.ready b → 4096 ≤ (s.me.s b).toNat ∨ srDefined (s.me.s b).toNat = false →
      exec (.mtsrReg b a) s = .next (s.trapped 1 (illegalRecord ⟨3, 24, 0xE3⟩))) ∧
  (∀ n : BitVec 12, (srDefined n.toNat = true ↔ (1 ≤ n.toNat ∧ n.toNat < 0x18) ∨ (0x20 ≤ n.toNat ∧ n.toNat < 0x30) ∨ n.toNat = 0x40) ∧
    (srLevel n.toNat = 2 ↔ n.toNat = 0x40) ∧ (srLevel n.toNat = 1 ↔ 0x10 ≤ n.toNat ∧ n.toNat < 0x18)) ∧
  (∀ (s : State), s.readSr 0x001 = BitVec.ofNat 64 s.curCore ∧ s.readSr 0x003 = s.myGroup.rect ∧
    s.readSr 0x004 = BitVec.ofNat 64 s.curCtx ∧ s.readSr 0x005 = s.myGroup.gname ∧ s.readSr 0x007 = BitVec.ofNat 64 s.myPanel ∧
    s.readSr 0x008 = (s.core s.curCore).cycle ∧ s.readSr 0x00A = s.me.rng.setWidth 64 ∧ s.readSr 0x00F = s.me.priv.setWidth 64 ∧
    s.readSr 0x010 = s.me.cause ∧ s.readSr 0x011 = s.me.epc ∧ s.readSr 0x012 = s.me.tval ∧ s.readSr 0x013 = s.myGroup.trapvec ∧
    (∀ i, i < 4 → s.readSr (0x014 + i) = Cells.get 0 s.me.tscr i) ∧ ∀ i, i < 16 → s.readSr (0x020 + i) = Cells.get 0 s.me.ev i) ∧
  (∀ (s : State) (v : Word),
    Gives (writeSr 0x00A v) s () (s.modMe fun c => { c with rng := if v.setWidth 32 = (0 : BitVec 32) then 1 else v.setWidth 32 }) ∧
    Gives (writeSr 0x010 v) s () (s.modMe fun c => { c with cause := causeWrite c.cause v }) ∧
    Gives (writeSr 0x011 v) s () (s.modMe fun c => { c with epc := v }) ∧
    Gives (writeSr 0x012 v) s () (s.modMe fun c => { c with tval := v }) ∧
    Gives (writeSr 0x013 v) s () (s.modGroup s.curCore fun g => { g with trapvec := v &&& ~~~1023#64 }) ∧
    (∀ i, i < 4 → Gives (writeSr (0x014 + i) v) s () (s.modMe fun c => { c with tscr := Cells.set 0 c.tscr i v })) ∧
    (∀ i, i < 16 → s.me.priv ≠ 0 → Gives (writeSr (0x020 + i) v) s () (s.modMe fun c => { c with ev := Cells.set 0 c.ev i v })) ∧
    ∀ n, n ∈ [0x001, 0x002, 0x003, 0x004, 0x005, 0x006, 0x007, 0x008, 0x009, 0x00B, 0x00C, 0x00D, 0x00E, 0x00F, 0x040] →
      Gives (writeSr n v) s () s) ∧
  (∀ old v : Word, (causeWrite old v).extractLsb' 0 9 = v.extractLsb' 0 9 ∧ (causeWrite old v).getLsbD 15 = v.getLsbD 15 ∧
    (causeWrite old v).extractLsb' 9 2 = (if 2 ≤ (v.extractLsb' 9 2).toNat then old.extractLsb' 9 2 else v.extractLsb' 9 2) ∧
    (causeWrite old v).extractLsb' 16 48 = 0)

/-- R271 to R275, R53, R356, R357, R280, R279, R296: software traps, return from a trap, window spills and fills, services, TLB
instructions and the injector; below its level each raises cause 0x02. -/
def Obligations.TrapsAndServices : Prop :=
  (∀ (s : State) (a : SReg) (imm : BitVec 32) (w : Word), s.resident [(17, a)] → s.ready a →
    ∀ enter : Nat → Word → State, enter = (fun code v => s.enterTrap s.curCore s.curCtx code v (s.me.pc + 8) false false) →
    exec (.trap false imm) s = .next (enter 0x13 (imm.setWidth 64)) ∧ exec (.trap true imm) s = .next (enter 0x16 (imm.setWidth 64)) ∧
    exec (.trapReg false a) s = .next (enter 0x13 (s.me.s a)) ∧ exec (.trapReg true a) s = .next (enter 0x16 (s.me.s a)) ∧
    (s.me.busy = false → s.myGroup.trapvec ≠ 0 → ∀ code, code = 0x13 ∨ code = 0x16 → enter code w = s.modMe fun c =>
      { c with cause := causeWord false c.priv false code, epc := s.me.pc + 8, tval := w, priv := 1,
               pc := s.myGroup.trapvec + BitVec.ofNat 64 (32 * code), status := .ready, follow := none, access := none,
               spawnReply := none, met := none, sawMiss := false, sawMark := false, walkFault := none })) ∧
  (∀ s : State, (s.me.priv = 0 → exec .rett s = .next (s.trapped 2 0)) ∧
    (s.me.priv ≠ 0 → exec .rett s = .next (s.modMe fun c => { c with
      pc := c.epc &&& ~~~3#64, priv := c.cause.extractLsb' 9 2, cause := c.cause &&& ~~~(1#64 <<< 15) }))) ∧
  (∀ s : State,
    (s.me.priv = 0 → exec .wspill s = .next (s.trapped 2 0) ∧ exec .wfill s = .next (s.trapped 2 0)) ∧
    (s.me.priv ≠ 0 → s.me.wb < s.me.lo → exec .wspill s = .next (s.trapped 1 (illegalRecord ⟨4, 0, 0x3B⟩))) ∧
    (s.me.priv ≠ 0 → s.me.lo < 16 → exec .wfill s = .next (s.trapped 1 (illegalRecord ⟨4, 0, 0x3C⟩))) ∧
    (∀ u, s.me.priv ≠ 0 → s.me.lo ≤ s.me.wb → (∀ i, i < 16 → LateReg.s (8 + s.me.lo + i) ∉ s.me.late) →
      Gives (storeM 128 7 none [(0, spillHome s.me.lo, spillLine s.me s.me.lo)]) s () u →
      exec .wspill s = .next ((u.modMe fun c => zeroStack { c with lo := c.lo + 16 } (c.lo + s.myGroup.r) 16).past 8)) ∧
    (∀ vs u, s.me.priv ≠ 0 → 16 ≤ s.me.lo → Gives (loadM 128 none [(0, spillHome (s.me.lo - 16))]) s vs u →
      exec .wfill s = .next ((u.modMe fun c => unspill { c with lo := c.lo - 16 } (c.lo - 16) ((vs.map (·.2)).getD 0 0)).past 8))) ∧
  (∀ (s : State) (d a : SReg) (imm : BitVec 32), s.resident [(10, d), (17, a)] →
    (imm.toNat < 0x40 → exec (.ecall d a imm) s =
      .next (s.enterTrap s.curCore s.curCtx 0x13 (BitVec.ofNat 64 (2 ^ 32 + imm.toNat)) (s.me.pc + 8) false false)) ∧
    (0x47 ≤ imm.toNat → exec (.ecall d a imm) s = .next ((s.wroteS d (BitVec.allOnes 64)).past 8)) ∧
    (imm = 0x44 ∨ imm = 0x45 → s.me.priv = 0 → exec (.ecall d a imm) s = .next (s.trapped 2 0)) ∧
    (0x40 ≤ imm.toNat → imm.toNat < 0x47 → (imm = 0x44 ∨ imm = 0x45 → s.me.priv ≠ 0) → s.ready a →
      (s.me.access = none → ∃ t id, exec (.ecall d a imm) s = .next t ∧ t.me.pc = s.me.pc ∧
        t.me.access = some { pc := s.me.pc, id, need := 1 } ∧
        t.agenda = s.agenda ++ [serviceEvent imm.toNat ⟨s.curCore, s.curCtx, s.myGroup.launch⟩ d (s.me.s a)]) ∧
      ∀ x v rels, s.me.access = some x → x.pc = s.me.pc → x.need = 0 → x.ans = some (.old [(0, v)] rels) →
        exec (.ecall d a imm) s = .next ((s.wroteS d v).past 8)) ∧
    ∀ b, s.resident [(10, d), (17, a), (24, b)] → s.ready b → (s.me.s b).setWidth 32 = imm →
      exec (.ecallReg d a b) s = exec (.ecall d a imm) s) ∧
  (∀ (s : State) (a b c : SReg), s.resident [(17, a), (24, b), (31, c)] → s.ready a → s.ready b → s.ready c →
    (s.me.priv ≠ 2 → s.me.priv ≠ 3 → exec (.tlbw a b) s = .next (s.trapped 2 0) ∧ exec (.tlbwRm a b c) s = .next (s.trapped 2 0) ∧
      exec (.tlbiTn a) s = .next (s.trapped 2 0)) ∧
    (2 ≤ s.me.priv.toNat → ∀ k : Nat, k = (s.me.s c).toNat % 2048 →
      (entryOk (s.me.s a) (s.me.s b) = true → exec (.tlbw a b) s = .next ((s.modCore s.curCore fun x =>
        { x with tlb := tlbInsert x.tlb (s.me.s a) (s.me.s b) }).past 8)) ∧
      (entryOk (s.me.s a) (s.me.s b) = true → chipOf k = chipOf s.curCore → exec (.tlbwRm a b c) s = .next ((s.modCore k fun x =>
        { x with tlb := tlbInsert x.tlb (s.me.s a) (s.me.s b) }).past 8)) ∧
      (entryOk (s.me.s a) (s.me.s b) = false → exec (.tlbw a b) s =
        .next ((s.chipError (s.tables.pchipOf (chipOf s.curCore)) .tlb).past 8)) ∧
      (chipOf k ≠ chipOf s.curCore → exec (.tlbwRm a b c) s =
        .next ((s.chipError (s.tables.pchipOf (chipOf s.curCore)) .tlb).past 8)))) ∧
  (∀ (s u : State) (r : Rel) (a : SReg), s.resident [(17, a)] → s.ready a → Gives (beginRelease .panel) s r u →
    (s.me.priv ≠ 0 → u.walksFor s.myGroup.tenant none = false →
      exec .tlbiAll s = .next (((u.dropTlb s.myGroup.tenant none).modMe Ctx.nextRegion).past 8)) ∧
    (s.me.priv ≠ 0 → u.walksFor s.myGroup.tenant none = true → exec .tlbiAll s = .next s) ∧
    (s.me.priv ≠ 0 → u.walksFor s.myGroup.tenant (some ((s.me.s a).toNat % 2 ^ 52)) = false → exec (.tlbiVa a) s =
      .next (((u.dropTlb s.myGroup.tenant (some ((s.me.s a).toNat % 2 ^ 52))).modMe Ctx.nextRegion).past 8)) ∧
    (2 ≤ s.me.priv.toNat → u.walksFor ((s.me.s a).toNat % 2 ^ 16) none = false → exec (.tlbiTn a) s =
      .next (((u.dropTlb ((s.me.s a).toNat % 2 ^ 16) none).modMe Ctx.nextRegion).past 8)) ∧
    (s.me.priv = 0 → exec .tlbiAll s = .next (s.trapped 2 0) ∧ exec (.tlbiVa a) s = .next (s.trapped 2 0))) ∧
  (∀ (s : State) (tenant : Nat) (va : Option Nat) (k : Nat),
    (((s.dropTlb tenant va).core k).tlb) = (s.core k).tlb.filter fun e => !s.tagOf tenant va e.1) ∧
  (∀ (s : State) (d a b : SReg), s.resident [(10, d), (17, a), (24, b)] → s.ready a → s.ready b →
    (s.me.priv.toNat < 2 → exec (.injArm d a b) s = .next (s.trapped 2 0) ∧ exec (.injOff d) s = .next (s.trapped 2 0)) ∧
    (2 ≤ s.me.priv.toNat →
      (armOk (s.me.s a) (s.me.s b) = true → exec (.injArm d a b) s =
        .next ((({ s with inj := { s.inj with arm := some ((s.me.s b).toNat % 4, (s.me.s b).toNat / 4 % 4, s.me.s a) } } : State).wroteS d
          (if s.inj.arm.isSome then 1 else 0)).past 8)) ∧
      (armOk (s.me.s a) (s.me.s b) = false → exec (.injArm d a b) s = .next ((s.wroteS d 2).past 8)) ∧
      exec (.injOff d) s = .next ((({ s with inj := { s.inj with arm := none } } : State).wroteS d
        (if s.inj.arm.isSome then 1 else 0)).past 8)))

/-! ## Device events -/

/-- R179, R180, R183, R194, R200, R206, R209, R213, R217, R218: the matrix unit, porters, chains, counters and criers. What a
retiring `mma` leaves, what a claim does to a line, and what an increment adds. -/
def Obligations.UnitEvents : Prop :=
  (∀ core ctx, core < 2048 → ctx < 11 → Happens .mmaClaimLine (.mmaClaimLine core ctx) fun s => s.claimLine core ctx) ∧
  (∀ core, core < 2048 → Happens .mmaStart (.mmaStart core) (fun s => s.startMma core) ∧
    Happens .mmaRetire (.mmaRetire core) (fun s => s.retireMma core) ∧
    Happens .crierFire (.crierFire core) fun s => s.dispatchFiring core) ∧
  (∀ core q, core < 2048 → q < 4 →
    Happens .porterCommandStart (.porterCommandStart core q) (fun s => (s.porterStart core q).1) ∧
    Happens .porterCommandComplete (.porterCommandComplete core q)
      (fun s => if (s.group core).mayComplete q then s.porterComplete core q else s) ∧
    Happens .chainRecordRead (.chainRecordRead core q) fun s => (s.chainRun core q).1) ∧
  (∀ core, Happens .firedPorterCommand (.firedPorterCommand core) (fun s => s.runKind 1 core) ∧
    Happens .firedRemoteAtomic (.firedRemoteAtomic core) (fun s => s.runKind 2 core) ∧
    Happens .firedCounterAdd (.firedCounterAdd core) (fun s => s.runKind 3 core) ∧
    Happens .firedDeposit (.firedDeposit core) (fun s => s.runKind 4 core) ∧
    Happens .firedStart (.firedStart core) (fun s => s.runKind 5 core) ∧
    Happens .firedSpawn (.firedSpawn core) (fun s => s.runKind 6 core) ∧
    Happens .firedChannelSend (.firedChannelSend core) fun s => s.runKind 7 core) ∧
  (∀ i, Happens .counterIncrement (.counterIncrement i) fun s => s.arriveIncrement i) ∧
  (∀ (s : State) (core : Nat) (m : Mma) (a b : Operand), (s.core core).mmaRunning = some m → m.operands = some (a, b) →
    match checkSums m.f ((m.op.toNat - 0xD0) / 2) a b (bitsOn m.rows) (bitsOn m.cols) (s.cellError core) (s.pathError core) with
    | .fail record => s.retireMma core =
        ((if s.cellsHit core then s.ticked else s).modCore core fun c => c.emptyKeep (m.op.toNat % 2)).mmaTrap core m 0x10 record false
    | _ => ((s.retireMma core).ctx core m.ctx).status = .ready ∧ ((s.retireMma core).ctx core m.ctx).pc = m.pc + 16) ∧
  (∀ (s : State) (core : Nat) (m : Mma), (s.core core).mmas.find? (fun x => x.ctx == m.ctx) = some m → s.canClaim core m = true →
    m.claimed < 127 → (s.claimMarks core m).2 = none → (s.core (coreOfKey (s.tileKey core m.tile m.claimed))).waiters = [] →
    (s.claimLine core m.ctx).store.isEmpty (s.tileKey core m.tile m.claimed) = true ∧ SameBytes s (s.claimLine core m.ctx)) ∧
  (∀ (s : State) (core : Nat) (m : Mma), s.store.isEmpty (s.tileKey core m.tile m.claimed) = true → s.canClaim core m = false) ∧
  (∀ (s : State) (i : CtrInc), i.ack = none → (s.group i.core).launch ≠ 0 → i.launch = 0 ∨ i.launch = (s.group i.core).launch →
    i.tenant = 0 ∨ s.stale ((i.rel.map fun (r : Rel) => r.panel).getD s.myPanel) i.tenant i.tgen = false →
    ((s.group i.core).cmask.getLsbD i.ctr.toNat = true →
      (∀ k, ((s.arriveIncrement i).group i.core).kval k = if k = i.ctr then (s.group i.core).kval k + i.delta else (s.group i.core).kval k) ∧
      (∀ k, k ≠ i.core → (s.arriveIncrement i).core k = s.core k) ∧ SameBytes s (s.arriveIncrement i)) ∧
    ((s.group i.core).cmask.getLsbD i.ctr.toNat = false → s.arriveIncrement i = s))

/-- R34, R36, R41, R43 to R47, R91, R272, R284 to R288, R35: contexts, groups, tasks, page walks, late results. -/
def Obligations.ContextEvents : Prop :=
  (∀ core ctx, core < 2048 → ctx < 11 →
    Happens .trapReport (.trapReport core ctx) (fun s => match (s.ctx core ctx).nextReport with
      | some r => if s.canReport core ctx then s.takeReport core ctx r
          else if (s.ctx core ctx).reports? && s.canCancel core ctx then s.cancelAccess core ctx else s
      | none => s) ∧
    Happens .contextReady (.contextReady core ctx) (fun s =>
      if (s.group core).waitOver (s.ctx core ctx) then
        s.modCtx core ctx fun c => { c with status := .ready, eligible := (s.core core).cycle.toNat + 1 }
      else s) ∧
    Happens .followLagLimit (.followLagLimit core ctx) fun s => s.modCtx core ctx fun c => { c with follow :=
      match c.follow with
      | some f => if 32 ≤ f.trail.length then none else some f
      | none => none }) ∧
  (∀ core ctx, Happens .illegalInstructionFetch (.illegalInstructionFetch core ctx)
    (fun s => ({ s with curCore := core, curCtx := ctx } : State).turn 0 fetchFaultM) ∧
    ∀ r, Happens .resultAvailable (.resultAvailable core ctx r) fun s =>
      s.modCtx core ctx fun c => { c with late := c.late.filter (· != r), maint := match r with
        | .s k => c.maint.erase k
        | .v _ => c.maint }) ∧
  (∀ core, core < 2048 → Happens .groupRetire (.groupRetire core) fun s => if s.canRetire core then s.retireGroup core else s) ∧
  (∀ launch d, Happens .barrierComplete (.barrierComplete launch d) fun s =>
    if (s.launch launch).barFull (s.launch launch).rect.toNat d then (s.barrier launch d).getD s else s) ∧
  (∀ launch core slot, Happens .taskDispatch (.taskDispatch launch core slot) (fun s => match (s.launch launch).tasks with
      | t :: _ => if s.canDispatch launch core slot then s.giveTask launch core slot t else s
      | [] => s) ∧
    Happens .slotLend (.slotLend launch core slot) fun s => match (s.launch launch).tasks with
      | t :: _ => if s.canLend launch core slot then
          (s.modGroup core fun g => ({ g with lent := g.lent ++ [(slot, g.ctx slot)] } : Group).setCtx slot (g.ctx slot).lending).giveTask
            launch core slot t
        else s
      | [] => s) ∧
  (∀ core slot, Happens .taskStart (.taskStart core slot) (fun s => (s.taskCopy core slot 0).1) ∧
    Happens .taskUnpin (.taskUnpin core slot) fun s => (s.taskCopy core slot 2).1) ∧
  (∀ w va, Happens .pageFaultWake (.pageFaultWake w va) fun s =>
    if s.canWake w then
      (if (s.group w.core).launch = w.launch && (s.group w.core).lent.any fun p => p.1 == w.ctx
        then s.preemptTask w.core w.ctx else s).modLaunchGroup w.core w.launch fun g => g.modCtx w.ctx fun c =>
          if pageWait c = some va then { c with status := .ready, eligible := (s.core w.core).cycle.toNat + 1 } else c
    else if s.canCancel w.core w.ctx then (s.cancelAccess w.core w.ctx).again (.pageFaultWake w va)
    else s.again (.pageFaultWake w va)) ∧
  (∀ w, Happens .pageWalk (.pageWalk w) (fun s =>
      (if s.walkEnd w = .malformed then s.bump .malformed else s).post (.walkResult w (s.walkEnd w))) ∧
    ∀ r, Happens .walkResult (.walkResult w r) fun s => s.walkDone w r) ∧
  (∀ w d va, Happens .pageResolve (.pageResolve w d va) (fun s => s.pageService w va State.resolvePage) ∧
    Happens .pageFail (.pageFail w d va) (fun s => s.pageService w va State.failPage) ∧
    Happens .domainSwitch (.domainSwitch w d va) (fun s =>
      if s.switch.any fun x => x.who == w then s.switchEnd else s.domainService w va) ∧
    Happens .meterRecordService (.meterRecordService w d va) (fun s => s.meterService w va) ∧
    Happens .collectiveBuild (.collectiveBuild w va) (fun s => s.buildCall w va) ∧
    Happens .collectiveRelease (.collectiveRelease w va) (fun s => s.releaseCall w va) ∧
    Happens .handlerTableInstall (.handlerTableInstall w d va) fun s =>
      if va.toNat % 1024 = 0 && s.codePage (s.caller w) va then
        (s.modLaunchGroup w.core w.launch fun g => { g with trapvec := va }).service w 0
      else s.service w 1) ∧
  (∀ launch id panel, Happens .collectiveShrink (.collectiveShrink launch id panel) fun s => s.shrink launch id panel) ∧
  Happens .replayMarkRemoval .replayMarkRemoval (fun s => { s with tables := { s.tables with replayMarks := [] } }) ∧
  (∀ (s t : State) (launch d : Nat), s.barrier launch d = some t → ((s.launch launch).bar d).gather = none →
    ((t.launch launch).bar d).epoch = ((s.launch launch).bar d).epoch + 1 ∧ ((t.launch launch).bar d).arrived = [] ∧
    ((t.launch launch).bar d).done = ((s.launch launch).bar d).rels ∧ t.cores = s.cores)

/-- R39, R40, R56, R59, R63 to R66, R399, R434: deposits, wakes, spawns, channel elements and drain acknowledgements as they
arrive. A deposit fills a held register of a live context and clears its hold; another one is refused. A wake sets the token. -/
def Obligations.MessageEvents : Prop :=
  (∀ m, Happens .depositArrival (.depositArrival m) fun s => s.arriveDeposit m) ∧
  (∀ m, Happens .depositNack (.depositNack m) fun s =>
    if (s.launchGroup m.dst.core m.dst.launch).isNone then s.bump .nackDropped
    else s.modLaunchGroup m.dst.core m.dst.launch fun g =>
      (match m.kc with
       | some k => g.increment k 1 none
       | none => g).modCtx m.dst.ctx fun c => c.addEv m.event 1) ∧
  (∀ m, Happens .wakeArrival (.wakeArrival m) fun s => s.arriveWake m) ∧
  (∀ m, Happens .spawnRequest (.spawnRequest m) fun s =>
    if s.stale m.rel.panel m.tenant m.tgen then (s.bump .dropped).toPanel m.rel.panel (.dropNotice m.src.core)
    else (s.takeSpawn m).1.toPanel m.rel.panel (.spawnReply ⟨m.src, m.fired, m.name, (s.takeSpawn m).2⟩)) ∧
  (∀ m, Happens .spawnReply (.spawnReply m) fun s => s.spawnAnswer m) ∧
  (∀ m, Happens .channelElementArrival (.channelElementArrival m) fun s =>
    if s.stale s.myPanel (s.launch m.src.launch).tenant m.tgen then s.bump .dropped
    else if ((s.modLaunchGroup m.core m.src.launch fun g =>
        g.setChan m.chan { g.chan m.chan with slots := (g.chan m.chan).slots ++ [m.elem] }).group m.core).launch = m.src.launch
    then (s.modLaunchGroup m.core m.src.launch fun g =>
        g.setChan m.chan { g.chan m.chan with slots := (g.chan m.chan).slots ++ [m.elem] }).reachChan m.core m.chan
    else s.modLaunchGroup m.core m.src.launch fun g =>
        g.setChan m.chan { g.chan m.chan with slots := (g.chan m.chan).slots ++ [m.elem] }) ∧
  (∀ m, Happens .drainMarkerAck (.drainMarkerAck m) fun s => s.modLaunchGroup m.core m.launch fun g =>
    match m.chan with
    | some n =>
      if m.drained then (g.setChan n { g.chan n with allowance := (g.chan n).allowance + m.slots }).ackDrain 5 n m.ctr
      else g.setChan n { g.chan n with allowance := (g.chan n).allowance + m.slots }
    | none => g) ∧
  (∀ (s : State) (m : Deposit) (core launch : Nat), s.stale m.rel.panel m.tenant m.tgen = false →
    s.nameOwner m.name m.tenant = some (core, launch) → (s.group core).launch = launch →
    ((s.group core).liveCtx m.ctx = true → (s.ctx core m.ctx).held m.reg = true →
      ((s.arriveDeposit m).ctx core m.ctx).vreg m.reg = m.val ∧ ((s.arriveDeposit m).ctx core m.ctx).held m.reg = false ∧
      ((s.arriveDeposit m).ctx core m.ctx).pc = (s.ctx core m.ctx).pc ∧ SameBytes s (s.arriveDeposit m)) ∧
    ((s.group core).liveCtx m.ctx = false ∨ (s.ctx core m.ctx).held m.reg = false →
      s.arriveDeposit m = s.toPanel m.rel.panel (.depositNack ⟨m.src, m.kc, 7⟩))) ∧
  (∀ (s : State) (m : Deposit), s.stale m.rel.panel m.tenant m.tgen = false → s.nameOwner m.name m.tenant = none →
    s.arriveDeposit m = s.toPanel m.rel.panel (.depositNack ⟨m.src, m.kc, 8⟩)) ∧
  (∀ (s : State) (m : Wake) (core launch : Nat), m.ctx < 11 → s.stale m.rel.panel m.tenant m.tgen = false → s.nameOwner m.name m.tenant = some (core, launch) →
    (s.group core).launch = launch → ((s.arriveWake m).ctx core m.ctx).token = true) ∧
  (∀ (s : State) (m : Spawn) (core launch : Nat), s.nameOwner m.name m.tenant = some (core, launch) →
    (s.group core).freeSlot = none → s.takeSpawn m = (s, .refused))

/-- R114, R118, R122 to R125, R133, R231, R237, R238, R245, R249, R250, R266: memory requests, replies, retries, coherence. A request of
an old generation of its tenant is dropped with a notice; a retry list takes 64 entries and sends the rest back; what a proxy state allows. -/
def Obligations.MemoryEvents : Prop :=
  (∀ m, Happens .memoryRequest (.memoryRequest m) (fun s => s.request m) ∧
    Happens .absentAnswer (.absentAnswer m) (fun s =>
      if (s.launchGroup m.actor.who.core m.actor.who.launch).isSome then
        s.modCore m.actor.who.core fun c => { c with backoffs := c.backoffs ++ [.mem { m with tries := m.tries + 1 }] }
      else s.modCore m.actor.who.core fun c => { c with reserved := c.reserved - 1 }) ∧
    Happens .replayCompletion (.replayCompletion m) (fun s =>
      if s.switching m then s.again (.replayCompletion m) else (s.bump .replayed).post (.memoryRequest m)) ∧
    Happens .unreachableReturn (.unreachableReturn m) fun s => s.returned m) ∧
  (∀ q, Happens .hbmCompletion (.hbmCompletion q) fun s =>
    { s with store := s.store.modSector (64 * q) fun x => { x with fetching := false, valid := true } }) ∧
  (∀ m, Happens .remoteSyncAccess (.remoteSyncAccess m) (fun s => s.remoteSync m) ∧
    Happens .accessNack (.accessNack m) (fun s =>
      if (s.launchGroup m.actor.who.core m.actor.who.launch).isSome then
        s.modCore m.actor.who.core fun c => { c with backoffs := c.backoffs ++ [.sync { m with tries := m.tries + 1 }] }
      else s.modCore m.actor.who.core fun c => { c with reserved := c.reserved - 1 })) ∧
  (∀ m : Retry, Happens .retryBackoffExpiry (.retryBackoffExpiry m) fun s =>
    if (s.core m.actor.who.core).backoffs.contains m then
      (s.modCore m.actor.who.core fun c => { c with backoffs := c.backoffs.erase m }).resend m
    else s) ∧
  (∀ w core, Happens .syncCancel (.syncCancel w core) fun s =>
    ((s.core core).waiters.filter fun x => !x.isLocal && x.msg.actor.who == w).foldl (fun s x =>
      (s.modCore core fun c => { c with waiters := c.waiters.filter (· != x) }).reply x.msg false .cancelled) s) ∧
  (∀ m, Happens .replyData (.replyData m) fun s => s.takeReply m) ∧
  (∀ core, Happens .dropNotice (.dropNotice core) (fun s => s.modCore core fun c => { c with reserved := c.reserved - 1 }) ∧
    Happens .l1EpochWrap (.l1EpochWrap core) fun s => s.modCore core Core.wrapL1) ∧
  (∀ tenant, Happens .reservationTimeout (.reservationTimeout tenant) fun s =>
    ({ s with cores := s.cores.keys.foldl (fun cs k =>
      Cells.modify {} cs k fun (c : Core) => if c.group.launch = 0 then { c with reserved := 0 } else c) s.cores } : State).modTenant
      tenant fun t => { t with resetting := false }) ∧
  (∀ pchip, Happens .hopLimitDrop (.hopLimitDrop pchip) fun s => ((s.dropOne).bump (.misroute pchip)).post (.containment pchip 9 true false)) ∧
  (∀ p q, Happens .readShared (.readShared p q) (fun s => s.coherence p q false) ∧
    Happens .readExclusive (.readExclusive p q) (fun s => s.coherence p q true) ∧
    (∀ w, Happens .homePanelRequest (.homePanelRequest q w) fun s => s.coherence s.myPanel q w) ∧
    (∀ d x f w, Happens .ownerWriteBack (.ownerWriteBack p q d x f w) fun s => s.writeBack p q d x f w) ∧
    (∀ k, Happens .grantAck (.grantAck p q k) fun s => s.ack p q k) ∧
    (∀ r x, Happens .coherenceForward (.coherenceForward p q r x) fun s => s.forward p q r x) ∧
    Happens .invalidation (.invalidation p q) fun s =>
      (s.setProxy (proxyKey (p * 2 ^ 46 + 64 * q) / 64) .i).sendOut p (.grantAck s.myPanel q .gone)) ∧
  (∀ (c : Core), c.wrapL1.epoch = 0 ∧ ∀ i, (c.wrapL1.group.ctx i).acquireEpoch = 0) ∧
  (∀ (s : State) (m : MemMsg), s.stale m.actor.panel m.actor.tenant m.actor.tgen = true →
    s.request m = (s.bump .dropped).toPanel m.actor.panel (.dropNotice m.actor.who.core)) ∧
  (∀ (s : State) (k : Nat) (m : SyncMsg),
    (((s.core (coreOfKey k)).waiters.filter fun w => !w.isLocal).length < 64 →
      ((s.retryList k m).core (coreOfKey k)).waiters = (s.core (coreOfKey k)).waiters ++ [⟨k, false, m⟩] ∧ SameBytes s (s.retryList k m)) ∧
    (64 ≤ ((s.core (coreOfKey k)).waiters.filter fun w => !w.isLocal).length →
      s.retryList k m = s.toPanel m.actor.panel (.accessNack m))) ∧
  (∀ (p : Proxy) (strong write : Bool), proxyOk p strong write = true ↔
    p = .m ∨ (p = .e ∧ write = false) ∨ ((p = .s ∨ p = .o) ∧ strong = false))

/-- R232, R239 to R242, R246, R290, R296, R299, R300, R302: links, clocks, errors. -/
def Obligations.LinkAndClockEvents : Prop :=
  (∀ p n, Happens .meshReplayRequest (.meshReplayRequest p n) fun s => s.bump (.meshReplay p)) ∧
  (∀ p f, Happens .linkDataFlit (.linkDataFlit p f) fun s => s.dataFlit p f) ∧
  (∀ p, (∀ ack, Happens .linkIdleFlit (.linkIdleFlit p ack) fun s => (s.modPort p fun o => o.slot.acked (ack % 4096)).drainPort p) ∧
    (∀ seq, Happens .linkReplayRequest (.linkReplayRequest p seq) fun s => (s.modPort p fun o =>
      { o.slot.acked (seq % 4096) with
        sendSlots := (o.slot.acked (seq % 4096)).sendSlots + (o.slot.acked (seq % 4096)).replay.length }).drainPort p) ∧
    Happens .linkRekeyMark (.linkRekeyMark p) (fun s =>
      s.modPort p fun o => { o.slot with keyGen := o.nextGen, recvSlots := 0 }) ∧
    Happens .rekey (.rekey p) (fun s =>
      { s.modPort p (fun o => { o with nextGen := o.keyGen + 1, sendSlots := 0 }) with
        podOut := s.podOut ++ [((s.port p).peer, .linkRekeyMark p)] }) ∧
    Happens .authFailureLimit (.authFailureLimit p) (fun s => (s.modPort p fun o => { o with authFails := [] }).portDown p) ∧
    Happens .linkFailure (.linkFailure p) fun s => s.portDown p) ∧
  (∀ p tenant net n, Happens .allowanceReturn (.allowanceReturn p tenant net n) fun s => (s.modPort p fun o =>
    if o.frozen then o else o.giveBack tenant net n).drainPort p) ∧
  (∀ chip mhz, chip < 256 → 650 ≤ mhz → mhz ≤ 2080 → mhz % 65 = 0 → Happens .clockChange (.clockChange chip mhz) fun s =>
    (s.modTables fun t => { t with mhz := Cells.set 1950 t.mhz chip mhz }).writeCaps) ∧
  (∀ core, Happens .supplySagTrip (.supplySagTrip core) (fun s => s.modCore core fun c => { c with stretched := true }) ∧
    Happens .supplySagClear (.supplySagClear core) fun s => s.modCore core fun c => { c with stretched := false }) ∧
  (∀ pa, Happens .uncorrectableError (.uncorrectableError (.sector pa)) fun s =>
    s.hitUnit (armedAt s.inj 0 (pa % 2 ^ 46)) (State.poisonAt (physKey pa))) ∧
  (∀ core line, Happens .uncorrectableError (.uncorrectableError (.scratchLine core line)) fun s =>
    let a := s.tables.pchipOf (chipOf core) * 2 ^ 36
      + siteOf (s.tables.smapOf (s.tables.pchipOf (chipOf core))) (localIdx core) * 2 ^ 32 + 128 * line
    s.hitUnit (armedAt s.inj 2 a || armedAt s.inj 2 (a + 64)) fun s =>
      State.poisonAt (scratchKey core (128 * line) + 64) (State.poisonAt (scratchKey core (128 * line)) s)) ∧
  (∀ chip off, Happens .uncorrectableError (.uncorrectableError (.vaultSector chip off)) fun s =>
    s.hitUnit (armedAt s.inj 1 (s.tables.pchipOf chip * 2 ^ 36 + off)) (State.poisonAt (vaultKey chip off))) ∧
  (∀ core k, Happens .uncorrectableError (.uncorrectableError (.l1Line core k)) fun s =>
    s.modCore core fun c => if c.line k = {} then c else c.setL1 k { c.line k with poison := 3 }) ∧
  (∀ p k, Happens .uncorrectableError (.uncorrectableError (.control p k)) fun s => s.post (.containment p k false true)) ∧
  (∀ (s : State) (k : Nat), s.inj.arm = none → (s.hitUnit false (State.poisonAt k)).store.poisoned k = true ∧
    SameBytes s (s.hitUnit false (State.poisonAt k)))

/-- R303 to R310, R269: what each host request does, and the rebuild of tables it asks for. -/
def Obligations.HostEvents : Prop :=
  (∀ r, Happens .hostOpenSession (.hostOpenSession r) (fun s =>
      if plainOk r 1 133 then s.openSession r else s.sendHost r (doneBytes r 1 0 0 [])) ∧
    Happens .hostIdentity (.hostIdentity r) (fun s =>
      s.sendHost r (if plainOk r 3 0 then doneBytes r 0 0 0 (deviceId ++ keyBytes Config.identityKey) else doneBytes r 1 0 0 [])) ∧
    Happens .hostBadRequest (.hostBadRequest r) (fun s =>
      if r.op = 1 || r.op = 3 then s.sendHost r (doneBytes r 1 0 0 []) else s.serveHost r r.op fun s => (s, st 1)) ∧
    Happens .hostNotify (.hostNotify r) (fun s =>
      s.serveHost r 0x12 fun s => s.ofTenant r fun s => (s, st (if r.payload.isEmpty then 0 else 1))) ∧
    Happens .hostRegisterTenant (.hostRegisterTenant r) (fun s => s.serveHost r 0x20 fun s =>
      if !regOk r then (s, st 1)
      else if (s.tenant r.tenant).registered && (s.admitted r.tenant || (s.tenant r.tenant).resetting) then (s, st 5)
      else (s.modTenant r.tenant (registered r), st 0)) ∧
    Happens .hostDeregisterTenant (.hostDeregisterTenant r) (fun s => s.serveHost r 0x21 fun s => s.ofTenant r fun s =>
      if !r.payload.isEmpty then (s, st 1)
      else if s.admitted r.tenant || (s.tenant r.tenant).resetting then (s, st 5)
      else (((s.meterRecord r.tenant (leBytes 8 0) true).1.sendHost r (s.meterRecord r.tenant (leBytes 8 0) true).2).modTenant
        r.tenant fun t => { t with registered := false }, st 0)) ∧
    Happens .hostResetTenant (.hostResetTenant r) (fun s =>
      if s.hostOpen.contains r then (if (s.tenant r.tenant).resetting then s else s.finishHost r)
      else s.serveHost r 0x22 fun s => s.ofTenant r fun s =>
        if !r.payload.isEmpty then (s, st 1)
        else if (s.tenant r.tenant).resetting then (s, st 5)
        else ({ s.resetTenant r.tenant with hostOpen := s.hostOpen ++ [r] }, none)) ∧
    Happens .hostMeterRecord (.hostMeterRecord r) (fun s => s.serveHost r 0x40 fun s => s.ofTenant r fun s =>
      if !r.payload.isEmpty then (s, st 1)
      else ((s.meterRecord r.tenant (leBytes 8 r.arg.toNat) false).1,
        some (0, 0, (s.meterRecord r.tenant (leBytes 8 r.arg.toNat) false).2))) ∧
    Happens .hostLaunchStatus (.hostLaunchStatus r) (fun s => s.serveHost r 0x32 fun s => s.ofTenant r fun s =>
      if !r.payload.isEmpty || !s.launches.keys.contains r.arg.toNat || (s.launch r.arg.toNat).tenant ≠ r.tenant then (s, st 1)
      else if (s.launch r.arg.toNat).stage ≠ .retired then (s, st 6)
      else (s, some (0, 0, (s.launch r.arg.toNat).status))) ∧
    Happens .hostSubmitLaunch (.hostSubmitLaunch r) (fun s => s.serveHost r 0x31 fun s =>
      if !recordGood r.payload then (s, st 1)
      else if (s.tenant r.tenant).registered && (s.tenant r.tenant).resetting then (s, st 5)
      else if s.submitStatus r.tenant r.payload ≠ 0 then (s, st 3 (s.submitStatus r.tenant r.payload))
      else ((s.submit r.tenant r.payload).1, st 0 (s.submit r.tenant r.payload).2)) ∧
    Happens .hostWrite (.hostWrite r) (fun s => s.serveHost r 0x10 fun s => s.ofTenant r fun s =>
      if r.payload.isEmpty then (s, st 1)
      else match s.hostReach r (.hostWrite r) true r.payload.length with
        | .error x => x
        | .ok ps => (s.writeParts r.tenant ps r.payload, st 0)) ∧
    Happens .hostRead (.hostRead r) (fun s => s.serveHost r 0x11 fun s => s.ofTenant r fun s =>
      if !r.payload.isEmpty || r.arg = 0 || 8192 < r.arg.toNat then (s, st 1)
      else match s.hostReach r (.hostRead r) false r.arg.toNat with
        | .error x => x
        | .ok ps => (s.hostJoin r ps, some (0, 0, s.partsBytes ps))) ∧
    Happens .hostLoadContainer (.hostLoadContainer r) (fun s => s.serveHost r 0x30 fun s => s.ofTenant r fun s =>
      if !r.payload.isEmpty || 2 ^ 32 ≤ r.arg.toNat then (s, st 1)
      else match s.hostReach r (.hostLoadContainer r) false r.arg.toNat with
        | .error x => x
        | .ok ps =>
          if containerCheck (s.tenant r.tenant).keys (s.partsBytes ps) ≠ 0
          then (s, st 7 (containerCheck (s.tenant r.tenant).keys (s.partsBytes ps)))
          else (s.loadImage r.tenant (s.partsBytes ps), st 0)) ∧
    Happens .hostRecablePod (.hostRecablePod r) (fun s =>
      if s.hostOpen.contains r then (if s.recableDrained r.payload then (s.recableEnd r.payload).finishHost r else s)
      else s.serveHost r 0x50 fun s =>
        if r.payload.length ≠ 4 * r.arg.toNat || (cables r.payload).any fun c =>
            64 ≤ c.1 || 64 ≤ c.2.1 || 64 ≤ c.2.2.1 || 64 ≤ c.2.2.2 then (s, st 1)
        else if s.hostOpen.any fun q => q.op == 0x50 then (s, st 5)
        else ({ s.recableStart r.payload with hostOpen := s.hostOpen ++ [r] }, none)) ∧
    Happens .hostCloseSession (.hostCloseSession r) (fun s =>
      if (s.sessionOf r).isSome && r.quadrant ≤ 3 && !r.badHeader && r.payload.isEmpty && r.op == 2 then
        { s.serveHost r 2 (fun s => (s, st (if r.payload.isEmpty then 0 else 1))) with
          sessions := (s.serveHost r 2 fun s => (s, st (if r.payload.isEmpty then 0 else 1))).sessions.filter fun x =>
            x.num != r.session }
      else s.serveHost r 2 fun s => (s, st (if r.payload.isEmpty then 0 else 1)))) ∧
  (∀ (s : State) (r : HostReq) (op : Nat) (f : State → State × HostAns),
    (3 < r.quadrant → s.serveHost r op f = s.sendHost r (doneBytes r 1 0 0 [])) ∧
    (r.quadrant ≤ 3 → s.sessionOf r = none → s.serveHost r op f = s.bump .sessionDrop)) ∧
  (∀ (s : State) (r : HostReq) (f : State → State × HostAns),
    ((s.tenant r.tenant).registered = false → s.ofTenant r f = (s, st 2)) ∧
    ((s.tenant r.tenant).registered = true → s.ofTenant r f = f s))

/-- R19 to R26, R110, R115, R126, R258 to R265, R255, R256, R295, R303: boot, slot actions, management registers, remap,
containment, migration, quanta. A reserved value of SMAP is not stored; a write of VOWN that changes the tenant zeroes the page. -/
def Obligations.ManagementEvents : Prop :=
  Happens .boot .boot (fun s =>
    if s.phase ≠ .reset then s
    else if (match s.flash with
      | some image => Config.imageOk image
      | none => Config.flashImageOk) then s.bootFirmware
    else { s with phase := .recovery, hostOut := s.hostOut ++ [(0, Config.recoveryRequest)] }) ∧
  (∀ image, Happens .recoveryImage (.recoveryImage image) fun s =>
    if s.phase = .recovery && Config.imageOk image then ({ s with flash := some image } : State).bootFirmware else s) ∧
  (∀ i chip, Happens .containerForward (.containerForward i chip) fun s =>
    (children (Cells.get {} s.images i).bytes chip).foldl (fun s c => s.post (.containerForward i c))
      (if s.tables.chipValid chip then
        { s with images := Cells.set {} s.images i { (Cells.get {} s.images i) with
          holders := chip :: (Cells.get {} s.images i).holders.erase chip } } else s)) ∧
  (∀ chip row core, rowOk chip row = true → core = coreOfLocal chip row →
    Happens .slotBind (.slotBind chip row) (fun s => s.act chip row 1
      (fun v => (s.group core).launch == 0 && recLaunch v != 0 && recGrantOk v && (s.core core).granulesOk v)
      fun v s => s.bindGroup core v) ∧
    Happens .slotSave (.slotSave chip row) (fun s =>
      if !(s.row chip row).getLsbD 255 || recAction (s.row chip row) ≠ 2 then s
      else if !s.coreUp chip row then s.endAction chip row 2
      else if (s.group core).launch = 0 then s.endAction chip row 1
      else (List.range 11).foldl (fun s i => s.withdraw core i) (s.modCore core fun c => { c with stop := 1 + s.mesh })) ∧
    Happens .saveWritePhase (.saveWritePhase chip row) (fun s => if s.stopDone core then s.saveGroup chip row else s) ∧
    Happens .slotResume (.slotResume chip row) (fun s => s.act chip row 3
      (fun v => (s.group core).launch == 0 && recGrantOk v && (s.core core).granulesOk v
        && ((s.core core).savedOf (recLaunch v)).any fun g => g.gname == (recGroup v).gname)
      fun v s => s.resumeGroup core v) ∧
    Happens .slotEvictPartition (.slotEvictPartition chip row) (fun s =>
      (s.act chip row 4 (fun _ => true) fun v s => s.evictPartition core (recLaunch v)).grants false) ∧
    Happens .slotResetStop (.slotResetStop chip row) (fun s =>
      s.act chip row 5 (fun _ => true) fun _ s => s.stopGroup core) ∧
    Happens .slotRetire (.slotRetire chip row) fun s =>
      (s.act chip row 6 (fun _ => true) fun v s => s.modCore core fun c => c.dropLaunch s.myPanel (recLaunch v)).grants false) ∧
  (∀ p v, p < 288 → Happens .smapWrite (.smapWrite p v) fun s => s.putSmap p v) ∧
  (∀ i v, i < 16 → Happens .arrWrite (.arrWrite i v) fun s =>
    s.setRanges (Cells.set 0 s.tables.arr i (v &&& 0xCFFFFF003FFFFFFF000000003FFFFFFF#128))) ∧
  (∀ chip page v, chip < 256 → page < 256 → Happens .vownWrite (.vownWrite chip page v) fun s =>
    if (v &&& 0x3FFFF#32).extractLsb' 0 16 = (s.tables.vownOf chip page).extractLsb' 0 16
    then s.modTables fun t => { t with vown := Cells.set 0 t.vown (256 * chip + page) (v &&& 0x3FFFF#32) }
    else { (s.modTables fun t => { t with vown := Cells.set 0 t.vown (256 * chip + page) (v &&& 0x3FFFF#32) }) with
      store := s.store.zero (vaultKey chip (page * 2 ^ 21)) (2 ^ 21) }) ∧
  (∀ v, Happens .injctlWrite (.injctlWrite v) (fun s =>
      let x := fieldOr (fun r => r < 8 || 40 < r) 0 6 s.inj.ctl (v &&& 0x8000FFFF000F003F#64)
      let t := s.tenant (x.extractLsb' 32 16).toNat
      { s with inj := { s.inj with ctl := if t.registered && t.test then x else x &&& ~~~(1#64 <<< 63) } })) ∧
  (∀ v, Happens .injseedWrite (.injseedWrite v) (fun s => { s with inj := { s.inj with seed := if v = 0 then 1 else v } })) ∧
  (∀ r v, Happens .mgmtRegisterWrite (.mgmtRegisterWrite r v) fun s => (s.putReg r v).regWritten r s.tables) ∧
  (∀ r, Happens .remapChange (.remapChange r) fun s => s.remap r) ∧
  (∀ p k r v, Happens .containment (.containment p k r v) fun s => s.contain p k r v) ∧
  (∀ core, Happens .migration (.migration core) (fun s => s.migrate core) ∧
    Happens .stubRetire (.stubRetire core) fun s => s.modCore core fun c => { c with stubs := [] }) ∧
  Happens .quantumBoundary .quantumBoundary (fun s => s.quantum) ∧
  Happens .schedulingWindowEnd .schedulingWindowEnd (fun s =>
    let carry (t : Nat) : Int :=
      if s.backlogged.contains t then (s.tenant t).deficit + (s.entitlement t * quantumCycles : Nat) - (s.tenant t).got else 0
    let u := (s.tenantIds.map fun t => (t, carry t)).foldl (fun s p =>
      s.modTenant p.1 fun t => { t with deficit := p.2, got := 0, inWindow := false }) s
    ({ u with backlogged := u.tenantIds.filter fun t => u.backlog t } : State).grants true) ∧
  (∀ (s : State) (chip row action : Nat) (ok : BitVec 256 → Bool) (f : BitVec 256 → State → State),
    ((s.row chip row).getLsbD 255 = true → recAction (s.row chip row) = action → s.coreUp chip row = false →
      s.act chip row action ok f = s.endAction chip row 2) ∧
    ((s.row chip row).getLsbD 255 = true → recAction (s.row chip row) = action → s.coreUp chip row = true →
      ok (s.row chip row) = false → s.act chip row action ok f = s.endAction chip row 1) ∧
    ((s.row chip row).getLsbD 255 = true → recAction (s.row chip row) = action → s.coreUp chip row = true →
      ok (s.row chip row) = true → s.act chip row action ok f = (f (s.row chip row) s).endAction chip row 0)) ∧
  (∀ s : State, s.bootFirmware.phase = .running)
end

