-- ==== Sys2Proof/Laws/Cells.lean ====
section
/-! SUPPORT. Sys2Proof/Laws/Cells.lean: the laws of sparse tables: what a read gives after a write, and that every operation keeps
the canonical form. -/
namespace Sys2Proof

variable {α : Type}

/-! ## Reads after writes: for every table, canonical or not -/

theorem findCell_dropCell_self (l : List (Nat × α)) (k : Nat) : findCell (dropCell l k) k = none := by
  induction l with
  | nil => rfl
  | cons a t ih =>
    obtain ⟨j, v⟩ := a
    unfold dropCell
    split
    · exact ih
    · simp only [findCell, if_neg ‹_›, ih]
theorem findCell_dropCell_other (l : List (Nat × α)) {k j : Nat} (hj : j ≠ k) : findCell (dropCell l k) j = findCell l j := by
  induction l with
  | nil => rfl
  | cons a t ih =>
    obtain ⟨i, v⟩ := a
    unfold dropCell
    split
    · subst_vars; rw [ih]; simp only [findCell, if_neg (Ne.symm hj)]
    · simp only [findCell, ih]
theorem findCell_putCell_self (l : List (Nat × α)) (k : Nat) (v : α) (h : findCell l k = none) :
    findCell (putCell l k v) k = some v := by
  induction l with
  | nil => simp [putCell, findCell]
  | cons a t ih =>
    obtain ⟨j, w⟩ := a
    have hj : ¬ j = k := by intro e; simp [findCell, e] at h
    simp only [findCell, if_neg hj] at h
    unfold putCell
    split
    · simp [findCell]
    · simp only [findCell, if_neg hj, ih h]
theorem findCell_putCell_other (l : List (Nat × α)) {k j : Nat} (v : α) (hj : j ≠ k) :
    findCell (putCell l k v) j = findCell l j := by
  induction l with
  | nil => simp only [putCell, findCell, if_neg (Ne.symm hj)]
  | cons a t ih =>
    obtain ⟨i, w⟩ := a
    unfold putCell
    split
    · simp only [findCell, if_neg (Ne.symm hj)]
    · simp only [findCell, ih]

variable [DecidableEq α] (d : α)

/-- Reading what has been written. -/
@[simp] theorem Cells.get_set_self (m : Cells α) (k : Nat) (v : α) : (m.set d k v).get d k = v := by
  unfold Cells.set Cells.get
  split
  · subst_vars; simp [findCell_dropCell_self]
  · simp [findCell_putCell_self _ _ _ (findCell_dropCell_self _ _)]
/-- Reading elsewhere. -/
theorem Cells.get_set_other (m : Cells α) {k j : Nat} (v : α) (hj : j ≠ k) : (m.set d k v).get d j = m.get d j := by
  unfold Cells.set Cells.get
  split
  · simp [findCell_dropCell_other _ hj]
  · simp [findCell_putCell_other _ _ hj, findCell_dropCell_other _ hj]
/-- Reading anywhere after a write. -/
theorem Cells.get_set (m : Cells α) (k j : Nat) (v : α) : (m.set d k v).get d j = if j = k then v else m.get d j := by
  split
  · subst_vars; simp
  · exact Cells.get_set_other d m v ‹_›
omit [DecidableEq α] in
theorem dropCell_putCell (l : List (Nat × α)) (k : Nat) (v : α) : dropCell (putCell l k v) k = dropCell l k := by
  induction l with
  | nil => simp [putCell, dropCell]
  | cons a t ih =>
    obtain ⟨j, w⟩ := a
    unfold putCell
    split
    · simp [dropCell]
    · simp [dropCell, ih]
omit [DecidableEq α] in
theorem dropCell_dropCell (l : List (Nat × α)) (k : Nat) : dropCell (dropCell l k) k = dropCell l k := by
  induction l with
  | nil => rfl
  | cons a t ih =>
    obtain ⟨j, w⟩ := a
    by_cases h : j = k
    · simp [dropCell, h, ih]
    · simp [dropCell, h, ih]
/-- The later of two writes to one place prevails. -/
@[simp] theorem Cells.set_set (m : Cells α) (k : Nat) (v w : α) : (m.set d k v).set d k w = m.set d k w := by
  have : dropCell (m.set d k v).list k = dropCell m.list k := by
    unfold Cells.set; split <;> simp [dropCell_putCell, dropCell_dropCell]
  unfold Cells.set at this ⊢
  simp only [this]
omit [DecidableEq α] in
@[simp] theorem Cells.get_empty (k : Nat) : Cells.get d (Cells.empty : Cells α) k = d := rfl

/-! ## The canonical form -/

theorem canonFrom_mono {l : List (Nat × α)} {lo lo' : Nat} (h : canonFrom d lo l = true) (hl : lo' ≤ lo) :
    canonFrom d lo' l = true := by
  cases l with
  | nil => rfl
  | cons a t =>
    simp only [canonFrom, Bool.and_eq_true, decide_eq_true_eq] at h ⊢
    exact ⟨⟨by omega, h.1.2⟩, h.2⟩
theorem canonFrom_dropCell {l : List (Nat × α)} {lo : Nat} (h : canonFrom d lo l = true) (k : Nat) :
    canonFrom d lo (dropCell l k) = true := by
  induction l generalizing lo with
  | nil => rfl
  | cons a t ih =>
    obtain ⟨j, w⟩ := a
    simp only [canonFrom, Bool.and_eq_true, decide_eq_true_eq] at h
    unfold dropCell
    split
    · exact canonFrom_mono d (ih h.2) (by omega)
    · simp only [canonFrom, Bool.and_eq_true, decide_eq_true_eq]
      exact ⟨h.1, ih h.2⟩
theorem canonFrom_putCell {l : List (Nat × α)} {lo k : Nat} {v : α} (h : canonFrom d lo l = true) (hk : lo ≤ k) (hv : v ≠ d)
    (hf : findCell l k = none) : canonFrom d lo (putCell l k v) = true := by
  induction l generalizing lo with
  | nil => simp [putCell, canonFrom, hk, hv]
  | cons a t ih =>
    obtain ⟨j, w⟩ := a
    have hj : ¬ j = k := by intro e; simp [findCell, e] at hf
    simp only [findCell, if_neg hj] at hf
    simp only [canonFrom, Bool.and_eq_true, decide_eq_true_eq] at h
    unfold putCell
    split
    · simp only [canonFrom, Bool.and_eq_true, decide_eq_true_eq]
      exact ⟨⟨hk, hv⟩, ⟨by omega, h.1.2⟩, h.2⟩
    · simp only [canonFrom, Bool.and_eq_true, decide_eq_true_eq]
      exact ⟨h.1, ih h.2 (by omega) hf⟩
theorem canonFrom_filter {l : List (Nat × α)} {lo : Nat} (h : canonFrom d lo l = true) (p : Nat × α → Bool) :
    canonFrom d lo (l.filter p) = true := by
  induction l generalizing lo with
  | nil => rfl
  | cons a t ih =>
    obtain ⟨j, w⟩ := a
    simp only [canonFrom, Bool.and_eq_true, decide_eq_true_eq] at h
    rw [List.filter_cons]
    split
    · simp only [canonFrom, Bool.and_eq_true, decide_eq_true_eq]
      exact ⟨h.1, ih h.2⟩
    · exact ih (canonFrom_mono d h.2 (by omega))
theorem Cells.wf_empty : Cells.wf d (Cells.empty : Cells α) = true := rfl
/-- Every write keeps the canonical form. -/
theorem Cells.wf_set {m : Cells α} (h : m.wf d = true) (k : Nat) (v : α) : (m.set d k v).wf d = true := by
  unfold Cells.set Cells.wf
  split
  · exact canonFrom_dropCell d h k
  · exact canonFrom_putCell d (canonFrom_dropCell d h k) (Nat.zero_le _) ‹_› (findCell_dropCell_self _ _)
theorem Cells.wf_modify {m : Cells α} (h : m.wf d = true) (k : Nat) (f : α → α) : (m.modify d k f).wf d = true :=
  Cells.wf_set d h k _

/-! ## Memory -/

/-- A write of memory keeps the canonical form. -/
theorem Memory.wf_write {m : Memory} (h : m.wf = true) (a : Nat) (b : Byte) : (m.write a b).wf = true := Cells.wf_set 0 h a b
/-- A byte of memory reads as it was written. -/
theorem Memory.read_write_self (m : Memory) (a : Nat) (b : Byte) : (m.write a b).read a = b := Cells.get_set_self 0 m a b
/-- A write of memory leaves every other byte. -/
theorem Memory.read_write_other (m : Memory) {a c : Nat} (b : Byte) (hc : c ≠ a) : (m.write a b).read c = m.read c :=
  Cells.get_set_other 0 m b hc

end Sys2Proof
end

