-- ==== Sys2Proof/Laws/State.lean ====
section
/-! SUPPORT. Sys2Proof/Laws/State.lean: what each update leaves: one lemma for each field of the record that an update does not
change, true by definition, so that no proof unfolds a record update. -/
namespace Sys2Proof.Machine

/-! ## State -/

@[simp] theorem State.setCore_phase (s : State) (n : Nat) (x : Core) : (s.setCore n x).phase = s.phase := rfl
@[simp] theorem State.setCore_flash (s : State) (n : Nat) (x : Core) : (s.setCore n x).flash = s.flash := rfl
@[simp] theorem State.setCore_panel (s : State) (n : Nat) (x : Core) : (s.setCore n x).panel = s.panel := rfl
@[simp] theorem State.setCore_store (s : State) (n : Nat) (x : Core) : (s.setCore n x).store = s.store := rfl
@[simp] theorem State.setCore_tables (s : State) (n : Nat) (x : Core) : (s.setCore n x).tables = s.tables := rfl
@[simp] theorem State.setCore_optical (s : State) (n : Nat) (x : Core) : (s.setCore n x).optical = s.optical := rfl
@[simp] theorem State.setCore_inj (s : State) (n : Nat) (x : Core) : (s.setCore n x).inj = s.inj := rfl
@[simp] theorem State.setCore_counts (s : State) (n : Nat) (x : Core) : (s.setCore n x).counts = s.counts := rfl
@[simp] theorem State.setCore_tenants (s : State) (n : Nat) (x : Core) : (s.setCore n x).tenants = s.tenants := rfl
@[simp] theorem State.setCore_launches (s : State) (n : Nat) (x : Core) : (s.setCore n x).launches = s.launches := rfl
@[simp] theorem State.setCore_nextLaunch (s : State) (n : Nat) (x : Core) : (s.setCore n x).nextLaunch = s.nextLaunch := rfl
@[simp] theorem State.setCore_submitted (s : State) (n : Nat) (x : Core) : (s.setCore n x).submitted = s.submitted := rfl
@[simp] theorem State.setCore_switch (s : State) (n : Nat) (x : Core) : (s.setCore n x).switch = s.switch := rfl
@[simp] theorem State.setCore_names (s : State) (n : Nat) (x : Core) : (s.setCore n x).names = s.names := rfl
@[simp] theorem State.setCore_images (s : State) (n : Nat) (x : Core) : (s.setCore n x).images = s.images := rfl
@[simp] theorem State.setCore_nextImage (s : State) (n : Nat) (x : Core) : (s.setCore n x).nextImage = s.nextImage := rfl
@[simp] theorem State.setCore_sessions (s : State) (n : Nat) (x : Core) : (s.setCore n x).sessions = s.sessions := rfl
@[simp] theorem State.setCore_sessionCount (s : State) (n : Nat) (x : Core) : (s.setCore n x).sessionCount = s.sessionCount := rfl
@[simp] theorem State.setCore_hostClocks (s : State) (n : Nat) (x : Core) : (s.setCore n x).hostClocks = s.hostClocks := rfl
@[simp] theorem State.setCore_hostOpen (s : State) (n : Nat) (x : Core) : (s.setCore n x).hostOpen = s.hostOpen := rfl
@[simp] theorem State.setCore_mesh (s : State) (n : Nat) (x : Core) : (s.setCore n x).mesh = s.mesh := rfl
@[simp] theorem State.setCore_window (s : State) (n : Nat) (x : Core) : (s.setCore n x).window = s.window := rfl
@[simp] theorem State.setCore_backlogged (s : State) (n : Nat) (x : Core) : (s.setCore n x).backlogged = s.backlogged := rfl
@[simp] theorem State.setCore_tick (s : State) (n : Nat) (x : Core) : (s.setCore n x).tick = s.tick := rfl
@[simp] theorem State.setCore_nextAgent (s : State) (n : Nat) (x : Core) : (s.setCore n x).nextAgent = s.nextAgent := rfl
@[simp] theorem State.setCore_nextId (s : State) (n : Nat) (x : Core) : (s.setCore n x).nextId = s.nextId := rfl
@[simp] theorem State.setCore_curCore (s : State) (n : Nat) (x : Core) : (s.setCore n x).curCore = s.curCore := rfl
@[simp] theorem State.setCore_curCtx (s : State) (n : Nat) (x : Core) : (s.setCore n x).curCtx = s.curCtx := rfl
@[simp] theorem State.setCore_event (s : State) (n : Nat) (x : Core) : (s.setCore n x).event = s.event := rfl
@[simp] theorem State.setCore_agenda (s : State) (n : Nat) (x : Core) : (s.setCore n x).agenda = s.agenda := rfl
@[simp] theorem State.setCore_hostOut (s : State) (n : Nat) (x : Core) : (s.setCore n x).hostOut = s.hostOut := rfl
@[simp] theorem State.setCore_podOut (s : State) (n : Nat) (x : Core) : (s.setCore n x).podOut = s.podOut := rfl
@[simp] theorem State.setCore_podHeld (s : State) (n : Nat) (x : Core) : (s.setCore n x).podHeld = s.podHeld := rfl
@[simp] theorem State.setCore_due (s : State) (n : Nat) (x : Core) : (s.setCore n x).due = s.due := rfl
@[simp] theorem State.modCore_phase (s : State) (n : Nat) (f : Core → Core) : (s.modCore n f).phase = s.phase := rfl
@[simp] theorem State.modCore_flash (s : State) (n : Nat) (f : Core → Core) : (s.modCore n f).flash = s.flash := rfl
@[simp] theorem State.modCore_panel (s : State) (n : Nat) (f : Core → Core) : (s.modCore n f).panel = s.panel := rfl
@[simp] theorem State.modCore_store (s : State) (n : Nat) (f : Core → Core) : (s.modCore n f).store = s.store := rfl
@[simp] theorem State.modCore_tables (s : State) (n : Nat) (f : Core → Core) : (s.modCore n f).tables = s.tables := rfl
@[simp] theorem State.modCore_optical (s : State) (n : Nat) (f : Core → Core) : (s.modCore n f).optical = s.optical := rfl
@[simp] theorem State.modCore_inj (s : State) (n : Nat) (f : Core → Core) : (s.modCore n f).inj = s.inj := rfl
@[simp] theorem State.modCore_counts (s : State) (n : Nat) (f : Core → Core) : (s.modCore n f).counts = s.counts := rfl
@[simp] theorem State.modCore_tenants (s : State) (n : Nat) (f : Core → Core) : (s.modCore n f).tenants = s.tenants := rfl
@[simp] theorem State.modCore_launches (s : State) (n : Nat) (f : Core → Core) : (s.modCore n f).launches = s.launches := rfl
@[simp] theorem State.modCore_nextLaunch (s : State) (n : Nat) (f : Core → Core) : (s.modCore n f).nextLaunch = s.nextLaunch := rfl
@[simp] theorem State.modCore_submitted (s : State) (n : Nat) (f : Core → Core) : (s.modCore n f).submitted = s.submitted := rfl
@[simp] theorem State.modCore_switch (s : State) (n : Nat) (f : Core → Core) : (s.modCore n f).switch = s.switch := rfl
@[simp] theorem State.modCore_names (s : State) (n : Nat) (f : Core → Core) : (s.modCore n f).names = s.names := rfl
@[simp] theorem State.modCore_images (s : State) (n : Nat) (f : Core → Core) : (s.modCore n f).images = s.images := rfl
@[simp] theorem State.modCore_nextImage (s : State) (n : Nat) (f : Core → Core) : (s.modCore n f).nextImage = s.nextImage := rfl
@[simp] theorem State.modCore_sessions (s : State) (n : Nat) (f : Core → Core) : (s.modCore n f).sessions = s.sessions := rfl
@[simp] theorem State.modCore_sessionCount (s : State) (n : Nat) (f : Core → Core) : (s.modCore n f).sessionCount = s.sessionCount := rfl
@[simp] theorem State.modCore_hostClocks (s : State) (n : Nat) (f : Core → Core) : (s.modCore n f).hostClocks = s.hostClocks := rfl
@[simp] theorem State.modCore_hostOpen (s : State) (n : Nat) (f : Core → Core) : (s.modCore n f).hostOpen = s.hostOpen := rfl
@[simp] theorem State.modCore_mesh (s : State) (n : Nat) (f : Core → Core) : (s.modCore n f).mesh = s.mesh := rfl
@[simp] theorem State.modCore_window (s : State) (n : Nat) (f : Core → Core) : (s.modCore n f).window = s.window := rfl
@[simp] theorem State.modCore_backlogged (s : State) (n : Nat) (f : Core → Core) : (s.modCore n f).backlogged = s.backlogged := rfl
@[simp] theorem State.modCore_tick (s : State) (n : Nat) (f : Core → Core) : (s.modCore n f).tick = s.tick := rfl
@[simp] theorem State.modCore_nextAgent (s : State) (n : Nat) (f : Core → Core) : (s.modCore n f).nextAgent = s.nextAgent := rfl
@[simp] theorem State.modCore_nextId (s : State) (n : Nat) (f : Core → Core) : (s.modCore n f).nextId = s.nextId := rfl
@[simp] theorem State.modCore_curCore (s : State) (n : Nat) (f : Core → Core) : (s.modCore n f).curCore = s.curCore := rfl
@[simp] theorem State.modCore_curCtx (s : State) (n : Nat) (f : Core → Core) : (s.modCore n f).curCtx = s.curCtx := rfl
@[simp] theorem State.modCore_event (s : State) (n : Nat) (f : Core → Core) : (s.modCore n f).event = s.event := rfl
@[simp] theorem State.modCore_agenda (s : State) (n : Nat) (f : Core → Core) : (s.modCore n f).agenda = s.agenda := rfl
@[simp] theorem State.modCore_hostOut (s : State) (n : Nat) (f : Core → Core) : (s.modCore n f).hostOut = s.hostOut := rfl
@[simp] theorem State.modCore_podOut (s : State) (n : Nat) (f : Core → Core) : (s.modCore n f).podOut = s.podOut := rfl
@[simp] theorem State.modCore_podHeld (s : State) (n : Nat) (f : Core → Core) : (s.modCore n f).podHeld = s.podHeld := rfl
@[simp] theorem State.modCore_due (s : State) (n : Nat) (f : Core → Core) : (s.modCore n f).due = s.due := rfl
@[simp] theorem State.modGroup_phase (s : State) (n : Nat) (f : Group → Group) : (s.modGroup n f).phase = s.phase := rfl
@[simp] theorem State.modGroup_flash (s : State) (n : Nat) (f : Group → Group) : (s.modGroup n f).flash = s.flash := rfl
@[simp] theorem State.modGroup_panel (s : State) (n : Nat) (f : Group → Group) : (s.modGroup n f).panel = s.panel := rfl
@[simp] theorem State.modGroup_store (s : State) (n : Nat) (f : Group → Group) : (s.modGroup n f).store = s.store := rfl
@[simp] theorem State.modGroup_tables (s : State) (n : Nat) (f : Group → Group) : (s.modGroup n f).tables = s.tables := rfl
@[simp] theorem State.modGroup_optical (s : State) (n : Nat) (f : Group → Group) : (s.modGroup n f).optical = s.optical := rfl
@[simp] theorem State.modGroup_inj (s : State) (n : Nat) (f : Group → Group) : (s.modGroup n f).inj = s.inj := rfl
@[simp] theorem State.modGroup_counts (s : State) (n : Nat) (f : Group → Group) : (s.modGroup n f).counts = s.counts := rfl
@[simp] theorem State.modGroup_tenants (s : State) (n : Nat) (f : Group → Group) : (s.modGroup n f).tenants = s.tenants := rfl
@[simp] theorem State.modGroup_launches (s : State) (n : Nat) (f : Group → Group) : (s.modGroup n f).launches = s.launches := rfl
@[simp] theorem State.modGroup_nextLaunch (s : State) (n : Nat) (f : Group → Group) : (s.modGroup n f).nextLaunch = s.nextLaunch := rfl
@[simp] theorem State.modGroup_submitted (s : State) (n : Nat) (f : Group → Group) : (s.modGroup n f).submitted = s.submitted := rfl
@[simp] theorem State.modGroup_switch (s : State) (n : Nat) (f : Group → Group) : (s.modGroup n f).switch = s.switch := rfl
@[simp] theorem State.modGroup_names (s : State) (n : Nat) (f : Group → Group) : (s.modGroup n f).names = s.names := rfl
@[simp] theorem State.modGroup_images (s : State) (n : Nat) (f : Group → Group) : (s.modGroup n f).images = s.images := rfl
@[simp] theorem State.modGroup_nextImage (s : State) (n : Nat) (f : Group → Group) : (s.modGroup n f).nextImage = s.nextImage := rfl
@[simp] theorem State.modGroup_sessions (s : State) (n : Nat) (f : Group → Group) : (s.modGroup n f).sessions = s.sessions := rfl
@[simp] theorem State.modGroup_sessionCount (s : State) (n : Nat) (f : Group → Group) : (s.modGroup n f).sessionCount = s.sessionCount := rfl
@[simp] theorem State.modGroup_hostClocks (s : State) (n : Nat) (f : Group → Group) : (s.modGroup n f).hostClocks = s.hostClocks := rfl
@[simp] theorem State.modGroup_hostOpen (s : State) (n : Nat) (f : Group → Group) : (s.modGroup n f).hostOpen = s.hostOpen := rfl
@[simp] theorem State.modGroup_mesh (s : State) (n : Nat) (f : Group → Group) : (s.modGroup n f).mesh = s.mesh := rfl
@[simp] theorem State.modGroup_window (s : State) (n : Nat) (f : Group → Group) : (s.modGroup n f).window = s.window := rfl
@[simp] theorem State.modGroup_backlogged (s : State) (n : Nat) (f : Group → Group) : (s.modGroup n f).backlogged = s.backlogged := rfl
@[simp] theorem State.modGroup_tick (s : State) (n : Nat) (f : Group → Group) : (s.modGroup n f).tick = s.tick := rfl
@[simp] theorem State.modGroup_nextAgent (s : State) (n : Nat) (f : Group → Group) : (s.modGroup n f).nextAgent = s.nextAgent := rfl
@[simp] theorem State.modGroup_nextId (s : State) (n : Nat) (f : Group → Group) : (s.modGroup n f).nextId = s.nextId := rfl
@[simp] theorem State.modGroup_curCore (s : State) (n : Nat) (f : Group → Group) : (s.modGroup n f).curCore = s.curCore := rfl
@[simp] theorem State.modGroup_curCtx (s : State) (n : Nat) (f : Group → Group) : (s.modGroup n f).curCtx = s.curCtx := rfl
@[simp] theorem State.modGroup_event (s : State) (n : Nat) (f : Group → Group) : (s.modGroup n f).event = s.event := rfl
@[simp] theorem State.modGroup_agenda (s : State) (n : Nat) (f : Group → Group) : (s.modGroup n f).agenda = s.agenda := rfl
@[simp] theorem State.modGroup_hostOut (s : State) (n : Nat) (f : Group → Group) : (s.modGroup n f).hostOut = s.hostOut := rfl
@[simp] theorem State.modGroup_podOut (s : State) (n : Nat) (f : Group → Group) : (s.modGroup n f).podOut = s.podOut := rfl
@[simp] theorem State.modGroup_podHeld (s : State) (n : Nat) (f : Group → Group) : (s.modGroup n f).podHeld = s.podHeld := rfl
@[simp] theorem State.modGroup_due (s : State) (n : Nat) (f : Group → Group) : (s.modGroup n f).due = s.due := rfl
@[simp] theorem State.setCtx_phase (s : State) (n c : Nat) (x : Ctx) : (s.setCtx n c x).phase = s.phase := rfl
@[simp] theorem State.setCtx_flash (s : State) (n c : Nat) (x : Ctx) : (s.setCtx n c x).flash = s.flash := rfl
@[simp] theorem State.setCtx_panel (s : State) (n c : Nat) (x : Ctx) : (s.setCtx n c x).panel = s.panel := rfl
@[simp] theorem State.setCtx_store (s : State) (n c : Nat) (x : Ctx) : (s.setCtx n c x).store = s.store := rfl
@[simp] theorem State.setCtx_tables (s : State) (n c : Nat) (x : Ctx) : (s.setCtx n c x).tables = s.tables := rfl
@[simp] theorem State.setCtx_optical (s : State) (n c : Nat) (x : Ctx) : (s.setCtx n c x).optical = s.optical := rfl
@[simp] theorem State.setCtx_inj (s : State) (n c : Nat) (x : Ctx) : (s.setCtx n c x).inj = s.inj := rfl
@[simp] theorem State.setCtx_counts (s : State) (n c : Nat) (x : Ctx) : (s.setCtx n c x).counts = s.counts := rfl
@[simp] theorem State.setCtx_tenants (s : State) (n c : Nat) (x : Ctx) : (s.setCtx n c x).tenants = s.tenants := rfl
@[simp] theorem State.setCtx_launches (s : State) (n c : Nat) (x : Ctx) : (s.setCtx n c x).launches = s.launches := rfl
@[simp] theorem State.setCtx_nextLaunch (s : State) (n c : Nat) (x : Ctx) : (s.setCtx n c x).nextLaunch = s.nextLaunch := rfl
@[simp] theorem State.setCtx_submitted (s : State) (n c : Nat) (x : Ctx) : (s.setCtx n c x).submitted = s.submitted := rfl
@[simp] theorem State.setCtx_switch (s : State) (n c : Nat) (x : Ctx) : (s.setCtx n c x).switch = s.switch := rfl
@[simp] theorem State.setCtx_names (s : State) (n c : Nat) (x : Ctx) : (s.setCtx n c x).names = s.names := rfl
@[simp] theorem State.setCtx_images (s : State) (n c : Nat) (x : Ctx) : (s.setCtx n c x).images = s.images := rfl
@[simp] theorem State.setCtx_nextImage (s : State) (n c : Nat) (x : Ctx) : (s.setCtx n c x).nextImage = s.nextImage := rfl
@[simp] theorem State.setCtx_sessions (s : State) (n c : Nat) (x : Ctx) : (s.setCtx n c x).sessions = s.sessions := rfl
@[simp] theorem State.setCtx_sessionCount (s : State) (n c : Nat) (x : Ctx) : (s.setCtx n c x).sessionCount = s.sessionCount := rfl
@[simp] theorem State.setCtx_hostClocks (s : State) (n c : Nat) (x : Ctx) : (s.setCtx n c x).hostClocks = s.hostClocks := rfl
@[simp] theorem State.setCtx_hostOpen (s : State) (n c : Nat) (x : Ctx) : (s.setCtx n c x).hostOpen = s.hostOpen := rfl
@[simp] theorem State.setCtx_mesh (s : State) (n c : Nat) (x : Ctx) : (s.setCtx n c x).mesh = s.mesh := rfl
@[simp] theorem State.setCtx_window (s : State) (n c : Nat) (x : Ctx) : (s.setCtx n c x).window = s.window := rfl
@[simp] theorem State.setCtx_backlogged (s : State) (n c : Nat) (x : Ctx) : (s.setCtx n c x).backlogged = s.backlogged := rfl
@[simp] theorem State.setCtx_tick (s : State) (n c : Nat) (x : Ctx) : (s.setCtx n c x).tick = s.tick := rfl
@[simp] theorem State.setCtx_nextAgent (s : State) (n c : Nat) (x : Ctx) : (s.setCtx n c x).nextAgent = s.nextAgent := rfl
@[simp] theorem State.setCtx_nextId (s : State) (n c : Nat) (x : Ctx) : (s.setCtx n c x).nextId = s.nextId := rfl
@[simp] theorem State.setCtx_curCore (s : State) (n c : Nat) (x : Ctx) : (s.setCtx n c x).curCore = s.curCore := rfl
@[simp] theorem State.setCtx_curCtx (s : State) (n c : Nat) (x : Ctx) : (s.setCtx n c x).curCtx = s.curCtx := rfl
@[simp] theorem State.setCtx_event (s : State) (n c : Nat) (x : Ctx) : (s.setCtx n c x).event = s.event := rfl
@[simp] theorem State.setCtx_agenda (s : State) (n c : Nat) (x : Ctx) : (s.setCtx n c x).agenda = s.agenda := rfl
@[simp] theorem State.setCtx_hostOut (s : State) (n c : Nat) (x : Ctx) : (s.setCtx n c x).hostOut = s.hostOut := rfl
@[simp] theorem State.setCtx_podOut (s : State) (n c : Nat) (x : Ctx) : (s.setCtx n c x).podOut = s.podOut := rfl
@[simp] theorem State.setCtx_podHeld (s : State) (n c : Nat) (x : Ctx) : (s.setCtx n c x).podHeld = s.podHeld := rfl
@[simp] theorem State.setCtx_due (s : State) (n c : Nat) (x : Ctx) : (s.setCtx n c x).due = s.due := rfl
@[simp] theorem State.modCtx_phase (s : State) (n c : Nat) (f : Ctx → Ctx) : (s.modCtx n c f).phase = s.phase := rfl
@[simp] theorem State.modCtx_flash (s : State) (n c : Nat) (f : Ctx → Ctx) : (s.modCtx n c f).flash = s.flash := rfl
@[simp] theorem State.modCtx_panel (s : State) (n c : Nat) (f : Ctx → Ctx) : (s.modCtx n c f).panel = s.panel := rfl
@[simp] theorem State.modCtx_store (s : State) (n c : Nat) (f : Ctx → Ctx) : (s.modCtx n c f).store = s.store := rfl
@[simp] theorem State.modCtx_tables (s : State) (n c : Nat) (f : Ctx → Ctx) : (s.modCtx n c f).tables = s.tables := rfl
@[simp] theorem State.modCtx_optical (s : State) (n c : Nat) (f : Ctx → Ctx) : (s.modCtx n c f).optical = s.optical := rfl
@[simp] theorem State.modCtx_inj (s : State) (n c : Nat) (f : Ctx → Ctx) : (s.modCtx n c f).inj = s.inj := rfl
@[simp] theorem State.modCtx_counts (s : State) (n c : Nat) (f : Ctx → Ctx) : (s.modCtx n c f).counts = s.counts := rfl
@[simp] theorem State.modCtx_tenants (s : State) (n c : Nat) (f : Ctx → Ctx) : (s.modCtx n c f).tenants = s.tenants := rfl
@[simp] theorem State.modCtx_launches (s : State) (n c : Nat) (f : Ctx → Ctx) : (s.modCtx n c f).launches = s.launches := rfl
@[simp] theorem State.modCtx_nextLaunch (s : State) (n c : Nat) (f : Ctx → Ctx) : (s.modCtx n c f).nextLaunch = s.nextLaunch := rfl
@[simp] theorem State.modCtx_submitted (s : State) (n c : Nat) (f : Ctx → Ctx) : (s.modCtx n c f).submitted = s.submitted := rfl
@[simp] theorem State.modCtx_switch (s : State) (n c : Nat) (f : Ctx → Ctx) : (s.modCtx n c f).switch = s.switch := rfl
@[simp] theorem State.modCtx_names (s : State) (n c : Nat) (f : Ctx → Ctx) : (s.modCtx n c f).names = s.names := rfl
@[simp] theorem State.modCtx_images (s : State) (n c : Nat) (f : Ctx → Ctx) : (s.modCtx n c f).images = s.images := rfl
@[simp] theorem State.modCtx_nextImage (s : State) (n c : Nat) (f : Ctx → Ctx) : (s.modCtx n c f).nextImage = s.nextImage := rfl
@[simp] theorem State.modCtx_sessions (s : State) (n c : Nat) (f : Ctx → Ctx) : (s.modCtx n c f).sessions = s.sessions := rfl
@[simp] theorem State.modCtx_sessionCount (s : State) (n c : Nat) (f : Ctx → Ctx) : (s.modCtx n c f).sessionCount = s.sessionCount := rfl
@[simp] theorem State.modCtx_hostClocks (s : State) (n c : Nat) (f : Ctx → Ctx) : (s.modCtx n c f).hostClocks = s.hostClocks := rfl
@[simp] theorem State.modCtx_hostOpen (s : State) (n c : Nat) (f : Ctx → Ctx) : (s.modCtx n c f).hostOpen = s.hostOpen := rfl
@[simp] theorem State.modCtx_mesh (s : State) (n c : Nat) (f : Ctx → Ctx) : (s.modCtx n c f).mesh = s.mesh := rfl
@[simp] theorem State.modCtx_window (s : State) (n c : Nat) (f : Ctx → Ctx) : (s.modCtx n c f).window = s.window := rfl
@[simp] theorem State.modCtx_backlogged (s : State) (n c : Nat) (f : Ctx → Ctx) : (s.modCtx n c f).backlogged = s.backlogged := rfl
@[simp] theorem State.modCtx_tick (s : State) (n c : Nat) (f : Ctx → Ctx) : (s.modCtx n c f).tick = s.tick := rfl
@[simp] theorem State.modCtx_nextAgent (s : State) (n c : Nat) (f : Ctx → Ctx) : (s.modCtx n c f).nextAgent = s.nextAgent := rfl
@[simp] theorem State.modCtx_nextId (s : State) (n c : Nat) (f : Ctx → Ctx) : (s.modCtx n c f).nextId = s.nextId := rfl
@[simp] theorem State.modCtx_curCore (s : State) (n c : Nat) (f : Ctx → Ctx) : (s.modCtx n c f).curCore = s.curCore := rfl
@[simp] theorem State.modCtx_curCtx (s : State) (n c : Nat) (f : Ctx → Ctx) : (s.modCtx n c f).curCtx = s.curCtx := rfl
@[simp] theorem State.modCtx_event (s : State) (n c : Nat) (f : Ctx → Ctx) : (s.modCtx n c f).event = s.event := rfl
@[simp] theorem State.modCtx_agenda (s : State) (n c : Nat) (f : Ctx → Ctx) : (s.modCtx n c f).agenda = s.agenda := rfl
@[simp] theorem State.modCtx_hostOut (s : State) (n c : Nat) (f : Ctx → Ctx) : (s.modCtx n c f).hostOut = s.hostOut := rfl
@[simp] theorem State.modCtx_podOut (s : State) (n c : Nat) (f : Ctx → Ctx) : (s.modCtx n c f).podOut = s.podOut := rfl
@[simp] theorem State.modCtx_podHeld (s : State) (n c : Nat) (f : Ctx → Ctx) : (s.modCtx n c f).podHeld = s.podHeld := rfl
@[simp] theorem State.modCtx_due (s : State) (n c : Nat) (f : Ctx → Ctx) : (s.modCtx n c f).due = s.due := rfl
@[simp] theorem State.setMe_phase (s : State) (x : Ctx) : (s.setMe x).phase = s.phase := rfl
@[simp] theorem State.setMe_flash (s : State) (x : Ctx) : (s.setMe x).flash = s.flash := rfl
@[simp] theorem State.setMe_panel (s : State) (x : Ctx) : (s.setMe x).panel = s.panel := rfl
@[simp] theorem State.setMe_store (s : State) (x : Ctx) : (s.setMe x).store = s.store := rfl
@[simp] theorem State.setMe_tables (s : State) (x : Ctx) : (s.setMe x).tables = s.tables := rfl
@[simp] theorem State.setMe_optical (s : State) (x : Ctx) : (s.setMe x).optical = s.optical := rfl
@[simp] theorem State.setMe_inj (s : State) (x : Ctx) : (s.setMe x).inj = s.inj := rfl
@[simp] theorem State.setMe_counts (s : State) (x : Ctx) : (s.setMe x).counts = s.counts := rfl
@[simp] theorem State.setMe_tenants (s : State) (x : Ctx) : (s.setMe x).tenants = s.tenants := rfl
@[simp] theorem State.setMe_launches (s : State) (x : Ctx) : (s.setMe x).launches = s.launches := rfl
@[simp] theorem State.setMe_nextLaunch (s : State) (x : Ctx) : (s.setMe x).nextLaunch = s.nextLaunch := rfl
@[simp] theorem State.setMe_submitted (s : State) (x : Ctx) : (s.setMe x).submitted = s.submitted := rfl
@[simp] theorem State.setMe_switch (s : State) (x : Ctx) : (s.setMe x).switch = s.switch := rfl
@[simp] theorem State.setMe_names (s : State) (x : Ctx) : (s.setMe x).names = s.names := rfl
@[simp] theorem State.setMe_images (s : State) (x : Ctx) : (s.setMe x).images = s.images := rfl
@[simp] theorem State.setMe_nextImage (s : State) (x : Ctx) : (s.setMe x).nextImage = s.nextImage := rfl
@[simp] theorem State.setMe_sessions (s : State) (x : Ctx) : (s.setMe x).sessions = s.sessions := rfl
@[simp] theorem State.setMe_sessionCount (s : State) (x : Ctx) : (s.setMe x).sessionCount = s.sessionCount := rfl
@[simp] theorem State.setMe_hostClocks (s : State) (x : Ctx) : (s.setMe x).hostClocks = s.hostClocks := rfl
@[simp] theorem State.setMe_hostOpen (s : State) (x : Ctx) : (s.setMe x).hostOpen = s.hostOpen := rfl
@[simp] theorem State.setMe_mesh (s : State) (x : Ctx) : (s.setMe x).mesh = s.mesh := rfl
@[simp] theorem State.setMe_window (s : State) (x : Ctx) : (s.setMe x).window = s.window := rfl
@[simp] theorem State.setMe_backlogged (s : State) (x : Ctx) : (s.setMe x).backlogged = s.backlogged := rfl
@[simp] theorem State.setMe_tick (s : State) (x : Ctx) : (s.setMe x).tick = s.tick := rfl
@[simp] theorem State.setMe_nextAgent (s : State) (x : Ctx) : (s.setMe x).nextAgent = s.nextAgent := rfl
@[simp] theorem State.setMe_nextId (s : State) (x : Ctx) : (s.setMe x).nextId = s.nextId := rfl
@[simp] theorem State.setMe_curCore (s : State) (x : Ctx) : (s.setMe x).curCore = s.curCore := rfl
@[simp] theorem State.setMe_curCtx (s : State) (x : Ctx) : (s.setMe x).curCtx = s.curCtx := rfl
@[simp] theorem State.setMe_event (s : State) (x : Ctx) : (s.setMe x).event = s.event := rfl
@[simp] theorem State.setMe_agenda (s : State) (x : Ctx) : (s.setMe x).agenda = s.agenda := rfl
@[simp] theorem State.setMe_hostOut (s : State) (x : Ctx) : (s.setMe x).hostOut = s.hostOut := rfl
@[simp] theorem State.setMe_podOut (s : State) (x : Ctx) : (s.setMe x).podOut = s.podOut := rfl
@[simp] theorem State.setMe_podHeld (s : State) (x : Ctx) : (s.setMe x).podHeld = s.podHeld := rfl
@[simp] theorem State.setMe_due (s : State) (x : Ctx) : (s.setMe x).due = s.due := rfl
@[simp] theorem State.modMe_phase (s : State) (f : Ctx → Ctx) : (s.modMe f).phase = s.phase := rfl
@[simp] theorem State.modMe_flash (s : State) (f : Ctx → Ctx) : (s.modMe f).flash = s.flash := rfl
@[simp] theorem State.modMe_panel (s : State) (f : Ctx → Ctx) : (s.modMe f).panel = s.panel := rfl
@[simp] theorem State.modMe_store (s : State) (f : Ctx → Ctx) : (s.modMe f).store = s.store := rfl
@[simp] theorem State.modMe_tables (s : State) (f : Ctx → Ctx) : (s.modMe f).tables = s.tables := rfl
@[simp] theorem State.modMe_optical (s : State) (f : Ctx → Ctx) : (s.modMe f).optical = s.optical := rfl
@[simp] theorem State.modMe_inj (s : State) (f : Ctx → Ctx) : (s.modMe f).inj = s.inj := rfl
@[simp] theorem State.modMe_counts (s : State) (f : Ctx → Ctx) : (s.modMe f).counts = s.counts := rfl
@[simp] theorem State.modMe_tenants (s : State) (f : Ctx → Ctx) : (s.modMe f).tenants = s.tenants := rfl
@[simp] theorem State.modMe_launches (s : State) (f : Ctx → Ctx) : (s.modMe f).launches = s.launches := rfl
@[simp] theorem State.modMe_nextLaunch (s : State) (f : Ctx → Ctx) : (s.modMe f).nextLaunch = s.nextLaunch := rfl
@[simp] theorem State.modMe_submitted (s : State) (f : Ctx → Ctx) : (s.modMe f).submitted = s.submitted := rfl
@[simp] theorem State.modMe_switch (s : State) (f : Ctx → Ctx) : (s.modMe f).switch = s.switch := rfl
@[simp] theorem State.modMe_names (s : State) (f : Ctx → Ctx) : (s.modMe f).names = s.names := rfl
@[simp] theorem State.modMe_images (s : State) (f : Ctx → Ctx) : (s.modMe f).images = s.images := rfl
@[simp] theorem State.modMe_nextImage (s : State) (f : Ctx → Ctx) : (s.modMe f).nextImage = s.nextImage := rfl
@[simp] theorem State.modMe_sessions (s : State) (f : Ctx → Ctx) : (s.modMe f).sessions = s.sessions := rfl
@[simp] theorem State.modMe_sessionCount (s : State) (f : Ctx → Ctx) : (s.modMe f).sessionCount = s.sessionCount := rfl
@[simp] theorem State.modMe_hostClocks (s : State) (f : Ctx → Ctx) : (s.modMe f).hostClocks = s.hostClocks := rfl
@[simp] theorem State.modMe_hostOpen (s : State) (f : Ctx → Ctx) : (s.modMe f).hostOpen = s.hostOpen := rfl
@[simp] theorem State.modMe_mesh (s : State) (f : Ctx → Ctx) : (s.modMe f).mesh = s.mesh := rfl
@[simp] theorem State.modMe_window (s : State) (f : Ctx → Ctx) : (s.modMe f).window = s.window := rfl
@[simp] theorem State.modMe_backlogged (s : State) (f : Ctx → Ctx) : (s.modMe f).backlogged = s.backlogged := rfl
@[simp] theorem State.modMe_tick (s : State) (f : Ctx → Ctx) : (s.modMe f).tick = s.tick := rfl
@[simp] theorem State.modMe_nextAgent (s : State) (f : Ctx → Ctx) : (s.modMe f).nextAgent = s.nextAgent := rfl
@[simp] theorem State.modMe_nextId (s : State) (f : Ctx → Ctx) : (s.modMe f).nextId = s.nextId := rfl
@[simp] theorem State.modMe_curCore (s : State) (f : Ctx → Ctx) : (s.modMe f).curCore = s.curCore := rfl
@[simp] theorem State.modMe_curCtx (s : State) (f : Ctx → Ctx) : (s.modMe f).curCtx = s.curCtx := rfl
@[simp] theorem State.modMe_event (s : State) (f : Ctx → Ctx) : (s.modMe f).event = s.event := rfl
@[simp] theorem State.modMe_agenda (s : State) (f : Ctx → Ctx) : (s.modMe f).agenda = s.agenda := rfl
@[simp] theorem State.modMe_hostOut (s : State) (f : Ctx → Ctx) : (s.modMe f).hostOut = s.hostOut := rfl
@[simp] theorem State.modMe_podOut (s : State) (f : Ctx → Ctx) : (s.modMe f).podOut = s.podOut := rfl
@[simp] theorem State.modMe_podHeld (s : State) (f : Ctx → Ctx) : (s.modMe f).podHeld = s.podHeld := rfl
@[simp] theorem State.modMe_due (s : State) (f : Ctx → Ctx) : (s.modMe f).due = s.due := rfl
@[simp] theorem State.modLaunchGroup_phase (s : State) (n l : Nat) (f : Group → Group) : (s.modLaunchGroup n l f).phase = s.phase := rfl
@[simp] theorem State.modLaunchGroup_flash (s : State) (n l : Nat) (f : Group → Group) : (s.modLaunchGroup n l f).flash = s.flash := rfl
@[simp] theorem State.modLaunchGroup_panel (s : State) (n l : Nat) (f : Group → Group) : (s.modLaunchGroup n l f).panel = s.panel := rfl
@[simp] theorem State.modLaunchGroup_store (s : State) (n l : Nat) (f : Group → Group) : (s.modLaunchGroup n l f).store = s.store := rfl
@[simp] theorem State.modLaunchGroup_tables (s : State) (n l : Nat) (f : Group → Group) : (s.modLaunchGroup n l f).tables = s.tables := rfl
@[simp] theorem State.modLaunchGroup_optical (s : State) (n l : Nat) (f : Group → Group) : (s.modLaunchGroup n l f).optical = s.optical := rfl
@[simp] theorem State.modLaunchGroup_inj (s : State) (n l : Nat) (f : Group → Group) : (s.modLaunchGroup n l f).inj = s.inj := rfl
@[simp] theorem State.modLaunchGroup_counts (s : State) (n l : Nat) (f : Group → Group) : (s.modLaunchGroup n l f).counts = s.counts := rfl
@[simp] theorem State.modLaunchGroup_tenants (s : State) (n l : Nat) (f : Group → Group) : (s.modLaunchGroup n l f).tenants = s.tenants := rfl
@[simp] theorem State.modLaunchGroup_launches (s : State) (n l : Nat) (f : Group → Group) : (s.modLaunchGroup n l f).launches = s.launches := rfl
@[simp] theorem State.modLaunchGroup_nextLaunch (s : State) (n l : Nat) (f : Group → Group) : (s.modLaunchGroup n l f).nextLaunch = s.nextLaunch := rfl
@[simp] theorem State.modLaunchGroup_submitted (s : State) (n l : Nat) (f : Group → Group) : (s.modLaunchGroup n l f).submitted = s.submitted := rfl
@[simp] theorem State.modLaunchGroup_switch (s : State) (n l : Nat) (f : Group → Group) : (s.modLaunchGroup n l f).switch = s.switch := rfl
@[simp] theorem State.modLaunchGroup_names (s : State) (n l : Nat) (f : Group → Group) : (s.modLaunchGroup n l f).names = s.names := rfl
@[simp] theorem State.modLaunchGroup_images (s : State) (n l : Nat) (f : Group → Group) : (s.modLaunchGroup n l f).images = s.images := rfl
@[simp] theorem State.modLaunchGroup_nextImage (s : State) (n l : Nat) (f : Group → Group) : (s.modLaunchGroup n l f).nextImage = s.nextImage := rfl
@[simp] theorem State.modLaunchGroup_sessions (s : State) (n l : Nat) (f : Group → Group) : (s.modLaunchGroup n l f).sessions = s.sessions := rfl
@[simp] theorem State.modLaunchGroup_sessionCount (s : State) (n l : Nat) (f : Group → Group) : (s.modLaunchGroup n l f).sessionCount = s.sessionCount := rfl
@[simp] theorem State.modLaunchGroup_hostClocks (s : State) (n l : Nat) (f : Group → Group) : (s.modLaunchGroup n l f).hostClocks = s.hostClocks := rfl
@[simp] theorem State.modLaunchGroup_hostOpen (s : State) (n l : Nat) (f : Group → Group) : (s.modLaunchGroup n l f).hostOpen = s.hostOpen := rfl
@[simp] theorem State.modLaunchGroup_mesh (s : State) (n l : Nat) (f : Group → Group) : (s.modLaunchGroup n l f).mesh = s.mesh := rfl
@[simp] theorem State.modLaunchGroup_window (s : State) (n l : Nat) (f : Group → Group) : (s.modLaunchGroup n l f).window = s.window := rfl
@[simp] theorem State.modLaunchGroup_backlogged (s : State) (n l : Nat) (f : Group → Group) : (s.modLaunchGroup n l f).backlogged = s.backlogged := rfl
@[simp] theorem State.modLaunchGroup_tick (s : State) (n l : Nat) (f : Group → Group) : (s.modLaunchGroup n l f).tick = s.tick := rfl
@[simp] theorem State.modLaunchGroup_nextAgent (s : State) (n l : Nat) (f : Group → Group) : (s.modLaunchGroup n l f).nextAgent = s.nextAgent := rfl
@[simp] theorem State.modLaunchGroup_nextId (s : State) (n l : Nat) (f : Group → Group) : (s.modLaunchGroup n l f).nextId = s.nextId := rfl
@[simp] theorem State.modLaunchGroup_curCore (s : State) (n l : Nat) (f : Group → Group) : (s.modLaunchGroup n l f).curCore = s.curCore := rfl
@[simp] theorem State.modLaunchGroup_curCtx (s : State) (n l : Nat) (f : Group → Group) : (s.modLaunchGroup n l f).curCtx = s.curCtx := rfl
@[simp] theorem State.modLaunchGroup_event (s : State) (n l : Nat) (f : Group → Group) : (s.modLaunchGroup n l f).event = s.event := rfl
@[simp] theorem State.modLaunchGroup_agenda (s : State) (n l : Nat) (f : Group → Group) : (s.modLaunchGroup n l f).agenda = s.agenda := rfl
@[simp] theorem State.modLaunchGroup_hostOut (s : State) (n l : Nat) (f : Group → Group) : (s.modLaunchGroup n l f).hostOut = s.hostOut := rfl
@[simp] theorem State.modLaunchGroup_podOut (s : State) (n l : Nat) (f : Group → Group) : (s.modLaunchGroup n l f).podOut = s.podOut := rfl
@[simp] theorem State.modLaunchGroup_podHeld (s : State) (n l : Nat) (f : Group → Group) : (s.modLaunchGroup n l f).podHeld = s.podHeld := rfl
@[simp] theorem State.modLaunchGroup_due (s : State) (n l : Nat) (f : Group → Group) : (s.modLaunchGroup n l f).due = s.due := rfl
@[simp] theorem State.addEv_phase (s : State) (n c i k : Nat) : (s.addEv n c i k).phase = s.phase := rfl
@[simp] theorem State.addEv_flash (s : State) (n c i k : Nat) : (s.addEv n c i k).flash = s.flash := rfl
@[simp] theorem State.addEv_panel (s : State) (n c i k : Nat) : (s.addEv n c i k).panel = s.panel := rfl
@[simp] theorem State.addEv_store (s : State) (n c i k : Nat) : (s.addEv n c i k).store = s.store := rfl
@[simp] theorem State.addEv_tables (s : State) (n c i k : Nat) : (s.addEv n c i k).tables = s.tables := rfl
@[simp] theorem State.addEv_optical (s : State) (n c i k : Nat) : (s.addEv n c i k).optical = s.optical := rfl
@[simp] theorem State.addEv_inj (s : State) (n c i k : Nat) : (s.addEv n c i k).inj = s.inj := rfl
@[simp] theorem State.addEv_counts (s : State) (n c i k : Nat) : (s.addEv n c i k).counts = s.counts := rfl
@[simp] theorem State.addEv_tenants (s : State) (n c i k : Nat) : (s.addEv n c i k).tenants = s.tenants := rfl
@[simp] theorem State.addEv_launches (s : State) (n c i k : Nat) : (s.addEv n c i k).launches = s.launches := rfl
@[simp] theorem State.addEv_nextLaunch (s : State) (n c i k : Nat) : (s.addEv n c i k).nextLaunch = s.nextLaunch := rfl
@[simp] theorem State.addEv_submitted (s : State) (n c i k : Nat) : (s.addEv n c i k).submitted = s.submitted := rfl
@[simp] theorem State.addEv_switch (s : State) (n c i k : Nat) : (s.addEv n c i k).switch = s.switch := rfl
@[simp] theorem State.addEv_names (s : State) (n c i k : Nat) : (s.addEv n c i k).names = s.names := rfl
@[simp] theorem State.addEv_images (s : State) (n c i k : Nat) : (s.addEv n c i k).images = s.images := rfl
@[simp] theorem State.addEv_nextImage (s : State) (n c i k : Nat) : (s.addEv n c i k).nextImage = s.nextImage := rfl
@[simp] theorem State.addEv_sessions (s : State) (n c i k : Nat) : (s.addEv n c i k).sessions = s.sessions := rfl
@[simp] theorem State.addEv_sessionCount (s : State) (n c i k : Nat) : (s.addEv n c i k).sessionCount = s.sessionCount := rfl
@[simp] theorem State.addEv_hostClocks (s : State) (n c i k : Nat) : (s.addEv n c i k).hostClocks = s.hostClocks := rfl
@[simp] theorem State.addEv_hostOpen (s : State) (n c i k : Nat) : (s.addEv n c i k).hostOpen = s.hostOpen := rfl
@[simp] theorem State.addEv_mesh (s : State) (n c i k : Nat) : (s.addEv n c i k).mesh = s.mesh := rfl
@[simp] theorem State.addEv_window (s : State) (n c i k : Nat) : (s.addEv n c i k).window = s.window := rfl
@[simp] theorem State.addEv_backlogged (s : State) (n c i k : Nat) : (s.addEv n c i k).backlogged = s.backlogged := rfl
@[simp] theorem State.addEv_tick (s : State) (n c i k : Nat) : (s.addEv n c i k).tick = s.tick := rfl
@[simp] theorem State.addEv_nextAgent (s : State) (n c i k : Nat) : (s.addEv n c i k).nextAgent = s.nextAgent := rfl
@[simp] theorem State.addEv_nextId (s : State) (n c i k : Nat) : (s.addEv n c i k).nextId = s.nextId := rfl
@[simp] theorem State.addEv_curCore (s : State) (n c i k : Nat) : (s.addEv n c i k).curCore = s.curCore := rfl
@[simp] theorem State.addEv_curCtx (s : State) (n c i k : Nat) : (s.addEv n c i k).curCtx = s.curCtx := rfl
@[simp] theorem State.addEv_event (s : State) (n c i k : Nat) : (s.addEv n c i k).event = s.event := rfl
@[simp] theorem State.addEv_agenda (s : State) (n c i k : Nat) : (s.addEv n c i k).agenda = s.agenda := rfl
@[simp] theorem State.addEv_hostOut (s : State) (n c i k : Nat) : (s.addEv n c i k).hostOut = s.hostOut := rfl
@[simp] theorem State.addEv_podOut (s : State) (n c i k : Nat) : (s.addEv n c i k).podOut = s.podOut := rfl
@[simp] theorem State.addEv_podHeld (s : State) (n c i k : Nat) : (s.addEv n c i k).podHeld = s.podHeld := rfl
@[simp] theorem State.addEv_due (s : State) (n c i k : Nat) : (s.addEv n c i k).due = s.due := rfl
@[simp] theorem State.eventOf_phase (s : State) (w : Who) (i k : Nat) : (s.eventOf w i k).phase = s.phase := rfl
@[simp] theorem State.eventOf_flash (s : State) (w : Who) (i k : Nat) : (s.eventOf w i k).flash = s.flash := rfl
@[simp] theorem State.eventOf_panel (s : State) (w : Who) (i k : Nat) : (s.eventOf w i k).panel = s.panel := rfl
@[simp] theorem State.eventOf_store (s : State) (w : Who) (i k : Nat) : (s.eventOf w i k).store = s.store := rfl
@[simp] theorem State.eventOf_tables (s : State) (w : Who) (i k : Nat) : (s.eventOf w i k).tables = s.tables := rfl
@[simp] theorem State.eventOf_optical (s : State) (w : Who) (i k : Nat) : (s.eventOf w i k).optical = s.optical := rfl
@[simp] theorem State.eventOf_inj (s : State) (w : Who) (i k : Nat) : (s.eventOf w i k).inj = s.inj := rfl
@[simp] theorem State.eventOf_counts (s : State) (w : Who) (i k : Nat) : (s.eventOf w i k).counts = s.counts := rfl
@[simp] theorem State.eventOf_tenants (s : State) (w : Who) (i k : Nat) : (s.eventOf w i k).tenants = s.tenants := rfl
@[simp] theorem State.eventOf_launches (s : State) (w : Who) (i k : Nat) : (s.eventOf w i k).launches = s.launches := rfl
@[simp] theorem State.eventOf_nextLaunch (s : State) (w : Who) (i k : Nat) : (s.eventOf w i k).nextLaunch = s.nextLaunch := rfl
@[simp] theorem State.eventOf_submitted (s : State) (w : Who) (i k : Nat) : (s.eventOf w i k).submitted = s.submitted := rfl
@[simp] theorem State.eventOf_switch (s : State) (w : Who) (i k : Nat) : (s.eventOf w i k).switch = s.switch := rfl
@[simp] theorem State.eventOf_names (s : State) (w : Who) (i k : Nat) : (s.eventOf w i k).names = s.names := rfl
@[simp] theorem State.eventOf_images (s : State) (w : Who) (i k : Nat) : (s.eventOf w i k).images = s.images := rfl
@[simp] theorem State.eventOf_nextImage (s : State) (w : Who) (i k : Nat) : (s.eventOf w i k).nextImage = s.nextImage := rfl
@[simp] theorem State.eventOf_sessions (s : State) (w : Who) (i k : Nat) : (s.eventOf w i k).sessions = s.sessions := rfl
@[simp] theorem State.eventOf_sessionCount (s : State) (w : Who) (i k : Nat) : (s.eventOf w i k).sessionCount = s.sessionCount := rfl
@[simp] theorem State.eventOf_hostClocks (s : State) (w : Who) (i k : Nat) : (s.eventOf w i k).hostClocks = s.hostClocks := rfl
@[simp] theorem State.eventOf_hostOpen (s : State) (w : Who) (i k : Nat) : (s.eventOf w i k).hostOpen = s.hostOpen := rfl
@[simp] theorem State.eventOf_mesh (s : State) (w : Who) (i k : Nat) : (s.eventOf w i k).mesh = s.mesh := rfl
@[simp] theorem State.eventOf_window (s : State) (w : Who) (i k : Nat) : (s.eventOf w i k).window = s.window := rfl
@[simp] theorem State.eventOf_backlogged (s : State) (w : Who) (i k : Nat) : (s.eventOf w i k).backlogged = s.backlogged := rfl
@[simp] theorem State.eventOf_tick (s : State) (w : Who) (i k : Nat) : (s.eventOf w i k).tick = s.tick := rfl
@[simp] theorem State.eventOf_nextAgent (s : State) (w : Who) (i k : Nat) : (s.eventOf w i k).nextAgent = s.nextAgent := rfl
@[simp] theorem State.eventOf_nextId (s : State) (w : Who) (i k : Nat) : (s.eventOf w i k).nextId = s.nextId := rfl
@[simp] theorem State.eventOf_curCore (s : State) (w : Who) (i k : Nat) : (s.eventOf w i k).curCore = s.curCore := rfl
@[simp] theorem State.eventOf_curCtx (s : State) (w : Who) (i k : Nat) : (s.eventOf w i k).curCtx = s.curCtx := rfl
@[simp] theorem State.eventOf_event (s : State) (w : Who) (i k : Nat) : (s.eventOf w i k).event = s.event := rfl
@[simp] theorem State.eventOf_agenda (s : State) (w : Who) (i k : Nat) : (s.eventOf w i k).agenda = s.agenda := rfl
@[simp] theorem State.eventOf_hostOut (s : State) (w : Who) (i k : Nat) : (s.eventOf w i k).hostOut = s.hostOut := rfl
@[simp] theorem State.eventOf_podOut (s : State) (w : Who) (i k : Nat) : (s.eventOf w i k).podOut = s.podOut := rfl
@[simp] theorem State.eventOf_podHeld (s : State) (w : Who) (i k : Nat) : (s.eventOf w i k).podHeld = s.podHeld := rfl
@[simp] theorem State.eventOf_due (s : State) (w : Who) (i k : Nat) : (s.eventOf w i k).due = s.due := rfl
@[simp] theorem State.modLaunch_phase (s : State) (n : Nat) (f : Launch → Launch) : (s.modLaunch n f).phase = s.phase := rfl
@[simp] theorem State.modLaunch_flash (s : State) (n : Nat) (f : Launch → Launch) : (s.modLaunch n f).flash = s.flash := rfl
@[simp] theorem State.modLaunch_panel (s : State) (n : Nat) (f : Launch → Launch) : (s.modLaunch n f).panel = s.panel := rfl
@[simp] theorem State.modLaunch_cores (s : State) (n : Nat) (f : Launch → Launch) : (s.modLaunch n f).cores = s.cores := rfl
@[simp] theorem State.modLaunch_store (s : State) (n : Nat) (f : Launch → Launch) : (s.modLaunch n f).store = s.store := rfl
@[simp] theorem State.modLaunch_tables (s : State) (n : Nat) (f : Launch → Launch) : (s.modLaunch n f).tables = s.tables := rfl
@[simp] theorem State.modLaunch_optical (s : State) (n : Nat) (f : Launch → Launch) : (s.modLaunch n f).optical = s.optical := rfl
@[simp] theorem State.modLaunch_inj (s : State) (n : Nat) (f : Launch → Launch) : (s.modLaunch n f).inj = s.inj := rfl
@[simp] theorem State.modLaunch_counts (s : State) (n : Nat) (f : Launch → Launch) : (s.modLaunch n f).counts = s.counts := rfl
@[simp] theorem State.modLaunch_tenants (s : State) (n : Nat) (f : Launch → Launch) : (s.modLaunch n f).tenants = s.tenants := rfl
@[simp] theorem State.modLaunch_nextLaunch (s : State) (n : Nat) (f : Launch → Launch) : (s.modLaunch n f).nextLaunch = s.nextLaunch := rfl
@[simp] theorem State.modLaunch_submitted (s : State) (n : Nat) (f : Launch → Launch) : (s.modLaunch n f).submitted = s.submitted := rfl
@[simp] theorem State.modLaunch_switch (s : State) (n : Nat) (f : Launch → Launch) : (s.modLaunch n f).switch = s.switch := rfl
@[simp] theorem State.modLaunch_names (s : State) (n : Nat) (f : Launch → Launch) : (s.modLaunch n f).names = s.names := rfl
@[simp] theorem State.modLaunch_images (s : State) (n : Nat) (f : Launch → Launch) : (s.modLaunch n f).images = s.images := rfl
@[simp] theorem State.modLaunch_nextImage (s : State) (n : Nat) (f : Launch → Launch) : (s.modLaunch n f).nextImage = s.nextImage := rfl
@[simp] theorem State.modLaunch_sessions (s : State) (n : Nat) (f : Launch → Launch) : (s.modLaunch n f).sessions = s.sessions := rfl
@[simp] theorem State.modLaunch_sessionCount (s : State) (n : Nat) (f : Launch → Launch) : (s.modLaunch n f).sessionCount = s.sessionCount := rfl
@[simp] theorem State.modLaunch_hostClocks (s : State) (n : Nat) (f : Launch → Launch) : (s.modLaunch n f).hostClocks = s.hostClocks := rfl
@[simp] theorem State.modLaunch_hostOpen (s : State) (n : Nat) (f : Launch → Launch) : (s.modLaunch n f).hostOpen = s.hostOpen := rfl
@[simp] theorem State.modLaunch_mesh (s : State) (n : Nat) (f : Launch → Launch) : (s.modLaunch n f).mesh = s.mesh := rfl
@[simp] theorem State.modLaunch_window (s : State) (n : Nat) (f : Launch → Launch) : (s.modLaunch n f).window = s.window := rfl
@[simp] theorem State.modLaunch_backlogged (s : State) (n : Nat) (f : Launch → Launch) : (s.modLaunch n f).backlogged = s.backlogged := rfl
@[simp] theorem State.modLaunch_tick (s : State) (n : Nat) (f : Launch → Launch) : (s.modLaunch n f).tick = s.tick := rfl
@[simp] theorem State.modLaunch_nextAgent (s : State) (n : Nat) (f : Launch → Launch) : (s.modLaunch n f).nextAgent = s.nextAgent := rfl
@[simp] theorem State.modLaunch_nextId (s : State) (n : Nat) (f : Launch → Launch) : (s.modLaunch n f).nextId = s.nextId := rfl
@[simp] theorem State.modLaunch_curCore (s : State) (n : Nat) (f : Launch → Launch) : (s.modLaunch n f).curCore = s.curCore := rfl
@[simp] theorem State.modLaunch_curCtx (s : State) (n : Nat) (f : Launch → Launch) : (s.modLaunch n f).curCtx = s.curCtx := rfl
@[simp] theorem State.modLaunch_event (s : State) (n : Nat) (f : Launch → Launch) : (s.modLaunch n f).event = s.event := rfl
@[simp] theorem State.modLaunch_agenda (s : State) (n : Nat) (f : Launch → Launch) : (s.modLaunch n f).agenda = s.agenda := rfl
@[simp] theorem State.modLaunch_hostOut (s : State) (n : Nat) (f : Launch → Launch) : (s.modLaunch n f).hostOut = s.hostOut := rfl
@[simp] theorem State.modLaunch_podOut (s : State) (n : Nat) (f : Launch → Launch) : (s.modLaunch n f).podOut = s.podOut := rfl
@[simp] theorem State.modLaunch_podHeld (s : State) (n : Nat) (f : Launch → Launch) : (s.modLaunch n f).podHeld = s.podHeld := rfl
@[simp] theorem State.modLaunch_due (s : State) (n : Nat) (f : Launch → Launch) : (s.modLaunch n f).due = s.due := rfl
@[simp] theorem State.modTenant_phase (s : State) (n : Nat) (f : Tenant → Tenant) : (s.modTenant n f).phase = s.phase := rfl
@[simp] theorem State.modTenant_flash (s : State) (n : Nat) (f : Tenant → Tenant) : (s.modTenant n f).flash = s.flash := rfl
@[simp] theorem State.modTenant_panel (s : State) (n : Nat) (f : Tenant → Tenant) : (s.modTenant n f).panel = s.panel := rfl
@[simp] theorem State.modTenant_cores (s : State) (n : Nat) (f : Tenant → Tenant) : (s.modTenant n f).cores = s.cores := rfl
@[simp] theorem State.modTenant_store (s : State) (n : Nat) (f : Tenant → Tenant) : (s.modTenant n f).store = s.store := rfl
@[simp] theorem State.modTenant_tables (s : State) (n : Nat) (f : Tenant → Tenant) : (s.modTenant n f).tables = s.tables := rfl
@[simp] theorem State.modTenant_optical (s : State) (n : Nat) (f : Tenant → Tenant) : (s.modTenant n f).optical = s.optical := rfl
@[simp] theorem State.modTenant_inj (s : State) (n : Nat) (f : Tenant → Tenant) : (s.modTenant n f).inj = s.inj := rfl
@[simp] theorem State.modTenant_counts (s : State) (n : Nat) (f : Tenant → Tenant) : (s.modTenant n f).counts = s.counts := rfl
@[simp] theorem State.modTenant_launches (s : State) (n : Nat) (f : Tenant → Tenant) : (s.modTenant n f).launches = s.launches := rfl
@[simp] theorem State.modTenant_nextLaunch (s : State) (n : Nat) (f : Tenant → Tenant) : (s.modTenant n f).nextLaunch = s.nextLaunch := rfl
@[simp] theorem State.modTenant_submitted (s : State) (n : Nat) (f : Tenant → Tenant) : (s.modTenant n f).submitted = s.submitted := rfl
@[simp] theorem State.modTenant_switch (s : State) (n : Nat) (f : Tenant → Tenant) : (s.modTenant n f).switch = s.switch := rfl
@[simp] theorem State.modTenant_names (s : State) (n : Nat) (f : Tenant → Tenant) : (s.modTenant n f).names = s.names := rfl
@[simp] theorem State.modTenant_images (s : State) (n : Nat) (f : Tenant → Tenant) : (s.modTenant n f).images = s.images := rfl
@[simp] theorem State.modTenant_nextImage (s : State) (n : Nat) (f : Tenant → Tenant) : (s.modTenant n f).nextImage = s.nextImage := rfl
@[simp] theorem State.modTenant_sessions (s : State) (n : Nat) (f : Tenant → Tenant) : (s.modTenant n f).sessions = s.sessions := rfl
@[simp] theorem State.modTenant_sessionCount (s : State) (n : Nat) (f : Tenant → Tenant) : (s.modTenant n f).sessionCount = s.sessionCount := rfl
@[simp] theorem State.modTenant_hostClocks (s : State) (n : Nat) (f : Tenant → Tenant) : (s.modTenant n f).hostClocks = s.hostClocks := rfl
@[simp] theorem State.modTenant_hostOpen (s : State) (n : Nat) (f : Tenant → Tenant) : (s.modTenant n f).hostOpen = s.hostOpen := rfl
@[simp] theorem State.modTenant_mesh (s : State) (n : Nat) (f : Tenant → Tenant) : (s.modTenant n f).mesh = s.mesh := rfl
@[simp] theorem State.modTenant_window (s : State) (n : Nat) (f : Tenant → Tenant) : (s.modTenant n f).window = s.window := rfl
@[simp] theorem State.modTenant_backlogged (s : State) (n : Nat) (f : Tenant → Tenant) : (s.modTenant n f).backlogged = s.backlogged := rfl
@[simp] theorem State.modTenant_tick (s : State) (n : Nat) (f : Tenant → Tenant) : (s.modTenant n f).tick = s.tick := rfl
@[simp] theorem State.modTenant_nextAgent (s : State) (n : Nat) (f : Tenant → Tenant) : (s.modTenant n f).nextAgent = s.nextAgent := rfl
@[simp] theorem State.modTenant_nextId (s : State) (n : Nat) (f : Tenant → Tenant) : (s.modTenant n f).nextId = s.nextId := rfl
@[simp] theorem State.modTenant_curCore (s : State) (n : Nat) (f : Tenant → Tenant) : (s.modTenant n f).curCore = s.curCore := rfl
@[simp] theorem State.modTenant_curCtx (s : State) (n : Nat) (f : Tenant → Tenant) : (s.modTenant n f).curCtx = s.curCtx := rfl
@[simp] theorem State.modTenant_event (s : State) (n : Nat) (f : Tenant → Tenant) : (s.modTenant n f).event = s.event := rfl
@[simp] theorem State.modTenant_agenda (s : State) (n : Nat) (f : Tenant → Tenant) : (s.modTenant n f).agenda = s.agenda := rfl
@[simp] theorem State.modTenant_hostOut (s : State) (n : Nat) (f : Tenant → Tenant) : (s.modTenant n f).hostOut = s.hostOut := rfl
@[simp] theorem State.modTenant_podOut (s : State) (n : Nat) (f : Tenant → Tenant) : (s.modTenant n f).podOut = s.podOut := rfl
@[simp] theorem State.modTenant_podHeld (s : State) (n : Nat) (f : Tenant → Tenant) : (s.modTenant n f).podHeld = s.podHeld := rfl
@[simp] theorem State.modTenant_due (s : State) (n : Nat) (f : Tenant → Tenant) : (s.modTenant n f).due = s.due := rfl
@[simp] theorem State.meter_phase (s : State) (n i k : Nat) : (s.meter n i k).phase = s.phase := rfl
@[simp] theorem State.meter_flash (s : State) (n i k : Nat) : (s.meter n i k).flash = s.flash := rfl
@[simp] theorem State.meter_panel (s : State) (n i k : Nat) : (s.meter n i k).panel = s.panel := rfl
@[simp] theorem State.meter_cores (s : State) (n i k : Nat) : (s.meter n i k).cores = s.cores := rfl
@[simp] theorem State.meter_store (s : State) (n i k : Nat) : (s.meter n i k).store = s.store := rfl
@[simp] theorem State.meter_tables (s : State) (n i k : Nat) : (s.meter n i k).tables = s.tables := rfl
@[simp] theorem State.meter_optical (s : State) (n i k : Nat) : (s.meter n i k).optical = s.optical := rfl
@[simp] theorem State.meter_inj (s : State) (n i k : Nat) : (s.meter n i k).inj = s.inj := rfl
@[simp] theorem State.meter_counts (s : State) (n i k : Nat) : (s.meter n i k).counts = s.counts := rfl
@[simp] theorem State.meter_launches (s : State) (n i k : Nat) : (s.meter n i k).launches = s.launches := rfl
@[simp] theorem State.meter_nextLaunch (s : State) (n i k : Nat) : (s.meter n i k).nextLaunch = s.nextLaunch := rfl
@[simp] theorem State.meter_submitted (s : State) (n i k : Nat) : (s.meter n i k).submitted = s.submitted := rfl
@[simp] theorem State.meter_switch (s : State) (n i k : Nat) : (s.meter n i k).switch = s.switch := rfl
@[simp] theorem State.meter_names (s : State) (n i k : Nat) : (s.meter n i k).names = s.names := rfl
@[simp] theorem State.meter_images (s : State) (n i k : Nat) : (s.meter n i k).images = s.images := rfl
@[simp] theorem State.meter_nextImage (s : State) (n i k : Nat) : (s.meter n i k).nextImage = s.nextImage := rfl
@[simp] theorem State.meter_sessions (s : State) (n i k : Nat) : (s.meter n i k).sessions = s.sessions := rfl
@[simp] theorem State.meter_sessionCount (s : State) (n i k : Nat) : (s.meter n i k).sessionCount = s.sessionCount := rfl
@[simp] theorem State.meter_hostClocks (s : State) (n i k : Nat) : (s.meter n i k).hostClocks = s.hostClocks := rfl
@[simp] theorem State.meter_hostOpen (s : State) (n i k : Nat) : (s.meter n i k).hostOpen = s.hostOpen := rfl
@[simp] theorem State.meter_mesh (s : State) (n i k : Nat) : (s.meter n i k).mesh = s.mesh := rfl
@[simp] theorem State.meter_window (s : State) (n i k : Nat) : (s.meter n i k).window = s.window := rfl
@[simp] theorem State.meter_backlogged (s : State) (n i k : Nat) : (s.meter n i k).backlogged = s.backlogged := rfl
@[simp] theorem State.meter_tick (s : State) (n i k : Nat) : (s.meter n i k).tick = s.tick := rfl
@[simp] theorem State.meter_nextAgent (s : State) (n i k : Nat) : (s.meter n i k).nextAgent = s.nextAgent := rfl
@[simp] theorem State.meter_nextId (s : State) (n i k : Nat) : (s.meter n i k).nextId = s.nextId := rfl
@[simp] theorem State.meter_curCore (s : State) (n i k : Nat) : (s.meter n i k).curCore = s.curCore := rfl
@[simp] theorem State.meter_curCtx (s : State) (n i k : Nat) : (s.meter n i k).curCtx = s.curCtx := rfl
@[simp] theorem State.meter_event (s : State) (n i k : Nat) : (s.meter n i k).event = s.event := rfl
@[simp] theorem State.meter_agenda (s : State) (n i k : Nat) : (s.meter n i k).agenda = s.agenda := rfl
@[simp] theorem State.meter_hostOut (s : State) (n i k : Nat) : (s.meter n i k).hostOut = s.hostOut := rfl
@[simp] theorem State.meter_podOut (s : State) (n i k : Nat) : (s.meter n i k).podOut = s.podOut := rfl
@[simp] theorem State.meter_podHeld (s : State) (n i k : Nat) : (s.meter n i k).podHeld = s.podHeld := rfl
@[simp] theorem State.meter_due (s : State) (n i k : Nat) : (s.meter n i k).due = s.due := rfl
@[simp] theorem State.bump_phase (s : State) (k : Count) : (s.bump k).phase = s.phase := rfl
@[simp] theorem State.bump_flash (s : State) (k : Count) : (s.bump k).flash = s.flash := rfl
@[simp] theorem State.bump_panel (s : State) (k : Count) : (s.bump k).panel = s.panel := rfl
@[simp] theorem State.bump_cores (s : State) (k : Count) : (s.bump k).cores = s.cores := rfl
@[simp] theorem State.bump_store (s : State) (k : Count) : (s.bump k).store = s.store := rfl
@[simp] theorem State.bump_tables (s : State) (k : Count) : (s.bump k).tables = s.tables := rfl
@[simp] theorem State.bump_optical (s : State) (k : Count) : (s.bump k).optical = s.optical := rfl
@[simp] theorem State.bump_inj (s : State) (k : Count) : (s.bump k).inj = s.inj := rfl
@[simp] theorem State.bump_tenants (s : State) (k : Count) : (s.bump k).tenants = s.tenants := rfl
@[simp] theorem State.bump_launches (s : State) (k : Count) : (s.bump k).launches = s.launches := rfl
@[simp] theorem State.bump_nextLaunch (s : State) (k : Count) : (s.bump k).nextLaunch = s.nextLaunch := rfl
@[simp] theorem State.bump_submitted (s : State) (k : Count) : (s.bump k).submitted = s.submitted := rfl
@[simp] theorem State.bump_switch (s : State) (k : Count) : (s.bump k).switch = s.switch := rfl
@[simp] theorem State.bump_names (s : State) (k : Count) : (s.bump k).names = s.names := rfl
@[simp] theorem State.bump_images (s : State) (k : Count) : (s.bump k).images = s.images := rfl
@[simp] theorem State.bump_nextImage (s : State) (k : Count) : (s.bump k).nextImage = s.nextImage := rfl
@[simp] theorem State.bump_sessions (s : State) (k : Count) : (s.bump k).sessions = s.sessions := rfl
@[simp] theorem State.bump_sessionCount (s : State) (k : Count) : (s.bump k).sessionCount = s.sessionCount := rfl
@[simp] theorem State.bump_hostClocks (s : State) (k : Count) : (s.bump k).hostClocks = s.hostClocks := rfl
@[simp] theorem State.bump_hostOpen (s : State) (k : Count) : (s.bump k).hostOpen = s.hostOpen := rfl
@[simp] theorem State.bump_mesh (s : State) (k : Count) : (s.bump k).mesh = s.mesh := rfl
@[simp] theorem State.bump_window (s : State) (k : Count) : (s.bump k).window = s.window := rfl
@[simp] theorem State.bump_backlogged (s : State) (k : Count) : (s.bump k).backlogged = s.backlogged := rfl
@[simp] theorem State.bump_tick (s : State) (k : Count) : (s.bump k).tick = s.tick := rfl
@[simp] theorem State.bump_nextAgent (s : State) (k : Count) : (s.bump k).nextAgent = s.nextAgent := rfl
@[simp] theorem State.bump_nextId (s : State) (k : Count) : (s.bump k).nextId = s.nextId := rfl
@[simp] theorem State.bump_curCore (s : State) (k : Count) : (s.bump k).curCore = s.curCore := rfl
@[simp] theorem State.bump_curCtx (s : State) (k : Count) : (s.bump k).curCtx = s.curCtx := rfl
@[simp] theorem State.bump_event (s : State) (k : Count) : (s.bump k).event = s.event := rfl
@[simp] theorem State.bump_agenda (s : State) (k : Count) : (s.bump k).agenda = s.agenda := rfl
@[simp] theorem State.bump_hostOut (s : State) (k : Count) : (s.bump k).hostOut = s.hostOut := rfl
@[simp] theorem State.bump_podOut (s : State) (k : Count) : (s.bump k).podOut = s.podOut := rfl
@[simp] theorem State.bump_podHeld (s : State) (k : Count) : (s.bump k).podHeld = s.podHeld := rfl
@[simp] theorem State.bump_due (s : State) (k : Count) : (s.bump k).due = s.due := rfl
@[simp] theorem State.post_phase (s : State) (e : Event) : (s.post e).phase = s.phase := rfl
@[simp] theorem State.post_flash (s : State) (e : Event) : (s.post e).flash = s.flash := rfl
@[simp] theorem State.post_panel (s : State) (e : Event) : (s.post e).panel = s.panel := rfl
@[simp] theorem State.post_cores (s : State) (e : Event) : (s.post e).cores = s.cores := rfl
@[simp] theorem State.post_store (s : State) (e : Event) : (s.post e).store = s.store := rfl
@[simp] theorem State.post_tables (s : State) (e : Event) : (s.post e).tables = s.tables := rfl
@[simp] theorem State.post_optical (s : State) (e : Event) : (s.post e).optical = s.optical := rfl
@[simp] theorem State.post_inj (s : State) (e : Event) : (s.post e).inj = s.inj := rfl
@[simp] theorem State.post_counts (s : State) (e : Event) : (s.post e).counts = s.counts := rfl
@[simp] theorem State.post_tenants (s : State) (e : Event) : (s.post e).tenants = s.tenants := rfl
@[simp] theorem State.post_launches (s : State) (e : Event) : (s.post e).launches = s.launches := rfl
@[simp] theorem State.post_nextLaunch (s : State) (e : Event) : (s.post e).nextLaunch = s.nextLaunch := rfl
@[simp] theorem State.post_submitted (s : State) (e : Event) : (s.post e).submitted = s.submitted := rfl
@[simp] theorem State.post_switch (s : State) (e : Event) : (s.post e).switch = s.switch := rfl
@[simp] theorem State.post_names (s : State) (e : Event) : (s.post e).names = s.names := rfl
@[simp] theorem State.post_images (s : State) (e : Event) : (s.post e).images = s.images := rfl
@[simp] theorem State.post_nextImage (s : State) (e : Event) : (s.post e).nextImage = s.nextImage := rfl
@[simp] theorem State.post_sessions (s : State) (e : Event) : (s.post e).sessions = s.sessions := rfl
@[simp] theorem State.post_sessionCount (s : State) (e : Event) : (s.post e).sessionCount = s.sessionCount := rfl
@[simp] theorem State.post_hostClocks (s : State) (e : Event) : (s.post e).hostClocks = s.hostClocks := rfl
@[simp] theorem State.post_hostOpen (s : State) (e : Event) : (s.post e).hostOpen = s.hostOpen := rfl
@[simp] theorem State.post_mesh (s : State) (e : Event) : (s.post e).mesh = s.mesh := rfl
@[simp] theorem State.post_window (s : State) (e : Event) : (s.post e).window = s.window := rfl
@[simp] theorem State.post_backlogged (s : State) (e : Event) : (s.post e).backlogged = s.backlogged := rfl
@[simp] theorem State.post_tick (s : State) (e : Event) : (s.post e).tick = s.tick := rfl
@[simp] theorem State.post_nextAgent (s : State) (e : Event) : (s.post e).nextAgent = s.nextAgent := rfl
@[simp] theorem State.post_nextId (s : State) (e : Event) : (s.post e).nextId = s.nextId := rfl
@[simp] theorem State.post_curCore (s : State) (e : Event) : (s.post e).curCore = s.curCore := rfl
@[simp] theorem State.post_curCtx (s : State) (e : Event) : (s.post e).curCtx = s.curCtx := rfl
@[simp] theorem State.post_event (s : State) (e : Event) : (s.post e).event = s.event := rfl
@[simp] theorem State.post_hostOut (s : State) (e : Event) : (s.post e).hostOut = s.hostOut := rfl
@[simp] theorem State.post_podOut (s : State) (e : Event) : (s.post e).podOut = s.podOut := rfl
@[simp] theorem State.post_podHeld (s : State) (e : Event) : (s.post e).podHeld = s.podHeld := rfl
@[simp] theorem State.post_due (s : State) (e : Event) : (s.post e).due = s.due := rfl
@[simp] theorem State.ticked_phase (s : State) : (s.ticked).phase = s.phase := rfl
@[simp] theorem State.ticked_flash (s : State) : (s.ticked).flash = s.flash := rfl
@[simp] theorem State.ticked_panel (s : State) : (s.ticked).panel = s.panel := rfl
@[simp] theorem State.ticked_cores (s : State) : (s.ticked).cores = s.cores := rfl
@[simp] theorem State.ticked_store (s : State) : (s.ticked).store = s.store := rfl
@[simp] theorem State.ticked_tables (s : State) : (s.ticked).tables = s.tables := rfl
@[simp] theorem State.ticked_optical (s : State) : (s.ticked).optical = s.optical := rfl
@[simp] theorem State.ticked_inj (s : State) : (s.ticked).inj = s.inj := rfl
@[simp] theorem State.ticked_counts (s : State) : (s.ticked).counts = s.counts := rfl
@[simp] theorem State.ticked_tenants (s : State) : (s.ticked).tenants = s.tenants := rfl
@[simp] theorem State.ticked_launches (s : State) : (s.ticked).launches = s.launches := rfl
@[simp] theorem State.ticked_nextLaunch (s : State) : (s.ticked).nextLaunch = s.nextLaunch := rfl
@[simp] theorem State.ticked_submitted (s : State) : (s.ticked).submitted = s.submitted := rfl
@[simp] theorem State.ticked_switch (s : State) : (s.ticked).switch = s.switch := rfl
@[simp] theorem State.ticked_names (s : State) : (s.ticked).names = s.names := rfl
@[simp] theorem State.ticked_images (s : State) : (s.ticked).images = s.images := rfl
@[simp] theorem State.ticked_nextImage (s : State) : (s.ticked).nextImage = s.nextImage := rfl
@[simp] theorem State.ticked_sessions (s : State) : (s.ticked).sessions = s.sessions := rfl
@[simp] theorem State.ticked_sessionCount (s : State) : (s.ticked).sessionCount = s.sessionCount := rfl
@[simp] theorem State.ticked_hostClocks (s : State) : (s.ticked).hostClocks = s.hostClocks := rfl
@[simp] theorem State.ticked_hostOpen (s : State) : (s.ticked).hostOpen = s.hostOpen := rfl
@[simp] theorem State.ticked_mesh (s : State) : (s.ticked).mesh = s.mesh := rfl
@[simp] theorem State.ticked_window (s : State) : (s.ticked).window = s.window := rfl
@[simp] theorem State.ticked_backlogged (s : State) : (s.ticked).backlogged = s.backlogged := rfl
@[simp] theorem State.ticked_nextAgent (s : State) : (s.ticked).nextAgent = s.nextAgent := rfl
@[simp] theorem State.ticked_nextId (s : State) : (s.ticked).nextId = s.nextId := rfl
@[simp] theorem State.ticked_curCore (s : State) : (s.ticked).curCore = s.curCore := rfl
@[simp] theorem State.ticked_curCtx (s : State) : (s.ticked).curCtx = s.curCtx := rfl
@[simp] theorem State.ticked_event (s : State) : (s.ticked).event = s.event := rfl
@[simp] theorem State.ticked_agenda (s : State) : (s.ticked).agenda = s.agenda := rfl
@[simp] theorem State.ticked_hostOut (s : State) : (s.ticked).hostOut = s.hostOut := rfl
@[simp] theorem State.ticked_podOut (s : State) : (s.ticked).podOut = s.podOut := rfl
@[simp] theorem State.ticked_podHeld (s : State) : (s.ticked).podHeld = s.podHeld := rfl
@[simp] theorem State.ticked_due (s : State) : (s.ticked).due = s.due := rfl

/-! ## Contexts -/

@[simp] theorem Ctx.setV_status (c : Ctx) (r : VReg) (v : Line) : (c.setV r v).status = c.status := rfl
@[simp] theorem Ctx.setV_pc (c : Ctx) (r : VReg) (v : Line) : (c.setV r v).pc = c.pc := rfl
@[simp] theorem Ctx.setV_low (c : Ctx) (r : VReg) (v : Line) : (c.setV r v).low = c.low := rfl
@[simp] theorem Ctx.setV_stack (c : Ctx) (r : VReg) (v : Line) : (c.setV r v).stack = c.stack := rfl
@[simp] theorem Ctx.setV_wb (c : Ctx) (r : VReg) (v : Line) : (c.setV r v).wb = c.wb := rfl
@[simp] theorem Ctx.setV_lo (c : Ctx) (r : VReg) (v : Line) : (c.setV r v).lo = c.lo := rfl
@[simp] theorem Ctx.setV_holds (c : Ctx) (r : VReg) (v : Line) : (c.setV r v).holds = c.holds := rfl
@[simp] theorem Ctx.setV_m (c : Ctx) (r : VReg) (v : Line) : (c.setV r v).m = c.m := rfl
@[simp] theorem Ctx.setV_ports (c : Ctx) (r : VReg) (v : Line) : (c.setV r v).ports = c.ports := rfl
@[simp] theorem Ctx.setV_rng (c : Ctx) (r : VReg) (v : Line) : (c.setV r v).rng = c.rng := rfl
@[simp] theorem Ctx.setV_priv (c : Ctx) (r : VReg) (v : Line) : (c.setV r v).priv = c.priv := rfl
@[simp] theorem Ctx.setV_cause (c : Ctx) (r : VReg) (v : Line) : (c.setV r v).cause = c.cause := rfl
@[simp] theorem Ctx.setV_epc (c : Ctx) (r : VReg) (v : Line) : (c.setV r v).epc = c.epc := rfl
@[simp] theorem Ctx.setV_tval (c : Ctx) (r : VReg) (v : Line) : (c.setV r v).tval = c.tval := rfl
@[simp] theorem Ctx.setV_tscr (c : Ctx) (r : VReg) (v : Line) : (c.setV r v).tscr = c.tscr := rfl
@[simp] theorem Ctx.setV_ev (c : Ctx) (r : VReg) (v : Line) : (c.setV r v).ev = c.ev := rfl
@[simp] theorem Ctx.setV_token (c : Ctx) (r : VReg) (v : Line) : (c.setV r v).token = c.token := rfl
@[simp] theorem Ctx.setV_tokenRel (c : Ctx) (r : VReg) (v : Line) : (c.setV r v).tokenRel = c.tokenRel := rfl
@[simp] theorem Ctx.setV_met (c : Ctx) (r : VReg) (v : Line) : (c.setV r v).met = c.met := rfl
@[simp] theorem Ctx.setV_exitVal (c : Ctx) (r : VReg) (v : Line) : (c.setV r v).exitVal = c.exitVal := rfl
@[simp] theorem Ctx.setV_exitRel (c : Ctx) (r : VReg) (v : Line) : (c.setV r v).exitRel = c.exitRel := rfl
@[simp] theorem Ctx.setV_follow (c : Ctx) (r : VReg) (v : Line) : (c.setV r v).follow = c.follow := rfl
@[simp] theorem Ctx.setV_task (c : Ctx) (r : VReg) (v : Line) : (c.setV r v).task = c.task := rfl
@[simp] theorem Ctx.setV_childOf (c : Ctx) (r : VReg) (v : Line) : (c.setV r v).childOf = c.childOf := rfl
@[simp] theorem Ctx.setV_bar (c : Ctx) (r : VReg) (v : Line) : (c.setV r v).bar = c.bar := rfl
@[simp] theorem Ctx.setV_reports (c : Ctx) (r : VReg) (v : Line) : (c.setV r v).reports = c.reports := rfl
@[simp] theorem Ctx.setV_access (c : Ctx) (r : VReg) (v : Line) : (c.setV r v).access = c.access := rfl
@[simp] theorem Ctx.setV_spawnReply (c : Ctx) (r : VReg) (v : Line) : (c.setV r v).spawnReply = c.spawnReply := rfl
@[simp] theorem Ctx.setV_unacked (c : Ctx) (r : VReg) (v : Line) : (c.setV r v).unacked = c.unacked := rfl
@[simp] theorem Ctx.setV_acquireEpoch (c : Ctx) (r : VReg) (v : Line) : (c.setV r v).acquireEpoch = c.acquireEpoch := rfl
@[simp] theorem Ctx.setV_eligible (c : Ctx) (r : VReg) (v : Line) : (c.setV r v).eligible = c.eligible := rfl
@[simp] theorem Ctx.setV_agent (c : Ctx) (r : VReg) (v : Line) : (c.setV r v).agent = c.agent := rfl
@[simp] theorem Ctx.setV_region (c : Ctx) (r : VReg) (v : Line) : (c.setV r v).region = c.region := rfl
@[simp] theorem Ctx.setV_touched (c : Ctx) (r : VReg) (v : Line) : (c.setV r v).touched = c.touched := rfl
@[simp] theorem Ctx.setV_clock (c : Ctx) (r : VReg) (v : Line) : (c.setV r v).clock = c.clock := rfl
@[simp] theorem Ctx.setV_fenceRel (c : Ctx) (r : VReg) (v : Line) : (c.setV r v).fenceRel = c.fenceRel := rfl
@[simp] theorem Ctx.setV_maint (c : Ctx) (r : VReg) (v : Line) : (c.setV r v).maint = c.maint := rfl
@[simp] theorem Ctx.setV_maintCount (c : Ctx) (r : VReg) (v : Line) : (c.setV r v).maintCount = c.maintCount := rfl
@[simp] theorem Ctx.setV_observed (c : Ctx) (r : VReg) (v : Line) : (c.setV r v).observed = c.observed := rfl
@[simp] theorem Ctx.setV_sawMiss (c : Ctx) (r : VReg) (v : Line) : (c.setV r v).sawMiss = c.sawMiss := rfl
@[simp] theorem Ctx.setV_sawMark (c : Ctx) (r : VReg) (v : Line) : (c.setV r v).sawMark = c.sawMark := rfl
@[simp] theorem Ctx.setV_walkFault (c : Ctx) (r : VReg) (v : Line) : (c.setV r v).walkFault = c.walkFault := rfl
@[simp] theorem Ctx.setPort_status (c : Ctx) (q : QReg) (p : Port) : (c.setPort q p).status = c.status := rfl
@[simp] theorem Ctx.setPort_pc (c : Ctx) (q : QReg) (p : Port) : (c.setPort q p).pc = c.pc := rfl
@[simp] theorem Ctx.setPort_low (c : Ctx) (q : QReg) (p : Port) : (c.setPort q p).low = c.low := rfl
@[simp] theorem Ctx.setPort_stack (c : Ctx) (q : QReg) (p : Port) : (c.setPort q p).stack = c.stack := rfl
@[simp] theorem Ctx.setPort_wb (c : Ctx) (q : QReg) (p : Port) : (c.setPort q p).wb = c.wb := rfl
@[simp] theorem Ctx.setPort_lo (c : Ctx) (q : QReg) (p : Port) : (c.setPort q p).lo = c.lo := rfl
@[simp] theorem Ctx.setPort_v (c : Ctx) (q : QReg) (p : Port) : (c.setPort q p).v = c.v := rfl
@[simp] theorem Ctx.setPort_holds (c : Ctx) (q : QReg) (p : Port) : (c.setPort q p).holds = c.holds := rfl
@[simp] theorem Ctx.setPort_deposited (c : Ctx) (q : QReg) (p : Port) : (c.setPort q p).deposited = c.deposited := rfl
@[simp] theorem Ctx.setPort_m (c : Ctx) (q : QReg) (p : Port) : (c.setPort q p).m = c.m := rfl
@[simp] theorem Ctx.setPort_rng (c : Ctx) (q : QReg) (p : Port) : (c.setPort q p).rng = c.rng := rfl
@[simp] theorem Ctx.setPort_priv (c : Ctx) (q : QReg) (p : Port) : (c.setPort q p).priv = c.priv := rfl
@[simp] theorem Ctx.setPort_cause (c : Ctx) (q : QReg) (p : Port) : (c.setPort q p).cause = c.cause := rfl
@[simp] theorem Ctx.setPort_epc (c : Ctx) (q : QReg) (p : Port) : (c.setPort q p).epc = c.epc := rfl
@[simp] theorem Ctx.setPort_tval (c : Ctx) (q : QReg) (p : Port) : (c.setPort q p).tval = c.tval := rfl
@[simp] theorem Ctx.setPort_tscr (c : Ctx) (q : QReg) (p : Port) : (c.setPort q p).tscr = c.tscr := rfl
@[simp] theorem Ctx.setPort_ev (c : Ctx) (q : QReg) (p : Port) : (c.setPort q p).ev = c.ev := rfl
@[simp] theorem Ctx.setPort_token (c : Ctx) (q : QReg) (p : Port) : (c.setPort q p).token = c.token := rfl
@[simp] theorem Ctx.setPort_tokenRel (c : Ctx) (q : QReg) (p : Port) : (c.setPort q p).tokenRel = c.tokenRel := rfl
@[simp] theorem Ctx.setPort_met (c : Ctx) (q : QReg) (p : Port) : (c.setPort q p).met = c.met := rfl
@[simp] theorem Ctx.setPort_exitVal (c : Ctx) (q : QReg) (p : Port) : (c.setPort q p).exitVal = c.exitVal := rfl
@[simp] theorem Ctx.setPort_exitRel (c : Ctx) (q : QReg) (p : Port) : (c.setPort q p).exitRel = c.exitRel := rfl
@[simp] theorem Ctx.setPort_follow (c : Ctx) (q : QReg) (p : Port) : (c.setPort q p).follow = c.follow := rfl
@[simp] theorem Ctx.setPort_task (c : Ctx) (q : QReg) (p : Port) : (c.setPort q p).task = c.task := rfl
@[simp] theorem Ctx.setPort_childOf (c : Ctx) (q : QReg) (p : Port) : (c.setPort q p).childOf = c.childOf := rfl
@[simp] theorem Ctx.setPort_bar (c : Ctx) (q : QReg) (p : Port) : (c.setPort q p).bar = c.bar := rfl
@[simp] theorem Ctx.setPort_reports (c : Ctx) (q : QReg) (p : Port) : (c.setPort q p).reports = c.reports := rfl
@[simp] theorem Ctx.setPort_access (c : Ctx) (q : QReg) (p : Port) : (c.setPort q p).access = c.access := rfl
@[simp] theorem Ctx.setPort_late (c : Ctx) (q : QReg) (p : Port) : (c.setPort q p).late = c.late := rfl
@[simp] theorem Ctx.setPort_spawnReply (c : Ctx) (q : QReg) (p : Port) : (c.setPort q p).spawnReply = c.spawnReply := rfl
@[simp] theorem Ctx.setPort_unacked (c : Ctx) (q : QReg) (p : Port) : (c.setPort q p).unacked = c.unacked := rfl
@[simp] theorem Ctx.setPort_acquireEpoch (c : Ctx) (q : QReg) (p : Port) : (c.setPort q p).acquireEpoch = c.acquireEpoch := rfl
@[simp] theorem Ctx.setPort_eligible (c : Ctx) (q : QReg) (p : Port) : (c.setPort q p).eligible = c.eligible := rfl
@[simp] theorem Ctx.setPort_agent (c : Ctx) (q : QReg) (p : Port) : (c.setPort q p).agent = c.agent := rfl
@[simp] theorem Ctx.setPort_region (c : Ctx) (q : QReg) (p : Port) : (c.setPort q p).region = c.region := rfl
@[simp] theorem Ctx.setPort_touched (c : Ctx) (q : QReg) (p : Port) : (c.setPort q p).touched = c.touched := rfl
@[simp] theorem Ctx.setPort_clock (c : Ctx) (q : QReg) (p : Port) : (c.setPort q p).clock = c.clock := rfl
@[simp] theorem Ctx.setPort_fenceRel (c : Ctx) (q : QReg) (p : Port) : (c.setPort q p).fenceRel = c.fenceRel := rfl
@[simp] theorem Ctx.setPort_maint (c : Ctx) (q : QReg) (p : Port) : (c.setPort q p).maint = c.maint := rfl
@[simp] theorem Ctx.setPort_maintCount (c : Ctx) (q : QReg) (p : Port) : (c.setPort q p).maintCount = c.maintCount := rfl
@[simp] theorem Ctx.setPort_observed (c : Ctx) (q : QReg) (p : Port) : (c.setPort q p).observed = c.observed := rfl
@[simp] theorem Ctx.setPort_sawMiss (c : Ctx) (q : QReg) (p : Port) : (c.setPort q p).sawMiss = c.sawMiss := rfl
@[simp] theorem Ctx.setPort_sawMark (c : Ctx) (q : QReg) (p : Port) : (c.setPort q p).sawMark = c.sawMark := rfl
@[simp] theorem Ctx.setPort_walkFault (c : Ctx) (q : QReg) (p : Port) : (c.setPort q p).walkFault = c.walkFault := rfl
@[simp] theorem Ctx.addEv_status (c : Ctx) (i n : Nat) : (c.addEv i n).status = c.status := rfl
@[simp] theorem Ctx.addEv_pc (c : Ctx) (i n : Nat) : (c.addEv i n).pc = c.pc := rfl
@[simp] theorem Ctx.addEv_low (c : Ctx) (i n : Nat) : (c.addEv i n).low = c.low := rfl
@[simp] theorem Ctx.addEv_stack (c : Ctx) (i n : Nat) : (c.addEv i n).stack = c.stack := rfl
@[simp] theorem Ctx.addEv_wb (c : Ctx) (i n : Nat) : (c.addEv i n).wb = c.wb := rfl
@[simp] theorem Ctx.addEv_lo (c : Ctx) (i n : Nat) : (c.addEv i n).lo = c.lo := rfl
@[simp] theorem Ctx.addEv_v (c : Ctx) (i n : Nat) : (c.addEv i n).v = c.v := rfl
@[simp] theorem Ctx.addEv_holds (c : Ctx) (i n : Nat) : (c.addEv i n).holds = c.holds := rfl
@[simp] theorem Ctx.addEv_deposited (c : Ctx) (i n : Nat) : (c.addEv i n).deposited = c.deposited := rfl
@[simp] theorem Ctx.addEv_m (c : Ctx) (i n : Nat) : (c.addEv i n).m = c.m := rfl
@[simp] theorem Ctx.addEv_ports (c : Ctx) (i n : Nat) : (c.addEv i n).ports = c.ports := rfl
@[simp] theorem Ctx.addEv_rng (c : Ctx) (i n : Nat) : (c.addEv i n).rng = c.rng := rfl
@[simp] theorem Ctx.addEv_priv (c : Ctx) (i n : Nat) : (c.addEv i n).priv = c.priv := rfl
@[simp] theorem Ctx.addEv_cause (c : Ctx) (i n : Nat) : (c.addEv i n).cause = c.cause := rfl
@[simp] theorem Ctx.addEv_epc (c : Ctx) (i n : Nat) : (c.addEv i n).epc = c.epc := rfl
@[simp] theorem Ctx.addEv_tval (c : Ctx) (i n : Nat) : (c.addEv i n).tval = c.tval := rfl
@[simp] theorem Ctx.addEv_tscr (c : Ctx) (i n : Nat) : (c.addEv i n).tscr = c.tscr := rfl
@[simp] theorem Ctx.addEv_token (c : Ctx) (i n : Nat) : (c.addEv i n).token = c.token := rfl
@[simp] theorem Ctx.addEv_tokenRel (c : Ctx) (i n : Nat) : (c.addEv i n).tokenRel = c.tokenRel := rfl
@[simp] theorem Ctx.addEv_met (c : Ctx) (i n : Nat) : (c.addEv i n).met = c.met := rfl
@[simp] theorem Ctx.addEv_exitVal (c : Ctx) (i n : Nat) : (c.addEv i n).exitVal = c.exitVal := rfl
@[simp] theorem Ctx.addEv_exitRel (c : Ctx) (i n : Nat) : (c.addEv i n).exitRel = c.exitRel := rfl
@[simp] theorem Ctx.addEv_follow (c : Ctx) (i n : Nat) : (c.addEv i n).follow = c.follow := rfl
@[simp] theorem Ctx.addEv_task (c : Ctx) (i n : Nat) : (c.addEv i n).task = c.task := rfl
@[simp] theorem Ctx.addEv_childOf (c : Ctx) (i n : Nat) : (c.addEv i n).childOf = c.childOf := rfl
@[simp] theorem Ctx.addEv_bar (c : Ctx) (i n : Nat) : (c.addEv i n).bar = c.bar := rfl
@[simp] theorem Ctx.addEv_reports (c : Ctx) (i n : Nat) : (c.addEv i n).reports = c.reports := rfl
@[simp] theorem Ctx.addEv_access (c : Ctx) (i n : Nat) : (c.addEv i n).access = c.access := rfl
@[simp] theorem Ctx.addEv_late (c : Ctx) (i n : Nat) : (c.addEv i n).late = c.late := rfl
@[simp] theorem Ctx.addEv_spawnReply (c : Ctx) (i n : Nat) : (c.addEv i n).spawnReply = c.spawnReply := rfl
@[simp] theorem Ctx.addEv_unacked (c : Ctx) (i n : Nat) : (c.addEv i n).unacked = c.unacked := rfl
@[simp] theorem Ctx.addEv_acquireEpoch (c : Ctx) (i n : Nat) : (c.addEv i n).acquireEpoch = c.acquireEpoch := rfl
@[simp] theorem Ctx.addEv_eligible (c : Ctx) (i n : Nat) : (c.addEv i n).eligible = c.eligible := rfl
@[simp] theorem Ctx.addEv_agent (c : Ctx) (i n : Nat) : (c.addEv i n).agent = c.agent := rfl
@[simp] theorem Ctx.addEv_region (c : Ctx) (i n : Nat) : (c.addEv i n).region = c.region := rfl
@[simp] theorem Ctx.addEv_touched (c : Ctx) (i n : Nat) : (c.addEv i n).touched = c.touched := rfl
@[simp] theorem Ctx.addEv_clock (c : Ctx) (i n : Nat) : (c.addEv i n).clock = c.clock := rfl
@[simp] theorem Ctx.addEv_fenceRel (c : Ctx) (i n : Nat) : (c.addEv i n).fenceRel = c.fenceRel := rfl
@[simp] theorem Ctx.addEv_maint (c : Ctx) (i n : Nat) : (c.addEv i n).maint = c.maint := rfl
@[simp] theorem Ctx.addEv_maintCount (c : Ctx) (i n : Nat) : (c.addEv i n).maintCount = c.maintCount := rfl
@[simp] theorem Ctx.addEv_observed (c : Ctx) (i n : Nat) : (c.addEv i n).observed = c.observed := rfl
@[simp] theorem Ctx.addEv_sawMiss (c : Ctx) (i n : Nat) : (c.addEv i n).sawMiss = c.sawMiss := rfl
@[simp] theorem Ctx.addEv_sawMark (c : Ctx) (i n : Nat) : (c.addEv i n).sawMark = c.sawMark := rfl
@[simp] theorem Ctx.addEv_walkFault (c : Ctx) (i n : Nat) : (c.addEv i n).walkFault = c.walkFault := rfl
@[simp] theorem Ctx.nextRegion_status (c : Ctx) : (c.nextRegion).status = c.status := rfl
@[simp] theorem Ctx.nextRegion_pc (c : Ctx) : (c.nextRegion).pc = c.pc := rfl
@[simp] theorem Ctx.nextRegion_low (c : Ctx) : (c.nextRegion).low = c.low := rfl
@[simp] theorem Ctx.nextRegion_stack (c : Ctx) : (c.nextRegion).stack = c.stack := rfl
@[simp] theorem Ctx.nextRegion_wb (c : Ctx) : (c.nextRegion).wb = c.wb := rfl
@[simp] theorem Ctx.nextRegion_lo (c : Ctx) : (c.nextRegion).lo = c.lo := rfl
@[simp] theorem Ctx.nextRegion_v (c : Ctx) : (c.nextRegion).v = c.v := rfl
@[simp] theorem Ctx.nextRegion_holds (c : Ctx) : (c.nextRegion).holds = c.holds := rfl
@[simp] theorem Ctx.nextRegion_deposited (c : Ctx) : (c.nextRegion).deposited = c.deposited := rfl
@[simp] theorem Ctx.nextRegion_m (c : Ctx) : (c.nextRegion).m = c.m := rfl
@[simp] theorem Ctx.nextRegion_ports (c : Ctx) : (c.nextRegion).ports = c.ports := rfl
@[simp] theorem Ctx.nextRegion_rng (c : Ctx) : (c.nextRegion).rng = c.rng := rfl
@[simp] theorem Ctx.nextRegion_priv (c : Ctx) : (c.nextRegion).priv = c.priv := rfl
@[simp] theorem Ctx.nextRegion_cause (c : Ctx) : (c.nextRegion).cause = c.cause := rfl
@[simp] theorem Ctx.nextRegion_epc (c : Ctx) : (c.nextRegion).epc = c.epc := rfl
@[simp] theorem Ctx.nextRegion_tval (c : Ctx) : (c.nextRegion).tval = c.tval := rfl
@[simp] theorem Ctx.nextRegion_tscr (c : Ctx) : (c.nextRegion).tscr = c.tscr := rfl
@[simp] theorem Ctx.nextRegion_ev (c : Ctx) : (c.nextRegion).ev = c.ev := rfl
@[simp] theorem Ctx.nextRegion_token (c : Ctx) : (c.nextRegion).token = c.token := rfl
@[simp] theorem Ctx.nextRegion_tokenRel (c : Ctx) : (c.nextRegion).tokenRel = c.tokenRel := rfl
@[simp] theorem Ctx.nextRegion_met (c : Ctx) : (c.nextRegion).met = c.met := rfl
@[simp] theorem Ctx.nextRegion_exitVal (c : Ctx) : (c.nextRegion).exitVal = c.exitVal := rfl
@[simp] theorem Ctx.nextRegion_exitRel (c : Ctx) : (c.nextRegion).exitRel = c.exitRel := rfl
@[simp] theorem Ctx.nextRegion_follow (c : Ctx) : (c.nextRegion).follow = c.follow := rfl
@[simp] theorem Ctx.nextRegion_task (c : Ctx) : (c.nextRegion).task = c.task := rfl
@[simp] theorem Ctx.nextRegion_childOf (c : Ctx) : (c.nextRegion).childOf = c.childOf := rfl
@[simp] theorem Ctx.nextRegion_bar (c : Ctx) : (c.nextRegion).bar = c.bar := rfl
@[simp] theorem Ctx.nextRegion_reports (c : Ctx) : (c.nextRegion).reports = c.reports := rfl
@[simp] theorem Ctx.nextRegion_access (c : Ctx) : (c.nextRegion).access = c.access := rfl
@[simp] theorem Ctx.nextRegion_late (c : Ctx) : (c.nextRegion).late = c.late := rfl
@[simp] theorem Ctx.nextRegion_spawnReply (c : Ctx) : (c.nextRegion).spawnReply = c.spawnReply := rfl
@[simp] theorem Ctx.nextRegion_unacked (c : Ctx) : (c.nextRegion).unacked = c.unacked := rfl
@[simp] theorem Ctx.nextRegion_acquireEpoch (c : Ctx) : (c.nextRegion).acquireEpoch = c.acquireEpoch := rfl
@[simp] theorem Ctx.nextRegion_eligible (c : Ctx) : (c.nextRegion).eligible = c.eligible := rfl
@[simp] theorem Ctx.nextRegion_agent (c : Ctx) : (c.nextRegion).agent = c.agent := rfl
@[simp] theorem Ctx.nextRegion_clock (c : Ctx) : (c.nextRegion).clock = c.clock := rfl
@[simp] theorem Ctx.nextRegion_fenceRel (c : Ctx) : (c.nextRegion).fenceRel = c.fenceRel := rfl
@[simp] theorem Ctx.nextRegion_maint (c : Ctx) : (c.nextRegion).maint = c.maint := rfl
@[simp] theorem Ctx.nextRegion_maintCount (c : Ctx) : (c.nextRegion).maintCount = c.maintCount := rfl
@[simp] theorem Ctx.nextRegion_observed (c : Ctx) : (c.nextRegion).observed = c.observed := rfl
@[simp] theorem Ctx.nextRegion_sawMiss (c : Ctx) : (c.nextRegion).sawMiss = c.sawMiss := rfl
@[simp] theorem Ctx.nextRegion_sawMark (c : Ctx) : (c.nextRegion).sawMark = c.sawMark := rfl
@[simp] theorem Ctx.nextRegion_walkFault (c : Ctx) : (c.nextRegion).walkFault = c.walkFault := rfl
@[simp] theorem Ctx.returned_status (c : Ctx) : (c.returned).status = c.status := rfl
@[simp] theorem Ctx.returned_low (c : Ctx) : (c.returned).low = c.low := rfl
@[simp] theorem Ctx.returned_stack (c : Ctx) : (c.returned).stack = c.stack := rfl
@[simp] theorem Ctx.returned_wb (c : Ctx) : (c.returned).wb = c.wb := rfl
@[simp] theorem Ctx.returned_lo (c : Ctx) : (c.returned).lo = c.lo := rfl
@[simp] theorem Ctx.returned_v (c : Ctx) : (c.returned).v = c.v := rfl
@[simp] theorem Ctx.returned_holds (c : Ctx) : (c.returned).holds = c.holds := rfl
@[simp] theorem Ctx.returned_deposited (c : Ctx) : (c.returned).deposited = c.deposited := rfl
@[simp] theorem Ctx.returned_m (c : Ctx) : (c.returned).m = c.m := rfl
@[simp] theorem Ctx.returned_ports (c : Ctx) : (c.returned).ports = c.ports := rfl
@[simp] theorem Ctx.returned_rng (c : Ctx) : (c.returned).rng = c.rng := rfl
@[simp] theorem Ctx.returned_epc (c : Ctx) : (c.returned).epc = c.epc := rfl
@[simp] theorem Ctx.returned_tval (c : Ctx) : (c.returned).tval = c.tval := rfl
@[simp] theorem Ctx.returned_tscr (c : Ctx) : (c.returned).tscr = c.tscr := rfl
@[simp] theorem Ctx.returned_ev (c : Ctx) : (c.returned).ev = c.ev := rfl
@[simp] theorem Ctx.returned_token (c : Ctx) : (c.returned).token = c.token := rfl
@[simp] theorem Ctx.returned_tokenRel (c : Ctx) : (c.returned).tokenRel = c.tokenRel := rfl
@[simp] theorem Ctx.returned_met (c : Ctx) : (c.returned).met = c.met := rfl
@[simp] theorem Ctx.returned_exitVal (c : Ctx) : (c.returned).exitVal = c.exitVal := rfl
@[simp] theorem Ctx.returned_exitRel (c : Ctx) : (c.returned).exitRel = c.exitRel := rfl
@[simp] theorem Ctx.returned_follow (c : Ctx) : (c.returned).follow = c.follow := rfl
@[simp] theorem Ctx.returned_task (c : Ctx) : (c.returned).task = c.task := rfl
@[simp] theorem Ctx.returned_childOf (c : Ctx) : (c.returned).childOf = c.childOf := rfl
@[simp] theorem Ctx.returned_bar (c : Ctx) : (c.returned).bar = c.bar := rfl
@[simp] theorem Ctx.returned_reports (c : Ctx) : (c.returned).reports = c.reports := rfl
@[simp] theorem Ctx.returned_access (c : Ctx) : (c.returned).access = c.access := rfl
@[simp] theorem Ctx.returned_late (c : Ctx) : (c.returned).late = c.late := rfl
@[simp] theorem Ctx.returned_spawnReply (c : Ctx) : (c.returned).spawnReply = c.spawnReply := rfl
@[simp] theorem Ctx.returned_unacked (c : Ctx) : (c.returned).unacked = c.unacked := rfl
@[simp] theorem Ctx.returned_acquireEpoch (c : Ctx) : (c.returned).acquireEpoch = c.acquireEpoch := rfl
@[simp] theorem Ctx.returned_eligible (c : Ctx) : (c.returned).eligible = c.eligible := rfl
@[simp] theorem Ctx.returned_agent (c : Ctx) : (c.returned).agent = c.agent := rfl
@[simp] theorem Ctx.returned_region (c : Ctx) : (c.returned).region = c.region := rfl
@[simp] theorem Ctx.returned_touched (c : Ctx) : (c.returned).touched = c.touched := rfl
@[simp] theorem Ctx.returned_clock (c : Ctx) : (c.returned).clock = c.clock := rfl
@[simp] theorem Ctx.returned_fenceRel (c : Ctx) : (c.returned).fenceRel = c.fenceRel := rfl
@[simp] theorem Ctx.returned_maint (c : Ctx) : (c.returned).maint = c.maint := rfl
@[simp] theorem Ctx.returned_maintCount (c : Ctx) : (c.returned).maintCount = c.maintCount := rfl
@[simp] theorem Ctx.returned_observed (c : Ctx) : (c.returned).observed = c.observed := rfl
@[simp] theorem Ctx.returned_sawMiss (c : Ctx) : (c.returned).sawMiss = c.sawMiss := rfl
@[simp] theorem Ctx.returned_sawMark (c : Ctx) : (c.returned).sawMark = c.sawMark := rfl
@[simp] theorem Ctx.returned_walkFault (c : Ctx) : (c.returned).walkFault = c.walkFault := rfl
@[simp] theorem Ctx.trapped_low (c : Ctx) (vec : Word) (code : Nat) (tval epc : Word) (mem imp : Bool) : (c.trapped vec code tval epc mem imp).low = c.low := rfl
@[simp] theorem Ctx.trapped_stack (c : Ctx) (vec : Word) (code : Nat) (tval epc : Word) (mem imp : Bool) : (c.trapped vec code tval epc mem imp).stack = c.stack := rfl
@[simp] theorem Ctx.trapped_wb (c : Ctx) (vec : Word) (code : Nat) (tval epc : Word) (mem imp : Bool) : (c.trapped vec code tval epc mem imp).wb = c.wb := rfl
@[simp] theorem Ctx.trapped_lo (c : Ctx) (vec : Word) (code : Nat) (tval epc : Word) (mem imp : Bool) : (c.trapped vec code tval epc mem imp).lo = c.lo := rfl
@[simp] theorem Ctx.trapped_v (c : Ctx) (vec : Word) (code : Nat) (tval epc : Word) (mem imp : Bool) : (c.trapped vec code tval epc mem imp).v = c.v := rfl
@[simp] theorem Ctx.trapped_holds (c : Ctx) (vec : Word) (code : Nat) (tval epc : Word) (mem imp : Bool) : (c.trapped vec code tval epc mem imp).holds = c.holds := rfl
@[simp] theorem Ctx.trapped_deposited (c : Ctx) (vec : Word) (code : Nat) (tval epc : Word) (mem imp : Bool) : (c.trapped vec code tval epc mem imp).deposited = c.deposited := rfl
@[simp] theorem Ctx.trapped_m (c : Ctx) (vec : Word) (code : Nat) (tval epc : Word) (mem imp : Bool) : (c.trapped vec code tval epc mem imp).m = c.m := rfl
@[simp] theorem Ctx.trapped_ports (c : Ctx) (vec : Word) (code : Nat) (tval epc : Word) (mem imp : Bool) : (c.trapped vec code tval epc mem imp).ports = c.ports := rfl
@[simp] theorem Ctx.trapped_rng (c : Ctx) (vec : Word) (code : Nat) (tval epc : Word) (mem imp : Bool) : (c.trapped vec code tval epc mem imp).rng = c.rng := rfl
@[simp] theorem Ctx.trapped_tscr (c : Ctx) (vec : Word) (code : Nat) (tval epc : Word) (mem imp : Bool) : (c.trapped vec code tval epc mem imp).tscr = c.tscr := rfl
@[simp] theorem Ctx.trapped_ev (c : Ctx) (vec : Word) (code : Nat) (tval epc : Word) (mem imp : Bool) : (c.trapped vec code tval epc mem imp).ev = c.ev := rfl
@[simp] theorem Ctx.trapped_token (c : Ctx) (vec : Word) (code : Nat) (tval epc : Word) (mem imp : Bool) : (c.trapped vec code tval epc mem imp).token = c.token := rfl
@[simp] theorem Ctx.trapped_tokenRel (c : Ctx) (vec : Word) (code : Nat) (tval epc : Word) (mem imp : Bool) : (c.trapped vec code tval epc mem imp).tokenRel = c.tokenRel := rfl
@[simp] theorem Ctx.trapped_exitVal (c : Ctx) (vec : Word) (code : Nat) (tval epc : Word) (mem imp : Bool) : (c.trapped vec code tval epc mem imp).exitVal = c.exitVal := rfl
@[simp] theorem Ctx.trapped_exitRel (c : Ctx) (vec : Word) (code : Nat) (tval epc : Word) (mem imp : Bool) : (c.trapped vec code tval epc mem imp).exitRel = c.exitRel := rfl
@[simp] theorem Ctx.trapped_task (c : Ctx) (vec : Word) (code : Nat) (tval epc : Word) (mem imp : Bool) : (c.trapped vec code tval epc mem imp).task = c.task := rfl
@[simp] theorem Ctx.trapped_childOf (c : Ctx) (vec : Word) (code : Nat) (tval epc : Word) (mem imp : Bool) : (c.trapped vec code tval epc mem imp).childOf = c.childOf := rfl
@[simp] theorem Ctx.trapped_bar (c : Ctx) (vec : Word) (code : Nat) (tval epc : Word) (mem imp : Bool) : (c.trapped vec code tval epc mem imp).bar = c.bar := rfl
@[simp] theorem Ctx.trapped_reports (c : Ctx) (vec : Word) (code : Nat) (tval epc : Word) (mem imp : Bool) : (c.trapped vec code tval epc mem imp).reports = c.reports := rfl
@[simp] theorem Ctx.trapped_late (c : Ctx) (vec : Word) (code : Nat) (tval epc : Word) (mem imp : Bool) : (c.trapped vec code tval epc mem imp).late = c.late := rfl
@[simp] theorem Ctx.trapped_unacked (c : Ctx) (vec : Word) (code : Nat) (tval epc : Word) (mem imp : Bool) : (c.trapped vec code tval epc mem imp).unacked = c.unacked := rfl
@[simp] theorem Ctx.trapped_acquireEpoch (c : Ctx) (vec : Word) (code : Nat) (tval epc : Word) (mem imp : Bool) : (c.trapped vec code tval epc mem imp).acquireEpoch = c.acquireEpoch := rfl
@[simp] theorem Ctx.trapped_eligible (c : Ctx) (vec : Word) (code : Nat) (tval epc : Word) (mem imp : Bool) : (c.trapped vec code tval epc mem imp).eligible = c.eligible := rfl
@[simp] theorem Ctx.trapped_agent (c : Ctx) (vec : Word) (code : Nat) (tval epc : Word) (mem imp : Bool) : (c.trapped vec code tval epc mem imp).agent = c.agent := rfl
@[simp] theorem Ctx.trapped_region (c : Ctx) (vec : Word) (code : Nat) (tval epc : Word) (mem imp : Bool) : (c.trapped vec code tval epc mem imp).region = c.region := rfl
@[simp] theorem Ctx.trapped_touched (c : Ctx) (vec : Word) (code : Nat) (tval epc : Word) (mem imp : Bool) : (c.trapped vec code tval epc mem imp).touched = c.touched := rfl
@[simp] theorem Ctx.trapped_clock (c : Ctx) (vec : Word) (code : Nat) (tval epc : Word) (mem imp : Bool) : (c.trapped vec code tval epc mem imp).clock = c.clock := rfl
@[simp] theorem Ctx.trapped_fenceRel (c : Ctx) (vec : Word) (code : Nat) (tval epc : Word) (mem imp : Bool) : (c.trapped vec code tval epc mem imp).fenceRel = c.fenceRel := rfl
@[simp] theorem Ctx.trapped_maint (c : Ctx) (vec : Word) (code : Nat) (tval epc : Word) (mem imp : Bool) : (c.trapped vec code tval epc mem imp).maint = c.maint := rfl
@[simp] theorem Ctx.trapped_maintCount (c : Ctx) (vec : Word) (code : Nat) (tval epc : Word) (mem imp : Bool) : (c.trapped vec code tval epc mem imp).maintCount = c.maintCount := rfl
@[simp] theorem Ctx.trapped_observed (c : Ctx) (vec : Word) (code : Nat) (tval epc : Word) (mem imp : Bool) : (c.trapped vec code tval epc mem imp).observed = c.observed := rfl

/-! ## Groups -/

@[simp] theorem Group.setCtx_launch (g : Group) (n : Nat) (x : Ctx) : (g.setCtx n x).launch = g.launch := rfl
@[simp] theorem Group.setCtx_tenant (g : Group) (n : Nat) (x : Ctx) : (g.setCtx n x).tenant = g.tenant := rfl
@[simp] theorem Group.setCtx_tgen (g : Group) (n : Nat) (x : Ctx) : (g.setCtx n x).tgen = g.tgen := rfl
@[simp] theorem Group.setCtx_gname (g : Group) (n : Nat) (x : Ctx) : (g.setCtx n x).gname = g.gname := rfl
@[simp] theorem Group.setCtx_r (g : Group) (n : Nat) (x : Ctx) : (g.setCtx n x).r = g.r := rfl
@[simp] theorem Group.setCtx_helpers (g : Group) (n : Nat) (x : Ctx) : (g.setCtx n x).helpers = g.helpers := rfl
@[simp] theorem Group.setCtx_part (g : Group) (n : Nat) (x : Ctx) : (g.setCtx n x).part = g.part := rfl
@[simp] theorem Group.setCtx_gmap (g : Group) (n : Nat) (x : Ctx) : (g.setCtx n x).gmap = g.gmap := rfl
@[simp] theorem Group.setCtx_rect (g : Group) (n : Nat) (x : Ctx) : (g.setCtx n x).rect = g.rect := rfl
@[simp] theorem Group.setCtx_role (g : Group) (n : Nat) (x : Ctx) : (g.setCtx n x).role = g.role := rfl
@[simp] theorem Group.setCtx_save (g : Group) (n : Nat) (x : Ctx) : (g.setCtx n x).save = g.save := rfl
@[simp] theorem Group.setCtx_trapvec (g : Group) (n : Nat) (x : Ctx) : (g.setCtx n x).trapvec = g.trapvec := rfl
@[simp] theorem Group.setCtx_counters (g : Group) (n : Nat) (x : Ctx) : (g.setCtx n x).counters = g.counters := rfl
@[simp] theorem Group.setCtx_cmask (g : Group) (n : Nat) (x : Ctx) : (g.setCtx n x).cmask = g.cmask := rfl
@[simp] theorem Group.setCtx_emask (g : Group) (n : Nat) (x : Ctx) : (g.setCtx n x).emask = g.emask := rfl
@[simp] theorem Group.setCtx_entries (g : Group) (n : Nat) (x : Ctx) : (g.setCtx n x).entries = g.entries := rfl
@[simp] theorem Group.setCtx_crossed (g : Group) (n : Nat) (x : Ctx) : (g.setCtx n x).crossed = g.crossed := rfl
@[simp] theorem Group.setCtx_firings (g : Group) (n : Nat) (x : Ctx) : (g.setCtx n x).firings = g.firings := rfl
@[simp] theorem Group.setCtx_lqs (g : Group) (n : Nat) (x : Ctx) : (g.setCtx n x).lqs = g.lqs := rfl
@[simp] theorem Group.setCtx_chans (g : Group) (n : Nat) (x : Ctx) : (g.setCtx n x).chans = g.chans := rfl
@[simp] theorem Group.setCtx_fifos (g : Group) (n : Nat) (x : Ctx) : (g.setCtx n x).fifos = g.fifos := rfl
@[simp] theorem Group.setCtx_queues (g : Group) (n : Nat) (x : Ctx) : (g.setCtx n x).queues = g.queues := rfl
@[simp] theorem Group.setCtx_progs (g : Group) (n : Nat) (x : Ctx) : (g.setCtx n x).progs = g.progs := rfl
@[simp] theorem Group.setCtx_sideLog (g : Group) (n : Nat) (x : Ctx) : (g.setCtx n x).sideLog = g.sideLog := rfl
@[simp] theorem Group.setCtx_lent (g : Group) (n : Nat) (x : Ctx) : (g.setCtx n x).lent = g.lent := rfl
@[simp] theorem Group.setCtx_taskBusy (g : Group) (n : Nat) (x : Ctx) : (g.setCtx n x).taskBusy = g.taskBusy := rfl
@[simp] theorem Group.setCtx_suspended (g : Group) (n : Nat) (x : Ctx) : (g.setCtx n x).suspended = g.suspended := rfl
@[simp] theorem Group.setCtx_porterLast (g : Group) (n : Nat) (x : Ctx) : (g.setCtx n x).porterLast = g.porterLast := rfl
@[simp] theorem Group.setCtx_batch (g : Group) (n : Nat) (x : Ctx) : (g.setCtx n x).batch = g.batch := rfl
@[simp] theorem Group.setCtx_fired (g : Group) (n : Nat) (x : Ctx) : (g.setCtx n x).fired = g.fired := rfl
@[simp] theorem Group.setCtx_ckpt (g : Group) (n : Nat) (x : Ctx) : (g.setCtx n x).ckpt = g.ckpt := rfl
@[simp] theorem Group.setCtx_absent (g : Group) (n : Nat) (x : Ctx) : (g.setCtx n x).absent = g.absent := rfl
@[simp] theorem Group.setCtx_parked (g : Group) (n : Nat) (x : Ctx) : (g.setCtx n x).parked = g.parked := rfl
@[simp] theorem Group.setCtx_parkedRels (g : Group) (n : Nat) (x : Ctx) : (g.setCtx n x).parkedRels = g.parkedRels := rfl
@[simp] theorem Group.setCtx_boundSeq (g : Group) (n : Nat) (x : Ctx) : (g.setCtx n x).boundSeq = g.boundSeq := rfl
@[simp] theorem Group.modCtx_launch (g : Group) (n : Nat) (f : Ctx → Ctx) : (g.modCtx n f).launch = g.launch := rfl
@[simp] theorem Group.modCtx_tenant (g : Group) (n : Nat) (f : Ctx → Ctx) : (g.modCtx n f).tenant = g.tenant := rfl
@[simp] theorem Group.modCtx_tgen (g : Group) (n : Nat) (f : Ctx → Ctx) : (g.modCtx n f).tgen = g.tgen := rfl
@[simp] theorem Group.modCtx_gname (g : Group) (n : Nat) (f : Ctx → Ctx) : (g.modCtx n f).gname = g.gname := rfl
@[simp] theorem Group.modCtx_r (g : Group) (n : Nat) (f : Ctx → Ctx) : (g.modCtx n f).r = g.r := rfl
@[simp] theorem Group.modCtx_helpers (g : Group) (n : Nat) (f : Ctx → Ctx) : (g.modCtx n f).helpers = g.helpers := rfl
@[simp] theorem Group.modCtx_part (g : Group) (n : Nat) (f : Ctx → Ctx) : (g.modCtx n f).part = g.part := rfl
@[simp] theorem Group.modCtx_gmap (g : Group) (n : Nat) (f : Ctx → Ctx) : (g.modCtx n f).gmap = g.gmap := rfl
@[simp] theorem Group.modCtx_rect (g : Group) (n : Nat) (f : Ctx → Ctx) : (g.modCtx n f).rect = g.rect := rfl
@[simp] theorem Group.modCtx_role (g : Group) (n : Nat) (f : Ctx → Ctx) : (g.modCtx n f).role = g.role := rfl
@[simp] theorem Group.modCtx_save (g : Group) (n : Nat) (f : Ctx → Ctx) : (g.modCtx n f).save = g.save := rfl
@[simp] theorem Group.modCtx_trapvec (g : Group) (n : Nat) (f : Ctx → Ctx) : (g.modCtx n f).trapvec = g.trapvec := rfl
@[simp] theorem Group.modCtx_counters (g : Group) (n : Nat) (f : Ctx → Ctx) : (g.modCtx n f).counters = g.counters := rfl
@[simp] theorem Group.modCtx_cmask (g : Group) (n : Nat) (f : Ctx → Ctx) : (g.modCtx n f).cmask = g.cmask := rfl
@[simp] theorem Group.modCtx_emask (g : Group) (n : Nat) (f : Ctx → Ctx) : (g.modCtx n f).emask = g.emask := rfl
@[simp] theorem Group.modCtx_entries (g : Group) (n : Nat) (f : Ctx → Ctx) : (g.modCtx n f).entries = g.entries := rfl
@[simp] theorem Group.modCtx_crossed (g : Group) (n : Nat) (f : Ctx → Ctx) : (g.modCtx n f).crossed = g.crossed := rfl
@[simp] theorem Group.modCtx_firings (g : Group) (n : Nat) (f : Ctx → Ctx) : (g.modCtx n f).firings = g.firings := rfl
@[simp] theorem Group.modCtx_lqs (g : Group) (n : Nat) (f : Ctx → Ctx) : (g.modCtx n f).lqs = g.lqs := rfl
@[simp] theorem Group.modCtx_chans (g : Group) (n : Nat) (f : Ctx → Ctx) : (g.modCtx n f).chans = g.chans := rfl
@[simp] theorem Group.modCtx_fifos (g : Group) (n : Nat) (f : Ctx → Ctx) : (g.modCtx n f).fifos = g.fifos := rfl
@[simp] theorem Group.modCtx_queues (g : Group) (n : Nat) (f : Ctx → Ctx) : (g.modCtx n f).queues = g.queues := rfl
@[simp] theorem Group.modCtx_progs (g : Group) (n : Nat) (f : Ctx → Ctx) : (g.modCtx n f).progs = g.progs := rfl
@[simp] theorem Group.modCtx_sideLog (g : Group) (n : Nat) (f : Ctx → Ctx) : (g.modCtx n f).sideLog = g.sideLog := rfl
@[simp] theorem Group.modCtx_lent (g : Group) (n : Nat) (f : Ctx → Ctx) : (g.modCtx n f).lent = g.lent := rfl
@[simp] theorem Group.modCtx_taskBusy (g : Group) (n : Nat) (f : Ctx → Ctx) : (g.modCtx n f).taskBusy = g.taskBusy := rfl
@[simp] theorem Group.modCtx_suspended (g : Group) (n : Nat) (f : Ctx → Ctx) : (g.modCtx n f).suspended = g.suspended := rfl
@[simp] theorem Group.modCtx_porterLast (g : Group) (n : Nat) (f : Ctx → Ctx) : (g.modCtx n f).porterLast = g.porterLast := rfl
@[simp] theorem Group.modCtx_batch (g : Group) (n : Nat) (f : Ctx → Ctx) : (g.modCtx n f).batch = g.batch := rfl
@[simp] theorem Group.modCtx_fired (g : Group) (n : Nat) (f : Ctx → Ctx) : (g.modCtx n f).fired = g.fired := rfl
@[simp] theorem Group.modCtx_ckpt (g : Group) (n : Nat) (f : Ctx → Ctx) : (g.modCtx n f).ckpt = g.ckpt := rfl
@[simp] theorem Group.modCtx_absent (g : Group) (n : Nat) (f : Ctx → Ctx) : (g.modCtx n f).absent = g.absent := rfl
@[simp] theorem Group.modCtx_parked (g : Group) (n : Nat) (f : Ctx → Ctx) : (g.modCtx n f).parked = g.parked := rfl
@[simp] theorem Group.modCtx_parkedRels (g : Group) (n : Nat) (f : Ctx → Ctx) : (g.modCtx n f).parkedRels = g.parkedRels := rfl
@[simp] theorem Group.modCtx_boundSeq (g : Group) (n : Nat) (f : Ctx → Ctx) : (g.modCtx n f).boundSeq = g.boundSeq := rfl
@[simp] theorem Group.setLq_launch (g : Group) (n : Nat) (x : LocalQ) : (g.setLq n x).launch = g.launch := rfl
@[simp] theorem Group.setLq_tenant (g : Group) (n : Nat) (x : LocalQ) : (g.setLq n x).tenant = g.tenant := rfl
@[simp] theorem Group.setLq_tgen (g : Group) (n : Nat) (x : LocalQ) : (g.setLq n x).tgen = g.tgen := rfl
@[simp] theorem Group.setLq_gname (g : Group) (n : Nat) (x : LocalQ) : (g.setLq n x).gname = g.gname := rfl
@[simp] theorem Group.setLq_r (g : Group) (n : Nat) (x : LocalQ) : (g.setLq n x).r = g.r := rfl
@[simp] theorem Group.setLq_helpers (g : Group) (n : Nat) (x : LocalQ) : (g.setLq n x).helpers = g.helpers := rfl
@[simp] theorem Group.setLq_part (g : Group) (n : Nat) (x : LocalQ) : (g.setLq n x).part = g.part := rfl
@[simp] theorem Group.setLq_gmap (g : Group) (n : Nat) (x : LocalQ) : (g.setLq n x).gmap = g.gmap := rfl
@[simp] theorem Group.setLq_rect (g : Group) (n : Nat) (x : LocalQ) : (g.setLq n x).rect = g.rect := rfl
@[simp] theorem Group.setLq_role (g : Group) (n : Nat) (x : LocalQ) : (g.setLq n x).role = g.role := rfl
@[simp] theorem Group.setLq_save (g : Group) (n : Nat) (x : LocalQ) : (g.setLq n x).save = g.save := rfl
@[simp] theorem Group.setLq_trapvec (g : Group) (n : Nat) (x : LocalQ) : (g.setLq n x).trapvec = g.trapvec := rfl
@[simp] theorem Group.setLq_ctxs (g : Group) (n : Nat) (x : LocalQ) : (g.setLq n x).ctxs = g.ctxs := rfl
@[simp] theorem Group.setLq_counters (g : Group) (n : Nat) (x : LocalQ) : (g.setLq n x).counters = g.counters := rfl
@[simp] theorem Group.setLq_cmask (g : Group) (n : Nat) (x : LocalQ) : (g.setLq n x).cmask = g.cmask := rfl
@[simp] theorem Group.setLq_emask (g : Group) (n : Nat) (x : LocalQ) : (g.setLq n x).emask = g.emask := rfl
@[simp] theorem Group.setLq_entries (g : Group) (n : Nat) (x : LocalQ) : (g.setLq n x).entries = g.entries := rfl
@[simp] theorem Group.setLq_crossed (g : Group) (n : Nat) (x : LocalQ) : (g.setLq n x).crossed = g.crossed := rfl
@[simp] theorem Group.setLq_firings (g : Group) (n : Nat) (x : LocalQ) : (g.setLq n x).firings = g.firings := rfl
@[simp] theorem Group.setLq_chans (g : Group) (n : Nat) (x : LocalQ) : (g.setLq n x).chans = g.chans := rfl
@[simp] theorem Group.setLq_fifos (g : Group) (n : Nat) (x : LocalQ) : (g.setLq n x).fifos = g.fifos := rfl
@[simp] theorem Group.setLq_queues (g : Group) (n : Nat) (x : LocalQ) : (g.setLq n x).queues = g.queues := rfl
@[simp] theorem Group.setLq_progs (g : Group) (n : Nat) (x : LocalQ) : (g.setLq n x).progs = g.progs := rfl
@[simp] theorem Group.setLq_sideLog (g : Group) (n : Nat) (x : LocalQ) : (g.setLq n x).sideLog = g.sideLog := rfl
@[simp] theorem Group.setLq_lent (g : Group) (n : Nat) (x : LocalQ) : (g.setLq n x).lent = g.lent := rfl
@[simp] theorem Group.setLq_taskBusy (g : Group) (n : Nat) (x : LocalQ) : (g.setLq n x).taskBusy = g.taskBusy := rfl
@[simp] theorem Group.setLq_suspended (g : Group) (n : Nat) (x : LocalQ) : (g.setLq n x).suspended = g.suspended := rfl
@[simp] theorem Group.setLq_porterLast (g : Group) (n : Nat) (x : LocalQ) : (g.setLq n x).porterLast = g.porterLast := rfl
@[simp] theorem Group.setLq_batch (g : Group) (n : Nat) (x : LocalQ) : (g.setLq n x).batch = g.batch := rfl
@[simp] theorem Group.setLq_fired (g : Group) (n : Nat) (x : LocalQ) : (g.setLq n x).fired = g.fired := rfl
@[simp] theorem Group.setLq_ckpt (g : Group) (n : Nat) (x : LocalQ) : (g.setLq n x).ckpt = g.ckpt := rfl
@[simp] theorem Group.setLq_absent (g : Group) (n : Nat) (x : LocalQ) : (g.setLq n x).absent = g.absent := rfl
@[simp] theorem Group.setLq_parked (g : Group) (n : Nat) (x : LocalQ) : (g.setLq n x).parked = g.parked := rfl
@[simp] theorem Group.setLq_parkedRels (g : Group) (n : Nat) (x : LocalQ) : (g.setLq n x).parkedRels = g.parkedRels := rfl
@[simp] theorem Group.setLq_boundSeq (g : Group) (n : Nat) (x : LocalQ) : (g.setLq n x).boundSeq = g.boundSeq := rfl
@[simp] theorem Group.setChan_launch (g : Group) (n : Nat) (x : Chan) : (g.setChan n x).launch = g.launch := rfl
@[simp] theorem Group.setChan_tenant (g : Group) (n : Nat) (x : Chan) : (g.setChan n x).tenant = g.tenant := rfl
@[simp] theorem Group.setChan_tgen (g : Group) (n : Nat) (x : Chan) : (g.setChan n x).tgen = g.tgen := rfl
@[simp] theorem Group.setChan_gname (g : Group) (n : Nat) (x : Chan) : (g.setChan n x).gname = g.gname := rfl
@[simp] theorem Group.setChan_r (g : Group) (n : Nat) (x : Chan) : (g.setChan n x).r = g.r := rfl
@[simp] theorem Group.setChan_helpers (g : Group) (n : Nat) (x : Chan) : (g.setChan n x).helpers = g.helpers := rfl
@[simp] theorem Group.setChan_part (g : Group) (n : Nat) (x : Chan) : (g.setChan n x).part = g.part := rfl
@[simp] theorem Group.setChan_gmap (g : Group) (n : Nat) (x : Chan) : (g.setChan n x).gmap = g.gmap := rfl
@[simp] theorem Group.setChan_rect (g : Group) (n : Nat) (x : Chan) : (g.setChan n x).rect = g.rect := rfl
@[simp] theorem Group.setChan_role (g : Group) (n : Nat) (x : Chan) : (g.setChan n x).role = g.role := rfl
@[simp] theorem Group.setChan_save (g : Group) (n : Nat) (x : Chan) : (g.setChan n x).save = g.save := rfl
@[simp] theorem Group.setChan_trapvec (g : Group) (n : Nat) (x : Chan) : (g.setChan n x).trapvec = g.trapvec := rfl
@[simp] theorem Group.setChan_ctxs (g : Group) (n : Nat) (x : Chan) : (g.setChan n x).ctxs = g.ctxs := rfl
@[simp] theorem Group.setChan_counters (g : Group) (n : Nat) (x : Chan) : (g.setChan n x).counters = g.counters := rfl
@[simp] theorem Group.setChan_cmask (g : Group) (n : Nat) (x : Chan) : (g.setChan n x).cmask = g.cmask := rfl
@[simp] theorem Group.setChan_emask (g : Group) (n : Nat) (x : Chan) : (g.setChan n x).emask = g.emask := rfl
@[simp] theorem Group.setChan_entries (g : Group) (n : Nat) (x : Chan) : (g.setChan n x).entries = g.entries := rfl
@[simp] theorem Group.setChan_crossed (g : Group) (n : Nat) (x : Chan) : (g.setChan n x).crossed = g.crossed := rfl
@[simp] theorem Group.setChan_firings (g : Group) (n : Nat) (x : Chan) : (g.setChan n x).firings = g.firings := rfl
@[simp] theorem Group.setChan_lqs (g : Group) (n : Nat) (x : Chan) : (g.setChan n x).lqs = g.lqs := rfl
@[simp] theorem Group.setChan_fifos (g : Group) (n : Nat) (x : Chan) : (g.setChan n x).fifos = g.fifos := rfl
@[simp] theorem Group.setChan_queues (g : Group) (n : Nat) (x : Chan) : (g.setChan n x).queues = g.queues := rfl
@[simp] theorem Group.setChan_progs (g : Group) (n : Nat) (x : Chan) : (g.setChan n x).progs = g.progs := rfl
@[simp] theorem Group.setChan_sideLog (g : Group) (n : Nat) (x : Chan) : (g.setChan n x).sideLog = g.sideLog := rfl
@[simp] theorem Group.setChan_lent (g : Group) (n : Nat) (x : Chan) : (g.setChan n x).lent = g.lent := rfl
@[simp] theorem Group.setChan_taskBusy (g : Group) (n : Nat) (x : Chan) : (g.setChan n x).taskBusy = g.taskBusy := rfl
@[simp] theorem Group.setChan_suspended (g : Group) (n : Nat) (x : Chan) : (g.setChan n x).suspended = g.suspended := rfl
@[simp] theorem Group.setChan_porterLast (g : Group) (n : Nat) (x : Chan) : (g.setChan n x).porterLast = g.porterLast := rfl
@[simp] theorem Group.setChan_batch (g : Group) (n : Nat) (x : Chan) : (g.setChan n x).batch = g.batch := rfl
@[simp] theorem Group.setChan_fired (g : Group) (n : Nat) (x : Chan) : (g.setChan n x).fired = g.fired := rfl
@[simp] theorem Group.setChan_ckpt (g : Group) (n : Nat) (x : Chan) : (g.setChan n x).ckpt = g.ckpt := rfl
@[simp] theorem Group.setChan_absent (g : Group) (n : Nat) (x : Chan) : (g.setChan n x).absent = g.absent := rfl
@[simp] theorem Group.setChan_parked (g : Group) (n : Nat) (x : Chan) : (g.setChan n x).parked = g.parked := rfl
@[simp] theorem Group.setChan_parkedRels (g : Group) (n : Nat) (x : Chan) : (g.setChan n x).parkedRels = g.parkedRels := rfl
@[simp] theorem Group.setChan_boundSeq (g : Group) (n : Nat) (x : Chan) : (g.setChan n x).boundSeq = g.boundSeq := rfl
@[simp] theorem Group.setEntry_launch (g : Group) (n : Nat) (x : Entry) : (g.setEntry n x).launch = g.launch := rfl
@[simp] theorem Group.setEntry_tenant (g : Group) (n : Nat) (x : Entry) : (g.setEntry n x).tenant = g.tenant := rfl
@[simp] theorem Group.setEntry_tgen (g : Group) (n : Nat) (x : Entry) : (g.setEntry n x).tgen = g.tgen := rfl
@[simp] theorem Group.setEntry_gname (g : Group) (n : Nat) (x : Entry) : (g.setEntry n x).gname = g.gname := rfl
@[simp] theorem Group.setEntry_r (g : Group) (n : Nat) (x : Entry) : (g.setEntry n x).r = g.r := rfl
@[simp] theorem Group.setEntry_helpers (g : Group) (n : Nat) (x : Entry) : (g.setEntry n x).helpers = g.helpers := rfl
@[simp] theorem Group.setEntry_part (g : Group) (n : Nat) (x : Entry) : (g.setEntry n x).part = g.part := rfl
@[simp] theorem Group.setEntry_gmap (g : Group) (n : Nat) (x : Entry) : (g.setEntry n x).gmap = g.gmap := rfl
@[simp] theorem Group.setEntry_rect (g : Group) (n : Nat) (x : Entry) : (g.setEntry n x).rect = g.rect := rfl
@[simp] theorem Group.setEntry_role (g : Group) (n : Nat) (x : Entry) : (g.setEntry n x).role = g.role := rfl
@[simp] theorem Group.setEntry_save (g : Group) (n : Nat) (x : Entry) : (g.setEntry n x).save = g.save := rfl
@[simp] theorem Group.setEntry_trapvec (g : Group) (n : Nat) (x : Entry) : (g.setEntry n x).trapvec = g.trapvec := rfl
@[simp] theorem Group.setEntry_ctxs (g : Group) (n : Nat) (x : Entry) : (g.setEntry n x).ctxs = g.ctxs := rfl
@[simp] theorem Group.setEntry_counters (g : Group) (n : Nat) (x : Entry) : (g.setEntry n x).counters = g.counters := rfl
@[simp] theorem Group.setEntry_cmask (g : Group) (n : Nat) (x : Entry) : (g.setEntry n x).cmask = g.cmask := rfl
@[simp] theorem Group.setEntry_emask (g : Group) (n : Nat) (x : Entry) : (g.setEntry n x).emask = g.emask := rfl
@[simp] theorem Group.setEntry_crossed (g : Group) (n : Nat) (x : Entry) : (g.setEntry n x).crossed = g.crossed := rfl
@[simp] theorem Group.setEntry_firings (g : Group) (n : Nat) (x : Entry) : (g.setEntry n x).firings = g.firings := rfl
@[simp] theorem Group.setEntry_lqs (g : Group) (n : Nat) (x : Entry) : (g.setEntry n x).lqs = g.lqs := rfl
@[simp] theorem Group.setEntry_chans (g : Group) (n : Nat) (x : Entry) : (g.setEntry n x).chans = g.chans := rfl
@[simp] theorem Group.setEntry_fifos (g : Group) (n : Nat) (x : Entry) : (g.setEntry n x).fifos = g.fifos := rfl
@[simp] theorem Group.setEntry_queues (g : Group) (n : Nat) (x : Entry) : (g.setEntry n x).queues = g.queues := rfl
@[simp] theorem Group.setEntry_progs (g : Group) (n : Nat) (x : Entry) : (g.setEntry n x).progs = g.progs := rfl
@[simp] theorem Group.setEntry_sideLog (g : Group) (n : Nat) (x : Entry) : (g.setEntry n x).sideLog = g.sideLog := rfl
@[simp] theorem Group.setEntry_lent (g : Group) (n : Nat) (x : Entry) : (g.setEntry n x).lent = g.lent := rfl
@[simp] theorem Group.setEntry_taskBusy (g : Group) (n : Nat) (x : Entry) : (g.setEntry n x).taskBusy = g.taskBusy := rfl
@[simp] theorem Group.setEntry_suspended (g : Group) (n : Nat) (x : Entry) : (g.setEntry n x).suspended = g.suspended := rfl
@[simp] theorem Group.setEntry_porterLast (g : Group) (n : Nat) (x : Entry) : (g.setEntry n x).porterLast = g.porterLast := rfl
@[simp] theorem Group.setEntry_batch (g : Group) (n : Nat) (x : Entry) : (g.setEntry n x).batch = g.batch := rfl
@[simp] theorem Group.setEntry_fired (g : Group) (n : Nat) (x : Entry) : (g.setEntry n x).fired = g.fired := rfl
@[simp] theorem Group.setEntry_ckpt (g : Group) (n : Nat) (x : Entry) : (g.setEntry n x).ckpt = g.ckpt := rfl
@[simp] theorem Group.setEntry_absent (g : Group) (n : Nat) (x : Entry) : (g.setEntry n x).absent = g.absent := rfl
@[simp] theorem Group.setEntry_parked (g : Group) (n : Nat) (x : Entry) : (g.setEntry n x).parked = g.parked := rfl
@[simp] theorem Group.setEntry_parkedRels (g : Group) (n : Nat) (x : Entry) : (g.setEntry n x).parkedRels = g.parkedRels := rfl
@[simp] theorem Group.setEntry_boundSeq (g : Group) (n : Nat) (x : Entry) : (g.setEntry n x).boundSeq = g.boundSeq := rfl

end Sys2Proof.Machine
end

