-- ==== Sys2Proof/Laws/Ops.lean ====
section
/-! SUPPORT. Sys2Proof/Laws/Ops.lean: what the accessors of units and registers read after each update, what the monad of a meaning
does, and what a turn can end in. -/
namespace Sys2Proof.Machine

/-! ## Units -/

@[simp] theorem State.core_setCore (s : State) (n : Nat) (x : Core) : (s.setCore n x).core n = x := Cells.get_set_self _ _ _ _
theorem State.core_setCore_other (s : State) {n k : Nat} (x : Core) (h : k ≠ n) : (s.setCore n x).core k = s.core k :=
  Cells.get_set_other _ _ _ h
@[simp] theorem State.core_modCore (s : State) (n : Nat) (f : Core → Core) : (s.modCore n f).core n = f (s.core n) :=
  State.core_setCore _ _ _
theorem State.core_modCore_other (s : State) {n k : Nat} (f : Core → Core) (h : k ≠ n) : (s.modCore n f).core k = s.core k :=
  State.core_setCore_other _ _ h
@[simp] theorem State.group_modGroup (s : State) (n : Nat) (f : Group → Group) : (s.modGroup n f).group n = f (s.group n) := by
  simp [State.group, State.modGroup]
theorem State.group_modGroup_other (s : State) {n k : Nat} (f : Group → Group) (h : k ≠ n) :
    (s.modGroup n f).group k = s.group k := by
  simp [State.group, State.modGroup, State.core_modCore_other _ _ h]
@[simp] theorem Group.ctx_setCtx (g : Group) (n : Nat) (x : Ctx) : (g.setCtx n x).ctx n = x := Cells.get_set_self _ _ _ _
theorem Group.ctx_setCtx_other (g : Group) {n k : Nat} (x : Ctx) (h : k ≠ n) : (g.setCtx n x).ctx k = g.ctx k :=
  Cells.get_set_other _ _ _ h
@[simp] theorem Group.ctx_modCtx (g : Group) (n : Nat) (f : Ctx → Ctx) : (g.modCtx n f).ctx n = f (g.ctx n) :=
  Group.ctx_setCtx _ _ _
theorem Group.ctx_modCtx_other (g : Group) {n k : Nat} (f : Ctx → Ctx) (h : k ≠ n) : (g.modCtx n f).ctx k = g.ctx k :=
  Group.ctx_setCtx_other _ _ h
@[simp] theorem State.ctx_setCtx (s : State) (n c : Nat) (x : Ctx) : (s.setCtx n c x).ctx n c = x := by
  simp [State.ctx, State.setCtx]
@[simp] theorem State.ctx_modCtx (s : State) (n c : Nat) (f : Ctx → Ctx) : (s.modCtx n c f).ctx n c = f (s.ctx n c) := by
  simp [State.ctx, State.modCtx]
theorem State.ctx_setCtx_other (s : State) {n c k i : Nat} (x : Ctx) (h : k ≠ n ∨ i ≠ c) :
    (s.setCtx n c x).ctx k i = s.ctx k i := by
  unfold State.ctx State.setCtx
  by_cases hk : k = n
  · subst hk
    rw [State.group_modGroup, Group.ctx_setCtx_other _ _ (h.resolve_left (by simp))]
  · rw [State.group_modGroup_other _ _ hk]
theorem State.ctx_modCtx_other (s : State) {n c k i : Nat} (f : Ctx → Ctx) (h : k ≠ n ∨ i ≠ c) :
    (s.modCtx n c f).ctx k i = s.ctx k i := by
  unfold State.ctx State.modCtx
  by_cases hk : k = n
  · subst hk
    rw [State.group_modGroup, Group.ctx_modCtx_other _ _ (h.resolve_left (by simp))]
  · rw [State.group_modGroup_other _ _ hk]

/-! ## The context whose turn it is -/

@[simp] theorem State.modCore_modCore (s : State) (n : Nat) (f g : Core → Core) :
    (s.modCore n f).modCore n g = s.modCore n fun c => g (f c) := by
  simp only [State.modCore, State.core_setCore]
  simp only [State.setCore, Cells.set_set]
@[simp] theorem State.me_setMe (s : State) (x : Ctx) : (s.setMe x).me = x := by simp [State.me, State.setMe]
@[simp] theorem State.modMe_modMe (s : State) (f g : Ctx → Ctx) : (s.modMe f).modMe g = s.modMe fun c => g (f c) := by
  have h : ∀ x, (s.setMe x).setMe (g x) = s.setMe (g x) := by
    intro x
    simp only [State.setMe, State.setCtx, State.modGroup]
    rw [show (s.modCore s.curCore fun c => { c with group := c.group.setCtx s.curCtx x }).curCore = s.curCore from rfl,
      show (s.modCore s.curCore fun c => { c with group := c.group.setCtx s.curCtx x }).curCtx = s.curCtx from rfl,
      State.modCore_modCore]
    simp only [Group.setCtx, Cells.set_set]
  show (s.setMe (f s.me)).setMe (g (s.setMe (f s.me)).me) = s.setMe (g (f s.me))
  rw [State.me_setMe]; exact h _

@[simp] theorem State.me_modMe (s : State) (f : Ctx → Ctx) : (s.modMe f).me = f s.me := by simp [State.modMe]
theorem State.ctx_setMe_other (s : State) {k i : Nat} (x : Ctx) (h : k ≠ s.curCore ∨ i ≠ s.curCtx) :
    (s.setMe x).ctx k i = s.ctx k i := State.ctx_setCtx_other s x h
theorem State.ctx_modMe_other (s : State) {k i : Nat} (f : Ctx → Ctx) (h : k ≠ s.curCore ∨ i ≠ s.curCtx) :
    (s.modMe f).ctx k i = s.ctx k i := State.ctx_setMe_other s _ h
/-- Changing the current context changes only the table of contexts of its group. -/
theorem State.group_setMe (s : State) (x : Ctx) : (s.setMe x).group s.curCore = (s.group s.curCore).setCtx s.curCtx x := by
  simp [State.setMe, State.setCtx]
theorem State.group_setMe_other (s : State) (x : Ctx) {k : Nat} (h : k ≠ s.curCore) : (s.setMe x).group k = s.group k :=
  State.group_modGroup_other _ _ h
@[simp] theorem State.myGroup_modMe_r (s : State) (f : Ctx → Ctx) : (s.modMe f).myGroup.r = s.myGroup.r := by
  simp [State.myGroup, State.modMe, State.group_setMe]

/-! ## Registers -/

@[simp] theorem Ctx.s_zero (c : Ctx) : c.s 0 = 0 := by simp [Ctx.s]
@[simp] theorem Ctx.setSReg_zero (c : Ctx) (v : Word) : c.setSReg 0 v = c := by simp [Ctx.setSReg]
theorem Ctx.s_setSReg_self (c : Ctx) {r : SReg} (v : Word) (h : r ≠ 0) : (c.setSReg r v).s r = v := by
  unfold Ctx.s Ctx.setSReg
  simp only [if_neg h]
  by_cases h8 : r.toNat < 8
  · simp only [if_pos h8, Cells.get_set_self]
  · simp only [if_neg h8, Ctx.stackIdx, Cells.get_set_self]
/-- What a scalar register reads rests on the low registers, the stack and the window alone. -/
theorem Ctx.s_congr {c e : Ctx} (h1 : c.low = e.low) (h2 : c.stack = e.stack) (h3 : c.wb = e.wb) (r : SReg) : c.s r = e.s r := by
  unfold Ctx.s Ctx.stackIdx
  rw [h1, h2, h3]
@[simp] theorem Ctx.setSReg_pc (c : Ctx) (r : SReg) (v : Word) : (c.setSReg r v).pc = c.pc := by
  unfold Ctx.setSReg; split <;> [rfl; split <;> rfl]
/-- Writing a scalar register leaves every other one. -/
theorem Ctx.s_setSReg_other (c : Ctx) {r q : SReg} (v : Word) (h : q ≠ r) : (c.setSReg r v).s q = c.s q := by
  have hn : q.toNat ≠ r.toNat := fun e => h (BitVec.eq_of_toNat_eq e)
  unfold Ctx.s Ctx.setSReg
  by_cases h0 : r = 0
  · simp only [if_pos h0]
  · simp only [if_neg h0]
    by_cases h8 : r.toNat < 8 <;> by_cases q8 : q.toNat < 8 <;> simp only [h8, q8, if_true, if_false, Ctx.stackIdx]
    · rw [Cells.get_set_other _ _ _ hn]
    · rw [Cells.get_set_other _ _ _ (by omega)]
@[simp] theorem Ctx.mask_zero (c : Ctx) : c.mask 0 = BitVec.allOnes 128 := by simp [Ctx.mask]
@[simp] theorem Ctx.setMask_zero (c : Ctx) (v : MaskW) : c.setMask 0 v = c := by simp [Ctx.setMask]
theorem Ctx.mask_setMask_self (c : Ctx) {r : MReg} (v : MaskW) (h : r ≠ 0) : (c.setMask r v).mask r = v := by
  unfold Ctx.mask Ctx.setMask
  simp only [if_neg h, Cells.get_set_self]
theorem Ctx.mask_setMask_other (c : Ctx) {r q : MReg} (v : MaskW) (h : q ≠ r) : (c.setMask r v).mask q = c.mask q := by
  have hn : q.toNat ≠ r.toNat := fun e => h (BitVec.eq_of_toNat_eq e)
  unfold Ctx.mask Ctx.setMask
  by_cases h0 : r = 0
  · simp only [if_pos h0]
  · simp only [if_neg h0, Cells.get_set_other _ _ _ hn]
@[simp] theorem Ctx.vreg_setV_self (c : Ctx) (r : VReg) (v : Line) : (c.setV r v).vreg r = v := Cells.get_set_self _ _ _ _
theorem Ctx.vreg_setV_other (c : Ctx) {r q : VReg} (v : Line) (h : q ≠ r) : (c.setV r v).vreg q = c.vreg q :=
  Cells.get_set_other _ _ _ fun e => h (BitVec.eq_of_toNat_eq e)
@[simp] theorem Ctx.port_setPort_self (c : Ctx) (q : QReg) (p : Port) : (c.setPort q p).port q = p := Cells.get_set_self _ _ _ _
theorem Ctx.port_setPort_other (c : Ctx) {q r : QReg} (p : Port) (h : r ≠ q) : (c.setPort q p).port r = c.port r :=
  Cells.get_set_other _ _ _ fun e => h (BitVec.eq_of_toNat_eq e)

/-! ## The monad of a meaning -/

@[simp] theorem M.bind_run {α β : Type} (m : M α) (k : α → M β) (s : State) :
    (m >>= k) s = (match m s with
      | .ok (a, s') => k a s'
      | .error e => .error e) := by
  show (StateT.bind m k) s = _
  unfold StateT.bind
  show (Except.bind (m s) _) = _
  cases m s <;> rfl
@[simp] theorem M.pure_run {α : Type} (a : α) (s : State) : (pure a : M α) s = .ok (a, s) := rfl
@[simp] theorem M.get_run (s : State) : (get : M State) s = .ok (s, s) := rfl
@[simp] theorem M.set_run (s t : State) : (set t : M PUnit) s = .ok ((), t) := rfl
@[simp] theorem M.modify_run (f : State → State) (s : State) : (modify f : M PUnit) s = .ok ((), f s) := rfl
@[simp] theorem M.modS_run (f : State → State) (s : State) : modS f s = .ok ((), f s) := rfl
@[simp] theorem M.modMe_run (f : Ctx → Ctx) (s : State) : modMe f s = .ok ((), s.modMe f) := rfl
@[simp] theorem M.modMyGroup_run (f : Group → Group) (s : State) : modMyGroup f s = .ok ((), s.modGroup s.curCore f) := rfl
@[simp] theorem M.me_run (s : State) : me s = .ok (s.me, s) := rfl
@[simp] theorem M.myGroup_run (s : State) : myGroup s = .ok (s.myGroup, s) := rfl
@[simp] theorem M.myActor_run (s : State) : myActor s = .ok (s.actor s.curCore s.curCtx, s) := rfl
@[simp] theorem M.trapM_run {α : Type} (code : Nat) (tval : Word) (mem : Bool) (s : State) :
    (trapM code tval mem : M α) s = .error (.trap code tval mem) := rfl
@[simp] theorem M.stayM_run {α : Type} (f : State → State) (s : State) : (stayM f : M α) s = .error (.stay f) := rfl
@[simp] theorem M.spend_run {α : Type} (s : State) : (spend : M α) s = .error (.stay id) := rfl
@[simp] theorem M.waitM_run {α : Type} (w : Wait) (s : State) :
    (waitM w : M α) s = .error (.stay fun s => s.modMe fun c => { c with status := .waiting w }) := rfl
@[simp] theorem M.rdM_run (r : MReg) (s : State) : rdM r s = .ok (s.me.mask r, s) := rfl
@[simp] theorem M.wrM_run (r : MReg) (v : MaskW) (s : State) : wrM r v s = .ok ((), s.modMe fun c => c.setMask r v) := rfl
@[simp] theorem M.wrV_run (r : VReg) (v : Line) (s : State) : wrV r v s = .ok ((), s.modMe fun c => c.setV r v) := rfl
@[simp] theorem M.endRegion_run (s : State) : endRegion s = .ok ((), s.modMe Ctx.nextRegion) := rfl
@[simp] theorem M.fenceRel_run (s : State) : fenceRel s = .ok (s.me.fenceRel, s) := rfl

/-- Reading a scalar register whose result is there. -/
theorem M.rdS_run {r : SReg} {s : State} (h : .s (s.me.skey r) ∉ s.me.late) : rdS r s = .ok (s.me.s r, s) := by
  simp [rdS, h]
/-- A late result spends the turn (R35). -/
theorem M.rdS_late {r : SReg} {s : State} (h : .s (s.me.skey r) ∈ s.me.late) :
    rdS r s = .error (.stay id) := by
  simp [rdS, h]
/-- Named registers that are all resident. -/
theorem M.names_run {op : Nat} {rs : List (Nat × SReg)} {s : State} (h : firstAbsent s.me s.myGroup.r rs = none) :
    names op rs s = .ok ((), s) := by
  simp [names, h]
/-- A named register that is not resident is an illegal instruction (R53). -/
theorem M.names_absent {op b : Nat} {rs : List (Nat × SReg)} {s : State} (h : firstAbsent s.me s.myGroup.r rs = some b) :
    names op rs s = .error (.trap 1 (illegalRecord ⟨4, b, op⟩) false) := by
  simp [names, h, illegal]
theorem M.needM_run {c : Bool} {code : Nat} {tval : Word} {s : State} (h : c = true) : needM c code tval s = .ok ((), s) := by
  simp [needM, h]
theorem M.needM_trap {c : Bool} {code : Nat} {tval : Word} {s : State} (h : c = false) :
    needM c code tval s = .error (.trap code tval false) := by
  simp [needM, h]

/-! ## Turns -/

/-- What a turn leaves: the effect, what a spent turn changes, or the trap. -/
theorem State.turn_ok {s t : State} {len : Nat} {m : M Unit} (h : m s = .ok ((), t)) : s.turn len m = t := by
  simp [State.turn, h]
theorem State.turn_stay {s : State} {len : Nat} {m : M Unit} {f : State → State} (h : m s = .error (.stay f)) :
    s.turn len m = f s := by
  simp [State.turn, h]
theorem State.turn_trap {s : State} {len code : Nat} {tval : Word} {mem : Bool} {m : M Unit}
    (h : m s = .error (.trap code tval mem)) :
    s.turn len m = s.enterTrap s.curCore s.curCtx code tval
      (if epcIsNext code then s.me.pc + BitVec.ofNat 64 len else s.me.pc) mem false := by
  simp [State.turn, h]
/-- Every meaning of an instruction answers a next state. -/
theorem runInstr_next (len : Nat) (m : M Unit) (s : State) : runInstr len m s = .next (s.turn len m) := rfl

end Sys2Proof.Machine
end

