-- ==== Sys2Proof/Laws/Shapes.lean ====
section
/-! SUPPORT. Sys2Proof/Laws/Shapes.lean: what each shared operation of the instructions can do: one lemma for each, which statements
about single instructions cite. -/
namespace Sys2Proof.Machine

theorem M.advance_run (len : Nat) (s : State) : advance len s = .ok ((), s.past len) := rfl
theorem M.jumpTo_run (t : Word) (s : State) : jumpTo t s = .ok ((), s.jumped t) := rfl
theorem M.branchIf_run (taken : Bool) (off : BitVec 32) (s : State) :
    branchIf taken off s = .ok ((), if taken then s.jumped (s.me.pc + off.signExtend 64 * 4) else s.past 8) := by
  have h : ∀ w : Word, w <<< 2 = w * 4 := by
    intro w; apply BitVec.eq_of_toNat_eq; simp [Nat.shiftLeft_eq]
  cases taken
  · rfl
  · simp only [branchIf, M.bind_run, M.me_run, branchTarget, h, if_true, M.jumpTo_run]

/-! ## Scalar shapes -/

theorem alu1_spec {op : Nat} {mk : SQ → SQ → Instr} {f : Word → Word} (h : ∀ d a s, exec (mk d a) s = alu1 op d a f s) :
    Unary 8 op mk f := by
  refine ⟨?_, ?_, ?_⟩
  · intro s t u d a x h1 h2 h3
    simp only [State.resident, State.gives, State.takes] at h1 h2 h3
    simp [h, alu1, instr, runInstr, State.turn, namesQ, M.names_run h1, h2, h3, advance, State.past]
  · intro s d a h1 h2
    simp only [State.resident, State.ready] at h1 h2
    simp [h, alu1, instr, runInstr, State.turn, namesQ, sqRegs, M.names_run h1, rdQ, M.rdS_run h2, wrQ, wrS, advance,
      State.past, State.wroteS]
  · intro s d a b h1
    simp [h, alu1, instr, runInstr, State.turn, namesQ, M.names_absent h1, epcIsNext]
theorem alu2_spec {op : Nat} {mk : SQ → SQ → SQ → Instr} {f : Word → Word → Word}
    (h : ∀ d a b s, exec (mk d a b) s = alu2 op d a b f s) : Binary op mk f := by
  refine ⟨?_, ?_, ?_⟩
  · intro s t u w d a b x y h1 h2 h3 h4
    simp only [State.resident, State.gives, State.takes] at h1 h2 h3 h4
    simp [h, alu2, instr, runInstr, State.turn, namesQ, M.names_run h1, h2, h3, h4, advance, State.past]
  · intro s d a b h1 h2 h3
    simp only [State.resident, State.ready] at h1 h2 h3
    simp [h, alu2, instr, runInstr, State.turn, namesQ, sqRegs, M.names_run h1, rdQ, M.rdS_run h2, M.rdS_run h3, wrQ, wrS,
      advance, State.past, State.wroteS]
  · intro s d a b n h1
    simp [h, alu2, instr, runInstr, State.turn, namesQ, M.names_absent h1, epcIsNext]
theorem M.wrSLate_run (d : SReg) (v : Word) (s : State) : wrSLate d v s = .ok ((), s.wroteLate d v) := rfl
theorem M.wrS_run (d : SReg) (v : Word) (s : State) : wrS d v s = .ok ((), s.wroteS d v) := rfl
theorem alu2Late_spec {op : Nat} {mk : SQ → SQ → SQ → Instr} {f : Word → Word → Word}
    (h : ∀ d a b s, exec (mk d a b) s = alu2Late op d a b f s) : BinaryLate mk f := by
  refine ⟨?_, ?_⟩
  · intro s t u w d a b x y h1 h2 h3 h4
    simp only [State.resident, State.gives] at h1 h2 h3 h4
    simp [h, alu2Late, instr, runInstr, State.turn, namesQ, M.names_run h1, h2, h3, h4, advance, State.past]
  · intro s d a b h1 h2 h3
    simp only [State.resident, State.ready] at h1 h2 h3
    simp [h, alu2Late, instr, runInstr, State.turn, namesQ, sqRegs, M.names_run h1, rdQ, M.rdS_run h2, M.rdS_run h3, wrQLate,
      M.wrSLate_run, advance, State.past]
theorem alu3_spec {op : Nat} {mk : SQ → SQ → SQ → SQ → Instr} {f : Word → Word → Word → Word}
    (h : ∀ d a b c s, exec (mk d a b c) s = alu3 op d a b c f s) : Ternary mk f := by
  refine ⟨?_, ?_⟩
  · intro s t u v w d a b c x y z h1 h2 h3 h4 h5
    simp only [State.resident, State.gives, State.takes] at h1 h2 h3 h4 h5
    simp [h, alu3, instr, runInstr, State.turn, namesQ, M.names_run h1, h2, h3, h4, h5, advance, State.past]
  · intro s d a b c h1 h2 h3 h4
    simp only [State.resident, State.ready] at h1 h2 h3 h4
    simp [h, alu3, instr, runInstr, State.turn, namesQ, sqRegs, M.names_run h1, rdQ, M.rdS_run h2, M.rdS_run h3, M.rdS_run h4,
      wrQ, M.wrS_run, advance, State.past]
theorem aluFx_spec {op : Nat} {mk : SReg → Instr} {f : Word → Word} (h : ∀ d s, exec (mk d) s = aluFx op d f s) :
    InPlace mk f := by
  intro s d h1 h2
  simp only [State.resident, State.ready] at h1 h2
  simp [h, aluFx, instr, runInstr, State.turn, M.names_run h1, M.rdS_run h2, M.wrS_run, advance, State.past]

/-! ## Events, traps and random words -/

theorem M.event_run {e : Nat} {s : State} : event e 1 s = .ok ((), s.modMe fun c => c.addEv e 1) := rfl
theorem M.countAll_run (es : List Nat) (s : State) : countAll es s = .ok ((), s.counted es) := by
  induction es generalizing s with
  | nil => rfl
  | cons e t ih => simp [countAll, M.event_run, ih, State.counted]
theorem M.settle_run {rs : List (Nat × NRes)} {s : State} (h : trapOf rs = none) :
    settle rs s = .ok ((), s.counted (eventsOf (rs.map (·.2)))) := by
  simp [settle, h, M.countAll_run]
theorem M.settle_trap {rs : List (Nat × NRes)} {s : State} {l k : Nat} (h : trapOf rs = some (l, k)) :
    settle rs s = .error (.trap 0x0A (BitVec.ofNat 64 (l + 256 * k)) false) := by
  simp [settle, h]
theorem M.rngTake_run (rm : Rm) (n : Nat) (s : State) : rngTake rm n s = .ok (s.rngWords rm n, s.drew rm n) := by
  unfold rngTake State.rngWords State.drew
  split <;> rfl
@[simp] theorem State.counted_ev (s : State) (es : List Nat) :
    (s.counted es).curCore = s.curCore ∧ (s.counted es).curCtx = s.curCtx := by
  induction es generalizing s with
  | nil => exact ⟨rfl, rfl⟩
  | cons e t ih => simpa [State.counted] using ih (s.modMe fun c => c.addEv e 1)
/-- Counting events changes the event counters of the current context alone. -/
theorem State.counted_me (s : State) (es : List Nat) :
    (s.counted es).me = { s.me with ev := (s.counted es).me.ev } := by
  induction es generalizing s with
  | nil => rfl
  | cons e t ih =>
    have := ih (s.modMe fun c => c.addEv e 1)
    simp only [State.counted, List.foldl_cons] at this ⊢
    rw [this]; simp [Ctx.addEv]

/-! ## Float shapes -/

theorem fop2_spec {op : Nat} {f : FFmt} {mk : Rm → Bool → SQ → SQ → SQ → Instr}
    {g : FFmt → Rm → Bool → Nat → Nat → Nat → NRes} (late : Bool)
    (h : ∀ rm sat d a b s, exec (mk rm sat d a b) s = fop2 op f rm sat d a b g (if late then wrQLate else wrQ) s) :
    FloatBinary mk (g f) late := by
  refine ⟨?_, ?_⟩
  · intro s t u w rm sat d a b x y h1 h2 h3 h4 h5
    simp only [State.resident, State.gives] at h1 h2 h3
    simp [h, fop2, instr, runInstr, State.turn, namesQ, M.names_run h1, h2, h3, rngOne, M.rngTake_run, M.settle_run h4, h5,
      advance, State.past]
  · intro s rm sat d a b h1 h2 h3 h4
    simp only [State.resident, State.ready] at h1 h2 h3
    cases late <;>
      simp [h, fop2, instr, runInstr, State.turn, namesQ, sqRegs, M.names_run h1, rdQ, M.rdS_run h2, M.rdS_run h3, rngOne,
        M.rngTake_run, M.settle_run h4, wrQ, wrQLate, M.wrS_run, M.wrSLate_run, advance, State.past]
theorem fop1_spec {op : Nat} {f : FFmt} {mk : Rm → Bool → SQ → SQ → Instr}
    (h : ∀ rm sat d a s, exec (mk rm sat d a) s = fop1 op f rm sat d a s) : FloatUnary mk (fSqrt f) := by
  intro s rm sat d a h1 h2 h3
  simp only [State.resident, State.ready] at h1 h2
  simp [h, fop1, instr, runInstr, State.turn, namesQ, sqRegs, M.names_run h1, rdQ, M.rdS_run h2, rngOne, M.rngTake_run,
    M.settle_run h3, wrQLate, M.wrSLate_run, advance, State.past]
theorem fop3_spec {op : Nat} {f : FFmt} {mk : Rm → Bool → SQ → SQ → SQ → SQ → Instr}
    (h : ∀ rm sat d a b c s, exec (mk rm sat d a b c) s = fop3 op f rm sat d a b c s) : FloatTernary mk (fFma f) := by
  intro s rm sat d a b c h1 h2 h3 h4 h5
  simp only [State.resident, State.ready] at h1 h2 h3 h4
  simp [h, fop3, instr, runInstr, State.turn, namesQ, sqRegs, M.names_run h1, rdQ, M.rdS_run h2, M.rdS_run h3, M.rdS_run h4,
    rngOne, M.rngTake_run, M.settle_run h5, wrQ, M.wrS_run, advance, State.past]

/-! ## Vector shapes -/

theorem M.freshVQ_run {d : VQ} {s : State} (h : s.fresh d) : freshVQ d s = .ok ((), s) := by
  cases d with
  | v r => simp only [State.fresh] at h; simp [freshVQ, freshV, h]
  | q q => rfl
theorem M.freshV_trap {r : VReg} {s : State} (h : s.me.held r = true) :
    freshV r s = .error (.trap 0x0C (BitVec.ofNat 64 r.toNat) false) := by
  simp [freshV, h]
/-- A vector register whose value is there. -/
theorem M.rdV_run {r : VReg} {s : State} (h : s.vready r) : rdV r s = .ok (s.me.vreg r, s) := by
  obtain ⟨h1, h2, h3⟩ := h
  have : s.me.deposited.filter (fun p => p.1 == r) = [] := by
    rw [List.filter_eq_nil_iff]; intro p hp; simpa using h3 p hp
  simp [rdV, h1, h2, this]
theorem M.vecOp_run {w n : Nat} {k : VMask} {d : VQ} {put : VQ → Line → M Unit} {f : Nat → NRes} {s t : State}
    (h : LanesTo s w n k d put f t) : vecOp w n k d put f s = .ok ((), t) := by
  obtain ⟨h1, h2⟩ := h
  have ho : oldVQ (s.counted (eventsOf ((s.lanes n k f).map (·.2)))).me d = oldVQ s.me d := by
    rw [State.counted_me]; cases d <;> rfl
  have hs := M.settle_run (s := s) h1
  simp only [State.lanes] at hs ho h2
  simp only [vecOp, rdMask, M.bind_run, M.rdM_run, hs, M.me_run]
  rw [ho]
  exact h2
theorem M.vecOp_trap {w n : Nat} {k : VMask} {d : VQ} {put : VQ → Line → M Unit} {f : Nat → NRes} {s : State} {l c : Nat}
    (h : trapOf (s.lanes n k f) = some (l, c)) :
    vecOp w n k d put f s = .error (.trap 0x0A (BitVec.ofNat 64 (l + 256 * c)) false) := by
  simp only [State.lanes] at h
  simp only [vecOp, rdMask, M.bind_run, M.rdM_run, M.settle_trap h]
theorem vec1_spec {t : ElemTy} {mk : VMask → VQ → VQ → Instr} {put : VQ → Line → M Unit} {rm : Rm} {f : Nat → Nat → NRes}
    (h : ∀ k d a s, exec (mk k d a) s = vec1 t k d a put rm f s) : Vec1 t mk put rm f := by
  refine ⟨?_, ?_⟩
  · intro s u w k d a x h1 h2 h3
    simp only [State.vgives] at h2
    simp [h, vec1, instr, runInstr, State.turn, M.freshVQ_run h1, h2, M.rngTake_run, M.vecOp_run h3, advance, State.past]
  · intro s k r a h1
    simp [h, vec1, instr, runInstr, State.turn, freshVQ, M.freshV_trap h1, epcIsNext, State.trapped]
theorem vec2_spec {t : ElemTy} {mk : VMask → VQ → VQ → VQ → Instr} {put : VQ → Line → M Unit} {rm : Rm}
    {f : Nat → Nat → Nat → NRes} (h : ∀ k d a b s, exec (mk k d a b) s = vec2 t k d a b put rm f s) :
    Vec2 t mk put rm f := by
  refine ⟨?_, ?_⟩
  · intro s u v w k d a b x y h1 h2 h3 h4
    simp only [State.vgives] at h2 h3
    simp [h, vec2, instr, runInstr, State.turn, M.freshVQ_run h1, h2, h3, M.rngTake_run, M.vecOp_run h4, advance, State.past]
  · intro s k r a b h1
    simp [h, vec2, instr, runInstr, State.turn, freshVQ, M.freshV_trap h1, epcIsNext, State.trapped]
theorem vec3_spec {t : ElemTy} {mk : VMask → VQ → VQ → VQ → VQ → Instr} {rm : Rm} {f : Nat → Nat → Nat → Nat → NRes}
    (h : ∀ k d a b c s, exec (mk k d a b c) s = vec3 t k d a b c rm f s) : Vec3 t mk rm f := by
  refine ⟨?_, ?_⟩
  · intro s u v x w k d a b c la lb lc h1 h2 h3 h4 h5
    simp only [State.vgives] at h2 h3 h4
    simp [h, vec3, instr, runInstr, State.turn, M.freshVQ_run h1, h2, h3, h4, M.rngTake_run, M.vecOp_run h5, advance, State.past]
  · intro s k r a b c h1
    simp [h, vec3, instr, runInstr, State.turn, freshVQ, M.freshV_trap h1, epcIsNext, State.trapped]
theorem mask2_spec {mk : MReg → MReg → MReg → Instr} {f : MaskW → MaskW → MaskW}
    (h : ∀ d a b s, exec (mk d a b) s = mask2 d a b f s) : Mask2 mk f := by
  intro s d a b
  simp [h, mask2, instr, runInstr, State.turn, advance, State.past, State.wroteM]
/-- The lane count of field b. -/
theorem M.countOf_run {b : SReg} {s : State} (h : s.ready b) : countOf b s = .ok (s.countIn b, s) := by
  simp only [countOf, M.bind_run, M.rdS_run h, M.pure_run, State.countIn, laneCount]
  by_cases h0 : b = 0
  · simp [h0]
  · simp only [h0, if_false, false_or]
    congr 2
    have hz : s.me.s b = 0 ↔ (s.me.s b).toNat = 0 := by
      constructor
      · intro h; rw [h]; rfl
      · intro h; exact BitVec.eq_of_toNat_eq (by simpa using h)
    simp only [hz]
    by_cases h1 : 1 ≤ (s.me.s b).toNat <;> by_cases h2 : (s.me.s b).toNat ≤ 128 <;> simp [h1, h2] <;> omega
theorem lowOnes_bit (n i : Nat) (hi : i < 128) : (BitVec.ofNat 128 (2 ^ n - 1)).getLsbD i = decide (i < n) := by
  rw [BitVec.getLsbD_ofNat, Nat.testBit_two_pow_sub_one]; simp [hi]
@[simp] theorem State.drew_mask (u : State) (rm n) : (u.drew rm n).me.mask = u.me.mask := by
  unfold State.drew; split <;> simp [Ctx.mask, funext_iff]
@[simp] theorem State.drew_vreg (u : State) (rm n) : (u.drew rm n).me.vreg = u.me.vreg := by
  unfold State.drew; split <;> simp [Ctx.vreg, funext_iff]
/-- Conversions of lanes. -/
theorem cvt_spec {dt st : ElemTy} {om : Om} {rm : Rm} {n src dst off : Nat} {mk : VMask → VQ → VQ → Instr}
  (h : ∀ k d a s, exec (mk k d a) s = vcvtM dt st om rm k d a n off s)
  (h1 : (if st.lane < dt.lane then off else 0) = src) (h2 : (if dt.lane < st.lane then off else 0) = dst) :
  Converts dt st om rm n src dst mk := by
  refine ⟨?_, ?_⟩
  · intro s u w k d a x rs hf hg hrs ht hw
    subst hrs
    simp only [State.vgives, State.vtakes] at hg hw
    have hm : (u.drew rm n).me.mask = u.me.mask := State.drew_mask _ _ _
    have ho : ∀ es, oldVQ ((u.drew rm n).counted es).me d = oldVQ u.me d := by
      intro es; rw [State.counted_me]
      have : (u.drew rm n).me.vreg = u.me.vreg := State.drew_vreg _ _ _
      cases d <;> simp [oldVQ]
      exact congrFun this _
    simp only [State.lanes, hm] at ht hw
    have hs := M.settle_run (s := u.drew rm n) ht
    rw [h]
    simp only [vcvtM, instr, runInstr, State.turn, M.bind_run, M.freshVQ_run hf, hg, M.rngTake_run, rdMask, M.rdM_run, hm, h1, h2, hs, M.me_run, ho]
    have e : ∀ (g g' : Nat → Nat) , (∀ j, g j = g' j) → wrVQ d (ofLanes dt.lane (1024/dt.lane) g) = wrVQ d (ofLanes dt.lane (1024/dt.lane) g') := by
      intro g g' hh; rw [funext hh]
    rw [e _ _ _, hw]
    · rfl
    · intro j
      by_cases hj : dst ≤ j ∧ j < dst + n
      · simp only [hj, and_self, if_true]
        split
        · rename_i hl
          have : j - dst < n := by omega
          simp [this, hl]
        · rfl
      · simp only [hj, if_false]
  · intro s u k d a x l c hf hg ht
    simp only [State.vgives] at hg
    have hm : (u.drew rm n).me.mask = u.me.mask := State.drew_mask _ _ _
    simp only [State.lanes, hm] at ht
    rw [h]
    simp only [vcvtM, instr, runInstr, State.turn, M.bind_run, M.freshVQ_run hf, hg, M.rngTake_run, rdMask, M.rdM_run, hm, h1, M.settle_trap ht]
    rfl

end Sys2Proof.Machine
end

