-- ==== Sys2Proof/Laws/Memory.lean ====
section
/-! SUPPORT. Sys2Proof/Laws/Memory.lean: what accesses of memory do: bytes of lines and of storage after a write, effective addresses,
the lanes of loads and stores, and accesses of the own scratchpad. -/
namespace Sys2Proof.Machine

/-! ## Storage -/

theorem findCell_lt {α : Type} [DecidableEq α] (d : α) : ∀ (l : List (Nat × α)) (lo k : Nat), canonFrom d lo l = true → k < lo → findCell l k = none := by
  intro l
  induction l with
  | nil => intros; rfl
  | cons p t ih =>
    intro lo k h hk
    obtain ⟨a, v⟩ := p
    simp only [canonFrom, Bool.and_eq_true, decide_eq_true_eq] at h
    simp only [findCell]
    rw [if_neg (by omega)]
    exact ih _ _ h.2 (by omega)
theorem canon_ext {α : Type} [DecidableEq α] (d : α) : ∀ (l r : List (Nat × α)) (lo lo' : Nat), canonFrom d lo l = true → canonFrom d lo' r = true →
    (∀ k, (findCell l k).getD d = (findCell r k).getD d) → l = r := by
  intro l
  induction l with
  | nil =>
    intro r lo lo' _ h2 h
    cases r with
    | nil => rfl
    | cons p t =>
      obtain ⟨a, v⟩ := p
      simp only [canonFrom, Bool.and_eq_true, decide_eq_true_eq] at h2
      have := h a
      simp [findCell] at this
      exact absurd this.symm h2.1.2
  | cons p t ih =>
    intro r lo lo' h1 h2 h
    obtain ⟨a, v⟩ := p
    simp only [canonFrom, Bool.and_eq_true, decide_eq_true_eq] at h1
    cases r with
    | nil =>
      have := h a
      simp [findCell] at this
      exact absurd this h1.1.2
    | cons q u =>
      obtain ⟨b, w⟩ := q
      simp only [canonFrom, Bool.and_eq_true, decide_eq_true_eq] at h2
      have ha := h a
      have hb := h b
      simp only [findCell, if_true, Option.getD_some] at ha hb
      have hab : a = b := by
        rcases Nat.lt_trichotomy a b with g | g | g
        · rw [if_neg (by omega), findCell_lt d u _ a h2.2 (by omega)] at ha
          exact absurd ha h1.1.2
        · exact g
        · rw [if_neg (by omega), findCell_lt d t _ b h1.2 (by omega)] at hb
          exact absurd hb.symm h2.1.2
      subst hab
      simp only [if_true, Option.getD_some] at ha
      subst ha
      rw [ih u _ _ h1.2 h2.2]
      intro k
      have hk := h k
      simp only [findCell] at hk
      by_cases e : a = k
      · subst e
        rw [findCell_lt d t _ a h1.2 (by omega), findCell_lt d u _ a h2.2 (by omega)]
      · rwa [if_neg e, if_neg e] at hk
theorem setLine_read (k : Nat) (mask : BitVec 128) (l : Line) (c : Nat) : ∀ (xs : List Nat) (m : Memory),
    (xs.foldl (fun m i => if mask.getLsbD i then m.write (k + i) (lineByte l i) else m) m).read c =
    if k ≤ c ∧ (c - k) ∈ xs ∧ mask.getLsbD (c - k) = true then lineByte l (c - k) else m.read c := by
  intro xs
  induction xs with
  | nil => intro m; simp
  | cons x t ih =>
    intro m
    rw [List.foldl_cons, ih]
    by_cases h : k ≤ c ∧ (c - k) ∈ t ∧ mask.getLsbD (c - k) = true
    · rw [if_pos h, if_pos ⟨h.1, List.mem_cons_of_mem _ h.2.1, h.2.2⟩]
    · rw [if_neg h]
      by_cases hx : mask.getLsbD x = true
      · rw [if_pos hx]
        by_cases e : c = k + x
        · have e2 : c - k = x := by omega
          rw [e, Memory.read_write_self, if_pos]
          · congr 1; omega
          · refine ⟨by omega, ?_, ?_⟩
            · simp
            · rw [show k + x - k = x by omega]; exact hx
        · rw [Memory.read_write_other _ _ e, if_neg]
          rintro ⟨a, b, d⟩
          rcases List.mem_cons.mp b with b | b
          · omega
          · exact h ⟨a, b, d⟩
      · rw [if_neg hx, if_neg]
        rintro ⟨a, b, d⟩
        rcases List.mem_cons.mp b with b | b
        · rw [b] at d; exact hx d
        · exact h ⟨a, b, d⟩
theorem maskOf_bit (b n i : Nat) (hi : i < 128) : (maskOf b n).getLsbD i = (decide (b ≤ i) && decide (i < b + n)) := by
  unfold maskOf
  rw [BitVec.getLsbD_ofNat]
  simp only [hi, decide_true, Bool.true_and]
  rw [Nat.testBit_mul_two_pow, Nat.testBit_two_pow_sub_one]
  by_cases h : b ≤ i
  · simp only [h, decide_true, Bool.true_and, decide_eq_decide]; omega
  · simp [h]
theorem lineByte_set (l : Line) (i j : Nat) (b : Byte) (hi : i < 128) (hj : j < 128) :
    lineByte (setLineByte l i b) j = if j = i then b else lineByte l j := by
  apply BitVec.eq_of_getLsbD_eq
  intro p hp
  unfold lineByte setLineByte
  have e255 : ∀ q, (0xFF#1024).getLsbD q = decide (q < 8) := by
    intro q
    rw [BitVec.getLsbD_ofNat, show (255:Nat) = 2 ^ 8 - 1 from rfl, Nat.testBit_two_pow_sub_one]
    by_cases h : q < 8
    · simp [h]; omega
    · simp [h]
  have hl : 8 * j + p < 1024 := by omega
  by_cases e : j = i
  · subst e
    have e1 : ¬ (8 * j + p < 8 * j) := by omega
    have e2 : 8 * j + p - 8 * j = p := by omega
    simp [e255, hl, e1, e2, hp]
  · by_cases h : 8 * j + p < 8 * i
    · simp [hl, h, e, hp]
    · have e2 : ¬ (8 * j + p - 8 * i < 8) := by omega
      have e3 : (BitVec.setWidth 1024 b).getLsbD (8 * j + p - 8 * i) = false := by
        rw [BitVec.getLsbD_setWidth, BitVec.getLsbD_of_ge b _ (by omega)]; simp
      have e4 : b.getLsbD (8 * j + p - 8 * i) = false := BitVec.getLsbD_of_ge b _ (by omega)
      have e5 : (255#1024)[8 * j + p - 8 * i]'(by omega) = false := by
        rw [← BitVec.getLsbD_eq_getElem, e255]; simp; omega
      simp [hl, h, e, hp, e4, e5]
theorem mergeLine_byte (mask : BitVec 128) (new old : Line) (j : Nat) (hj : j < 128) :
    lineByte (mergeLine mask new old) j = if mask.getLsbD j then lineByte new j else lineByte old j := by
  unfold mergeLine
  have : ∀ (xs : List Nat) (acc : Line), (∀ x ∈ xs, x < 128) →
      lineByte (xs.foldl (fun acc i => if mask.getLsbD i then setLineByte acc i (lineByte new i) else acc) acc) j =
        if j ∈ xs ∧ mask.getLsbD j = true then lineByte new j else lineByte acc j := by
    intro xs
    induction xs with
    | nil => intro acc _; simp
    | cons x t ih =>
      intro acc hx
      rw [List.foldl_cons, ih _ fun y hy => hx y (List.mem_cons_of_mem _ hy)]
      have hx' := hx x (List.mem_cons_self ..)
      by_cases h : j ∈ t ∧ mask.getLsbD j = true
      · rw [if_pos h, if_pos ⟨List.mem_cons_of_mem _ h.1, h.2⟩]
      · rw [if_neg h]
        by_cases e : mask.getLsbD x = true
        · rw [if_pos e, lineByte_set _ _ _ _ hx' hj]
          by_cases e2 : j = x
          · subst e2; rw [if_pos rfl, if_pos ⟨List.mem_cons_self .., e⟩]
          · rw [if_neg e2, if_neg]
            rintro ⟨a, b⟩
            rcases List.mem_cons.mp a with a | a
            · exact e2 a
            · exact h ⟨a, b⟩
        · rw [if_neg e, if_neg]
          rintro ⟨a, b⟩
          rcases List.mem_cons.mp a with a | a
          · rw [a] at b; exact e b
          · exact h ⟨a, b⟩
  rw [this _ _ fun x hx => List.mem_range.mp hx]
  by_cases h : mask.getLsbD j = true
  · rw [if_pos h, if_pos ⟨List.mem_range.mpr hj, h⟩]
  · rw [if_neg h, if_neg fun x => h x.2]
theorem lineByte_ofNat (x n b i : Nat) (h1 : b ≤ i) (h2 : i < b + n) (h3 : b + n ≤ 128) :
    lineByte (BitVec.ofNat 1024 (x % 256 ^ n * 256 ^ b)) i = BitVec.ofNat 8 (x / 256 ^ (i - b)) := by
  apply BitVec.eq_of_getLsbD_eq
  intro p hp
  have e1 : (256:Nat) ^ b = 2 ^ (8 * b) := by rw [show (256:Nat) = 2 ^ 8 from rfl, ← Nat.pow_mul]
  have e2 : (256:Nat) ^ n = 2 ^ (8 * n) := by rw [show (256:Nat) = 2 ^ 8 from rfl, ← Nat.pow_mul]
  have e3 : (256:Nat) ^ (i - b) = 2 ^ (8 * (i - b)) := by rw [show (256:Nat) = 2 ^ 8 from rfl, ← Nat.pow_mul]
  unfold lineByte
  rw [e1, e2, e3, BitVec.getLsbD_extractLsb', BitVec.getLsbD_ofNat, BitVec.getLsbD_ofNat, Nat.testBit_mul_two_pow, Nat.testBit_mod_two_pow,
    Nat.testBit_div_two_pow]
  have a1 : 8 * i + p < 1024 := by omega
  have a2 : 8 * b ≤ 8 * i + p := by omega
  have a3 : p + 8 * (i - b) < 8 * n := by omega
  have a4 : 8 * i + p - 8 * b = p + 8 * (i - b) := by omega
  simp only [hp, a1, a2, decide_true, Bool.true_and, a4, a3]
theorem dirtySectors_mem (st : Store) (k : Nat) (m : BitVec 128) : (st.dirtySectors k m).mem = st.mem := by
  unfold Store.dirtySectors Store.modSector; split
  · rfl
  · dsimp only; split <;> split <;> rfl
theorem clearPoison_mem (st : Store) (k : Nat) (m : BitVec 128) : (st.clearPoison k m).mem = st.mem := by
  unfold Store.clearPoison Store.setPoison; dsimp only; split <;> split <;> rfl
theorem writeHome_mem (s : State) (k : Nat) (m : BitVec 128) (l : Line) (r : Option Rel) :
    (s.writeHome k m l r).store.mem = (s.store.setLine k m l).mem := by
  unfold State.writeHome Store.setRels
  dsimp only
  split
  · split <;> exact (clearPoison_mem _ _ _).trans (dirtySectors_mem _ _ _)
  · exact (clearPoison_mem _ _ _).trans (dirtySectors_mem _ _ _)
theorem writeHome_ids (s : State) (k : Nat) (m : BitVec 128) (l : Line) (r : Option Rel) :
    (s.writeHome k m l r).curCore = s.curCore ∧ (s.writeHome k m l r).curCtx = s.curCtx := by
  unfold State.writeHome; dsimp only; split <;> [split; skip] <;> exact ⟨rfl, rfl⟩
theorem writeHome_group (s : State) (k : Nat) (m : BitVec 128) (l : Line) (r : Option Rel) (n : Nat) :
    (s.writeHome k m l r).group n = s.group n := by
  unfold State.writeHome; dsimp only
  split
  · split
    · rfl
    · unfold State.group
      by_cases h : n = coreOfKey k
      · subst h; rw [State.core_modCore]; rfl
      · rw [State.core_modCore_other _ _ h]; rfl
  · rfl

theorem setLine_wf {st : Store} (h : st.mem.wf = true) (k : Nat) (mask : BitVec 128) (l : Line) : (st.setLine k mask l).mem.wf = true := by
  simp only [Store.setLine]
  generalize List.range 128 = xs
  generalize st.mem = m at h
  induction xs generalizing m with
  | nil => exact h
  | cons x t ih =>
    rw [List.foldl_cons]
    apply ih
    split
    · exact Memory.wf_write h _ _
    · exact h

theorem setBytes_wf {st : Store} (h : st.mem.wf = true) (k : Nat) (bs : List Byte) : (st.setBytes k bs).mem.wf = true := by
  induction bs generalizing st k with
  | nil => exact h
  | cons b t ih => exact ih (Memory.wf_write h _ _) _
theorem keepCells_wf {m : Memory} (h : m.wf = true) (f : Nat → Bool) : Memory.wf (keepCells m f) = true := canonFrom_filter 0 h _
theorem dropRange_wf {m : Memory} (h : m.wf = true) (lo n : Nat) : Memory.wf (dropRange m lo n) = true := canonFrom_filter 0 h _
theorem zero_wf {st : Store} (h : st.mem.wf = true) (k n : Nat) : (st.zero k n).mem.wf = true := dropRange_wf h k n
theorem writeHome_wf {s : State} (h : s.store.mem.wf = true) (k : Nat) (m : BitVec 128) (l : Line) (r : Option Rel) :
    (s.writeHome k m l r).store.mem.wf = true := by
  rw [writeHome_mem]; exact setLine_wf h k m l

/-! ## Operands and lanes -/

theorem M.eaM_run {m : Addr} {n : Nat} {s : State} (h : s.addrReady m) : eaM m n s = .ok (s.addrOf m n, s) := by
  obtain ⟨h1, h2⟩ := h
  simp only [eaM, M.bind_run, M.rdS_run h1, M.rdS_run h2]; rfl
theorem ldExt (n x : Nat) (hn : n ≤ 64) (h0 : 0 < n) : BitVec.ofInt 64 (ival true n x) = (BitVec.ofNat n x).signExtend 64 := by
  unfold BitVec.signExtend
  congr 1
  simp only [ival, BitVec.toInt_eq_toNat_cond, BitVec.toNat_ofNat]
  have hp : 2 ^ n = 2 * 2 ^ (n - 1) := by rw [← Nat.pow_succ']; congr 1; omega
  simp only [Bool.true_and, decide_eq_true_eq]
  split <;> split <;> first | rfl | omega
theorem M.checkVec_run {k : LMask} {va : Word} {kind : Kind} {s : State} (h : s.lineOk k va kind) : checkVec k va kind s = .ok ((), s) := by
  simp only [checkVec, M.bind_run, M.rdM_run]
  rcases h with h | ⟨h1, h2⟩
  · simp only [State.onLanes] at h
    have h' : activeIdx 32 (s.me.mask k.m) k.n = [] := h
    rw [h']; rfl
  · split
    · rfl
    · unfold checkLine
      simp only [M.bind_run, M.get_run, M.myActor_run]
      cases e : s.resolve (s.actor s.curCore s.curCtx) va 128 kind with
      | ok g => rfl
      | error b =>
        cases b with
        | miss => rfl
        | wait => rfl
        | trap c =>
          have c3 : c ≠ 3 := fun x => h2 (by rw [e, x])
          have c4 : c ≠ 4 := fun x => h1 (by rw [e, x])
          rfl
theorem M.loadLanes_run {s t : State} {w : Nat} {ord : Option (Ord × Scope)} {k : LMask} {d : VReg} {addr : Nat → Word}
    (h : LoadsLanes s w ord k d addr t) : loadLanesInto w ord k d addr s = .ok ((), t) := by
  obtain ⟨vs, u, h1, rfl⟩ := h
  simp only [Gives, State.onLanes] at h1
  simp only [loadLanesInto, M.bind_run, M.rdM_run, activeIdx, h1, M.me_run, M.wrV_run, State.wroteV]
  have e : (fun i => match vs.find? fun p => p.1 == i with
    | some p => p.2
    | none => laneNat (u.me.vreg d) w i) = fun i => ((vs.find? fun p => p.1 == i).map (·.2)).getD (laneNat (u.me.vreg d) w i) := by
    funext i
    cases vs.find? fun p => p.1 == i <;> rfl
  rw [← e]
  all_goals rfl
theorem M.storeLanes_run {s t : State} {w code : Nat} {ord : Option (Ord × Scope)} {k : LMask} {x : Line} {addr : Nat → Word}
    (h : StoresLanes s w code ord k x addr t) : storeLanesFrom w code ord k x addr s = .ok ((), t) := by
  simp only [StoresLanes, Gives, State.onLanes] at h
  simp only [storeLanesFrom, M.bind_run, M.rdM_run, activeIdx, h]
theorem M.freshV_run {r : VReg} {s : State} (h : s.me.held r = false) : freshV r s = .ok ((), s) := by
  simp [freshV, h]
theorem lineAddr_fun (ea : Word) : lineAddr ea = fun i => ea + BitVec.ofNat 64 (4 * i) := rfl
theorem indexedAddr_fun (b : Word) (w : Nat) (x : Line) (sc : Nat) : indexedAddr b w x sc = fun i => b + BitVec.ofNat 64 (laneNat x w i * sc) := rfl
theorem stridedAddr_fun (b st : Word) (sc : Nat) : stridedAddr b st sc = fun i => b + BitVec.ofNat 64 i * st * BitVec.ofNat 64 sc := rfl
theorem M.reserve_run {n : Nat} {s : State} (h : (s.core s.curCore).reserved + n ≤ 256) : reserveM n s = .ok ((), s) := by
  simp [reserveM, h]

/-! ## The own scratchpad -/

theorem own_resolve {s : State} {va : Word} {n : Nat} (h : s.ownAddr va n) (k : Kind) :
    s.resolve (s.actor s.curCore s.curCtx) va n k =
      .ok ⟨.scratch s.myPanel s.curCore (gmapOff s.myGroup.gmap (va.toNat % 2 ^ 22) / 128 * 128), s.ownByte va, va.toNat, n, true, none⟩ := by
  obtain ⟨h1, h2, h3, h4, h5, h6⟩ := h
  unfold State.resolve
  rw [h1]
  simp only [h2, ne_eq, not_true_eq_false, if_false]
  unfold State.resolveOwn
  have hp : partOk113 s.myGroup.part (va.toNat % 2 ^ 22) n = true := by
    simp only [partOk113, h6, Bool.false_eq_true, if_false, Bool.or_eq_true, decide_eq_true_eq]
    left; omega
  show (if (!partOk113 s.myGroup.part (va.toNat % 2 ^ 22) n) = true then _ else _) = _
  simp only [hp, Bool.not_true, Bool.false_eq_true, if_false, h5, ne_eq, not_true_eq_false, h6]
  rfl
theorem own_global {s : State} {va : Word} {n : Nat} (h : s.ownAddr va n) (a : Actor) : s.globalOf a va = none := by
  unfold State.globalOf; rw [h.1]; rfl
/-- The place of an address of the own scratchpad. -/
def ownPlace (s : State) (va : Word) : Place := .scratch s.myPanel s.curCore (gmapOff s.myGroup.gmap (va.toNat % 2 ^ 22) / 128 * 128)
theorem own_resolveM {s : State} {va : Word} {n : Nat} (h : s.ownAddr va n) (k : Kind) (red : Bool) :
    resolveM va n k red s = .ok (some ⟨ownPlace s va, s.ownByte va, va.toNat, n, true, none⟩, s) := by
  simp only [resolveM, M.bind_run, M.get_run, M.myActor_run, own_resolve h, own_global h, M.pure_run, ownPlace]
theorem own_key (s : State) (va : Word) : s.keyOf (ownPlace s va) = some (s.ownKey va) := by
  simp [State.keyOf, State.ownKey, ownPlace]
theorem own_lanes {s : State} {va : Word} {n : Nat} (h : s.ownAddr va n) (k : Kind) (red : Bool) :
    resolveLanes n k red [(0, va)] s = .ok ([(0, some ⟨ownPlace s va, s.ownByte va, va.toNat, n, true, none⟩)], s) := by
  simp only [resolveLanes, M.bind_run, own_resolveM h, M.pure_run]
theorem own_parts {s : State} {va : Word} {n : Nat} :
    partsOf [⟨ownPlace s va, s.ownByte va, va.toNat, n, true, none⟩] = [⟨ownPlace s va, va.toNat - s.ownByte va, maskOf (s.ownByte va) n, 0, true, []⟩] := rfl
theorem no_cover (va n : Nat) (hn : 0 < n) : sideCover [] va n = .none := by
  simp only [sideCover, List.reverse_nil, List.findSome?_nil]
  obtain ⟨m, rfl⟩ : ∃ m, n = m + 1 := ⟨n - 1, by omega⟩
  simp [List.range_succ_eq_map]
theorem own_mark (s : State) (va : Word) (a : Actor) : s.markKey a (ownPlace s va) = some (s.ownKey va) := by
  unfold State.markKey; exact own_key s va
/-- The state after an access of the own scratchpad has left its marks. -/
def withMarks (s : State) (w : Bool) (va : Word) (n : Nat) : State :=
  ({ s with store := s.store.addMarks (s.actor s.curCore s.curCtx) w true (s.ownKey va) (maskOf (s.ownByte va) n) }).modMe
        fun c => { c with touched := true }
theorem own_check {s : State} {va : Word} {n b : Nat} {w : Bool} {d : Line}
    (h : s.store.conflictIn (s.actor s.curCore s.curCtx) w true (s.ownKey va) (maskOf (s.ownByte va) n) = none) :
    checkM w true [⟨ownPlace s va, b, maskOf (s.ownByte va) n, d, true, []⟩] s =
      .ok ((), withMarks s w va n) := by
  simp [checkM, M.bind_run, M.get_run, M.myActor_run, State.conflictOf, own_mark, h, State.markParts, withMarks]
theorem scratch_firstEmpty {s : State} {p c o k b : Nat} {m : BitVec 128} (hk : s.keyOf (.scratch p c o) = some k) (he : s.store.isEmpty k = false) :
    s.firstEmpty [] [⟨.scratch p c o, b, m, 0, true, []⟩] = none := by
  simp [State.firstEmpty, hk, he]
theorem scratch_partNow {t : State} {p c o k b : Nat} {m : BitVec 128} {hm : Bool} (hk : t.keyOf (.scratch p c o) = some k) :
    t.partNow [] hm ⟨.scratch p c o, b, m, 0, true, []⟩ = some ⟨.scratch p c o, b, m, t.store.line k, true, t.store.relPairs k m⟩ := by
  simp [State.partNow, findPart, hk]
theorem scratch_poison {s : State} {p c o k b : Nat} {m : BitVec 128} (hk : s.keyOf (.scratch p c o) = some k) (he : s.store.readsPoison k m = false) :
    s.partPoison ⟨.scratch p c o, b, m, 0, true, []⟩ = false := by
  simp [State.partPoison, hk, he]
theorem scratch_firstEmpty_some {s : State} {p : Place} {k b : Nat} {m : BitVec 128} (hk : s.keyOf p = some k) (he : s.store.isEmpty k = true) (hp : ∃ a b c, p = .scratch a b c) :
    s.firstEmpty [] [⟨p, b, m, 0, true, []⟩] = some (k, ⟨p, b, m, 0, true, []⟩) := by
  obtain ⟨a, b, c, rfl⟩ := hp
  simp [State.firstEmpty, hk, he, findPart]
theorem M.pending_run {s : State} (h : s.me.access = none) : pendingM s = .ok (none, s) := by
  unfold pendingM; rw [M.bind_run, M.me_run]; dsimp only; rw [h]; rfl
/-- A free mark entry serves an access that needs at most one. -/
theorem markFree_of_room {s : State} {core n : Nat} {e : Bool} (hn : n ≤ 1) (h : s.markRoom core e = true) : s.markFree core e n = true := by
  obtain rfl | rfl : n = 0 ∨ n = 1 := by omega
  · simp [State.markFree]
  · exact h
/-- The mark entries that one part needs. -/
theorem markNeed_one (s : State) (a : Actor) (p : Part) : s.markNeed a [p] ≤ 1 := by
  unfold State.markNeed
  exact (List.length_filter_le _ _).trans (by simp)
theorem markNeed_nil (s : State) (a : Actor) : s.markNeed a [] = 0 := rfl
/-- What needs no entry has room in every state. -/
theorem M.markRoom_nil (s : State) : markRoomM [] s = .ok ((), s) := by simp [markRoomM, markNeed_nil, State.markFree]
theorem M.markRoom_run {s : State} {ps : List Part} (hp : ps.length ≤ 1) (h : s.markRoom s.curCore false = true) :
    markRoomM ps s = .ok ((), s) := by
  have hn : s.markNeed (s.actor s.curCore s.curCtx) ps ≤ 1 := (List.length_filter_le _ _).trans hp
  simp [markRoomM, markFree_of_room hn h]
theorem flushL1_clean {s : State} (a : Actor) (h : ((s.core a.who.core).l1.list.all fun p => p.2.dirty == 0) = true) : s.flushL1 a = s := by
  unfold State.flushL1
  generalize (s.core a.who.core).l1.list = xs at h
  induction xs with
  | nil => rfl
  | cons x t ih =>
    rw [List.all_cons, Bool.and_eq_true] at h
    rw [List.foldl_cons, if_pos (by simpa using h.1)]
    exact ih h.2
theorem M.keepFlush_run (s : State) : ∃ f, keepFlush s = .ok (f, s) ∧ f s = s := by
  refine ⟨_, rfl, ?_⟩
  split
  · rename_i h; exact flushL1_clean _ h
  · rfl
theorem M.waitLine_run {α : Type} (k : Nat) (m : Nat → SyncMsg) (s : State) :
    ∃ f, (waitLine k m [] [] : M α) s = .error (.stay f) ∧ (f s).me.status = .waiting (.line (coreOfKey k) k) ∧ SameBytes s (f s) := by
  obtain ⟨g, h1, h2⟩ := M.keepFlush_run s
  refine ⟨fun s =>
    let s := g s
    let id := s.nextId
    let s := { s with nextId := id + 1 }
    let s := s.modCore s.curCore fun c => { c with waiters := c.waiters ++ [⟨k, true, m id⟩] }
    s.modMe fun c => { c with access := some { pc := c.pc, id, need := 1, got := [], rels := [], waited := c.hasWaited },
                              status := .waiting (.line (coreOfKey k) k) }, ?_, ?_⟩
  · unfold waitLine; rw [M.bind_run, h1]; rfl
  · dsimp only; rw [h2, State.me_modMe]
    exact ⟨rfl, fun _ => rfl⟩
theorem coreOfKey_own (s : State) (va : Word) : coreOfKey (s.ownKey va) = s.curCore := by
  have h : gmapOff s.myGroup.gmap (va.toNat % 2 ^ 22) < 2 ^ 21 := by
    have h1 := (s.myGroup.gmap.extractLsb' (3 * ((va.toNat % 2 ^ 22) / 2 ^ 18)) 3).isLt
    have h2 := Nat.mod_lt (va.toNat % 2 ^ 22) (show 2 ^ 18 > 0 by decide)
    unfold gmapOff; omega
  unfold coreOfKey State.ownKey scratchKey
  omega
theorem modGroup_store (s : State) (n : Nat) (f : Group → Group) : (s.modGroup n f).store = s.store := rfl
theorem modGroup_ids (s : State) (n : Nat) (f : Group → Group) : (s.modGroup n f).curCore = s.curCore ∧ (s.modGroup n f).curCtx = s.curCtx := ⟨rfl, rfl⟩

end Sys2Proof.Machine
end

