-- ==== Sys2Proof/Laws/Accesses.lean ====
section
/-! SUPPORT. Sys2Proof/Laws/Accesses.lean: what atomics, prefetches, releases and the argument registers of starts give when they run. -/
namespace Sys2Proof.Machine

theorem own_scratch {s : State} {va : Word} {n : Nat} (h : s.ownAddr va n) (k : Kind) :
    resolveScratch va n k s = .ok (⟨.scratch s.myPanel s.curCore (gmapOff s.myGroup.gmap (va.toNat % 2 ^ 22) / 128 * 128), s.ownByte va, va.toNat, n, true, none⟩, s) := by
  have hw : scratchWindow va s = .ok ((), s) := by
    unfold scratchWindow; rw [show windowOf va = 8 from h.1]; rfl
  have hr := own_resolveM h k false
  simp only [resolveScratch, M.bind_run, hw, hr, aliasOf, ownPlace]
  rfl
theorem laneOf_own (s : State) (va : Word) (n : Nat) (a : Actor) (y e : Word) :
    s.laneKey a (atomLane 0 ⟨ownPlace s va, s.ownByte va, va.toNat, n, true, none⟩ y e) = some (s.ownKey va) := by
  have := own_key s va
  unfold ownPlace at this
  simp only [State.laneKey, atomLane, State.locate, ownPlace, this]
theorem writeHome_bytes (s : State) (k b n v : Nat) (r : Option Rel) (h : b + n ≤ 128) (c : Nat) :
    (s.writeHome k (maskOf b n) (valLine b n v) r).byteAt c =
      if k + b ≤ c ∧ c < k + b + n then BitVec.ofNat 8 (v / 256 ^ (c - (k + b))) else s.byteAt c := by
  unfold State.byteAt
  rw [writeHome_mem]
  unfold Store.setLine
  rw [setLine_read]
  simp only [List.mem_range]
  by_cases e : k + b ≤ c ∧ c < k + b + n
  · have h1 : c - k < 128 := by omega
    rw [if_pos e, if_pos]
    · unfold valLine; rw [lineByte_ofNat _ _ _ _ (by omega) (by omega) h]; congr 3; omega
    · refine ⟨by omega, h1, ?_⟩
      rw [maskOf_bit _ _ _ h1]; simp; omega
  · rw [if_neg e, if_neg]
    rintro ⟨h1, h2, h3⟩
    rw [maskOf_bit _ _ _ h2] at h3; simp at h3; omega
theorem writeHome_me (s : State) (k : Nat) (m : BitVec 128) (l : Line) (r : Option Rel) : (s.writeHome k m l r).me = s.me := by
  unfold State.me State.ctx
  rw [(writeHome_ids _ _ _ _ _).1, (writeHome_ids _ _ _ _ _).2, writeHome_group]
theorem byteAt_modMe (s : State) (f : Ctx → Ctx) (c : Nat) : (s.modMe f).byteAt c = s.byteAt c := rfl
theorem atomAt_spec (s : State) (op : AmoOp) (n k : Nat) (l : AtomLane) (r : Option Rel) (h : l.byte + n ≤ 128) :
    (s.atomAt op n k l r).2 = BitVec.ofNat 64 (s.store.num (k + l.byte) n) ∧ (s.atomAt op n k l r).1.me = s.me ∧
    (s.atomAt op n k l r).1.curCore = s.curCore ∧ (s.atomAt op n k l r).1.curCtx = s.curCtx ∧
    ∀ c, (s.atomAt op n k l r).1.byteAt c = match amoNew op n (s.store.num (k + l.byte) n) l.x.toNat l.y.toNat with
      | some y => if k + l.byte ≤ c ∧ c < k + l.byte + n then BitVec.ofNat 8 (y / 256 ^ (c - (k + l.byte))) else s.byteAt c
      | none => s.byteAt c := by
  unfold State.atomAt
  dsimp only
  cases amoNew op n (s.store.num (k + l.byte) n) l.x.toNat l.y.toNat with
  | none => exact ⟨rfl, rfl, rfl, rfl, fun _ => rfl⟩
  | some y =>
    exact ⟨rfl, writeHome_me _ _ _ _ _, (writeHome_ids _ _ _ _ _).1, (writeHome_ids _ _ _ _ _).2, fun c => writeHome_bytes _ _ _ _ _ _ h c⟩
theorem num_mem {s t : Store} (h : s.mem = t.mem) (k n : Nat) : s.num k n = t.num k n := by
  have : ∀ n k, s.bytes k n = t.bytes k n := by
    intro n
    induction n with
    | zero => intro k; rfl
    | succ n ih => intro k; simp only [Store.bytes, h, ih]
  unfold Store.num; rw [this]
theorem amoM_run {opc n : Nat} {op : AmoOp} {o : Ord} {sc : Scope} {d a b : SReg} {disp : BitVec 40} {s u v w z : State} {r : Option Rel} {g : Tgt} {x : Word}
    {xs : List (Nat × Word)} {rels : List Rel} (h1 : s.resident [(10, d), (17, a), (24, b)]) (h2 : s.ready a) (h3 : s.ready b) (h4 : s.ready d)
    (h5 : beginAtomic o sc s = .ok (r, u)) (h6 : resolveM (s.me.s a + disp.signExtend 64) n .atomic (d = 0 && o = .plain) u = .ok (some g, v))
    (h7 : aliasOf g = false) (h8 : loggedPage (u.myGroup.sideOf u.curCtx) (s.me.s a + disp.signExtend 64).toNat = false)
    (h9 : atomics op n (acqScope o sc) r [atomLane 0 g (s.me.s b) (s.me.s d)] v = .ok ((some ((0, x) :: xs), rels), w))
    (h10 : endAtomic o sc rels (w.wroteS d x) = .ok ((), z)) : amoM opc n op o sc d a disp b s = .next (z.past 12) := by
  simp only [State.resident] at h1
  simp only [amoM, instr, runInstr, State.turn, M.bind_run, M.names_run h1, M.rdS_run h2, M.rdS_run h3, M.rdS_run h4, h5, M.myGroup_run, M.get_run, h6, M.myActor_run, h7, h8,
    Bool.false_eq_true, if_false, h9, M.wrS_run, h10, M.advance_run]
theorem land_field (x w p : Nat) : Nat.land x ((2 ^ w - 1) * 2 ^ p) = 2 ^ p * (x / 2 ^ p % 2 ^ w) := by
  apply Nat.eq_of_testBit_eq
  intro i
  show (x &&& (2 ^ w - 1) * 2 ^ p).testBit i = _
  rw [Nat.testBit_and, Nat.testBit_mul_two_pow, Nat.testBit_two_pow_sub_one, Nat.mul_comm (2 ^ p), Nat.testBit_mul_two_pow, Nat.testBit_mod_two_pow, Nat.testBit_div_two_pow]
  by_cases h : p ≤ i
  · simp only [h, decide_true, Bool.true_and]
    rw [show i - p + p = i by omega, Bool.and_comm]
  · simp [h]
theorem replace_field (x w p v : Nat) : x - Nat.land x ((2 ^ w - 1) * 2 ^ p) + v % 2 ^ w * 2 ^ p =
    2 ^ p * (2 ^ w * (x / 2 ^ p / 2 ^ w) + v % 2 ^ w) + x % 2 ^ p := by
  rw [land_field]
  have h1 := Nat.div_add_mod x (2 ^ p)
  have h2 := Nat.div_add_mod (x / 2 ^ p) (2 ^ w)
  generalize x / 2 ^ p % 2 ^ w = mid at *
  generalize x / 2 ^ p / 2 ^ w = q at *
  generalize x % 2 ^ p = low at *
  rw [← h2, Nat.mul_add] at h1
  rw [Nat.mul_add, Nat.mul_comm (v % 2 ^ w)]
  omega
theorem replace_bit (x w p v i : Nat) : (x - Nat.land x ((2 ^ w - 1) * 2 ^ p) + v % 2 ^ w * 2 ^ p).testBit i =
    if p ≤ i ∧ i < p + w then v.testBit (i - p) else x.testBit i := by
  rw [replace_field, Nat.testBit_two_pow_mul_add _ (Nat.mod_lt _ (Nat.two_pow_pos p))]
  by_cases h : i < p
  · rw [if_pos h, if_neg (by omega), Nat.testBit_mod_two_pow]; simp [h]
  · rw [if_neg h, Nat.testBit_two_pow_mul_add _ (Nat.mod_lt _ (Nat.two_pow_pos w))]
    by_cases h2 : i < p + w
    · rw [if_pos (by omega), if_pos (by omega), Nat.testBit_mod_two_pow]
      have : i - p < w := by omega
      simp [this]
    · rw [if_neg (by omega), if_neg (by omega), Nat.testBit_div_two_pow, Nat.testBit_div_two_pow]
      congr 1; omega
theorem replace_lt (x w p v : Nat) (hx : x < 256) (h : p + w ≤ 8) : x - Nat.land x ((2 ^ w - 1) * 2 ^ p) + v % 2 ^ w * 2 ^ p < 256 := by
  apply Nat.lt_pow_two_of_testBit (n := 8)
  intro i hi
  rw [replace_bit, if_neg (by omega)]
  have h2 : 2 ^ 8 ≤ 2 ^ i := Nat.pow_le_pow_right (by decide) hi
  exact Nat.testBit_lt_two_pow (Nat.lt_of_lt_of_le (show x < 2 ^ 8 from hx) h2)
theorem writeHome_byte1 (s : State) (k b v : Nat) (r : Option Rel) (hb : b < 128) (hv : v < 256) (c : Nat) :
    (s.writeHome k (maskOf b 1) (valLine b 1 v) r).byteAt c = if c = k + b then BitVec.ofNat 8 v else s.byteAt c := by
  rw [writeHome_bytes _ _ _ _ _ _ (by omega)]
  by_cases h : c = k + b
  · subst h; rw [if_pos ⟨by omega, by omega⟩, if_pos rfl]; simp
  · rw [if_neg (by omega), if_neg h]
theorem vamoM_run {opc n wd cnt : Nat} {op : AmoOp} {o : Ord} {sc : Scope} {k : LMask} {d : VReg} {a : SReg} {b : VIdx} {scale : BitVec 2} {disp : BitVec 40} {s u v w z : State} {r : Option Rel}
    {ls : List AtomLane} {xs : List (Nat × Word)} {rels : List Rel} {addr : Nat → Word} {e : Nat → Nat} (hw : wd = 8 * n) (hcnt : cnt = 1024 / wd) (h1 : s.resident [(17, a)]) (h2 : s.ready a) (h3 : s.vready d)
    (hb : ∀ r, b = .v r → s.vready r)
    (ha : ∀ i, addr i = match b with
      | .none => s.me.s a + disp.signExtend 64 + BitVec.ofNat 64 (i * n)
      | .v r => s.me.s a + disp.signExtend 64 + BitVec.ofNat 64 (laneNat (s.me.vreg r) wd i * scaleOf scale n))
    (h5 : beginAtomic o sc s = .ok (r, u)) (h8 : u.myGroup.sideOf u.curCtx = [])
    (h6 : vamoLanes n (s.me.vreg d) ((s.onLanes wd k).map fun i => (i, addr i)) u = .ok (ls, v))
    (h9 : atomics op n (acqScope o sc) r ls v = .ok ((some xs, rels), w))
    (he : ∀ i, e i = ((xs.find? fun p => p.1 == i).map (·.2.toNat)).getD (laneNat (s.me.vreg d) wd i))
    (h10 : endAtomic o sc rels (w.wroteV d (ofLanes wd cnt e)) = .ok ((), z)) : vamoM opc n op o sc k d a b scale disp s = .next (z.past 12) := by
  subst hcnt; subst hw
  simp only [State.resident] at h1
  have e' : e = fun i => match xs.find? fun p => p.1 == i with
         | some p => p.2.toNat
         | none => laneNat (s.me.vreg d) (8 * n) i := by
    funext i; rw [he]; cases xs.find? fun p => p.1 == i <;> rfl
  have hl : ∀ (ls : List (Nat × Word)), (ls.any fun p => loggedPage [] p.2.toNat) = false := by
    intro ls; simp [loggedPage]
  subst e'
  cases b with
  | none =>
    obtain rfl := funext ha
    simp only [State.onLanes] at h6
    simp only [vamoM, instr, runInstr, State.turn, M.bind_run, M.names_run h1, M.freshV_run h3.1, M.rdV_run h3, M.pure_run, M.rdS_run h2, M.rdM_run, h5, M.myGroup_run, M.get_run, h8, activeIdx, h6, hl,
      Bool.false_eq_true, if_false, h9, M.wrV_run]
    simp only [State.wroteV] at h10
    erw [h10]
    rfl
  | v r' =>
    obtain rfl := funext ha
    have hr := hb r' rfl
    simp only [State.onLanes] at h6
    simp only [vamoM, instr, runInstr, State.turn, M.bind_run, M.names_run h1, M.freshV_run h3.1, M.rdV_run h3, M.rdV_run hr, M.pure_run, M.rdS_run h2, M.rdM_run, h5, M.myGroup_run, M.get_run, h8, activeIdx, indexedAddr_fun, h6, hl,
      Bool.false_eq_true, if_false, h9, M.wrV_run]
    simp only [State.wroteV] at h10
    erw [h10]
    rfl
theorem releaseM_run {s : State} {sc : Scope} (h1 : s.me.unacked = 0) (h2 : s.myGroup.sideOf s.curCtx = []) (h0 : s.me.maint = [])
    (h3 : scWide sc = false ∨ ∀ p ∈ (s.core s.curCore).l1.list, p.2.dirty = 0) : releaseM sc s = .ok ((), s) := by
  unfold releaseM
  simp only [M.bind_run, M.get_run, h0, h1, h2, ne_eq, not_true_eq_false, decide_false, List.isEmpty_nil, Bool.not_true, Bool.or_self, Bool.false_eq_true, if_false]
  rcases h3 with h | h
  · rw [h]; rfl
  · have hf := flushL1_clean (s := s) (s.actor s.curCore s.curCtx) (by
      rw [List.all_eq_true]; intro p hp; simpa using h p hp)
    by_cases hw : scWide sc = true
    · simp only [hw, if_true, M.bind_run, M.myActor_run, M.modS_run, hf, M.get_run, h1, not_true_eq_false, if_false, M.pure_run]
    · simp [hw]
theorem releaseM_wait {s : State} {sc : Scope} (h : s.me.unacked ≠ 0 ∨ s.myGroup.sideOf s.curCtx ≠ [] ∨ s.me.maint ≠ []) : releaseM sc s = .error (.stay id) := by
  unfold releaseM
  simp only [M.bind_run, M.get_run]
  rw [if_pos, M.spend_run]
  rcases h with h | h | h
  · simp [h]
  · simp [h]
  · simp [h]
theorem emit_same (s : State) (p n : Nat) (e : Event) : (s.emit p n e).cores = s.cores ∧ (s.emit p n e).store = s.store ∧
    (s.emit p n e).curCore = s.curCore ∧ (s.emit p n e).curCtx = s.curCtx := by
  unfold State.emit
  dsimp only
  split <;> exact ⟨rfl, rfl, rfl, rfl⟩
theorem drainList_same (p : Nat) (l : List (Nat × Event)) : ∀ (s : State) (b : List Nat), (s.drainList p b l).cores = s.cores ∧
    (s.drainList p b l).store = s.store ∧ (s.drainList p b l).curCore = s.curCore ∧ (s.drainList p b l).curCtx = s.curCtx := by
  induction l with
  | nil => intro s b; exact ⟨rfl, rfl, rfl, rfl⟩
  | cons x t ih =>
    intro s b
    simp only [State.drainList]
    split
    · obtain ⟨h1, h2, h3, h4⟩ := ih (s.emit p x.1 x.2) b
      obtain ⟨g1, g2, g3, g4⟩ := emit_same s p x.1 x.2
      exact ⟨h1.trans g1, h2.trans g2, h3.trans g3, h4.trans g4⟩
    · obtain ⟨h1, h2, h3, h4⟩ := ih (s.modPort p fun o => { o with queue := o.queue ++ [x] }) ((s.linkLoad x.2).2.1 :: b)
      exact ⟨h1, h2, h3, h4⟩
/-- Sending to another panel touches neither the cores nor the storage. -/
theorem sendOut_same (s : State) (n : Nat) (e : Event) : (s.sendOut n e).cores = s.cores ∧ (s.sendOut n e).store = s.store ∧
    (s.sendOut n e).curCore = s.curCore ∧ (s.sendOut n e).curCtx = s.curCtx := by
  unfold State.sendOut
  split
  · exact ⟨rfl, rfl, rfl, rfl⟩
  · split <;> exact ⟨rfl, rfl, rfl, rfl⟩
  · exact drainList_same _ _ _ _
theorem sendTo_same (s : State) (p : Nat) (e : Event) : (s.sendTo p e).cores = s.cores ∧ (s.sendTo p e).store = s.store ∧
    (s.sendTo p e).curCore = s.curCore ∧ (s.sendTo p e).curCtx = s.curCtx := by
  unfold State.sendTo
  split
  · exact ⟨rfl, rfl, rfl, rfl⟩
  · exact sendOut_same s p e
theorem me_of {s t : State} (h1 : t.cores = s.cores) (h2 : t.curCore = s.curCore) (h3 : t.curCtx = s.curCtx) : t.me = s.me := by
  unfold State.me State.ctx State.group State.core; rw [h1, h2, h3]
theorem me_reserved (s : State) (f : Core → Nat) (g : Core → List (Nat × Nat)) (n : Nat) :
    (s.modCore n fun c => { c with reserved := f c, fills := g c }).me = s.me := by
  unfold State.me State.ctx State.group
  show ((s.modCore n _).core s.curCore).group.ctx s.curCtx = _
  by_cases h : s.curCore = n
  · rw [← h, State.core_modCore]
  · rw [State.core_modCore_other _ _ h]
theorem prefLine_run (s : State) (va : Word) : ∃ t, prefLine va s = .ok ((), t) ∧ t.me = s.me ∧ SameBytes s t := by
  simp only [prefLine, M.bind_run, M.get_run, M.myActor_run]
  cases s.prefTgt (s.actor s.curCore s.curCtx) va with
  | none => exact ⟨s, rfl, rfl, fun _ => rfl⟩
  | some g =>
    dsimp only
    split
    · exact ⟨s, rfl, rfl, fun _ => rfl⟩
    · refine ⟨_, rfl, ?_, ?_⟩
      · exact (me_of (sendTo_same _ _ _).1 (sendTo_same _ _ _).2.2.1 (sendTo_same _ _ _).2.2.2).trans ((me_reserved ({ s with nextId := s.nextId + 1 } : State) (fun c => c.reserved + 1)
        (fun c => c.fills ++ [(s.nextId, s.l1Key g.place)]) s.curCore).trans rfl)
      · intro k; unfold State.byteAt; rw [(sendTo_same _ _ _).2.1]; rfl
theorem prefLines_run : ∀ (vs : List Word) (s : State), ∃ t, prefLines vs s = .ok ((), t) ∧ t.me = s.me ∧ SameBytes s t := by
  intro vs
  induction vs with
  | nil => intro s; exact ⟨s, rfl, rfl, fun _ => rfl⟩
  | cons v t ih =>
    intro s
    obtain ⟨a, h1, h2, h3⟩ := prefLine_run s v
    obtain ⟨b, h4, h5, h6⟩ := ih a
    refine ⟨b, ?_, h5.trans h2, fun k => (h6 k).trans (h3 k)⟩
    simp only [prefLines, M.bind_run, h1, h4]
theorem rdArgs_run {c : SReg} {s : State} (h1 : s.ready c) (h2 : s.ready (c + 1)) (h3 : s.ready (c + 2)) (h4 : s.ready (c + 3)) :
    rdArgs c s = .ok ([s.me.s c, s.me.s (c + 1), s.me.s (c + 2), s.me.s (c + 3)], s) := by
  simp only [rdArgs, M.bind_run, M.rdS_run h1, M.rdS_run h2, M.rdS_run h3, M.rdS_run h4, M.pure_run]
theorem endContext_run {s t : State} {e : Option Word} (h : endContext e s = .ok ((), t)) :
    t.me.status = .free ∧ t.me.exitVal = e.getD s.me.exitVal ∧ SameBytes s t := by
  have hr : releaseM .core s = .ok ((), s) ∨ releaseM .core s = .error (.stay id) := by
    unfold releaseM
    simp only [M.bind_run, M.get_run]
    split
    · exact .inr rfl
    · exact .inl rfl
  rcases hr with hr | hr
  · simp only [endContext, beginRelease, M.bind_run, hr, M.endRegion_run, myRel, M.myActor_run, M.get_run, M.pure_run, M.modS_run, M.modMe_run] at h
    cases h
    refine ⟨?_, ?_, fun _ => rfl⟩
    · rw [State.me_modMe]
    · rw [State.me_modMe]
      have : ∀ (u : State) n f, (u.modLaunch n f).me = u.me := fun _ _ _ => rfl
      dsimp only
      rw [this, State.me_modMe]; rfl
  · simp only [endContext, beginRelease, M.bind_run, hr] at h
    cases h

end Sys2Proof.Machine
end

