-- ==== Sys2Proof/Laws/Codec.lean ====
section
/-! SUPPORT. Sys2Proof/Laws/Codec.lean: what each field decoder reads from what the encoder writes in its field. -/
namespace Sys2Proof

@[simp] theorem D.bind_run {α β : Type} (m : D α) (k : α → D β) (l : List (Nat × Nat)) :
    (m >>= k) l = k (m l).1 (m l).2 := rfl
@[simp] theorem D.pure_run {α : Type} (a : α) (l : List (Nat × Nat)) : (pure a : D α) l = (a, l) := rfl
@[simp] theorem D.map_run {α β : Type} (f : α → β) (m : D α) (l : List (Nat × Nat)) : (f <$> m) l = (f (m l).1, (m l).2) :=
  rfl
@[simp] theorem D.need_true (sub bit : Nat) (l : List (Nat × Nat)) : need true sub bit l = ((), l) := rfl
theorem D.need_run {c : Bool} (h : c = true) (sub bit : Nat) (l : List (Nat × Nat)) : need c sub bit l = ((), l) := by
  subst h; rfl
@[simp] theorem D.mbz_zero {n : Nat} (bit : Nat) (l : List (Nat × Nat)) : mbz bit (0#n) l = ((), l) := by
  simp [mbz]
theorem D.mbz_run {n : Nat} {x : BitVec n} (h : x = 0#n) (bit : Nat) (l : List (Nat × Nat)) : mbz bit x l = ((), l) := by
  subst h; exact D.mbz_zero bit l
theorem D.coded_some {α : Type} {bit : Nat} {r : Bool} {v : Option α} {x : α} {ok : α → Bool} {d : α} (h : v = some x)
    (ho : ok x = true) (l : List (Nat × Nat)) : coded bit r v ok d l = (x, l) := by
  subst h; simp [coded, ho]

@[simp] theorem D.need_snd (c : Bool) (sub bit : Nat) (l : List (Nat × Nat)) :
    (need c sub bit l).2 = if c then l else l ++ [(sub, bit)] := by cases c <;> rfl

@[simp] theorem rS_eS (bit : Nat) (r : SReg) (l : List (Nat × Nat)) : rS bit (eS r) l = (r, l) := by
  have h1 : (eS r).extractLsb' 5 2 = 0 := by unfold eS; revert r; decide
  have h2 : (eS r).extractLsb' 0 5 = r := by unfold eS; revert r; decide
  simp [rS, h1, h2]
@[simp] theorem rV_eV (bit : Nat) (r : VReg) (l : List (Nat × Nat)) : rV bit (eV r) l = (r, l) := by
  have h1 : (eV r).extractLsb' 5 2 = 1 := by unfold eV; revert r; decide
  have h2 : (eV r).extractLsb' 0 5 = r := by unfold eV; revert r; decide
  simp [rV, h1, h2]
@[simp] theorem rM_eM (bit : Nat) (r : MReg) (l : List (Nat × Nat)) : rM bit (eM r) l = (r, l) := by
  have h1 : (eM r).extractLsb' 3 4 = 8 := by unfold eM; revert r; decide
  have h2 : (eM r).extractLsb' 0 3 = r := by unfold eM; revert r; decide
  simp [rM, h1, h2]
@[simp] theorem rQ_eQ (bit : Nat) (r : QReg) (l : List (Nat × Nat)) : rQ bit (eQ r) l = (r, l) := by
  have h1 : (eQ r).extractLsb' 3 4 = 12 := by unfold eQ; revert r; decide
  have h2 : (eQ r).extractLsb' 0 3 = r := by unfold eQ; revert r; decide
  simp [rQ, h1, h2]
@[simp] theorem rSQ_eSQ (bit : Nat) (r : SQ) (l : List (Nat × Nat)) : rSQ bit (eSQ r) l = (r, l) := by
  cases r with
  | s r =>
    have h1 : (eS r).extractLsb' 5 2 = 0 := by unfold eS; revert r; decide
    have h2 : (eS r).extractLsb' 0 5 = r := by unfold eS; revert r; decide
    simp [rSQ, eSQ, h1, h2]
  | q r =>
    have h0 : (eSQ (.q r)).extractLsb' 5 2 ≠ 0 := by unfold eSQ eQ; revert r; decide
    have h1 : (eSQ (.q r)).extractLsb' 3 4 = 12 := by unfold eSQ eQ; revert r; decide
    have h2 : (eSQ (.q r)).extractLsb' 0 3 = r := by unfold eSQ eQ; revert r; decide
    unfold rSQ
    rw [if_neg h0, h1, h2]
    rfl
@[simp] theorem rVQ_eVQ (bit : Nat) (r : VQ) (l : List (Nat × Nat)) : rVQ bit (eVQ r) l = (r, l) := by
  cases r with
  | v r =>
    have h1 : (eV r).extractLsb' 5 2 = 1 := by unfold eV; revert r; decide
    have h2 : (eV r).extractLsb' 0 5 = r := by unfold eV; revert r; decide
    simp [rVQ, eVQ, h1, h2]
  | q r =>
    have h0 : (eVQ (.q r)).extractLsb' 5 2 ≠ 1 := by unfold eVQ eQ; revert r; decide
    have h1 : (eVQ (.q r)).extractLsb' 3 4 = 12 := by unfold eVQ eQ; revert r; decide
    have h2 : (eVQ (.q r)).extractLsb' 0 3 = r := by unfold eVQ eQ; revert r; decide
    unfold rVQ
    rw [if_neg h0, h1, h2]
    rfl

@[simp] theorem bit1_b1 (b : Bool) : bit1 (b1 b) = b := by cases b <;> rfl
@[simp] theorem ElemTy.ofCode_code (t : ElemTy) : ElemTy.ofCode t.code = some t := by cases t <;> rfl
@[simp] theorem Rm.ofCode_code (t : Rm) : Rm.ofCode t.code = some t := by cases t <;> rfl
@[simp] theorem Om.ofCode_code (t : Om) : Om.ofCode t.code = some t := by cases t <;> rfl
@[simp] theorem ICond.ofCode_code (t : ICond) : ICond.ofCode t.code = some t := by cases t <;> rfl
@[simp] theorem FCond.ofCode_code (t : FCond) : FCond.ofCode t.code = some t := by cases t <;> rfl
@[simp] theorem MCond.ofCode_code (t : MCond) : MCond.ofCode t.code = some t := by cases t <;> rfl
@[simp] theorem Scope.ofCode_code (t : Scope) : Scope.ofCode t.code = some t := by cases t <;> rfl
@[simp] theorem Ord.ofCode_code (t : Ord) : Ord.ofCode t.code = some t := by cases t <;> rfl
@[simp] theorem LdfMode.ofCode_code (t : LdfMode) : LdfMode.ofCode t.code = some t := by cases t <;> rfl
@[simp] theorem StfMode.ofCode_code (t : StfMode) : StfMode.ofCode t.code = some t := by cases t <;> rfl
@[simp] theorem LdSz.ofCode_code (t : LdSz) : LdSz.ofCode t.code = some t := by cases t <;> rfl
@[simp] theorem StSz.ofCode_code (t : StSz) : StSz.ofCode t.code = some t := by cases t <;> rfl
@[simp] theorem EW.ofCode_code (t : EW) : EW.ofCode t.code = some t := by cases t <;> rfl
@[simp] theorem NW.ofCode_code (t : NW) : NW.ofCode t.code = some t := by cases t <;> rfl
@[simp] theorem Fmt.ofCode_code (t : Fmt) : Fmt.ofCode t.code = some t := by cases t <;> rfl
@[simp] theorem AmoOp.ofCode_code (t : AmoOp) : AmoOp.ofCode t.code = some t := by cases t <;> rfl
@[simp] theorem RedOp.ofCode_code (t : RedOp) : RedOp.ofCode t.code = some t := by cases t <;> rfl
@[simp] theorem dKc_eKc (k : Option KReg) (l : List (Nat × Nat)) : dKc (eKc k) l = (k, l) := by
  cases k with
  | none => rfl
  | some k =>
    have h1 : (eKc (some k)).extractLsb' 6 1 = 1 := by unfold eKc; revert k; decide
    have h2 : (eKc (some k)).extractLsb' 0 6 = k := by unfold eKc; revert k; decide
    unfold dKc
    rw [if_pos h1, h2]
    rfl

/-! Sub-fields of what the encoder joins. -/

theorem ext_lo {m n : Nat} (x : BitVec m) (y : BitVec n) : (x ++ y).extractLsb' 0 n = y := by
  apply BitVec.eq_of_getLsbD_eq
  intro i hi
  simp [BitVec.getLsbD_append, hi]
theorem ext_in {m n s l : Nat} (x : BitVec m) (y : BitVec n) (h : s + l ≤ n) :
    (x ++ y).extractLsb' s l = y.extractLsb' s l := by
  apply BitVec.eq_of_getLsbD_eq
  intro i hi
  have : s + i < n := by omega
  simp [BitVec.getLsbD_append, hi, this]
theorem ext_skip {m n s l : Nat} (x : BitVec m) (y : BitVec n) (h : n ≤ s) :
    (x ++ y).extractLsb' s l = x.extractLsb' (s - n) l := by
  apply BitVec.eq_of_getLsbD_eq
  intro i hi
  have h1 : ¬ s + i < n := by omega
  have h2 : s + i - n = s - n + i := by omega
  simp [BitVec.getLsbD_append, hi, h1, h2]
theorem ext_all {n : Nat} (x : BitVec n) : x.extractLsb' 0 n = x := by
  apply BitVec.eq_of_getLsbD_eq
  intro i hi
  simp [hi]
theorem ext_zero {n s l : Nat} : (0#n).extractLsb' s l = 0#l := by
  apply BitVec.eq_of_getLsbD_eq
  intro i hi
  simp
@[simp] theorem b1_false : b1 false = 0#1 := rfl
@[simp] theorem bit1_zero : bit1 0#1 = false := rfl
theorem eS_0 : eS 0 = 0#7 := rfl
theorem eV_ne (r : VReg) : eV r ≠ 0#7 := by unfold eV; revert r; decide
@[simp] theorem eS_zero (r : SReg) : eS r = 0#7 ↔ r = 0#5 := by unfold eS; revert r; decide

@[simp] theorem fn0_hi (b : Bool) : (fn0 b).extractLsb' 1 7 = 0 := by cases b <;> rfl
@[simp] theorem fn0_lo (b : Bool) : (fn0 b).extractLsb' 0 1 = b1 b := by cases b <;> rfl
@[simp] theorem fnFlt_hi (h : BitVec 4) (rm : Rm) (s : Bool) : (fnFlt h rm s).extractLsb' 4 4 = h := by
  cases rm <;> cases s <;> revert h <;> decide
@[simp] theorem fnFlt_rm (h : BitVec 4) (rm : Rm) (s : Bool) : (fnFlt h rm s).extractLsb' 1 3 = rm.code := by
  cases rm <;> cases s <;> revert h <;> decide
@[simp] theorem fnFlt_sat (h : BitVec 4) (rm : Rm) (s : Bool) : (fnFlt h rm s).extractLsb' 0 1 = b1 s := by
  cases rm <;> cases s <;> revert h <;> decide
@[simp] theorem fnFlt_lo (h : BitVec 4) : (fnFlt h .rne false).extractLsb' 0 4 = 0 := by revert h; decide
@[simp] theorem fnInt_hi (t : ElemTy) (s : Bool) : (fnInt t s).extractLsb' 4 4 = t.code := by
  cases t <;> cases s <;> rfl
@[simp] theorem fnInt_0 (t : ElemTy) (s : Bool) : (fnInt t s).extractLsb' 0 1 = 0 := by cases t <;> cases s <;> rfl
@[simp] theorem fnInt_1 (t : ElemTy) (s : Bool) : (fnInt t s).extractLsb' 1 2 = 0 := by cases t <;> cases s <;> rfl
@[simp] theorem fnInt_3 (t : ElemTy) (s : Bool) : (fnInt t s).extractLsb' 3 1 = b1 s := by cases t <;> cases s <;> rfl
@[simp] theorem fnTy_hi (t : ElemTy) : (fnTy t).extractLsb' 4 4 = t.code := by cases t <;> rfl
@[simp] theorem fnTy_lo (t : ElemTy) : (fnTy t).extractLsb' 0 4 = 0 := by cases t <;> rfl
@[simp] theorem cRed_hi (t : RedOp) : (cRed t).extractLsb' 3 4 = 0 := by cases t <;> rfl
@[simp] theorem cRed_lo (t : RedOp) : (cRed t).extractLsb' 0 3 = t.code := by cases t <;> rfl
@[simp] theorem cMode_rm (om : Om) (rm : Rm) (p : BitVec 2) : (cMode om rm p).extractLsb' 0 3 = rm.code := by
  cases om <;> cases rm <;> revert p <;> decide
@[simp] theorem cMode_om (om : Om) (rm : Rm) (p : BitVec 2) : (cMode om rm p).extractLsb' 3 2 = om.code := by
  cases om <;> cases rm <;> revert p <;> decide
@[simp] theorem cMode_part (om : Om) (rm : Rm) (p : BitVec 2) : (cMode om rm p).extractLsb' 5 2 = p := by
  cases om <;> cases rm <;> revert p <;> decide
@[simp] theorem fnCtr_hi (k : BitVec 6) : (fnCtr k).extractLsb' 6 2 = 0 := by unfold fnCtr; revert k; decide
@[simp] theorem fnCtr_lo (k : BitVec 6) : (fnCtr k).extractLsb' 0 6 = k := by unfold fnCtr; revert k; decide
@[simp] theorem cond_hi {n : Nat} (x : BitVec 4) (h : n = 4) : ((0#4 ++ x : BitVec 8)).extractLsb' n 4 = 0 := by
  subst h; revert x; decide
@[simp] theorem cond_lo (x : BitVec 4) : ((0#4 ++ x : BitVec 8)).extractLsb' 0 4 = x := by revert x; decide

@[simp] theorem sh_lo (n : BitVec 6) : (0#26 ++ n : BitVec 32).extractLsb' 0 6 = n := ext_lo _ _
@[simp] theorem sh_hi (n : BitVec 6) : (0#26 ++ n : BitVec 32).extractLsb' 6 26 = 0 := (ext_skip _ _ (by decide)).trans ext_zero
@[simp] theorem bf_pos (len : BitVec 7) (pos : BitVec 6) : (0#17 ++ len ++ 0#2 ++ pos : BitVec 32).extractLsb' 0 6 = pos := ext_lo _ _
@[simp] theorem bf_len (len : BitVec 7) (pos : BitVec 6) : (0#17 ++ len ++ 0#2 ++ pos : BitVec 32).extractLsb' 8 7 = len := (ext_skip _ _ (by decide)).trans ((ext_skip _ _ (by decide)).trans (ext_lo _ _))
@[simp] theorem bf_gap (len : BitVec 7) (pos : BitVec 6) : (0#17 ++ len ++ 0#2 ++ pos : BitVec 32).extractLsb' 6 2 = 0 := (ext_skip _ _ (by decide)).trans (ext_lo _ _)
@[simp] theorem bf_top (len : BitVec 7) (pos : BitVec 6) : (0#17 ++ len ++ 0#2 ++ pos : BitVec 32).extractLsb' 15 17 = 0 := (ext_skip _ _ (by decide)).trans ((ext_skip _ _ (by decide)).trans ((ext_skip _ _ (by decide)).trans ext_zero))
@[simp] theorem two_lo (x y : BitVec 4) : (x ++ y : BitVec 8).extractLsb' 0 4 = y := ext_lo _ _
@[simp] theorem two_hi (x y : BitVec 4) : (x ++ y : BitVec 8).extractLsb' 4 4 = x := (ext_skip _ _ (by decide)).trans (ext_all _)
@[simp] theorem vz_h (t : ElemTy) (u h : Bool) : (t.code ++ 0#2 ++ b1 u ++ b1 h : BitVec 8).extractLsb' 0 1 = b1 h := by
  cases t <;> cases u <;> cases h <;> rfl
@[simp] theorem vz_u (t : ElemTy) (u h : Bool) : (t.code ++ 0#2 ++ b1 u ++ b1 h : BitVec 8).extractLsb' 1 1 = b1 u := by
  cases t <;> cases u <;> cases h <;> rfl
@[simp] theorem vz_0 (t : ElemTy) (u h : Bool) : (t.code ++ 0#2 ++ b1 u ++ b1 h : BitVec 8).extractLsb' 2 2 = 0 := by
  cases t <;> cases u <;> cases h <;> rfl
@[simp] theorem vz_t (t : ElemTy) (u h : Bool) : (t.code ++ 0#2 ++ b1 u ++ b1 h : BitVec 8).extractLsb' 4 4 = t.code := by
  cases t <;> cases u <;> cases h <;> rfl
@[simp] theorem amo_op (x : BitVec 8) (y : BitVec 40) : (x ++ y : BitVec 48).extractLsb' 40 8 = x := (ext_skip _ _ (by decide)).trans (ext_all _)
@[simp] theorem amo_disp (x : BitVec 8) (y : BitVec 40) : (x ++ y : BitVec 48).extractLsb' 0 40 = y := ext_lo _ _
@[simp] theorem fe_top (s : Scope) (o : Ord) : (0#1 ++ s.code ++ o.code : BitVec 8).extractLsb' 7 1 = 0 := by
  cases s <;> cases o <;> rfl
@[simp] theorem fe_sc (s : Scope) (o : Ord) : (0#1 ++ s.code ++ o.code : BitVec 8).extractLsb' 4 3 = s.code := by
  cases s <;> cases o <;> rfl
@[simp] theorem fe_o (s : Scope) (o : Ord) : (0#1 ++ s.code ++ o.code : BitVec 8).extractLsb' 0 4 = o.code := by
  cases s <;> cases o <;> rfl
@[simp] theorem pm_top (k : Option KReg) : (0#1 ++ eKc k : BitVec 8).extractLsb' 7 1 = 0 := (ext_skip (0#1) (eKc k) (by decide)).trans ext_zero
theorem pm_en (k : KReg) : (0#1 ++ eKc (some k) : BitVec 8).extractLsb' 6 1 = 1 := by
  unfold eKc; revert k; decide
theorem pm_k (k : KReg) : (0#1 ++ eKc (some k) : BitVec 8).extractLsb' 0 6 = k := by
  unfold eKc; revert k; decide
@[simp] theorem bar_lo (m : BitVec 16) : (0#48 ++ m : BitVec 64).extractLsb' 0 16 = m := ext_lo _ _
@[simp] theorem bar_hi (m : BitVec 16) : (0#48 ++ m : BitVec 64).extractLsb' 16 48 = 0 := (ext_skip _ _ (by decide)).trans ext_zero
@[simp] theorem po_r (r : Bool) : (0#3 ++ b1 r : BitVec 4).extractLsb' 0 1 = b1 r := by
  cases r <;> rfl
@[simp] theorem po_0 (r : Bool) : (0#3 ++ b1 r : BitVec 4).extractLsb' 1 3 = 0 := by
  cases r <;> rfl
@[simp] theorem po_top (y : Bool) (n : BitVec 6) : (0#1 ++ b1 y ++ n : BitVec 8).extractLsb' 7 1 = 0 := by
  cases y <;> (revert n; decide)
@[simp] theorem po_any (y : Bool) (n : BitVec 6) : (0#1 ++ b1 y ++ n : BitVec 8).extractLsb' 6 1 = b1 y := by
  cases y <;> (revert n; decide)
@[simp] theorem po_n (y : Bool) (n : BitVec 6) : (0#1 ++ b1 y ++ n : BitVec 8).extractLsb' 0 6 = n := by
  cases y <;> (revert n; decide)
@[simp] theorem kc_en (k : KReg) : (eKc (some k)).extractLsb' 6 1 = 1 := by
  unfold eKc; revert k; decide
@[simp] theorem kc_k (k : KReg) : (eKc (some k)).extractLsb' 0 6 = k := by
  unfold eKc; revert k; decide
@[simp] theorem cg_lo (s : BitVec 2) (k : BitVec 6) : (s ++ k : BitVec 8).extractLsb' 0 6 = k := ext_lo _ _
@[simp] theorem cg_hi (s : BitVec 2) (k : BitVec 6) : (s ++ k : BitVec 8).extractLsb' 6 2 = s := (ext_skip _ _ (by decide)).trans (ext_all _)
@[simp] theorem cp_stage (g : BitVec 3) (z : BitVec 4) (y : Bool) : (g ++ 0#1 ++ z ||| (0#3 ++ b1 y ++ 0#4) : BitVec 8).extractLsb' 5 3 = g := by
  cases y <;> (revert g z; decide)
@[simp] theorem cp_bytes (g : BitVec 3) (z : BitVec 4) (y : Bool) : (g ++ 0#1 ++ z ||| (0#3 ++ b1 y ++ 0#4) : BitVec 8).extractLsb' 4 1 = b1 y := by
  cases y <;> (revert g z; decide)
@[simp] theorem cp_fmt (g : BitVec 3) (z : BitVec 4) (y : Bool) : (g ++ 0#1 ++ z ||| (0#3 ++ b1 y ++ 0#4) : BitVec 8).extractLsb' 0 4 = z := by
  cases y <;> (revert g z; decide)
@[simp] theorem cd_stage (g : BitVec 3) (y : Bool) : (g ++ 0#5 ||| (0#3 ++ b1 y ++ 0#4) : BitVec 8).extractLsb' 5 3 = g := by
  cases y <;> (revert g; decide)
@[simp] theorem cd_bytes (g : BitVec 3) (y : Bool) : (g ++ 0#5 ||| (0#3 ++ b1 y ++ 0#4) : BitVec 8).extractLsb' 4 1 = b1 y := by
  cases y <;> (revert g; decide)
@[simp] theorem cd_fmt (g : BitVec 3) (y : Bool) : (g ++ 0#5 ||| (0#3 ++ b1 y ++ 0#4) : BitVec 8).extractLsb' 0 4 = 0 := by
  cases y <;> (revert g; decide)
@[simp] theorem cq_top (z : BitVec 4) (y : Bool) : (0#4 ++ z ||| (0#3 ++ b1 y ++ 0#4) : BitVec 8).extractLsb' 5 3 = 0 := by
  cases y <;> (revert z; decide)
@[simp] theorem cq_bytes (z : BitVec 4) (y : Bool) : (0#4 ++ z ||| (0#3 ++ b1 y ++ 0#4) : BitVec 8).extractLsb' 4 1 = b1 y := by
  cases y <;> (revert z; decide)
@[simp] theorem cq_fmt (z : BitVec 4) (y : Bool) : (0#4 ++ z ||| (0#3 ++ b1 y ++ 0#4) : BitVec 8).extractLsb' 0 4 = z := by
  cases y <;> (revert z; decide)
@[simp] theorem cl_top (q : Bool) (z : BitVec 4) (y : Bool) : (0#2 ++ b1 q ++ 0#1 ++ z ||| (0#3 ++ b1 y ++ 0#4) : BitVec 8).extractLsb' 6 2 = 0 := by
  cases q <;> cases y <;> (revert z; decide)
@[simp] theorem cl_mid (q : Bool) (z : BitVec 4) (y : Bool) : (0#2 ++ b1 q ++ 0#1 ++ z ||| (0#3 ++ b1 y ++ 0#4) : BitVec 8).extractLsb' 5 1 = b1 q := by
  cases q <;> cases y <;> (revert z; decide)
@[simp] theorem cl_bytes (q : Bool) (z : BitVec 4) (y : Bool) : (0#2 ++ b1 q ++ 0#1 ++ z ||| (0#3 ++ b1 y ++ 0#4) : BitVec 8).extractLsb' 4 1 = b1 y := by
  cases q <;> cases y <;> (revert z; decide)
@[simp] theorem cl_fmt (q : Bool) (z : BitVec 4) (y : Bool) : (0#2 ++ b1 q ++ 0#1 ++ z ||| (0#3 ++ b1 y ++ 0#4) : BitVec 8).extractLsb' 0 4 = z := by
  cases q <;> cases y <;> (revert z; decide)
@[simp] theorem cf_top (y : Bool) : (0#3 ++ b1 y ++ 0#4 : BitVec 8).extractLsb' 5 3 = 0 := by
  cases y <;> rfl
@[simp] theorem cf_bytes (y : Bool) : (0#3 ++ b1 y ++ 0#4 : BitVec 8).extractLsb' 4 1 = b1 y := by
  cases y <;> rfl
@[simp] theorem cf_fmt (y : Bool) : (0#3 ++ b1 y ++ 0#4 : BitVec 8).extractLsb' 0 4 = 0 := by
  cases y <;> rfl
@[simp] theorem qe_q (z : BitVec 2) (q : BitVec 2) : (z ++ q : BitVec 4).extractLsb' 0 2 = q := ext_lo _ _
@[simp] theorem qe_z (z : BitVec 2) (q : BitVec 2) : (z ++ q : BitVec 4).extractLsb' 2 2 = z := (ext_skip _ _ (by decide)).trans (ext_all _)
theorem swz_keep (z : BitVec 4) (h : z.toNat ≤ 2) : (0#2 ++ z.extractLsb' 0 2 : BitVec 4) = z ∧ z.extractLsb' 0 2 ≠ 3#2 := by
  revert z; decide
@[simp] theorem qf_q (m : BitVec 4) (q : BitVec 2) : (m ++ 0#2 ++ q : BitVec 8).extractLsb' 0 2 = q := by
  revert m q; decide
@[simp] theorem qf_0 (m : BitVec 4) (q : BitVec 2) : (m ++ 0#2 ++ q : BitVec 8).extractLsb' 2 2 = 0 := by
  revert m q; decide
@[simp] theorem qf_m (m : BitVec 4) (q : BitVec 2) : (m ++ 0#2 ++ q : BitVec 8).extractLsb' 4 4 = m := by
  revert m q; decide
@[simp] theorem qw_q (q : BitVec 2) : (0#6 ++ q : BitVec 8).extractLsb' 0 2 = q := by
  revert q; decide
@[simp] theorem qw_0 (q : BitVec 2) : (0#6 ++ q : BitVec 8).extractLsb' 2 6 = 0 := by
  revert q; decide
@[simp] theorem qs_q (x y : Bool) (q : BitVec 2) : (0#4 ++ b1 x ++ b1 y ++ q : BitVec 8).extractLsb' 0 2 = q := by
  cases x <;> cases y <;> (revert q; decide)
@[simp] theorem qs_y (x y : Bool) (q : BitVec 2) : (0#4 ++ b1 x ++ b1 y ++ q : BitVec 8).extractLsb' 2 1 = b1 y := by
  cases x <;> cases y <;> (revert q; decide)
@[simp] theorem qs_x (x y : Bool) (q : BitVec 2) : (0#4 ++ b1 x ++ b1 y ++ q : BitVec 8).extractLsb' 3 1 = b1 x := by
  cases x <;> cases y <;> (revert q; decide)
@[simp] theorem qs_0 (x y : Bool) (q : BitVec 2) : (0#4 ++ b1 x ++ b1 y ++ q : BitVec 8).extractLsb' 4 4 = 0 := by
  cases x <;> cases y <;> (revert q; decide)
@[simp] theorem mc_p (t : ElemTy) (z : BitVec 2) (p : Bool) : (t.code ++ 0#1 ++ z ++ b1 p : BitVec 8).extractLsb' 0 1 = b1 p := by
  cases t <;> cases p <;> (revert z; decide)
@[simp] theorem mc_z (t : ElemTy) (z : BitVec 2) (p : Bool) : (t.code ++ 0#1 ++ z ++ b1 p : BitVec 8).extractLsb' 1 2 = z := by
  cases t <;> cases p <;> (revert z; decide)
@[simp] theorem mc_0 (t : ElemTy) (z : BitVec 2) (p : Bool) : (t.code ++ 0#1 ++ z ++ b1 p : BitVec 8).extractLsb' 3 1 = 0 := by
  cases t <;> cases p <;> (revert z; decide)
@[simp] theorem mc_t (t : ElemTy) (z : BitVec 2) (p : Bool) : (t.code ++ 0#1 ++ z ++ b1 p : BitVec 8).extractLsb' 4 4 = t.code := by
  cases t <;> cases p <;> (revert z; decide)
@[simp] theorem sr_lo (n : BitVec 12) : (0#20 ++ n : BitVec 32).extractLsb' 0 12 = n := ext_lo _ _
@[simp] theorem sr_hi (n : BitVec 12) : (0#20 ++ n : BitVec 32).extractLsb' 12 20 = 0 := (ext_skip _ _ (by decide)).trans ext_zero

end Sys2Proof
end

