-- ==== Sys2Proof/Laws/Turns.lean ====
section
/-! SUPPORT. Sys2Proof/Laws/Turns.lean: what a whole instruction leaves when its meaning completes, traps or stays, and the checks many meanings begin with. -/
namespace Sys2Proof.Machine

theorem misuse_run {α : Type} (case : Nat) (q : QReg) (s : State) : (misuse case q : M α) s = .error (.trap 0x0E (BitVec.ofNat 64 (16 * case + q.toNat)) false) := rfl
theorem markEnd_ctx (g : Group) (p : Port) (b : Bool) (c : Nat) : (g.markEnd p b).ctx c = g.ctx c := by
  unfold Group.markEnd
  split <;> rfl
theorem roomM_run {q : Nat} {s : State} (h : (s.myGroup.queue q).items.length < 16) : roomM q s = .ok ((), s) := by
  simp only [roomM, M.bind_run, M.myGroup_run]; rw [if_neg (by omega)]; rfl
theorem roomM_full {q : Nat} {s : State} (h : 16 ≤ (s.myGroup.queue q).items.length) : roomM q s = .error (.stay id) := by
  simp only [roomM, M.bind_run, M.myGroup_run]; rw [if_pos h]; rfl
theorem instr_trap {len code : Nat} {v : Word} {m : Bool} {g : M Unit} {s : State} (h : g s = .error (.trap code v m)) (hc : epcIsNext code = false) :
    instr len g s = .next (s.enterTrap s.curCore s.curCtx code v s.me.pc m false) := by
  unfold instr runInstr State.turn; rw [M.bind_run, h]; dsimp only; rw [hc]; rfl
theorem instr_ok {len : Nat} {g : M Unit} {s t : State} (h : g s = .ok ((), t)) : instr len g s = .next (t.past len) := by
  unfold instr runInstr State.turn; rw [M.bind_run, h]; rfl
theorem instr_stay {len : Nat} {g : M Unit} {s : State} {f} (h : g s = .error (.stay f)) : instr len g s = .next (f s) := by
  unfold instr runInstr State.turn; rw [M.bind_run, h]
theorem runInstr_ok {len : Nat} {g : M Unit} {s t : State} (h : g s = .ok ((), t)) : runInstr len g s = .next t := by
  unfold runInstr State.turn; rw [h]
theorem runInstr_trap {len code : Nat} {v : Word} {m : Bool} {g : M Unit} {s : State} (h : g s = .error (.trap code v m)) (hc : epcIsNext code = false) :
    runInstr len g s = .next (s.enterTrap s.curCore s.curCtx code v s.me.pc m false) := by
  unfold runInstr State.turn; rw [h]; dsimp only; rw [hc]; rfl
theorem tileM_run {s : State} {va : Word} (h : s.tileAt va) : tileM va s = .ok (va.toNat % 2 ^ 22, s) := by
  obtain ⟨h1, h2, h3, h4⟩ := h
  unfold tileM
  simp only [M.bind_run, M.myGroup_run]
  rw [if_neg (by simp [h1, h2]; omega), if_neg (by omega)]
  rfl
theorem mmaPort_run {s : State} {q : QReg} (h : (s.me.port q).kind = 6) : mmaPort q s = .ok ((s.me.port q).idx, s) := by
  unfold mmaPort
  simp only [M.bind_run, M.me_run]
  rw [if_neg (by omega)]; rfl
theorem mmaPort_bad {s : State} {q : QReg} (h : (s.me.port q).kind ≠ 6) : mmaPort q s = .error (.trap 0x0E (BitVec.ofNat 64 (64 + q.toNat)) false) := by
  unfold mmaPort
  simp only [M.bind_run, M.me_run]
  rw [if_pos h, misuse_run]
theorem level_ok {l : BitVec 2} {s : State} (h : l.toNat ≤ s.me.priv.toNat) : level l s = .ok ((), s) := by
  unfold level; simp only [M.bind_run, M.me_run]; exact M.needM_run (by simp [h])
theorem level_trap {l : BitVec 2} {s : State} (h : s.me.priv.toNat < l.toNat) : level l s = .error (.trap 2 0 false) := by
  unfold level; simp only [M.bind_run, M.me_run]; exact M.needM_trap (by simp; omega)
theorem srNumber_ok {op bit : Nat} {x : Word} {s : State} (h : x.toNat < 4096) (h2 : srDefined x.toNat = true) : srNumber op bit x s = .ok (x.toNat, s) := by
  unfold srNumber; rw [if_pos (by simp [h, h2])]; rfl
theorem srNumber_bad {op bit : Nat} {x : Word} {s : State} (h : 4096 ≤ x.toNat ∨ srDefined x.toNat = false) :
    srNumber op bit x s = .error (.trap 1 (illegalRecord ⟨3, bit, op⟩) false) := by
  unfold srNumber; rw [if_neg]; rfl
  rcases h with h | h
  · simp; omega
  · simp [h]
theorem instr_trapN {len code : Nat} {v : Word} {m : Bool} {g : M Unit} {s : State} (h : g s = .error (.trap code v m)) (hc : epcIsNext code = true) :
    instr len g s = .next (s.enterTrap s.curCore s.curCtx code v (s.me.pc + BitVec.ofNat 64 len) m false) := by
  unfold instr runInstr State.turn; rw [M.bind_run, h]; dsimp only; rw [hc]; rfl
theorem priv1 {s : State} (h : s.me.priv ≠ 0) : (1 : BitVec 2).toNat ≤ s.me.priv.toNat := by
  generalize s.me.priv = x at *; revert x; decide
theorem priv0 {s : State} (h : s.me.priv = 0) : s.me.priv.toNat < (1 : BitVec 2).toNat := by rw [h]; decide
theorem priv2 {s : State} (h : s.me.priv.toNat < 2) : s.me.priv.toNat < (2 : BitVec 2).toNat := h
theorem absent_iff {c : Ctx} {r : Nat} : ∀ l : List (Nat × SReg), firstAbsent c r l = none ↔ ∀ p ∈ l, c.resident r p.2 = true := by
  intro l; induction l with
  | nil => simp [firstAbsent]
  | cons p t ih =>
    obtain ⟨b, q⟩ := p
    unfold firstAbsent
    by_cases h : c.resident r q = true
    · rw [if_pos h, ih]; simp [h]
    · rw [if_neg h]; simp [h]
theorem post_me (s : State) (e : Event) : (s.post e).me = s.me := rfl
theorem post_agenda (s : State) (e : Event) : (s.post e).agenda = s.agenda ++ [e] := rfl
theorem modMe_agenda (s : State) (f : Ctx → Ctx) : (s.modMe f).agenda = s.agenda := rfl
theorem modLaunch_me (s : State) (n : Nat) (f : Launch → Launch) : (s.modLaunch n f).me = s.me := rfl
theorem held_or (c : Ctx) (m : BitVec 32) (r : VReg) : ({ c with holds := c.holds ||| m } : Ctx).held r = (c.held r || m.getLsbD r.toNat) := by
  simp [Ctx.held]

end Sys2Proof.Machine
end

