-- ==== Sys2Proof/Laws/Engines.lean ====
section
/-! SUPPORT. Sys2Proof/Laws/Engines.lean: the causes that the checks of a porter command can raise, and what enqueueing a command and issuing an `mma` leave. -/
namespace Sys2Proof.Machine

/-- Codes of a check. -/
def Codes {α : Type} (m : Except (Nat × Word) α) : Prop := ∀ e, m = .error e → e.1 = 3 ∨ e.1 = 4 ∨ e.1 = 7
theorem codes_ok {α : Type} (a : α) : Codes (.ok a) := by intro e h; cases h
theorem codes_pure {α : Type} (a : α) : Codes (pure a) := by intro e h; cases h
theorem codes_err {α : Type} {n : Nat} {v : Word} (h : n = 3 ∨ n = 4 ∨ n = 7) : Codes (.error (n, v) : Except (Nat × Word) α) := by
  intro e he; cases he; exact h
theorem codes_bind {α β : Type} {m : Except (Nat × Word) α} {k : α → Except (Nat × Word) β} (h : Codes m) (h2 : ∀ a, Codes (k a)) : Codes (m >>= k) := by
  intro e he
  cases m with
  | error x => cases he; exact h _ rfl
  | ok a => exact h2 a e he
theorem codes_ite {α : Type} {c : Prop} [Decidable c] {m n : Except (Nat × Word) α} (h : Codes m) (h2 : Codes n) : Codes (if c then m else n) := by
  split <;> assumption
theorem codes_lim (v lo hi : Nat) : Codes (lim v lo hi) := codes_ite (codes_ok _) (codes_err (by simp))
theorem codes_at (s : State) (a : Actor) (va : Word) (n : Nat) : Codes (s.checkAt a va n) := by
  unfold State.checkAt
  split
  · exact codes_err (by simp)
  · exact codes_err (by simp)
  · exact codes_ok _
theorem codes_side (s : State) (a : Actor) (e : Word × Word) (n m : Nat) : Codes (s.checkSide a e n m) :=
  codes_ite (codes_ok _) (codes_bind (codes_at _ _ _ _) fun _ => codes_at _ _ _ _)
theorem codes_limits (c : Cmd) : Codes c.limits := by
  unfold Cmd.limits
  dsimp only
  split <;>
  repeat' (first | exact codes_ok _ | exact codes_pure _ | exact codes_err (by simp) | exact codes_lim _ _ _ | apply codes_ite | (refine codes_bind ?_ fun _ => ?_))
theorem codes_sides (s : State) (a : Actor) (c : Cmd) : Codes (s.sides a c) := by
  unfold State.sides
  dsimp only
  split <;>
  repeat' (first | exact codes_ok _ | exact codes_pure _ | exact codes_err (by simp) | exact codes_side _ _ _ _ _ | apply codes_ite | (refine codes_bind ?_ fun _ => ?_))
theorem codes_check (s : State) (c : Cmd) : Codes (s.cmdCheck c) := by
  unfold State.cmdCheck
  dsimp only
  refine codes_bind (codes_limits _) fun _ => codes_bind (codes_sides _ _ _) fun _ => codes_bind ?_ fun _ => codes_bind ?_ fun _ => ?_
  · exact codes_ite (codes_err (by simp)) (codes_ok _)
  · exact codes_ite (codes_ok _) (codes_err (by simp))
  · split
    · exact codes_ite (codes_ok _) (codes_err (by simp))
    · exact codes_ok _
/-- The operand port of a command that takes one. -/
def cpyPort (port : Option QReg) (fifo : Option Nat) : M Unit :=
  match port with
  | some p => if fifo.isNone then misuse 7 p else pure ()
  | none => pure ()
theorem joined_op (c : Cmd) : c.joined.op = c.op := by
  unfold Cmd.joined
  by_cases h : c.op = 0xC3
  · rw [if_pos h]
  · rw [if_neg h]
theorem cpyM_run {u : State} {f : CpyF} {c : Actor → Cmd} {port : Option QReg} {fifo : Option Nat} {p : State × Actor} {cmd : Cmd}
    (hb : (port.bind fun p => if (u.me.port p).kind = 6 then some (u.me.port p).idx else none) = fifo)
    (h1 : p = u.engineActor u.curCore u.curCtx (.porter f.queue.toNat)) 
    (h2 : cmd = ({ c p.2 with fifo := if port.isSome then some (fifo.getD 0) else none } : Cmd).joined) :
    cpyM f port c u = (match u.cmdCheck cmd with
      | .error (code, v) => (trapM code v : M Unit)
      | .ok _ => do
        cpyPort port fifo
        roomM f.queue.toNat
        reserveM (u.markMsgs cmd)
        set (((takeAgents cmd.op p.1).markDest cmd f.queue.toNat).enqueue u.curCore f.queue.toNat (.cmd cmd))
        wrS f.d (u.myGroup.queue f.queue.toNat).ticket) u := by
  have ho : cmd.op = (c p.2).op := by rw [h2, joined_op]
  rw [ho]
  subst h2
  unfold cpyM
  simp only [M.bind_run, M.get_run, hb, ← h1]
  all_goals (cases port <;> rfl)
theorem cpyM_enq {s u : State} {f : CpyF} {c : Actor → Cmd} {i : Instr} {port : Option QReg} {fifo : Option Nat} {g : M Unit}
    (h : exec i s = instr 16 g s) (hg : g s = cpyM f port c u)
    (hb : (port.bind fun p => if (u.me.port p).kind = 6 then some (u.me.port p).idx else none) = fifo)
    (hp2 : port.isSome = fifo.isSome) : Enqueues s u i f fifo c := by
  intro p cmd h1 h2
  have hcmd : cmd = ({ c p.2 with fifo := if port.isSome then some (fifo.getD 0) else none } : Cmd).joined := by
    rw [h2]
    rw [hp2]; cases fifo <;> rfl
  have run := cpyM_run hb h1 hcmd
  have hf : cpyPort port fifo = pure () := by
    cases port with
    | none => rfl
    | some q => cases fifo with
      | none => simp at hp2
      | some n => rfl
  have hl : s.curCore = s.curCore := rfl
  refine ⟨?_, ?_, ?_⟩
  · intro hc hl hr
    rw [hc] at run
    rw [h]; unfold instr runInstr State.turn; rw [M.bind_run, hg, run]
    dsimp only
    rw [hf]
    simp only [M.bind_run, M.pure_run, roomM_run hl, M.reserve_run hr, M.set_run, M.wrS_run, M.advance_run]
  · intro hc hl
    rw [hc] at run
    rw [h]; unfold instr runInstr State.turn; rw [M.bind_run, hg, run]
    dsimp only
    rw [hf]
    simp only [M.bind_run, M.pure_run, roomM_full hl]; rfl
  · intro code v hc
    rw [hc] at run
    have := codes_check u cmd _ hc
    rw [h]; unfold instr runInstr State.turn; rw [M.bind_run, hg, run]
    dsimp only
    rw [M.trapM_run]
    dsimp only at this ⊢
    rcases this with e | e | e <;> subst e <;> rfl
theorem mma_issues {op c : Nat} {mk : MmaF → Instr} (h : ∀ f s, exec (mk f) s = mmaM op f s) (hc : (op - 0xD0) / 2 = c) : Issues op c mk := by
  refine ⟨?_, ?_, ?_⟩
  · intro s f h1 ha hfa hfb hms hqa hqb ht hk
    simp only [State.resident] at h1
    rw [h]; unfold mmaM
    refine runInstr_ok ?_
    simp only [M.bind_run, M.names_run h1, M.myGroup_run]
    have e1 : (decide (classOf f.fa ≠ (op - 0xD0) / 2) || decide (classOf f.fb ≠ (op - 0xD0) / 2) || (decide (f.ms ≠ 0) && decide ((op - 0xD0) / 2 = 2))) = false := by
      rw [hc, hfa, hfb]
      by_cases e : f.ms = 0
      · simp [e]
      · simp [(hms e).1]
    have e2 : (decide (f.ms ≠ 0) && decide (Cells.get [] s.myGroup.progs f.ms.toNat = [])) = false := by
      by_cases e : f.ms = 0
      · simp [e]
      · simp [(hms e).2]
    rw [e1, e2]
    simp only [Bool.false_eq_true, if_false, M.pure_run, mmaPort_run hqa, mmaPort_run hqb, M.rdS_run ha, tileM_run ht]
    cases hkc : f.kc with
    | none => simp only [M.pure_run, M.rdM_run, M.bind_run, M.modS_run, M.modMe_run]
    | some k => simp only [M.needM_run (hk k hkc), M.pure_run, M.rdM_run, M.bind_run, M.modS_run, M.modMe_run]
  · intro s f h1 hb
    simp only [State.resident] at h1
    rw [h]; unfold mmaM
    refine runInstr_trap (m := false) ?_ rfl
    simp only [M.bind_run, M.names_run h1, M.myGroup_run]
    have e1 : (decide (classOf f.fa ≠ (op - 0xD0) / 2) || decide (classOf f.fb ≠ (op - 0xD0) / 2) || (decide (f.ms ≠ 0) && decide ((op - 0xD0) / 2 = 2))) = true := by
      rw [hc]
      rcases hb with e | e | ⟨e, e2⟩
      · simp [e]
      · simp [e]
      · simp [e2]; exact .inr e
    rw [e1]
    rfl
  · intro s f h1 hfa hfb hms hqa
    simp only [State.resident] at h1
    rw [h]; unfold mmaM
    refine runInstr_trap (m := false) ?_ rfl
    simp only [M.bind_run, M.names_run h1, M.myGroup_run]
    have e1 : (decide (classOf f.fa ≠ (op - 0xD0) / 2) || decide (classOf f.fb ≠ (op - 0xD0) / 2) || (decide (f.ms ≠ 0) && decide ((op - 0xD0) / 2 = 2))) = false := by
      rw [hc, hfa, hfb]; simp [hms]
    have e2 : (decide (f.ms ≠ 0) && decide (Cells.get [] s.myGroup.progs f.ms.toNat = [])) = false := by simp [hms]
    rw [e1, e2]
    simp only [Bool.false_eq_true, if_false, M.pure_run, mmaPort_bad hqa]
theorem foldTlb (p : Word × Word → Bool) : ∀ (ks : List Nat) (cs : Cells Core) (k : Nat),
    (Cells.get {} (ks.foldl (fun cs k => Cells.modify {} cs k fun c => { c with tlb := c.tlb.filter p }) cs) k).tlb =
      if k ∈ ks then (Cells.get {} cs k).tlb.filter p else (Cells.get {} cs k).tlb := by
  intro ks; induction ks with
  | nil => intro cs k; simp
  | cons j t ih =>
    intro cs k
    rw [List.foldl_cons, ih]
    unfold Cells.modify
    rw [Cells.get_set]
    by_cases e : k = j
    · subst e; simp [List.filter_filter]
    · simp [e]

end Sys2Proof.Machine
end

