-- ==== Sys2Proof/Laws/Events.lean ====
section
/-! SUPPORT. Sys2Proof/Laws/Events.lean: what performing a device event leaves, and lemmas about the groups, counters and launches that events change. -/
namespace Sys2Proof.Machine

theorem runEvent_run {i : Instr} {s : State} {e : Event} {g : Event → State → State} (h : s.event = some e) (hi : e.instr = i) (hw : e.wf = true) :
    runEvent i s g = .next (g e (s.begun e)) := by
  unfold runEvent; rw [h]; dsimp only; rw [if_pos hi, if_pos hw]; rfl
theorem testEntries_counters (g : Group) (k : KReg) (o v : Nat) (rels : List Rel) : (g.testEntries k o v rels).counters = g.counters := by
  unfold Group.testEntries
  show (List.foldl _ ({ g with batch := g.batch + 1 } : Group) _).counters = ({ g with batch := g.batch + 1 } : Group).counters
  generalize ({ g with batch := g.batch + 1 } : Group) = g
  generalize List.range 64 = xs
  induction xs generalizing g with
  | nil => rfl
  | cons x t ih =>
    rw [List.foldl_cons, ih]
    dsimp only
    split
    · split <;> rfl
    · rfl
theorem increment_kval (g : Group) (k j : KReg) (d : Word) (r : Option Rel) : (g.increment k d r).kval j = if j = k then g.kval k + d else g.kval j := by
  unfold Group.increment
  by_cases hd : d = 0
  · rw [if_pos hd, hd]; split
    · subst_vars; simp
    · rfl
  · rw [if_neg hd]
    have hc : ∀ (g' : Group) (c : Counter), g'.counters = Cells.set {} g.counters k.toNat c →
        (g'.kval j) = if j = k then c.val else g.kval j := by
      intro g' c h
      unfold Group.kval Group.counter
      rw [h, Cells.get_set]
      by_cases e : j = k
      · subst e; simp
      · have : j.toNat ≠ k.toNat := fun x => e (BitVec.eq_of_toNat_eq x)
        rw [if_neg this, if_neg e]
    dsimp only
    rw [hc _ ⟨BitVec.ofNat 64 ((g.counter k).val.toNat + d.toNat), r.toList ++ (g.counter k).rels⟩]
    · split
      · show BitVec.ofNat 64 _ = _
        apply BitVec.eq_of_toNat_eq; simp [Group.kval, BitVec.toNat_add]
      · rfl
    · rw [testEntries_counters]; split <;> rfl
theorem modLaunchGroup_bound (s : State) (core launch : Nat) (f : Group → Group) (h : (s.group core).launch = launch) :
    s.modLaunchGroup core launch f = s.modGroup core f := by
  unfold State.modLaunchGroup State.modGroup State.modCore
  have h' : (s.core core).group.launch = launch := h
  dsimp only
  rw [if_pos h']
theorem launchGroup_bound (s : State) (core launch : Nat) (h : (s.group core).launch = launch) : s.launchGroup core launch = some (s.group core) := by
  unfold State.launchGroup
  have h' : (s.core core).group.launch = launch := h
  rw [if_pos h']; rfl
theorem modCore_store (s : State) (n : Nat) (f : Core → Core) : (s.modCore n f).store = s.store := rfl
theorem launch_modLaunch (s : State) (n : Nat) (f : Launch → Launch) : (s.modLaunch n f).launch n = f (s.launch n) := by
  unfold State.modLaunch State.launch; exact Cells.get_set_self _ _ _ _
theorem writeHome_phase (s : State) (k : Nat) (m : BitVec 128) (l : Line) (r : Option Rel) : (s.writeHome k m l r).phase = s.phase := by
  unfold State.writeHome; dsimp only; split <;> [split; skip] <;> rfl
theorem poke_phase (s : State) (k : Nat) (bs : List Byte) : (s.poke k bs).phase = s.phase := by
  unfold State.poke
  dsimp only
  generalize byteParts _ = ps
  generalize (some _ : Option Rel) = r
  induction ps generalizing s with
  | nil => rfl
  | cons p t ih => rw [List.foldl_cons, ih]; exact writeHome_phase ..

end Sys2Proof.Machine
end

