-- ==== Sys2Proof/Laws/Fields.lean ====
section
/-! SUPPORT. Sys2Proof/Laws/Fields.lean: what each group of field decoders is made of, as simp lemmas. -/
namespace Sys2Proof

@[simp] theorem FA.noMask_eq (f : FA) : FA.noMask f = (do mbz 38 f.mr; mbz 41 f.mn; mbz 42 f.mz : D Unit) := rfl
@[simp] theorem FA.mask_eq (f : FA) : FA.mask f = (⟨f.mr, bit1 f.mn, bit1 f.mz⟩ : VMask) := rfl
@[simp] theorem FA.lmask_eq (f : FA) : FA.lmask f = (do mbz 42 f.mz; pure ⟨f.mr, bit1 f.mn⟩ : D LMask) := rfl
@[simp] theorem FA.tail_eq (f : FA) : FA.tail f = (mbz 51 f.zero : D Unit) := rfl
@[simp] theorem FA.noFn_eq (f : FA) : FA.noFn f = (mbz 43 f.fn : D Unit) := rfl
@[simp] theorem FA.noA_eq (f : FA) : FA.noA f = (mbz 17 f.a : D Unit) := rfl
@[simp] theorem FA.noB_eq (f : FA) : FA.noB f = (mbz 24 f.b : D Unit) := rfl
@[simp] theorem FA.noC_eq (f : FA) : FA.noC f = (mbz 31 f.c : D Unit) := rfl
@[simp] theorem FA.noD_eq (f : FA) : FA.noD f = (mbz 10 f.d : D Unit) := rfl
@[simp] theorem FA.hi_eq (f : FA) : FA.hi f = (f.fn.extractLsb' 4 4 : BitVec 4) := rfl
@[simp] theorem FA.lo_eq (f : FA) : FA.lo f = (f.fn.extractLsb' 0 4 : BitVec 4) := rfl
@[simp] theorem FA.f0_eq (f : FA) : FA.f0 f = (bit1 (f.fn.extractLsb' 0 1) : Bool) := rfl
@[simp] theorem FA.ty_eq (f : FA) (ok : ElemTy → Bool) : FA.ty f ok = (dTy 47 ok f.hi : D ElemTy) := rfl
@[simp] theorem FA.only0_eq (f : FA) : FA.only0 f = (do mbz 44 (f.fn.extractLsb' 1 7); pure f.f0 : D Bool) := rfl
@[simp] theorem FA.fltFixed_eq (f : FA) : FA.fltFixed f = (do
  mbz 47 f.hi
  let rm ← dRm 44 (f.fn.extractLsb' 1 3)
  pure (rm, f.f0) : D (Rm × Bool)) := rfl
@[simp] theorem FA.flt_eq (f : FA) : FA.flt f = (do
  let rm ← dRm 44 (f.fn.extractLsb' 1 3)
  pure (rm, f.f0) : D (Rm × Bool)) := rfl
@[simp] theorem FA.vint_eq (f : FA) : FA.vint f = (do
  mbz 43 (f.fn.extractLsb' 0 1)
  mbz 44 (f.fn.extractLsb' 1 2)
  pure (bit1 (f.fn.extractLsb' 3 1)) : D Bool) := rfl
@[simp] theorem FA.tyOnly_eq (f : FA) (ok : ElemTy → Bool) : FA.tyOnly f ok = (do mbz 43 f.lo; f.ty ok : D ElemTy) := rfl
@[simp] theorem FA.ctr_eq (f : FA) : FA.ctr f = (do mbz 49 (f.fn.extractLsb' 6 2); pure (f.fn.extractLsb' 0 6) : D KReg) := rfl
@[simp] theorem FA.d3_eq (f : FA) : FA.d3 f = (do pure (← rSQ 10 f.d, ← rSQ 17 f.a, ← rSQ 24 f.b) : D (SQ × SQ × SQ)) := rfl
@[simp] theorem FA.v3_eq (f : FA) : FA.v3 f = (do pure (← rVQ 10 f.d, ← rVQ 17 f.a, ← rVQ 24 f.b) : D (VQ × VQ × VQ)) := rfl
@[simp] theorem FA.v2_eq (f : FA) : FA.v2 f = (do f.noB; pure (← rVQ 10 f.d, ← rVQ 17 f.a) : D (VQ × VQ)) := rfl
@[simp] theorem FA.red_eq (f : FA) : FA.red f = (do
  mbz 34 (f.c.extractLsb' 3 4)
  coded 31 true (RedOp.ofCode (f.c.extractLsb' 0 3)) (fun _ => true) .sum : D RedOp) := rfl
@[simp] theorem FA.mode_eq (f : FA) : FA.mode f = (do
  let rm ← dRm 31 (f.c.extractLsb' 0 3)
  let om ← dOm 34 (f.c.extractLsb' 3 2)
  pure (om, rm, f.c.extractLsb' 5 2) : D (Om × Rm × BitVec 2)) := rfl
@[simp] theorem vi3_eq (f : FA) : vi3 f = (do
  let t ← f.ty ElemTy.isVInt
  let s ← f.vint
  let (d, a, b) ← f.v3
  pure (t, s, d, a, b) : D (ElemTy × Bool × VQ × VQ × VQ)) := rfl
@[simp] theorem vf3_eq (f : FA) : vf3 f = (do
  let t ← f.ty ElemTy.isVFlt
  let (rm, s) ← f.flt
  let (d, a, b) ← f.v3
  pure (t, rm, s, d, a, b) : D (ElemTy × Rm × Bool × VQ × VQ × VQ)) := rfl
@[simp] theorem vf2_eq (f : FA) : vf2 f = (do
  f.noC
  let t ← f.ty ElemTy.isVFlt
  let (rm, s) ← f.flt
  let (d, a) ← f.v2
  pure (t, rm, s, d, a) : D (ElemTy × Rm × Bool × VQ × VQ)) := rfl
@[simp] theorem FA.fltNone_eq (f : FA) : f.fltNone = (do
  let (rm, s) ← f.flt
  need (rm == .rne) 2 44
  need (!s) 2 43 : D Unit) := rfl
@[simp] theorem vabsLike_eq (f : FA) : vabsLike f = (do
  f.noC
  let t ← f.ty (fun t => t.isVInt || t.isVFlt)
  let (d, a) ← f.v2
  if t.isFlt then do f.fltNone; pure (t, false, d, a)
  else do let s ← f.vint; pure (t, s, d, a) : D (ElemTy × Bool × VQ × VQ)) := rfl
@[simp] theorem vw3_eq (f : FA) (ok : ElemTy → Bool) : vw3 f ok = (do
  f.noC
  let t ← f.tyOnly ok
  let (d, a, b) ← f.v3
  pure (t, d, a, b) : D (ElemTy × VQ × VQ × VQ)) := rfl
@[simp] theorem vcvtF_eq (f : FA) (fits : Nat → Nat → Bool) : vcvtF f fits = (do
  let dt ← f.ty ElemTy.isVec
  let src ← dTy 43 ElemTy.isVec f.lo
  let (om, rm, part) ← f.mode
  let known := dt.isVec && src.isVec
  need (!known || fits dt.lane src.lane) 2 43
  need (!known || part == 0 || partOk part (Nat.max dt.lane src.lane) (Nat.min dt.lane src.lane)) 2 36
  let (d, a) ← f.v2
  pure (dt, src, om, rm, part, d, a) : D (ElemTy × ElemTy × Om × Rm × BitVec 2 × VQ × VQ)) := rfl
@[simp] theorem vqntF_eq (f : FA) : vqntF f = (do
  f.noMask
  mbz 47 f.hi
  let fmt ← dFmt 43 Fmt.isMx f.lo
  let (om, rm, part) ← f.mode
  let d ← rVQ 10 f.d
  let a ← rVQ 17 f.a
  let b ← rS 24 f.b
  pure (fmt, om, rm, part, d, a, b) : D (Fmt × Om × Rm × BitVec 2 × VQ × VQ × SReg)) := rfl
@[simp] theorem shAmount_eq (f : FI) : shAmount f = (do mbz 32 (f.imm.extractLsb' 6 26); pure (f.imm.extractLsb' 0 6) : D (BitVec 6)) := rfl
@[simp] theorem bitField_eq (f : FI) : bitField f = (do
  need (f.imm.extractLsb' 15 17 == 0 && f.imm.extractLsb' 6 2 == 0) 3 32
  need (fieldOk (f.imm.extractLsb' 0 6) (f.imm.extractLsb' 8 7)) 2 32
  pure (f.imm.extractLsb' 0 6, f.imm.extractLsb' 8 7) : D (BitVec 6 × BitVec 7)) := rfl
@[simp] theorem FI.ctr_eq (f : FI) : FI.ctr f = (do
  mbz 10 f.d
  mbz 17 f.a
  mbz 30 (f.fn.extractLsb' 6 2)
  pure (f.fn.extractLsb' 0 6) : D KReg) := rfl
@[simp] theorem FL.noMask_eq (f : FL) : FL.noMask f = (do mbz 31 f.mr; mbz 34 f.mn : D Unit) := rfl
@[simp] theorem FL.mask_eq (f : FL) : FL.mask f = (⟨f.mr, bit1 f.mn⟩ : LMask) := rfl
@[simp] theorem FL.addr_eq (f : FL) : FL.addr f = (do
  let a ← rS 17 f.a
  let b ← rS 24 f.b
  need (b != 0 || f.scale == 0) 3 35
  pure ⟨a, b, f.scale, f.disp⟩ : D Addr) := rfl
@[simp] theorem FL.xaddr_eq (f : FL) : FL.xaddr f = (do
  let a ← rS 17 f.a
  let b ← rV 24 f.b
  pure ⟨a, b, f.scale, f.disp⟩ : D XAddr) := rfl
@[simp] theorem FL.plainZ_eq (f : FL) : FL.plainZ f = (do dPlain f.ord; mbz 45 f.scope : D Unit) := rfl
@[simp] theorem FL.plain_eq (f : FL) : FL.plain f = (do dPlain f.ord; dNoScope f.scope : D Unit) := rfl
@[simp] theorem FL.amo_eq (f : FL) : FL.amo f = (do
  let op ← coded 48 true (AmoOp.ofCode (f.disp.extractLsb' 40 8)) (fun _ => true) .add
  pure (op, f.disp.extractLsb' 0 40) : D (AmoOp × BitVec 40)) := rfl
@[simp] theorem dLdf_eq (f : FL) : dLdf f = (coded 37 (ordReserved f.ord) (LdfMode.ofCode f.ord) (fun _ => true) .wf : D LdfMode) := rfl
@[simp] theorem dStf_eq (f : FL) : dStf f = (coded 37 (ordReserved f.ord) (StfMode.ofCode f.ord) (fun _ => true) .sf : D StfMode) := rfl
@[simp] theorem vamoF_eq (f : FL) (size : Nat) : vamoF f size = (do
  dSzIs f.sz size
  let o ← dOrd (fun _ => true) f.ord
  let sc ← dScope 45 f.scope
  let (op, disp) ← f.amo
  need (op != .cas) 2 48
  let d ← rV 10 f.d
  let a ← rS 17 f.a
  if f.b = 0 then do mbz 35 f.scale; pure (op, o, sc, d, a, .none, disp)
  else do let b ← rV 24 f.b; pure (op, o, sc, d, a, .v b, disp) : D (AmoOp × Ord × Scope × VReg × SReg × VIdx × BitVec 40)) := rfl
@[simp] theorem dPlain_eq (c : BitVec 4) : dPlain c = (if c = 0 then pure () else fault (if ordReserved c then 3 else 2) 37 : D Unit) := rfl
@[simp] theorem dNoScope_eq (c : BitVec 3) : dNoScope c = (if c = 0 then pure () else fault (if 5 ≤ c.toNat then 3 else 2) 45 : D Unit) := rfl
@[simp] theorem dOrd_eq (ok : Ord → Bool) (c : BitVec 4) : dOrd ok c = (coded 37 (ordReserved c) (Ord.ofCode c) ok .plain : D Ord) := rfl
@[simp] theorem dSz_eq {α : Type} (c : BitVec 4) (v : Option α) (dflt : α) : dSz c v dflt = (coded 41 (11 ≤ c.toNat) v (fun _ => true) dflt : D α) := rfl
@[simp] theorem dSzIs_eq (c : BitVec 4) (n : Nat) : dSzIs c n = (
  if c.toNat = n then pure () else fault (if 11 ≤ c.toNat then 3 else 2) 41 : D Unit) := rfl
@[simp] theorem dScope_eq (bit : Nat) (c : BitVec 3) : dScope bit c = (coded bit true (Scope.ofCode c) (fun _ => true) .context : D Scope) := rfl
@[simp] theorem dFmt_eq (bit : Nat) (ok : Fmt → Bool) (c : BitVec 4) : dFmt bit ok c = (coded bit true (Fmt.ofCode c) ok .bf16 : D Fmt) := rfl
@[simp] theorem dNoCond_eq (c : BitVec 4) : dNoCond c = (if c = 0 then pure () else fault (if 13 ≤ c.toNat then 3 else 2) 24 : D Unit) := rfl
@[simp] theorem muF_eq (f : FE) : muF f = (do
  f.noD; f.noA; f.noB; f.noC; f.noE; f.noFn; f.noQe; f.noKc
  need (muWords (muList f.imm)) 3 64
  need ((muWord f.imm 0).extractLsb' 12 4 != 0) 2 64
  pure f.imm : D Word) := rfl
@[simp] theorem FE.noA_eq (f : FE) : FE.noA f = (mbz 17 f.a : D Unit) := rfl
@[simp] theorem FE.noB_eq (f : FE) : FE.noB f = (mbz 24 f.b : D Unit) := rfl
@[simp] theorem FE.noC_eq (f : FE) : FE.noC f = (mbz 31 f.c : D Unit) := rfl
@[simp] theorem FE.noD_eq (f : FE) : FE.noD f = (mbz 10 f.d : D Unit) := rfl
@[simp] theorem FE.noE_eq (f : FE) : FE.noE f = (mbz 38 f.e : D Unit) := rfl
@[simp] theorem FE.noFn_eq (f : FE) : FE.noFn f = (mbz 45 f.fn : D Unit) := rfl
@[simp] theorem FE.noQe_eq (f : FE) : FE.noQe f = (mbz 53 f.qe : D Unit) := rfl
@[simp] theorem FE.noKc_eq (f : FE) : FE.noKc f = (mbz 57 f.kc : D Unit) := rfl
@[simp] theorem FE.noImm_eq (f : FE) : FE.noImm f = (mbz 64 f.imm : D Unit) := rfl
@[simp] theorem FE.cpy_eq (f : FE) : FE.cpy f = (do
  let kc ← dKc f.kc
  let d ← rS 10 f.d
  pure ⟨f.qe.extractLsb' 0 2, bit1 (f.fn.extractLsb' 4 1), kc, d⟩ : D CpyF) := rfl
@[simp] theorem FE.swz_eq (f : FE) : FE.swz f = (do
  need (f.qe.extractLsb' 2 2 != 3) 3 53
  pure ((0#2 ++ f.qe.extractLsb' 2 2 : BitVec 4)) : D (BitVec 4)) := rfl
@[simp] theorem FE.noSwz_eq (f : FE) : FE.noSwz f = (need (f.qe.extractLsb' 2 2 == 0) 3 53 : D Unit) := rfl
@[simp] theorem FE.stage_eq (f : FE) (top : Nat) : FE.stage f top = (do
  let s := f.fn.extractLsb' 5 3
  need (s.toNat ≤ 4) 3 50
  need (s.toNat ≤ top || 5 ≤ s.toNat) 2 50
  pure s : D (BitVec 3)) := rfl
@[simp] theorem FE.stageFmt_eq (f : FE) : FE.stageFmt f = (need (f.fn.extractLsb' 0 4 == 0
  || (2 < (f.fn.extractLsb' 5 3).toNat && (f.fn.extractLsb' 0 4).toNat < 10)) 3 45 : D Unit) := rfl
@[simp] theorem FE.noFmt_eq (f : FE) : FE.noFmt f = (mbz 45 (f.fn.extractLsb' 0 4) : D Unit) := rfl
@[simp] theorem dTy_eq (bit : Nat) (ok : ElemTy → Bool) (c : BitVec 4) : dTy bit ok c = (coded bit true (ElemTy.ofCode c) ok .i8 : D ElemTy) := rfl
@[simp] theorem dRm_eq (bit : Nat) (c : BitVec 3) : dRm bit c = (coded bit true (Rm.ofCode c) (fun _ => true) .rne : D Rm) := rfl
@[simp] theorem dOm_eq (bit : Nat) (c : BitVec 2) : dOm bit c = (coded bit true (Om.ofCode c) (fun _ => true) .ovf : D Om) := rfl
@[simp] theorem dICond_eq (bit : Nat) (c : BitVec 4) : dICond bit c = (coded bit (13 ≤ c.toNat) (ICond.ofCode c) (fun _ => true) .eq : D ICond) := rfl
@[simp] theorem dFCond_eq (bit : Nat) (c : BitVec 4) : dFCond bit c = (coded bit (13 ≤ c.toNat) (FCond.ofCode c) (fun _ => true) .eq : D FCond) := rfl
@[simp] theorem dMCond_eq (bit : Nat) (c : BitVec 4) : dMCond bit c = (coded bit (13 ≤ c.toNat) (MCond.ofCode c) (fun _ => true) .any : D MCond) := rfl
@[simp] theorem amoDisp_eq (op : AmoOp) (disp : BitVec 40) : amoDisp op disp = op.code ++ disp := rfl
@[simp] theorem coded_eq {α : Type} (bit : Nat) (r : Bool) (v : Option α) (ok : α → Bool) (d : α) :
    coded bit r v ok d = (match v with
      | some x => do need (ok x) 2 bit; pure x
      | none => do fault (if r then 3 else 2) bit; pure d) := rfl

end Sys2Proof
end

