-- ==== Sys2Proof/Laws/Rows.lean ====
section
/-! SUPPORT. Sys2Proof/Laws/Rows.lean: the arm of the decoder that each opcode selects. -/
namespace Sys2Proof
set_option Elab.async false

theorem row_add (f : FA) (h : f.op = 0x00#8) : decRaw (.fa f) = (do
    f.tail
    f.noMask
    f.noC; f.noFn; let (d, a, b) ← f.d3; pure (.add d a b)) := by
  cases f; cases h; rfl
theorem row_sub (f : FA) (h : f.op = 0x01#8) : decRaw (.fa f) = (do
    f.tail
    f.noMask
    f.noC; f.noFn; let (d, a, b) ← f.d3; pure (.sub d a b)) := by
  cases f; cases h; rfl
theorem row_mul (f : FA) (h : f.op = 0x02#8) : decRaw (.fa f) = (do
    f.tail
    f.noMask
    f.noC; f.noFn; let (d, a, b) ← f.d3; pure (.mul d a b)) := by
  cases f; cases h; rfl
theorem row_mulh (f : FA) (h : f.op = 0x03#8) : decRaw (.fa f) = (do
    f.tail
    f.noMask
    f.noC; let u ← f.only0; let (d, a, b) ← f.d3; pure (.mulh u d a b)) := by
  cases f; cases h; rfl
theorem row_mad (f : FA) (h : f.op = 0x04#8) : decRaw (.fa f) = (do
    f.tail
    f.noMask
    f.noFn; let (d, a, b) ← f.d3; let c ← rSQ 31 f.c; pure (.mad d a b c)) := by
  cases f; cases h; rfl
theorem row_div (f : FA) (h : f.op = 0x05#8) : decRaw (.fa f) = (do
    f.tail
    f.noMask
    f.noC; let u ← f.only0; let (d, a, b) ← f.d3; pure (.div u d a b)) := by
  cases f; cases h; rfl
theorem row_rem (f : FA) (h : f.op = 0x06#8) : decRaw (.fa f) = (do
    f.tail
    f.noMask
    f.noC; let u ← f.only0; let (d, a, b) ← f.d3; pure (.rem u d a b)) := by
  cases f; cases h; rfl
theorem row_and (f : FA) (h : f.op = 0x07#8) : decRaw (.fa f) = (do
    f.tail
    f.noMask
    f.noC; f.noFn; let (d, a, b) ← f.d3; pure (.and d a b)) := by
  cases f; cases h; rfl
theorem row_or (f : FA) (h : f.op = 0x08#8) : decRaw (.fa f) = (do
    f.tail
    f.noMask
    f.noC; f.noFn; let (d, a, b) ← f.d3; pure (.or d a b)) := by
  cases f; cases h; rfl
theorem row_xor (f : FA) (h : f.op = 0x09#8) : decRaw (.fa f) = (do
    f.tail
    f.noMask
    f.noC; f.noFn; let (d, a, b) ← f.d3; pure (.xor d a b)) := by
  cases f; cases h; rfl
theorem row_shl (f : FA) (h : f.op = 0x0A#8) : decRaw (.fa f) = (do
    f.tail
    f.noMask
    f.noC; f.noFn; let (d, a, b) ← f.d3; pure (.shl d a b)) := by
  cases f; cases h; rfl
theorem row_shr (f : FA) (h : f.op = 0x0B#8) : decRaw (.fa f) = (do
    f.tail
    f.noMask
    f.noC; f.noFn; let (d, a, b) ← f.d3; pure (.shr d a b)) := by
  cases f; cases h; rfl
theorem row_sra (f : FA) (h : f.op = 0x0C#8) : decRaw (.fa f) = (do
    f.tail
    f.noMask
    f.noC; f.noFn; let (d, a, b) ← f.d3; pure (.sra d a b)) := by
  cases f; cases h; rfl
theorem row_rot (f : FA) (h : f.op = 0x0D#8) : decRaw (.fa f) = (do
    f.tail
    f.noMask
    f.noC; f.noFn; let (d, a, b) ← f.d3; pure (.rot d a b)) := by
  cases f; cases h; rfl
theorem row_min (f : FA) (h : f.op = 0x0E#8) : decRaw (.fa f) = (do
    f.tail
    f.noMask
    f.noC; let u ← f.only0; let (d, a, b) ← f.d3; pure (.min u d a b)) := by
  cases f; cases h; rfl
theorem row_max (f : FA) (h : f.op = 0x0F#8) : decRaw (.fa f) = (do
    f.tail
    f.noMask
    f.noC; let u ← f.only0; let (d, a, b) ← f.d3; pure (.max u d a b)) := by
  cases f; cases h; rfl
theorem row_addi (f : FI) (h : f.op = 0x10#8) : decRaw (.fi f) = (do
    mbz 24 f.fn; pure (.addi (← rSQ 10 f.d) (← rSQ 17 f.a) f.imm)) := by
  cases f; cases h; rfl
theorem row_andi (f : FI) (h : f.op = 0x11#8) : decRaw (.fi f) = (do
    mbz 24 f.fn; pure (.andi (← rSQ 10 f.d) (← rSQ 17 f.a) f.imm)) := by
  cases f; cases h; rfl
theorem row_ori (f : FI) (h : f.op = 0x12#8) : decRaw (.fi f) = (do
    mbz 24 f.fn; pure (.ori (← rSQ 10 f.d) (← rSQ 17 f.a) f.imm)) := by
  cases f; cases h; rfl
theorem row_xori (f : FI) (h : f.op = 0x13#8) : decRaw (.fi f) = (do
    mbz 24 f.fn; pure (.xori (← rSQ 10 f.d) (← rSQ 17 f.a) f.imm)) := by
  cases f; cases h; rfl
theorem row_shli (f : FI) (h : f.op = 0x14#8) : decRaw (.fi f) = (do
    mbz 24 f.fn; let n ← shAmount f; pure (.shli (← rSQ 10 f.d) (← rSQ 17 f.a) n)) := by
  cases f; cases h; rfl
theorem row_shri (f : FI) (h : f.op = 0x15#8) : decRaw (.fi f) = (do
    mbz 24 f.fn; let n ← shAmount f; pure (.shri (← rSQ 10 f.d) (← rSQ 17 f.a) n)) := by
  cases f; cases h; rfl
theorem row_srai (f : FI) (h : f.op = 0x16#8) : decRaw (.fi f) = (do
    mbz 24 f.fn; let n ← shAmount f; pure (.srai (← rSQ 10 f.d) (← rSQ 17 f.a) n)) := by
  cases f; cases h; rfl
theorem row_cmpi (f : FI) (h : f.op = 0x17#8) : decRaw (.fi f) = (do
    mbz 28 (f.fn.extractLsb' 4 4)
    let c ← dICond 24 (f.fn.extractLsb' 0 4)
    pure (.cmpi c (← rSQ 10 f.d) (← rSQ 17 f.a) f.imm)) := by
  cases f; cases h; rfl
theorem row_movi (f : FI) (h : f.op = 0x18#8) : decRaw (.fi f) = (do
    mbz 24 f.fn; mbz 17 f.a; pure (.movi (← rSQ 10 f.d) f.imm)) := by
  cases f; cases h; rfl
theorem row_bext (f : FI) (h : f.op = 0x19#8) : decRaw (.fi f) = (do
    mbz 25 (f.fn.extractLsb' 1 7)
    let (pos, len) ← bitField f
    pure (.bext (bit1 (f.fn.extractLsb' 0 1)) (← rSQ 10 f.d) (← rSQ 17 f.a) pos len)) := by
  cases f; cases h; rfl
theorem row_bins (f : FI) (h : f.op = 0x1A#8) : decRaw (.fi f) = (do
    mbz 24 f.fn
    let (pos, len) ← bitField f
    pure (.bins (← rS 10 f.d) (← rSQ 17 f.a) pos len)) := by
  cases f; cases h; rfl
theorem row_clz (f : FA) (h : f.op = 0x1B#8) : decRaw (.fa f) = (do
    f.tail
    f.noMask
    f.noB; f.noC; f.noFn; let d ← rSQ 10 f.d; let a ← rSQ 17 f.a; pure (.clz d a)) := by
  cases f; cases h; rfl
theorem row_ctz (f : FA) (h : f.op = 0x1C#8) : decRaw (.fa f) = (do
    f.tail
    f.noMask
    f.noB; f.noC; f.noFn; let d ← rSQ 10 f.d; let a ← rSQ 17 f.a; pure (.ctz d a)) := by
  cases f; cases h; rfl
theorem row_popc (f : FA) (h : f.op = 0x1D#8) : decRaw (.fa f) = (do
    f.tail
    f.noMask
    f.noB; f.noC; f.noFn; let d ← rSQ 10 f.d; let a ← rSQ 17 f.a; pure (.popc d a)) := by
  cases f; cases h; rfl
theorem row_cmp (f : FA) (h : f.op = 0x1E#8) : decRaw (.fa f) = (do
    f.tail
    f.noMask
    f.noC; mbz 47 f.hi; let c ← dICond 43 f.lo; let (d, a, b) ← f.d3; pure (.cmp c d a b)) := by
  cases f; cases h; rfl
theorem row_sel (f : FA) (h : f.op = 0x1F#8) : decRaw (.fa f) = (do
    f.tail
    f.noMask
    f.noFn; let (d, a, b) ← f.d3; let c ← rSQ 31 f.c; pure (.sel d a b c)) := by
  cases f; cases h; rfl
theorem row_faddF32 (f : FA) (h : f.op = 0x20#8) : decRaw (.fa f) = (do
    f.tail
    f.noMask
    f.noC; let (rm, sat) ← f.fltFixed; let (d, a, b) ← f.d3; pure (.faddF32 rm sat d a b)) := by
  cases f; cases h; rfl
theorem row_faddF64 (f : FA) (h : f.op = 0x21#8) : decRaw (.fa f) = (do
    f.tail
    f.noMask
    f.noC; let (rm, sat) ← f.fltFixed; let (d, a, b) ← f.d3; pure (.faddF64 rm sat d a b)) := by
  cases f; cases h; rfl
theorem row_fsubF32 (f : FA) (h : f.op = 0x22#8) : decRaw (.fa f) = (do
    f.tail
    f.noMask
    f.noC; let (rm, sat) ← f.fltFixed; let (d, a, b) ← f.d3; pure (.fsubF32 rm sat d a b)) := by
  cases f; cases h; rfl
theorem row_fsubF64 (f : FA) (h : f.op = 0x23#8) : decRaw (.fa f) = (do
    f.tail
    f.noMask
    f.noC; let (rm, sat) ← f.fltFixed; let (d, a, b) ← f.d3; pure (.fsubF64 rm sat d a b)) := by
  cases f; cases h; rfl
theorem row_fmulF32 (f : FA) (h : f.op = 0x24#8) : decRaw (.fa f) = (do
    f.tail
    f.noMask
    f.noC; let (rm, sat) ← f.fltFixed; let (d, a, b) ← f.d3; pure (.fmulF32 rm sat d a b)) := by
  cases f; cases h; rfl
theorem row_fmulF64 (f : FA) (h : f.op = 0x25#8) : decRaw (.fa f) = (do
    f.tail
    f.noMask
    f.noC; let (rm, sat) ← f.fltFixed; let (d, a, b) ← f.d3; pure (.fmulF64 rm sat d a b)) := by
  cases f; cases h; rfl
theorem row_ffmaF32 (f : FA) (h : f.op = 0x26#8) : decRaw (.fa f) = (do
    f.tail
    f.noMask
    let (rm, sat) ← f.fltFixed; let (d, a, b) ← f.d3; let c ← rSQ 31 f.c; pure (.ffmaF32 rm sat d a b c)) := by
  cases f; cases h; rfl
theorem row_ffmaF64 (f : FA) (h : f.op = 0x27#8) : decRaw (.fa f) = (do
    f.tail
    f.noMask
    let (rm, sat) ← f.fltFixed; let (d, a, b) ← f.d3; let c ← rSQ 31 f.c; pure (.ffmaF64 rm sat d a b c)) := by
  cases f; cases h; rfl
theorem row_fdivF32 (f : FA) (h : f.op = 0x28#8) : decRaw (.fa f) = (do
    f.tail
    f.noMask
    f.noC; let (rm, sat) ← f.fltFixed; let (d, a, b) ← f.d3; pure (.fdivF32 rm sat d a b)) := by
  cases f; cases h; rfl
theorem row_fdivF64 (f : FA) (h : f.op = 0x29#8) : decRaw (.fa f) = (do
    f.tail
    f.noMask
    f.noC; let (rm, sat) ← f.fltFixed; let (d, a, b) ← f.d3; pure (.fdivF64 rm sat d a b)) := by
  cases f; cases h; rfl
theorem row_fsqrtF32 (f : FA) (h : f.op = 0x2A#8) : decRaw (.fa f) = (do
    f.tail
    f.noMask
    f.noB; f.noC; let (rm, sat) ← f.fltFixed; let d ← rSQ 10 f.d; let a ← rSQ 17 f.a; pure (.fsqrtF32 rm sat d a)) := by
  cases f; cases h; rfl
theorem row_fsqrtF64 (f : FA) (h : f.op = 0x2B#8) : decRaw (.fa f) = (do
    f.tail
    f.noMask
    f.noB; f.noC; let (rm, sat) ← f.fltFixed; let d ← rSQ 10 f.d; let a ← rSQ 17 f.a; pure (.fsqrtF64 rm sat d a)) := by
  cases f; cases h; rfl
theorem row_fmin (f : FA) (h : f.op = 0x2C#8) : decRaw (.fa f) = (do
    f.tail
    f.noMask
    f.noC; let t ← f.ty ElemTy.isSFlt; need (f.lo == 0) 2 43; let (d, a, b) ← f.d3; pure (.fmin t d a b)) := by
  cases f; cases h; rfl
theorem row_fmax (f : FA) (h : f.op = 0x2D#8) : decRaw (.fa f) = (do
    f.tail
    f.noMask
    f.noC; let t ← f.ty ElemTy.isSFlt; need (f.lo == 0) 2 43; let (d, a, b) ← f.d3; pure (.fmax t d a b)) := by
  cases f; cases h; rfl
theorem row_fcmp (f : FA) (h : f.op = 0x2E#8) : decRaw (.fa f) = (do
    f.tail
    f.noMask
    f.noC; let t ← f.ty ElemTy.isSFlt; let c ← dFCond 43 f.lo; let (d, a, b) ← f.d3; pure (.fcmp t c d a b)) := by
  cases f; cases h; rfl
theorem row_fcvt (f : FA) (h : f.op = 0x2F#8) : decRaw (.fa f) = (do
    f.tail
    f.noMask
    f.noB
    let dt ← f.ty (fun _ => true)
    let src ← dTy 43 (fun _ => true) f.lo
    let (om, rm, part) ← f.mode
    need (part == 0) 2 36
    let d ← rSQ 10 f.d
    let a ← rSQ 17 f.a
    pure (.fcvt dt src om rm d a)) := by
  cases f; cases h; rfl
theorem row_br (f : FB) (h : f.op = 0x30#8) : decRaw (.fb f) = (do
    mbz 28 f.zero
    mbz 10 f.a; mbz 17 f.b; dNoCond f.cond; pure (.br f.off)) := by
  cases f; cases h; rfl
theorem row_bcnd (f : FB) (h : f.op = 0x31#8) : decRaw (.fb f) = (do
    mbz 28 f.zero
    let c ← dICond 24 f.cond; pure (.bcnd c (← rS 10 f.a) (← rS 17 f.b) f.off)) := by
  cases f; cases h; rfl
theorem row_bmask (f : FB) (h : f.op = 0x32#8) : decRaw (.fb f) = (do
    mbz 28 f.zero
    let c ← dMCond 24 f.cond; pure (.bmask c (← rM 10 f.a) (← rS 17 f.b) f.off)) := by
  cases f; cases h; rfl
theorem row_call (f : FB) (h : f.op = 0x33#8) : decRaw (.fb f) = (do
    mbz 28 f.zero
    mbz 10 f.a; mbz 17 f.b; dNoCond f.cond; pure (.call f.off)) := by
  cases f; cases h; rfl
theorem row_callr (f : FA) (h : f.op = 0x34#8) : decRaw (.fa f) = (do
    f.tail
    f.noMask
    f.noD
    f.noB
    f.noC
    f.noFn
    pure (.callr (← rS 17 f.a))) := by
  cases f; cases h; rfl
theorem row_jr (f : FA) (h : f.op = 0x36#8) : decRaw (.fa f) = (do
    f.tail
    f.noMask
    f.noD
    f.noB
    f.noC
    f.noFn
    pure (.jr (← rS 17 f.a))) := by
  cases f; cases h; rfl
theorem row_loop (f : FB) (h : f.op = 0x37#8) : decRaw (.fb f) = (do
    mbz 28 f.zero
    mbz 17 f.b
    dNoCond f.cond
    let a ← rS 10 f.a
    need (a != 0) 4 10
    pure (.loop a f.off)) := by
  cases f; cases h; rfl
theorem row_halt (f : FA) (h : f.op = 0x38#8) : decRaw (.fa f) = (do
    f.tail
    f.noMask
    f.noD
    f.noB
    f.noC
    f.noFn
    pure (.halt (← rS 17 f.a))) := by
  cases f; cases h; rfl
theorem row_brAbs (f : FX) (h : f.op = 0x3F#8) : decRaw (.fx f) = (do
    mbz 17 f.zero
    mbz 10 f.d; pure (.brAbs f.imm)) := by
  cases f; cases h; rfl
theorem row_vaddI (f : FA) (h : f.op = 0x40#8) : decRaw (.fa f) = (do
    f.tail
    f.noC; let (t, s, d, a, b) ← vi3 f; pure (.vaddI t s f.mask d a b)) := by
  cases f; cases h; rfl
theorem row_vaddF (f : FA) (h : f.op = 0x41#8) : decRaw (.fa f) = (do
    f.tail
    f.noC; let (t, rm, s, d, a, b) ← vf3 f; pure (.vaddF t rm s f.mask d a b)) := by
  cases f; cases h; rfl
theorem row_vsubI (f : FA) (h : f.op = 0x42#8) : decRaw (.fa f) = (do
    f.tail
    f.noC; let (t, s, d, a, b) ← vi3 f; pure (.vsubI t s f.mask d a b)) := by
  cases f; cases h; rfl
theorem row_vsubF (f : FA) (h : f.op = 0x43#8) : decRaw (.fa f) = (do
    f.tail
    f.noC; let (t, rm, s, d, a, b) ← vf3 f; pure (.vsubF t rm s f.mask d a b)) := by
  cases f; cases h; rfl
theorem row_vmulI (f : FA) (h : f.op = 0x44#8) : decRaw (.fa f) = (do
    f.tail
    f.noC; let (t, s, d, a, b) ← vi3 f; pure (.vmulI t s f.mask d a b)) := by
  cases f; cases h; rfl
theorem row_vmulF (f : FA) (h : f.op = 0x45#8) : decRaw (.fa f) = (do
    f.tail
    f.noC; let (t, rm, s, d, a, b) ← vf3 f; pure (.vmulF t rm s f.mask d a b)) := by
  cases f; cases h; rfl
theorem row_vfmaI (f : FA) (h : f.op = 0x46#8) : decRaw (.fa f) = (do
    f.tail
    let (t, s, d, a, b) ← vi3 f; let c ← rVQ 31 f.c; pure (.vfmaI t s f.mask d a b c)) := by
  cases f; cases h; rfl
theorem row_vfmaF (f : FA) (h : f.op = 0x47#8) : decRaw (.fa f) = (do
    f.tail
    let (t, rm, s, d, a, b) ← vf3 f; let c ← rVQ 31 f.c; pure (.vfmaF t rm s f.mask d a b c)) := by
  cases f; cases h; rfl
theorem row_vmaxI (f : FA) (h : f.op = 0x48#8) : decRaw (.fa f) = (do
    f.tail
    f.noC; let (t, s, d, a, b) ← vi3 f; need (!s) 3 46; pure (.vmaxI t f.mask d a b)) := by
  cases f; cases h; rfl
theorem row_vmaxF (f : FA) (h : f.op = 0x49#8) : decRaw (.fa f) = (do
    f.tail
    f.noC; let t ← f.ty ElemTy.isVFlt; f.fltNone; let (d, a, b) ← f.v3; pure (.vmaxF t f.mask d a b)) := by
  cases f; cases h; rfl
theorem row_vminI (f : FA) (h : f.op = 0x4A#8) : decRaw (.fa f) = (do
    f.tail
    f.noC; let (t, s, d, a, b) ← vi3 f; need (!s) 3 46; pure (.vminI t f.mask d a b)) := by
  cases f; cases h; rfl
theorem row_vminF (f : FA) (h : f.op = 0x4B#8) : decRaw (.fa f) = (do
    f.tail
    f.noC; let t ← f.ty ElemTy.isVFlt; f.fltNone; let (d, a, b) ← f.v3; pure (.vminF t f.mask d a b)) := by
  cases f; cases h; rfl
theorem row_vcmpI (f : FA) (h : f.op = 0x4C#8) : decRaw (.fa f) = (do
    f.tail
    f.noC
    let t ← f.ty ElemTy.isVInt
    let c ← dICond 43 f.lo
    let d ← rM 10 f.d
    let a ← rVQ 17 f.a
    let b ← rVQ 24 f.b
    pure (.vcmpI t c f.mask d a b)) := by
  cases f; cases h; rfl
theorem row_vcmpF (f : FA) (h : f.op = 0x4D#8) : decRaw (.fa f) = (do
    f.tail
    f.noC
    let t ← f.ty ElemTy.isVFlt
    let c ← dFCond 43 f.lo
    let d ← rM 10 f.d
    let a ← rVQ 17 f.a
    let b ← rVQ 24 f.b
    pure (.vcmpF t c f.mask d a b)) := by
  cases f; cases h; rfl
theorem row_vabs (f : FA) (h : f.op = 0x4E#8) : decRaw (.fa f) = (do
    f.tail
    let (t, s, d, a) ← vabsLike f; pure (.vabs t s f.mask d a)) := by
  cases f; cases h; rfl
theorem row_vneg (f : FA) (h : f.op = 0x4F#8) : decRaw (.fa f) = (do
    f.tail
    let (t, s, d, a) ← vabsLike f; pure (.vneg t s f.mask d a)) := by
  cases f; cases h; rfl
theorem row_vdiv (f : FA) (h : f.op = 0x50#8) : decRaw (.fa f) = (do
    f.tail
    f.noC
    let t ← f.ty (fun t => t.isVInt || t.isVFlt)
    let (d, a, b) ← f.v3
    if t.isFlt then do let (rm, s) ← f.flt; pure (.vdiv t rm s f.mask d a b)
    else do let s ← f.vint; need (!s) 3 46; pure (.vdiv t .rne false f.mask d a b)) := by
  cases f; cases h; rfl
theorem row_vsqrt (f : FA) (h : f.op = 0x51#8) : decRaw (.fa f) = (do
    f.tail
    let (t, rm, s, d, a) ← vf2 f; pure (.vsqrt t rm s f.mask d a)) := by
  cases f; cases h; rfl
theorem row_vrcp (f : FA) (h : f.op = 0x52#8) : decRaw (.fa f) = (do
    f.tail
    let (t, rm, s, d, a) ← vf2 f; pure (.vrcp t rm s f.mask d a)) := by
  cases f; cases h; rfl
theorem row_vrsqrt (f : FA) (h : f.op = 0x53#8) : decRaw (.fa f) = (do
    f.tail
    let (t, rm, s, d, a) ← vf2 f; pure (.vrsqrt t rm s f.mask d a)) := by
  cases f; cases h; rfl
theorem row_vexp2 (f : FA) (h : f.op = 0x54#8) : decRaw (.fa f) = (do
    f.tail
    let (t, rm, s, d, a) ← vf2 f; pure (.vexp2 t rm s f.mask d a)) := by
  cases f; cases h; rfl
theorem row_vlog2 (f : FA) (h : f.op = 0x55#8) : decRaw (.fa f) = (do
    f.tail
    let (t, rm, s, d, a) ← vf2 f; pure (.vlog2 t rm s f.mask d a)) := by
  cases f; cases h; rfl
theorem row_vdot (f : FA) (h : f.op = 0x56#8) : decRaw (.fa f) = (do
    f.tail
    let t ← f.ty (fun t => t == .bf16 || t == .f16 || t == .e4m3 || t == .e5m2 || t == .i8 || t == .n8)
    let (rm, s) ← f.flt
    need (!(t == .i8 || t == .n8) || rm == .rne) 2 44
    let (d, a, b) ← f.v3
    let c ← rVQ 31 f.c
    pure (.vdot t rm s f.mask d a b c)) := by
  cases f; cases h; rfl
theorem row_vand (f : FA) (h : f.op = 0x57#8) : decRaw (.fa f) = (do
    f.tail
    let (t, d, a, b) ← vw3 f ElemTy.isVInt; pure (.vand t f.mask d a b)) := by
  cases f; cases h; rfl
theorem row_vor (f : FA) (h : f.op = 0x58#8) : decRaw (.fa f) = (do
    f.tail
    let (t, d, a, b) ← vw3 f ElemTy.isVInt; pure (.vor t f.mask d a b)) := by
  cases f; cases h; rfl
theorem row_vxor (f : FA) (h : f.op = 0x59#8) : decRaw (.fa f) = (do
    f.tail
    let (t, d, a, b) ← vw3 f ElemTy.isVInt; pure (.vxor t f.mask d a b)) := by
  cases f; cases h; rfl
theorem row_vshl (f : FA) (h : f.op = 0x5A#8) : decRaw (.fa f) = (do
    f.tail
    let (t, d, a, b) ← vw3 f ElemTy.isVInt; pure (.vshl t f.mask d a b)) := by
  cases f; cases h; rfl
theorem row_vshr (f : FA) (h : f.op = 0x5B#8) : decRaw (.fa f) = (do
    f.tail
    let (t, d, a, b) ← vw3 f ElemTy.isVInt; pure (.vshr t f.mask d a b)) := by
  cases f; cases h; rfl
theorem row_vsra (f : FA) (h : f.op = 0x5C#8) : decRaw (.fa f) = (do
    f.tail
    let (t, d, a, b) ← vw3 f ElemTy.isVInt; pure (.vsra t f.mask d a b)) := by
  cases f; cases h; rfl
theorem row_vsel (f : FA) (h : f.op = 0x5D#8) : decRaw (.fa f) = (do
    f.tail
    let (t, d, a, b) ← vw3 f ElemTy.isVec; let m ← f.lmask; pure (.vsel t m d a b)) := by
  cases f; cases h; rfl
theorem row_vmov (f : FA) (h : f.op = 0x5E#8) : decRaw (.fa f) = (do
    f.tail
    f.noC; let t ← f.tyOnly ElemTy.isVec; let (d, a) ← f.v2; pure (.vmov t f.mask d a)) := by
  cases f; cases h; rfl
theorem row_vbcast (f : FA) (h : f.op = 0x5F#8) : decRaw (.fa f) = (do
    f.tail
    f.noB
    f.noC
    let t ← f.tyOnly ElemTy.isVec
    let d ← rVQ 10 f.d
    let a ← rSQ 17 f.a
    pure (.vbcast t f.mask d a)) := by
  cases f; cases h; rfl
theorem row_vperm (f : FA) (h : f.op = 0x60#8) : decRaw (.fa f) = (do
    f.tail
    let t ← f.tyOnly ElemTy.isVec
    let (d, a, b) ← f.v3
    let c ← rVQ 31 f.c
    pure (.vperm t f.mask d a b c)) := by
  cases f; cases h; rfl
theorem row_vredI (f : FA) (h : f.op = 0x61#8) : decRaw (.fa f) = (do
    f.tail
    f.noB
    let op ← f.red
    let t ← f.ty ElemTy.isVInt
    let s ← f.vint
    need (!s) 3 46
    let m ← f.lmask
    let d ← rSQ 10 f.d
    let a ← rVQ 17 f.a
    pure (.vredI op t m d a)) := by
  cases f; cases h; rfl
theorem row_vredF (f : FA) (h : f.op = 0x62#8) : decRaw (.fa f) = (do
    f.tail
    f.noB
    let op ← f.red
    let t ← f.ty ElemTy.isVFlt
    let (rm, s) ← f.flt
    need (op == .sum || op == .max || op == .min) 2 31
    need (op == .sum || f.lo == 0) 2 31
    let m ← f.lmask
    let d ← rSQ 10 f.d
    let a ← rVQ 17 f.a
    pure (.vredF op t rm s m d a)) := by
  cases f; cases h; rfl
theorem row_vscanI (f : FA) (h : f.op = 0x63#8) : decRaw (.fa f) = (do
    f.tail
    let op ← f.red
    let t ← f.ty ElemTy.isVInt
    let s ← f.vint
    let (d, a) ← f.v2
    pure (.vscanI op t s f.mask d a)) := by
  cases f; cases h; rfl
theorem row_vscanF (f : FA) (h : f.op = 0x64#8) : decRaw (.fa f) = (do
    f.tail
    let op ← f.red
    let t ← f.ty ElemTy.isVFlt
    let (rm, s) ← f.flt
    need (op == .sum || op == .max || op == .min) 2 31
    need (op == .sum || f.lo == 0) 2 31
    let (d, a) ← f.v2
    pure (.vscanF op t rm s f.mask d a)) := by
  cases f; cases h; rfl
theorem row_vslide (f : FA) (h : f.op = 0x65#8) : decRaw (.fa f) = (do
    f.tail
    f.noC
    let t ← f.tyOnly ElemTy.isVec
    let d ← rVQ 10 f.d
    let a ← rVQ 17 f.a
    let b ← rS 24 f.b
    pure (.vslide t f.mask d a b)) := by
  cases f; cases h; rfl
theorem row_vzip (f : FA) (h : f.op = 0x66#8) : decRaw (.fa f) = (do
    f.tail
    f.noC
    let t ← f.ty ElemTy.isVec
    mbz 45 (f.fn.extractLsb' 2 2)
    let (d, a, b) ← f.v3
    pure (.vzip f.f0 (bit1 (f.fn.extractLsb' 1 1)) t f.mask d a b)) := by
  cases f; cases h; rfl
theorem row_vext (f : FA) (h : f.op = 0x67#8) : decRaw (.fa f) = (do
    f.tail
    f.noC
    f.noMask
    let t ← f.tyOnly ElemTy.isVec
    let d ← rSQ 10 f.d
    let a ← rVQ 17 f.a
    let b ← rS 24 f.b
    pure (.vext t d a b)) := by
  cases f; cases h; rfl
theorem row_vextImm (f : FI) (h : f.op = 0x68#8) : decRaw (.fi f) = (do
    mbz 24 (f.fn.extractLsb' 0 4)
    let t ← dTy 28 ElemTy.isVec (f.fn.extractLsb' 4 4)
    need (f.imm.toNat * t.lane < 1024) 2 28
    pure (.vextImm t (← rSQ 10 f.d) (← rVQ 17 f.a) f.imm)) := by
  cases f; cases h; rfl
theorem row_vins (f : FA) (h : f.op = 0x69#8) : decRaw (.fa f) = (do
    f.tail
    f.noC
    f.noMask
    let t ← f.tyOnly ElemTy.isVec
    let d ← rV 10 f.d
    let a ← rSQ 17 f.a
    let b ← rS 24 f.b
    pure (.vins t d a b)) := by
  cases f; cases h; rfl
theorem row_vcvtSame (f : FA) (h : f.op = 0x6A#8) : decRaw (.fa f) = (do
    f.tail
    let (dt, src, om, rm, part, d, a) ← vcvtF f (fun x y => x == y)
    need (part == 0) 2 36
    pure (.vcvtSame dt src om rm part f.mask d a)) := by
  cases f; cases h; rfl
theorem row_vcvtWide (f : FA) (h : f.op = 0x6B#8) : decRaw (.fa f) = (do
    f.tail
    let (dt, src, om, rm, part, d, a) ← vcvtF f (fun x y => decide (y < x))
    pure (.vcvtWide dt src om rm part f.mask d a)) := by
  cases f; cases h; rfl
theorem row_vcvtNarrow (f : FA) (h : f.op = 0x6C#8) : decRaw (.fa f) = (do
    f.tail
    let (dt, src, om, rm, part, d, a) ← vcvtF f (fun x y => decide (x < y))
    pure (.vcvtNarrow dt src om rm part f.mask d a)) := by
  cases f; cases h; rfl
theorem row_vqnt (f : FA) (h : f.op = 0x6D#8) : decRaw (.fa f) = (do
    f.tail
    let (fmt, om, rm, part, d, a, b) ← vqntF f; pure (.vqnt fmt om rm part d b a)) := by
  cases f; cases h; rfl
theorem row_vdqnt (f : FA) (h : f.op = 0x6E#8) : decRaw (.fa f) = (do
    f.tail
    let (fmt, om, rm, part, d, a, b) ← vqntF f
    need (rm == .rne) 2 31
    pure (.vdqnt fmt om part d a b)) := by
  cases f; cases h; rfl
theorem row_vrnd (f : FA) (h : f.op = 0x6F#8) : decRaw (.fa f) = (do
    f.tail
    f.noB
    f.noC
    f.noFn
    let d ← rVQ 10 f.d
    let a ← rS 17 f.a
    pure (.vrnd f.mask d a)) := by
  cases f; cases h; rfl
theorem row_mand (f : FA) (h : f.op = 0x70#8) : decRaw (.fa f) = (do
    f.tail
    f.noC
    f.noMask; f.noFn; pure (.mand (← rM 10 f.d) (← rM 17 f.a) (← rM 24 f.b))) := by
  cases f; cases h; rfl
theorem row_mor (f : FA) (h : f.op = 0x71#8) : decRaw (.fa f) = (do
    f.tail
    f.noC
    f.noMask; f.noFn; pure (.mor (← rM 10 f.d) (← rM 17 f.a) (← rM 24 f.b))) := by
  cases f; cases h; rfl
theorem row_mxor (f : FA) (h : f.op = 0x72#8) : decRaw (.fa f) = (do
    f.tail
    f.noC
    f.noMask; f.noFn; pure (.mxor (← rM 10 f.d) (← rM 17 f.a) (← rM 24 f.b))) := by
  cases f; cases h; rfl
theorem row_mnot (f : FA) (h : f.op = 0x73#8) : decRaw (.fa f) = (do
    f.tail
    f.noC
    f.noMask; f.noFn; pure (.mnot (← rM 10 f.d) (← rM 17 f.a) (← rS 24 f.b))) := by
  cases f; cases h; rfl
theorem row_mpopc (f : FA) (h : f.op = 0x74#8) : decRaw (.fa f) = (do
    f.tail
    f.noC
    f.noMask; f.noFn; pure (.mpopc (← rS 10 f.d) (← rM 17 f.a) (← rS 24 f.b))) := by
  cases f; cases h; rfl
theorem row_mfirst (f : FA) (h : f.op = 0x75#8) : decRaw (.fa f) = (do
    f.tail
    f.noC
    f.noMask; f.noFn; pure (.mfirst (← rS 10 f.d) (← rM 17 f.a) (← rS 24 f.b))) := by
  cases f; cases h; rfl
theorem row_mset (f : FA) (h : f.op = 0x76#8) : decRaw (.fa f) = (do
    f.tail
    f.noC
    f.noMask; f.noFn; pure (.mset (← rM 10 f.d) (← rS 17 f.a) (← rS 24 f.b))) := by
  cases f; cases h; rfl
theorem row_msetN (f : FI) (h : f.op = 0x77#8) : decRaw (.fi f) = (do
    mbz 24 f.fn
    mbz 17 f.a
    need (f.imm.toNat ≤ 128) 2 32
    pure (.msetN (← rM 10 f.d) f.imm)) := by
  cases f; cases h; rfl
theorem row_msetB8 (f : FA) (h : f.op = 0x78#8) : decRaw (.fa f) = (do
    f.tail
    f.noC
    f.noMask; f.noFn; f.noB; pure (.msetB8 (← rM 10 f.d) (← rV 17 f.a))) := by
  cases f; cases h; rfl
theorem row_msetB16 (f : FA) (h : f.op = 0x79#8) : decRaw (.fa f) = (do
    f.tail
    f.noC
    f.noMask; f.noFn; f.noB; pure (.msetB16 (← rM 10 f.d) (← rV 17 f.a))) := by
  cases f; cases h; rfl
theorem row_msetB32 (f : FA) (h : f.op = 0x7A#8) : decRaw (.fa f) = (do
    f.tail
    f.noC
    f.noMask; f.noFn; f.noB; pure (.msetB32 (← rM 10 f.d) (← rV 17 f.a))) := by
  cases f; cases h; rfl
theorem row_mmov (f : FA) (h : f.op = 0x7B#8) : decRaw (.fa f) = (do
    f.tail
    f.noC
    f.noMask; f.noFn; f.noB; pure (.mmov (← rM 10 f.d) (← rM 17 f.a))) := by
  cases f; cases h; rfl
theorem row_mmovS (f : FA) (h : f.op = 0x7C#8) : decRaw (.fa f) = (do
    f.tail
    f.noC
    f.noMask; f.noB; let hi ← f.only0; pure (.mmovS hi (← rS 10 f.d) (← rM 17 f.a))) := by
  cases f; cases h; rfl
theorem row_mmovB8 (f : FA) (h : f.op = 0x7D#8) : decRaw (.fa f) = (do
    f.tail
    f.noC
    f.noFn; f.noB; pure (.mmovB8 f.mask (← rV 10 f.d) (← rM 17 f.a))) := by
  cases f; cases h; rfl
theorem row_mmovB16 (f : FA) (h : f.op = 0x7E#8) : decRaw (.fa f) = (do
    f.tail
    f.noC
    f.noFn; f.noB; pure (.mmovB16 f.mask (← rV 10 f.d) (← rM 17 f.a))) := by
  cases f; cases h; rfl
theorem row_mmovB32 (f : FA) (h : f.op = 0x7F#8) : decRaw (.fa f) = (do
    f.tail
    f.noC
    f.noFn; f.noB; pure (.mmovB32 f.mask (← rV 10 f.d) (← rM 17 f.a))) := by
  cases f; cases h; rfl
theorem row_ld (f : FL) (h : f.op = 0x80#8) : decRaw (.fl f) = (do
    f.plain; f.noMask; let z ← dSz f.sz (LdSz.ofCode f.sz) .n8; pure (.ld z (← rS 10 f.d) (← f.addr))) := by
  cases f; cases h; rfl
theorem row_ldOrdered (f : FL) (h : f.op = 0x81#8) : decRaw (.fl f) = (do
    f.noMask
    let o ← dOrd Ord.isLd f.ord
    let sc ← dScope 45 f.scope
    let z ← dSz f.sz (LdSz.ofCode f.sz) .n8
    pure (.ldOrdered o sc z (← rS 10 f.d) (← f.addr))) := by
  cases f; cases h; rfl
theorem row_st (f : FL) (h : f.op = 0x82#8) : decRaw (.fl f) = (do
    f.plain; f.noMask; let z ← dSz f.sz (StSz.ofCode f.sz) .n8; pure (.st z (← rS 10 f.d) (← f.addr))) := by
  cases f; cases h; rfl
theorem row_stOrdered (f : FL) (h : f.op = 0x83#8) : decRaw (.fl f) = (do
    f.noMask
    let o ← dOrd Ord.isSt f.ord
    let sc ← dScope 45 f.scope
    let z ← dSz f.sz (StSz.ofCode f.sz) .n8
    pure (.stOrdered o sc z (← rS 10 f.d) (← f.addr))) := by
  cases f; cases h; rfl
theorem row_vld (f : FL) (h : f.op = 0x84#8) : decRaw (.fl f) = (do
    f.plain; dSzIs f.sz 7; pure (.vld f.mask (← rV 10 f.d) (← f.addr))) := by
  cases f; cases h; rfl
theorem row_vldOrdered (f : FL) (h : f.op = 0x85#8) : decRaw (.fl f) = (do
    let o ← dOrd Ord.isLd f.ord
    let sc ← dScope 45 f.scope
    dSzIs f.sz 7
    pure (.vldOrdered o sc f.mask (← rV 10 f.d) (← f.addr))) := by
  cases f; cases h; rfl
theorem row_vst (f : FL) (h : f.op = 0x86#8) : decRaw (.fl f) = (do
    f.plain; dSzIs f.sz 7; pure (.vst f.mask (← rV 10 f.d) (← f.addr))) := by
  cases f; cases h; rfl
theorem row_vstOrdered (f : FL) (h : f.op = 0x87#8) : decRaw (.fl f) = (do
    let o ← dOrd Ord.isSt f.ord
    let sc ← dScope 45 f.scope
    dSzIs f.sz 7
    pure (.vstOrdered o sc f.mask (← rV 10 f.d) (← f.addr))) := by
  cases f; cases h; rfl
theorem row_vldx (f : FL) (h : f.op = 0x88#8) : decRaw (.fl f) = (do
    f.plain; let w ← dSz f.sz (EW.ofCode f.sz) .b8; pure (.vldx w f.mask (← rV 10 f.d) (← f.xaddr))) := by
  cases f; cases h; rfl
theorem row_vldxOrdered (f : FL) (h : f.op = 0x89#8) : decRaw (.fl f) = (do
    let o ← dOrd Ord.isLd f.ord
    let sc ← dScope 45 f.scope
    let w ← dSz f.sz (EW.ofCode f.sz) .b8
    pure (.vldxOrdered o sc w f.mask (← rV 10 f.d) (← f.xaddr))) := by
  cases f; cases h; rfl
theorem row_vstx (f : FL) (h : f.op = 0x8A#8) : decRaw (.fl f) = (do
    f.plain; let w ← dSz f.sz (EW.ofCode f.sz) .b8; pure (.vstx w f.mask (← rV 10 f.d) (← f.xaddr))) := by
  cases f; cases h; rfl
theorem row_vstxOrdered (f : FL) (h : f.op = 0x8B#8) : decRaw (.fl f) = (do
    let o ← dOrd Ord.isSt f.ord
    let sc ← dScope 45 f.scope
    let w ← dSz f.sz (EW.ofCode f.sz) .b8
    pure (.vstxOrdered o sc w f.mask (← rV 10 f.d) (← f.xaddr))) := by
  cases f; cases h; rfl
theorem row_vlds (f : FL) (h : f.op = 0x8C#8) : decRaw (.fl f) = (do
    f.plain; let w ← dSz f.sz (EW.ofCode f.sz) .b8; pure (.vlds w f.mask (← rV 10 f.d) (← f.addr))) := by
  cases f; cases h; rfl
theorem row_vldsOrdered (f : FL) (h : f.op = 0x8D#8) : decRaw (.fl f) = (do
    let o ← dOrd Ord.isLd f.ord
    let sc ← dScope 45 f.scope
    let w ← dSz f.sz (EW.ofCode f.sz) .b8
    pure (.vldsOrdered o sc w f.mask (← rV 10 f.d) (← f.addr))) := by
  cases f; cases h; rfl
theorem row_vsts (f : FL) (h : f.op = 0x8E#8) : decRaw (.fl f) = (do
    f.plain; let w ← dSz f.sz (EW.ofCode f.sz) .b8; pure (.vsts w f.mask (← rV 10 f.d) (← f.addr))) := by
  cases f; cases h; rfl
theorem row_vstsOrdered (f : FL) (h : f.op = 0x8F#8) : decRaw (.fl f) = (do
    let o ← dOrd Ord.isSt f.ord
    let sc ← dScope 45 f.scope
    let w ← dSz f.sz (EW.ofCode f.sz) .b8
    pure (.vstsOrdered o sc w f.mask (← rV 10 f.d) (← f.addr))) := by
  cases f; cases h; rfl
theorem row_ldfS (f : FL) (h : f.op = 0x90#8) : decRaw (.fl f) = (do
    f.noMask
    let mode ← dLdf f
    let sc ← dScope 45 f.scope
    let z ← dSz f.sz (LdSz.ofCode f.sz) .n8
    pure (.ldfS mode sc z (← rS 10 f.d) (← f.addr))) := by
  cases f; cases h; rfl
theorem row_ldfV (f : FL) (h : f.op = 0x91#8) : decRaw (.fl f) = (do
    let mode ← dLdf f
    let sc ← dScope 45 f.scope
    dSzIs f.sz 7
    pure (.ldfV mode sc f.mask (← rV 10 f.d) (← f.addr))) := by
  cases f; cases h; rfl
theorem row_stfS (f : FL) (h : f.op = 0x92#8) : decRaw (.fl f) = (do
    f.noMask
    let mode ← dStf f
    let sc ← dScope 45 f.scope
    let z ← dSz f.sz (StSz.ofCode f.sz) .n8
    pure (.stfS mode sc z (← rS 10 f.d) (← f.addr))) := by
  cases f; cases h; rfl
theorem row_stfV (f : FL) (h : f.op = 0x93#8) : decRaw (.fl f) = (do
    let mode ← dStf f
    let sc ← dScope 45 f.scope
    dSzIs f.sz 7
    pure (.stfV mode sc f.mask (← rV 10 f.d) (← f.addr))) := by
  cases f; cases h; rfl
theorem row_fset (f : FL) (h : f.op = 0x94#8) : decRaw (.fl f) = (do
    f.noMask; f.plain; dSzIs f.sz 0; mbz 10 f.d; pure (.fset (← f.addr))) := by
  cases f; cases h; rfl
theorem row_fclr (f : FL) (h : f.op = 0x95#8) : decRaw (.fl f) = (do
    f.noMask; f.plain; dSzIs f.sz 0; mbz 10 f.d; pure (.fclr (← f.addr))) := by
  cases f; cases h; rfl
theorem row_amo32 (f : FL) (h : f.op = 0x96#8) : decRaw (.fl f) = (do
    f.noMask
    mbz 35 f.scale
    dSzIs f.sz 2
    let o ← dOrd (fun _ => true) f.ord
    let sc ← dScope 45 f.scope
    let (op, disp) ← f.amo
    pure (.amo32 op o sc (← rS 10 f.d) (← rS 17 f.a) disp (← rS 24 f.b))) := by
  cases f; cases h; rfl
theorem row_amo64 (f : FL) (h : f.op = 0x97#8) : decRaw (.fl f) = (do
    f.noMask
    mbz 35 f.scale
    dSzIs f.sz 3
    let o ← dOrd (fun _ => true) f.ord
    let sc ← dScope 45 f.scope
    let (op, disp) ← f.amo
    pure (.amo64 op o sc (← rS 10 f.d) (← rS 17 f.a) disp (← rS 24 f.b))) := by
  cases f; cases h; rfl
theorem row_vamo32 (f : FL) (h : f.op = 0x98#8) : decRaw (.fl f) = (do
    let (op, o, sc, d, a, b, disp) ← vamoF f 2
    pure (.vamo32 op o sc f.mask d a b f.scale disp)) := by
  cases f; cases h; rfl
theorem row_vamo16 (f : FL) (h : f.op = 0x99#8) : decRaw (.fl f) = (do
    let (op, o, sc, d, a, b, disp) ← vamoF f 1
    pure (.vamo16 op o sc f.mask d a b f.scale disp)) := by
  cases f; cases h; rfl
theorem row_stn (f : FL) (h : f.op = 0x9A#8) : decRaw (.fl f) = (do
    f.noMask
    f.plainZ
    mbz 35 f.scale
    let w ← dSz f.sz (NW.ofCode f.sz) .bit4
    pure (.stn w (← rS 10 f.d) (← rS 17 f.a) (← rS 24 f.b) f.disp)) := by
  cases f; cases h; rfl
theorem row_fence (f : FA) (h : f.op = 0x9B#8) : decRaw (.fa f) = (do
    f.tail
    f.noMask
    f.noD
    f.noA
    f.noB
    f.noC
    mbz 50 (f.fn.extractLsb' 7 1)
    let sc ← dScope 47 (f.fn.extractLsb' 4 3)
    let o ← coded 43 (ordReserved f.lo) (Ord.ofCode f.lo) (fun o => o != .plain) .acq
    pure (.fence o sc)) := by
  cases f; cases h; rfl
theorem row_pref (f : FL) (h : f.op = 0x9C#8) : decRaw (.fl f) = (do
    f.noMask; f.plainZ; dSzIs f.sz 0; mbz 10 f.d; pure (.pref (← f.addr))) := by
  cases f; cases h; rfl
theorem row_prefRange (f : FL) (h : f.op = 0x9D#8) : decRaw (.fl f) = (do
    f.noMask
    f.plainZ
    dSzIs f.sz 0
    mbz 10 f.d
    mbz 35 f.scale
    let a ← rS 17 f.a
    let b ← rS 24 f.b
    pure (.prefRange a f.disp b)) := by
  cases f; cases h; rfl
theorem row_cwbr (f : FL) (h : f.op = 0x9E#8) : decRaw (.fl f) = (do
    f.noMask
    dPlain f.ord
    dSzIs f.sz 0
    mbz 35 f.scale
    let sc ← dScope 45 f.scope
    let d ← rS 10 f.d
    let a ← rS 17 f.a
    let b ← rS 24 f.b
    pure (.cwbr sc d a f.disp b)) := by
  cases f; cases h; rfl
theorem row_cinvr (f : FL) (h : f.op = 0x9F#8) : decRaw (.fl f) = (do
    f.noMask
    dPlain f.ord
    dSzIs f.sz 0
    mbz 35 f.scale
    let sc ← dScope 45 f.scope
    let d ← rS 10 f.d
    let a ← rS 17 f.a
    let b ← rS 24 f.b
    pure (.cinvr sc d a f.disp b)) := by
  cases f; cases h; rfl
theorem row_pbind (f : FA) (h : f.op = 0xA0#8) : decRaw (.fa f) = (do
    f.tail
    f.noMask
    f.noC; f.noFn; pure (.pbind (← rS 10 f.d) (← rQ 24 f.b) (← rS 17 f.a))) := by
  cases f; cases h; rfl
theorem row_pfree (f : FA) (h : f.op = 0xA1#8) : decRaw (.fa f) = (do
    f.tail
    f.noMask
    f.noC; f.noFn; f.noD; f.noA; pure (.pfree (← rQ 24 f.b))) := by
  cases f; cases h; rfl
theorem row_pstat (f : FA) (h : f.op = 0xA2#8) : decRaw (.fa f) = (do
    f.tail
    f.noMask
    f.noC; f.noFn; f.noA; pure (.pstat (← rS 10 f.d) (← rQ 24 f.b))) := by
  cases f; cases h; rfl
theorem row_pclose (f : FA) (h : f.op = 0xA3#8) : decRaw (.fa f) = (do
    f.tail
    f.noMask
    f.noC; f.noFn; f.noD; f.noA; pure (.pclose (← rQ 24 f.b))) := by
  cases f; cases h; rfl
theorem row_pmark (f : FA) (h : f.op = 0xA4#8) : decRaw (.fa f) = (do
    f.tail
    f.noMask
    f.noC
    f.noD
    f.noA
    mbz 50 (f.fn.extractLsb' 7 1)
    let q ← rQ 24 f.b
    if f.fn.extractLsb' 6 1 = 1 then pure (.pmark q (some (f.fn.extractLsb' 0 6)))
    else do mbz 43 (f.fn.extractLsb' 0 6); pure (.pmark q none)) := by
  cases f; cases h; rfl
theorem row_start (f : FA) (h : f.op = 0xA5#8) : decRaw (.fa f) = (do
    f.tail
    f.noMask
    f.noFn
    f.noA
    let d ← rS 10 f.d
    let b ← rS 24 f.b
    let c ← rS 31 f.c
    need (c.toNat ≤ 28) 4 31
    pure (.start d b c)) := by
  cases f; cases h; rfl
theorem row_spawn (f : FA) (h : f.op = 0xA6#8) : decRaw (.fa f) = (do
    f.tail
    f.noMask
    f.noFn
    let d ← rS 10 f.d
    let a ← rS 17 f.a
    let b ← rS 24 f.b
    let c ← rS 31 f.c
    need (c.toNat ≤ 28) 4 31
    pure (.spawn d a b c)) := by
  cases f; cases h; rfl
theorem row_join (f : FA) (h : f.op = 0xA7#8) : decRaw (.fa f) = (do
    f.tail
    f.noMask
    f.noB; f.noC; f.noFn; pure (.join (← rS 10 f.d) (← rS 17 f.a))) := by
  cases f; cases h; rfl
theorem row_bar (f : FE) (h : f.op = 0xA8#8) : decRaw (.fe f) = (do
    f.noD; f.noC; f.noE; f.noFn; f.noQe; f.noKc
    mbz 64 (f.imm.extractLsb' 16 48)
    pure (.bar (← rS 17 f.a) (← rS 24 f.b) (f.imm.extractLsb' 0 16))) := by
  cases f; cases h; rfl
theorem row_follow (f : FA) (h : f.op = 0xA9#8) : decRaw (.fa f) = (do
    f.tail
    f.noMask
    f.noA; f.noB; f.noC; f.noFn; pure (.follow (← rS 10 f.d))) := by
  cases f; cases h; rfl
theorem row_task (f : FA) (h : f.op = 0xAB#8) : decRaw (.fa f) = (do
    f.tail
    f.noMask
    f.noB; f.noC; f.noFn; pure (.task (← rS 10 f.d) (← rS 17 f.a))) := by
  cases f; cases h; rfl
theorem row_ckpt (f : FA) (h : f.op = 0xAD#8) : decRaw (.fa f) = (do
    f.tail
    f.noMask
    f.noB; f.noC; f.noFn; pure (.ckpt (← rS 10 f.d) (← rS 17 f.a))) := by
  cases f; cases h; rfl
theorem row_wake (f : FA) (h : f.op = 0xAF#8) : decRaw (.fa f) = (do
    f.tail
    f.noMask
    f.noD; f.noC; f.noFn; pure (.wake (← rS 17 f.a) (← rS 24 f.b))) := by
  cases f; cases h; rfl
theorem row_hold (f : FA) (h : f.op = 0xB0#8) : decRaw (.fa f) = (do
    f.tail
    f.noMask; f.noA; f.noB; f.noC; f.noFn; pure (.hold (← rV 10 f.d))) := by
  cases f; cases h; rfl
theorem row_holdSet (f : FI) (h : f.op = 0xB1#8) : decRaw (.fi f) = (do
    mbz 10 f.d; mbz 17 f.a; mbz 24 f.fn; pure (.holdSet f.imm)) := by
  cases f; cases h; rfl
theorem row_hclr (f : FA) (h : f.op = 0xB2#8) : decRaw (.fa f) = (do
    f.tail
    f.noMask; f.noA; f.noB; f.noC; f.noFn; pure (.hclr (← rV 10 f.d))) := by
  cases f; cases h; rfl
theorem row_depvK (f : FE) (h : f.op = 0xB3#8) : decRaw (.fe f) = (do
    f.noD; f.noE; f.noQe; f.noImm
    mbz 46 (f.fn.extractLsb' 1 7)
    let kc ← dKc f.kc
    pure (.depvK (bit1 (f.fn.extractLsb' 0 1)) (← rS 17 f.a) (← rS 24 f.b) (← rV 31 f.c) kc)) := by
  cases f; cases h; rfl
theorem row_depv (f : FA) (h : f.op = 0xB4#8) : decRaw (.fa f) = (do
    f.tail
    f.noMask; f.noD; let hi ← f.only0; pure (.depv hi (← rS 17 f.a) (← rS 24 f.b) (← rV 31 f.c))) := by
  cases f; cases h; rfl
theorem row_depsK (f : FE) (h : f.op = 0xB5#8) : decRaw (.fe f) = (do
    f.noD; f.noE; f.noQe; f.noImm
    mbz 46 (f.fn.extractLsb' 1 7)
    let kc ← dKc f.kc
    pure (.depsK (bit1 (f.fn.extractLsb' 0 1)) (← rS 17 f.a) (← rS 24 f.b) (← rS 31 f.c) kc)) := by
  cases f; cases h; rfl
theorem row_deps (f : FA) (h : f.op = 0xB6#8) : decRaw (.fa f) = (do
    f.tail
    f.noMask; f.noD; let hi ← f.only0; pure (.deps hi (← rS 17 f.a) (← rS 24 f.b) (← rS 31 f.c))) := by
  cases f; cases h; rfl
theorem row_post (f : FE) (h : f.op = 0xB7#8) : decRaw (.fe f) = (do
    f.noE; f.noImm
    need (f.kc.extractLsb' 6 1 == 1) 3 57
    mbz 53 (f.qe.extractLsb' 1 3)
    mbz 52 (f.fn.extractLsb' 7 1)
    let any := bit1 (f.fn.extractLsb' 6 1)
    let rearm := bit1 (f.qe.extractLsb' 0 1)
    need (!any || f.fn.extractLsb' 0 6 == 0) 3 45
    need (rearm || f.c == 0) 3 31
    let d ← rS 10 f.d
    let a ← rS 17 f.a
    let b ← rS 24 f.b
    let c ← rS 31 f.c
    pure (.post rearm any (f.fn.extractLsb' 0 6) d a b c (f.kc.extractLsb' 0 6))) := by
  cases f; cases h; rfl
theorem row_unpost (f : FA) (h : f.op = 0xB8#8) : decRaw (.fa f) = (do
    f.tail
    f.noMask; f.noA; f.noB; f.noC; let n ← f.ctr; pure (.unpost (← rS 10 f.d) n)) := by
  cases f; cases h; rfl
theorem row_ctradd (f : FA) (h : f.op = 0xB9#8) : decRaw (.fa f) = (do
    f.tail
    f.noMask; f.noD; f.noB; f.noC; let k ← f.ctr; pure (.ctradd k (← rS 17 f.a))) := by
  cases f; cases h; rfl
theorem row_ctraddImm (f : FI) (h : f.op = 0xBA#8) : decRaw (.fi f) = (do
    let k ← f.ctr; pure (.ctraddImm k f.imm)) := by
  cases f; cases h; rfl
theorem row_ctrset (f : FA) (h : f.op = 0xBB#8) : decRaw (.fa f) = (do
    f.tail
    f.noMask; f.noD; f.noB; f.noC; let k ← f.ctr; pure (.ctrset k (← rS 17 f.a))) := by
  cases f; cases h; rfl
theorem row_ctrsetImm (f : FI) (h : f.op = 0xBC#8) : decRaw (.fi f) = (do
    let k ← f.ctr; pure (.ctrsetImm k f.imm)) := by
  cases f; cases h; rfl
theorem row_ctrget (f : FA) (h : f.op = 0xBD#8) : decRaw (.fa f) = (do
    f.tail
    f.noMask
    f.noA
    f.noB
    f.noC
    need (f.fn.extractLsb' 6 2 == 0 || f.fn.extractLsb' 0 6 == 0) 3 43
    pure (.ctrget (f.fn.extractLsb' 6 2) (f.fn.extractLsb' 0 6) (← rS 10 f.d))) := by
  cases f; cases h; rfl
theorem row_ctrwait (f : FA) (h : f.op = 0xBE#8) : decRaw (.fa f) = (do
    f.tail
    f.noMask; f.noD; f.noB; f.noC; let k ← f.ctr; pure (.ctrwait k (← rS 17 f.a))) := by
  cases f; cases h; rfl
theorem row_ctrwaitImm (f : FI) (h : f.op = 0xBF#8) : decRaw (.fi f) = (do
    let k ← f.ctr; pure (.ctrwaitImm k f.imm)) := by
  cases f; cases h; rfl
theorem row_cpy (f : FE) (h : f.op = 0xC0#8) : decRaw (.fe f) = (do
    let g ← f.cpy
    let stage ← f.stage 4
    let swz ← f.swz
    let fmt := f.fn.extractLsb' 0 4
    if stage.toNat ≤ 2 then do f.noFmt; f.noImm
    else need (fmt == 4 || fmt == 5 || fmt == 6) (if 10 ≤ fmt.toNat then 3 else 2) 45
    f.noE
    pure (.cpy g stage fmt swz (← rS 17 f.a) (← rS 24 f.b) (← rS 31 f.c) f.imm)) := by
  cases f; cases h; rfl
theorem row_cpy2d (f : FE) (h : f.op = 0xC1#8) : decRaw (.fe f) = (do
    let g ← f.cpy
    let stage ← f.stage 2
    let swz ← f.swz
    f.stageFmt
    pure (.cpy2d g stage swz (← rS 17 f.a) (← rS 24 f.b) (← rS 31 f.c) (← rS 38 f.e) f.imm)) := by
  cases f; cases h; rfl
theorem row_cpy3d (f : FE) (h : f.op = 0xC2#8) : decRaw (.fe f) = (do
    let g ← f.cpy
    let stage ← f.stage 2
    let swz ← f.swz
    f.stageFmt
    f.noImm
    pure (.cpy3d g stage swz (← rS 17 f.a) (← rS 24 f.b) (← rS 31 f.c) (← rS 38 f.e))) := by
  cases f; cases h; rfl
theorem row_cpyMc (f : FE) (h : f.op = 0xC3#8) : decRaw (.fe f) = (do
    let g ← f.cpy
    let stage ← f.stage 2
    let swz ← f.swz
    f.stageFmt
    pure (.cpyMc g stage swz (← rS 17 f.a) (← rS 24 f.b) (← rS 31 f.c) (← rS 38 f.e) f.imm)) := by
  cases f; cases h; rfl
theorem row_cpyQ (f : FE) (h : f.op = 0xC4#8) : decRaw (.fe f) = (do
    let g ← f.cpy
    f.noSwz
    mbz 50 (f.fn.extractLsb' 5 3)
    let fmt ← dFmt 45 (fun _ => true) (f.fn.extractLsb' 0 4)
    f.noImm
    let e ← rS 38 f.e
    need (fmt.isMx || f.e == 0) 3 38
    need (!fmt.isMx || f.e != 0) 2 38
    pure (.cpyQ g fmt (← rQ 17 f.a) (← rS 24 f.b) (← rS 31 f.c) e)) := by
  cases f; cases h; rfl
theorem row_cpyQ2d (f : FE) (h : f.op = 0xC5#8) : decRaw (.fe f) = (do
    let g ← f.cpy
    f.noSwz
    mbz 50 (f.fn.extractLsb' 5 3)
    let fmt ← dFmt 45 (fun _ => true) (f.fn.extractLsb' 0 4)
    let e ← rS 38 f.e
    need (fmt.isMx || f.e == 0) 3 38
    need (!fmt.isMx || f.e != 0) 2 38
    pure (.cpyQ2d g fmt (← rQ 17 f.a) (← rS 24 f.b) (← rS 31 f.c) e f.imm)) := by
  cases f; cases h; rfl
theorem row_cpyPl (f : FE) (h : f.op = 0xC6#8) : decRaw (.fe f) = (do
    let g ← f.cpy
    f.noSwz
    f.noE
    mbz 51 (f.fn.extractLsb' 6 2)
    let p := f.fn.extractLsb' 0 4
    need (2 ≤ p.toNat && p.toNat ≤ 8) 2 45
    pure (.cpyPl g (bit1 (f.fn.extractLsb' 5 1)) p (← rSQ 17 f.a) (← rS 24 f.b) (← rS 31 f.c) f.imm)) := by
  cases f; cases h; rfl
theorem row_cpyFill (f : FE) (h : f.op = 0xC7#8) : decRaw (.fe f) = (do
    let g ← f.cpy
    let _ ← f.stage 0
    f.noSwz
    f.stageFmt
    f.noB
    f.noE
    pure (.cpyFill g (← rS 17 f.a) (← rS 31 f.c) f.imm)) := by
  cases f; cases h; rfl
theorem row_cpyxG (f : FE) (h : f.op = 0xC8#8) : decRaw (.fe f) = (do
    let g ← f.cpy
    f.noSwz
    mbz 50 (f.fn.extractLsb' 5 3)
    f.noFmt
    mbz 64 (f.imm.extractLsb' 17 15)
    pure (.cpyxG g (← rS 17 f.a) (← rS 24 f.b) (← rS 31 f.c) (← rS 38 f.e) f.imm)) := by
  cases f; cases h; rfl
theorem row_cpyxS (f : FE) (h : f.op = 0xC9#8) : decRaw (.fe f) = (do
    let g ← f.cpy
    f.noSwz
    mbz 50 (f.fn.extractLsb' 5 3)
    f.noFmt
    mbz 64 (f.imm.extractLsb' 17 15)
    pure (.cpyxS g (← rS 17 f.a) (← rS 24 f.b) (← rS 31 f.c) (← rS 38 f.e) f.imm)) := by
  cases f; cases h; rfl
theorem row_chainHead (f : FE) (h : f.op = 0xCA#8) : decRaw (.fe f) = (do
    f.noD; f.noB; f.noC; f.noE; f.noFn; f.noKc; f.noImm; f.noSwz
    pure (.chainHead (f.qe.extractLsb' 0 2) (← rS 17 f.a))) := by
  cases f; cases h; rfl
theorem row_chainApp (f : FE) (h : f.op = 0xCB#8) : decRaw (.fe f) = (do
    f.noD; f.noA; f.noB; f.noC; f.noE; f.noFn; f.noKc; f.noImm; f.noSwz
    pure (.chainApp (f.qe.extractLsb' 0 2))) := by
  cases f; cases h; rfl
theorem row_qfence (f : FA) (h : f.op = 0xCC#8) : decRaw (.fa f) = (do
    f.tail
    f.noMask
    f.noD
    f.noA
    f.noB
    f.noC
    mbz 45 (f.fn.extractLsb' 2 2)
    pure (.qfence f.hi (f.fn.extractLsb' 0 2))) := by
  cases f; cases h; rfl
theorem row_qwait (f : FA) (h : f.op = 0xCD#8) : decRaw (.fa f) = (do
    f.tail
    f.noMask
    f.noD
    f.noB
    f.noC
    mbz 45 (f.fn.extractLsb' 2 6)
    pure (.qwait (f.fn.extractLsb' 0 2) (← rS 17 f.a))) := by
  cases f; cases h; rfl
theorem row_qwaitImm (f : FI) (h : f.op = 0xCE#8) : decRaw (.fi f) = (do
    mbz 10 f.d
    mbz 17 f.a
    mbz 26 (f.fn.extractLsb' 2 6)
    pure (.qwaitImm (f.fn.extractLsb' 0 2) f.imm)) := by
  cases f; cases h; rfl
theorem row_qstat (f : FA) (h : f.op = 0xCF#8) : decRaw (.fa f) = (do
    f.tail
    f.noMask
    f.noA
    f.noB
    f.noC
    mbz 47 f.hi
    pure (.qstat (bit1 (f.fn.extractLsb' 3 1)) (bit1 (f.fn.extractLsb' 2 1)) (f.fn.extractLsb' 0 2) (← rS 10 f.d))) := by
  cases f; cases h; rfl
theorem row_mma16Slot0 (f : FM) (h : f.op = 0xD0#8) : decRaw (.fm f) = (do
    mbz 64 f.zero
    let kc ← dKc f.kc
    need (f.swz != 3) 3 55
    need (f.chk != 3) 3 53
    need (f.kb.toNat ≤ 8) 3 49
    need (f.chk == 0 || f.ms == 0) 2 45
    let fa ← dFmt 37 (fun _ => true) f.fa
    let fb ← dFmt 41 (fun _ => true) f.fb
    let acc ← rS 10 f.acc
    let qa ← rQ 17 f.qa
    let qb ← rQ 24 f.qb
    let m : MmaF := ⟨kc, f.swz, f.chk, f.kb, bit1 f.zacc, bit1 f.keep, f.ms, fb, fa, f.mc, f.mr, qb, qa, acc⟩
    pure (.mma16Slot0 m)) := by
  cases f; cases h; rfl
theorem row_mma16Slot1 (f : FM) (h : f.op = 0xD1#8) : decRaw (.fm f) = (do
    mbz 64 f.zero
    let kc ← dKc f.kc
    need (f.swz != 3) 3 55
    need (f.chk != 3) 3 53
    need (f.kb.toNat ≤ 8) 3 49
    need (f.chk == 0 || f.ms == 0) 2 45
    let fa ← dFmt 37 (fun _ => true) f.fa
    let fb ← dFmt 41 (fun _ => true) f.fb
    let acc ← rS 10 f.acc
    let qa ← rQ 17 f.qa
    let qb ← rQ 24 f.qb
    let m : MmaF := ⟨kc, f.swz, f.chk, f.kb, bit1 f.zacc, bit1 f.keep, f.ms, fb, fa, f.mc, f.mr, qb, qa, acc⟩
    pure (.mma16Slot1 m)) := by
  cases f; cases h; rfl
theorem row_mma8fSlot0 (f : FM) (h : f.op = 0xD2#8) : decRaw (.fm f) = (do
    mbz 64 f.zero
    let kc ← dKc f.kc
    need (f.swz != 3) 3 55
    need (f.chk != 3) 3 53
    need (f.kb.toNat ≤ 8) 3 49
    need (f.chk == 0 || f.ms == 0) 2 45
    let fa ← dFmt 37 (fun _ => true) f.fa
    let fb ← dFmt 41 (fun _ => true) f.fb
    let acc ← rS 10 f.acc
    let qa ← rQ 17 f.qa
    let qb ← rQ 24 f.qb
    let m : MmaF := ⟨kc, f.swz, f.chk, f.kb, bit1 f.zacc, bit1 f.keep, f.ms, fb, fa, f.mc, f.mr, qb, qa, acc⟩
    pure (.mma8fSlot0 m)) := by
  cases f; cases h; rfl
theorem row_mma8fSlot1 (f : FM) (h : f.op = 0xD3#8) : decRaw (.fm f) = (do
    mbz 64 f.zero
    let kc ← dKc f.kc
    need (f.swz != 3) 3 55
    need (f.chk != 3) 3 53
    need (f.kb.toNat ≤ 8) 3 49
    need (f.chk == 0 || f.ms == 0) 2 45
    let fa ← dFmt 37 (fun _ => true) f.fa
    let fb ← dFmt 41 (fun _ => true) f.fb
    let acc ← rS 10 f.acc
    let qa ← rQ 17 f.qa
    let qb ← rQ 24 f.qb
    let m : MmaF := ⟨kc, f.swz, f.chk, f.kb, bit1 f.zacc, bit1 f.keep, f.ms, fb, fa, f.mc, f.mr, qb, qa, acc⟩
    pure (.mma8fSlot1 m)) := by
  cases f; cases h; rfl
theorem row_mma8iSlot0 (f : FM) (h : f.op = 0xD4#8) : decRaw (.fm f) = (do
    mbz 64 f.zero
    let kc ← dKc f.kc
    need (f.swz != 3) 3 55
    need (f.chk != 3) 3 53
    need (f.kb.toNat ≤ 8) 3 49
    need (f.chk == 0 || f.ms == 0) 2 45
    let fa ← dFmt 37 (fun _ => true) f.fa
    let fb ← dFmt 41 (fun _ => true) f.fb
    let acc ← rS 10 f.acc
    let qa ← rQ 17 f.qa
    let qb ← rQ 24 f.qb
    let m : MmaF := ⟨kc, f.swz, f.chk, f.kb, bit1 f.zacc, bit1 f.keep, f.ms, fb, fa, f.mc, f.mr, qb, qa, acc⟩
    pure (.mma8iSlot0 m)) := by
  cases f; cases h; rfl
theorem row_mma8iSlot1 (f : FM) (h : f.op = 0xD5#8) : decRaw (.fm f) = (do
    mbz 64 f.zero
    let kc ← dKc f.kc
    need (f.swz != 3) 3 55
    need (f.chk != 3) 3 53
    need (f.kb.toNat ≤ 8) 3 49
    need (f.chk == 0 || f.ms == 0) 2 45
    let fa ← dFmt 37 (fun _ => true) f.fa
    let fb ← dFmt 41 (fun _ => true) f.fb
    let acc ← rS 10 f.acc
    let qa ← rQ 17 f.qa
    let qb ← rQ 24 f.qb
    let m : MmaF := ⟨kc, f.swz, f.chk, f.kb, bit1 f.zacc, bit1 f.keep, f.ms, fb, fa, f.mc, f.mr, qb, qa, acc⟩
    pure (.mma8iSlot1 m)) := by
  cases f; cases h; rfl
theorem row_mma4Slot0 (f : FM) (h : f.op = 0xD6#8) : decRaw (.fm f) = (do
    mbz 64 f.zero
    let kc ← dKc f.kc
    need (f.swz != 3) 3 55
    need (f.chk != 3) 3 53
    need (f.kb.toNat ≤ 8) 3 49
    need (f.chk == 0 || f.ms == 0) 2 45
    let fa ← dFmt 37 (fun _ => true) f.fa
    let fb ← dFmt 41 (fun _ => true) f.fb
    let acc ← rS 10 f.acc
    let qa ← rQ 17 f.qa
    let qb ← rQ 24 f.qb
    let m : MmaF := ⟨kc, f.swz, f.chk, f.kb, bit1 f.zacc, bit1 f.keep, f.ms, fb, fa, f.mc, f.mr, qb, qa, acc⟩
    pure (.mma4Slot0 m)) := by
  cases f; cases h; rfl
theorem row_mma4Slot1 (f : FM) (h : f.op = 0xD7#8) : decRaw (.fm f) = (do
    mbz 64 f.zero
    let kc ← dKc f.kc
    need (f.swz != 3) 3 55
    need (f.chk != 3) 3 53
    need (f.kb.toNat ≤ 8) 3 49
    need (f.chk == 0 || f.ms == 0) 2 45
    let fa ← dFmt 37 (fun _ => true) f.fa
    let fb ← dFmt 41 (fun _ => true) f.fb
    let acc ← rS 10 f.acc
    let qa ← rQ 17 f.qa
    let qb ← rQ 24 f.qb
    let m : MmaF := ⟨kc, f.swz, f.chk, f.kb, bit1 f.zacc, bit1 f.keep, f.ms, fb, fa, f.mc, f.mr, qb, qa, acc⟩
    pure (.mma4Slot1 m)) := by
  cases f; cases h; rfl
theorem row_mupl1 (f : FE) (h : f.op = 0xD8#8) : decRaw (.fe f) = (do
    let p ← muF f; pure (.mupl1 p)) := by
  cases f; cases h; rfl
theorem row_mupl2 (f : FE) (h : f.op = 0xD9#8) : decRaw (.fe f) = (do
    let p ← muF f; pure (.mupl2 p)) := by
  cases f; cases h; rfl
theorem row_mupl3 (f : FE) (h : f.op = 0xDA#8) : decRaw (.fe f) = (do
    let p ← muF f; pure (.mupl3 p)) := by
  cases f; cases h; rfl
theorem row_mchkRow (f : FA) (h : f.op = 0xDB#8) : decRaw (.fa f) = (do
    f.tail
    f.noB
    f.noC
    mbz 46 (f.fn.extractLsb' 3 1)
    let t ← f.ty (fun t => t == .f32 || t == .i32)
    need (f.fn.extractLsb' 1 2 != 3) 3 44
    pure (.mchkRow t (f.fn.extractLsb' 1 2) f.f0 f.mask (← rV 10 f.d) (← rS 17 f.a))) := by
  cases f; cases h; rfl
theorem row_mchkCol (f : FA) (h : f.op = 0xDC#8) : decRaw (.fa f) = (do
    f.tail
    f.noB
    f.noC
    mbz 46 (f.fn.extractLsb' 3 1)
    let t ← f.ty (fun t => t == .f32 || t == .i32)
    need (f.fn.extractLsb' 1 2 != 3) 3 44
    pure (.mchkCol t (f.fn.extractLsb' 1 2) f.f0 f.mask (← rV 10 f.d) (← rS 17 f.a))) := by
  cases f; cases h; rfl
theorem row_mzero (f : FA) (h : f.op = 0xDD#8) : decRaw (.fa f) = (do
    f.tail
    f.noMask; f.noD; f.noB; f.noC; f.noFn; pure (.mzero (← rS 17 f.a))) := by
  cases f; cases h; rfl
theorem row_mfsr (f : FI) (h : f.op = 0xE0#8) : decRaw (.fi f) = (do
    mbz 24 f.fn
    mbz 17 f.a
    mbz 32 (f.imm.extractLsb' 12 20)
    need (srDefined (f.imm.extractLsb' 0 12).toNat) 3 32
    pure (.mfsr (← rS 10 f.d) (f.imm.extractLsb' 0 12))) := by
  cases f; cases h; rfl
theorem row_mfsrReg (f : FA) (h : f.op = 0xE1#8) : decRaw (.fa f) = (do
    f.tail
    f.noMask
    f.noB; f.noC; f.noFn; pure (.mfsrReg (← rS 10 f.d) (← rS 17 f.a))) := by
  cases f; cases h; rfl
theorem row_mtsr (f : FI) (h : f.op = 0xE2#8) : decRaw (.fi f) = (do
    mbz 24 f.fn
    mbz 10 f.d
    mbz 32 (f.imm.extractLsb' 12 20)
    need (srDefined (f.imm.extractLsb' 0 12).toNat) 3 32
    pure (.mtsr (f.imm.extractLsb' 0 12) (← rS 17 f.a))) := by
  cases f; cases h; rfl
theorem row_mtsrReg (f : FA) (h : f.op = 0xE3#8) : decRaw (.fa f) = (do
    f.tail
    f.noMask
    f.noD; f.noC; f.noFn; pure (.mtsrReg (← rS 24 f.b) (← rS 17 f.a))) := by
  cases f; cases h; rfl
theorem row_trap (f : FI) (h : f.op = 0xE4#8) : decRaw (.fi f) = (do
    mbz 10 f.d
    mbz 17 f.a
    mbz 25 (f.fn.extractLsb' 1 7)
    pure (.trap (bit1 (f.fn.extractLsb' 0 1)) f.imm)) := by
  cases f; cases h; rfl
theorem row_trapReg (f : FA) (h : f.op = 0xE5#8) : decRaw (.fa f) = (do
    f.tail
    f.noMask
    f.noD; f.noB; f.noC; let bp ← f.only0; pure (.trapReg bp (← rS 17 f.a))) := by
  cases f; cases h; rfl
theorem row_tlbw (f : FA) (h : f.op = 0xE7#8) : decRaw (.fa f) = (do
    f.tail
    f.noMask
    f.noD; f.noC; f.noFn; pure (.tlbw (← rS 17 f.a) (← rS 24 f.b))) := by
  cases f; cases h; rfl
theorem row_tlbwRm (f : FA) (h : f.op = 0xE8#8) : decRaw (.fa f) = (do
    f.tail
    f.noMask
    f.noD; f.noFn; pure (.tlbwRm (← rS 17 f.a) (← rS 24 f.b) (← rS 31 f.c))) := by
  cases f; cases h; rfl
theorem row_tlbiVa (f : FA) (h : f.op = 0xEA#8) : decRaw (.fa f) = (do
    f.tail
    f.noMask
    f.noD; f.noB; f.noC; f.noFn; pure (.tlbiVa (← rS 17 f.a))) := by
  cases f; cases h; rfl
theorem row_tlbiTn (f : FA) (h : f.op = 0xEB#8) : decRaw (.fa f) = (do
    f.tail
    f.noMask
    f.noD; f.noB; f.noC; f.noFn; pure (.tlbiTn (← rS 17 f.a))) := by
  cases f; cases h; rfl
theorem row_ecall (f : FI) (h : f.op = 0xEC#8) : decRaw (.fi f) = (do
    mbz 24 f.fn; pure (.ecall (← rS 10 f.d) (← rS 17 f.a) f.imm)) := by
  cases f; cases h; rfl
theorem row_ecallReg (f : FA) (h : f.op = 0xED#8) : decRaw (.fa f) = (do
    f.tail
    f.noMask
    f.noC; f.noFn; pure (.ecallReg (← rS 10 f.d) (← rS 17 f.a) (← rS 24 f.b))) := by
  cases f; cases h; rfl
theorem row_injArm (f : FA) (h : f.op = 0xEE#8) : decRaw (.fa f) = (do
    f.tail
    f.noMask
    f.noC; f.noFn; pure (.injArm (← rS 10 f.d) (← rS 17 f.a) (← rS 24 f.b))) := by
  cases f; cases h; rfl
theorem row_injOff (f : FA) (h : f.op = 0xEF#8) : decRaw (.fa f) = (do
    f.tail
    f.noMask
    f.noA; f.noB; f.noC; f.noFn; pure (.injOff (← rS 10 f.d))) := by
  cases f; cases h; rfl
theorem row_movw (f : FX) (h : f.op = 0xF0#8) : decRaw (.fx f) = (do
    mbz 17 f.zero
    pure (.movw (← rS 10 f.d) f.imm)) := by
  cases f; cases h; rfl
theorem row_addiFx (f : FX) (h : f.op = 0xF1#8) : decRaw (.fx f) = (do
    mbz 17 f.zero
    pure (.addiFx (← rS 10 f.d) f.imm)) := by
  cases f; cases h; rfl
theorem row_andiFx (f : FX) (h : f.op = 0xF2#8) : decRaw (.fx f) = (do
    mbz 17 f.zero
    pure (.andiFx (← rS 10 f.d) f.imm)) := by
  cases f; cases h; rfl
theorem row_oriFx (f : FX) (h : f.op = 0xF3#8) : decRaw (.fx f) = (do
    mbz 17 f.zero
    pure (.oriFx (← rS 10 f.d) f.imm)) := by
  cases f; cases h; rfl
theorem row_xoriFx (f : FX) (h : f.op = 0xF4#8) : decRaw (.fx f) = (do
    mbz 17 f.zero
    pure (.xoriFx (← rS 10 f.d) f.imm)) := by
  cases f; cases h; rfl
theorem row_callAbs (f : FX) (h : f.op = 0xF5#8) : decRaw (.fx f) = (do
    mbz 17 f.zero
    mbz 10 f.d; pure (.callAbs f.imm)) := by
  cases f; cases h; rfl
theorem row_vbcastImm (f : FX) (h : f.op = 0xF6#8) : decRaw (.fx f) = (do
    mbz 17 f.zero
    pure (.vbcastImm (← rVQ 10 f.d) f.imm)) := by
  cases f; cases h; rfl
theorem row_msetLo (f : FX) (h : f.op = 0xF7#8) : decRaw (.fx f) = (do
    mbz 17 f.zero
    pure (.msetLo (← rM 10 f.d) f.imm)) := by
  cases f; cases h; rfl
theorem row_msetHi (f : FX) (h : f.op = 0xF8#8) : decRaw (.fx f) = (do
    mbz 17 f.zero
    pure (.msetHi (← rM 10 f.d) f.imm)) := by
  cases f; cases h; rfl
theorem row_ldAbs (f : FX) (h : f.op = 0xF9#8) : decRaw (.fx f) = (do
    mbz 17 f.zero
    pure (.ldAbs (← rS 10 f.d) f.imm)) := by
  cases f; cases h; rfl
theorem row_stAbs (f : FX) (h : f.op = 0xFA#8) : decRaw (.fx f) = (do
    mbz 17 f.zero
    pure (.stAbs (← rS 10 f.d) f.imm)) := by
  cases f; cases h; rfl
theorem row_vldAbs (f : FX) (h : f.op = 0xFB#8) : decRaw (.fx f) = (do
    mbz 17 f.zero
    pure (.vldAbs (← rV 10 f.d) f.imm)) := by
  cases f; cases h; rfl
theorem row_vstAbs (f : FX) (h : f.op = 0xFC#8) : decRaw (.fx f) = (do
    mbz 17 f.zero
    pure (.vstAbs (← rV 10 f.d) f.imm)) := by
  cases f; cases h; rfl
theorem row_startFe (f : FE) (h : f.op = 0xFD#8) : decRaw (.fe f) = (do
    f.noA; f.noB; f.noE; f.noFn; f.noQe; f.noKc
    let d ← rS 10 f.d
    let c ← rS 31 f.c
    need (c.toNat ≤ 28) 4 31
    pure (.startFe d c f.imm)) := by
  cases f; cases h; rfl
theorem row_spawnFe (f : FE) (h : f.op = 0xFE#8) : decRaw (.fe f) = (do
    f.noB; f.noE; f.noFn; f.noQe; f.noKc
    let d ← rS 10 f.d
    let a ← rS 17 f.a
    let c ← rS 31 f.c
    need (c.toNat ≤ 28) 4 31
    pure (.spawnFe d a c f.imm)) := by
  cases f; cases h; rfl
theorem row_cmpiFe (f : FE) (h : f.op = 0xFF#8) : decRaw (.fe f) = (do
    f.noB; f.noC; f.noE; f.noQe; f.noKc
    mbz 49 (f.fn.extractLsb' 4 4)
    let c ← dICond 45 (f.fn.extractLsb' 0 4)
    pure (.cmpiFe c (← rS 10 f.d) (← rS 17 f.a) f.imm)) := by
  cases f; cases h; rfl
theorem row_ret (f : FA) (h : f.op = 0x35#8) : decRaw (.fa f) = (do
    f.tail
    f.noMask
    f.noD
    f.noB
    f.noC
    f.noFn
    f.noA; pure .ret) := by
  cases f; cases h; rfl
theorem row_nop (f : FA) (h : f.op = 0x39#8) : decRaw (.fa f) = (do
    f.tail
    f.noMask
    f.noD
    f.noB
    f.noC
    f.noFn
    f.noA; pure .nop) := by
  cases f; cases h; rfl
theorem row_yield (f : FA) (h : f.op = 0x3A#8) : decRaw (.fa f) = (do
    f.tail
    f.noMask
    f.noD
    f.noB
    f.noC
    f.noFn
    f.noA; pure .yield) := by
  cases f; cases h; rfl
theorem row_wspill (f : FA) (h : f.op = 0x3B#8) : decRaw (.fa f) = (do
    f.tail
    f.noMask
    f.noD
    f.noB
    f.noC
    f.noFn
    f.noA; pure .wspill) := by
  cases f; cases h; rfl
theorem row_wfill (f : FA) (h : f.op = 0x3C#8) : decRaw (.fa f) = (do
    f.tail
    f.noMask
    f.noD
    f.noB
    f.noC
    f.noFn
    f.noA; pure .wfill) := by
  cases f; cases h; rfl
theorem row_nopW (f : FX) (h : f.op = 0x3D#8) : decRaw (.fx f) = (do
    mbz 17 f.zero
    mbz 10 f.d; mbz 32 f.imm; pure .nopW) := by
  cases f; cases h; rfl
theorem row_nopX (f : FE) (h : f.op = 0x3E#8) : decRaw (.fe f) = (do
    f.noD; f.noA; f.noB; f.noC; f.noE; f.noFn; f.noQe; f.noKc; f.noImm; pure .nopX) := by
  cases f; cases h; rfl
theorem row_leave (f : FA) (h : f.op = 0xAA#8) : decRaw (.fa f) = (do
    f.tail
    f.noMask
    f.noD; f.noA; f.noB; f.noC; f.noFn; pure .leave) := by
  cases f; cases h; rfl
theorem row_tdone (f : FA) (h : f.op = 0xAC#8) : decRaw (.fa f) = (do
    f.tail
    f.noMask
    f.noD; f.noA; f.noB; f.noC; f.noFn; pure .tdone) := by
  cases f; cases h; rfl
theorem row_park (f : FA) (h : f.op = 0xAE#8) : decRaw (.fa f) = (do
    f.tail
    f.noMask
    f.noD; f.noA; f.noB; f.noC; f.noFn; pure .park) := by
  cases f; cases h; rfl
theorem row_mzeroSlot0 (f : FA) (h : f.op = 0xDE#8) : decRaw (.fa f) = (do
    f.tail
    f.noMask; f.noD; f.noA; f.noB; f.noC; f.noFn; pure .mzeroSlot0) := by
  cases f; cases h; rfl
theorem row_mzeroSlot1 (f : FA) (h : f.op = 0xDF#8) : decRaw (.fa f) = (do
    f.tail
    f.noMask; f.noD; f.noA; f.noB; f.noC; f.noFn; pure .mzeroSlot1) := by
  cases f; cases h; rfl
theorem row_rett (f : FA) (h : f.op = 0xE6#8) : decRaw (.fa f) = (do
    f.tail
    f.noMask
    f.noD; f.noA; f.noB; f.noC; f.noFn; pure .rett) := by
  cases f; cases h; rfl
theorem row_tlbiAll (f : FA) (h : f.op = 0xE9#8) : decRaw (.fa f) = (do
    f.tail
    f.noMask
    f.noD; f.noA; f.noB; f.noC; f.noFn; pure .tlbiAll) := by
  cases f; cases h; rfl

end Sys2Proof
end

