-- ==== Sys2Proof/Laws/PerInstr.lean ====
section
/-! SUPPORT. Sys2Proof/Laws/PerInstr.lean: for each instruction, that its field record, written by the encoder, is read back by the decoder
without a fault, and selects its own format. -/
namespace Sys2Proof
set_option Elab.async false
set_option linter.unusedSimpArgs false

/-- A well-formed instruction has a field record, which the decoder reads as that instruction with no fault, under the format of its
opcode; a device event has none. -/
def Laws.RoundTrip.Statement (i : Instr) : Prop :=
  i.wf = true → toRaw i = none ∨ ∃ r, toRaw i = some r ∧ decRaw r [] = (i, []) ∧ formatOf r.op.toNat = r.format

theorem Laws.RoundTrip.add (d a b : SQ) : Laws.RoundTrip.Statement (.add d a b) := by
  intro _; refine .inr ⟨_, rfl, ?_, rfl⟩; rw [row_add _ rfl]
  simp
theorem Laws.RoundTrip.sub (d a b : SQ) : Laws.RoundTrip.Statement (.sub d a b) := by
  intro _; refine .inr ⟨_, rfl, ?_, rfl⟩; rw [row_sub _ rfl]
  simp
theorem Laws.RoundTrip.mul (d a b : SQ) : Laws.RoundTrip.Statement (.mul d a b) := by
  intro _; refine .inr ⟨_, rfl, ?_, rfl⟩; rw [row_mul _ rfl]
  simp
theorem Laws.RoundTrip.mulh (u : Bool) (d a b : SQ) : Laws.RoundTrip.Statement (.mulh u d a b) := by
  intro _; refine .inr ⟨_, rfl, ?_, rfl⟩; rw [row_mulh _ rfl]
  simp
theorem Laws.RoundTrip.mad (d a b c : SQ) : Laws.RoundTrip.Statement (.mad d a b c) := by
  intro _; refine .inr ⟨_, rfl, ?_, rfl⟩; rw [row_mad _ rfl]
  simp
theorem Laws.RoundTrip.div (u : Bool) (d a b : SQ) : Laws.RoundTrip.Statement (.div u d a b) := by
  intro _; refine .inr ⟨_, rfl, ?_, rfl⟩; rw [row_div _ rfl]
  simp
theorem Laws.RoundTrip.rem (u : Bool) (d a b : SQ) : Laws.RoundTrip.Statement (.rem u d a b) := by
  intro _; refine .inr ⟨_, rfl, ?_, rfl⟩; rw [row_rem _ rfl]
  simp
theorem Laws.RoundTrip.and (d a b : SQ) : Laws.RoundTrip.Statement (.and d a b) := by
  intro _; refine .inr ⟨_, rfl, ?_, rfl⟩; rw [row_and _ rfl]
  simp
theorem Laws.RoundTrip.or (d a b : SQ) : Laws.RoundTrip.Statement (.or d a b) := by
  intro _; refine .inr ⟨_, rfl, ?_, rfl⟩; rw [row_or _ rfl]
  simp
theorem Laws.RoundTrip.xor (d a b : SQ) : Laws.RoundTrip.Statement (.xor d a b) := by
  intro _; refine .inr ⟨_, rfl, ?_, rfl⟩; rw [row_xor _ rfl]
  simp
theorem Laws.RoundTrip.shl (d a b : SQ) : Laws.RoundTrip.Statement (.shl d a b) := by
  intro _; refine .inr ⟨_, rfl, ?_, rfl⟩; rw [row_shl _ rfl]
  simp
theorem Laws.RoundTrip.shr (d a b : SQ) : Laws.RoundTrip.Statement (.shr d a b) := by
  intro _; refine .inr ⟨_, rfl, ?_, rfl⟩; rw [row_shr _ rfl]
  simp
theorem Laws.RoundTrip.sra (d a b : SQ) : Laws.RoundTrip.Statement (.sra d a b) := by
  intro _; refine .inr ⟨_, rfl, ?_, rfl⟩; rw [row_sra _ rfl]
  simp
theorem Laws.RoundTrip.rot (d a b : SQ) : Laws.RoundTrip.Statement (.rot d a b) := by
  intro _; refine .inr ⟨_, rfl, ?_, rfl⟩; rw [row_rot _ rfl]
  simp
theorem Laws.RoundTrip.min (u : Bool) (d a b : SQ) : Laws.RoundTrip.Statement (.min u d a b) := by
  intro _; refine .inr ⟨_, rfl, ?_, rfl⟩; rw [row_min _ rfl]
  simp
theorem Laws.RoundTrip.max (u : Bool) (d a b : SQ) : Laws.RoundTrip.Statement (.max u d a b) := by
  intro _; refine .inr ⟨_, rfl, ?_, rfl⟩; rw [row_max _ rfl]
  simp
theorem Laws.RoundTrip.addi (d a : SQ) (imm : BitVec 32) : Laws.RoundTrip.Statement (.addi d a imm) := by
  intro _; refine .inr ⟨_, rfl, ?_, rfl⟩; rw [row_addi _ rfl]
  simp
theorem Laws.RoundTrip.andi (d a : SQ) (imm : BitVec 32) : Laws.RoundTrip.Statement (.andi d a imm) := by
  intro _; refine .inr ⟨_, rfl, ?_, rfl⟩; rw [row_andi _ rfl]
  simp
theorem Laws.RoundTrip.ori (d a : SQ) (imm : BitVec 32) : Laws.RoundTrip.Statement (.ori d a imm) := by
  intro _; refine .inr ⟨_, rfl, ?_, rfl⟩; rw [row_ori _ rfl]
  simp
theorem Laws.RoundTrip.xori (d a : SQ) (imm : BitVec 32) : Laws.RoundTrip.Statement (.xori d a imm) := by
  intro _; refine .inr ⟨_, rfl, ?_, rfl⟩; rw [row_xori _ rfl]
  simp
theorem Laws.RoundTrip.shli (d a : SQ) (n : BitVec 6) : Laws.RoundTrip.Statement (.shli d a n) := by
  intro _; refine .inr ⟨_, rfl, ?_, rfl⟩; rw [row_shli _ rfl]
  simp
theorem Laws.RoundTrip.shri (d a : SQ) (n : BitVec 6) : Laws.RoundTrip.Statement (.shri d a n) := by
  intro _; refine .inr ⟨_, rfl, ?_, rfl⟩; rw [row_shri _ rfl]
  simp
theorem Laws.RoundTrip.srai (d a : SQ) (n : BitVec 6) : Laws.RoundTrip.Statement (.srai d a n) := by
  intro _; refine .inr ⟨_, rfl, ?_, rfl⟩; rw [row_srai _ rfl]
  simp
theorem Laws.RoundTrip.cmpi (c : ICond) (d a : SQ) (imm : BitVec 32) : Laws.RoundTrip.Statement (.cmpi c d a imm) := by
  intro _; refine .inr ⟨_, rfl, ?_, rfl⟩; rw [row_cmpi _ rfl]
  simp
theorem Laws.RoundTrip.movi (d : SQ) (imm : BitVec 32) : Laws.RoundTrip.Statement (.movi d imm) := by
  intro _; refine .inr ⟨_, rfl, ?_, rfl⟩; rw [row_movi _ rfl]
  simp
theorem Laws.RoundTrip.bext (sg : Bool) (d a : SQ) (pos : BitVec 6) (len : BitVec 7) :
    Laws.RoundTrip.Statement (.bext sg d a pos len) := by
  intro hw; have hc : (fieldOk pos len) = true := hw; clear hw
  refine .inr ⟨_, rfl, ?_, rfl⟩; rw [row_bext _ rfl]
  try simp [Addr.ok, swzOk, stageOk] at hc
  simp <;> simp_all
theorem Laws.RoundTrip.bins (d : SReg) (a : SQ) (pos : BitVec 6) (len : BitVec 7) :
    Laws.RoundTrip.Statement (.bins d a pos len) := by
  intro hw; have hc : (fieldOk pos len) = true := hw; clear hw
  refine .inr ⟨_, rfl, ?_, rfl⟩; rw [row_bins _ rfl]
  try simp [Addr.ok, swzOk, stageOk] at hc
  simp <;> simp_all
theorem Laws.RoundTrip.clz (d a : SQ) : Laws.RoundTrip.Statement (.clz d a) := by
  intro _; refine .inr ⟨_, rfl, ?_, rfl⟩; rw [row_clz _ rfl]
  simp
theorem Laws.RoundTrip.ctz (d a : SQ) : Laws.RoundTrip.Statement (.ctz d a) := by
  intro _; refine .inr ⟨_, rfl, ?_, rfl⟩; rw [row_ctz _ rfl]
  simp
theorem Laws.RoundTrip.popc (d a : SQ) : Laws.RoundTrip.Statement (.popc d a) := by
  intro _; refine .inr ⟨_, rfl, ?_, rfl⟩; rw [row_popc _ rfl]
  simp
theorem Laws.RoundTrip.cmp (c : ICond) (d a b : SQ) : Laws.RoundTrip.Statement (.cmp c d a b) := by
  intro _; refine .inr ⟨_, rfl, ?_, rfl⟩; rw [row_cmp _ rfl]
  simp
theorem Laws.RoundTrip.sel (d a b c : SQ) : Laws.RoundTrip.Statement (.sel d a b c) := by
  intro _; refine .inr ⟨_, rfl, ?_, rfl⟩; rw [row_sel _ rfl]
  simp
theorem Laws.RoundTrip.faddF32 (rm : Rm) (sat : Bool) (d a b : SQ) : Laws.RoundTrip.Statement (.faddF32 rm sat d a b) := by
  intro _; refine .inr ⟨_, rfl, ?_, rfl⟩; rw [row_faddF32 _ rfl]
  simp
theorem Laws.RoundTrip.faddF64 (rm : Rm) (sat : Bool) (d a b : SQ) : Laws.RoundTrip.Statement (.faddF64 rm sat d a b) := by
  intro _; refine .inr ⟨_, rfl, ?_, rfl⟩; rw [row_faddF64 _ rfl]
  simp
theorem Laws.RoundTrip.fsubF32 (rm : Rm) (sat : Bool) (d a b : SQ) : Laws.RoundTrip.Statement (.fsubF32 rm sat d a b) := by
  intro _; refine .inr ⟨_, rfl, ?_, rfl⟩; rw [row_fsubF32 _ rfl]
  simp
theorem Laws.RoundTrip.fsubF64 (rm : Rm) (sat : Bool) (d a b : SQ) : Laws.RoundTrip.Statement (.fsubF64 rm sat d a b) := by
  intro _; refine .inr ⟨_, rfl, ?_, rfl⟩; rw [row_fsubF64 _ rfl]
  simp
theorem Laws.RoundTrip.fmulF32 (rm : Rm) (sat : Bool) (d a b : SQ) : Laws.RoundTrip.Statement (.fmulF32 rm sat d a b) := by
  intro _; refine .inr ⟨_, rfl, ?_, rfl⟩; rw [row_fmulF32 _ rfl]
  simp
theorem Laws.RoundTrip.fmulF64 (rm : Rm) (sat : Bool) (d a b : SQ) : Laws.RoundTrip.Statement (.fmulF64 rm sat d a b) := by
  intro _; refine .inr ⟨_, rfl, ?_, rfl⟩; rw [row_fmulF64 _ rfl]
  simp
theorem Laws.RoundTrip.ffmaF32 (rm : Rm) (sat : Bool) (d a b c : SQ) :
    Laws.RoundTrip.Statement (.ffmaF32 rm sat d a b c) := by
  intro _; refine .inr ⟨_, rfl, ?_, rfl⟩; rw [row_ffmaF32 _ rfl]
  simp
theorem Laws.RoundTrip.ffmaF64 (rm : Rm) (sat : Bool) (d a b c : SQ) :
    Laws.RoundTrip.Statement (.ffmaF64 rm sat d a b c) := by
  intro _; refine .inr ⟨_, rfl, ?_, rfl⟩; rw [row_ffmaF64 _ rfl]
  simp
theorem Laws.RoundTrip.fdivF32 (rm : Rm) (sat : Bool) (d a b : SQ) : Laws.RoundTrip.Statement (.fdivF32 rm sat d a b) := by
  intro _; refine .inr ⟨_, rfl, ?_, rfl⟩; rw [row_fdivF32 _ rfl]
  simp
theorem Laws.RoundTrip.fdivF64 (rm : Rm) (sat : Bool) (d a b : SQ) : Laws.RoundTrip.Statement (.fdivF64 rm sat d a b) := by
  intro _; refine .inr ⟨_, rfl, ?_, rfl⟩; rw [row_fdivF64 _ rfl]
  simp
theorem Laws.RoundTrip.fsqrtF32 (rm : Rm) (sat : Bool) (d a : SQ) : Laws.RoundTrip.Statement (.fsqrtF32 rm sat d a) := by
  intro _; refine .inr ⟨_, rfl, ?_, rfl⟩; rw [row_fsqrtF32 _ rfl]
  simp
theorem Laws.RoundTrip.fsqrtF64 (rm : Rm) (sat : Bool) (d a : SQ) : Laws.RoundTrip.Statement (.fsqrtF64 rm sat d a) := by
  intro _; refine .inr ⟨_, rfl, ?_, rfl⟩; rw [row_fsqrtF64 _ rfl]
  simp
theorem Laws.RoundTrip.fmin (t : ElemTy) (d a b : SQ) : Laws.RoundTrip.Statement (.fmin t d a b) := by
  intro hw; have hc : (t.isSFlt) = true := hw; clear hw
  refine .inr ⟨_, rfl, ?_, rfl⟩; rw [row_fmin _ rfl]
  try simp [Addr.ok, swzOk, stageOk] at hc
  simp <;> simp_all
theorem Laws.RoundTrip.fmax (t : ElemTy) (d a b : SQ) : Laws.RoundTrip.Statement (.fmax t d a b) := by
  intro hw; have hc : (t.isSFlt) = true := hw; clear hw
  refine .inr ⟨_, rfl, ?_, rfl⟩; rw [row_fmax _ rfl]
  try simp [Addr.ok, swzOk, stageOk] at hc
  simp <;> simp_all
theorem Laws.RoundTrip.fcmp (t : ElemTy) (c : FCond) (d a b : SQ) : Laws.RoundTrip.Statement (.fcmp t c d a b) := by
  intro hw; have hc : (t.isSFlt) = true := hw; clear hw
  refine .inr ⟨_, rfl, ?_, rfl⟩; rw [row_fcmp _ rfl]
  try simp [Addr.ok, swzOk, stageOk] at hc
  simp <;> simp_all
theorem Laws.RoundTrip.fcvt (dt st : ElemTy) (om : Om) (rm : Rm) (d a : SQ) :
    Laws.RoundTrip.Statement (.fcvt dt st om rm d a) := by
  intro _; refine .inr ⟨_, rfl, ?_, rfl⟩; rw [row_fcvt _ rfl]
  simp
theorem Laws.RoundTrip.br (off : BitVec 32) : Laws.RoundTrip.Statement (.br off) := by
  intro _; refine .inr ⟨_, rfl, ?_, rfl⟩; rw [row_br _ rfl]
  simp
theorem Laws.RoundTrip.bcnd (c : ICond) (a b : SReg) (off : BitVec 32) : Laws.RoundTrip.Statement (.bcnd c a b off) := by
  intro _; refine .inr ⟨_, rfl, ?_, rfl⟩; rw [row_bcnd _ rfl]
  simp
theorem Laws.RoundTrip.bmask (c : MCond) (a : MReg) (b : SReg) (off : BitVec 32) :
    Laws.RoundTrip.Statement (.bmask c a b off) := by
  intro _; refine .inr ⟨_, rfl, ?_, rfl⟩; rw [row_bmask _ rfl]
  simp
theorem Laws.RoundTrip.call (off : BitVec 32) : Laws.RoundTrip.Statement (.call off) := by
  intro _; refine .inr ⟨_, rfl, ?_, rfl⟩; rw [row_call _ rfl]
  simp
theorem Laws.RoundTrip.callr (a : SReg) : Laws.RoundTrip.Statement (.callr a) := by
  intro _; refine .inr ⟨_, rfl, ?_, rfl⟩; rw [row_callr _ rfl]
  simp
theorem Laws.RoundTrip.jr (a : SReg) : Laws.RoundTrip.Statement (.jr a) := by
  intro _; refine .inr ⟨_, rfl, ?_, rfl⟩; rw [row_jr _ rfl]
  simp
theorem Laws.RoundTrip.loop (a : SReg) (off : BitVec 32) : Laws.RoundTrip.Statement (.loop a off) := by
  intro hw; have hc : (a != 0) = true := hw; clear hw
  refine .inr ⟨_, rfl, ?_, rfl⟩; rw [row_loop _ rfl]
  try simp [Addr.ok, swzOk, stageOk] at hc
  simp <;> simp_all
theorem Laws.RoundTrip.halt (a : SReg) : Laws.RoundTrip.Statement (.halt a) := by
  intro _; refine .inr ⟨_, rfl, ?_, rfl⟩; rw [row_halt _ rfl]
  simp
theorem Laws.RoundTrip.brAbs (target : Word) : Laws.RoundTrip.Statement (.brAbs target) := by
  intro _; refine .inr ⟨_, rfl, ?_, rfl⟩; rw [row_brAbs _ rfl]
  simp
theorem Laws.RoundTrip.vaddI (t : ElemTy) (sat : Bool) (m : VMask) (d a b : VQ) :
    Laws.RoundTrip.Statement (.vaddI t sat m d a b) := by
  intro hw; have hc : (t.isVInt) = true := hw; clear hw
  refine .inr ⟨_, rfl, ?_, rfl⟩; rw [row_vaddI _ rfl]
  try simp [Addr.ok, swzOk, stageOk] at hc
  simp <;> simp_all
theorem Laws.RoundTrip.vaddF (t : ElemTy) (rm : Rm) (sat : Bool) (m : VMask) (d a b : VQ) :
    Laws.RoundTrip.Statement (.vaddF t rm sat m d a b) := by
  intro hw; have hc : (t.isVFlt) = true := hw; clear hw
  refine .inr ⟨_, rfl, ?_, rfl⟩; rw [row_vaddF _ rfl]
  try simp [Addr.ok, swzOk, stageOk] at hc
  simp <;> simp_all
theorem Laws.RoundTrip.vsubI (t : ElemTy) (sat : Bool) (m : VMask) (d a b : VQ) :
    Laws.RoundTrip.Statement (.vsubI t sat m d a b) := by
  intro hw; have hc : (t.isVInt) = true := hw; clear hw
  refine .inr ⟨_, rfl, ?_, rfl⟩; rw [row_vsubI _ rfl]
  try simp [Addr.ok, swzOk, stageOk] at hc
  simp <;> simp_all
theorem Laws.RoundTrip.vsubF (t : ElemTy) (rm : Rm) (sat : Bool) (m : VMask) (d a b : VQ) :
    Laws.RoundTrip.Statement (.vsubF t rm sat m d a b) := by
  intro hw; have hc : (t.isVFlt) = true := hw; clear hw
  refine .inr ⟨_, rfl, ?_, rfl⟩; rw [row_vsubF _ rfl]
  try simp [Addr.ok, swzOk, stageOk] at hc
  simp <;> simp_all
theorem Laws.RoundTrip.vmulI (t : ElemTy) (sat : Bool) (m : VMask) (d a b : VQ) :
    Laws.RoundTrip.Statement (.vmulI t sat m d a b) := by
  intro hw; have hc : (t.isVInt) = true := hw; clear hw
  refine .inr ⟨_, rfl, ?_, rfl⟩; rw [row_vmulI _ rfl]
  try simp [Addr.ok, swzOk, stageOk] at hc
  simp <;> simp_all
theorem Laws.RoundTrip.vmulF (t : ElemTy) (rm : Rm) (sat : Bool) (m : VMask) (d a b : VQ) :
    Laws.RoundTrip.Statement (.vmulF t rm sat m d a b) := by
  intro hw; have hc : (t.isVFlt) = true := hw; clear hw
  refine .inr ⟨_, rfl, ?_, rfl⟩; rw [row_vmulF _ rfl]
  try simp [Addr.ok, swzOk, stageOk] at hc
  simp <;> simp_all
theorem Laws.RoundTrip.vfmaI (t : ElemTy) (sat : Bool) (m : VMask) (d a b c : VQ) :
    Laws.RoundTrip.Statement (.vfmaI t sat m d a b c) := by
  intro hw; have hc : (t.isVInt) = true := hw; clear hw
  refine .inr ⟨_, rfl, ?_, rfl⟩; rw [row_vfmaI _ rfl]
  try simp [Addr.ok, swzOk, stageOk] at hc
  simp <;> simp_all
theorem Laws.RoundTrip.vfmaF (t : ElemTy) (rm : Rm) (sat : Bool) (m : VMask) (d a b c : VQ) :
    Laws.RoundTrip.Statement (.vfmaF t rm sat m d a b c) := by
  intro hw; have hc : (t.isVFlt) = true := hw; clear hw
  refine .inr ⟨_, rfl, ?_, rfl⟩; rw [row_vfmaF _ rfl]
  try simp [Addr.ok, swzOk, stageOk] at hc
  simp <;> simp_all
theorem Laws.RoundTrip.vmaxI (t : ElemTy) (m : VMask) (d a b : VQ) : Laws.RoundTrip.Statement (.vmaxI t m d a b) := by
  intro hw; have hc : (t.isVInt) = true := hw; clear hw
  refine .inr ⟨_, rfl, ?_, rfl⟩; rw [row_vmaxI _ rfl]
  try simp [Addr.ok, swzOk, stageOk] at hc
  simp <;> simp_all
theorem Laws.RoundTrip.vmaxF (t : ElemTy) (m : VMask) (d a b : VQ) : Laws.RoundTrip.Statement (.vmaxF t m d a b) := by
  intro hw; have hc : (t.isVFlt) = true := hw; clear hw
  refine .inr ⟨_, rfl, ?_, rfl⟩; rw [row_vmaxF _ rfl]
  cases t <;> simp [ElemTy.isVFlt] at hc <;> simp <;> rfl
theorem Laws.RoundTrip.vminI (t : ElemTy) (m : VMask) (d a b : VQ) : Laws.RoundTrip.Statement (.vminI t m d a b) := by
  intro hw; have hc : (t.isVInt) = true := hw; clear hw
  refine .inr ⟨_, rfl, ?_, rfl⟩; rw [row_vminI _ rfl]
  try simp [Addr.ok, swzOk, stageOk] at hc
  simp <;> simp_all
theorem Laws.RoundTrip.vminF (t : ElemTy) (m : VMask) (d a b : VQ) : Laws.RoundTrip.Statement (.vminF t m d a b) := by
  intro hw; have hc : (t.isVFlt) = true := hw; clear hw
  refine .inr ⟨_, rfl, ?_, rfl⟩; rw [row_vminF _ rfl]
  cases t <;> simp [ElemTy.isVFlt] at hc <;> simp <;> rfl
theorem Laws.RoundTrip.vcmpI (t : ElemTy) (c : ICond) (m : VMask) (d : MReg) (a b : VQ) :
    Laws.RoundTrip.Statement (.vcmpI t c m d a b) := by
  intro hw; have hc : (t.isVInt) = true := hw; clear hw
  refine .inr ⟨_, rfl, ?_, rfl⟩; rw [row_vcmpI _ rfl]
  try simp [Addr.ok, swzOk, stageOk] at hc
  simp <;> simp_all
theorem Laws.RoundTrip.vcmpF (t : ElemTy) (c : FCond) (m : VMask) (d : MReg) (a b : VQ) :
    Laws.RoundTrip.Statement (.vcmpF t c m d a b) := by
  intro hw; have hc : (t.isVFlt) = true := hw; clear hw
  refine .inr ⟨_, rfl, ?_, rfl⟩; rw [row_vcmpF _ rfl]
  try simp [Addr.ok, swzOk, stageOk] at hc
  simp <;> simp_all
theorem Laws.RoundTrip.vabs (t : ElemTy) (sat : Bool) (m : VMask) (d a : VQ) :
    Laws.RoundTrip.Statement (.vabs t sat m d a) := by
  intro hw; have hc : (t.isVInt || (t.isVFlt && !sat)) = true := hw; clear hw
  refine .inr ⟨_, rfl, ?_, rfl⟩; rw [row_vabs _ rfl]
  simp at hc
  cases t <;> simp [ElemTy.isVInt, ElemTy.isVFlt, ElemTy.isFlt] <;> simp_all [ElemTy.isVInt, ElemTy.isVFlt] <;> rfl
theorem Laws.RoundTrip.vneg (t : ElemTy) (sat : Bool) (m : VMask) (d a : VQ) :
    Laws.RoundTrip.Statement (.vneg t sat m d a) := by
  intro hw; have hc : (t.isVInt || (t.isVFlt && !sat)) = true := hw; clear hw
  refine .inr ⟨_, rfl, ?_, rfl⟩; rw [row_vneg _ rfl]
  simp at hc
  cases t <;> simp [ElemTy.isVInt, ElemTy.isVFlt, ElemTy.isFlt] <;> simp_all [ElemTy.isVInt, ElemTy.isVFlt] <;> rfl
theorem Laws.RoundTrip.vdiv (t : ElemTy) (rm : Rm) (sat : Bool) (m : VMask) (d a b : VQ) :
    Laws.RoundTrip.Statement (.vdiv t rm sat m d a b) := by
  intro hw; have hc : (t.isVFlt || (t.isVInt && rm == .rne && !sat)) = true := hw; clear hw
  refine .inr ⟨_, rfl, ?_, rfl⟩; rw [row_vdiv _ rfl]
  simp at hc
  cases t <;> simp [ElemTy.isVInt, ElemTy.isVFlt, ElemTy.isFlt] <;> simp_all [ElemTy.isVInt, ElemTy.isVFlt] <;> rfl
theorem Laws.RoundTrip.vsqrt (t : ElemTy) (rm : Rm) (sat : Bool) (m : VMask) (d a : VQ) :
    Laws.RoundTrip.Statement (.vsqrt t rm sat m d a) := by
  intro hw; have hc : (t.isVFlt) = true := hw; clear hw
  refine .inr ⟨_, rfl, ?_, rfl⟩; rw [row_vsqrt _ rfl]
  try simp [Addr.ok, swzOk, stageOk] at hc
  simp <;> simp_all
theorem Laws.RoundTrip.vrcp (t : ElemTy) (rm : Rm) (sat : Bool) (m : VMask) (d a : VQ) :
    Laws.RoundTrip.Statement (.vrcp t rm sat m d a) := by
  intro hw; have hc : (t.isVFlt) = true := hw; clear hw
  refine .inr ⟨_, rfl, ?_, rfl⟩; rw [row_vrcp _ rfl]
  try simp [Addr.ok, swzOk, stageOk] at hc
  simp <;> simp_all
theorem Laws.RoundTrip.vrsqrt (t : ElemTy) (rm : Rm) (sat : Bool) (m : VMask) (d a : VQ) :
    Laws.RoundTrip.Statement (.vrsqrt t rm sat m d a) := by
  intro hw; have hc : (t.isVFlt) = true := hw; clear hw
  refine .inr ⟨_, rfl, ?_, rfl⟩; rw [row_vrsqrt _ rfl]
  try simp [Addr.ok, swzOk, stageOk] at hc
  simp <;> simp_all
theorem Laws.RoundTrip.vexp2 (t : ElemTy) (rm : Rm) (sat : Bool) (m : VMask) (d a : VQ) :
    Laws.RoundTrip.Statement (.vexp2 t rm sat m d a) := by
  intro hw; have hc : (t.isVFlt) = true := hw; clear hw
  refine .inr ⟨_, rfl, ?_, rfl⟩; rw [row_vexp2 _ rfl]
  try simp [Addr.ok, swzOk, stageOk] at hc
  simp <;> simp_all
theorem Laws.RoundTrip.vlog2 (t : ElemTy) (rm : Rm) (sat : Bool) (m : VMask) (d a : VQ) :
    Laws.RoundTrip.Statement (.vlog2 t rm sat m d a) := by
  intro hw; have hc : (t.isVFlt) = true := hw; clear hw
  refine .inr ⟨_, rfl, ?_, rfl⟩; rw [row_vlog2 _ rfl]
  try simp [Addr.ok, swzOk, stageOk] at hc
  simp <;> simp_all
theorem Laws.RoundTrip.vdot (t : ElemTy) (rm : Rm) (sat : Bool) (m : VMask) (d a b c : VQ) :
    Laws.RoundTrip.Statement (.vdot t rm sat m d a b c) := by
  intro hw; have hc : (t == .bf16 || t == .f16 || t == .e4m3 || t == .e5m2 || ((t == .i8 || t == .n8) && rm == .rne)) = true := hw; clear hw
  refine .inr ⟨_, rfl, ?_, rfl⟩; rw [row_vdot _ rfl]
  try simp [Addr.ok, swzOk, stageOk] at hc
  cases t <;> simp [ElemTy.isVInt, ElemTy.isVFlt] <;> simp_all [ElemTy.isVInt, ElemTy.isVFlt]
theorem Laws.RoundTrip.vand (t : ElemTy) (m : VMask) (d a b : VQ) : Laws.RoundTrip.Statement (.vand t m d a b) := by
  intro hw; have hc : (t.isVInt) = true := hw; clear hw
  refine .inr ⟨_, rfl, ?_, rfl⟩; rw [row_vand _ rfl]
  try simp [Addr.ok, swzOk, stageOk] at hc
  simp <;> simp_all
theorem Laws.RoundTrip.vor (t : ElemTy) (m : VMask) (d a b : VQ) : Laws.RoundTrip.Statement (.vor t m d a b) := by
  intro hw; have hc : (t.isVInt) = true := hw; clear hw
  refine .inr ⟨_, rfl, ?_, rfl⟩; rw [row_vor _ rfl]
  try simp [Addr.ok, swzOk, stageOk] at hc
  simp <;> simp_all
theorem Laws.RoundTrip.vxor (t : ElemTy) (m : VMask) (d a b : VQ) : Laws.RoundTrip.Statement (.vxor t m d a b) := by
  intro hw; have hc : (t.isVInt) = true := hw; clear hw
  refine .inr ⟨_, rfl, ?_, rfl⟩; rw [row_vxor _ rfl]
  try simp [Addr.ok, swzOk, stageOk] at hc
  simp <;> simp_all
theorem Laws.RoundTrip.vshl (t : ElemTy) (m : VMask) (d a b : VQ) : Laws.RoundTrip.Statement (.vshl t m d a b) := by
  intro hw; have hc : (t.isVInt) = true := hw; clear hw
  refine .inr ⟨_, rfl, ?_, rfl⟩; rw [row_vshl _ rfl]
  try simp [Addr.ok, swzOk, stageOk] at hc
  simp <;> simp_all
theorem Laws.RoundTrip.vshr (t : ElemTy) (m : VMask) (d a b : VQ) : Laws.RoundTrip.Statement (.vshr t m d a b) := by
  intro hw; have hc : (t.isVInt) = true := hw; clear hw
  refine .inr ⟨_, rfl, ?_, rfl⟩; rw [row_vshr _ rfl]
  try simp [Addr.ok, swzOk, stageOk] at hc
  simp <;> simp_all
theorem Laws.RoundTrip.vsra (t : ElemTy) (m : VMask) (d a b : VQ) : Laws.RoundTrip.Statement (.vsra t m d a b) := by
  intro hw; have hc : (t.isVInt) = true := hw; clear hw
  refine .inr ⟨_, rfl, ?_, rfl⟩; rw [row_vsra _ rfl]
  try simp [Addr.ok, swzOk, stageOk] at hc
  simp <;> simp_all
theorem Laws.RoundTrip.vsel (t : ElemTy) (m : LMask) (d a b : VQ) : Laws.RoundTrip.Statement (.vsel t m d a b) := by
  intro hw; have hc : (t.isVec) = true := hw; clear hw
  refine .inr ⟨_, rfl, ?_, rfl⟩; rw [row_vsel _ rfl]
  try simp [Addr.ok, swzOk, stageOk] at hc
  simp <;> simp_all
theorem Laws.RoundTrip.vmov (t : ElemTy) (m : VMask) (d a : VQ) : Laws.RoundTrip.Statement (.vmov t m d a) := by
  intro hw; have hc : (t.isVec) = true := hw; clear hw
  refine .inr ⟨_, rfl, ?_, rfl⟩; rw [row_vmov _ rfl]
  try simp [Addr.ok, swzOk, stageOk] at hc
  simp <;> simp_all
theorem Laws.RoundTrip.vbcast (t : ElemTy) (m : VMask) (d : VQ) (a : SQ) : Laws.RoundTrip.Statement (.vbcast t m d a) := by
  intro hw; have hc : (t.isVec) = true := hw; clear hw
  refine .inr ⟨_, rfl, ?_, rfl⟩; rw [row_vbcast _ rfl]
  try simp [Addr.ok, swzOk, stageOk] at hc
  simp <;> simp_all
theorem Laws.RoundTrip.vperm (t : ElemTy) (m : VMask) (d a b c : VQ) : Laws.RoundTrip.Statement (.vperm t m d a b c) := by
  intro hw; have hc : (t.isVec) = true := hw; clear hw
  refine .inr ⟨_, rfl, ?_, rfl⟩; rw [row_vperm _ rfl]
  try simp [Addr.ok, swzOk, stageOk] at hc
  simp <;> simp_all
theorem Laws.RoundTrip.vredI (op : RedOp) (t : ElemTy) (m : LMask) (d : SQ) (a : VQ) :
    Laws.RoundTrip.Statement (.vredI op t m d a) := by
  intro hw; have hc : (t.isVInt) = true := hw; clear hw
  refine .inr ⟨_, rfl, ?_, rfl⟩; rw [row_vredI _ rfl]
  try simp [Addr.ok, swzOk, stageOk] at hc
  simp <;> simp_all
theorem Laws.RoundTrip.vredF (op : RedOp) (t : ElemTy) (rm : Rm) (sat : Bool) (m : LMask) (d : SQ) (a : VQ) :
    Laws.RoundTrip.Statement (.vredF op t rm sat m d a) := by
  intro hw; have hc : (t.isVFlt && (op == .sum || ((op == .max || op == .min) && rm == .rne && !sat))) = true := hw; clear hw
  refine .inr ⟨_, rfl, ?_, rfl⟩; rw [row_vredF _ rfl]
  cases op <;> simp at hc <;> simp [hc]
theorem Laws.RoundTrip.vscanI (op : RedOp) (t : ElemTy) (sat : Bool) (m : VMask) (d a : VQ) :
    Laws.RoundTrip.Statement (.vscanI op t sat m d a) := by
  intro hw; have hc : (t.isVInt) = true := hw; clear hw
  refine .inr ⟨_, rfl, ?_, rfl⟩; rw [row_vscanI _ rfl]
  try simp [Addr.ok, swzOk, stageOk] at hc
  simp <;> simp_all
theorem Laws.RoundTrip.vscanF (op : RedOp) (t : ElemTy) (rm : Rm) (sat : Bool) (m : VMask) (d a : VQ) :
    Laws.RoundTrip.Statement (.vscanF op t rm sat m d a) := by
  intro hw; have hc : (t.isVFlt && (op == .sum || ((op == .max || op == .min) && rm == .rne && !sat))) = true := hw; clear hw
  refine .inr ⟨_, rfl, ?_, rfl⟩; rw [row_vscanF _ rfl]
  cases op <;> simp at hc <;> simp [hc]
theorem Laws.RoundTrip.vslide (t : ElemTy) (m : VMask) (d a : VQ) (b : SReg) :
    Laws.RoundTrip.Statement (.vslide t m d a b) := by
  intro hw; have hc : (t.isVec) = true := hw; clear hw
  refine .inr ⟨_, rfl, ?_, rfl⟩; rw [row_vslide _ rfl]
  try simp [Addr.ok, swzOk, stageOk] at hc
  simp <;> simp_all
theorem Laws.RoundTrip.vzip (hi uz : Bool) (t : ElemTy) (m : VMask) (d a b : VQ) :
    Laws.RoundTrip.Statement (.vzip hi uz t m d a b) := by
  intro hw; have hc : (t.isVec) = true := hw; clear hw
  refine .inr ⟨_, rfl, ?_, rfl⟩; rw [row_vzip _ rfl]
  try simp [Addr.ok, swzOk, stageOk] at hc
  simp <;> simp_all
theorem Laws.RoundTrip.vext (t : ElemTy) (d : SQ) (a : VQ) (b : SReg) : Laws.RoundTrip.Statement (.vext t d a b) := by
  intro hw; have hc : (t.isVec) = true := hw; clear hw
  refine .inr ⟨_, rfl, ?_, rfl⟩; rw [row_vext _ rfl]
  try simp [Addr.ok, swzOk, stageOk] at hc
  simp <;> simp_all
theorem Laws.RoundTrip.vextImm (t : ElemTy) (d : SQ) (a : VQ) (imm : BitVec 32) :
    Laws.RoundTrip.Statement (.vextImm t d a imm) := by
  intro hw; have hc : (t.isVec && imm.toNat * t.lane < 1024) = true := hw; clear hw
  refine .inr ⟨_, rfl, ?_, rfl⟩; rw [row_vextImm _ rfl]
  try simp [Addr.ok, swzOk, stageOk] at hc
  simp <;> simp_all
theorem Laws.RoundTrip.vins (t : ElemTy) (d : VReg) (a : SQ) (b : SReg) : Laws.RoundTrip.Statement (.vins t d a b) := by
  intro hw; have hc : (t.isVec) = true := hw; clear hw
  refine .inr ⟨_, rfl, ?_, rfl⟩; rw [row_vins _ rfl]
  try simp [Addr.ok, swzOk, stageOk] at hc
  simp <;> simp_all
theorem Laws.RoundTrip.vcvtSame (dt st : ElemTy) (om : Om) (rm : Rm) (part : BitVec 2) (m : VMask) (d a : VQ) :
    Laws.RoundTrip.Statement (.vcvtSame dt st om rm part m d a) := by
  intro hw; have hc : (dt.isVec && st.isVec && dt.lane == st.lane && part == 0) = true := hw; clear hw
  refine .inr ⟨_, rfl, ?_, rfl⟩; rw [row_vcvtSame _ rfl]
  try simp [Addr.ok, swzOk, stageOk] at hc
  simp <;> simp_all
theorem Laws.RoundTrip.vcvtWide (dt st : ElemTy) (om : Om) (rm : Rm) (part : BitVec 2) (m : VMask) (d a : VQ) :
    Laws.RoundTrip.Statement (.vcvtWide dt st om rm part m d a) := by
  intro hw; have hc : (dt.isVec && st.isVec && dt.lane > st.lane && partOk part dt.lane st.lane) = true := hw; clear hw
  refine .inr ⟨_, rfl, ?_, rfl⟩; rw [row_vcvtWide _ rfl]
  simp at hc
  have h := hc.1.2
  simp [hc.1, show dt.lane.max st.lane = dt.lane from Nat.max_eq_left (Nat.le_of_lt h), show dt.lane.min st.lane = st.lane from Nat.min_eq_right (Nat.le_of_lt h), hc.2]
theorem Laws.RoundTrip.vcvtNarrow (dt st : ElemTy) (om : Om) (rm : Rm) (part : BitVec 2) (m : VMask) (d a : VQ) :
    Laws.RoundTrip.Statement (.vcvtNarrow dt st om rm part m d a) := by
  intro hw; have hc : (dt.isVec && st.isVec && st.lane > dt.lane && partOk part st.lane dt.lane) = true := hw; clear hw
  refine .inr ⟨_, rfl, ?_, rfl⟩; rw [row_vcvtNarrow _ rfl]
  simp at hc
  have h := hc.1.2
  simp [hc.1, show dt.lane.max st.lane = st.lane from Nat.max_eq_right (Nat.le_of_lt h), show dt.lane.min st.lane = dt.lane from Nat.min_eq_left (Nat.le_of_lt h), hc.2]
theorem Laws.RoundTrip.vqnt (f : Fmt) (om : Om) (rm : Rm) (part : BitVec 2) (d : VQ) (b : SReg) (a : VQ) :
    Laws.RoundTrip.Statement (.vqnt f om rm part d b a) := by
  intro hw; have hc : (f.isMx) = true := hw; clear hw
  refine .inr ⟨_, rfl, ?_, rfl⟩; rw [row_vqnt _ rfl]
  try simp [Addr.ok, swzOk, stageOk] at hc
  simp <;> simp_all
theorem Laws.RoundTrip.vdqnt (f : Fmt) (om : Om) (part : BitVec 2) (d a : VQ) (b : SReg) :
    Laws.RoundTrip.Statement (.vdqnt f om part d a b) := by
  intro hw; have hc : (f.isMx) = true := hw; clear hw
  refine .inr ⟨_, rfl, ?_, rfl⟩; rw [row_vdqnt _ rfl]
  try simp [Addr.ok, swzOk, stageOk] at hc
  simp <;> simp_all
theorem Laws.RoundTrip.vrnd (m : VMask) (d : VQ) (a : SReg) : Laws.RoundTrip.Statement (.vrnd m d a) := by
  intro _; refine .inr ⟨_, rfl, ?_, rfl⟩; rw [row_vrnd _ rfl]
  simp
theorem Laws.RoundTrip.mand (d a b : MReg) : Laws.RoundTrip.Statement (.mand d a b) := by
  intro _; refine .inr ⟨_, rfl, ?_, rfl⟩; rw [row_mand _ rfl]
  simp
theorem Laws.RoundTrip.mor (d a b : MReg) : Laws.RoundTrip.Statement (.mor d a b) := by
  intro _; refine .inr ⟨_, rfl, ?_, rfl⟩; rw [row_mor _ rfl]
  simp
theorem Laws.RoundTrip.mxor (d a b : MReg) : Laws.RoundTrip.Statement (.mxor d a b) := by
  intro _; refine .inr ⟨_, rfl, ?_, rfl⟩; rw [row_mxor _ rfl]
  simp
theorem Laws.RoundTrip.mnot (d a : MReg) (b : SReg) : Laws.RoundTrip.Statement (.mnot d a b) := by
  intro _; refine .inr ⟨_, rfl, ?_, rfl⟩; rw [row_mnot _ rfl]
  simp
theorem Laws.RoundTrip.mpopc (d : SReg) (a : MReg) (b : SReg) : Laws.RoundTrip.Statement (.mpopc d a b) := by
  intro _; refine .inr ⟨_, rfl, ?_, rfl⟩; rw [row_mpopc _ rfl]
  simp
theorem Laws.RoundTrip.mfirst (d : SReg) (a : MReg) (b : SReg) : Laws.RoundTrip.Statement (.mfirst d a b) := by
  intro _; refine .inr ⟨_, rfl, ?_, rfl⟩; rw [row_mfirst _ rfl]
  simp
theorem Laws.RoundTrip.mset (d : MReg) (a b : SReg) : Laws.RoundTrip.Statement (.mset d a b) := by
  intro _; refine .inr ⟨_, rfl, ?_, rfl⟩; rw [row_mset _ rfl]
  simp
theorem Laws.RoundTrip.msetN (d : MReg) (n : BitVec 32) : Laws.RoundTrip.Statement (.msetN d n) := by
  intro hw; have hc : decide (n.toNat ≤ 128) = true := hw; clear hw
  refine .inr ⟨_, rfl, ?_, rfl⟩; rw [row_msetN _ rfl]
  try simp [Addr.ok, swzOk, stageOk] at hc
  simp <;> simp_all
theorem Laws.RoundTrip.msetB8 (d : MReg) (a : VReg) : Laws.RoundTrip.Statement (.msetB8 d a) := by
  intro _; refine .inr ⟨_, rfl, ?_, rfl⟩; rw [row_msetB8 _ rfl]
  simp
theorem Laws.RoundTrip.msetB16 (d : MReg) (a : VReg) : Laws.RoundTrip.Statement (.msetB16 d a) := by
  intro _; refine .inr ⟨_, rfl, ?_, rfl⟩; rw [row_msetB16 _ rfl]
  simp
theorem Laws.RoundTrip.msetB32 (d : MReg) (a : VReg) : Laws.RoundTrip.Statement (.msetB32 d a) := by
  intro _; refine .inr ⟨_, rfl, ?_, rfl⟩; rw [row_msetB32 _ rfl]
  simp
theorem Laws.RoundTrip.mmov (d a : MReg) : Laws.RoundTrip.Statement (.mmov d a) := by
  intro _; refine .inr ⟨_, rfl, ?_, rfl⟩; rw [row_mmov _ rfl]
  simp
theorem Laws.RoundTrip.mmovS (hi : Bool) (d : SReg) (a : MReg) : Laws.RoundTrip.Statement (.mmovS hi d a) := by
  intro _; refine .inr ⟨_, rfl, ?_, rfl⟩; rw [row_mmovS _ rfl]
  simp
theorem Laws.RoundTrip.mmovB8 (m : VMask) (d : VReg) (a : MReg) : Laws.RoundTrip.Statement (.mmovB8 m d a) := by
  intro _; refine .inr ⟨_, rfl, ?_, rfl⟩; rw [row_mmovB8 _ rfl]
  simp
theorem Laws.RoundTrip.mmovB16 (m : VMask) (d : VReg) (a : MReg) : Laws.RoundTrip.Statement (.mmovB16 m d a) := by
  intro _; refine .inr ⟨_, rfl, ?_, rfl⟩; rw [row_mmovB16 _ rfl]
  simp
theorem Laws.RoundTrip.mmovB32 (m : VMask) (d : VReg) (a : MReg) : Laws.RoundTrip.Statement (.mmovB32 m d a) := by
  intro _; refine .inr ⟨_, rfl, ?_, rfl⟩; rw [row_mmovB32 _ rfl]
  simp
theorem Laws.RoundTrip.ld (sz : LdSz) (d : SReg) (m : Addr) : Laws.RoundTrip.Statement (.ld sz d m) := by
  intro hw; have hc : (m.ok) = true := hw; clear hw
  refine .inr ⟨_, rfl, ?_, rfl⟩; rw [row_ld _ rfl]
  try simp [Addr.ok, swzOk, stageOk] at hc
  simp <;> simp_all
theorem Laws.RoundTrip.ldOrdered (o : Ord) (sc : Scope) (sz : LdSz) (d : SReg) (m : Addr) :
    Laws.RoundTrip.Statement (.ldOrdered o sc sz d m) := by
  intro hw; have hc : (o.isLd && m.ok) = true := hw; clear hw
  refine .inr ⟨_, rfl, ?_, rfl⟩; rw [row_ldOrdered _ rfl]
  try simp [Addr.ok, swzOk, stageOk] at hc
  simp <;> simp_all
theorem Laws.RoundTrip.st (sz : StSz) (d : SReg) (m : Addr) : Laws.RoundTrip.Statement (.st sz d m) := by
  intro hw; have hc : (m.ok) = true := hw; clear hw
  refine .inr ⟨_, rfl, ?_, rfl⟩; rw [row_st _ rfl]
  try simp [Addr.ok, swzOk, stageOk] at hc
  simp <;> simp_all
theorem Laws.RoundTrip.stOrdered (o : Ord) (sc : Scope) (sz : StSz) (d : SReg) (m : Addr) :
    Laws.RoundTrip.Statement (.stOrdered o sc sz d m) := by
  intro hw; have hc : (o.isSt && m.ok) = true := hw; clear hw
  refine .inr ⟨_, rfl, ?_, rfl⟩; rw [row_stOrdered _ rfl]
  try simp [Addr.ok, swzOk, stageOk] at hc
  simp <;> simp_all
theorem Laws.RoundTrip.vld (k : LMask) (d : VReg) (m : Addr) : Laws.RoundTrip.Statement (.vld k d m) := by
  intro hw; have hc : (m.ok) = true := hw; clear hw
  refine .inr ⟨_, rfl, ?_, rfl⟩; rw [row_vld _ rfl]
  try simp [Addr.ok, swzOk, stageOk] at hc
  simp <;> simp_all
theorem Laws.RoundTrip.vldOrdered (o : Ord) (sc : Scope) (k : LMask) (d : VReg) (m : Addr) :
    Laws.RoundTrip.Statement (.vldOrdered o sc k d m) := by
  intro hw; have hc : (o.isLd && m.ok) = true := hw; clear hw
  refine .inr ⟨_, rfl, ?_, rfl⟩; rw [row_vldOrdered _ rfl]
  try simp [Addr.ok, swzOk, stageOk] at hc
  simp <;> simp_all
theorem Laws.RoundTrip.vst (k : LMask) (d : VReg) (m : Addr) : Laws.RoundTrip.Statement (.vst k d m) := by
  intro hw; have hc : (m.ok) = true := hw; clear hw
  refine .inr ⟨_, rfl, ?_, rfl⟩; rw [row_vst _ rfl]
  try simp [Addr.ok, swzOk, stageOk] at hc
  simp <;> simp_all
theorem Laws.RoundTrip.vstOrdered (o : Ord) (sc : Scope) (k : LMask) (d : VReg) (m : Addr) :
    Laws.RoundTrip.Statement (.vstOrdered o sc k d m) := by
  intro hw; have hc : (o.isSt && m.ok) = true := hw; clear hw
  refine .inr ⟨_, rfl, ?_, rfl⟩; rw [row_vstOrdered _ rfl]
  try simp [Addr.ok, swzOk, stageOk] at hc
  simp <;> simp_all
theorem Laws.RoundTrip.vldx (w : EW) (k : LMask) (d : VReg) (x : XAddr) : Laws.RoundTrip.Statement (.vldx w k d x) := by
  intro _; refine .inr ⟨_, rfl, ?_, rfl⟩; rw [row_vldx _ rfl]
  simp
theorem Laws.RoundTrip.vldxOrdered (o : Ord) (sc : Scope) (w : EW) (k : LMask) (d : VReg) (x : XAddr) :
    Laws.RoundTrip.Statement (.vldxOrdered o sc w k d x) := by
  intro hw; have hc : (o.isLd) = true := hw; clear hw
  refine .inr ⟨_, rfl, ?_, rfl⟩; rw [row_vldxOrdered _ rfl]
  try simp [Addr.ok, swzOk, stageOk] at hc
  simp <;> simp_all
theorem Laws.RoundTrip.vstx (w : EW) (k : LMask) (d : VReg) (x : XAddr) : Laws.RoundTrip.Statement (.vstx w k d x) := by
  intro _; refine .inr ⟨_, rfl, ?_, rfl⟩; rw [row_vstx _ rfl]
  simp
theorem Laws.RoundTrip.vstxOrdered (o : Ord) (sc : Scope) (w : EW) (k : LMask) (d : VReg) (x : XAddr) :
    Laws.RoundTrip.Statement (.vstxOrdered o sc w k d x) := by
  intro hw; have hc : (o.isSt) = true := hw; clear hw
  refine .inr ⟨_, rfl, ?_, rfl⟩; rw [row_vstxOrdered _ rfl]
  try simp [Addr.ok, swzOk, stageOk] at hc
  simp <;> simp_all
theorem Laws.RoundTrip.vlds (w : EW) (k : LMask) (d : VReg) (m : Addr) : Laws.RoundTrip.Statement (.vlds w k d m) := by
  intro hw; have hc : (m.ok) = true := hw; clear hw
  refine .inr ⟨_, rfl, ?_, rfl⟩; rw [row_vlds _ rfl]
  try simp [Addr.ok, swzOk, stageOk] at hc
  simp <;> simp_all
theorem Laws.RoundTrip.vldsOrdered (o : Ord) (sc : Scope) (w : EW) (k : LMask) (d : VReg) (m : Addr) :
    Laws.RoundTrip.Statement (.vldsOrdered o sc w k d m) := by
  intro hw; have hc : (o.isLd && m.ok) = true := hw; clear hw
  refine .inr ⟨_, rfl, ?_, rfl⟩; rw [row_vldsOrdered _ rfl]
  try simp [Addr.ok, swzOk, stageOk] at hc
  simp <;> simp_all
theorem Laws.RoundTrip.vsts (w : EW) (k : LMask) (d : VReg) (m : Addr) : Laws.RoundTrip.Statement (.vsts w k d m) := by
  intro hw; have hc : (m.ok) = true := hw; clear hw
  refine .inr ⟨_, rfl, ?_, rfl⟩; rw [row_vsts _ rfl]
  try simp [Addr.ok, swzOk, stageOk] at hc
  simp <;> simp_all
theorem Laws.RoundTrip.vstsOrdered (o : Ord) (sc : Scope) (w : EW) (k : LMask) (d : VReg) (m : Addr) :
    Laws.RoundTrip.Statement (.vstsOrdered o sc w k d m) := by
  intro hw; have hc : (o.isSt && m.ok) = true := hw; clear hw
  refine .inr ⟨_, rfl, ?_, rfl⟩; rw [row_vstsOrdered _ rfl]
  try simp [Addr.ok, swzOk, stageOk] at hc
  simp <;> simp_all
theorem Laws.RoundTrip.ldfS (mode : LdfMode) (sc : Scope) (sz : LdSz) (d : SReg) (m : Addr) :
    Laws.RoundTrip.Statement (.ldfS mode sc sz d m) := by
  intro hw; have hc : (m.ok) = true := hw; clear hw
  refine .inr ⟨_, rfl, ?_, rfl⟩; rw [row_ldfS _ rfl]
  try simp [Addr.ok, swzOk, stageOk] at hc
  simp <;> simp_all
theorem Laws.RoundTrip.ldfV (mode : LdfMode) (sc : Scope) (k : LMask) (d : VReg) (m : Addr) :
    Laws.RoundTrip.Statement (.ldfV mode sc k d m) := by
  intro hw; have hc : (m.ok) = true := hw; clear hw
  refine .inr ⟨_, rfl, ?_, rfl⟩; rw [row_ldfV _ rfl]
  try simp [Addr.ok, swzOk, stageOk] at hc
  simp <;> simp_all
theorem Laws.RoundTrip.stfS (mode : StfMode) (sc : Scope) (sz : StSz) (d : SReg) (m : Addr) :
    Laws.RoundTrip.Statement (.stfS mode sc sz d m) := by
  intro hw; have hc : (m.ok) = true := hw; clear hw
  refine .inr ⟨_, rfl, ?_, rfl⟩; rw [row_stfS _ rfl]
  try simp [Addr.ok, swzOk, stageOk] at hc
  simp <;> simp_all
theorem Laws.RoundTrip.stfV (mode : StfMode) (sc : Scope) (k : LMask) (d : VReg) (m : Addr) :
    Laws.RoundTrip.Statement (.stfV mode sc k d m) := by
  intro hw; have hc : (m.ok) = true := hw; clear hw
  refine .inr ⟨_, rfl, ?_, rfl⟩; rw [row_stfV _ rfl]
  try simp [Addr.ok, swzOk, stageOk] at hc
  simp <;> simp_all
theorem Laws.RoundTrip.fset (m : Addr) : Laws.RoundTrip.Statement (.fset m) := by
  intro hw; have hc : (m.ok) = true := hw; clear hw
  refine .inr ⟨_, rfl, ?_, rfl⟩; rw [row_fset _ rfl]
  try simp [Addr.ok, swzOk, stageOk] at hc
  simp <;> simp_all
theorem Laws.RoundTrip.fclr (m : Addr) : Laws.RoundTrip.Statement (.fclr m) := by
  intro hw; have hc : (m.ok) = true := hw; clear hw
  refine .inr ⟨_, rfl, ?_, rfl⟩; rw [row_fclr _ rfl]
  try simp [Addr.ok, swzOk, stageOk] at hc
  simp <;> simp_all
theorem Laws.RoundTrip.amo32 (op : AmoOp) (o : Ord) (sc : Scope) (d a : SReg) (disp : BitVec 40) (b : SReg) :
    Laws.RoundTrip.Statement (.amo32 op o sc d a disp b) := by
  intro _; refine .inr ⟨_, rfl, ?_, rfl⟩; rw [row_amo32 _ rfl]
  simp
theorem Laws.RoundTrip.amo64 (op : AmoOp) (o : Ord) (sc : Scope) (d a : SReg) (disp : BitVec 40) (b : SReg) :
    Laws.RoundTrip.Statement (.amo64 op o sc d a disp b) := by
  intro _; refine .inr ⟨_, rfl, ?_, rfl⟩; rw [row_amo64 _ rfl]
  simp
theorem Laws.RoundTrip.vamo32 (op : AmoOp) (o : Ord) (sc : Scope) (k : LMask) (d : VReg) (a : SReg) (b : VIdx) (scale : BitVec 2) (disp : BitVec 40) :
    Laws.RoundTrip.Statement (.vamo32 op o sc k d a b scale disp) := by
  intro hw; have hc : (op != .cas && (b != .none || scale == 0)) = true := hw; clear hw
  cases b <;> (refine .inr ⟨_, rfl, ?_, rfl⟩; rw [row_vamo32 _ rfl]; simp at hc; simp [eS_0, eV_ne]) <;> simp_all
theorem Laws.RoundTrip.vamo16 (op : AmoOp) (o : Ord) (sc : Scope) (k : LMask) (d : VReg) (a : SReg) (b : VIdx) (scale : BitVec 2) (disp : BitVec 40) :
    Laws.RoundTrip.Statement (.vamo16 op o sc k d a b scale disp) := by
  intro hw; have hc : (op != .cas && (b != .none || scale == 0)) = true := hw; clear hw
  cases b <;> (refine .inr ⟨_, rfl, ?_, rfl⟩; rw [row_vamo16 _ rfl]; simp at hc; simp [eS_0, eV_ne]) <;> simp_all
theorem Laws.RoundTrip.stn (w : NW) (d a b : SReg) (disp : BitVec 48) : Laws.RoundTrip.Statement (.stn w d a b disp) := by
  intro _; refine .inr ⟨_, rfl, ?_, rfl⟩; rw [row_stn _ rfl]
  simp
theorem Laws.RoundTrip.fence (o : Ord) (sc : Scope) : Laws.RoundTrip.Statement (.fence o sc) := by
  intro hw; have hc : (o != .plain) = true := hw; clear hw
  refine .inr ⟨_, rfl, ?_, rfl⟩; rw [row_fence _ rfl]
  try simp [Addr.ok, swzOk, stageOk] at hc
  simp <;> simp_all
theorem Laws.RoundTrip.pref (m : Addr) : Laws.RoundTrip.Statement (.pref m) := by
  intro hw; have hc : (m.ok) = true := hw; clear hw
  refine .inr ⟨_, rfl, ?_, rfl⟩; rw [row_pref _ rfl]
  try simp [Addr.ok, swzOk, stageOk] at hc
  simp <;> simp_all
theorem Laws.RoundTrip.prefRange (a : SReg) (disp : BitVec 48) (b : SReg) :
    Laws.RoundTrip.Statement (.prefRange a disp b) := by
  intro _; refine .inr ⟨_, rfl, ?_, rfl⟩; rw [row_prefRange _ rfl]
  simp
theorem Laws.RoundTrip.cwbr (sc : Scope) (d a : SReg) (disp : BitVec 48) (b : SReg) :
    Laws.RoundTrip.Statement (.cwbr sc d a disp b) := by
  intro _; refine .inr ⟨_, rfl, ?_, rfl⟩; rw [row_cwbr _ rfl]
  simp
theorem Laws.RoundTrip.cinvr (sc : Scope) (d a : SReg) (disp : BitVec 48) (b : SReg) :
    Laws.RoundTrip.Statement (.cinvr sc d a disp b) := by
  intro _; refine .inr ⟨_, rfl, ?_, rfl⟩; rw [row_cinvr _ rfl]
  simp
theorem Laws.RoundTrip.pbind (d : SReg) (q : QReg) (a : SReg) : Laws.RoundTrip.Statement (.pbind d q a) := by
  intro _; refine .inr ⟨_, rfl, ?_, rfl⟩; rw [row_pbind _ rfl]
  simp
theorem Laws.RoundTrip.pfree (q : QReg) : Laws.RoundTrip.Statement (.pfree q) := by
  intro _; refine .inr ⟨_, rfl, ?_, rfl⟩; rw [row_pfree _ rfl]
  simp
theorem Laws.RoundTrip.pstat (d : SReg) (q : QReg) : Laws.RoundTrip.Statement (.pstat d q) := by
  intro _; refine .inr ⟨_, rfl, ?_, rfl⟩; rw [row_pstat _ rfl]
  simp
theorem Laws.RoundTrip.pclose (q : QReg) : Laws.RoundTrip.Statement (.pclose q) := by
  intro _; refine .inr ⟨_, rfl, ?_, rfl⟩; rw [row_pclose _ rfl]
  simp
theorem Laws.RoundTrip.pmark (q : QReg) (k : Option KReg) : Laws.RoundTrip.Statement (.pmark q k) := by
  intro _; cases k <;> (refine .inr ⟨_, rfl, ?_, rfl⟩; rw [row_pmark _ rfl])
  · simp; rfl
  · simp [pm_en, pm_k]
theorem Laws.RoundTrip.start (d b c : SReg) : Laws.RoundTrip.Statement (.start d b c) := by
  intro hw; have hc : decide (c.toNat ≤ 28) = true := hw; clear hw
  refine .inr ⟨_, rfl, ?_, rfl⟩; rw [row_start _ rfl]
  try simp [Addr.ok, swzOk, stageOk] at hc
  simp <;> simp_all
theorem Laws.RoundTrip.spawn (d a b c : SReg) : Laws.RoundTrip.Statement (.spawn d a b c) := by
  intro hw; have hc : decide (c.toNat ≤ 28) = true := hw; clear hw
  refine .inr ⟨_, rfl, ?_, rfl⟩; rw [row_spawn _ rfl]
  try simp [Addr.ok, swzOk, stageOk] at hc
  simp <;> simp_all
theorem Laws.RoundTrip.join (d a : SReg) : Laws.RoundTrip.Statement (.join d a) := by
  intro _; refine .inr ⟨_, rfl, ?_, rfl⟩; rw [row_join _ rfl]
  simp
theorem Laws.RoundTrip.bar (a b : SReg) (mask : BitVec 16) : Laws.RoundTrip.Statement (.bar a b mask) := by
  intro _; refine .inr ⟨_, rfl, ?_, rfl⟩; rw [row_bar _ rfl]
  simp
theorem Laws.RoundTrip.follow (d : SReg) : Laws.RoundTrip.Statement (.follow d) := by
  intro _; refine .inr ⟨_, rfl, ?_, rfl⟩; rw [row_follow _ rfl]
  simp
theorem Laws.RoundTrip.task (d a : SReg) : Laws.RoundTrip.Statement (.task d a) := by
  intro _; refine .inr ⟨_, rfl, ?_, rfl⟩; rw [row_task _ rfl]
  simp
theorem Laws.RoundTrip.ckpt (d a : SReg) : Laws.RoundTrip.Statement (.ckpt d a) := by
  intro _; refine .inr ⟨_, rfl, ?_, rfl⟩; rw [row_ckpt _ rfl]
  simp
theorem Laws.RoundTrip.wake (a b : SReg) : Laws.RoundTrip.Statement (.wake a b) := by
  intro _; refine .inr ⟨_, rfl, ?_, rfl⟩; rw [row_wake _ rfl]
  simp
theorem Laws.RoundTrip.hold (d : VReg) : Laws.RoundTrip.Statement (.hold d) := by
  intro _; refine .inr ⟨_, rfl, ?_, rfl⟩; rw [row_hold _ rfl]
  simp
theorem Laws.RoundTrip.holdSet (regs : BitVec 32) : Laws.RoundTrip.Statement (.holdSet regs) := by
  intro _; refine .inr ⟨_, rfl, ?_, rfl⟩; rw [row_holdSet _ rfl]
  simp
theorem Laws.RoundTrip.hclr (d : VReg) : Laws.RoundTrip.Statement (.hclr d) := by
  intro _; refine .inr ⟨_, rfl, ?_, rfl⟩; rw [row_hclr _ rfl]
  simp
theorem Laws.RoundTrip.depvK (hi : Bool) (a b : SReg) (c : VReg) (k : Option KReg) :
    Laws.RoundTrip.Statement (.depvK hi a b c k) := by
  intro _; refine .inr ⟨_, rfl, ?_, rfl⟩; rw [row_depvK _ rfl]
  simp
theorem Laws.RoundTrip.depv (hi : Bool) (a b : SReg) (c : VReg) : Laws.RoundTrip.Statement (.depv hi a b c) := by
  intro _; refine .inr ⟨_, rfl, ?_, rfl⟩; rw [row_depv _ rfl]
  simp
theorem Laws.RoundTrip.depsK (hi : Bool) (a b c : SReg) (k : Option KReg) : Laws.RoundTrip.Statement (.depsK hi a b c k) := by
  intro _; refine .inr ⟨_, rfl, ?_, rfl⟩; rw [row_depsK _ rfl]
  simp
theorem Laws.RoundTrip.deps (hi : Bool) (a b c : SReg) : Laws.RoundTrip.Statement (.deps hi a b c) := by
  intro _; refine .inr ⟨_, rfl, ?_, rfl⟩; rw [row_deps _ rfl]
  simp
theorem Laws.RoundTrip.post (rearm any : Bool) (n : BitVec 6) (d a b c : SReg) (k : KReg) :
    Laws.RoundTrip.Statement (.post rearm any n d a b c k) := by
  intro hw; have hc : ((!any || n == 0) && (rearm || c == 0)) = true := hw; clear hw
  refine .inr ⟨_, rfl, ?_, rfl⟩; rw [row_post _ rfl]
  try simp [Addr.ok, swzOk, stageOk] at hc
  simp <;> simp_all
theorem Laws.RoundTrip.unpost (d : SReg) (n : BitVec 6) : Laws.RoundTrip.Statement (.unpost d n) := by
  intro _; refine .inr ⟨_, rfl, ?_, rfl⟩; rw [row_unpost _ rfl]
  simp
theorem Laws.RoundTrip.ctradd (k : KReg) (a : SReg) : Laws.RoundTrip.Statement (.ctradd k a) := by
  intro _; refine .inr ⟨_, rfl, ?_, rfl⟩; rw [row_ctradd _ rfl]
  simp
theorem Laws.RoundTrip.ctraddImm (k : KReg) (imm : BitVec 32) : Laws.RoundTrip.Statement (.ctraddImm k imm) := by
  intro _; refine .inr ⟨_, rfl, ?_, rfl⟩; rw [row_ctraddImm _ rfl]
  simp
theorem Laws.RoundTrip.ctrset (k : KReg) (a : SReg) : Laws.RoundTrip.Statement (.ctrset k a) := by
  intro _; refine .inr ⟨_, rfl, ?_, rfl⟩; rw [row_ctrset _ rfl]
  simp
theorem Laws.RoundTrip.ctrsetImm (k : KReg) (imm : BitVec 32) : Laws.RoundTrip.Statement (.ctrsetImm k imm) := by
  intro _; refine .inr ⟨_, rfl, ?_, rfl⟩; rw [row_ctrsetImm _ rfl]
  simp
theorem Laws.RoundTrip.ctrget (sel : BitVec 2) (k : KReg) (d : SReg) : Laws.RoundTrip.Statement (.ctrget sel k d) := by
  intro hw; have hc : (sel == 0 || k == 0) = true := hw; clear hw
  refine .inr ⟨_, rfl, ?_, rfl⟩; rw [row_ctrget _ rfl]
  try simp [Addr.ok, swzOk, stageOk] at hc
  simp <;> simp_all
theorem Laws.RoundTrip.ctrwait (k : KReg) (a : SReg) : Laws.RoundTrip.Statement (.ctrwait k a) := by
  intro _; refine .inr ⟨_, rfl, ?_, rfl⟩; rw [row_ctrwait _ rfl]
  simp
theorem Laws.RoundTrip.ctrwaitImm (k : KReg) (imm : BitVec 32) : Laws.RoundTrip.Statement (.ctrwaitImm k imm) := by
  intro _; refine .inr ⟨_, rfl, ?_, rfl⟩; rw [row_ctrwaitImm _ rfl]
  simp
theorem Laws.RoundTrip.cpy (f : CpyF) (stage : BitVec 3) (fmt swz : BitVec 4) (a b c : SReg) (imm : Word) :
    Laws.RoundTrip.Statement (.cpy f stage fmt swz a b c imm) := by
  intro hw; have hc : (stageOk stage fmt imm && swzOk swz) = true := hw; clear hw
  refine .inr ⟨_, rfl, ?_, rfl⟩; rw [row_cpy _ rfl]
  simp only [stageOk, swzOk, Bool.and_eq_true, decide_eq_true_eq] at hc
  have hs := swz_keep swz hc.2
  have hp := hc.1
  by_cases h2 : stage.toNat ≤ 2
  · have h4 : stage.toNat ≤ 4 := by omega
    rw [if_pos h2] at hp; simp at hp
    simp [hs.1, hs.2, h2, h4, hp.1, hp.2]
  · rw [if_neg h2] at hp; simp at hp
    rcases hp with ⟨h4, (hf | hf) | hf⟩ <;> simp [hs.1, hs.2, h2, h4, hf]
theorem Laws.RoundTrip.cpy2d (f : CpyF) (stage : BitVec 3) (swz : BitVec 4) (a b c e : SReg) (imm : Word) :
    Laws.RoundTrip.Statement (.cpy2d f stage swz a b c e imm) := by
  intro hw; have hc : (stage.toNat ≤ 2 && swzOk swz) = true := hw; clear hw
  refine .inr ⟨_, rfl, ?_, rfl⟩; rw [row_cpy2d _ rfl]
  simp [Addr.ok, swzOk, stageOk] at hc
  have hs := swz_keep swz hc.2
  have h4 : stage.toNat ≤ 4 := by omega
  simp [hs.1, hs.2, hc.1, h4]
theorem Laws.RoundTrip.cpy3d (f : CpyF) (stage : BitVec 3) (swz : BitVec 4) (a b c e : SReg) :
    Laws.RoundTrip.Statement (.cpy3d f stage swz a b c e) := by
  intro hw; have hc : (stage.toNat ≤ 2 && swzOk swz) = true := hw; clear hw
  refine .inr ⟨_, rfl, ?_, rfl⟩; rw [row_cpy3d _ rfl]
  simp [Addr.ok, swzOk, stageOk] at hc
  have hs := swz_keep swz hc.2
  have h4 : stage.toNat ≤ 4 := by omega
  simp [hs.1, hs.2, hc.1, h4]
theorem Laws.RoundTrip.cpyMc (f : CpyF) (stage : BitVec 3) (swz : BitVec 4) (a b c e : SReg) (imm : Word) :
    Laws.RoundTrip.Statement (.cpyMc f stage swz a b c e imm) := by
  intro hw; have hc : (stage.toNat ≤ 2 && swzOk swz) = true := hw; clear hw
  refine .inr ⟨_, rfl, ?_, rfl⟩; rw [row_cpyMc _ rfl]
  simp [Addr.ok, swzOk, stageOk] at hc
  have hs := swz_keep swz hc.2
  have h4 : stage.toNat ≤ 4 := by omega
  simp [hs.1, hs.2, hc.1, h4]
theorem Laws.RoundTrip.cpyQ (f : CpyF) (fmt : Fmt) (a : QReg) (b c e : SReg) :
    Laws.RoundTrip.Statement (.cpyQ f fmt a b c e) := by
  intro hw; have hc : (fmt.isMx == (e != 0)) = true := hw; clear hw
  refine .inr ⟨_, rfl, ?_, rfl⟩; rw [row_cpyQ _ rfl]
  by_cases he : e = 0#5 <;> simp [he] at hc <;> simp [hc, he]
theorem Laws.RoundTrip.cpyQ2d (f : CpyF) (fmt : Fmt) (a : QReg) (b c e : SReg) (imm : Word) :
    Laws.RoundTrip.Statement (.cpyQ2d f fmt a b c e imm) := by
  intro hw; have hc : (fmt.isMx == (e != 0)) = true := hw; clear hw
  refine .inr ⟨_, rfl, ?_, rfl⟩; rw [row_cpyQ2d _ rfl]
  by_cases he : e = 0#5 <;> simp [he] at hc <;> simp [hc, he]
theorem Laws.RoundTrip.cpyPl (f : CpyF) (mid : Bool) (p : BitVec 4) (a : SQ) (b c : SReg) (imm : Word) :
    Laws.RoundTrip.Statement (.cpyPl f mid p a b c imm) := by
  intro hw; have hc : (2 ≤ p.toNat && p.toNat ≤ 8) = true := hw; clear hw
  refine .inr ⟨_, rfl, ?_, rfl⟩; rw [row_cpyPl _ rfl]
  try simp [Addr.ok, swzOk, stageOk] at hc
  simp <;> simp_all
theorem Laws.RoundTrip.cpyFill (f : CpyF) (a c : SReg) (imm : Word) : Laws.RoundTrip.Statement (.cpyFill f a c imm) := by
  intro _; refine .inr ⟨_, rfl, ?_, rfl⟩; rw [row_cpyFill _ rfl]
  simp
theorem Laws.RoundTrip.cpyxG (f : CpyF) (a b c e : SReg) (imm : Word) : Laws.RoundTrip.Statement (.cpyxG f a b c e imm) := by
  intro hw; have hc : (imm.extractLsb' 17 15 == 0) = true := hw; clear hw
  refine .inr ⟨_, rfl, ?_, rfl⟩; rw [row_cpyxG _ rfl]
  try simp [Addr.ok, swzOk, stageOk] at hc
  simp <;> simp_all
theorem Laws.RoundTrip.cpyxS (f : CpyF) (a b c e : SReg) (imm : Word) : Laws.RoundTrip.Statement (.cpyxS f a b c e imm) := by
  intro hw; have hc : (imm.extractLsb' 17 15 == 0) = true := hw; clear hw
  refine .inr ⟨_, rfl, ?_, rfl⟩; rw [row_cpyxS _ rfl]
  try simp [Addr.ok, swzOk, stageOk] at hc
  simp <;> simp_all
theorem Laws.RoundTrip.chainHead (queue : BitVec 2) (a : SReg) : Laws.RoundTrip.Statement (.chainHead queue a) := by
  intro _; refine .inr ⟨_, rfl, ?_, rfl⟩; rw [row_chainHead _ rfl]
  simp
theorem Laws.RoundTrip.chainApp (queue : BitVec 2) : Laws.RoundTrip.Statement (.chainApp queue) := by
  intro _; refine .inr ⟨_, rfl, ?_, rfl⟩; rw [row_chainApp _ rfl]
  simp
theorem Laws.RoundTrip.qfence (mask : BitVec 4) (queue : BitVec 2) : Laws.RoundTrip.Statement (.qfence mask queue) := by
  intro _; refine .inr ⟨_, rfl, ?_, rfl⟩; rw [row_qfence _ rfl]
  simp
theorem Laws.RoundTrip.qwait (queue : BitVec 2) (a : SReg) : Laws.RoundTrip.Statement (.qwait queue a) := by
  intro _; refine .inr ⟨_, rfl, ?_, rfl⟩; rw [row_qwait _ rfl]
  simp
theorem Laws.RoundTrip.qwaitImm (queue : BitVec 2) (imm : BitVec 32) : Laws.RoundTrip.Statement (.qwaitImm queue imm) := by
  intro _; refine .inr ⟨_, rfl, ?_, rfl⟩; rw [row_qwaitImm _ rfl]
  simp
theorem Laws.RoundTrip.qstat (clr st : Bool) (queue : BitVec 2) (d : SReg) :
    Laws.RoundTrip.Statement (.qstat clr st queue d) := by
  intro _; refine .inr ⟨_, rfl, ?_, rfl⟩; rw [row_qstat _ rfl]
  simp
theorem Laws.RoundTrip.mma16Slot0 (f : MmaF) : Laws.RoundTrip.Statement (.mma16Slot0 f) := by
  intro hw; have hc : (f.swz != 3 && f.chk != 3 && f.kb.toNat ≤ 8 && (f.chk == 0 || f.ms == 0)) = true := hw; clear hw
  refine .inr ⟨_, rfl, ?_, rfl⟩; rw [row_mma16Slot0 _ rfl]
  try simp [Addr.ok, swzOk, stageOk] at hc
  simp <;> simp_all
theorem Laws.RoundTrip.mma16Slot1 (f : MmaF) : Laws.RoundTrip.Statement (.mma16Slot1 f) := by
  intro hw; have hc : (f.swz != 3 && f.chk != 3 && f.kb.toNat ≤ 8 && (f.chk == 0 || f.ms == 0)) = true := hw; clear hw
  refine .inr ⟨_, rfl, ?_, rfl⟩; rw [row_mma16Slot1 _ rfl]
  try simp [Addr.ok, swzOk, stageOk] at hc
  simp <;> simp_all
theorem Laws.RoundTrip.mma8fSlot0 (f : MmaF) : Laws.RoundTrip.Statement (.mma8fSlot0 f) := by
  intro hw; have hc : (f.swz != 3 && f.chk != 3 && f.kb.toNat ≤ 8 && (f.chk == 0 || f.ms == 0)) = true := hw; clear hw
  refine .inr ⟨_, rfl, ?_, rfl⟩; rw [row_mma8fSlot0 _ rfl]
  try simp [Addr.ok, swzOk, stageOk] at hc
  simp <;> simp_all
theorem Laws.RoundTrip.mma8fSlot1 (f : MmaF) : Laws.RoundTrip.Statement (.mma8fSlot1 f) := by
  intro hw; have hc : (f.swz != 3 && f.chk != 3 && f.kb.toNat ≤ 8 && (f.chk == 0 || f.ms == 0)) = true := hw; clear hw
  refine .inr ⟨_, rfl, ?_, rfl⟩; rw [row_mma8fSlot1 _ rfl]
  try simp [Addr.ok, swzOk, stageOk] at hc
  simp <;> simp_all
theorem Laws.RoundTrip.mma8iSlot0 (f : MmaF) : Laws.RoundTrip.Statement (.mma8iSlot0 f) := by
  intro hw; have hc : (f.swz != 3 && f.chk != 3 && f.kb.toNat ≤ 8 && (f.chk == 0 || f.ms == 0)) = true := hw; clear hw
  refine .inr ⟨_, rfl, ?_, rfl⟩; rw [row_mma8iSlot0 _ rfl]
  try simp [Addr.ok, swzOk, stageOk] at hc
  simp <;> simp_all
theorem Laws.RoundTrip.mma8iSlot1 (f : MmaF) : Laws.RoundTrip.Statement (.mma8iSlot1 f) := by
  intro hw; have hc : (f.swz != 3 && f.chk != 3 && f.kb.toNat ≤ 8 && (f.chk == 0 || f.ms == 0)) = true := hw; clear hw
  refine .inr ⟨_, rfl, ?_, rfl⟩; rw [row_mma8iSlot1 _ rfl]
  try simp [Addr.ok, swzOk, stageOk] at hc
  simp <;> simp_all
theorem Laws.RoundTrip.mma4Slot0 (f : MmaF) : Laws.RoundTrip.Statement (.mma4Slot0 f) := by
  intro hw; have hc : (f.swz != 3 && f.chk != 3 && f.kb.toNat ≤ 8 && (f.chk == 0 || f.ms == 0)) = true := hw; clear hw
  refine .inr ⟨_, rfl, ?_, rfl⟩; rw [row_mma4Slot0 _ rfl]
  try simp [Addr.ok, swzOk, stageOk] at hc
  simp <;> simp_all
theorem Laws.RoundTrip.mma4Slot1 (f : MmaF) : Laws.RoundTrip.Statement (.mma4Slot1 f) := by
  intro hw; have hc : (f.swz != 3 && f.chk != 3 && f.kb.toNat ≤ 8 && (f.chk == 0 || f.ms == 0)) = true := hw; clear hw
  refine .inr ⟨_, rfl, ?_, rfl⟩; rw [row_mma4Slot1 _ rfl]
  try simp [Addr.ok, swzOk, stageOk] at hc
  simp <;> simp_all
theorem Laws.RoundTrip.mupl1 (imm : Word) : Laws.RoundTrip.Statement (.mupl1 imm) := by
  intro hw; have hc : (muOk imm) = true := hw; clear hw
  refine .inr ⟨_, rfl, ?_, rfl⟩; rw [row_mupl1 _ rfl]
  simp [muOk] at hc
  simp [hc.1, hc.2]
theorem Laws.RoundTrip.mupl2 (imm : Word) : Laws.RoundTrip.Statement (.mupl2 imm) := by
  intro hw; have hc : (muOk imm) = true := hw; clear hw
  refine .inr ⟨_, rfl, ?_, rfl⟩; rw [row_mupl2 _ rfl]
  simp [muOk] at hc
  simp [hc.1, hc.2]
theorem Laws.RoundTrip.mupl3 (imm : Word) : Laws.RoundTrip.Statement (.mupl3 imm) := by
  intro hw; have hc : (muOk imm) = true := hw; clear hw
  refine .inr ⟨_, rfl, ?_, rfl⟩; rw [row_mupl3 _ rfl]
  simp [muOk] at hc
  simp [hc.1, hc.2]
theorem Laws.RoundTrip.mchkRow (t : ElemTy) (swz : BitVec 2) (part : Bool) (m : VMask) (d : VReg) (a : SReg) :
    Laws.RoundTrip.Statement (.mchkRow t swz part m d a) := by
  intro hw; have hc : ((t == .f32 || t == .i32) && swz != 3) = true := hw; clear hw
  refine .inr ⟨_, rfl, ?_, rfl⟩; rw [row_mchkRow _ rfl]
  try simp [Addr.ok, swzOk, stageOk] at hc
  simp <;> simp_all
theorem Laws.RoundTrip.mchkCol (t : ElemTy) (swz : BitVec 2) (part : Bool) (m : VMask) (d : VReg) (a : SReg) :
    Laws.RoundTrip.Statement (.mchkCol t swz part m d a) := by
  intro hw; have hc : ((t == .f32 || t == .i32) && swz != 3) = true := hw; clear hw
  refine .inr ⟨_, rfl, ?_, rfl⟩; rw [row_mchkCol _ rfl]
  try simp [Addr.ok, swzOk, stageOk] at hc
  simp <;> simp_all
theorem Laws.RoundTrip.mzero (a : SReg) : Laws.RoundTrip.Statement (.mzero a) := by
  intro _; refine .inr ⟨_, rfl, ?_, rfl⟩; rw [row_mzero _ rfl]
  simp
theorem Laws.RoundTrip.mfsr (d : SReg) (n : BitVec 12) : Laws.RoundTrip.Statement (.mfsr d n) := by
  intro hw; have hc : (srDefined n.toNat) = true := hw; clear hw
  refine .inr ⟨_, rfl, ?_, rfl⟩; rw [row_mfsr _ rfl]
  try simp [Addr.ok, swzOk, stageOk] at hc
  simp <;> simp_all
theorem Laws.RoundTrip.mfsrReg (d a : SReg) : Laws.RoundTrip.Statement (.mfsrReg d a) := by
  intro _; refine .inr ⟨_, rfl, ?_, rfl⟩; rw [row_mfsrReg _ rfl]
  simp
theorem Laws.RoundTrip.mtsr (n : BitVec 12) (a : SReg) : Laws.RoundTrip.Statement (.mtsr n a) := by
  intro hw; have hc : (srDefined n.toNat) = true := hw; clear hw
  refine .inr ⟨_, rfl, ?_, rfl⟩; rw [row_mtsr _ rfl]
  try simp [Addr.ok, swzOk, stageOk] at hc
  simp <;> simp_all
theorem Laws.RoundTrip.mtsrReg (b a : SReg) : Laws.RoundTrip.Statement (.mtsrReg b a) := by
  intro _; refine .inr ⟨_, rfl, ?_, rfl⟩; rw [row_mtsrReg _ rfl]
  simp
theorem Laws.RoundTrip.trap (bp : Bool) (imm : BitVec 32) : Laws.RoundTrip.Statement (.trap bp imm) := by
  intro _; refine .inr ⟨_, rfl, ?_, rfl⟩; rw [row_trap _ rfl]
  simp
theorem Laws.RoundTrip.trapReg (bp : Bool) (a : SReg) : Laws.RoundTrip.Statement (.trapReg bp a) := by
  intro _; refine .inr ⟨_, rfl, ?_, rfl⟩; rw [row_trapReg _ rfl]
  simp
theorem Laws.RoundTrip.tlbw (a b : SReg) : Laws.RoundTrip.Statement (.tlbw a b) := by
  intro _; refine .inr ⟨_, rfl, ?_, rfl⟩; rw [row_tlbw _ rfl]
  simp
theorem Laws.RoundTrip.tlbwRm (a b c : SReg) : Laws.RoundTrip.Statement (.tlbwRm a b c) := by
  intro _; refine .inr ⟨_, rfl, ?_, rfl⟩; rw [row_tlbwRm _ rfl]
  simp
theorem Laws.RoundTrip.tlbiVa (a : SReg) : Laws.RoundTrip.Statement (.tlbiVa a) := by
  intro _; refine .inr ⟨_, rfl, ?_, rfl⟩; rw [row_tlbiVa _ rfl]
  simp
theorem Laws.RoundTrip.tlbiTn (a : SReg) : Laws.RoundTrip.Statement (.tlbiTn a) := by
  intro _; refine .inr ⟨_, rfl, ?_, rfl⟩; rw [row_tlbiTn _ rfl]
  simp
theorem Laws.RoundTrip.ecall (d a : SReg) (imm : BitVec 32) : Laws.RoundTrip.Statement (.ecall d a imm) := by
  intro _; refine .inr ⟨_, rfl, ?_, rfl⟩; rw [row_ecall _ rfl]
  simp
theorem Laws.RoundTrip.ecallReg (d a b : SReg) : Laws.RoundTrip.Statement (.ecallReg d a b) := by
  intro _; refine .inr ⟨_, rfl, ?_, rfl⟩; rw [row_ecallReg _ rfl]
  simp
theorem Laws.RoundTrip.injArm (d a b : SReg) : Laws.RoundTrip.Statement (.injArm d a b) := by
  intro _; refine .inr ⟨_, rfl, ?_, rfl⟩; rw [row_injArm _ rfl]
  simp
theorem Laws.RoundTrip.injOff (d : SReg) : Laws.RoundTrip.Statement (.injOff d) := by
  intro _; refine .inr ⟨_, rfl, ?_, rfl⟩; rw [row_injOff _ rfl]
  simp
theorem Laws.RoundTrip.movw (d : SReg) (imm : Word) : Laws.RoundTrip.Statement (.movw d imm) := by
  intro _; refine .inr ⟨_, rfl, ?_, rfl⟩; rw [row_movw _ rfl]
  simp
theorem Laws.RoundTrip.addiFx (d : SReg) (imm : Word) : Laws.RoundTrip.Statement (.addiFx d imm) := by
  intro _; refine .inr ⟨_, rfl, ?_, rfl⟩; rw [row_addiFx _ rfl]
  simp
theorem Laws.RoundTrip.andiFx (d : SReg) (imm : Word) : Laws.RoundTrip.Statement (.andiFx d imm) := by
  intro _; refine .inr ⟨_, rfl, ?_, rfl⟩; rw [row_andiFx _ rfl]
  simp
theorem Laws.RoundTrip.oriFx (d : SReg) (imm : Word) : Laws.RoundTrip.Statement (.oriFx d imm) := by
  intro _; refine .inr ⟨_, rfl, ?_, rfl⟩; rw [row_oriFx _ rfl]
  simp
theorem Laws.RoundTrip.xoriFx (d : SReg) (imm : Word) : Laws.RoundTrip.Statement (.xoriFx d imm) := by
  intro _; refine .inr ⟨_, rfl, ?_, rfl⟩; rw [row_xoriFx _ rfl]
  simp
theorem Laws.RoundTrip.callAbs (target : Word) : Laws.RoundTrip.Statement (.callAbs target) := by
  intro _; refine .inr ⟨_, rfl, ?_, rfl⟩; rw [row_callAbs _ rfl]
  simp
theorem Laws.RoundTrip.vbcastImm (d : VQ) (imm : Word) : Laws.RoundTrip.Statement (.vbcastImm d imm) := by
  intro _; refine .inr ⟨_, rfl, ?_, rfl⟩; rw [row_vbcastImm _ rfl]
  simp
theorem Laws.RoundTrip.msetLo (d : MReg) (imm : Word) : Laws.RoundTrip.Statement (.msetLo d imm) := by
  intro _; refine .inr ⟨_, rfl, ?_, rfl⟩; rw [row_msetLo _ rfl]
  simp
theorem Laws.RoundTrip.msetHi (d : MReg) (imm : Word) : Laws.RoundTrip.Statement (.msetHi d imm) := by
  intro _; refine .inr ⟨_, rfl, ?_, rfl⟩; rw [row_msetHi _ rfl]
  simp
theorem Laws.RoundTrip.ldAbs (d : SReg) (addr : Word) : Laws.RoundTrip.Statement (.ldAbs d addr) := by
  intro _; refine .inr ⟨_, rfl, ?_, rfl⟩; rw [row_ldAbs _ rfl]
  simp
theorem Laws.RoundTrip.stAbs (d : SReg) (addr : Word) : Laws.RoundTrip.Statement (.stAbs d addr) := by
  intro _; refine .inr ⟨_, rfl, ?_, rfl⟩; rw [row_stAbs _ rfl]
  simp
theorem Laws.RoundTrip.vldAbs (d : VReg) (addr : Word) : Laws.RoundTrip.Statement (.vldAbs d addr) := by
  intro _; refine .inr ⟨_, rfl, ?_, rfl⟩; rw [row_vldAbs _ rfl]
  simp
theorem Laws.RoundTrip.vstAbs (d : VReg) (addr : Word) : Laws.RoundTrip.Statement (.vstAbs d addr) := by
  intro _; refine .inr ⟨_, rfl, ?_, rfl⟩; rw [row_vstAbs _ rfl]
  simp
theorem Laws.RoundTrip.startFe (d c : SReg) (target : Word) : Laws.RoundTrip.Statement (.startFe d c target) := by
  intro hw; have hc : decide (c.toNat ≤ 28) = true := hw; clear hw
  refine .inr ⟨_, rfl, ?_, rfl⟩; rw [row_startFe _ rfl]
  try simp [Addr.ok, swzOk, stageOk] at hc
  simp <;> simp_all
theorem Laws.RoundTrip.spawnFe (d a c : SReg) (target : Word) : Laws.RoundTrip.Statement (.spawnFe d a c target) := by
  intro hw; have hc : decide (c.toNat ≤ 28) = true := hw; clear hw
  refine .inr ⟨_, rfl, ?_, rfl⟩; rw [row_spawnFe _ rfl]
  try simp [Addr.ok, swzOk, stageOk] at hc
  simp <;> simp_all
theorem Laws.RoundTrip.cmpiFe (c : ICond) (d a : SReg) (imm : Word) : Laws.RoundTrip.Statement (.cmpiFe c d a imm) := by
  intro _; refine .inr ⟨_, rfl, ?_, rfl⟩; rw [row_cmpiFe _ rfl]
  simp
theorem Laws.RoundTrip.ret : Laws.RoundTrip.Statement .ret := by
  intro _; refine .inr ⟨_, rfl, ?_, rfl⟩; rw [row_ret _ rfl]
  simp
theorem Laws.RoundTrip.nop : Laws.RoundTrip.Statement .nop := by
  intro _; refine .inr ⟨_, rfl, ?_, rfl⟩; rw [row_nop _ rfl]
  simp
theorem Laws.RoundTrip.yield : Laws.RoundTrip.Statement .yield := by
  intro _; refine .inr ⟨_, rfl, ?_, rfl⟩; rw [row_yield _ rfl]
  simp
theorem Laws.RoundTrip.wspill : Laws.RoundTrip.Statement .wspill := by
  intro _; refine .inr ⟨_, rfl, ?_, rfl⟩; rw [row_wspill _ rfl]
  simp
theorem Laws.RoundTrip.wfill : Laws.RoundTrip.Statement .wfill := by
  intro _; refine .inr ⟨_, rfl, ?_, rfl⟩; rw [row_wfill _ rfl]
  simp
theorem Laws.RoundTrip.nopW : Laws.RoundTrip.Statement .nopW := by
  intro _; refine .inr ⟨_, rfl, ?_, rfl⟩; rw [row_nopW _ rfl]
  simp
theorem Laws.RoundTrip.nopX : Laws.RoundTrip.Statement .nopX := by
  intro _; refine .inr ⟨_, rfl, ?_, rfl⟩; rw [row_nopX _ rfl]
  simp
theorem Laws.RoundTrip.leave : Laws.RoundTrip.Statement .leave := by
  intro _; refine .inr ⟨_, rfl, ?_, rfl⟩; rw [row_leave _ rfl]
  simp
theorem Laws.RoundTrip.tdone : Laws.RoundTrip.Statement .tdone := by
  intro _; refine .inr ⟨_, rfl, ?_, rfl⟩; rw [row_tdone _ rfl]
  simp
theorem Laws.RoundTrip.park : Laws.RoundTrip.Statement .park := by
  intro _; refine .inr ⟨_, rfl, ?_, rfl⟩; rw [row_park _ rfl]
  simp
theorem Laws.RoundTrip.mzeroSlot0 : Laws.RoundTrip.Statement .mzeroSlot0 := by
  intro _; refine .inr ⟨_, rfl, ?_, rfl⟩; rw [row_mzeroSlot0 _ rfl]
  simp
theorem Laws.RoundTrip.mzeroSlot1 : Laws.RoundTrip.Statement .mzeroSlot1 := by
  intro _; refine .inr ⟨_, rfl, ?_, rfl⟩; rw [row_mzeroSlot1 _ rfl]
  simp
theorem Laws.RoundTrip.rett : Laws.RoundTrip.Statement .rett := by
  intro _; refine .inr ⟨_, rfl, ?_, rfl⟩; rw [row_rett _ rfl]
  simp
theorem Laws.RoundTrip.tlbiAll : Laws.RoundTrip.Statement .tlbiAll := by
  intro _; refine .inr ⟨_, rfl, ?_, rfl⟩; rw [row_tlbiAll _ rfl]
  simp
theorem Laws.RoundTrip.domainSwitch : Laws.RoundTrip.Statement .domainSwitch := fun _ => .inl rfl
theorem Laws.RoundTrip.replayMarkRemoval : Laws.RoundTrip.Statement .replayMarkRemoval := fun _ => .inl rfl
theorem Laws.RoundTrip.collectiveBuild : Laws.RoundTrip.Statement .collectiveBuild := fun _ => .inl rfl
theorem Laws.RoundTrip.collectiveRelease : Laws.RoundTrip.Statement .collectiveRelease := fun _ => .inl rfl
theorem Laws.RoundTrip.meterRecordService : Laws.RoundTrip.Statement .meterRecordService := fun _ => .inl rfl
theorem Laws.RoundTrip.pageResolve : Laws.RoundTrip.Statement .pageResolve := fun _ => .inl rfl
theorem Laws.RoundTrip.pageFail : Laws.RoundTrip.Statement .pageFail := fun _ => .inl rfl
theorem Laws.RoundTrip.handlerTableInstall : Laws.RoundTrip.Statement .handlerTableInstall := fun _ => .inl rfl
theorem Laws.RoundTrip.hostOpenSession : Laws.RoundTrip.Statement .hostOpenSession := fun _ => .inl rfl
theorem Laws.RoundTrip.hostCloseSession : Laws.RoundTrip.Statement .hostCloseSession := fun _ => .inl rfl
theorem Laws.RoundTrip.hostIdentity : Laws.RoundTrip.Statement .hostIdentity := fun _ => .inl rfl
theorem Laws.RoundTrip.hostWrite : Laws.RoundTrip.Statement .hostWrite := fun _ => .inl rfl
theorem Laws.RoundTrip.hostRead : Laws.RoundTrip.Statement .hostRead := fun _ => .inl rfl
theorem Laws.RoundTrip.hostNotify : Laws.RoundTrip.Statement .hostNotify := fun _ => .inl rfl
theorem Laws.RoundTrip.hostRegisterTenant : Laws.RoundTrip.Statement .hostRegisterTenant := fun _ => .inl rfl
theorem Laws.RoundTrip.hostDeregisterTenant : Laws.RoundTrip.Statement .hostDeregisterTenant := fun _ => .inl rfl
theorem Laws.RoundTrip.hostResetTenant : Laws.RoundTrip.Statement .hostResetTenant := fun _ => .inl rfl
theorem Laws.RoundTrip.hostLoadContainer : Laws.RoundTrip.Statement .hostLoadContainer := fun _ => .inl rfl
theorem Laws.RoundTrip.hostSubmitLaunch : Laws.RoundTrip.Statement .hostSubmitLaunch := fun _ => .inl rfl
theorem Laws.RoundTrip.hostLaunchStatus : Laws.RoundTrip.Statement .hostLaunchStatus := fun _ => .inl rfl
theorem Laws.RoundTrip.hostMeterRecord : Laws.RoundTrip.Statement .hostMeterRecord := fun _ => .inl rfl
theorem Laws.RoundTrip.hostRecablePod : Laws.RoundTrip.Statement .hostRecablePod := fun _ => .inl rfl
theorem Laws.RoundTrip.containerForward : Laws.RoundTrip.Statement .containerForward := fun _ => .inl rfl
theorem Laws.RoundTrip.slotBind : Laws.RoundTrip.Statement .slotBind := fun _ => .inl rfl
theorem Laws.RoundTrip.slotSave : Laws.RoundTrip.Statement .slotSave := fun _ => .inl rfl
theorem Laws.RoundTrip.saveWritePhase : Laws.RoundTrip.Statement .saveWritePhase := fun _ => .inl rfl
theorem Laws.RoundTrip.slotResume : Laws.RoundTrip.Statement .slotResume := fun _ => .inl rfl
theorem Laws.RoundTrip.slotEvictPartition : Laws.RoundTrip.Statement .slotEvictPartition := fun _ => .inl rfl
theorem Laws.RoundTrip.slotResetStop : Laws.RoundTrip.Statement .slotResetStop := fun _ => .inl rfl
theorem Laws.RoundTrip.slotRetire : Laws.RoundTrip.Statement .slotRetire := fun _ => .inl rfl
theorem Laws.RoundTrip.smapWrite : Laws.RoundTrip.Statement .smapWrite := fun _ => .inl rfl
theorem Laws.RoundTrip.arrWrite : Laws.RoundTrip.Statement .arrWrite := fun _ => .inl rfl
theorem Laws.RoundTrip.vownWrite : Laws.RoundTrip.Statement .vownWrite := fun _ => .inl rfl
theorem Laws.RoundTrip.injctlWrite : Laws.RoundTrip.Statement .injctlWrite := fun _ => .inl rfl
theorem Laws.RoundTrip.injseedWrite : Laws.RoundTrip.Statement .injseedWrite := fun _ => .inl rfl
theorem Laws.RoundTrip.mgmtRegisterWrite : Laws.RoundTrip.Statement .mgmtRegisterWrite := fun _ => .inl rfl
theorem Laws.RoundTrip.boot : Laws.RoundTrip.Statement .boot := fun _ => .inl rfl
theorem Laws.RoundTrip.recoveryImage : Laws.RoundTrip.Statement .recoveryImage := fun _ => .inl rfl
theorem Laws.RoundTrip.remapChange : Laws.RoundTrip.Statement .remapChange := fun _ => .inl rfl
theorem Laws.RoundTrip.containment : Laws.RoundTrip.Statement .containment := fun _ => .inl rfl
theorem Laws.RoundTrip.migration : Laws.RoundTrip.Statement .migration := fun _ => .inl rfl
theorem Laws.RoundTrip.stubRetire : Laws.RoundTrip.Statement .stubRetire := fun _ => .inl rfl
theorem Laws.RoundTrip.collectiveShrink : Laws.RoundTrip.Statement .collectiveShrink := fun _ => .inl rfl
theorem Laws.RoundTrip.quantumBoundary : Laws.RoundTrip.Statement .quantumBoundary := fun _ => .inl rfl
theorem Laws.RoundTrip.schedulingWindowEnd : Laws.RoundTrip.Statement .schedulingWindowEnd := fun _ => .inl rfl
theorem Laws.RoundTrip.clockChange : Laws.RoundTrip.Statement .clockChange := fun _ => .inl rfl
theorem Laws.RoundTrip.supplySagTrip : Laws.RoundTrip.Statement .supplySagTrip := fun _ => .inl rfl
theorem Laws.RoundTrip.trapReport : Laws.RoundTrip.Statement .trapReport := fun _ => .inl rfl
theorem Laws.RoundTrip.contextReady : Laws.RoundTrip.Statement .contextReady := fun _ => .inl rfl
theorem Laws.RoundTrip.barrierComplete : Laws.RoundTrip.Statement .barrierComplete := fun _ => .inl rfl
theorem Laws.RoundTrip.groupRetire : Laws.RoundTrip.Statement .groupRetire := fun _ => .inl rfl
theorem Laws.RoundTrip.taskDispatch : Laws.RoundTrip.Statement .taskDispatch := fun _ => .inl rfl
theorem Laws.RoundTrip.taskStart : Laws.RoundTrip.Statement .taskStart := fun _ => .inl rfl
theorem Laws.RoundTrip.taskUnpin : Laws.RoundTrip.Statement .taskUnpin := fun _ => .inl rfl
theorem Laws.RoundTrip.slotLend : Laws.RoundTrip.Statement .slotLend := fun _ => .inl rfl
theorem Laws.RoundTrip.pageFaultWake : Laws.RoundTrip.Statement .pageFaultWake := fun _ => .inl rfl
theorem Laws.RoundTrip.pageWalk : Laws.RoundTrip.Statement .pageWalk := fun _ => .inl rfl
theorem Laws.RoundTrip.walkResult : Laws.RoundTrip.Statement .walkResult := fun _ => .inl rfl
theorem Laws.RoundTrip.porterCommandStart : Laws.RoundTrip.Statement .porterCommandStart := fun _ => .inl rfl
theorem Laws.RoundTrip.porterCommandComplete : Laws.RoundTrip.Statement .porterCommandComplete := fun _ => .inl rfl
theorem Laws.RoundTrip.chainRecordRead : Laws.RoundTrip.Statement .chainRecordRead := fun _ => .inl rfl
theorem Laws.RoundTrip.mmaClaimLine : Laws.RoundTrip.Statement .mmaClaimLine := fun _ => .inl rfl
theorem Laws.RoundTrip.mmaStart : Laws.RoundTrip.Statement .mmaStart := fun _ => .inl rfl
theorem Laws.RoundTrip.mmaRetire : Laws.RoundTrip.Statement .mmaRetire := fun _ => .inl rfl
theorem Laws.RoundTrip.counterIncrement : Laws.RoundTrip.Statement .counterIncrement := fun _ => .inl rfl
theorem Laws.RoundTrip.crierFire : Laws.RoundTrip.Statement .crierFire := fun _ => .inl rfl
theorem Laws.RoundTrip.firedPorterCommand : Laws.RoundTrip.Statement .firedPorterCommand := fun _ => .inl rfl
theorem Laws.RoundTrip.firedRemoteAtomic : Laws.RoundTrip.Statement .firedRemoteAtomic := fun _ => .inl rfl
theorem Laws.RoundTrip.firedCounterAdd : Laws.RoundTrip.Statement .firedCounterAdd := fun _ => .inl rfl
theorem Laws.RoundTrip.firedDeposit : Laws.RoundTrip.Statement .firedDeposit := fun _ => .inl rfl
theorem Laws.RoundTrip.firedStart : Laws.RoundTrip.Statement .firedStart := fun _ => .inl rfl
theorem Laws.RoundTrip.firedSpawn : Laws.RoundTrip.Statement .firedSpawn := fun _ => .inl rfl
theorem Laws.RoundTrip.firedChannelSend : Laws.RoundTrip.Statement .firedChannelSend := fun _ => .inl rfl
theorem Laws.RoundTrip.depositArrival : Laws.RoundTrip.Statement .depositArrival := fun _ => .inl rfl
theorem Laws.RoundTrip.depositNack : Laws.RoundTrip.Statement .depositNack := fun _ => .inl rfl
theorem Laws.RoundTrip.wakeArrival : Laws.RoundTrip.Statement .wakeArrival := fun _ => .inl rfl
theorem Laws.RoundTrip.spawnRequest : Laws.RoundTrip.Statement .spawnRequest := fun _ => .inl rfl
theorem Laws.RoundTrip.spawnReply : Laws.RoundTrip.Statement .spawnReply := fun _ => .inl rfl
theorem Laws.RoundTrip.channelElementArrival : Laws.RoundTrip.Statement .channelElementArrival := fun _ => .inl rfl
theorem Laws.RoundTrip.drainMarkerAck : Laws.RoundTrip.Statement .drainMarkerAck := fun _ => .inl rfl
theorem Laws.RoundTrip.memoryRequest : Laws.RoundTrip.Statement .memoryRequest := fun _ => .inl rfl
theorem Laws.RoundTrip.remoteSyncAccess : Laws.RoundTrip.Statement .remoteSyncAccess := fun _ => .inl rfl
theorem Laws.RoundTrip.syncCancel : Laws.RoundTrip.Statement .syncCancel := fun _ => .inl rfl
theorem Laws.RoundTrip.replyData : Laws.RoundTrip.Statement .replyData := fun _ => .inl rfl
theorem Laws.RoundTrip.accessNack : Laws.RoundTrip.Statement .accessNack := fun _ => .inl rfl
theorem Laws.RoundTrip.retryBackoffExpiry : Laws.RoundTrip.Statement .retryBackoffExpiry := fun _ => .inl rfl
theorem Laws.RoundTrip.absentAnswer : Laws.RoundTrip.Statement .absentAnswer := fun _ => .inl rfl
theorem Laws.RoundTrip.replayCompletion : Laws.RoundTrip.Statement .replayCompletion := fun _ => .inl rfl
theorem Laws.RoundTrip.unreachableReturn : Laws.RoundTrip.Statement .unreachableReturn := fun _ => .inl rfl
theorem Laws.RoundTrip.dropNotice : Laws.RoundTrip.Statement .dropNotice := fun _ => .inl rfl
theorem Laws.RoundTrip.reservationTimeout : Laws.RoundTrip.Statement .reservationTimeout := fun _ => .inl rfl
theorem Laws.RoundTrip.hopLimitDrop : Laws.RoundTrip.Statement .hopLimitDrop := fun _ => .inl rfl
theorem Laws.RoundTrip.hbmCompletion : Laws.RoundTrip.Statement .hbmCompletion := fun _ => .inl rfl
theorem Laws.RoundTrip.readShared : Laws.RoundTrip.Statement .readShared := fun _ => .inl rfl
theorem Laws.RoundTrip.readExclusive : Laws.RoundTrip.Statement .readExclusive := fun _ => .inl rfl
theorem Laws.RoundTrip.ownerWriteBack : Laws.RoundTrip.Statement .ownerWriteBack := fun _ => .inl rfl
theorem Laws.RoundTrip.homePanelRequest : Laws.RoundTrip.Statement .homePanelRequest := fun _ => .inl rfl
theorem Laws.RoundTrip.coherenceForward : Laws.RoundTrip.Statement .coherenceForward := fun _ => .inl rfl
theorem Laws.RoundTrip.invalidation : Laws.RoundTrip.Statement .invalidation := fun _ => .inl rfl
theorem Laws.RoundTrip.grantAck : Laws.RoundTrip.Statement .grantAck := fun _ => .inl rfl
theorem Laws.RoundTrip.meshReplayRequest : Laws.RoundTrip.Statement .meshReplayRequest := fun _ => .inl rfl
theorem Laws.RoundTrip.linkDataFlit : Laws.RoundTrip.Statement .linkDataFlit := fun _ => .inl rfl
theorem Laws.RoundTrip.linkIdleFlit : Laws.RoundTrip.Statement .linkIdleFlit := fun _ => .inl rfl
theorem Laws.RoundTrip.linkReplayRequest : Laws.RoundTrip.Statement .linkReplayRequest := fun _ => .inl rfl
theorem Laws.RoundTrip.linkRekeyMark : Laws.RoundTrip.Statement .linkRekeyMark := fun _ => .inl rfl
theorem Laws.RoundTrip.rekey : Laws.RoundTrip.Statement .rekey := fun _ => .inl rfl
theorem Laws.RoundTrip.authFailureLimit : Laws.RoundTrip.Statement .authFailureLimit := fun _ => .inl rfl
theorem Laws.RoundTrip.allowanceReturn : Laws.RoundTrip.Statement .allowanceReturn := fun _ => .inl rfl
theorem Laws.RoundTrip.l1EpochWrap : Laws.RoundTrip.Statement .l1EpochWrap := fun _ => .inl rfl
theorem Laws.RoundTrip.followLagLimit : Laws.RoundTrip.Statement .followLagLimit := fun _ => .inl rfl
theorem Laws.RoundTrip.uncorrectableError : Laws.RoundTrip.Statement .uncorrectableError := fun _ => .inl rfl
theorem Laws.RoundTrip.linkFailure : Laws.RoundTrip.Statement .linkFailure := fun _ => .inl rfl
theorem Laws.RoundTrip.supplySagClear : Laws.RoundTrip.Statement .supplySagClear := fun _ => .inl rfl
theorem Laws.RoundTrip.illegalInstructionFetch : Laws.RoundTrip.Statement .illegalInstructionFetch := fun _ => .inl rfl
theorem Laws.RoundTrip.resultAvailable : Laws.RoundTrip.Statement .resultAvailable := fun _ => .inl rfl
theorem Laws.RoundTrip.hostBadRequest : Laws.RoundTrip.Statement .hostBadRequest := fun _ => .inl rfl

end Sys2Proof
end

