-- ==== Sys2Proof/Laws/Scalar.lean ====
section
/-! SUPPORT. Sys2Proof/Laws/Scalar.lean: the scalar results in terms of bit vectors: conditions, quotients, bit fields, counts. -/
namespace Sys2Proof.Machine

theorem amount_eq (y : Word) : amount y = y.toNat % 64 := by simp [amount]
theorem ival_toInt (x : Word) : ival true 64 x.toNat = x.toInt := by
  have := x.isLt
  simp only [ival, BitVec.toInt, Nat.mod_eq_of_lt x.isLt, Bool.true_and, decide_eq_true_eq]
  split <;> split <;> omega
/-- The conditions of R82 on words. -/
theorem icond_holds (c : ICond) (x y : Word) : icond 64 c x.toNat y.toNat = condHolds c x y := by
  have h : ∀ a b : Word, (a.toNat == b.toNat) = (a == b) := by
    intro a b
    rw [Bool.eq_iff_iff, beq_iff_eq, beq_iff_eq]
    exact BitVec.toNat_inj
  cases c <;> simp only [icond, condHolds, ival_toInt, Nat.mod_eq_of_lt x.isLt, Nat.mod_eq_of_lt y.isLt, BitVec.slt, BitVec.sle,
    BitVec.ult, BitVec.ule, h, bne]
theorem boolWord_oneIf (b : Bool) : boolWord b = oneIf b := rfl
theorem onesIn_countP (x : Word) : onesIn x.toNat 64 = (List.range 64).countP fun i => x.getLsbD i := by
  simp [onesIn, List.countP_eq_length_filter, BitVec.getLsbD]
theorem lowMask_bit (m : MaskW) (n i : Nat) : (lowMask m n).testBit i = (decide (i < n) && m.getLsbD i) := by
  simp [lowMask, Nat.testBit_mod_two_pow, BitVec.getLsbD]
/-- The conditions of R343 on masks. -/
theorem mcond_holds (c : MCond) (m : MaskW) (n : Nat) : mcond c m n = maskHolds c m n := by
  have h0 : (lowMask m n = 0) ↔ ∀ i, i < n → m.getLsbD i = false := by
    constructor
    · intro h i hi
      have := lowMask_bit m n i
      rw [h] at this; simpa [hi] using this.symm
    · intro h
      apply Nat.eq_of_testBit_eq
      intro i
      rw [lowMask_bit]
      by_cases hi : i < n <;> simp [hi, h]
  have h1 : (lowMask m n = 2 ^ n - 1) ↔ ∀ i, i < n → m.getLsbD i = true := by
    constructor
    · intro h i hi
      have := lowMask_bit m n i
      rw [h, Nat.testBit_two_pow_sub_one] at this; simpa [hi] using this.symm
    · intro h
      apply Nat.eq_of_testBit_eq
      intro i
      rw [lowMask_bit, Nat.testBit_two_pow_sub_one]
      by_cases hi : i < n
      · simp [hi, h i hi]
      · simp [hi]
  cases c <;> rw [Bool.eq_iff_iff] <;> simp [mcond, maskHolds, h0, h1]
/-- A bit field is an extraction, extended. -/
theorem bitField_signed (x : Word) (pos len : Nat) : bitField true x pos len = (x.extractLsb' pos len).signExtend 64 := by
  have hb : (x.extractLsb' pos len).toNat = x.toNat / 2 ^ pos % 2 ^ len := by simp [Nat.shiftRight_eq_div_pow]
  unfold bitField BitVec.signExtend
  rw [BitVec.toInt_eq_toNat_cond, hb]
  cases len with
  | zero => simp [Nat.mod_one]
  | succ n =>
    simp only [Bool.true_and, decide_eq_true_eq, Nat.add_sub_cancel]
    have e : 2 ^ (n + 1) = 2 * 2 ^ n := by rw [Nat.pow_succ, Nat.mul_comm]
    split
    · rw [if_neg (by omega)]; push_cast; rfl
    · rw [if_pos (by omega)]; rfl
theorem bitField_plain (x : Word) (pos len : Nat) : bitField false x pos len = (x.extractLsb' pos len).setWidth 64 := by
  apply BitVec.eq_of_toNat_eq
  simp [bitField, Nat.shiftRight_eq_div_pow]
/-- The bits of an inserted field. -/
theorem putField_bit (pos len : Nat) (x y : Word) (i : Nat) (hi : i < 64) :
    (putField x y pos len).getLsbD i = if pos ≤ i ∧ i < pos + len then y.getLsbD (i - pos) else x.getLsbD i := by
  have hm : (BitVec.ofNat 64 ((2 ^ len - 1) * 2 ^ pos)).getLsbD i = decide (pos ≤ i ∧ i < pos + len) := by
    rw [BitVec.getLsbD_ofNat, Nat.mul_comm, Nat.testBit_two_pow_mul, Nat.testBit_two_pow_sub_one]
    by_cases h1 : pos ≤ i <;> by_cases h2 : i < pos + len <;> simp [hi, h1, h2] <;> omega
  simp only [putField, BitVec.getLsbD_or, BitVec.getLsbD_and, BitVec.getLsbD_not, hm, BitVec.getLsbD_shiftLeft, hi]
  by_cases h : pos ≤ i ∧ i < pos + len
  · have : ¬ i < pos := by omega
    simp [h, this]
  · simp [h]
theorem leadingZeros_le (x : Nat) : leadingZeros x ≤ 64 := by
  unfold leadingZeros
  cases h : (List.range 64).find? fun i => x.testBit (63 - i) with
  | none => simp
  | some k => have := List.mem_of_find?_eq_some h; simp at this; simp; omega
theorem leadingZeros_clear (x i : Nat) (hi : i < 64) (h : 64 - leadingZeros x ≤ i) : x.testBit i = false := by
  unfold leadingZeros at h
  cases e : (List.range 64).find? fun i => x.testBit (63 - i) with
  | none =>
    have := List.find?_eq_none.mp e (63 - i) (by simp; omega)
    have e2 : 63 - (63 - i) = i := by omega
    simpa [e2] using this
  | some k =>
    rw [e] at h; simp at h
    obtain ⟨-, as, bs, hl, hn⟩ := List.find?_eq_some_iff_append.mp e
    have hk : k = as.length := by
      have := congrArg (fun l => l[as.length]?) hl
      simp at this
      by_cases hh : as.length < 64
      · rw [List.getElem?_range hh] at this; simpa using this.symm
      · have hlen := congrArg List.length hl; simp at hlen; omega
    have hm : 63 - i ∈ as := by
      have : (63 - i) < as.length := by omega
      have h2 := congrArg (fun l => l[63 - i]?) hl
      simp [List.getElem?_append_left this] at h2
      rw [List.getElem?_range (by omega), List.getElem?_eq_getElem this] at h2
      simp at h2
      rw [h2]; exact List.getElem_mem _
    have := hn _ hm
    have e2 : 63 - (63 - i) = i := by omega
    simpa [e2] using this
theorem leadingZeros_set (x : Nat) (h : leadingZeros x < 64) : x.testBit (63 - leadingZeros x) = true := by
  unfold leadingZeros at h ⊢
  cases e : (List.range 64).find? fun i => x.testBit (63 - i) with
  | none => rw [e] at h; simp at h
  | some k => simpa using List.find?_some e
theorem lowestOne_le (x n : Nat) : lowestOne x n ≤ n := by
  unfold lowestOne
  cases h : (List.range n).find? fun i => x.testBit i with
  | none => simp
  | some k => have := List.mem_of_find?_eq_some h; simp at this; simp; omega
theorem lowestOne_clear (x n i : Nat) (h : i < lowestOne x n) : x.testBit i = false := by
  have hle := lowestOne_le x n
  unfold lowestOne at h hle
  cases e : (List.range n).find? fun i => x.testBit i with
  | none =>
    rw [e] at h hle; simp at h
    simpa using List.find?_eq_none.mp e i (by simpa using h)
  | some k =>
    rw [e] at h; simp at h
    obtain ⟨-, as, bs, hl, hn⟩ := List.find?_eq_some_iff_append.mp e
    have hlen := congrArg List.length hl
    simp at hlen
    have hk : k = as.length := by
      have := congrArg (fun l => l[as.length]?) hl
      simp at this
      rw [List.getElem?_range (by omega)] at this; simpa using this.symm
    have hm : i ∈ as := by
      have hi : i < as.length := by omega
      have h2 := congrArg (fun l => l[i]?) hl
      simp [List.getElem?_append_left hi] at h2
      rw [List.getElem?_range (by omega), List.getElem?_eq_getElem hi] at h2
      simp at h2
      rw [h2]; exact List.getElem_mem _
    simpa using hn _ hm
theorem lowestOne_set (x n : Nat) (h : lowestOne x n < n) : x.testBit (lowestOne x n) = true := by
  unfold lowestOne at h ⊢
  cases e : (List.range n).find? fun i => x.testBit i with
  | none => rw [e] at h; simp at h
  | some k => simpa using List.find?_some e
/-- Quotients and remainders (R355, R393). -/
theorem divWord_unsigned (x y : Word) : divWord true x y = if y = 0 then BitVec.allOnes 64 else x / y := by
  unfold divWord
  split
  · rfl
  · apply BitVec.eq_of_toNat_eq
    have : x.toNat / y.toNat < 2 ^ 64 := Nat.lt_of_le_of_lt (Nat.div_le_self _ _) x.isLt
    simp [Nat.mod_eq_of_lt this]
    all_goals exact this
theorem divWord_signed (x y : Word) : divWord false x y = if y = 0 then BitVec.allOnes 64 else x.sdiv y := by
  unfold divWord
  split
  · rfl
  · apply BitVec.eq_of_toInt_eq
    rw [BitVec.toInt_sdiv]; simp
theorem remWord_unsigned (x y : Word) : remWord true x y = if y = 0 then x else x % y := by
  unfold remWord
  split
  · rfl
  · apply BitVec.eq_of_toNat_eq
    have : x.toNat % y.toNat < 2 ^ 64 := Nat.lt_of_le_of_lt (Nat.mod_le _ _) x.isLt
    simp [Nat.mod_eq_of_lt this]
    all_goals exact this
theorem remWord_signed (x y : Word) : remWord false x y = if y = 0 then x else x.srem y := by
  unfold remWord
  split
  · rfl
  · apply BitVec.eq_of_toInt_eq
    rw [BitVec.toInt_srem]
    simp only [Bool.false_eq_true, if_false, BitVec.toInt_ofInt]
    rw [← BitVec.toInt_srem, BitVec.toInt_bmod_cancel]
/-- The mask that a comparison writes (R416). -/
theorem maskOfLanes_eq {n : Nat} {on : Nat → Bool} {z : Bool} {old m : MaskW} {f : Nat → Bool} (h : LaneBits n on z old f m) :
    maskOfLanes n on z old f = m := by
  have key : ∀ (l : List Nat) (acc : MaskW) (g : Nat → Bool) (i : Nat), i < 128 →
      (l.foldl (fun acc i => if g i then acc ||| (1#128 <<< i) else acc) acc).getLsbD i = (acc.getLsbD i || (decide (i ∈ l) && g i)) := by
    intro l
    induction l with
    | nil => intro acc g i hi; simp
    | cons a t ih =>
      intro acc g i hi
      simp only [List.foldl_cons]
      rw [ih _ _ _ hi]
      by_cases e : i = a
      · subst e
        cases hg : g i <;> simp [hi]
      · cases hg : g a with
        | false => simp [e]
        | true =>
          have : (1#128 <<< a).getLsbD i = false := by
            simp [hi]
            intro h1
            omega
          rw [if_pos rfl, BitVec.getLsbD_or, this]
          simp [e]
  apply BitVec.eq_of_getLsbD_eq
  intro i hi
  unfold maskOfLanes
  rw [key _ _ _ _ hi, h i hi]
  by_cases hn : i < n <;> cases on i <;> cases z <;> simp [hn]

end Sys2Proof.Machine
end

