-- ==== Sys2Proof/Laws/Words.lean ====
section
/-! SUPPORT. Sys2Proof/Laws/Words.lean: the fields that a packed word gives back, and the number that bytes give back. -/
namespace Sys2Proof

theorem leBytes_length (n v : Nat) : (leBytes n v).length = n := by
  induction n generalizing v with
  | zero => rfl
  | succ n ih => simp [leBytes, ih]
/-- The number of the bytes of a number is its low part. -/
theorem leNat_leBytes (n v : Nat) : leNat (leBytes n v) = v % 256 ^ n := by
  induction n generalizing v with
  | zero => simp [leBytes, leNat, Nat.mod_one]
  | succ n ih =>
    simp only [leBytes, leNat, ih, BitVec.toNat_ofNat]
    show v % 256 + 256 * (v / 256 % 256 ^ n) = _
    rw [show 256 ^ (n + 1) = 256 * 256 ^ n from by rw [Nat.pow_succ, Nat.mul_comm], Nat.mod_mul]

theorem FA.unpack_pack (f : FA) : FA.unpack f.pack = f := by
  cases f
  simp only [FA.unpack, FA.pack, FA.mk.injEq]
  exact ⟨(ext_skip _ _ (by decide)).trans (ext_lo _ _),
    (ext_skip _ _ (by decide)).trans ((ext_skip _ _ (by decide)).trans (ext_lo _ _)),
    (ext_skip _ _ (by decide)).trans ((ext_skip _ _ (by decide)).trans ((ext_skip _ _ (by decide)).trans (ext_lo _ _))),
    (ext_skip _ _ (by decide)).trans ((ext_skip _ _ (by decide)).trans ((ext_skip _ _ (by decide)).trans ((ext_skip _ _ (by decide)).trans (ext_lo _ _)))),
    (ext_skip _ _ (by decide)).trans ((ext_skip _ _ (by decide)).trans ((ext_skip _ _ (by decide)).trans ((ext_skip _ _ (by decide)).trans ((ext_skip _ _ (by decide)).trans (ext_lo _ _))))),
    (ext_skip _ _ (by decide)).trans ((ext_skip _ _ (by decide)).trans ((ext_skip _ _ (by decide)).trans ((ext_skip _ _ (by decide)).trans ((ext_skip _ _ (by decide)).trans ((ext_skip _ _ (by decide)).trans (ext_lo _ _)))))),
    (ext_skip _ _ (by decide)).trans ((ext_skip _ _ (by decide)).trans ((ext_skip _ _ (by decide)).trans ((ext_skip _ _ (by decide)).trans ((ext_skip _ _ (by decide)).trans ((ext_skip _ _ (by decide)).trans ((ext_skip _ _ (by decide)).trans (ext_lo _ _))))))),
    (ext_skip _ _ (by decide)).trans ((ext_skip _ _ (by decide)).trans ((ext_skip _ _ (by decide)).trans ((ext_skip _ _ (by decide)).trans ((ext_skip _ _ (by decide)).trans ((ext_skip _ _ (by decide)).trans ((ext_skip _ _ (by decide)).trans ((ext_skip _ _ (by decide)).trans (ext_lo _ _)))))))),
    (ext_skip _ _ (by decide)).trans ((ext_skip _ _ (by decide)).trans ((ext_skip _ _ (by decide)).trans ((ext_skip _ _ (by decide)).trans ((ext_skip _ _ (by decide)).trans ((ext_skip _ _ (by decide)).trans ((ext_skip _ _ (by decide)).trans ((ext_skip _ _ (by decide)).trans ((ext_skip _ _ (by decide)).trans (ext_lo _ _))))))))),
    (ext_skip _ _ (by decide)).trans ((ext_skip _ _ (by decide)).trans ((ext_skip _ _ (by decide)).trans ((ext_skip _ _ (by decide)).trans ((ext_skip _ _ (by decide)).trans ((ext_skip _ _ (by decide)).trans ((ext_skip _ _ (by decide)).trans ((ext_skip _ _ (by decide)).trans ((ext_skip _ _ (by decide)).trans ((ext_skip _ _ (by decide)).trans (ext_all _))))))))))⟩
theorem FA.pack_low (f : FA) : f.pack.extractLsb' 0 2 = 0#2 := ext_lo _ _
theorem FA.pack_op (f : FA) : f.pack.extractLsb' 2 8 = f.op := by
  have := congrArg FA.op (FA.unpack_pack f)
  exact this
theorem FI.unpack_pack (f : FI) : FI.unpack f.pack = f := by
  cases f
  simp only [FI.unpack, FI.pack, FI.mk.injEq]
  exact ⟨(ext_skip _ _ (by decide)).trans (ext_lo _ _),
    (ext_skip _ _ (by decide)).trans ((ext_skip _ _ (by decide)).trans (ext_lo _ _)),
    (ext_skip _ _ (by decide)).trans ((ext_skip _ _ (by decide)).trans ((ext_skip _ _ (by decide)).trans (ext_lo _ _))),
    (ext_skip _ _ (by decide)).trans ((ext_skip _ _ (by decide)).trans ((ext_skip _ _ (by decide)).trans ((ext_skip _ _ (by decide)).trans (ext_lo _ _)))),
    (ext_skip _ _ (by decide)).trans ((ext_skip _ _ (by decide)).trans ((ext_skip _ _ (by decide)).trans ((ext_skip _ _ (by decide)).trans ((ext_skip _ _ (by decide)).trans (ext_all _)))))⟩
theorem FI.pack_low (f : FI) : f.pack.extractLsb' 0 2 = 0#2 := ext_lo _ _
theorem FI.pack_op (f : FI) : f.pack.extractLsb' 2 8 = f.op := by
  have := congrArg FI.op (FI.unpack_pack f)
  exact this
theorem FB.unpack_pack (f : FB) : FB.unpack f.pack = f := by
  cases f
  simp only [FB.unpack, FB.pack, FB.mk.injEq]
  exact ⟨(ext_skip _ _ (by decide)).trans (ext_lo _ _),
    (ext_skip _ _ (by decide)).trans ((ext_skip _ _ (by decide)).trans (ext_lo _ _)),
    (ext_skip _ _ (by decide)).trans ((ext_skip _ _ (by decide)).trans ((ext_skip _ _ (by decide)).trans (ext_lo _ _))),
    (ext_skip _ _ (by decide)).trans ((ext_skip _ _ (by decide)).trans ((ext_skip _ _ (by decide)).trans ((ext_skip _ _ (by decide)).trans (ext_lo _ _)))),
    (ext_skip _ _ (by decide)).trans ((ext_skip _ _ (by decide)).trans ((ext_skip _ _ (by decide)).trans ((ext_skip _ _ (by decide)).trans ((ext_skip _ _ (by decide)).trans (ext_lo _ _))))),
    (ext_skip _ _ (by decide)).trans ((ext_skip _ _ (by decide)).trans ((ext_skip _ _ (by decide)).trans ((ext_skip _ _ (by decide)).trans ((ext_skip _ _ (by decide)).trans ((ext_skip _ _ (by decide)).trans (ext_all _))))))⟩
theorem FB.pack_low (f : FB) : f.pack.extractLsb' 0 2 = 0#2 := ext_lo _ _
theorem FB.pack_op (f : FB) : f.pack.extractLsb' 2 8 = f.op := by
  have := congrArg FB.op (FB.unpack_pack f)
  exact this
theorem FL.unpack_pack (f : FL) : FL.unpack f.pack = f := by
  cases f
  simp only [FL.unpack, FL.pack, FL.mk.injEq]
  exact ⟨(ext_skip _ _ (by decide)).trans (ext_lo _ _),
    (ext_skip _ _ (by decide)).trans ((ext_skip _ _ (by decide)).trans (ext_lo _ _)),
    (ext_skip _ _ (by decide)).trans ((ext_skip _ _ (by decide)).trans ((ext_skip _ _ (by decide)).trans (ext_lo _ _))),
    (ext_skip _ _ (by decide)).trans ((ext_skip _ _ (by decide)).trans ((ext_skip _ _ (by decide)).trans ((ext_skip _ _ (by decide)).trans (ext_lo _ _)))),
    (ext_skip _ _ (by decide)).trans ((ext_skip _ _ (by decide)).trans ((ext_skip _ _ (by decide)).trans ((ext_skip _ _ (by decide)).trans ((ext_skip _ _ (by decide)).trans (ext_lo _ _))))),
    (ext_skip _ _ (by decide)).trans ((ext_skip _ _ (by decide)).trans ((ext_skip _ _ (by decide)).trans ((ext_skip _ _ (by decide)).trans ((ext_skip _ _ (by decide)).trans ((ext_skip _ _ (by decide)).trans (ext_lo _ _)))))),
    (ext_skip _ _ (by decide)).trans ((ext_skip _ _ (by decide)).trans ((ext_skip _ _ (by decide)).trans ((ext_skip _ _ (by decide)).trans ((ext_skip _ _ (by decide)).trans ((ext_skip _ _ (by decide)).trans ((ext_skip _ _ (by decide)).trans (ext_lo _ _))))))),
    (ext_skip _ _ (by decide)).trans ((ext_skip _ _ (by decide)).trans ((ext_skip _ _ (by decide)).trans ((ext_skip _ _ (by decide)).trans ((ext_skip _ _ (by decide)).trans ((ext_skip _ _ (by decide)).trans ((ext_skip _ _ (by decide)).trans ((ext_skip _ _ (by decide)).trans (ext_lo _ _)))))))),
    (ext_skip _ _ (by decide)).trans ((ext_skip _ _ (by decide)).trans ((ext_skip _ _ (by decide)).trans ((ext_skip _ _ (by decide)).trans ((ext_skip _ _ (by decide)).trans ((ext_skip _ _ (by decide)).trans ((ext_skip _ _ (by decide)).trans ((ext_skip _ _ (by decide)).trans ((ext_skip _ _ (by decide)).trans (ext_lo _ _))))))))),
    (ext_skip _ _ (by decide)).trans ((ext_skip _ _ (by decide)).trans ((ext_skip _ _ (by decide)).trans ((ext_skip _ _ (by decide)).trans ((ext_skip _ _ (by decide)).trans ((ext_skip _ _ (by decide)).trans ((ext_skip _ _ (by decide)).trans ((ext_skip _ _ (by decide)).trans ((ext_skip _ _ (by decide)).trans ((ext_skip _ _ (by decide)).trans (ext_lo _ _)))))))))),
    (ext_skip _ _ (by decide)).trans ((ext_skip _ _ (by decide)).trans ((ext_skip _ _ (by decide)).trans ((ext_skip _ _ (by decide)).trans ((ext_skip _ _ (by decide)).trans ((ext_skip _ _ (by decide)).trans ((ext_skip _ _ (by decide)).trans ((ext_skip _ _ (by decide)).trans ((ext_skip _ _ (by decide)).trans ((ext_skip _ _ (by decide)).trans ((ext_skip _ _ (by decide)).trans (ext_all _)))))))))))⟩
theorem FL.pack_low (f : FL) : f.pack.extractLsb' 0 2 = 1#2 := ext_lo _ _
theorem FL.pack_op (f : FL) : f.pack.extractLsb' 2 8 = f.op := by
  have := congrArg FL.op (FL.unpack_pack f)
  exact this
theorem FX.unpack_pack (f : FX) : FX.unpack f.pack = f := by
  cases f
  simp only [FX.unpack, FX.pack, FX.mk.injEq]
  exact ⟨(ext_skip _ _ (by decide)).trans (ext_lo _ _),
    (ext_skip _ _ (by decide)).trans ((ext_skip _ _ (by decide)).trans (ext_lo _ _)),
    (ext_skip _ _ (by decide)).trans ((ext_skip _ _ (by decide)).trans ((ext_skip _ _ (by decide)).trans (ext_lo _ _))),
    (ext_skip _ _ (by decide)).trans ((ext_skip _ _ (by decide)).trans ((ext_skip _ _ (by decide)).trans ((ext_skip _ _ (by decide)).trans (ext_all _))))⟩
theorem FX.pack_low (f : FX) : f.pack.extractLsb' 0 2 = 1#2 := ext_lo _ _
theorem FX.pack_op (f : FX) : f.pack.extractLsb' 2 8 = f.op := by
  have := congrArg FX.op (FX.unpack_pack f)
  exact this
theorem FM.unpack_pack (f : FM) : FM.unpack f.pack = f := by
  cases f
  simp only [FM.unpack, FM.pack, FM.mk.injEq]
  exact ⟨(ext_skip _ _ (by decide)).trans (ext_lo _ _),
    (ext_skip _ _ (by decide)).trans ((ext_skip _ _ (by decide)).trans (ext_lo _ _)),
    (ext_skip _ _ (by decide)).trans ((ext_skip _ _ (by decide)).trans ((ext_skip _ _ (by decide)).trans (ext_lo _ _))),
    (ext_skip _ _ (by decide)).trans ((ext_skip _ _ (by decide)).trans ((ext_skip _ _ (by decide)).trans ((ext_skip _ _ (by decide)).trans (ext_lo _ _)))),
    (ext_skip _ _ (by decide)).trans ((ext_skip _ _ (by decide)).trans ((ext_skip _ _ (by decide)).trans ((ext_skip _ _ (by decide)).trans ((ext_skip _ _ (by decide)).trans (ext_lo _ _))))),
    (ext_skip _ _ (by decide)).trans ((ext_skip _ _ (by decide)).trans ((ext_skip _ _ (by decide)).trans ((ext_skip _ _ (by decide)).trans ((ext_skip _ _ (by decide)).trans ((ext_skip _ _ (by decide)).trans (ext_lo _ _)))))),
    (ext_skip _ _ (by decide)).trans ((ext_skip _ _ (by decide)).trans ((ext_skip _ _ (by decide)).trans ((ext_skip _ _ (by decide)).trans ((ext_skip _ _ (by decide)).trans ((ext_skip _ _ (by decide)).trans ((ext_skip _ _ (by decide)).trans (ext_lo _ _))))))),
    (ext_skip _ _ (by decide)).trans ((ext_skip _ _ (by decide)).trans ((ext_skip _ _ (by decide)).trans ((ext_skip _ _ (by decide)).trans ((ext_skip _ _ (by decide)).trans ((ext_skip _ _ (by decide)).trans ((ext_skip _ _ (by decide)).trans ((ext_skip _ _ (by decide)).trans (ext_lo _ _)))))))),
    (ext_skip _ _ (by decide)).trans ((ext_skip _ _ (by decide)).trans ((ext_skip _ _ (by decide)).trans ((ext_skip _ _ (by decide)).trans ((ext_skip _ _ (by decide)).trans ((ext_skip _ _ (by decide)).trans ((ext_skip _ _ (by decide)).trans ((ext_skip _ _ (by decide)).trans ((ext_skip _ _ (by decide)).trans (ext_lo _ _))))))))),
    (ext_skip _ _ (by decide)).trans ((ext_skip _ _ (by decide)).trans ((ext_skip _ _ (by decide)).trans ((ext_skip _ _ (by decide)).trans ((ext_skip _ _ (by decide)).trans ((ext_skip _ _ (by decide)).trans ((ext_skip _ _ (by decide)).trans ((ext_skip _ _ (by decide)).trans ((ext_skip _ _ (by decide)).trans ((ext_skip _ _ (by decide)).trans (ext_lo _ _)))))))))),
    (ext_skip _ _ (by decide)).trans ((ext_skip _ _ (by decide)).trans ((ext_skip _ _ (by decide)).trans ((ext_skip _ _ (by decide)).trans ((ext_skip _ _ (by decide)).trans ((ext_skip _ _ (by decide)).trans ((ext_skip _ _ (by decide)).trans ((ext_skip _ _ (by decide)).trans ((ext_skip _ _ (by decide)).trans ((ext_skip _ _ (by decide)).trans ((ext_skip _ _ (by decide)).trans (ext_lo _ _))))))))))),
    (ext_skip _ _ (by decide)).trans ((ext_skip _ _ (by decide)).trans ((ext_skip _ _ (by decide)).trans ((ext_skip _ _ (by decide)).trans ((ext_skip _ _ (by decide)).trans ((ext_skip _ _ (by decide)).trans ((ext_skip _ _ (by decide)).trans ((ext_skip _ _ (by decide)).trans ((ext_skip _ _ (by decide)).trans ((ext_skip _ _ (by decide)).trans ((ext_skip _ _ (by decide)).trans ((ext_skip _ _ (by decide)).trans (ext_lo _ _)))))))))))),
    (ext_skip _ _ (by decide)).trans ((ext_skip _ _ (by decide)).trans ((ext_skip _ _ (by decide)).trans ((ext_skip _ _ (by decide)).trans ((ext_skip _ _ (by decide)).trans ((ext_skip _ _ (by decide)).trans ((ext_skip _ _ (by decide)).trans ((ext_skip _ _ (by decide)).trans ((ext_skip _ _ (by decide)).trans ((ext_skip _ _ (by decide)).trans ((ext_skip _ _ (by decide)).trans ((ext_skip _ _ (by decide)).trans ((ext_skip _ _ (by decide)).trans (ext_lo _ _))))))))))))),
    (ext_skip _ _ (by decide)).trans ((ext_skip _ _ (by decide)).trans ((ext_skip _ _ (by decide)).trans ((ext_skip _ _ (by decide)).trans ((ext_skip _ _ (by decide)).trans ((ext_skip _ _ (by decide)).trans ((ext_skip _ _ (by decide)).trans ((ext_skip _ _ (by decide)).trans ((ext_skip _ _ (by decide)).trans ((ext_skip _ _ (by decide)).trans ((ext_skip _ _ (by decide)).trans ((ext_skip _ _ (by decide)).trans ((ext_skip _ _ (by decide)).trans ((ext_skip _ _ (by decide)).trans (ext_lo _ _)))))))))))))),
    (ext_skip _ _ (by decide)).trans ((ext_skip _ _ (by decide)).trans ((ext_skip _ _ (by decide)).trans ((ext_skip _ _ (by decide)).trans ((ext_skip _ _ (by decide)).trans ((ext_skip _ _ (by decide)).trans ((ext_skip _ _ (by decide)).trans ((ext_skip _ _ (by decide)).trans ((ext_skip _ _ (by decide)).trans ((ext_skip _ _ (by decide)).trans ((ext_skip _ _ (by decide)).trans ((ext_skip _ _ (by decide)).trans ((ext_skip _ _ (by decide)).trans ((ext_skip _ _ (by decide)).trans ((ext_skip _ _ (by decide)).trans (ext_lo _ _))))))))))))))),
    (ext_skip _ _ (by decide)).trans ((ext_skip _ _ (by decide)).trans ((ext_skip _ _ (by decide)).trans ((ext_skip _ _ (by decide)).trans ((ext_skip _ _ (by decide)).trans ((ext_skip _ _ (by decide)).trans ((ext_skip _ _ (by decide)).trans ((ext_skip _ _ (by decide)).trans ((ext_skip _ _ (by decide)).trans ((ext_skip _ _ (by decide)).trans ((ext_skip _ _ (by decide)).trans ((ext_skip _ _ (by decide)).trans ((ext_skip _ _ (by decide)).trans ((ext_skip _ _ (by decide)).trans ((ext_skip _ _ (by decide)).trans ((ext_skip _ _ (by decide)).trans (ext_all _))))))))))))))))⟩
theorem FM.pack_low (f : FM) : f.pack.extractLsb' 0 2 = 2#2 := ext_lo _ _
theorem FM.pack_op (f : FM) : f.pack.extractLsb' 2 8 = f.op := by
  have := congrArg FM.op (FM.unpack_pack f)
  exact this
theorem FE.unpack_pack (f : FE) : FE.unpack f.pack = f := by
  cases f
  simp only [FE.unpack, FE.pack, FE.mk.injEq]
  exact ⟨(ext_skip _ _ (by decide)).trans (ext_lo _ _),
    (ext_skip _ _ (by decide)).trans ((ext_skip _ _ (by decide)).trans (ext_lo _ _)),
    (ext_skip _ _ (by decide)).trans ((ext_skip _ _ (by decide)).trans ((ext_skip _ _ (by decide)).trans (ext_lo _ _))),
    (ext_skip _ _ (by decide)).trans ((ext_skip _ _ (by decide)).trans ((ext_skip _ _ (by decide)).trans ((ext_skip _ _ (by decide)).trans (ext_lo _ _)))),
    (ext_skip _ _ (by decide)).trans ((ext_skip _ _ (by decide)).trans ((ext_skip _ _ (by decide)).trans ((ext_skip _ _ (by decide)).trans ((ext_skip _ _ (by decide)).trans (ext_lo _ _))))),
    (ext_skip _ _ (by decide)).trans ((ext_skip _ _ (by decide)).trans ((ext_skip _ _ (by decide)).trans ((ext_skip _ _ (by decide)).trans ((ext_skip _ _ (by decide)).trans ((ext_skip _ _ (by decide)).trans (ext_lo _ _)))))),
    (ext_skip _ _ (by decide)).trans ((ext_skip _ _ (by decide)).trans ((ext_skip _ _ (by decide)).trans ((ext_skip _ _ (by decide)).trans ((ext_skip _ _ (by decide)).trans ((ext_skip _ _ (by decide)).trans ((ext_skip _ _ (by decide)).trans (ext_lo _ _))))))),
    (ext_skip _ _ (by decide)).trans ((ext_skip _ _ (by decide)).trans ((ext_skip _ _ (by decide)).trans ((ext_skip _ _ (by decide)).trans ((ext_skip _ _ (by decide)).trans ((ext_skip _ _ (by decide)).trans ((ext_skip _ _ (by decide)).trans ((ext_skip _ _ (by decide)).trans (ext_lo _ _)))))))),
    (ext_skip _ _ (by decide)).trans ((ext_skip _ _ (by decide)).trans ((ext_skip _ _ (by decide)).trans ((ext_skip _ _ (by decide)).trans ((ext_skip _ _ (by decide)).trans ((ext_skip _ _ (by decide)).trans ((ext_skip _ _ (by decide)).trans ((ext_skip _ _ (by decide)).trans ((ext_skip _ _ (by decide)).trans (ext_lo _ _))))))))),
    (ext_skip _ _ (by decide)).trans ((ext_skip _ _ (by decide)).trans ((ext_skip _ _ (by decide)).trans ((ext_skip _ _ (by decide)).trans ((ext_skip _ _ (by decide)).trans ((ext_skip _ _ (by decide)).trans ((ext_skip _ _ (by decide)).trans ((ext_skip _ _ (by decide)).trans ((ext_skip _ _ (by decide)).trans ((ext_skip _ _ (by decide)).trans (ext_all _))))))))))⟩
theorem FE.pack_low (f : FE) : f.pack.extractLsb' 0 2 = 2#2 := ext_lo _ _
theorem FE.pack_op (f : FE) : f.pack.extractLsb' 2 8 = f.op := by
  have := congrArg FE.op (FE.unpack_pack f)
  exact this

/-- The packed bits of a field record. -/
theorem Raw.value_lt (r : Raw) : r.value < 256 ^ r.bytes := by
  cases r <;> exact BitVec.isLt _
theorem rawOf_value (r : Raw) : rawOf r.format r.value = r := by
  cases r <;> simp [rawOf, Raw.format, Raw.value, FA.unpack_pack, FI.unpack_pack, FB.unpack_pack, FL.unpack_pack, FX.unpack_pack,
    FM.unpack_pack, FE.unpack_pack]
theorem Raw.value_op (r : Raw) : opcodeOf r.value = r.op.toNat := by
  cases r with
  | fa f => simpa [opcodeOf, Raw.value, Raw.op, Nat.shiftRight_eq_div_pow] using congrArg BitVec.toNat (FA.pack_op f)
  | fi f => simpa [opcodeOf, Raw.value, Raw.op, Nat.shiftRight_eq_div_pow] using congrArg BitVec.toNat (FI.pack_op f)
  | fb f => simpa [opcodeOf, Raw.value, Raw.op, Nat.shiftRight_eq_div_pow] using congrArg BitVec.toNat (FB.pack_op f)
  | fl f => simpa [opcodeOf, Raw.value, Raw.op, Nat.shiftRight_eq_div_pow] using congrArg BitVec.toNat (FL.pack_op f)
  | fx f => simpa [opcodeOf, Raw.value, Raw.op, Nat.shiftRight_eq_div_pow] using congrArg BitVec.toNat (FX.pack_op f)
  | fm f => simpa [opcodeOf, Raw.value, Raw.op, Nat.shiftRight_eq_div_pow] using congrArg BitVec.toNat (FM.pack_op f)
  | fe f => simpa [opcodeOf, Raw.value, Raw.op, Nat.shiftRight_eq_div_pow] using congrArg BitVec.toNat (FE.pack_op f)
theorem Raw.value_length (r : Raw) : lengthCode (BitVec.ofNat 8 r.value) = some r.bytes := by
  have h : ∀ (w n : Nat) (x : BitVec w) (k : BitVec 2), x.extractLsb' 0 2 = k → (BitVec.ofNat 8 x.toNat).toNat % 4 = k.toNat := by
    intro w n x k h
    have := congrArg BitVec.toNat h
    simp at this
    simp; omega
  cases r with
  | fa f => have := h _ 0 _ _ (FA.pack_low f); simp [lengthCode, Raw.value, Raw.bytes] at this ⊢; simp [this]
  | fi f => have := h _ 0 _ _ (FI.pack_low f); simp [lengthCode, Raw.value, Raw.bytes] at this ⊢; simp [this]
  | fb f => have := h _ 0 _ _ (FB.pack_low f); simp [lengthCode, Raw.value, Raw.bytes] at this ⊢; simp [this]
  | fl f => have := h _ 0 _ _ (FL.pack_low f); simp [lengthCode, Raw.value, Raw.bytes] at this ⊢; simp [this]
  | fx f => have := h _ 0 _ _ (FX.pack_low f); simp [lengthCode, Raw.value, Raw.bytes] at this ⊢; simp [this]
  | fm f => have := h _ 0 _ _ (FM.pack_low f); simp [lengthCode, Raw.value, Raw.bytes] at this ⊢; simp [this]
  | fe f => have := h _ 0 _ _ (FE.pack_low f); simp [lengthCode, Raw.value, Raw.bytes] at this ⊢; simp [this]
theorem leNat_append (a b : List Byte) : leNat (a ++ b) = leNat a + 256 ^ a.length * leNat b := by
  induction a with
  | nil => simp [leNat]
  | cons x t ih => simp [leNat, ih, Nat.pow_succ, Nat.mul_add, Nat.add_assoc, Nat.mul_assoc, Nat.mul_comm]
/-- The fields of a format are in its own bytes. -/
theorem rawOf_low (m : Fm) (v k : Nat) : rawOf m (v + 256 ^ m.bytes * k) = rawOf m v := by
  cases m <;> simp only [rawOf, Fm.bytes] <;> congr 2 <;> apply BitVec.eq_of_toNat_eq <;> simp <;> omega

end Sys2Proof
end

