-- ==== Sys2Proof/Tests/Slice0.lean ====
section
/-! SUPPORT. Sys2Proof/Tests/Slice0.lean: the decoder on words written out from the spec's formats, ill-formed terms, single steps
on small states, and for every statement a state that meets its hypotheses. -/

section
set_option Elab.async false
open Sys2Proof Sys2Proof.Machine

theorem test_decode_integer_1 : ∀ p ∈ ([
    (64, 0xB142400, .add (.s 9) (.s 10) (.s 11)),
    (64, 0xB142404, .sub (.s 9) (.s 10) (.s 11)),
    (64, 0xB142408, .mul (.s 9) (.s 10) (.s 11)),
    (64, 0xB14241C, .and (.s 9) (.s 10) (.s 11)),
    (64, 0xB142420, .or (.s 9) (.s 10) (.s 11)),
    (64, 0xB142424, .xor (.s 9) (.s 10) (.s 11)),
    (64, 0xB142428, .shl (.s 9) (.s 10) (.s 11)),
    (64, 0xB14242C, .shr (.s 9) (.s 10) (.s 11)),
    (64, 0xB142430, .sra (.s 9) (.s 10) (.s 11)),
    (64, 0xB142434, .rot (.s 9) (.s 10) (.s 11)),
    (64, 0x8000B14240C, .mulh true (.s 9) (.s 10) (.s 11))] : List (Nat × Nat × Instr)),
    decodeTableWord p.1 p.2.1 = some p.2.2 := by decide
theorem test_decode_integer_2 : ∀ p ∈ ([
    (64, 0x8000B142414, .div true (.s 9) (.s 10) (.s 11)),
    (64, 0x8000B142418, .rem true (.s 9) (.s 10) (.s 11)),
    (64, 0x8000B142438, .min true (.s 9) (.s 10) (.s 11)),
    (64, 0x8000B14243C, .max true (.s 9) (.s 10) (.s 11)),
    (64, 0x60BC22410, .mad (.s 9) (.q 1) (.s 11) (.s 12)),
    (64, 0x60B14247C, .sel (.s 9) (.s 10) (.s 11) (.s 12)),
    (64, 0x20000B142478, .cmp .ltu (.s 9) (.s 10) (.s 11)),
    (64, 0xCE246C, .clz (.s 9) (.q 7)),
    (64, 0xCE2470, .ctz (.s 9) (.q 7)),
    (64, 0xCE2474, .popc (.s 9) (.q 7))] : List (Nat × Nat × Instr)),
    decodeTableWord p.1 p.2.1 = some p.2.2 := by decide
theorem test_decode_immediate_1 : ∀ p ∈ ([
    (64, 0xFFFFFFFE00142440, .addi (.s 9) (.s 10) 0xFFFFFFFE),
    (64, 0xFFFFFFFE00142444, .andi (.s 9) (.s 10) 0xFFFFFFFE),
    (64, 0xFFFFFFFE00142448, .ori (.s 9) (.s 10) 0xFFFFFFFE),
    (64, 0xFFFFFFFE0014244C, .xori (.s 9) (.s 10) 0xFFFFFFFE),
    (64, 0x3F00142450, .shli (.s 9) (.s 10) 63),
    (64, 0x3F00142454, .shri (.s 9) (.s 10) 63),
    (64, 0x3F00142458, .srai (.s 9) (.s 10) 63),
    (64, 0x640914245C, .cmpi .gtu (.s 9) (.s 10) 100),
    (64, 0x2000018860, .movi (.q 2) 32)] : List (Nat × Nat × Instr)),
    decodeTableWord p.1 p.2.1 = some p.2.2 := by decide
theorem test_decode_immediate_2 : ∀ p ∈ ([
    (64, 0xC0801142464, .bext true (.s 9) (.s 10) 8 12),
    (64, 0x3C0400142468, .bins 9 (.s 10) 4 60),
    (96, 0x123456789ABCDEF0000027C5, .addiFx 9 0x123456789ABCDEF0),
    (96, 0x123456789ABCDEF0000027C9, .andiFx 9 0x123456789ABCDEF0),
    (96, 0x123456789ABCDEF0000027CD, .oriFx 9 0x123456789ABCDEF0),
    (96, 0x123456789ABCDEF0000027D1, .xoriFx 9 0x123456789ABCDEF0),
    (96, 0x123456789ABCDEF0000027C1, .movw 9 0x123456789ABCDEF0),
    (128, 0x10000000000000000001427FE, .cmpiFe .eq 9 10 0x100000000)] : List (Nat × Nat × Instr)),
    decodeTableWord p.1 p.2.1 = some p.2.2 := by decide
theorem test_decode_float : ∀ p ∈ ([
    (64, 0x18000B142480, .faddF32 .rtz true (.s 9) (.s 10) (.s 11)),
    (64, 0x50000B142484, .faddF64 .rsr false (.s 9) (.s 10) (.s 11)),
    (64, 0x18000B142488, .fsubF32 .rtz true (.s 9) (.s 10) (.s 11)),
    (64, 0x50000B14248C, .fsubF64 .rsr false (.s 9) (.s 10) (.s 11)),
    (64, 0x18000B142490, .fmulF32 .rtz true (.s 9) (.s 10) (.s 11)),
    (64, 0x50000B142494, .fmulF64 .rsr false (.s 9) (.s 10) (.s 11)),
    (64, 0x18000B1424A0, .fdivF32 .rtz true (.s 9) (.s 10) (.s 11)),
    (64, 0x50000B1424A4, .fdivF64 .rsr false (.s 9) (.s 10) (.s 11)),
    (64, 0x48060B142498, .ffmaF32 .rna true (.s 9) (.s 10) (.s 11) (.s 12)),
    (64, 0x50060B14249C, .ffmaF64 .rsr false (.s 9) (.s 10) (.s 11) (.s 12)),
    (64, 0x2000001424A8, .fsqrtF32 .rdn false (.s 9) (.s 10)),
    (64, 0x3800001424AC, .fsqrtF64 .rup true (.s 9) (.s 10)),
    (64, 0x400000B1424B0, .fmin .bf16 (.s 9) (.s 10) (.s 11)),
    (64, 0x580000B1424B4, .fmax .f64 (.s 9) (.s 10) (.s 11)),
    (64, 0x520000B1424B8, .fcmp .f32 .uo (.s 9) (.s 10) (.s 11)),
    (64, 0x15008801424BC, .fcvt .i32 .f32 .trap .rtz (.s 9) (.s 10))] : List (Nat × Nat × Instr)),
    decodeTableWord p.1 p.2.1 = some p.2.2 := by decide
theorem test_decode_control_1 : ∀ p ∈ ([
    (64, 0xFFFFFFFD000000C0, .br 0xFFFFFFFD),
    (64, 0x6011424C4, .bcnd .ne 9 10 6),
    (64, 0x60B130CC8, .bmask .all 3 9 6),
    (64, 0x10000000CC, .call 16),
    (64, 0xFFFFFFFD000024DC, .loop 9 0xFFFFFFFD),
    (64, 0x1200D0, .callr 9),
    (64, 0xD4, .ret),
    (64, 0x1200D8, .jr 9),
    (64, 0x1200E0, .halt 9)] : List (Nat × Nat × Instr)),
    decodeTableWord p.1 p.2.1 = some p.2.2 := by decide
theorem test_decode_control_2 : ∀ p ∈ ([
    (64, 0xE4, .nop),
    (64, 0xE8, .yield),
    (64, 0xEC, .wspill),
    (64, 0xF0, .wfill),
    (96, 0xF5, .nopW),
    (128, 0xFA, .nopX),
    (96, 0x10000000000FD, .brAbs 0x10000),
    (96, 0x10000000003D5, .callAbs 0x10000)] : List (Nat × Nat × Instr)),
    decodeTableWord p.1 p.2.1 = some p.2.2 := by decide
theorem test_decode_vector_arithmetic_1 : ∀ p ∈ ([
    (64, 0x2C74022428D00, .vaddI .n16 true ⟨5, true, true⟩ (.v 3) (.v 1) (.v 2)),
    (64, 0x45F4022428D04, .vaddF .bf16 .rsr true ⟨5, true, true⟩ (.v 3) (.v 1) (.v 2)),
    (64, 0x2C74022428D08, .vsubI .n16 true ⟨5, true, true⟩ (.v 3) (.v 1) (.v 2)),
    (64, 0x45F4022428D0C, .vsubF .bf16 .rsr true ⟨5, true, true⟩ (.v 3) (.v 1) (.v 2)),
    (64, 0x2C74022428D10, .vmulI .n16 true ⟨5, true, true⟩ (.v 3) (.v 1) (.v 2)),
    (64, 0x45F4022428D14, .vmulF .bf16 .rsr true ⟨5, true, true⟩ (.v 3) (.v 1) (.v 2)),
    (64, 0x477222428D18, .vfmaI .i8 true ⟨5, true, true⟩ (.v 3) (.v 1) (.v 2) (.q 4)),
    (64, 0x5175222428D1C, .vfmaF .f32 .rtz false ⟨5, true, true⟩ (.v 3) (.v 1) (.v 2) (.v 4)),
    (64, 0x3074022428D20, .vmaxI .n32 ⟨5, true, true⟩ (.v 3) (.v 1) (.v 2)),
    (64, 0x4874022428D24, .vmaxF .f16 ⟨5, true, true⟩ (.v 3) (.v 1) (.v 2)),
    (64, 0x3074022428D28, .vminI .n32 ⟨5, true, true⟩ (.v 3) (.v 1) (.v 2)),
    (64, 0x4874022428D2C, .vminF .f16 ⟨5, true, true⟩ (.v 3) (.v 1) (.v 2))] : List (Nat × Nat × Instr)),
    decodeTableWord p.1 p.2.1 = some p.2.2 := by decide
theorem test_decode_vector_arithmetic_2 : ∀ p ∈ ([
    (64, 0x14F4024470930, .vcmpI .i32 .gtu ⟨5, true, true⟩ 2 (.v 3) (.v 4)),
    (64, 0x52F4024470934, .vcmpF .f32 .ord ⟨5, true, true⟩ 2 (.v 3) (.v 4)),
    (64, 0xC74000428D38, .vabs .i16 true ⟨5, true, true⟩ (.v 3) (.v 1)),
    (64, 0x5074000428D3C, .vneg .f32 false ⟨5, true, true⟩ (.v 3) (.v 1)),
    (64, 0x52F4022428D40, .vdiv .f32 .rdn true ⟨5, true, true⟩ (.v 3) (.v 1) (.v 2)),
    (64, 0x4BF4000428D44, .vsqrt .f16 .rup true ⟨5, true, true⟩ (.v 3) (.v 1)),
    (64, 0x4BF4000428D48, .vrcp .f16 .rup true ⟨5, true, true⟩ (.v 3) (.v 1)),
    (64, 0x4BF4000428D4C, .vrsqrt .f16 .rup true ⟨5, true, true⟩ (.v 3) (.v 1)),
    (64, 0x4BF4000428D50, .vexp2 .f16 .rup true ⟨5, true, true⟩ (.v 3) (.v 1)),
    (64, 0x4BF4000428D54, .vlog2 .f16 .rup true ⟨5, true, true⟩ (.v 3) (.v 1)),
    (64, 0x69F5222428D58, .vdot .e5m2 .rtz true ⟨5, true, true⟩ (.v 3) (.v 1) (.v 2) (.v 4))] : List (Nat × Nat × Instr)),
    decodeTableWord p.1 p.2.1 = some p.2.2 := by decide
theorem test_decode_vector_bits_and_lanes_1 : ∀ p ∈ ([
    (64, 0x874022428D5C, .vand .i16 ⟨5, true, true⟩ (.v 3) (.v 1) (.v 2)),
    (64, 0x874022428D60, .vor .i16 ⟨5, true, true⟩ (.v 3) (.v 1) (.v 2)),
    (64, 0x874022428D64, .vxor .i16 ⟨5, true, true⟩ (.v 3) (.v 1) (.v 2)),
    (64, 0x874022428D68, .vshl .i16 ⟨5, true, true⟩ (.v 3) (.v 1) (.v 2)),
    (64, 0x874022428D6C, .vshr .i16 ⟨5, true, true⟩ (.v 3) (.v 1) (.v 2)),
    (64, 0x874022428D70, .vsra .i16 ⟨5, true, true⟩ (.v 3) (.v 1) (.v 2)),
    (64, 0x3034022428D74, .vsel .n32 ⟨5, true⟩ (.v 3) (.v 1) (.v 2)),
    (64, 0x7074000498578, .vmov .e2m1 ⟨5, true, true⟩ (.q 1) (.v 4)),
    (64, 0x2074000128D7C, .vbcast .n8 ⟨5, true, true⟩ (.v 3) (.s 9)),
    (64, 0x2075222428D80, .vperm .n8 ⟨5, true, true⟩ (.v 3) (.v 1) (.v 2) (.v 4)),
    (96, 0x10203040506070800008FD9, .vbcastImm (.v 3) 0x0102030405060708),
    (64, 0x2834280482584, .vredI .xor .n16 ⟨5, true⟩ (.s 9) (.v 4)),
    (64, 0x54B4000482588, .vredF .sum .f32 .rna true ⟨5, true⟩ (.s 9) (.v 4))] : List (Nat × Nat × Instr)),
    decodeTableWord p.1 p.2.1 = some p.2.2 := by decide
theorem test_decode_vector_bits_and_lanes_2 : ∀ p ∈ ([
    (64, 0x47410048958C, .vscanI .min .i8 true ⟨5, true, true⟩ (.v 5) (.v 4)),
    (64, 0x4874080489590, .vscanF .max .f16 .rne false ⟨5, true, true⟩ (.v 5) (.v 4)),
    (64, 0x3074009428D94, .vslide .n32 ⟨5, true, true⟩ (.v 3) (.v 1) 9),
    (64, 0x28F4022428D98, .vzip true false .n16 ⟨5, true, true⟩ (.v 3) (.v 1) (.v 2)),
    (64, 0x300000A48259C, .vext .n32 (.s 9) (.v 4) 10),
    (64, 0x3604825A0, .vextImm .n32 (.s 9) (.v 4) 3),
    (64, 0x300000A1291A4, .vins .n32 4 (.s 9) 10),
    (64, 0x4C74580428DA8, .vcvtSame .f16 .bf16 .sat .rup 0 ⟨5, true, true⟩ (.v 3) (.v 1)),
    (64, 0x5677000428DAC, .vcvtWide .f32 .e4m3 .ovf .rne 3 ⟨5, true, true⟩ (.v 3) (.v 1)),
    (64, 0x576A80428DB0, .vcvtNarrow .i8 .f32 .trap .rsr 2 ⟨5, true, true⟩ (.v 3) (.v 1)),
    (64, 0x301689489DB4, .vqnt .mx4 .sat .rsr 1 (.v 7) 9 (.v 4)),
    (64, 0x282809489DB8, .vdqnt .mx8e5 .trap 2 (.v 7) (.v 4) 9),
    (64, 0x7400012A1BC, .vrnd ⟨5, true, true⟩ (.v 8) 9)] : List (Nat × Nat × Instr)),
    decodeTableWord p.1 p.2.1 = some p.2.2 := by decide
theorem test_decode_mask_1 : ∀ p ∈ ([
    (64, 0x438505C0, .mand 1 2 3),
    (64, 0x438505C4, .mor 1 2 3),
    (64, 0x438505C8, .mxor 1 2 3),
    (64, 0x98505CC, .mnot 1 2 9),
    (64, 0xA8425D0, .mpopc 9 2 10),
    (64, 0x8425D4, .mfirst 9 2 0),
    (64, 0xA1305D8, .mset 1 9 10),
    (64, 0x80000105DC, .msetN 1 128),
    (64, 0x5305E0, .msetB8 1 9)] : List (Nat × Nat × Instr)),
    decodeTableWord p.1 p.2.1 = some p.2.2 := by decide
theorem test_decode_mask_2 : ∀ p ∈ ([
    (64, 0x5305E4, .msetB16 1 9),
    (64, 0x5305E8, .msetB32 1 9),
    (64, 0x8505EC, .mmov 1 2),
    (64, 0x800008425F0, .mmovS true 9 2),
    (64, 0x7400084A5F4, .mmovB8 ⟨5, true, true⟩ 9 2),
    (64, 0x7400084A5F8, .mmovB16 ⟨5, true, true⟩ 9 2),
    (64, 0x7400084A5FC, .mmovB32 ⟨5, true, true⟩ 9 2),
    (96, 0xFFFF000107DD, .msetLo 1 0xFFFF),
    (96, 0xFFFF000107E1, .msetHi 1 0xFFFF)] : List (Nat × Nat × Instr)),
    decodeTableWord p.1 p.2.1 = some p.2.2 := by decide
theorem test_decode_load_store_1 : ∀ p ∈ ([
    (96, 0xFFFFFFFFFFF00A080B142601, .ld .i16 9 ⟨10, 11, 1, 0xFFFFFFFFFFF0⟩),
    (96, 0xFFFFFFFFFFF086880B142605, .ldOrdered .sc .pod .n64 9 ⟨10, 11, 1, 0xFFFFFFFFFFF0⟩),
    (96, 0xFFFFFFFFFFF000080B142609, .st .n8 9 ⟨10, 11, 1, 0xFFFFFFFFFFF0⟩),
    (96, 0xFFFFFFFFFFF064480B14260D, .stOrdered .rel .panel .n32 9 ⟨10, 11, 1, 0xFFFFFFFFFFF0⟩),
    (96, 0xFFFFFFFFFFF00E0E8B14A611, .vld ⟨5, true⟩ 9 ⟨10, 11, 1, 0xFFFFFFFFFFF0⟩),
    (96, 0xFFFFFFFFFFF04E2E8B14A615, .vldOrdered .acq .chiplet ⟨5, true⟩ 9 ⟨10, 11, 1, 0xFFFFFFFFFFF0⟩),
    (96, 0xFFFFFFFFFFF00E0E8B14A619, .vst ⟨5, true⟩ 9 ⟨10, 11, 1, 0xFFFFFFFFFFF0⟩),
    (96, 0xFFFFFFFFFFF02E8E8B14A61D, .vstOrdered .sc .core ⟨5, true⟩ 9 ⟨10, 11, 1, 0xFFFFFFFFFFF0⟩),
    (96, 0x100021EAC14A621, .vldx .b16 ⟨5, true⟩ 9 ⟨10, 12, 3, 256⟩),
    (96, 0x100003EAC14A625, .vldxOrdered .acq .context .b8 ⟨5, true⟩ 9 ⟨10, 12, 3, 256⟩)] : List (Nat × Nat × Instr)),
    decodeTableWord p.1 p.2.1 = some p.2.2 := by decide
theorem test_decode_load_store_2 : ∀ p ∈ ([
    (96, 0x100041EAC14A629, .vstx .b32 ⟨5, true⟩ 9 ⟨10, 12, 3, 256⟩),
    (96, 0x100825EAC14A62D, .vstxOrdered .rel .pod .b16 ⟨5, true⟩ 9 ⟨10, 12, 3, 256⟩),
    (96, 0xFFFFFFFFFFF0020E8B14A631, .vlds .b16 ⟨5, true⟩ 9 ⟨10, 11, 1, 0xFFFFFFFFFFF0⟩),
    (96, 0xFFFFFFFFFFF0608E8B14A635, .vldsOrdered .sc .panel .b8 ⟨5, true⟩ 9 ⟨10, 11, 1, 0xFFFFFFFFFFF0⟩),
    (96, 0xFFFFFFFFFFF0040E8B14A639, .vsts .b32 ⟨5, true⟩ 9 ⟨10, 11, 1, 0xFFFFFFFFFFF0⟩),
    (96, 0xFFFFFFFFFFF0224E8B14A63D, .vstsOrdered .rel .core .b16 ⟨5, true⟩ 9 ⟨10, 11, 1, 0xFFFFFFFFFFF0⟩),
    (96, 0x3100000000000027E5, .ldAbs 9 0x3100000000),
    (96, 0x3100000000000027E9, .stAbs 9 0x3100000000),
    (96, 0x31000000000000A7ED, .vldAbs 9 0x3100000000),
    (96, 0x31000000000000A7F1, .vstAbs 9 0x3100000000)] : List (Nat × Nat × Instr)),
    decodeTableWord p.1 p.2.1 = some p.2.2 := by decide
theorem test_decode_synchronising : ∀ p ∈ ([
    (96, 0xFFFFFFFFFFF065280B142641, .ldfS .wfse .panel .n32 9 ⟨10, 11, 1, 0xFFFFFFFFFFF0⟩),
    (96, 0xFFFFFFFFFFF02F8E8B14A645, .ldfV .se .core ⟨5, true⟩ 9 ⟨10, 11, 1, 0xFFFFFFFFFFF0⟩),
    (96, 0xFFFFFFFFFFF067480B142649, .stfS .wesf .panel .n64 9 ⟨10, 11, 1, 0xFFFFFFFFFFF0⟩),
    (96, 0xFFFFFFFFFFF08F6E8B14A64D, .stfV .sf .pod ⟨5, true⟩ 9 ⟨10, 11, 1, 0xFFFFFFFFFFF0⟩),
    (96, 0xFFFFFFFFFFF000080B140251, .fset ⟨10, 11, 1, 0xFFFFFFFFFFF0⟩),
    (96, 0xFFFFFFFFFFF000080B140255, .fclr ⟨10, 11, 1, 0xFFFFFFFFFFF0⟩),
    (96, 0x9FFFFFFFFFC84600B142659, .amo32 .cas .ar .pod 9 10 0xFFFFFFFFFC 11),
    (96, 0xA000000001006000B14265D, .amo64 .fadd .plain .context 9 10 16 11),
    (96, 0x60000000020448EAC14A661, .vamo32 .maxu .sc .chiplet ⟨5, true⟩ 9 10 (.v 12) 1 32),
    (96, 0x2062468014A665, .vamo16 .add .rel .panel ⟨5, true⟩ 9 10 .none 0 32),
    (96, 0x712000B142669, .stn .bit2 9 10 11 7),
    (64, 0x118000000026C, .fence .ar .chiplet),
    (96, 0xFFFFFFFFFFF000080B140271, .pref ⟨10, 11, 1, 0xFFFFFFFFFFF0⟩),
    (96, 0x4000000A100275, .prefRange 8 64 10),
    (96, 0x4060000A102679, .cwbr .panel 9 8 64 10),
    (96, 0x4080000A10267D, .cinvr .pod 9 8 64 10)] : List (Nat × Nat × Instr)),
    decodeTableWord p.1 p.2.1 = some p.2.2 := by decide
theorem test_decode_ports_and_groups_1 : ∀ p ∈ ([
    (64, 0x65142680, .pbind 9 5 10),
    (64, 0x65000284, .pfree 5),
    (64, 0x65002688, .pstat 9 5),
    (64, 0x6500028C, .pclose 5),
    (64, 0x2880065000290, .pmark 5 (some 17)),
    (64, 0x58A002694, .start 9 10 11),
    (64, 0x60B142698, .spawn 9 10 11 12),
    (64, 0x362E9C, .join 11 27),
    (128, 0x8003000000000A1202A2, .bar 9 10 0x8003),
    (64, 0x26A4, .follow 9),
    (64, 0x2A8, .leave),
    (64, 0x1426AC, .task 9 10),
    (64, 0x2B0, .tdone)] : List (Nat × Nat × Instr)),
    decodeTableWord p.1 p.2.1 = some p.2.2 := by decide
theorem test_decode_ports_and_groups_2 : ∀ p ∈ ([
    (64, 0x1026B4, .ckpt 9 8),
    (64, 0x2B8, .park),
    (64, 0x92602BC, .wake 19 9),
    (64, 0x96C0, .hold 5),
    (64, 0x30000002C4, .holdSet 0x30),
    (64, 0x96C8, .hclr 5),
    (128, 0xA20020158A1202CE, .depvK true 9 10 11 (some 17)),
    (64, 0x8158A1202D0, .depv true 9 10 11),
    (128, 0x58A1202D6, .depsK false 9 10 11 none),
    (64, 0x58A1202D8, .deps false 9 10 11),
    (128, 0x1000000000005800027F6, .startFe 9 11 0x10000),
    (128, 0x1000000000005801427FA, .spawnFe 9 10 11 0x10000)] : List (Nat × Nat × Instr)),
    decodeTableWord p.1 p.2.1 = some p.2.2 := by decide
theorem test_decode_counters : ∀ p ∈ ([
    (128, 0x8A206005091052DE, .post true false 3 20 8 9 10 5),
    (64, 0x4800000012E0, .unpost 4 9),
    (64, 0x2800001202E4, .ctradd 5 9),
    (64, 0x64050002E8, .ctraddImm 5 100),
    (64, 0x2800001202EC, .ctrset 5 9),
    (64, 0x64050002F0, .ctrsetImm 5 100),
    (64, 0x20000000026F4, .ctrget 1 0 9),
    (64, 0x1800002E02F8, .ctrwait 3 23),
    (64, 0x64030002FC, .ctrwaitImm 3 100)] : List (Nat × Nat × Instr)),
    decodeTableWord p.1 p.2.1 = some p.2.2 := by decide
theorem test_decode_porters : ∀ p ∈ ([
    (128, 0x5000A2CEC0060B142702, .cpy ⟨2, true, some 17, 9⟩ 3 6 1 10 11 12 0x5000),
    (128, 0x4000000080A34603460B142706, .cpy2d ⟨2, true, some 17, 9⟩ 1 2 10 11 12 13 0x4000000080),
    (128, 0xA24A03460B14270A, .cpy3d ⟨2, true, some 17, 9⟩ 2 0 10 11 12 13),
    (128, 0x80008000020007A2C203460B14270E, .cpyMc ⟨2, true, some 17, 9⟩ 0 1 10 11 12 13 0x0080008000020007),
    (128, 0x2000060BC62712, .cpyQ ⟨1, false, none, 9⟩ .bf16 3 11 12 0),
    (128, 0x100002083460BC62716, .cpyQ2d ⟨1, false, none, 9⟩ .mx8e4 3 11 12 13 0x100),
    (128, 0x1000A246A0060BC6271A, .cpyPl ⟨2, true, some 17, 9⟩ true 5 (.q 3) 11 12 0x1000),
    (128, 0xABCDA24200060014271E, .cpyFill ⟨2, true, some 17, 9⟩ 10 12 0xABCD),
    (128, 0x10004A24203460B142722, .cpyxG ⟨2, true, some 17, 9⟩ 10 11 12 13 0x10004),
    (128, 0x10004A24203460B142726, .cpyxS ⟨2, true, some 17, 9⟩ 10 11 12 13 0x10004),
    (128, 0x4000000012032A, .chainHead 2 9),
    (128, 0x6000000000032E, .chainApp 3),
    (64, 0x1100000000330, .qfence 2 2),
    (64, 0x80000280334, .qwait 1 20),
    (64, 0x502000338, .qwaitImm 2 5),
    (64, 0x68000000273C, .qstat true true 1 9)] : List (Nat × Nat × Instr)),
    decodeTableWord p.1 p.2.1 = some p.2.2 := by decide
theorem test_decode_matrix : ∀ p ∈ ([
    (128, 0xA32B820D66CE2B42, .mma16Slot0 ⟨some 17, 2, 1, 5, true, true, 0, .f16, .bf16, 3, 2, 6, 7, 10⟩),
    (128, 0xA30BC02D66CE2B46, .mma16Slot1 ⟨some 17, 2, 0, 5, true, true, 2, .bf16, .f16, 3, 2, 6, 7, 10⟩),
    (128, 0xA32B8A4D66CE2B4A, .mma8fSlot0 ⟨some 17, 2, 1, 5, true, true, 0, .mx8e5, .e4m3, 3, 2, 6, 7, 10⟩),
    (128, 0xA30BC86D66CE2B4E, .mma8fSlot1 ⟨some 17, 2, 0, 5, true, true, 2, .mx8e4, .e5m2, 3, 2, 6, 7, 10⟩),
    (128, 0xA32B90ED66CE2B52, .mma8iSlot0 ⟨some 17, 2, 1, 5, true, true, 0, .n8, .i8, 3, 2, 6, 7, 10⟩),
    (128, 0xA30BCF0D66CE2B56, .mma8iSlot1 ⟨some 17, 2, 0, 5, true, true, 2, .i8, .n8, 3, 2, 6, 7, 10⟩),
    (128, 0xA32B92CD66CE2B5A, .mma4Slot0 ⟨some 17, 2, 1, 5, true, true, 0, .e2m1, .mx4, 3, 2, 6, 7, 10⟩),
    (128, 0xA30BCD2D66CE2B5E, .mma4Slot1 ⟨some 17, 2, 0, 5, true, true, 2, .mx4, .e2m1, 3, 2, 6, 7, 10⟩),
    (128, 0x4A6010200000000000000362, .mupl1 0x4A601020),
    (128, 0x4A6010200000000000000366, .mupl2 0x4A601020),
    (128, 0x4A601020000000000000036A, .mupl3 0x4A601020),
    (64, 0x11F4000188B6C, .mchkRow .i32 1 true ⟨5, true, true⟩ 2 12),
    (64, 0x5274000188B70, .mchkCol .f32 2 false ⟨5, true, true⟩ 2 12),
    (64, 0x180374, .mzero 12),
    (64, 0x378, .mzeroSlot0),
    (64, 0x37C, .mzeroSlot1)] : List (Nat × Nat × Instr)),
    decodeTableWord p.1 p.2.1 = some p.2.2 := by decide
theorem test_decode_system : ∀ p ∈ ([
    (64, 0x500004F80, .mfsr 19 5),
    (64, 0x142784, .mfsrReg 9 10),
    (64, 0xA00120388, .mtsr 10 9),
    (64, 0x812038C, .mtsrReg 8 9),
    (64, 0x2101000390, .trap true 33),
    (64, 0x80000120394, .trapReg true 9),
    (64, 0x398, .rett),
    (64, 0xA12039C, .tlbw 9 10),
    (64, 0x58A1203A0, .tlbwRm 9 10 11),
    (64, 0x3A4, .tlbiAll),
    (64, 0x1203A8, .tlbiVa 9),
    (64, 0x1203AC, .tlbiTn 9),
    (64, 0x40002E27B0, .ecall 9 23 0x40),
    (64, 0xB1427B4, .ecallReg 9 10 11),
    (64, 0xB1427B8, .injArm 9 10 11),
    (64, 0x27BC, .injOff 9)] : List (Nat × Nat × Instr)),
    decodeTableWord p.1 p.2.1 = some p.2.2 := by decide


/-! ## Well-formedness: a term for each check that the check refuses -/

theorem test_ill_formed : ∀ i ∈ ([
    .bext true (.s 9) (.s 10) 0 0, .bext true (.s 9) (.s 10) 1 64, .bins 9 (.s 10) 63 2,
    .fmin .i32 (.s 9) (.s 10) (.s 11), .fmax .e4m3 (.s 9) (.s 10) (.s 11), .fcmp .n64 .eq (.s 9) (.s 10) (.s 11), .loop 0 4,
    .vaddI .f32 false ⟨0, false, false⟩ (.v 1) (.v 2) (.v 3), .vfmaI .i64 false ⟨0, false, false⟩ (.v 1) (.v 2) (.v 3) (.v 4),
    .vmulF .i8 .rne false ⟨0, false, false⟩ (.v 1) (.v 2) (.v 3), .vfmaF .f64 .rne false ⟨0, false, false⟩ (.v 1) (.v 2) (.v 3) (.v 4),
    .vmaxI .bf16 ⟨0, false, false⟩ (.v 1) (.v 2) (.v 3), .vminF .i32 ⟨0, false, false⟩ (.v 1) (.v 2) (.v 3),
    .vcmpI .f16 .eq ⟨0, false, false⟩ 1 (.v 2) (.v 3), .vcmpF .n8 .eq ⟨0, false, false⟩ 1 (.v 2) (.v 3),
    .vabs .f32 true ⟨0, false, false⟩ (.v 1) (.v 2), .vneg .e5m2 false ⟨0, false, false⟩ (.v 1) (.v 2),
    .vdiv .i32 .rtz false ⟨0, false, false⟩ (.v 1) (.v 2) (.v 3), .vdiv .i32 .rne true ⟨0, false, false⟩ (.v 1) (.v 2) (.v 3)] : List Instr),
    i.wf = false := by decide
theorem test_ill_formed_vectors : ∀ i ∈ ([
    .vsqrt .i32 .rne false ⟨0, false, false⟩ (.v 1) (.v 2), .vlog2 .f64 .rne false ⟨0, false, false⟩ (.v 1) (.v 2),
    .vdot .f32 .rne false ⟨0, false, false⟩ (.v 1) (.v 2) (.v 3) (.v 4), .vdot .i8 .rsr false ⟨0, false, false⟩ (.v 1) (.v 2) (.v 3) (.v 4),
    .vand .f32 ⟨0, false, false⟩ (.v 1) (.v 2) (.v 3), .vsra .n64 ⟨0, false, false⟩ (.v 1) (.v 2) (.v 3),
    .vsel .f64 ⟨0, false⟩ (.v 1) (.v 2) (.v 3), .vext .i64 (.s 9) (.v 1) 10, .vextImm .n32 (.s 9) (.v 1) 32, .vins .n64 1 (.s 9) 10,
    .vredI .sum .f32 ⟨0, false⟩ (.s 9) (.v 1), .vscanI .sum .bf16 false ⟨0, false, false⟩ (.v 1) (.v 2),
    .vredF .and .f32 .rne false ⟨0, false⟩ (.s 9) (.v 1), .vscanF .max .f32 .rtz false ⟨0, false, false⟩ (.v 1) (.v 2),
    .vcvtSame .f32 .bf16 .ovf .rne 0 ⟨0, false, false⟩ (.v 1) (.v 2), .vcvtSame .f16 .bf16 .ovf .rne 1 ⟨0, false, false⟩ (.v 1) (.v 2),
    .vcvtWide .f32 .bf16 .ovf .rne 2 ⟨0, false, false⟩ (.v 1) (.v 2), .vcvtNarrow .i8 .i64 .ovf .rne 0 ⟨0, false, false⟩ (.v 1) (.v 2),
    .vqnt .bf16 .ovf .rne 0 (.v 1) 9 (.v 2), .vdqnt .e2m1 .ovf 0 (.v 1) (.v 2) 9, .msetN 1 129] : List Instr), i.wf = false := by decide
theorem test_ill_formed_commands : ∀ i ∈ ([
    .ld .n8 9 ⟨10, 0, 1, 0⟩, .fset ⟨10, 0, 3, 0⟩, .stfV .sf .panel ⟨0, false⟩ 9 ⟨10, 0, 2, 0⟩,
    .ldOrdered .rel .panel .n8 9 ⟨10, 0, 0, 0⟩, .stOrdered .acq .panel .n8 9 ⟨10, 0, 0, 0⟩, .vldxOrdered .plain .panel .b8 ⟨0, false⟩ 9 ⟨10, 1, 0, 0⟩,
    .vstxOrdered .ar .panel .b8 ⟨0, false⟩ 9 ⟨10, 1, 0, 0⟩, .vamo32 .cas .plain .context ⟨0, false⟩ 9 10 .none 0 0,
    .vamo16 .add .plain .context ⟨0, false⟩ 9 10 .none 1 0, .fence .plain .panel, .start 9 10 29, .spawnFe 9 10 31 0,
    .post false true 1 9 10 11 0 5, .post false false 1 9 10 11 12 5, .ctrget 1 5 9,
    .cpy ⟨0, false, none, 9⟩ 5 4 0 10 11 12 0, .cpy ⟨0, false, none, 9⟩ 0 0 0 10 11 12 1, .cpy ⟨0, false, none, 9⟩ 3 7 0 10 11 12 0,
    .cpy ⟨0, false, none, 9⟩ 0 0 3 10 11 12 0, .cpy2d ⟨0, false, none, 9⟩ 3 0 10 11 12 13 0, .cpyQ ⟨0, false, none, 9⟩ .mx4 3 11 12 0,
    .cpyQ2d ⟨0, false, none, 9⟩ .bf16 3 11 12 13 0, .cpyPl ⟨0, false, none, 9⟩ false 1 (.s 10) 11 12 0, .cpyPl ⟨0, false, none, 9⟩ false 9 (.s 10) 11 12 0,
    .cpyxG ⟨0, false, none, 9⟩ 10 11 12 13 0x20000, .mupl1 0, .mupl2 0x0000500000001000, .mupl3 0x9000,
    .mma16Slot0 ⟨none, 3, 0, 0, false, false, 0, .bf16, .bf16, 0, 0, 0, 1, 9⟩, .mma8fSlot1 ⟨none, 0, 3, 0, false, false, 0, .e4m3, .e4m3, 0, 0, 0, 1, 9⟩,
    .mma8iSlot0 ⟨none, 0, 0, 9, false, false, 0, .i8, .i8, 0, 0, 0, 1, 9⟩, .mma4Slot0 ⟨none, 0, 1, 0, false, false, 1, .mx4, .mx4, 0, 0, 0, 1, 9⟩,
    .mchkRow .f16 0 false ⟨0, false, false⟩ 1 9, .mchkCol .f32 3 false ⟨0, false, false⟩ 1 9, .mfsr 9 0x018, .mtsr 0 9] : List Instr), i.wf = false := by
  decide
/-- Words that the spec refuses: a register class, a reserved field, a reserved code, a field limit, a wrong length. -/
theorem test_refused_words : ∀ p ∈ ([
    (64, 0x0B802400), (64, 0x8_0B142400), (64, 0x0008_0000_0B14_2400), (64, 0x0000_0041_0014_2450), (64, 0x0000_4101_0014_2464),
    (64, 0x0006_E000_0B14_2480), (64, 0x0000_0006_0F00_00C4), (64, 0x0000_0004_0000_00DC), (96, 0x00A6_2000_14_2605), (96, 0x0014_2603),
    (128, 0x0000_0000_0000_0000_0002_0000_0000_02A2), (64, 0x0000_0018_0000_4F80), (64, 0x0000_0001_0B14_2403)] : List (Nat × Nat)),
    decodeTableWord p.1 p.2 = none := by decide


/-! ## One step each: results from the spec's worked examples -/

/-- Launch 1 of tenant 1 on core 0: every counter and entry its own, a handler table at 0x20000, two MiB of scratchpad, its control
context ready at 0x10000 with s9 = x, s10 = y, s11 = z. -/
def regs (x y z : Word) : State :=
  (({ State.reset with phase := .running } : State).modGroup 0 fun g =>
    { g with launch := 1, tenant := 1, r := 64, part := 8, gmap := 0xFAC688, helpers := 3, cmask := BitVec.allOnes 64,
             emask := BitVec.allOnes 64, trapvec := 0x20000 }).modMe fun c =>
    (((({ c with status := .ready, pc := 0x10000 } : Ctx).setSReg 9 x).setSReg 10 y).setSReg 11 z)
/-- The same with v1, v2, v4 and m1. -/
def vecs (a b c : Line) (m : MaskW) : State :=
  (regs 0 0 0).modMe fun x => ((((x.setV 1 a).setV 2 b).setV 4 c).setMask 1 m)
/-- The state after an instruction. -/
def after (i : Instr) (s : State) : State :=
  match exec i s with
  | .next t => t
  | _ => State.reset
/-- s9 after an instruction. -/
def s9 (i : Instr) (s : State) : Word := (after i s).me.s 9
/-- Lane i of width w of v3 after an instruction. -/
def lane3 (i : Instr) (s : State) (w k : Nat) : Nat := laneNat ((after i s).me.vreg 3) w k
/-- A vector of lanes of width w. -/
def lanes (w : Nat) (xs : List Nat) : Line := ofLanes w (1024 / w) fun i => xs.getD i 0

-- R372, R374
theorem test_mulh : s9 (.mulh false (.s 9) (.s 10) (.s 11)) (regs 0 0xFFFFFFFFFFFFFFFF 2) = 0xFFFFFFFFFFFFFFFF ∧
    s9 (.mulh true (.s 9) (.s 10) (.s 11)) (regs 0 0xFFFFFFFFFFFFFFFF 2) = 1 := by decide +kernel
theorem test_mad : s9 (.mul (.s 9) (.s 10) (.s 11)) (regs 0 0xFFFFFFFFFFFFFFFF 2) = 0xFFFFFFFFFFFFFFFE ∧
    s9 (.mad (.s 9) (.s 10) (.s 11) (.s 11)) (regs 0 0xFFFFFFFFFFFFFFFF 3) = 0 := by decide +kernel
theorem test_min : s9 (.min false (.s 9) (.s 10) (.s 11)) (regs 0 0xFFFFFFFFFFFFFFFF 1) = 0xFFFFFFFFFFFFFFFF ∧
    s9 (.min true (.s 9) (.s 10) (.s 11)) (regs 0 0xFFFFFFFFFFFFFFFF 1) = 1 := by decide +kernel
-- R404, R395, R397
theorem test_sub : s9 (.sub (.s 9) (.s 10) (.s 11)) (regs 0 3 5) = 0xFFFFFFFFFFFFFFFE := by decide +kernel
theorem test_rot : s9 (.rot (.s 9) (.s 10) (.s 11)) (regs 0 0x8000000000000001 4) = 0x18 := by decide +kernel
theorem test_shifts : s9 (.sra (.s 9) (.s 10) (.s 11)) (regs 0 0x8000000000000000 63) = 0xFFFFFFFFFFFFFFFF ∧
    s9 (.shr (.s 9) (.s 10) (.s 11)) (regs 0 0x8000000000000000 63) = 1 := by decide +kernel
-- R393, R355
theorem test_rem : s9 (.rem false (.s 9) (.s 10) (.s 11)) (regs 0 (-7) 2) = -1 ∧ s9 (.rem false (.s 9) (.s 10) (.s 11)) (regs 0 7 (-2)) = 1 ∧
    s9 (.rem true (.s 9) (.s 10) (.s 11)) (regs 0 0xFFFFFFFFFFFFFFF9 2) = 1 ∧ s9 (.rem false (.s 9) (.s 10) (.s 11)) (regs 0 13 0) = 13 := by
  decide +kernel
theorem test_div : s9 (.div false (.s 9) (.s 10) (.s 11)) (regs 0 0x8000000000000000 (-1)) = 0x8000000000000000 ∧
    s9 (.div true (.s 9) (.s 10) (.s 11)) (regs 0 13 0) = 0xFFFFFFFFFFFFFFFF := by decide +kernel
-- R348, R389, R342, R396
theorem test_counts : s9 (.clz (.s 9) (.s 10)) (regs 0 0x10000 0) = 47 ∧ s9 (.ctz (.s 9) (.s 10)) (regs 0 0x10000 0) = 16 ∧
    s9 (.popc (.s 9) (.s 10)) (regs 0 0xF0F00001 0) = 9 ∧ s9 (.clz (.s 9) (.s 10)) (regs 0 0 0) = 64 := by decide +kernel
theorem test_fields : s9 (.bext false (.s 9) (.s 10) 8 12) (regs 0 0xABCD00 0) = 0xBCD ∧
    s9 (.bext true (.s 9) (.s 10) 8 12) (regs 0 0xABCD00 0) = 0xFFFFFFFFFFFFFBCD ∧
    s9 (.bins 9 (.s 10) 4 8) (regs 0xFFFFFFFFFFFFFFFF 0x123 0) = 0xFFFFFFFFFFFFF23F := by decide +kernel
theorem test_sel : s9 (.sel (.s 9) (.s 10) (.s 11) (.s 12)) (regs 0 1 2) = 2 := by decide +kernel
-- R336, R385, R436: the long immediate sets bit 31 alone, the short one is sign-extended
theorem test_immediates : s9 (.oriFx 9 0x80000000) (regs 0 0 0) = 0x80000000 ∧ s9 (.xori (.s 9) (.s 10) 0xFFFFFFFF) (regs 0 0x55 0) = ~~~0x55 ∧
    s9 (.andiFx 9 0xFFFFFFFF) (regs 0x123456789 0 0) = 0x23456789 := by decide +kernel
-- R358: overflow under the modes, a division by minus zero, the root of a negative
theorem test_fadd : s9 (.faddF32 .rne false (.s 9) (.s 10) (.s 11)) (regs 0 0x7F7FFFFF 0x7F7FFFFF) = 0x7F800000 ∧
    s9 (.faddF32 .rne true (.s 9) (.s 10) (.s 11)) (regs 0 0x7F7FFFFF 0x7F7FFFFF) = 0x7F7FFFFF ∧
    s9 (.faddF32 .rtz false (.s 9) (.s 10) (.s 11)) (regs 0 0x7F7FFFFF 0x7F7FFFFF) = 0x7F7FFFFF ∧
    Cells.get 0 (after (.faddF32 .rne true (.s 9) (.s 10) (.s 11)) (regs 0 0x7F7FFFFF 0x7F7FFFFF)).me.ev 0 = 1 := by decide +kernel
theorem test_fdiv : s9 (.fdivF32 .rne true (.s 9) (.s 10) (.s 11)) (regs 0 0x3F800000 0x80000000) = 0xFF800000 ∧
    s9 (.fsqrtF32 .rne false (.s 9) (.s 10)) (regs 0 0xBF800000 0) = 0x7FC00000 := by decide +kernel
-- R361
theorem test_fcvt : s9 (.fcvt .i32 .f32 .ovf .rne (.s 9) (.s 10)) (regs 0 0xC0200000 0) = 0xFFFFFFFFFFFFFFFE ∧
    s9 (.fcvt .i32 .f32 .ovf .rna (.s 9) (.s 10)) (regs 0 0xC0200000 0) = 0xFFFFFFFFFFFFFFFD ∧
    s9 (.fcvt .i32 .f32 .ovf .rne (.s 9) (.s 10)) (regs 0 0x4F32D05E 0) = 0x7FFFFFFF ∧
    s9 (.fcvt .e4m3 .f32 .ovf .rne (.s 9) (.s 10)) (regs 0 0x43F00000 0) = 0x7F ∧
    s9 (.fcvt .e4m3 .f32 .sat .rne (.s 9) (.s 10)) (regs 0 0x43F00000 0) = 0x7E := by decide +kernel
theorem test_fcvt_traps : let t := (after (.fcvt .e4m3 .f32 .trap .rne (.s 9) (.s 10)) (regs 5 0x43F00000 0)).me
    t.cause = 0x800A ∧ t.tval = 0x100 ∧ t.epc = 0x10000 ∧ t.pc = 0x20000 + 32 * 0x0A ∧ t.s 9 = 5 := by decide +kernel
-- R371: the count 0 wraps and is taken; the count 1 falls through
theorem test_loop : (after (.loop 9 0xFFFFFFFD) (regs 0 0 0)).me.pc = 0xFFF4 ∧ s9 (.loop 9 0xFFFFFFFD) (regs 0 0 0) = 0xFFFFFFFFFFFFFFFF ∧
    (after (.loop 9 0xFFFFFFFD) (regs 1 0 0)).me.pc = 0x10008 := by decide +kernel
-- R343: .all over n lanes of m1, and over 128 without a count
theorem test_bmask : (after (.bmask .all 1 9 6) ((regs 4 0 0).modMe fun c => c.setMask 1 0xF)).me.pc = 0x10018 ∧
    (after (.bmask .all 1 0 6) ((regs 4 0 0).modMe fun c => c.setMask 1 0xF)).me.pc = 0x10008 := by decide +kernel
-- R344, R394: the callee's s8 is the caller's s24, s16 reads zero, s31 holds the return address, and ret comes back
theorem test_call : let t := after (.call 16) ((regs 7 0 0).modMe fun c => c.setSReg 24 55)
    t.me.pc = 0x10040 ∧ t.me.wb = 16 ∧ t.me.s 8 = 55 ∧ t.me.s 16 = 0 ∧ t.me.s 31 = 0x10008 := by decide +kernel
theorem test_ret : let t := after .ret (after (.call 16) (regs 7 0 0))
    t.me.pc = 0x10008 ∧ t.me.wb = 0 ∧ t.me.s 9 = 7 := by decide +kernel
theorem test_ret_underflow : (after .ret (regs 0 0 0)).me.cause = 0x8009 ∧ (after .ret (regs 0 0 0)).me.tval = 1 := by decide +kernel
-- R425: shifts of 16-bit lanes
theorem test_vector_shifts : let s := vecs (lanes 16 [0x8004, 0x8004]) (lanes 16 [2, 20]) 0 0
    lane3 (.vshr .n16 ⟨0, false, false⟩ (.v 3) (.v 1) (.v 2)) s 16 0 = 0x2001 ∧
    lane3 (.vsra .n16 ⟨0, false, false⟩ (.v 3) (.v 1) (.v 2)) s 16 0 = 0xE001 ∧
    lane3 (.vshr .n16 ⟨0, false, false⟩ (.v 3) (.v 1) (.v 2)) s 16 1 = 0 ∧
    lane3 (.vsra .n16 ⟨0, false, false⟩ (.v 3) (.v 1) (.v 2)) s 16 1 = 0xFFFF := by decide +kernel
-- R427
theorem test_vzip : let s := vecs (lanes 32 (List.range 32)) (lanes 32 ((List.range 32).map (100 + ·))) 0 0
    (List.range 4).map (lane3 (.vzip true false .n32 ⟨0, false, false⟩ (.v 3) (.v 1) (.v 2)) s 32) = [16, 116, 17, 117] ∧
    (List.range 4).map (lane3 (.vzip false true .n32 ⟨0, false, false⟩ (.v 3) (.v 1) (.v 2)) s 32) = [0, 2, 4, 6] ∧
    lane3 (.vzip false true .n32 ⟨0, false, false⟩ (.v 3) (.v 1) (.v 2)) s 32 16 = 100 := by decide +kernel
theorem test_vslide : let s := (vecs (lanes 32 (List.range 32)) 0 0 0).modMe fun c => c.setSReg 9 (-2)
    (List.range 4).map (lane3 (.vslide .n32 ⟨0, false, false⟩ (.v 3) (.v 1) 9) s 32) = [0, 0, 0, 1] := by decide +kernel
-- R429: prefixes are rounded once, inactive lanes are kept
theorem test_vscan : let s := vecs (lanes 32 [0x4B800000, 0x3F800000, 0x3F800000, 0x3F800000]) 0 0 0xF
    (List.range 5).map (lane3 (.vscanF .sum .f32 .rne false ⟨1, false, false⟩ (.v 3) (.v 1)) s 32)
      = [0x4B800000, 0x4B800000, 0x4B800001, 0x4B800002, 0] ∧
    s9 (.vredF .sum .f32 .rne false ⟨1, false⟩ (.s 9) (.v 1)) s = 0x4B800002 := by decide +kernel
-- R377, R68: sr.cause may not be read at level 0; a write to a read-only register changes nothing
theorem test_mfsr_privilege : (after (.mfsr 9 0x010) (regs 0 0 0)).me.cause = 0x8002 ∧
    after (.mtsr 1 9) (regs 3 0 0) = (regs 3 0 0).past 8 := by decide +kernel
-- R275, R274: a software trap at 0x20, and the return from it
theorem test_trap : let t := after (.trap false 0x21) (regs 0 0 0)
    t.me.cause = 0x8013 ∧ t.me.tval = 0x21 ∧ t.me.epc = 0x10008 ∧ t.me.priv = 1 ∧ t.me.pc = 0x20000 + 32 * 0x13 := by decide +kernel
theorem test_rett : let t := after .rett (after (.trap true 0x21) (regs 0 0 0))
    t.me.pc = 0x10008 ∧ t.me.priv = 0 ∧ t.me.cause = 0x0016 := by decide +kernel
-- R351, R214: a counter is set, added to and read
theorem test_counter : s9 (.ctrget 0 5 9) (after (.ctradd 5 10) (after (.ctrsetImm 5 7) (regs 0 3 0))) = 10 := by decide +kernel
-- R61: a held register raises 0x0C on a write, and a read waits
theorem test_hold : let s := after (.hold 3) (vecs 1 2 0 0)
    (after (.vmov .n32 ⟨0, false, false⟩ (.v 3) (.v 1)) s).me.cause = 0x800C ∧
    (after (.vmov .n32 ⟨0, false, false⟩ (.v 2) (.v 3)) s).me.status = .waiting (.hold 3) ∧
    (after (.hclr 3) s).me.held 3 = false := by decide +kernel
-- R117, R1: a store to the own scratchpad and loads of its bytes, least significant first
theorem test_scratchpad : let s := after (.st .n32 9 ⟨10, 0, 0, 0⟩) (regs 0x80FF1234 0x8000000000000100 0)
    s9 (.ld .n8 9 ⟨10, 0, 0, 0⟩) s = 0x34 ∧ s9 (.ld .i16 9 ⟨10, 0, 0, 2⟩) s = 0xFFFFFFFFFFFF80FF := by decide +kernel
-- R337, R338: compare and swap in the own scratchpad
theorem test_cas : let s := after (.st .n64 9 ⟨10, 0, 0, 0⟩) (regs 7 0x8000000000000100 9)
    let t := after (.amo64 .cas .plain .context 9 10 0 11) s
    t.me.s 9 = 7 ∧ s9 (.ld .n64 9 ⟨10, 0, 0, 0⟩) t = 9 := by decide +kernel
-- R118: a load that takes the line leaves it empty, and a second one waits
theorem test_ldf : let t := after (.ldfS .wfse .panel .n32 9 ⟨10, 0, 0, 0⟩) (regs 0 0x8000000000000100 0)
    t.me.pc = 0x1000C ∧ (after (.ldfS .wfse .panel .n32 9 ⟨10, 0, 0, 0⟩) t).me.pc = 0x1000C := by decide +kernel


/-! ## Witnesses: states and operands that meet the hypotheses of the statements -/

/-- A part gives a value and a state that pass a test. -/
def gets {α : Type} (m : M α) (s : State) (k : α → State → Bool) : Bool :=
  match m s with
  | .ok (a, t) => k a t
  | .error _ => false
theorem exists_of_gets {α : Type} {m : M α} {s : State} {k : α → State → Bool} (h : gets m s k = true) :
    ∃ a t, m s = .ok (a, t) ∧ k a t = true := by
  unfold gets at h
  split at h
  · exact ⟨_, _, by assumption, h⟩
  · cases h
/-- A part gives a value. -/
def runs {α : Type} (m : M α) (s : State) : Bool := gets m s fun _ _ => true
theorem exists_of_runs {α : Type} {m : M α} {s : State} (h : runs m s = true) : ∃ a t, Gives m s a t := by
  obtain ⟨a, t, h, -⟩ := exists_of_gets h
  exact ⟨a, t, h⟩
/-- `regs 1 2 3` with element 3 at the head of local queue 0, whose reader end is q1 and whose writer end is q2. -/
def queued : State :=
  ((regs 1 2 3).modGroup 0 fun g => { g with lqs := Cells.set {} g.lqs 0 { elems := [.data 3 none], reader := true, writer := true } }).modMe
    fun c => (c.setPort 1 { kind := 3, idx := 0 }).setPort 2 { kind := 4, idx := 0, write := true }

-- ScalarBinary, ScalarDivision, ScalarImmediate, BitCounts, ScalarTernary, ScalarMoves, FloatArithmetic, FloatMinMaxCompare,
-- FloatConvert: the operand chains, with ports, and a register outside the register store
theorem test_meets_operand_chain : ∃ t u v w, queued.resident (sqRegs [(10, .q 2), (17, .s 10), (24, .q 1), (31, .s 11)]) ∧
    queued.gives (.s 10) 2 t ∧ t.gives (.q 1) 3 u ∧ u.gives (.s 11) 3 v ∧ v.takes (.q 2) 5 w := by
  obtain ⟨x, t, h1, h⟩ := exists_of_gets (m := rdQ (.s 10)) (s := queued) (k := fun x t => x == 2 &&
    gets (rdQ (.q 1)) t fun y u => y == 3 && gets (rdQ (.s 11)) u fun z v => z == 3 && runs (wrQ (.q 2) 5) v) (by decide +kernel)
  simp only [Bool.and_eq_true, beq_iff_eq] at h
  obtain ⟨rfl, h⟩ := h
  obtain ⟨y, u, h2, h⟩ := exists_of_gets h
  simp only [Bool.and_eq_true, beq_iff_eq] at h
  obtain ⟨rfl, h⟩ := h
  obtain ⟨z, v, h3, h⟩ := exists_of_gets h
  simp only [Bool.and_eq_true, beq_iff_eq] at h
  obtain ⟨rfl, h⟩ := h
  obtain ⟨⟨⟩, w, h4⟩ := exists_of_runs h
  exact ⟨t, u, v, w, by unfold State.resident; decide +kernel, h1, h2, h3, h4⟩

/-- Registers s9, s10, s11, ports bound, all resident and ready, and the boundary of the register store: s31 outside 8 entries. -/
theorem test_meets_ready : (regs 1 2 3).resident [(10, 9), (17, 10), (24, 11)] ∧ (regs 1 2 3).ready 9 ∧ (regs 1 2 3).ready 10 ∧
    (regs 1 2 3).ready 11 ∧ (regs 1 2 3).ready 31 ∧ (regs 1 2 3).ready 0 := by
  unfold State.resident State.ready
  decide +kernel
theorem test_meets_absent_register :
    let s := (regs 1 2 3).modGroup 0 fun g => { g with r := 23 }
    firstAbsent s.me s.myGroup.r (sqRegs [(10, .s 9), (17, .q 1), (24, .s 31)]) = some 24 ∧
    firstAbsent s.me s.myGroup.r (sqRegs [(10, .s 30), (17, .s 7)]) = none := by decide +kernel
-- FloatArithmetic, FloatConvert: results without a trap, and one with kind 1
theorem test_meets_no_trap : trapOf [(0, fAdd fmtF32 .rne true 0 0x7F7FFFFF 0x7F7FFFFF)] = none ∧
    trapOf [(0, fSub fmtF64 .rsr false 5 0 0x3FF0000000000000)] = none ∧ trapOf [(0, fMul fmtF32 .rtz false 0 0x7F800000 0)] = none ∧
    trapOf [(0, fDiv fmtF64 .rup true 0 1 0)] = none ∧ trapOf [(0, fSqrt fmtF32 .rdn false 0 0x80000000)] = none ∧
    trapOf [(0, fFma fmtF32 .rna false 0 1 2 3)] = none ∧ trapOf [(0, convert .i32 .f32 .ovf .rne 0x7FC00000 0)] = none ∧
    trapOf [(0, convert .e4m3 .f32 .trap .rne 0x43F00000 0)] = some (0, 1) := by decide +kernel
-- FloatMinMaxCompare: a NaN, numbers in each order, zeros of both signs
theorem test_meets_nans : fval fmtF32 0x7FC00000 = .nan ∧ fval fmtF32 0x3F800000 ≠ .nan ∧ fval fmtF64 0 ≠ .nan ∧
    cmpNum (fval fmtF32 0x3F800000) (fval fmtF32 0x40000000) = some .lt ∧ cmpNum (fval fmtF32 0x40000000) (fval fmtF32 0x3F800000) = some .gt ∧
    cmpNum (fval fmtF32 0x80000000) (fval fmtF32 0) = some .eq ∧ 2 ^ (fmtF32.w - 1) ≤ 0x80000000 ∧ 0x80000000 < 2 ^ fmtF32.w := by decide +kernel
-- CallsAndReturns: the last frame of the stack, the last one of the store, one more of each, the first frame, one not in the store
def frame (wb lo : Nat) : State := (regs 1 2 3).modMe fun c => { c with wb, lo }
theorem test_meets_call_bounds :
    ((frame 65496 65472).me.wb + 40 ≤ 65536 ∧ (frame 65496 65472).me.wb + 40 ≤ (frame 65496 65472).me.lo + (frame 65496 65472).myGroup.r) ∧
    65536 < (frame 65512 65472).me.wb + 40 ∧
    ((frame 32 0).me.wb + 40 ≤ 65536 ∧ (frame 32 0).me.lo + (frame 32 0).myGroup.r < (frame 32 0).me.wb + 40) ∧
    (16 ≤ (frame 16 0).me.wb ∧ (frame 16 0).me.lo ≤ (frame 16 0).me.wb - 16) ∧ (frame 0 0).me.wb < 16 ∧
    (16 ≤ (frame 32 32).me.wb ∧ (frame 32 32).me.wb - 16 < (frame 32 32).me.lo) := by decide +kernel
theorem test_meets_call_registers : (frame 16 0).ready 31 ∧ (frame 32 32).ready 31 ∧ (frame 0 0).ready 31 ∧
    (frame 24 0).resident [(17, 9)] ∧ (frame 24 0).ready 9 ∧ (frame 24 0).me.wb + 40 ≤ (frame 24 0).me.lo + (frame 24 0).myGroup.r := by
  unfold State.ready State.resident
  decide +kernel

/-- A vector chain gives its sources, its lanes do not trap and its destination takes them. -/
def chain3 (s : State) (a b c : VQ) (k : State → Bool) : Bool :=
  gets (rdVQ a) s fun _ t => gets (rdVQ b) t fun _ u => gets (rdVQ c) u fun _ v => k v
theorem exists_of_chain3 {s : State} {a b c : VQ} {k : State → Bool} (h : chain3 s a b c k = true) :
    ∃ x t y u z v, s.vgives a x t ∧ t.vgives b y u ∧ u.vgives c z v ∧ k v = true := by
  obtain ⟨x, t, h1, h⟩ := exists_of_gets h
  obtain ⟨y, u, h2, h⟩ := exists_of_gets h
  obtain ⟨z, v, h3, h⟩ := exists_of_gets h
  exact ⟨x, t, y, u, z, v, h1, h2, h3, h⟩
/-- `vecs` with element 3 at the head of local queue 0, whose ends are q1 and q2. -/
def vqueued : State :=
  ((vecs 1 2 3 0xF).modGroup 0 fun g => { g with lqs := Cells.set {} g.lqs 0 { elems := [.data 3 none], reader := true, writer := true } }).modMe
    fun c => (c.setPort 1 { kind := 3, idx := 0 }).setPort 2 { kind := 4, idx := 0, write := true }
-- VectorInteger, VectorFloat, VectorBits, VectorMoves, ReductionsAndScans, RandomWords, Masks (lanes): sources from registers and a
-- port, lanes under m1 without a trap, and a destination that takes them
theorem test_meets_lanes : ∃ x t y u z v w, vqueued.fresh (.v 3) ∧ vqueued.vgives (.v 1) x t ∧ t.vgives (.q 1) y u ∧ u.vgives (.v 4) z v ∧
    LanesTo v 32 32 ⟨1, false, true⟩ (.v 3) wrVQ (fun i => .ok i none) w := by
  obtain ⟨x, t, y, u, z, v, h1, h2, h3, h⟩ := exists_of_chain3 (s := vqueued) (a := .v 1) (b := .q 1) (c := .v 4)
    (k := fun v => trapOf (v.lanes 32 ⟨1, false, true⟩ fun i => .ok i none) == none &&
      runs (wrVQ (.v 3) (v.merged 32 32 ⟨1, false, true⟩ (.v 3) fun i => .ok i none))
        (v.counted (eventsOf ((v.lanes 32 ⟨1, false, true⟩ fun i => NRes.ok i none).map (·.2))))) (by decide +kernel)
  simp only [Bool.and_eq_true, beq_iff_eq] at h
  obtain ⟨⟨⟩, w, h5⟩ := exists_of_runs h.2
  exact ⟨x, t, y, u, z, v, w, by unfold State.fresh; decide +kernel, h1, h2, h3, h.1, h5⟩
theorem test_meets_late_lanes : ∃ x t w, vqueued.fresh (.v 3) ∧ vqueued.vgives (.v 1) x t ∧
    LanesTo (t.drew .rsr 32) 32 32 ⟨0, false, false⟩ (.v 3) wrVQLate (fun i => .ok i none) w := by
  obtain ⟨x, t, h1, h⟩ := exists_of_gets (m := rdVQ (.v 1)) (s := vqueued) (k := fun _ t =>
    trapOf ((t.drew .rsr 32).lanes 32 ⟨0, false, false⟩ fun i => .ok i none) == none &&
      runs (wrVQLate (.v 3) ((t.drew .rsr 32).merged 32 32 ⟨0, false, false⟩ (.v 3) fun i => .ok i none))
        ((t.drew .rsr 32).counted (eventsOf (((t.drew .rsr 32).lanes 32 ⟨0, false, false⟩ fun i => NRes.ok i none).map (·.2))))) (by decide +kernel)
  simp only [Bool.and_eq_true, beq_iff_eq] at h
  obtain ⟨⟨⟩, w, h5⟩ := exists_of_runs h.2
  exact ⟨x, t, w, by unfold State.fresh; decide +kernel, h1, h.1, h5⟩
theorem test_meets_held : (after (.hold 3) (vecs 1 2 3 0)).me.held 3 = true := by decide +kernel
theorem test_meets_vint : ElemTy.n8.isVInt = true ∧ ElemTy.f32.isVInt = false ∧ ElemTy.e4m3.lane < ElemTy.f32.lane := by decide
-- VectorCompare: the mask bits of lanes 0 to 3 under m1, the other bits kept or zero, and 0 from the lane count on
theorem test_meets_lane_bits : LaneBits 32 (laneOn 0xF#128 false) false 0xFF0#128 (fun i => i % 2 == 0) 0xFF5#128 ∧
    LaneBits 32 (laneOn 0xF#128 false) true 0xFF0#128 (fun i => i % 2 == 0) 0x5#128 := by
  unfold LaneBits
  decide +kernel
-- VectorMoves, LaneTransfers: a vector destination that takes a register and a port
theorem test_meets_vtakes : (∃ w, vqueued.vtakes (.v 3) 7 w) ∧ (∃ w, vqueued.vtakes (.q 2) 7 w) ∧ vqueued.vready 3 ∧
    vqueued.resident (sqRegs [(10, .s 9)] ++ [(24, 10)]) := by
  refine ⟨?_, ?_, ?_⟩
  · obtain ⟨⟨⟩, w, h⟩ := exists_of_runs (m := wrVQ (.v 3) 7) (s := vqueued) (by decide +kernel)
    exact ⟨w, h⟩
  · obtain ⟨⟨⟩, w, h⟩ := exists_of_runs (m := wrVQ (.q 2) 7) (s := vqueued) (by decide +kernel)
    exact ⟨w, h⟩
  · unfold State.vready State.resident
    decide +kernel
-- ReductionsAndScans: a float sum that does not trap; VectorConvert: lanes that do not trap, and a lane that does
theorem test_meets_conversion : trapOf [(0, redFlt .sum .f32 .rne false 0 [0x3F800000, 0x7F800000, 0xFF800000])] = none ∧
    trapOf (((vecs 1 2 3 0).drew .rsr 32).lanes 32 ⟨0, false, false⟩ fun i => convert .bf16 .f32 .trap .rsr (laneNat 1 32 i) 0) = none ∧
    trapOf ((vecs 1 2 3 0).lanes 32 ⟨0, false, false⟩ fun i => convert .i8 .f32 .trap .rne (laneNat (lanes 32 [0, 0x7FC00000]) 32 i) 0)
      = some (1, 3) := by decide +kernel
-- BlockQuantisation: a block without a NaN or infinity under trap; RandomWords: a seed
theorem test_meets_block : (∀ y ∈ (List.range 32).map (fun i => fval fmtF32 (laneNat (lanes 32 [0x3F800000]) 32 i)), y ≠ .nan ∧ ∀ n, y ≠ .inf n) ∧
    rngStored 0 = 1 := by
  refine ⟨?_, by decide +kernel⟩
  intro y hy
  obtain ⟨i, hi, rfl⟩ := List.mem_map.1 hy
  have h : ∀ i ∈ List.range 32, (match fval fmtF32 (laneNat (lanes 32 [0x3F800000]) 32 i) with
    | .nan => false
    | .inf _ => false
    | _ => true) = true := by decide +kernel
  have := h i hi
  split at this <;> simp_all
-- Masks: the masks that the clauses with a bitwise hypothesis name
theorem test_meets_masks : let s := (regs 4 0 0).modMe fun c => c.setMask 1 0b1010
    (∀ i, i < 128 → (0b0101#128).getLsbD i = (decide (i < s.countIn 9) && !(s.me.mask 1).getLsbD i)) ∧
    (1 ≤ s.countIn 9 ∧ (∀ i, i < 1 → (s.me.mask 1).getLsbD i = false) ∧ (1 < s.countIn 9 → (s.me.mask 1).getLsbD 1 = true)) ∧
    (∀ i, i < 128 → (BitVec.allOnes 128).getLsbD i = decide (i < (128#32).toNat)) ∧ (∀ i, i < 128 → (0#128).getLsbD i = decide (i < (0#32).toNat)) := by
  decide +kernel
theorem test_meets_mask_settings : let s := vecs (lanes 8 [0x80, 0x7F, 0xFF]) (lanes 16 [0x8000, 0x7FFF]) (lanes 32 [0x80000000]) 0
    (∀ i, i < 128 → (0b101#128).getLsbD i = (s.me.vreg 1).getLsbD (8 * i + 7)) ∧
    (∀ i, i < 128 → (0b1#128).getLsbD i = (decide (i < 64) && (s.me.vreg 2).getLsbD (16 * i + 15))) ∧
    (∀ i, i < 128 → (0b1#128).getLsbD i = (decide (i < 32) && (s.me.vreg 4).getLsbD (32 * i + 31))) := by decide +kernel
-- OperandForms: an unbound port, an empty read end, a head, a full write end, a held register
theorem test_meets_ports : let p := regs 1 2 3
    (p.me.port 5).kind = 0 ∧
    (let s := after (.pfree 3) (p.modMe fun c => c.setPort 4 { kind := 3, idx := 2 })
     (s.me.port 4).kind = 3 ∧ (s.me.port 4).write = false ∧ (s.myGroup.lq (s.me.port 4).idx).elems = []) ∧
    ((queued.me.port 1).kind = 3 ∧ (queued.me.port 1).write = false ∧ (queued.myGroup.lq (queued.me.port 1).idx).elems = .data 3 none :: []) ∧
    (let s := (queued.modGroup 0 fun g => { g with lqs := Cells.set {} g.lqs 0 { elems := List.replicate 8 (.data 3 none), reader := true, writer := true } })
     (s.me.port 2).kind = 4 ∧ (s.me.port 2).write = true ∧ 8 ≤ (s.myGroup.lq (s.me.port 2).idx).elems.length) ∧
    (after (.hold 3) p).me.held 3 = true := by decide +kernel
-- TrapEntry, Privilege: a context of level 0 that may take a trap, one that is busy, a group without a handler table
theorem test_meets_traps : let s := regs 1 2 3
    (s.ctx 0 0).cause.getLsbD 15 = false ∧ (s.group 0).trapvec ≠ 0 ∧ s.me.priv = 0 ∧
    ((after (.trap false 1) s).ctx 0 0).cause.getLsbD 15 = true ∧ ((s.modGroup 0 fun g => { g with trapvec := 0 }).group 0).trapvec = 0 := by
  decide +kernel
-- MemoryReadWrite: two memories that read alike
theorem test_meets_memory : (Memory.write ⟨[]⟩ 5 7).wf = true ∧ (Memory.write (Memory.write ⟨[]⟩ 5 1) 5 7) = Memory.write ⟨[]⟩ 5 7 ∧
    (Memory.write (Memory.write ⟨[]⟩ 5 1) 5 0) = ⟨[]⟩ := by decide +kernel

-- StepKeepsMemory, StepRunsInstruction: the word of `add s9, s10, s11` placed at the program counter
def placed : State := State.reset.withFetchWord 64 0x0B142400
theorem test_meets_step : placed.store.mem.wf = true ∧ (match step placed with
    | .next _ => true
    | _ => false) = true := by decide +kernel
theorem test_meets_turn : ∃ t u n i, placed.choose = (.turn 0, t) ∧ fetchM (t.turnState 0) = .ok (.ok (i, n), u) ∧ u.me.follow = none := by
  have h : placed.choose.1 = .turn 0 ∧ gets fetchM (placed.choose.2.turnState 0) (fun r u => (match r with
    | .ok _ => true
    | .error _ => false) && u.me.follow == none) = true := by decide +kernel
  obtain ⟨a, u, h1, h2⟩ := exists_of_gets h.2
  simp only [Bool.and_eq_true, beq_iff_eq] at h2
  cases a with
  | error e => simp at h2
  | ok p => exact ⟨_, u, p.2, p.1, by rw [← h.1], h1, h2.2⟩
theorem test_meets_fetch : placed.me.pc.toNat < 2 ^ 52 ∧ ∃ u g k, resolveM placed.me.pc 4 .exec false placed = .ok (some g, u) ∧
    u.keyOf g.place = some k ∧ u.store.readsPoison k (maskOf g.byte 4) = false := by
  refine ⟨by decide +kernel, ?_⟩
  obtain ⟨g, u, h1, h2⟩ := exists_of_gets (m := resolveM placed.me.pc 4 .exec false) (s := placed) (k := fun g u => match g with
    | some g => match u.keyOf g.place with
      | some k => !u.store.readsPoison k (maskOf g.byte 4)
      | none => false
    | none => false) (by decide +kernel)
  cases g with
  | none => simp at h2
  | some g =>
    cases hk : u.keyOf g.place with
    | none => simp [hk] at h2
    | some k => exact ⟨u, g, k, h1, hk, by simpa [hk] using h2⟩
-- StepRunsInstruction: no report, one that takes the place of the instruction, a follower without an instruction
/-- `fence.acq.core` at the program counter of a context with a report, whose turn has been put off as long as it may be. -/
def reported : State :=
  { ((State.reset.withFetchWord 64 (leNat (encode (.fence .acq .core)))).modCtx 0 0 fun c => { c with reports := [⟨0x14, 64, false, none⟩] }) with
    tick := Config.patience, due := [(.turn 0, 0)] }
theorem exists_of_issue {x : Option (Instr × State)} {k : Instr → State → Bool} (h : (match x with
    | some p => k p.1 p.2
    | none => false) = true) : ∃ i u, x = some (i, u) ∧ k i u = true := by
  cases x with
  | none => cases h
  | some p => exact ⟨p.1, p.2, rfl, h⟩
theorem test_meets_no_report : ∃ t i u, placed.choose = (.turn 0, t) ∧ (t.turnState 0).issue = some (i, u) ∧ u.reportFirst i (exec i u) = none := by
  have h : placed.choose.1 = .turn 0 := by decide +kernel
  obtain ⟨i, u, h1, h2⟩ := exists_of_issue (x := (placed.choose.2.turnState 0).issue) (k := fun i u => (u.reportFirst i (exec i u)).isNone)
    (by decide +kernel)
  exact ⟨_, i, u, by rw [← h], h1, Option.isNone_iff_eq_none.1 h2⟩
theorem test_meets_report : ∃ t i u r, reported.choose = (.turn 0, t) ∧ (t.turnState 0).issue = some (i, u) ∧
    u.reportFirst i (exec i u) = some r := by
  have hc : reported.choices = [(.event (.trapReport 0 0), []), (.turn 0, [])] := by decide +kernel
  have hp : reported.phase = .running ∧ ¬ (reported.window + 1) * quantumCycles ≤ reported.mesh + 1 := by decide +kernel
  have h : reported.choose = (.turn 0, { reported.elapse with agenda := [], due := [(.event (.trapReport 0 0), Config.patience)] }) := by
    unfold State.choose
    simp only [hp.1, hp.2, hc]
    simp [State.stillDue, State.pickOf, reported]
  obtain ⟨i, u, h1, h2⟩ := exists_of_issue (x := (State.turnState { reported.elapse with agenda := [], due := [(.event (.trapReport 0 0),
    Config.patience)] } 0).issue) (k := fun i u => (u.reportFirst i (exec i u)).isSome) (by decide +kernel)
  obtain ⟨r, h3⟩ := Option.isSome_iff_exists.1 h2
  exact ⟨_, i, u, r, h, h1, h3⟩
/-- A follower that has executed all that its leader has issued. -/
def lagging : State :=
  ((placed.modGroup 1 fun g => { g with launch := 1, rect := mkRect 0 0 1 1 }).modCtx 1 0 fun c => { c with status := .waiting .park }).modCtx 0 0
    fun c => { c with follow := some ⟨1, true, []⟩ }
theorem test_meets_follower : ∃ t, lagging.choose = (.turn 0, t) ∧ (t.turnState 0).issue = none := by
  have h : lagging.choose.1 = .turn 0 ∧ (lagging.choose.2.turnState 0).issue.isNone = true := by decide +kernel
  exact ⟨_, by rw [← h.1], Option.isNone_iff_eq_none.1 h.2⟩
-- StepPerformsEvents: a running panel without contexts has only its quantum boundary, a panel in recovery nothing to do
theorem test_meets_choices : ({ State.reset with phase := .running } : State).choose.1 = .event .quantumBoundary ∧
    ({ State.reset with phase := .recovery } : State).choose.1 = .idle ∧ State.reset.phase = .reset ∧ State.reset.event = none := by
  decide +kernel
-- DecodeEncode
theorem test_meets_encode : (Instr.fcvt .i32 .f32 .trap .rsr (.s 31) (.q 7)).wf = true ∧ encode (.fcvt .i32 .f32 .trap .rsr (.s 31) (.q 7)) ≠ [] ∧
    (Instr.cpyPl ⟨3, true, some 63, 31⟩ true 8 (.q 7) 31 31 (BitVec.allOnes 64)).wf = true := by decide +kernel
-- IllegalEncodings: length code 3; an instruction that would cross; opcode 0x00 under length code 1; a fetch that finds no instruction
theorem test_meets_illegal : lengthCode (BitVec.ofNat 8 (leNat (([0x03] : List Byte).take 16))) = none ∧
    (lengthCode (BitVec.ofNat 8 (leNat (([0x00] : List Byte).take 16))) = some 8 ∧ 32 < 28 % 32 + 8) ∧
    (lengthCode (BitVec.ofNat 8 (leNat (([0x01] : List Byte).take 16))) = some 12 ∧ 20 % 32 + 12 ≤ 32 ∧
      (formatOf (opcodeOf (leNat (([0x01] : List Byte).take 16)))).bytes ≠ 12) := by decide +kernel
theorem test_meets_illegal_fetch : ∃ e u, fetchM { ({ (State.reset.withFetchWord 64 3) with event := some (.illegalInstructionFetch 0 0) } : State).begun
    (.illegalInstructionFetch 0 0) with curCore := 0, curCtx := 0 } = .ok (.error e, u) := by
  obtain ⟨a, u, h1, h2⟩ := exists_of_gets (m := fetchM) (s := { ({ (State.reset.withFetchWord 64 3) with
      event := some (.illegalInstructionFetch 0 0) } : State).begun (.illegalInstructionFetch 0 0) with curCore := 0, curCtx := 0 })
    (k := fun r _ => match r with
      | .ok _ => false
      | .error _ => true) (by decide +kernel)
  cases a with
  | error e => exact ⟨e, u, h1⟩
  | ok p => simp at h2

/-- s10 holds an address of the own scratchpad, s11 an index. -/
def pad : State := regs 7 0x8000000000000100 0
-- ScalarMemory, VectorLoads, VectorStores, ScratchpadAccess, FullEmptyAccesses
theorem test_meets_address : pad.resident ((10, 9) :: addrRegs ⟨10, 11, 1, 0⟩) ∧ pad.addrReady ⟨10, 11, 1, 0⟩ ∧
    pad.ownAddr (pad.addrOf ⟨10, 11, 1, 0⟩ 4) 4 ∧ pad.calm ∧ (pad.core 0).reserved < 256 ∧ pad.vready 9 ∧ pad.me.held 9 = false := by
  unfold State.resident State.addrReady State.ownAddr State.calm State.vready State.ready
  decide +kernel
theorem test_meets_scalar_memory : (∃ vs t, Gives (loadM 4 none [(0, pad.addrOf ⟨10, 11, 1, 0⟩ 4)]) pad vs t) ∧
    (∃ vs t, Gives (loadM 8 (some (.acq, .panel)) [(0, pad.addrOf ⟨10, 11, 1, 0⟩ 8)]) pad vs t) ∧
    (∃ vs t, Gives (loadM 8 none [(0, 0x8000000000000100)]) pad vs t) ∧
    (∃ u t, Gives (storeM 2 1 none [(0, pad.addrOf ⟨10, 11, 1, 0⟩ 2, 7)]) pad u t) ∧
    (∃ u t, Gives (storeM 8 3 (some (.rel, .panel)) [(0, pad.addrOf ⟨10, 11, 1, 0⟩ 8, 7)]) pad u t) :=
  ⟨exists_of_runs (by decide +kernel), exists_of_runs (by decide +kernel), exists_of_runs (by decide +kernel),
    exists_of_runs (by decide +kernel), exists_of_runs (by decide +kernel)⟩
/-- The cause with which an address does not resolve, else 0. -/
def trapIn : Except Bad Tgt → Nat
  | .error (.trap c) => c
  | _ => 0
theorem eq_trap {r : Except Bad Tgt} {c : Nat} (h : trapIn r = c ∧ c ≠ 0) : r = .error (.trap c) := by
  obtain ⟨rfl, h⟩ := h
  unfold trapIn at h ⊢
  split <;> simp_all
theorem not_trap {r : Except Bad Tgt} {c : Nat} (h : trapIn r ≠ c) : r ≠ .error (.trap c) := by
  rintro rfl
  exact h rfl
theorem test_meets_line : pad.lineOk ⟨0, false⟩ (pad.addrOf ⟨10, 0, 0, 0⟩ 128) .load ∧ pad.lineOk ⟨0, false⟩ 0x8000000000000100 .store ∧
    pad.onLanes 32 ⟨0, false⟩ ≠ [] ∧ pad.onLanes 32 ⟨0, true⟩ = [] := by
  refine ⟨.inr ⟨?_, ?_⟩, .inr ⟨?_, ?_⟩, ?_, ?_⟩
  · exact not_trap (by decide +kernel)
  · exact not_trap (by decide +kernel)
  · exact not_trap (by decide +kernel)
  · exact not_trap (by decide +kernel)
  · decide +kernel
  · decide +kernel
theorem test_meets_vector_load : (∃ t, LoadsLanes pad 32 none ⟨0, false⟩ 9 (fun i => 0x8000000000000100 + BitVec.ofNat 64 (4 * i)) t) ∧
    (∃ t, LoadsLanes pad 16 (some (.acq, .panel)) ⟨0, false⟩ 9 (fun i => 0x8000000000000100 + BitVec.ofNat 64 (2 * i)) t) := by
  refine ⟨?_, ?_⟩
  · obtain ⟨vs, u, h⟩ := exists_of_runs (m := loadM (32 / 8) none ((pad.onLanes 32 ⟨0, false⟩).map fun i =>
      (i, 0x8000000000000100 + BitVec.ofNat 64 (4 * i)))) (s := pad) (by decide +kernel)
    exact ⟨_, vs, u, h, rfl⟩
  · obtain ⟨vs, u, h⟩ := exists_of_runs (m := loadM (16 / 8) (some (.acq, .panel)) ((pad.onLanes 16 ⟨0, false⟩).map fun i =>
      (i, 0x8000000000000100 + BitVec.ofNat 64 (2 * i)))) (s := pad) (by decide +kernel)
    exact ⟨_, vs, u, h, rfl⟩
theorem test_meets_vector_store : (∃ t, StoresLanes pad 32 7 none ⟨0, false⟩ 5 (fun i => 0x8000000000000100 + BitVec.ofNat 64 (4 * i)) t) ∧
    (∃ t, StoresLanes pad 8 0 (some (.rel, .panel)) ⟨0, false⟩ 5 (fun i => 0x8000000000000100 + BitVec.ofNat 64 i) t) := by
  refine ⟨?_, ?_⟩
  · obtain ⟨⟨⟩, t, h⟩ := exists_of_runs (m := storeM (32 / 8) 7 none ((pad.onLanes 32 ⟨0, false⟩).map fun i =>
      (i, 0x8000000000000100 + BitVec.ofNat 64 (4 * i), laneNat 5 32 i))) (s := pad) (by decide +kernel)
    exact ⟨t, h⟩
  · obtain ⟨⟨⟩, t, h⟩ := exists_of_runs (m := storeM (8 / 8) 0 (some (.rel, .panel)) ((pad.onLanes 8 ⟨0, false⟩).map fun i =>
      (i, 0x8000000000000100 + BitVec.ofNat 64 i, laneNat 5 8 i))) (s := pad) (by decide +kernel)
    exact ⟨t, h⟩
-- VectorLoads, ScratchpadAccess: beyond the partition, and misaligned
theorem test_meets_bad_address : pad.resolve (pad.actor 0 0) 0x8000000000200000 128 .load = .error (.trap 4) ∧
    pad.resolve (pad.actor 0 0) 0x8000000000000104 128 .load = .error (.trap 3) ∧
    ((0x80000000001FFFFE#64).toNat % 2 ^ 22 < pad.myGroup.part * 2 ^ 18 ∧ (0x80000000001FFFFE#64).toNat % 4 ≠ 0 ∧
      pad.myGroup.part * 2 ^ 18 ≤ (0x8000000000200000#64).toNat % 2 ^ 22) := ⟨eq_trap (by decide +kernel), eq_trap (by decide +kernel), by decide +kernel⟩
/-- The same after a load has taken the line, which is then empty. -/
def taken : State := after (.ldfS .wfse .panel .n32 9 ⟨10, 0, 0, 0⟩) pad
theorem test_meets_line_states : (pad.store.isEmpty (pad.ownKey 0x8000000000000100) = false ∧
      pad.store.readsPoison (pad.ownKey 0x8000000000000100) (maskOf 0 4) = false ∧
      pad.store.conflictIn (pad.actor 0 0) false true (pad.ownKey 0x8000000000000100) (maskOf 0 4) = none ∧
      pad.store.conflictIn (pad.actor 0 0) true true (pad.ownKey 0x8000000000000100) (maskOf 0 4) = none ∧
      pad.store.conflictIn (pad.actor 0 0) true false (pad.ownKey 0x8000000000000100) (maskOf 0 1) = none ∧
      pad.ownByte 0x8000000000000100 + 4 ≤ 128) ∧
    (taken.store.isEmpty (taken.ownKey 0x8000000000000100) = true ∧ taken.me.access = none ∧ taken.myGroup.sideOf taken.curCtx = [] ∧
      taken.markRoom taken.curCore false = true) := by decide +kernel
-- FullEmptyAccesses
def wantFull : SyncMsg :=
  { actor := pad.actor 0 0, id := 1, part := ⟨.scratch 0 0 256, 256, maskOf 0 4, 0, true, []⟩, load := some .wfse, store := none, acq := none,
    rel := none, tries := 0 }
theorem test_meets_sync : syncMet wantFull true = false ∧ syncMet wantFull false = true ∧ wantFull.store = none ∧ wantFull.part.checked = true ∧
    (pad.core (coreOfKey (pad.ownKey 0x8000000000000100))).waiters = [] ∧
    syncMet wantFull (pad.store.isEmpty (pad.ownKey 0x8000000000000100)) = true ∧
    syncMet wantFull (taken.store.isEmpty (taken.ownKey 0x8000000000000100)) = false ∧
    pad.store.readsPoison (pad.ownKey 0x8000000000000100) wantFull.part.mask = false ∧
    pad.store.conflictIn (acquiring wantFull.actor wantFull.acq ((pad.store.lineRel (pad.ownKey 0x8000000000000100)).toList ++
      pad.store.relsOf (pad.ownKey 0x8000000000000100) wantFull.part.mask)) false false (pad.ownKey 0x8000000000000100)
      wantFull.part.mask = none := by decide +kernel
theorem test_meets_full_empty : (∃ p t, Gives (ldfLine .wf .panel 4 0x8000000000000100 fun g => maskOf g.byte 4) pad p t) ∧
    (∃ p t, Gives (ldfLine .wfse .panel 128 0x8000000000000100 fun _ => laneBytes (pad.me.mask 0) false) pad p t) ∧
    (∃ u t, Gives (stfLine .wesf .panel 4 2 0x8000000000000100 (fun g => maskOf g.byte 4) fun g => valLine g.byte 4 7) taken u t) ∧
    (∃ u t, Gives (stfLine .sf .panel 128 7 0x8000000000000100 (fun _ => laneBytes (pad.me.mask 0) false) fun _ => 7) pad u t) ∧
    (∃ u t, Gives (releaseM .panel) pad u t) :=
  ⟨exists_of_runs (by decide +kernel), exists_of_runs (by decide +kernel), exists_of_runs (by decide +kernel),
    exists_of_runs (by decide +kernel), exists_of_runs (by decide +kernel)⟩
theorem test_meets_set_line : pad.ownAddr (pad.addrOf ⟨10, 0, 0, 4⟩ 1 &&& ~~~127#64) 128 ∧ pad.addrReady ⟨10, 0, 0, 4⟩ := by
  unfold State.ownAddr State.addrReady State.ready
  decide +kernel
-- Atomics: the parts of a plain `amo` of the own scratchpad in order, those of `vamo`, and the hypotheses of the own forms
theorem test_meets_amo : ∃ r u g v xs rels w ans z, Gives (beginAtomic .ar .panel) pad r u ∧
    Gives (resolveM 0x8000000000000100 4 .atomic false) u (some g) v ∧ aliasOf g = false ∧
    Gives (atomics .add 4 (acqScope .ar .panel) r [atomLane 0 g 3 0]) v (some xs, rels) w ∧ xs ≠ [] ∧
    Gives (endAtomic .ar .panel rels) (w.wroteS 9 0) ans z := by
  obtain ⟨r, u, h1, h⟩ := exists_of_gets (m := beginAtomic .ar .panel) (s := pad) (k := fun r u =>
    gets (resolveM 0x8000000000000100 4 .atomic false) u fun g v => match g with
      | some g => !aliasOf g && gets (atomics .add 4 (acqScope .ar .panel) r [atomLane 0 g 3 0]) v fun a w => match a with
        | (some xs, rels) => xs != [] && runs (endAtomic .ar .panel rels) (w.wroteS 9 0)
        | _ => false
      | none => false) (by decide +kernel)
  obtain ⟨g, v, h2, h⟩ := exists_of_gets h
  cases g with
  | none => simp at h
  | some g =>
    simp only [Bool.and_eq_true, Bool.not_eq_true'] at h
    obtain ⟨⟨a, rels⟩, w, h3, h'⟩ := exists_of_gets h.2
    cases a with
    | none => simp at h'
    | some xs =>
      simp only [Bool.and_eq_true, bne_iff_ne, ne_eq] at h'
      obtain ⟨z, t, h4⟩ := exists_of_runs h'.2
      exact ⟨r, u, g, v, xs, rels, w, z, t, h1, h2, h.1, h3, h'.1, h4⟩
theorem test_meets_vamo : ∃ ls v a w, Gives (vamoLanes 4 5 ((pad.onLanes 32 ⟨0, false⟩).map fun i => (i, 0x8000000000000100 + BitVec.ofNat 64 (i * 4)))) pad ls v ∧
    Gives (atomics .swap 4 (acqScope .plain .context) none ls) v a w ∧ a.1.isSome = true := by
  obtain ⟨ls, v, h1, h⟩ := exists_of_gets (m := vamoLanes 4 5 ((pad.onLanes 32 ⟨0, false⟩).map fun i => (i, 0x8000000000000100 + BitVec.ofNat 64 (i * 4))))
    (s := pad) (k := fun ls v => gets (atomics .swap 4 (acqScope .plain .context) none ls) v fun a _ => a.1.isSome) (by decide +kernel)
  obtain ⟨a, w, h2, h⟩ := exists_of_gets h
  exact ⟨ls, v, a, w, h1, h2, h⟩
theorem test_meets_own_atomic : pad.ownAddr (pad.me.s 10 + (0 : BitVec 40).signExtend 64) 8 ∧ pad.myGroup.sideOf pad.curCtx = [] ∧
    loggedPage (pad.myGroup.sideOf pad.curCtx) (pad.me.s 10).toNat = false ∧
    (∀ wr, pad.store.conflictIn (pad.actor pad.curCore pad.curCtx) wr false (pad.ownKey 0x8000000000000100) (maskOf (pad.ownByte 0x8000000000000100) 8) = none) ∧
    1 ≤ 4 ∧ (2 ^ 32 - 1) < 2 ^ (8 * 4) := by
  unfold State.ownAddr
  decide +kernel

/-- Core 0 in launch 1 of tenant 1 on cores 0, 1, 64, 65, named 5 with generation 2, whose private window is mapped. -/
def world : State :=
  let s := regs 7 0x8000000000000100 0x0000000200000005
  { (s.modGroup 0 fun g => { g with rect := mkRect 0 0 1 1, gname := 0x0000000200000005 }).modCore 0 fun c =>
      { c with tlb := [entryOf 1 0x100000 0 0x100000 0x0C none] } with
    tables := { s.tables with arr := Cells.set 0 Cells.empty 0 bootArr }
    tenants := Cells.set {} Cells.empty 1 { registered := true, descr := 0x1000 }
    launches := Cells.set {} Cells.empty 1 { stage := .bound, tenant := 1, live := [0], taskGran := 1 }
    names := Cells.set {} Cells.empty 5 { gen := 2, owner := some (0, 1) }
    store := { s.store with mem := (((s.store.mem.write 16 1).write 20 20).write 26 0x10) } }
/-- Eight little-endian bytes at an offset of the scratchpad of core 0. -/
def poke (s : State) (off : Nat) (v : Nat) : State :=
  { s with store := { s.store with mem := (List.range 8).foldl (fun m i =>
      m.write (scratchKey 0 (off + i)) (BitVec.ofNat 8 (v / 256 ^ i))) s.store.mem } }
/-- A copy of n bytes inside the scratchpad. -/
def copyCmd (n : Word) : Cmd :=
  { op := 0xC0, fn := 0, kc := none, swz := 0, a := 0x8000000000000100, b := 0x8000000000001000, c := n, e := 0, imm := 0,
    actor := (world.engineActor 0 0 (.porter 2)).2 }
/-- Whether a check passes. -/
def passes (r : Chk Unit) : Bool := match r with
  | .ok _ => true
  | .error _ => false
theorem ok_of_passes {r : Chk Unit} (h : passes r = true) : r = .ok () := by
  unfold passes at h
  split at h
  · rfl
  · cases h
theorem error_of_not_passes {r : Chk Unit} (h : passes r = false) : ∃ code v, r = .error (code, v) := by
  cases r with
  | ok u => cases h
  | error e => exact ⟨e.1, e.2, rfl⟩

-- FencesAndMaintenance: nothing outstanding, a store outstanding; no length, one byte, 2^24 bytes, one more
theorem test_meets_fences : (pad.me.unacked = 0 ∧ pad.myGroup.sideOf pad.curCtx = [] ∧ scWide .core = false ∧
      (∀ p ∈ (pad.core pad.curCore).l1.list, p.2.dirty = 0)) ∧
    (pad.modMe fun c => { c with unacked := 1 }).me.unacked ≠ 0 ∧
    ((regs 7 0x10000 0).me.s 11 = 0 ∧ 0 < ((regs 7 0x10000 1).me.s 11).toNat ∧ ((regs 7 0x10000 0x1000000).me.s 11).toNat ≤ 2 ^ 24 ∧
      2 ^ 24 < ((regs 7 0x10000 0x1000001).me.s 11).toNat) := by decide +kernel
theorem test_meets_fence_parts : (∃ u t, Gives (endAcquire .pod ((pad.modMe Ctx.nextRegion).me.observed)) (pad.modMe Ctx.nextRegion) u t) ∧
    (∃ u t, Gives (releaseM .pod) pad u t) ∧
    (regs 7 0x10000 0x1000000).resolve ((regs 7 0x10000 0x1000000).actor 0 0) 0x10000 1 .load ≠ .error (.trap 4) ∧
    (regs 7 0x10000 0x1000000).resolve ((regs 7 0x10000 0x1000000).actor 0 0) (0x10000 + 0x1000000 - 1) 1 .load ≠ .error (.trap 4) :=
  ⟨exists_of_runs (by decide +kernel), exists_of_runs (by decide +kernel), not_trap (by decide +kernel), not_trap (by decide +kernel)⟩
/-- One mapped line to clean. -/
def cleaning : State := world.modMe fun c => (c.setSReg 10 0x100000).setSReg 11 128
theorem test_meets_maintenance : let s := cleaning
    let act := s.actor s.curCore s.curCtx
    (rangeLines (s.me.s 10) (s.me.s 11).toNat).filterMap (s.maintKey act) ≠ [] ∧ s.me.access = none ∧ s.me.maint = [] ∧
    (∀ k ∈ ((rangeLines (s.me.s 10) (s.me.s 11).toNat).filterMap (s.maintKey act)).filter (fun k => scWide .pod && (k < vaultBase || isProxyKey k)),
      isProxyKey k = false ∧ s.store.sharedOut k (BitVec.allOnes 128) = false) := by decide +kernel
theorem test_meets_maintenance_bounds : cleaning.resolve (cleaning.actor cleaning.curCore cleaning.curCtx) 0x100000 1 .load ≠ .error (.trap 4) ∧
    cleaning.resolve (cleaning.actor cleaning.curCore cleaning.curCtx) (0x100000 + 128 - 1) 1 .load ≠ .error (.trap 4) :=
  ⟨not_trap (by decide +kernel), not_trap (by decide +kernel)⟩
-- Ports: the descriptor block; a port bound, a malformed descriptor, an end that is busy, one that is free; each kind of port
theorem test_meets_binding : (∃ x t, Gives (readBlock 0x8000000000000100 32 8) pad x t) ∧
    ((queued.myGroup.ctx 0).port 1).kind ≠ 0 ∧ (((queued.myGroup.ctx 0).port 5).kind = 0 ∧ (portOf queued.myGroup 0 0).isNone = true) ∧
    (match portOf queued.myGroup 0 3 with
      | some p => queued.myGroup.endBusy p
      | none => false) = true ∧
    (match portOf queued.myGroup 0 (3 + 256 * 7) with
      | some p => !queued.myGroup.endBusy p
      | none => false) = true := ⟨exists_of_runs (by decide +kernel), by decide +kernel⟩
theorem test_meets_port_kinds : let s := queued.modMe fun c => (c.setPort 3 { kind := 6, idx := 1 }).setPort 4 { kind := 2, write := true, count := 9 }
    (s.me.port 0).kind = 0 ∧ ((s.me.port 3).kind = 6 ∧ s.myGroup.fifoInUse (s.me.port 3).idx = false) ∧
    (s.modGroup 0 fun g => g.setQueue 2 { items := [.cmd { copyCmd 0 with fifo := some 1 }] }).myGroup.fifoInUse 1 = true ∧
    ((s.me.port 1).kind ≠ 0 ∧ (s.me.port 1).write = false) ∧ ((s.me.port 4).kind = 2 ∧ (s.me.port 4).write = true) ∧
    ((s.me.port 2).kind ≠ 0 ∧ (s.me.port 2).kind ≠ 2 ∧ (s.me.port 2).kind ≠ 6 ∧ (s.me.port 2).write = true) ∧
    s.myGroup.cmask.getLsbD (63 : KReg).toNat = true := by decide +kernel
theorem test_meets_marks : (∃ u t, Gives (pushElem 2 (queued.me.port 2) .finish) queued u t) ∧
    (∃ u t, Gives (pushElem 2 (queued.me.port 2) (.drain (some 63))) queued u t) :=
  ⟨exists_of_runs (by decide +kernel), exists_of_runs (by decide +kernel)⟩
-- Helpers: a release, a free slot and none, the answers to a spawn, every kind of join, every end of a context
theorem test_meets_helpers : (∃ r u, Gives (beginRelease .pod) world r u) ∧ (world.group 0).freeSlot = some 1 ∧
    ((world.modGroup 0 fun g => { g with helpers := 0 }).group 0).freeSlot = none ∧
    (world.modMe fun c => { c with spawnReply := some .refused }).me.spawnReply = some .refused ∧
    (∃ u t, Gives (inlineChild 16 9 0x20000 [1, 2, 3, 4]) (((world.modMe fun c => { c with spawnReply := some .refused }).modMe
      Ctx.nextRegion).modMe Ctx.nextRegion) u t) :=
  ⟨exists_of_runs (by decide +kernel), by decide +kernel, by decide +kernel, by decide +kernel, exists_of_runs (by decide +kernel)⟩
theorem test_meets_spawn_registers : world.resident ([(10, 9), (17, 10), (24, 11)] ++ argRegs 31 28) ∧ world.ready 28 ∧ world.ready (28 + 3) := by
  unfold State.resident State.ready
  decide +kernel
theorem test_meets_join : world.myGroup.slotFree 10 = true ∧ (world.myGroup.ctx 10).exitRel = none ∧
    ((world.modCtx 0 1 fun c => { c with status := .ready }).myGroup.slotFree 1 = false) ∧
    (∃ u t, Gives (endAcquire .core [⟨Cells.empty, .pod, 0, 0, []⟩]) (world.modMe Ctx.nextRegion) u t) :=
  ⟨by decide +kernel, by decide +kernel, by decide +kernel, exists_of_runs (by decide +kernel)⟩
theorem test_meets_ends : (∃ u t, Gives (endContext none) world u t) ∧
    (∃ u t, Gives retM ((frame 16 0).modMe fun c => c.setSReg 31 0x10009) u t) ∧
    ((((frame 16 0).modMe fun c => c.setSReg 31 0x10009).me.s 31).getLsbD 0 = true) ∧ (world.me.s 31).getLsbD 0 = false ∧ world.me.task = none :=
  ⟨exists_of_runs (by decide +kernel), exists_of_runs (by decide +kernel), by decide +kernel, by decide +kernel, by decide +kernel⟩
theorem test_meets_task_end : let s := world.modCtx 0 0 fun c =>
      { c with task := some { pc := 0, args := [], ranges := [], actor := world.actor 0 0, onCore := some 0 } }
    s.me.task.isSome = true ∧ runs endTask s = true := by decide +kernel
-- BarriersTasksWakes: a descriptor too wide, one without the core, the whole rectangle; arrived and not, done and not
theorem test_meets_barriers : subgroupOk world.myGroup.rect.toNat 10 = false ∧ 0 ∉ subgroupCores world.myGroup.rect.toNat 64 ∧
    (subgroupOk world.myGroup.rect.toNat 9 = true ∧ 0 ∈ subgroupCores world.myGroup.rect.toNat 9) ∧ world.me.bar = none ∧ world.curCtx = 0 ∧
    (let s := after (.bar 9 0 0) (world.modMe fun c => c.setSReg 9 9)
     s.me.bar = some (0, 9) ∧ ((s.launch s.myGroup.launch).bar 9).epoch ≤ 0) ∧
    runs (endAcquire .panel []) ((world.modMe fun c => { c with bar := none }).modMe Ctx.nextRegion) = true ∧ runs (releaseM .panel) world = true := by
  decide +kernel
theorem test_meets_barrier_done : let s := (world.modMe fun c => { c with bar := some (0, 9) }).modLaunch 1 fun l =>
      { l with bars := Cells.set {} l.bars 9 { epoch := 1 } }
    s.me.bar = some (0, 9) ∧ 0 < ((s.launch s.myGroup.launch).bar 9).epoch := by decide +kernel
theorem test_meets_follow : world.me.follow = none ∧ world.canFollow world.curCore world.curCtx = false ∧
    (let s := { ((world.modGroup 1 fun g => { g with launch := 1, rect := mkRect 0 0 1 1 }).modCtx 1 0 fun c => { c with status := .ready }) with curCore := 1 }
     s.me.follow = none ∧ s.canFollow s.curCore s.curCtx = true) := by decide +kernel
theorem test_meets_task : (∃ x t, Gives (loadM 128 none [(0, 0x8000000000000100)]) world x t) ∧ taskResult world.myGroup (world.launch 1) 0 = 1 ∧
    taskResult (world.modGroup 0 fun g => { g with helpers := 0 }).myGroup (world.launch 1) 0 = 4 ∧
    taskResult world.myGroup (world.launch 1) (2 ^ 839) = 3 ∧ field (2 ^ 839) 104 24 ≠ 0 := ⟨exists_of_runs (by decide +kernel), by decide +kernel⟩
theorem test_meets_checkpoint : world.curCtx = 0 ∧ world.me.task = none ∧ world.myGroup.ckpt = none ∧
    world.ckptUsed (chipOf world.curCore) + 196608 ≤ 2 ^ 26 ∧ world.tables.chipValid (buddyOf (chipOf world.curCore)) = true ∧
    (∀ q ∈ world.myGroup.queues.list, q.2.items = []) ∧ world.myGroup.sideLog = [] ∧ (world.core world.curCore).mmas = [] ∧
    world.markRoom world.curCore false = true := by decide +kernel
theorem test_meets_wakes : world.me.token = false ∧ (world.modMe fun c => { c with token := true }).me.token = true ∧
    runs (endAcquire .pod []) (world.modMe Ctx.nextRegion) = true ∧ gets (routeM (world.me.s 11)) world (fun _ t => t == world) = true := by decide +kernel
-- HoldsAndDeposits: a late result, a live name of this panel and a dead one
theorem test_meets_deposits : LateReg.v 5 ∉ world.me.late ∧
    LateReg.v 5 ∈ (world.modMe fun c => { c with late := [.v 5] }).me.late ∧
    gets (liveNameM (world.me.s 11)) world (fun _ t => t == world) = true ∧ gets (routeM (world.me.s 11)) world (fun _ t => t == world) = true ∧
    runs (beginRelease .pod) world = true ∧ namePanel (world.me.s 9) = world.myPanel ∧ world.nameOwner (world.me.s 9) world.myGroup.tenant = none := by
  decide +kernel
-- CountersAndCriers: room for a firing and none, a value reached exactly and one not reached, a counter outside the mask, a record of
-- kind 3, an entry that is free and one that is armed
theorem test_meets_counters : world.myGroup.cmask.getLsbD (63 : KReg).toNat = true ∧ world.myGroup.firings.length < 64 ∧
    64 ≤ (world.modGroup 0 fun g => { g with firings := List.replicate 64 ⟨0, [], 0, none, [], 0⟩ }).myGroup.firings.length ∧
    (let s := after (.ctrsetImm 5 7) world
     s.me.s 9 = 7 ∧ (7#64).toNat ≤ (s.myGroup.kval 5).toNat ∧ (s.myGroup.kval 5).toNat < (8#64).toNat) ∧
    (let s := world.modMe fun c => { c with met := some [] }
     s.me.met = some [] ∧ world.me.met = none ∧ runs (endAcquire .pod []) (s.modMe Ctx.nextRegion) = true) ∧
    (world.modGroup 0 fun g => { g with cmask := 1 }).myGroup.cmask.getLsbD (1 : KReg).toNat = false := by decide +kernel
theorem test_meets_post : gets (readBlock (world.me.s 10) 64 64) (poke world 256 3) (fun x u => recordOk x && recordCtrs u.myGroup.cmask x &&
      u.myGroup.freeEntry == some 0 && !(u.myGroup.entry 3).armed) = true ∧ world.myGroup.emask.getLsbD (63 : BitVec 6).toNat = true ∧
    ((world.modGroup 0 fun g => { g with emask := 1 }).myGroup.emask.getLsbD (1 : BitVec 6).toNat = false) ∧
    ((world.modGroup 0 fun g => g.setEntry 3 { armed := true }).myGroup.entry 3).armed = true := by decide +kernel
-- PorterCommands: a copy inside the scratchpad into a queue with room and into a full one, a length beyond 2^24, ports that are FIFOs
theorem test_meets_commands : world.cmdCheck (copyCmd 0) = .ok () ∧ world.cmdCheck (copyCmd 128) = .ok () ∧
    (∃ code v, world.cmdCheck (copyCmd 0x1000001) = .error (code, v)) ∧ (world.myGroup.queue 2).items.length < 16 ∧
    16 ≤ ((world.modGroup 0 fun g => g.setQueue 2 { items := List.replicate 16 (.cmd (copyCmd 0)) }).myGroup.queue 2).items.length ∧
    ((world.modMe fun c => c.setPort 3 { kind := 6, idx := 1 }).me.port 3).kind = 6 ∧ (world.me.port 3).kind ≠ 6 ∧ (2 ^ 24 < (0x1000001#64).toNat) :=
  ⟨ok_of_passes (by decide +kernel), ok_of_passes (by decide +kernel), error_of_not_passes (by decide +kernel), by decide +kernel⟩
theorem test_meets_shape_record : ∃ x t, Gives (readBlock 0x8000000000000100 32 8) world x t := exists_of_runs (by decide +kernel)
theorem test_meets_command_registers : world.resident [(10, 9), (17, 10), (24, 11), (31, 12), (38, 31)] ∧ world.ready 12 ∧ world.ready 31 := by
  unfold State.resident State.ready
  decide +kernel
-- PorterQueues: an address outside its window, one misaligned, one aligned; a paused chain; a number reached exactly and one not
theorem test_meets_chains : world.resolve (world.engineActor 0 0 (.porter 2)).2 0x8000000000200000 1 .load = .error (.trap 4) ∧
    world.resolve (world.engineActor 0 0 (.porter 2)).2 0x8000000000000120 1 .load ≠ .error (.trap 4) ∧
    world.resolve (world.engineActor 0 0 (.porter 2)).2 0x8000000000000100 1 .load ≠ .error (.trap 4) ∧
    (0x8000000000000120#64).toNat % 64 ≠ 0 ∧ (0x8000000000000100#64).toNat % 64 = 0 ∧
    (let s := world.modGroup 0 fun g => g.setQueue 2 { items := [.chain { actor := (copyCmd 0).actor, cur := 64, paused := true } none []] }
     (s.myGroup.queue 2).items = [.chain { actor := (copyCmd 0).actor, cur := 64, paused := true } none []]) ∧
    (let x : Queue := { num := 7 }
     (7#64).toNat ≤ x.num.toNat ∧ x.num.toNat < (8#64).toNat ∧ x.items = ([] : List Cmd).map .cmd) ∧
    runs (endAcquire .core []) (world.modMe Ctx.nextRegion) = true :=
  ⟨eq_trap (by decide +kernel), not_trap (by decide +kernel), not_trap (by decide +kernel), by decide +kernel⟩
-- MatrixInstructions: a tile, one not aligned, an address outside the window; operands of the class and others; sums of a tile
def tiled : State := (regs 1 0x8000000000004000 0).modMe fun c => ((c.setPort 6 { kind := 6, idx := 0 }).setPort 7 { kind := 6, idx := 1 }).setMask 1 1
theorem test_meets_tiles : tiled.tileAt 0x80000000001FC000 ∧ tiled.resident [(10, 10)] ∧ tiled.ready 10 ∧ tiled.tileAt (tiled.me.s 10) := by
  unfold State.tileAt State.resident State.ready
  decide +kernel
theorem test_meets_mma : classOf .bf16 = 0 ∧ classOf .e5m2 = 1 ∧ classOf .n8 = 2 ∧ classOf .mx4 = 3 ∧ (tiled.me.port 6).kind = 6 ∧ (tiled.me.port 7).kind = 6 ∧
    (tiled.me.port 0).kind ≠ 6 ∧ Cells.get [] (after (.mupl1 0x4A601020) tiled).myGroup.progs 1 ≠ [] ∧ tiled.markRoom tiled.curCore false = true ∧
    runs (checkM true true (tiled.tileParts 0 0x4000 0 (BitVec.allOnes 64) (BitVec.allOnes 64))) tiled = true ∧
    (windowOf 0x100 ≠ 8 ∧ windowOf 0x8000000000004010 = 8 ∧ (0x8000000000004010#64).toNat / 2 ^ 22 % 2 ^ 38 = 0 ∧
      (0x8000000000004010#64).toNat % 2 ^ 22 + 16384 ≤ tiled.myGroup.part * 2 ^ 18 ∧ (0x8000000000004010#64).toNat % 256 ≠ 0) := by decide +kernel
theorem test_meets_mchk : gets (loadM 4 none (((List.range 32).filter (laneOn (tiled.me.mask 1) false)).flatMap fun i => (List.range 64).map fun k =>
      (64 * i + k, tiled.me.s 10 + BitVec.ofNat 64 (elemOff 0 i k)))) tiled (fun vs u =>
    let f := fun i => tileSum .i32 ((vs.filter fun p => p.1 / 64 == i).map (·.2))
    trapOf (u.lanes 32 ⟨1, false, false⟩ f) == none && runs (wrVQ (.v 2) (u.merged 32 32 ⟨1, false, false⟩ (.v 2) f))
      (u.counted (eventsOf ((u.lanes 32 ⟨1, false, false⟩ f).map (·.2))))) = true := by decide +kernel
-- SpecialRegisters: levels 0, 1 and 2 at the first and last number of each group, reserved numbers, writes that happen
theorem test_meets_special : (srLevel 0x00F).toNat ≤ world.me.priv.toNat ∧ world.me.priv.toNat < (srLevel 0x010).toNat ∧
    world.me.priv.toNat < (srLevel 0x017).toNat ∧ (srLevel 0x040).toNat = 2 ∧ srDefined 0x001 = true ∧ srDefined 0x000 = false ∧
    srDefined 0x018 = false ∧ srDefined 0x02F = true ∧ srDefined 0x030 = false ∧ 4096 ≤ (0x1000#64).toNat ∧
    runs (writeSr 0x00A 0) world = true ∧ runs (writeSr 0x010 5) (world.modMe fun c => { c with priv := 1 }) = true := by decide +kernel
-- TrapsAndServices: spills and fills of a mapped private window, services asked and answered, TLB entries, walks, the injector
theorem test_meets_spill : let s := world.modMe fun c => { c with priv := 1 }
    s.me.lo ≤ s.me.wb ∧ (∀ i, i < 16 → LateReg.s (8 + s.me.lo + i) ∉ s.me.late) ∧
    runs (storeM 128 7 none [(0, spillHome s.me.lo, spillLine s.me s.me.lo)]) s = true ∧
    (let t := after .wspill s
     16 ≤ t.me.lo ∧ runs (loadM 128 none [(0, spillHome (t.me.lo - 16))]) t = true ∧ ¬ t.me.lo < 16) ∧
    (s.modMe fun c => { c with lo := 16 }).me.wb < 16 := by decide +kernel
theorem test_meets_service : world.me.access = none ∧ (0x40#32).toNat < 0x47 ∧ 0x47 ≤ (0x47#32).toNat ∧ (0x3F#32).toNat < 0x40 ∧
    (let x : Access := { pc := 0x10000, id := 1, need := 0, ans := some (.old [(0, 5)] []) }
     let s := world.modMe fun c => { c with access := some x }
     s.me.access = some x ∧ x.pc = s.me.pc ∧ x.need = 0 ∧ x.ans = some (.old [(0, 5)] [])) := by decide +kernel
theorem test_meets_tlb : 2 ≤ (world.modMe fun c => { c with priv := 2 }).me.priv.toNat ∧ world.me.priv ≠ 2 ∧ world.me.priv ≠ 3 ∧
    entryOk (entryOf 1 0x100000 0 0x100000 0x0C none).1 (entryOf 1 0x100000 0 0x100000 0x0C none).2 = true ∧ entryOk 0x6000000000000000 0 = false ∧
    chipOf 65 = chipOf 0 ∧ chipOf 2047 ≠ chipOf 0 ∧ runs (beginRelease .panel) world = true ∧ world.walksFor 1 none = false ∧
    ({ world with agenda := [.walkResult ⟨world.actor 0 0, 0x10000, 0, false, false⟩ .demand] } : State).walksFor 1 none = true := by decide +kernel
theorem test_meets_injector : armOk 0x3FFFFFFFFFFF 0 = true ∧ armOk 0x400000000000 0 = false ∧ armOk 0 16 = false := by decide +kernel

-- UnitEvents, ContextEvents, MessageEvents, MemoryEvents, LinkAndClockEvents, HostEvents, ManagementEvents: every device event can be at
-- hand, and the bounds of the units that the statements name
theorem test_meets_events (e : Event) : ∃ s : State, s.event = some e := ⟨{ State.reset with event := some e }, rfl⟩
theorem test_meets_units : (Event.mmaClaimLine 2047 10).wf = true ∧ (Event.mmaClaimLine 2048 10).wf = false ∧ (Event.trapReport 0 11).wf = false ∧
    (Event.porterCommandStart 2047 3).wf = true ∧ (Event.smapWrite 287 0).wf = true ∧ (Event.arrWrite 15 0).wf = true ∧
    (Event.vownWrite 255 255 0).wf = true ∧ (Event.clockChange 255 650).wf = true ∧ (Event.clockChange 255 2080).wf = true ∧
    (Event.slotBind 255 7).wf = true ∧ rowOk 255 7 = true ∧ coreOfLocal 255 7 = 2047 := by decide +kernel
-- UnitEvents: an `mma` with its operands, one that may claim its next line, a line that is empty, an increment of an allocated counter
def job : Mma :=
  { ctx := 0, pc := 0x10000, op := 0xD0, f := ⟨none, 0, 0, 0, false, false, 0, .bf16, .bf16, 0, 0, 6, 7, 10⟩, tile := 0x4000,
    rows := 1, cols := 1, fa := 0, fb := 1 }
def claiming : State := tiled.modCore 0 fun c => { c with mmas := [job] }
theorem test_meets_claims : (claiming.core 0).mmas.find? (fun x => x.ctx == job.ctx) = some job ∧ claiming.canClaim 0 job = true ∧ job.claimed < 127 ∧
    (claiming.core (coreOfKey (claiming.tileKey 0 job.tile job.claimed))).waiters = [] ∧
    (claiming.claimLine 0 0).store.isEmpty (claiming.tileKey 0 job.tile 0) = true := by decide +kernel
theorem test_meets_retire : let m := { job with operands := some (⟨0, 32, [], [], false⟩, ⟨0, 32, [], [], false⟩) }
    ((tiled.modCore 0 fun c => { c with mmas := [m] }).core 0).mmaRunning = some m ∧ m.operands.isSome = true := by decide +kernel
theorem test_meets_claim_marks : (claiming.claimMarks 0 job).2 = none ∧ (claiming.claimLine 0 0).store.isEmpty
    ((claiming.claimLine 0 0).tileKey 0 job.tile job.claimed) = true := by decide +kernel
def inc : CtrInc := { core := 0, launch := 1, ctr := 63, delta := 5, rel := none, ack := none }
theorem test_meets_increment : inc.ack = none ∧ (world.group inc.core).launch ≠ 0 ∧ inc.launch = (world.group inc.core).launch ∧
    (world.group inc.core).cmask.getLsbD inc.ctr.toNat = true ∧
    ((world.modGroup 0 fun g => { g with cmask := 1 }).group inc.core).cmask.getLsbD inc.ctr.toNat = false := by decide +kernel
-- ContextEvents: a barrier without a gather completes
theorem test_meets_barrier_event : (world.barrier 1 9).isSome = true ∧ ((world.launch 1).bar 9).gather = none := by decide +kernel
-- MessageEvents: a deposit for a held register of the named group, for one not held, and for a dead name; a wake; no slot free
def dep : Deposit :=
  { src := ⟨1, 0, 1⟩, name := 0x0000000200000005, ctx := 0, reg := 31, val := 9, high := false, kc := none, tenant := 1, tgen := 0,
    rel := ⟨Cells.empty, .pod, 0, 1, []⟩ }
theorem test_meets_messages : let s := world.modMe fun c => { c with holds := 0x80000000 }
    s.stale dep.rel.panel dep.tenant dep.tgen = false ∧ s.nameOwner dep.name dep.tenant = some (0, 1) ∧ (s.group 0).launch = 1 ∧
    (s.group 0).liveCtx dep.ctx = true ∧ (s.ctx 0 dep.ctx).held dep.reg = true ∧ (world.ctx 0 dep.ctx).held dep.reg = false ∧
    (s.group 0).liveCtx 10 = false ∧ s.nameOwner 0x0000000300000005 1 = none ∧
    ((world.modGroup 0 fun g => { g with helpers := 0 }).group 0).freeSlot = none ∧
    (world.modGroup 0 fun g => { g with helpers := 0 }).nameOwner dep.name dep.tenant = some (0, 1) := by decide +kernel
-- MemoryEvents: the retry list below its limit and at it; requests, deposits of an old generation and of the current one
/-- The core whose scratchpad holds line 256 with n remote accesses in its retry list. -/
def waitersOf (n : Nat) : State := pad.modCore 0 fun c => { c with waiters := List.replicate n ⟨pad.ownKey 0x8000000000000100, false, wantFull⟩ }
theorem test_meets_retry_list : ((waitersOf 63).core (coreOfKey (pad.ownKey 0x8000000000000100))).waiters.length < 64 ∧
    (((waitersOf 63).core (coreOfKey (pad.ownKey 0x8000000000000100))).waiters.filter fun w => !w.isLocal).length < 64 ∧
    64 ≤ (((waitersOf 64).core (coreOfKey (pad.ownKey 0x8000000000000100))).waiters.filter fun w => !w.isLocal).length := by decide +kernel
theorem test_meets_stale : (world.modTenant 1 fun t => { t with gen := 1 }).stale 0 (pad.actor 0 0).tenant (pad.actor 0 0).tgen = true ∧
    world.stale 0 inc.tenant inc.tgen = false ∧ inc.tenant = 0 ∧ (world.modTenant 1 fun t => { t with gen := 1 }).stale dep.rel.panel dep.tenant dep.tgen = true := by decide +kernel
-- LinkAndClockEvents, HostEvents, ManagementEvents: no injection armed; a bad quadrant, no session, a tenant that is not registered and one
-- that is; slot records of a core out of service, refused, and accepted
def req : HostReq :=
  { src := 0, badHeader := false, quadrant := 3, op := 0x32, session := 1, reqNo := 1, tenant := 1, core := 0, ctr := 0, addr := 0, arg := 1, tag := 0,
    payload := [] }
theorem test_meets_host : State.reset.inj.arm = none ∧ 3 < { req with quadrant := 4 }.quadrant ∧ req.quadrant ≤ 3 ∧ (State.reset.sessionOf req).isNone = true ∧
    (State.reset.tenant req.tenant).registered = false ∧ (world.tenant req.tenant).registered = true := by decide +kernel
theorem test_meets_slot_record : let v : BitVec 256 := 1#256 <<< 255 ||| 6#256 <<< 252
    let s := world.modTables fun t => { t with slott := Cells.set 0 t.slott 7 v }
    (s.row 0 7).getLsbD 255 = true ∧ recAction (s.row 0 7) = 6 ∧ s.coreUp 0 7 = true ∧
    (s.modCore (coreOfLocal 0 7) fun c => { c with isolated := true }).coreUp 0 7 = false := by decide +kernel
end
end

/-! ## Trap entry (R270, R271) -/

namespace Sys2Proof.Machine

/-! ### The word that trap entry writes to sr.cause -/

theorem toNat_append_eq_add {m n : Nat} (x : BitVec m) (y : BitVec n) : (x ++ y).toNat = x.toNat * 2 ^ n + y.toNat := by
  rw [BitVec.toNat_append, ← Nat.shiftLeft_add_eq_or_of_lt y.isLt, Nat.shiftLeft_eq]

/-- R270's table of fields, from bit 63 down: reserved, busy, reserved, mem, prev, imp, code. A code that fits its field carries into no
other. -/
theorem causeWord_eq_append (mem : Bool) (prev : BitVec 2) (imp : Bool) {code : Nat} (h : code < 256) :
    causeWord mem prev imp code =
      0#48 ++ 1#1 ++ 0#3 ++ BitVec.ofBool mem ++ prev ++ BitVec.ofBool imp ++ BitVec.ofNat 8 code := by
  have hprev : prev.toNat < 4 := prev.isLt
  apply BitVec.eq_of_toNat_eq
  simp only [causeWord, toNat_append_eq_add, BitVec.toNat_ofNat, BitVec.toNat_ofBool]
  cases mem <;> cases imp <;> simp <;> omega

section
variable (mem : Bool) (prev : BitVec 2) (imp : Bool) {code : Nat} (h : code < 256)
include h

theorem causeWord_busy : (causeWord mem prev imp code).getLsbD 15 = true := by
  rw [causeWord_eq_append mem prev imp h]
  simp only [BitVec.getLsbD_append]
  simp
theorem causeWord_mem : (causeWord mem prev imp code).getLsbD 11 = mem := by
  rw [causeWord_eq_append mem prev imp h]
  simp only [BitVec.getLsbD_append]
  simp
theorem causeWord_prev : (causeWord mem prev imp code).extractLsb' 9 2 = prev := by
  rw [causeWord_eq_append mem prev imp h, BitVec.extractLsb'_append_eq_of_le (by decide),
    BitVec.extractLsb'_append_eq_of_le (by decide)]
  exact BitVec.extractLsb'_append_eq_right
theorem causeWord_imp : (causeWord mem prev imp code).getLsbD 8 = imp := by
  rw [causeWord_eq_append mem prev imp h]
  simp only [BitVec.getLsbD_append]
  simp
theorem causeWord_code : ((causeWord mem prev imp code).extractLsb' 0 8).toNat = code := by
  rw [causeWord_eq_append mem prev imp h, BitVec.extractLsb'_append_eq_right, BitVec.toNat_ofNat, Nat.mod_eq_of_lt h]
theorem causeWord_reserved : causeWord mem prev imp code &&& ~~~0x8FFF#64 = 0 := by
  have hmask : ~~~0x8FFF#64 = ~~~0#48 ++ 0#1 ++ ~~~0#3 ++ 0#1 ++ 0#2 ++ 0#1 ++ 0#8 := by decide
  rw [causeWord_eq_append mem prev imp h, hmask]
  iterate 6 rw [BitVec.and_append]
  simp
end

/-! ### The context after trap entry -/

section
variable (c : Ctx) (vec : Word) (code : Nat) (tval epc : Word) (mem imp : Bool)

/-- The registers read as before: trap entry leaves the fields they rest on. -/
theorem Ctx.trapped_s (r : SReg) : (c.trapped vec code tval epc mem imp).s r = c.s r :=
  Ctx.s_congr (by simp) (by simp) (by simp) r
theorem Ctx.trapped_vreg (r : VReg) : (c.trapped vec code tval epc mem imp).vreg r = c.vreg r := by simp [Ctx.vreg]
theorem Ctx.trapped_mask (r : MReg) : (c.trapped vec code tval epc mem imp).mask r = c.mask r := by simp [Ctx.mask]
theorem Ctx.trapped_port (q : QReg) : (c.trapped vec code tval epc mem imp).port q = c.port q := by simp [Ctx.port]
end

/-! ### What trap entry does to the state: fatal, or a change of the one context -/

section
variable {s : State} {core ctx : Nat} (code : Nat) (tval epc : Word) (mem imp : Bool)

theorem State.enterTrap_fatal (h : (s.ctx core ctx).cause.getLsbD 15 = true ∨ (s.group core).trapvec = 0) :
    s.enterTrap core ctx code tval epc mem imp = s.fatal core ctx code epc tval := by
  unfold State.enterTrap
  rw [if_pos (by simpa [Ctx.busy] using h)]
theorem State.enterTrap_taken (hbusy : (s.ctx core ctx).cause.getLsbD 15 = false) (hvec : (s.group core).trapvec ≠ 0) :
    s.enterTrap core ctx code tval epc mem imp =
      s.modCtx core ctx fun c => c.trapped (s.group core).trapvec code tval epc mem imp := by
  unfold State.enterTrap
  rw [if_neg]
  simpa [Ctx.busy] using ⟨hbusy, hvec⟩
end

theorem sameBytes_modCtx (s : State) (core ctx : Nat) (f : Ctx → Ctx) : SameBytes s (s.modCtx core ctx f) := fun k => by
  unfold State.byteAt
  rw [State.modCtx_store]

/-- Settles O35: an entry that is not fatal changes the one context, by `Ctx.trapped`, and sr.cause holds R270's fields side by side. -/
theorem trapEntry : Obligations.TrapEntry := by
  refine ⟨fun s core ctx code tval epc mem imp h => State.enterTrap_fatal code tval epc mem imp h, ?_⟩
  intro s t core ctx code tval epc mem imp hcode hbusy hvec ht
  rw [State.enterTrap_taken code tval epc mem imp hbusy hvec] at ht
  subst ht
  rw [State.ctx_modCtx]
  exact ⟨rfl, rfl, rfl, rfl, rfl, causeWord_busy _ _ _ hcode, causeWord_mem _ _ _ hcode, causeWord_prev _ _ _ hcode,
    causeWord_imp _ _ _ hcode, causeWord_code _ _ _ hcode, causeWord_reserved _ _ _ hcode,
    fun _ => ⟨Ctx.trapped_s .., Ctx.trapped_vreg ..⟩, fun _ => ⟨Ctx.trapped_mask .., Ctx.trapped_port ..⟩,
    Ctx.trapped_wb .., Ctx.trapped_tscr .., rfl, sameBytes_modCtx s core ctx _, fun _ _ => State.ctx_modCtx_other s _⟩

end Sys2Proof.Machine

/-! ## Two-operand integer instructions and counts of bits (R335, R404, R372, R385, R436, R397, R395, R374, R349, R348, R389) -/

namespace Sys2Proof.Machine

/-! ### The results in the statements' terms -/

theorem mulHigh_unsigned (x y : Word) : mulHigh true x y = BitVec.ofNat 64 (x.toNat * y.toNat / 2 ^ 64) := rfl
theorem mulHigh_signed (x y : Word) : mulHigh false x y = BitVec.ofInt 64 (x.toInt * y.toInt / 2 ^ 64) := rfl
theorem minWord_unsigned (x y : Word) : minWord true x y = if x.ule y then x else y := by simp [minWord, BitVec.ule]
theorem minWord_signed (x y : Word) : minWord false x y = if x.sle y then x else y := by simp [minWord, BitVec.sle]
theorem maxWord_unsigned (x y : Word) : maxWord true x y = if x.ule y then y else x := by simp [maxWord, BitVec.ule]
theorem maxWord_signed (x y : Word) : maxWord false x y = if x.sle y then y else x := by simp [maxWord, BitVec.sle]

/-- A count of at most 64 fits the word it is written to. -/
theorem toNat_ofNat_of_le_64 {n : Nat} (h : n ≤ 64) : (BitVec.ofNat 64 n).toNat = n := by
  rw [BitVec.toNat_ofNat, Nat.mod_eq_of_lt (by omega)]

/-- A meaning whose result g is the function f of the statement. -/
theorem alu2_spec_of_eq {op : Nat} {mk : SQ → SQ → SQ → Instr} {f g : Word → Word → Word}
    (hexec : ∀ d a b s, exec (mk d a b) s = alu2 op d a b g s) (hresult : ∀ x y, g x y = f x y) : Binary op mk f := by
  rw [← show g = f from funext₂ hresult]
  exact alu2_spec hexec
theorem alu1_spec_of_eq {op : Nat} {mk : SQ → SQ → Instr} {f g : Word → Word}
    (hexec : ∀ d a s, exec (mk d a) s = alu1 op d a g s) (hresult : ∀ x, g x = f x) : Unary 8 op mk f := by
  rw [← show g = f from funext hresult]
  exact alu1_spec hexec

/-! ### Each instruction's meaning -/

theorem binary_add : Binary 0x00 .add (fun x y => x + y) := alu2_spec fun _ _ _ _ => rfl
theorem binary_sub : Binary 0x01 .sub (fun x y => x - y) := alu2_spec fun _ _ _ _ => rfl
theorem binary_mul : Binary 0x02 .mul (fun x y => x * y) := alu2_spec fun _ _ _ _ => rfl
theorem binary_mulh_unsigned : Binary 0x03 (.mulh true) (fun x y => BitVec.ofNat 64 (x.toNat * y.toNat / 2 ^ 64)) :=
  alu2_spec_of_eq (fun _ _ _ _ => rfl) mulHigh_unsigned
theorem binary_mulh_signed : Binary 0x03 (.mulh false) (fun x y => BitVec.ofInt 64 (x.toInt * y.toInt / 2 ^ 64)) :=
  alu2_spec_of_eq (fun _ _ _ _ => rfl) mulHigh_signed
theorem binary_and : Binary 0x07 .and (fun x y => x &&& y) := alu2_spec fun _ _ _ _ => rfl
theorem binary_or : Binary 0x08 .or (fun x y => x ||| y) := alu2_spec fun _ _ _ _ => rfl
theorem binary_xor : Binary 0x09 .xor (fun x y => x ^^^ y) := alu2_spec fun _ _ _ _ => rfl
/-- A shift takes the low six bits of b as its amount (R397). -/
theorem binary_shl : Binary 0x0A .shl (fun x y => x <<< (y.toNat % 64)) :=
  alu2_spec_of_eq (fun _ _ _ _ => rfl) fun x y => by rw [amount_eq]
theorem binary_shr : Binary 0x0B .shr (fun x y => x >>> (y.toNat % 64)) :=
  alu2_spec_of_eq (fun _ _ _ _ => rfl) fun x y => by rw [amount_eq]
theorem binary_sra : Binary 0x0C .sra (fun x y => x.sshiftRight (y.toNat % 64)) :=
  alu2_spec_of_eq (fun _ _ _ _ => rfl) fun x y => by rw [amount_eq]
theorem binary_rot : Binary 0x0D .rot (fun x y => x.rotateLeft (y.toNat % 64)) :=
  alu2_spec_of_eq (fun _ _ _ _ => rfl) fun x y => by rw [amount_eq]
theorem binary_min_unsigned : Binary 0x0E (.min true) (fun x y => if x.ule y then x else y) :=
  alu2_spec_of_eq (fun _ _ _ _ => rfl) minWord_unsigned
theorem binary_min_signed : Binary 0x0E (.min false) (fun x y => if x.sle y then x else y) :=
  alu2_spec_of_eq (fun _ _ _ _ => rfl) minWord_signed
theorem binary_max_unsigned : Binary 0x0F (.max true) (fun x y => if x.ule y then y else x) :=
  alu2_spec_of_eq (fun _ _ _ _ => rfl) maxWord_unsigned
theorem binary_max_signed : Binary 0x0F (.max false) (fun x y => if x.sle y then y else x) :=
  alu2_spec_of_eq (fun _ _ _ _ => rfl) maxWord_signed
theorem binary_cmp (c : ICond) : Binary 0x1E (.cmp c) (fun x y => oneIf (condHolds c x y)) :=
  alu2_spec_of_eq (fun _ _ _ _ => rfl) fun x y => by rw [icond_holds, boolWord_oneIf]
theorem unary_clz : Unary 8 0x1B .clz (fun x => BitVec.ofNat 64 (leadingZeros x.toNat)) := alu1_spec fun _ _ _ => rfl
theorem unary_ctz : Unary 8 0x1C .ctz (fun x => BitVec.ofNat 64 (lowestOne x.toNat 64)) := alu1_spec fun _ _ _ => rfl
theorem unary_popc : Unary 8 0x1D .popc (fun x => BitVec.ofNat 64 ((List.range 64).countP fun i => x.getLsbD i)) :=
  alu1_spec_of_eq (fun _ _ _ => rfl) fun x => by rw [onesIn_countP]

/-- Settles O1: each instruction is `alu2` with its function, whose three outcomes `alu2_spec` gives; the printed words are decoded. -/
theorem scalarBinary : Obligations.ScalarBinary :=
  ⟨binary_add, binary_sub, binary_mul, binary_mulh_unsigned, binary_mulh_signed, binary_and, binary_or, binary_xor, binary_shl,
    binary_shr, binary_sra, binary_rot, binary_min_unsigned, binary_min_signed, binary_max_unsigned, binary_max_signed, binary_cmp,
    by decide, by decide, by decide, by decide, by decide⟩

/-- Settles O4: each count is `alu1` with its function; the first one found from the top, or from the bottom, has only zeros before it. -/
theorem bitCounts : Obligations.BitCounts := by
  refine ⟨⟨_, unary_clz, fun x => ?_⟩, ⟨_, unary_ctz, fun x => ?_⟩, unary_popc, by decide, by decide⟩
  · rw [toNat_ofNat_of_le_64 (leadingZeros_le _)]
    exact ⟨leadingZeros_le _, leadingZeros_clear _, leadingZeros_set _⟩
  · rw [toNat_ofNat_of_le_64 (lowestOne_le _ _)]
    exact ⟨lowestOne_le _ _, lowestOne_clear _ _, lowestOne_set _ _⟩

end Sys2Proof.Machine

/-! ## Three-operand integer instructions (R372, R396) -/

namespace Sys2Proof.Machine

theorem ternary_mad : Ternary .mad (fun x y z => x * y + z) := alu3_spec fun _ _ _ _ _ => rfl
/-- The model chooses a where c is not 0 (R396); the statement gives the case of c = 0 first. -/
theorem ternary_sel : Ternary .sel (fun x y z => if z = 0 then y else x) := by
  have hchoice : (fun x y z : Word => if z ≠ 0 then x else y) = fun x y z => if z = 0 then y else x := by
    funext x y z
    exact ite_not (z = 0) x y
  rw [← hchoice]
  exact alu3_spec fun _ _ _ _ _ => rfl

/-- Settles O5: mad and sel are `alu3` with their functions, whose reads in the order a, b, c `alu3_spec` gives; the printed word of
R396 is decoded. -/
theorem scalarTernary : Obligations.ScalarTernary := ⟨ternary_mad, ternary_sel, by decide⟩

end Sys2Proof.Machine

/-! ## Bit operations, shifts and copies of lanes (R414, R425, R426) -/

namespace Sys2Proof.Machine

section
variable (t : ElemTy)

/-! ### Bit operations (R414) -/

theorem vec2_vand : Vec2 t (.vand t) wrVQ .rne (fun _ x y => .ok (Nat.land x y) none) := vec2_spec fun _ _ _ _ _ => rfl
theorem vec2_vor : Vec2 t (.vor t) wrVQ .rne (fun _ x y => .ok (Nat.lor x y) none) := vec2_spec fun _ _ _ _ _ => rfl
theorem vec2_vxor : Vec2 t (.vxor t) wrVQ .rne (fun _ x y => .ok (Nat.xor x y) none) := vec2_spec fun _ _ _ _ _ => rfl

/-! ### Shifts: the lane of b is the whole amount, not reduced modulo the lane width (R425) -/

theorem vec2_vshl : Vec2 t (.vshl t) wrVQ .rne (fun _ x y => .ok (if t.lane ≤ y then 0 else x * 2 ^ y % 2 ^ t.lane) none) :=
  vec2_spec fun _ _ _ _ _ => rfl
theorem vec2_vshr : Vec2 t (.vshr t) wrVQ .rne (fun _ x y => .ok (if t.lane ≤ y then 0 else x / 2 ^ y) none) :=
  vec2_spec fun _ _ _ _ _ => rfl
theorem vec2_vsra :
    Vec2 t (.vsra t) wrVQ .rne (fun _ x y => .ok (ibits t.lane (ival true t.lane x / 2 ^ min y t.lane)) none) :=
  vec2_spec fun _ _ _ _ _ => rfl

/-! ### Copies (R426) -/

theorem vec1_vmov : Vec1 t (.vmov t) wrVQ .rne (fun _ x => .ok x none) := vec1_spec fun _ _ _ _ => rfl
end

/-- Settles O15: each instruction is `vec2`, or `vec1` for `vmov`, with its function of the lanes; `vec2_spec` and `vec1_spec` give the
lanes written under the mask and the trap of a held destination. The printed word of R414 is decoded. -/
theorem vectorBits : Obligations.VectorBits :=
  ⟨vec2_vand, vec2_vor, vec2_vxor, vec2_vshl, vec2_vshr, vec2_vsra, vec1_vmov, by decide⟩

end Sys2Proof.Machine

/-! ## Decoding (R70 to R91) -/

namespace Sys2Proof

/-! ### Every instruction's field record is read back -/

open Laws in
/-- The round trip of every constructor, from the law of that constructor. -/
theorem roundTrip : ∀ i : Instr, Laws.RoundTrip.Statement i
  | .add .. => RoundTrip.add _ _ _ | .sub .. => RoundTrip.sub _ _ _ | .mul .. => RoundTrip.mul _ _ _
  | .mulh .. => RoundTrip.mulh _ _ _ _ | .mad .. => RoundTrip.mad _ _ _ _ | .div .. => RoundTrip.div _ _ _ _
  | .rem .. => RoundTrip.rem _ _ _ _ | .and .. => RoundTrip.and _ _ _ | .or .. => RoundTrip.or _ _ _
  | .xor .. => RoundTrip.xor _ _ _ | .shl .. => RoundTrip.shl _ _ _ | .shr .. => RoundTrip.shr _ _ _
  | .sra .. => RoundTrip.sra _ _ _ | .rot .. => RoundTrip.rot _ _ _ | .min .. => RoundTrip.min _ _ _ _
  | .max .. => RoundTrip.max _ _ _ _ | .addi .. => RoundTrip.addi _ _ _ | .andi .. => RoundTrip.andi _ _ _
  | .ori .. => RoundTrip.ori _ _ _ | .xori .. => RoundTrip.xori _ _ _ | .shli .. => RoundTrip.shli _ _ _
  | .shri .. => RoundTrip.shri _ _ _ | .srai .. => RoundTrip.srai _ _ _ | .cmpi .. => RoundTrip.cmpi _ _ _ _
  | .movi .. => RoundTrip.movi _ _ | .bext .. => RoundTrip.bext _ _ _ _ _ | .bins .. => RoundTrip.bins _ _ _ _
  | .clz .. => RoundTrip.clz _ _ | .ctz .. => RoundTrip.ctz _ _ | .popc .. => RoundTrip.popc _ _
  | .cmp .. => RoundTrip.cmp _ _ _ _ | .sel .. => RoundTrip.sel _ _ _ _ | .faddF32 .. => RoundTrip.faddF32 _ _ _ _ _
  | .faddF64 .. => RoundTrip.faddF64 _ _ _ _ _ | .fsubF32 .. => RoundTrip.fsubF32 _ _ _ _ _
  | .fsubF64 .. => RoundTrip.fsubF64 _ _ _ _ _ | .fmulF32 .. => RoundTrip.fmulF32 _ _ _ _ _
  | .fmulF64 .. => RoundTrip.fmulF64 _ _ _ _ _ | .ffmaF32 .. => RoundTrip.ffmaF32 _ _ _ _ _ _
  | .ffmaF64 .. => RoundTrip.ffmaF64 _ _ _ _ _ _ | .fdivF32 .. => RoundTrip.fdivF32 _ _ _ _ _
  | .fdivF64 .. => RoundTrip.fdivF64 _ _ _ _ _ | .fsqrtF32 .. => RoundTrip.fsqrtF32 _ _ _ _
  | .fsqrtF64 .. => RoundTrip.fsqrtF64 _ _ _ _ | .fmin .. => RoundTrip.fmin _ _ _ _ | .fmax .. => RoundTrip.fmax _ _ _ _
  | .fcmp .. => RoundTrip.fcmp _ _ _ _ _ | .fcvt .. => RoundTrip.fcvt _ _ _ _ _ _ | .br .. => RoundTrip.br _
  | .bcnd .. => RoundTrip.bcnd _ _ _ _ | .bmask .. => RoundTrip.bmask _ _ _ _ | .call .. => RoundTrip.call _
  | .callr .. => RoundTrip.callr _ | .jr .. => RoundTrip.jr _ | .loop .. => RoundTrip.loop _ _ | .halt .. => RoundTrip.halt _
  | .brAbs .. => RoundTrip.brAbs _ | .vaddI .. => RoundTrip.vaddI _ _ _ _ _ _ | .vaddF .. => RoundTrip.vaddF _ _ _ _ _ _ _
  | .vsubI .. => RoundTrip.vsubI _ _ _ _ _ _ | .vsubF .. => RoundTrip.vsubF _ _ _ _ _ _ _
  | .vmulI .. => RoundTrip.vmulI _ _ _ _ _ _ | .vmulF .. => RoundTrip.vmulF _ _ _ _ _ _ _
  | .vfmaI .. => RoundTrip.vfmaI _ _ _ _ _ _ _ | .vfmaF .. => RoundTrip.vfmaF _ _ _ _ _ _ _ _
  | .vmaxI .. => RoundTrip.vmaxI _ _ _ _ _ | .vmaxF .. => RoundTrip.vmaxF _ _ _ _ _ | .vminI .. => RoundTrip.vminI _ _ _ _ _
  | .vminF .. => RoundTrip.vminF _ _ _ _ _ | .vcmpI .. => RoundTrip.vcmpI _ _ _ _ _ _
  | .vcmpF .. => RoundTrip.vcmpF _ _ _ _ _ _ | .vabs .. => RoundTrip.vabs _ _ _ _ _ | .vneg .. => RoundTrip.vneg _ _ _ _ _
  | .vdiv .. => RoundTrip.vdiv _ _ _ _ _ _ _ | .vsqrt .. => RoundTrip.vsqrt _ _ _ _ _ _
  | .vrcp .. => RoundTrip.vrcp _ _ _ _ _ _ | .vrsqrt .. => RoundTrip.vrsqrt _ _ _ _ _ _
  | .vexp2 .. => RoundTrip.vexp2 _ _ _ _ _ _ | .vlog2 .. => RoundTrip.vlog2 _ _ _ _ _ _
  | .vdot .. => RoundTrip.vdot _ _ _ _ _ _ _ _ | .vand .. => RoundTrip.vand _ _ _ _ _ | .vor .. => RoundTrip.vor _ _ _ _ _
  | .vxor .. => RoundTrip.vxor _ _ _ _ _ | .vshl .. => RoundTrip.vshl _ _ _ _ _ | .vshr .. => RoundTrip.vshr _ _ _ _ _
  | .vsra .. => RoundTrip.vsra _ _ _ _ _ | .vsel .. => RoundTrip.vsel _ _ _ _ _ | .vmov .. => RoundTrip.vmov _ _ _ _
  | .vbcast .. => RoundTrip.vbcast _ _ _ _ | .vperm .. => RoundTrip.vperm _ _ _ _ _ _ | .vredI .. => RoundTrip.vredI _ _ _ _ _
  | .vredF .. => RoundTrip.vredF _ _ _ _ _ _ _ | .vscanI .. => RoundTrip.vscanI _ _ _ _ _ _
  | .vscanF .. => RoundTrip.vscanF _ _ _ _ _ _ _ | .vslide .. => RoundTrip.vslide _ _ _ _ _
  | .vzip .. => RoundTrip.vzip _ _ _ _ _ _ _ | .vext .. => RoundTrip.vext _ _ _ _ | .vextImm .. => RoundTrip.vextImm _ _ _ _
  | .vins .. => RoundTrip.vins _ _ _ _ | .vcvtSame .. => RoundTrip.vcvtSame _ _ _ _ _ _ _ _
  | .vcvtWide .. => RoundTrip.vcvtWide _ _ _ _ _ _ _ _ | .vcvtNarrow .. => RoundTrip.vcvtNarrow _ _ _ _ _ _ _ _
  | .vqnt .. => RoundTrip.vqnt _ _ _ _ _ _ _ | .vdqnt .. => RoundTrip.vdqnt _ _ _ _ _ _ | .vrnd .. => RoundTrip.vrnd _ _ _
  | .mand .. => RoundTrip.mand _ _ _ | .mor .. => RoundTrip.mor _ _ _ | .mxor .. => RoundTrip.mxor _ _ _
  | .mnot .. => RoundTrip.mnot _ _ _ | .mpopc .. => RoundTrip.mpopc _ _ _ | .mfirst .. => RoundTrip.mfirst _ _ _
  | .mset .. => RoundTrip.mset _ _ _ | .msetN .. => RoundTrip.msetN _ _ | .msetB8 .. => RoundTrip.msetB8 _ _
  | .msetB16 .. => RoundTrip.msetB16 _ _ | .msetB32 .. => RoundTrip.msetB32 _ _ | .mmov .. => RoundTrip.mmov _ _
  | .mmovS .. => RoundTrip.mmovS _ _ _ | .mmovB8 .. => RoundTrip.mmovB8 _ _ _ | .mmovB16 .. => RoundTrip.mmovB16 _ _ _
  | .mmovB32 .. => RoundTrip.mmovB32 _ _ _ | .ld .. => RoundTrip.ld _ _ _ | .ldOrdered .. => RoundTrip.ldOrdered _ _ _ _ _
  | .st .. => RoundTrip.st _ _ _ | .stOrdered .. => RoundTrip.stOrdered _ _ _ _ _ | .vld .. => RoundTrip.vld _ _ _
  | .vldOrdered .. => RoundTrip.vldOrdered _ _ _ _ _ | .vst .. => RoundTrip.vst _ _ _
  | .vstOrdered .. => RoundTrip.vstOrdered _ _ _ _ _ | .vldx .. => RoundTrip.vldx _ _ _ _
  | .vldxOrdered .. => RoundTrip.vldxOrdered _ _ _ _ _ _ | .vstx .. => RoundTrip.vstx _ _ _ _
  | .vstxOrdered .. => RoundTrip.vstxOrdered _ _ _ _ _ _ | .vlds .. => RoundTrip.vlds _ _ _ _
  | .vldsOrdered .. => RoundTrip.vldsOrdered _ _ _ _ _ _ | .vsts .. => RoundTrip.vsts _ _ _ _
  | .vstsOrdered .. => RoundTrip.vstsOrdered _ _ _ _ _ _ | .ldfS .. => RoundTrip.ldfS _ _ _ _ _
  | .ldfV .. => RoundTrip.ldfV _ _ _ _ _ | .stfS .. => RoundTrip.stfS _ _ _ _ _ | .stfV .. => RoundTrip.stfV _ _ _ _ _
  | .fset .. => RoundTrip.fset _ | .fclr .. => RoundTrip.fclr _ | .amo32 .. => RoundTrip.amo32 _ _ _ _ _ _ _
  | .amo64 .. => RoundTrip.amo64 _ _ _ _ _ _ _ | .vamo32 .. => RoundTrip.vamo32 _ _ _ _ _ _ _ _ _
  | .vamo16 .. => RoundTrip.vamo16 _ _ _ _ _ _ _ _ _ | .stn .. => RoundTrip.stn _ _ _ _ _ | .fence .. => RoundTrip.fence _ _
  | .pref .. => RoundTrip.pref _ | .prefRange .. => RoundTrip.prefRange _ _ _ | .cwbr .. => RoundTrip.cwbr _ _ _ _ _
  | .cinvr .. => RoundTrip.cinvr _ _ _ _ _ | .pbind .. => RoundTrip.pbind _ _ _ | .pfree .. => RoundTrip.pfree _
  | .pstat .. => RoundTrip.pstat _ _ | .pclose .. => RoundTrip.pclose _ | .pmark .. => RoundTrip.pmark _ _
  | .start .. => RoundTrip.start _ _ _ | .spawn .. => RoundTrip.spawn _ _ _ _ | .join .. => RoundTrip.join _ _
  | .bar .. => RoundTrip.bar _ _ _ | .follow .. => RoundTrip.follow _ | .task .. => RoundTrip.task _ _
  | .ckpt .. => RoundTrip.ckpt _ _ | .wake .. => RoundTrip.wake _ _ | .hold .. => RoundTrip.hold _
  | .holdSet .. => RoundTrip.holdSet _ | .hclr .. => RoundTrip.hclr _ | .depvK .. => RoundTrip.depvK _ _ _ _ _
  | .depv .. => RoundTrip.depv _ _ _ _ | .depsK .. => RoundTrip.depsK _ _ _ _ _ | .deps .. => RoundTrip.deps _ _ _ _
  | .post .. => RoundTrip.post _ _ _ _ _ _ _ _ | .unpost .. => RoundTrip.unpost _ _ | .ctradd .. => RoundTrip.ctradd _ _
  | .ctraddImm .. => RoundTrip.ctraddImm _ _ | .ctrset .. => RoundTrip.ctrset _ _ | .ctrsetImm .. => RoundTrip.ctrsetImm _ _
  | .ctrget .. => RoundTrip.ctrget _ _ _ | .ctrwait .. => RoundTrip.ctrwait _ _ | .ctrwaitImm .. => RoundTrip.ctrwaitImm _ _
  | .cpy .. => RoundTrip.cpy _ _ _ _ _ _ _ _ | .cpy2d .. => RoundTrip.cpy2d _ _ _ _ _ _ _ _
  | .cpy3d .. => RoundTrip.cpy3d _ _ _ _ _ _ _ | .cpyMc .. => RoundTrip.cpyMc _ _ _ _ _ _ _ _
  | .cpyQ .. => RoundTrip.cpyQ _ _ _ _ _ _ | .cpyQ2d .. => RoundTrip.cpyQ2d _ _ _ _ _ _ _
  | .cpyPl .. => RoundTrip.cpyPl _ _ _ _ _ _ _ | .cpyFill .. => RoundTrip.cpyFill _ _ _ _
  | .cpyxG .. => RoundTrip.cpyxG _ _ _ _ _ _ | .cpyxS .. => RoundTrip.cpyxS _ _ _ _ _ _
  | .chainHead .. => RoundTrip.chainHead _ _ | .chainApp .. => RoundTrip.chainApp _ | .qfence .. => RoundTrip.qfence _ _
  | .qwait .. => RoundTrip.qwait _ _ | .qwaitImm .. => RoundTrip.qwaitImm _ _ | .qstat .. => RoundTrip.qstat _ _ _ _
  | .mma16Slot0 .. => RoundTrip.mma16Slot0 _ | .mma16Slot1 .. => RoundTrip.mma16Slot1 _
  | .mma8fSlot0 .. => RoundTrip.mma8fSlot0 _ | .mma8fSlot1 .. => RoundTrip.mma8fSlot1 _
  | .mma8iSlot0 .. => RoundTrip.mma8iSlot0 _ | .mma8iSlot1 .. => RoundTrip.mma8iSlot1 _
  | .mma4Slot0 .. => RoundTrip.mma4Slot0 _ | .mma4Slot1 .. => RoundTrip.mma4Slot1 _ | .mupl1 .. => RoundTrip.mupl1 _
  | .mupl2 .. => RoundTrip.mupl2 _ | .mupl3 .. => RoundTrip.mupl3 _ | .mchkRow .. => RoundTrip.mchkRow _ _ _ _ _ _
  | .mchkCol .. => RoundTrip.mchkCol _ _ _ _ _ _ | .mzero .. => RoundTrip.mzero _ | .mfsr .. => RoundTrip.mfsr _ _
  | .mfsrReg .. => RoundTrip.mfsrReg _ _ | .mtsr .. => RoundTrip.mtsr _ _ | .mtsrReg .. => RoundTrip.mtsrReg _ _
  | .trap .. => RoundTrip.trap _ _ | .trapReg .. => RoundTrip.trapReg _ _ | .tlbw .. => RoundTrip.tlbw _ _
  | .tlbwRm .. => RoundTrip.tlbwRm _ _ _ | .tlbiVa .. => RoundTrip.tlbiVa _ | .tlbiTn .. => RoundTrip.tlbiTn _
  | .ecall .. => RoundTrip.ecall _ _ _ | .ecallReg .. => RoundTrip.ecallReg _ _ _ | .injArm .. => RoundTrip.injArm _ _ _
  | .injOff .. => RoundTrip.injOff _ | .movw .. => RoundTrip.movw _ _ | .addiFx .. => RoundTrip.addiFx _ _
  | .andiFx .. => RoundTrip.andiFx _ _ | .oriFx .. => RoundTrip.oriFx _ _ | .xoriFx .. => RoundTrip.xoriFx _ _
  | .callAbs .. => RoundTrip.callAbs _ | .vbcastImm .. => RoundTrip.vbcastImm _ _ | .msetLo .. => RoundTrip.msetLo _ _
  | .msetHi .. => RoundTrip.msetHi _ _ | .ldAbs .. => RoundTrip.ldAbs _ _ | .stAbs .. => RoundTrip.stAbs _ _
  | .vldAbs .. => RoundTrip.vldAbs _ _ | .vstAbs .. => RoundTrip.vstAbs _ _ | .startFe .. => RoundTrip.startFe _ _ _
  | .spawnFe .. => RoundTrip.spawnFe _ _ _ _ | .cmpiFe .. => RoundTrip.cmpiFe _ _ _ _ | .ret => RoundTrip.ret
  | .nop => RoundTrip.nop | .yield => RoundTrip.yield | .wspill => RoundTrip.wspill | .wfill => RoundTrip.wfill
  | .nopW => RoundTrip.nopW | .nopX => RoundTrip.nopX | .leave => RoundTrip.leave | .tdone => RoundTrip.tdone
  | .park => RoundTrip.park | .mzeroSlot0 => RoundTrip.mzeroSlot0 | .mzeroSlot1 => RoundTrip.mzeroSlot1
  | .rett => RoundTrip.rett | .tlbiAll => RoundTrip.tlbiAll | .domainSwitch => RoundTrip.domainSwitch
  | .replayMarkRemoval => RoundTrip.replayMarkRemoval | .collectiveBuild => RoundTrip.collectiveBuild
  | .collectiveRelease => RoundTrip.collectiveRelease | .meterRecordService => RoundTrip.meterRecordService
  | .pageResolve => RoundTrip.pageResolve | .pageFail => RoundTrip.pageFail
  | .handlerTableInstall => RoundTrip.handlerTableInstall | .hostOpenSession => RoundTrip.hostOpenSession
  | .hostCloseSession => RoundTrip.hostCloseSession | .hostIdentity => RoundTrip.hostIdentity
  | .hostWrite => RoundTrip.hostWrite | .hostRead => RoundTrip.hostRead | .hostNotify => RoundTrip.hostNotify
  | .hostRegisterTenant => RoundTrip.hostRegisterTenant | .hostDeregisterTenant => RoundTrip.hostDeregisterTenant
  | .hostResetTenant => RoundTrip.hostResetTenant | .hostLoadContainer => RoundTrip.hostLoadContainer
  | .hostSubmitLaunch => RoundTrip.hostSubmitLaunch | .hostLaunchStatus => RoundTrip.hostLaunchStatus
  | .hostMeterRecord => RoundTrip.hostMeterRecord | .hostRecablePod => RoundTrip.hostRecablePod
  | .containerForward => RoundTrip.containerForward | .slotBind => RoundTrip.slotBind | .slotSave => RoundTrip.slotSave
  | .saveWritePhase => RoundTrip.saveWritePhase | .slotResume => RoundTrip.slotResume
  | .slotEvictPartition => RoundTrip.slotEvictPartition | .slotResetStop => RoundTrip.slotResetStop
  | .slotRetire => RoundTrip.slotRetire | .smapWrite => RoundTrip.smapWrite | .arrWrite => RoundTrip.arrWrite
  | .vownWrite => RoundTrip.vownWrite | .injctlWrite => RoundTrip.injctlWrite | .injseedWrite => RoundTrip.injseedWrite
  | .mgmtRegisterWrite => RoundTrip.mgmtRegisterWrite | .boot => RoundTrip.boot | .recoveryImage => RoundTrip.recoveryImage
  | .remapChange => RoundTrip.remapChange | .containment => RoundTrip.containment | .migration => RoundTrip.migration
  | .stubRetire => RoundTrip.stubRetire | .collectiveShrink => RoundTrip.collectiveShrink
  | .quantumBoundary => RoundTrip.quantumBoundary | .schedulingWindowEnd => RoundTrip.schedulingWindowEnd
  | .clockChange => RoundTrip.clockChange | .supplySagTrip => RoundTrip.supplySagTrip | .trapReport => RoundTrip.trapReport
  | .contextReady => RoundTrip.contextReady | .barrierComplete => RoundTrip.barrierComplete
  | .groupRetire => RoundTrip.groupRetire | .taskDispatch => RoundTrip.taskDispatch | .taskStart => RoundTrip.taskStart
  | .taskUnpin => RoundTrip.taskUnpin | .slotLend => RoundTrip.slotLend | .pageFaultWake => RoundTrip.pageFaultWake
  | .pageWalk => RoundTrip.pageWalk | .walkResult => RoundTrip.walkResult | .porterCommandStart => RoundTrip.porterCommandStart
  | .porterCommandComplete => RoundTrip.porterCommandComplete | .chainRecordRead => RoundTrip.chainRecordRead
  | .mmaClaimLine => RoundTrip.mmaClaimLine | .mmaStart => RoundTrip.mmaStart | .mmaRetire => RoundTrip.mmaRetire
  | .counterIncrement => RoundTrip.counterIncrement | .crierFire => RoundTrip.crierFire
  | .firedPorterCommand => RoundTrip.firedPorterCommand | .firedRemoteAtomic => RoundTrip.firedRemoteAtomic
  | .firedCounterAdd => RoundTrip.firedCounterAdd | .firedDeposit => RoundTrip.firedDeposit
  | .firedStart => RoundTrip.firedStart | .firedSpawn => RoundTrip.firedSpawn | .firedChannelSend => RoundTrip.firedChannelSend
  | .depositArrival => RoundTrip.depositArrival | .depositNack => RoundTrip.depositNack | .wakeArrival => RoundTrip.wakeArrival
  | .spawnRequest => RoundTrip.spawnRequest | .spawnReply => RoundTrip.spawnReply
  | .channelElementArrival => RoundTrip.channelElementArrival | .drainMarkerAck => RoundTrip.drainMarkerAck
  | .memoryRequest => RoundTrip.memoryRequest | .remoteSyncAccess => RoundTrip.remoteSyncAccess
  | .syncCancel => RoundTrip.syncCancel | .replyData => RoundTrip.replyData | .accessNack => RoundTrip.accessNack
  | .retryBackoffExpiry => RoundTrip.retryBackoffExpiry | .absentAnswer => RoundTrip.absentAnswer
  | .replayCompletion => RoundTrip.replayCompletion | .unreachableReturn => RoundTrip.unreachableReturn
  | .dropNotice => RoundTrip.dropNotice | .reservationTimeout => RoundTrip.reservationTimeout
  | .hopLimitDrop => RoundTrip.hopLimitDrop | .hbmCompletion => RoundTrip.hbmCompletion | .readShared => RoundTrip.readShared
  | .readExclusive => RoundTrip.readExclusive | .ownerWriteBack => RoundTrip.ownerWriteBack
  | .homePanelRequest => RoundTrip.homePanelRequest | .coherenceForward => RoundTrip.coherenceForward
  | .invalidation => RoundTrip.invalidation | .grantAck => RoundTrip.grantAck
  | .meshReplayRequest => RoundTrip.meshReplayRequest | .linkDataFlit => RoundTrip.linkDataFlit
  | .linkIdleFlit => RoundTrip.linkIdleFlit | .linkReplayRequest => RoundTrip.linkReplayRequest
  | .linkRekeyMark => RoundTrip.linkRekeyMark | .rekey => RoundTrip.rekey | .authFailureLimit => RoundTrip.authFailureLimit
  | .allowanceReturn => RoundTrip.allowanceReturn | .l1EpochWrap => RoundTrip.l1EpochWrap
  | .followLagLimit => RoundTrip.followLagLimit | .uncorrectableError => RoundTrip.uncorrectableError
  | .linkFailure => RoundTrip.linkFailure | .supplySagClear => RoundTrip.supplySagClear
  | .illegalInstructionFetch => RoundTrip.illegalInstructionFetch | .resultAvailable => RoundTrip.resultAvailable
  | .hostBadRequest => RoundTrip.hostBadRequest

/-! ### Bytes past the instruction -/

/-- The number that the bytes of v read as, whatever bytes follow and wherever the reader stops past them. -/
theorem leNat_take_leBytes_append {n v m : Nat} (hv : v < 256 ^ n) (hn : n ≤ m) (rest : List Byte) :
    ∃ k, leNat ((leBytes n v ++ rest).take m) = v + 256 ^ n * k := by
  rw [List.take_append, leBytes_length, List.take_of_length_le (by rw [leBytes_length]; exact hn), leNat_append, leNat_leBytes,
    Nat.mod_eq_of_lt hv, leBytes_length]
  exact ⟨_, rfl⟩

theorem Raw.bytes_eq (r : Raw) : r.bytes = r.format.bytes := by cases r <;> rfl
theorem Raw.bytes_cases (r : Raw) : r.bytes = 8 ∨ r.bytes = 12 ∨ r.bytes = 16 := by cases r <;> simp [Raw.bytes]

/-- An instruction has at least four bytes, so its opcode and its length code are in its own bytes. -/
theorem Raw.four_dvd_pow_bytes (r : Raw) : ∃ c, 256 ^ r.bytes = 1024 * c := by
  obtain h | h | h := r.bytes_cases <;> rw [h]
  · exact ⟨2 ^ 54, by norm_num⟩
  · exact ⟨2 ^ 86, by norm_num⟩
  · exact ⟨2 ^ 118, by norm_num⟩
theorem Raw.opcodeOf_add (r : Raw) (k : Nat) : opcodeOf (r.value + 256 ^ r.bytes * k) = r.op.toNat := by
  obtain ⟨c, hc⟩ := r.four_dvd_pow_bytes
  rw [← r.value_op, hc, Nat.mul_assoc]
  unfold opcodeOf
  omega
theorem Raw.lengthCode_add (r : Raw) (k : Nat) :
    lengthCode (BitVec.ofNat 8 (r.value + 256 ^ r.bytes * k)) = some r.bytes := by
  obtain ⟨c, hc⟩ := r.four_dvd_pow_bytes
  have hlow : BitVec.ofNat 8 (r.value + 256 ^ r.bytes * k) = BitVec.ofNat 8 r.value := by
    apply BitVec.eq_of_toNat_eq
    rw [hc, Nat.mul_assoc, BitVec.toNat_ofNat, BitVec.toNat_ofNat]
    omega
  rw [hlow, r.value_length]
theorem Raw.rawOf_add (r : Raw) (k : Nat) : rawOf r.format (r.value + 256 ^ r.bytes * k) = r := by
  rw [r.bytes_eq, rawOf_low, rawOf_value]

/-! ### What the decoder answers -/

/-- The bytes of a field record, under the format of its opcode, decode to what its fields decode to. -/
theorem decode_of_raw {r : Raw} {i : Instr} (hdec : ofRaw r = .ok i) (hformat : formatOf r.op.toNat = r.format) (rest : List Byte) :
    decode (leBytes r.bytes r.value ++ rest) = .ok (i, r.bytes) := by
  have hlen : r.bytes ≤ 16 := by obtain h | h | h := r.bytes_cases <;> omega
  obtain ⟨k, hk⟩ := leNat_take_leBytes_append r.value_lt hlen rest
  simp only [decode, decodeAt, hk, r.lengthCode_add, r.opcodeOf_add, hformat, r.rawOf_add, hdec, ← r.bytes_eq]
  rw [if_neg (by omega), if_neg (by simp)]
/-- Fields without a fault. -/
theorem ofRaw_of_noFault {r : Raw} {i : Instr} (h : decRaw r [] = (i, [])) : ofRaw r = .ok i := by
  simp only [ofRaw, h]
  rfl

/-- Settles O32: the round trip of the fields, with the opcode, the length code and the fields read from the instruction's own bytes. -/
theorem decodeEncode : Obligations.DecodeEncode := by
  intro i rest hwf hne
  obtain hnone | ⟨r, hraw, hdec, hformat⟩ := roundTrip i hwf
  · exact absurd (by rw [encode, hnone]) hne
  · have henc : encode i = leBytes r.bytes r.value := by rw [encode, hraw]
    rw [henc, leBytes_length]
    exact decode_of_raw (ofRaw_of_noFault hdec) hformat rest

/-- Settles O33: each printed word is decoded. -/
theorem decodeWords : Obligations.DecodeWords := by
  refine ⟨?_, ?_, ?_, ?_, ?_, ?_, ?_, ?_, ?_, ?_, ?_, ?_, ?_, ?_, ?_, ?_, ?_⟩ <;> decide

end Sys2Proof

/-! ## Quotients, immediates and moves of scalars (R355, R393, R336, R381, R342, R349) -/

namespace Sys2Proof.Machine

theorem alu2Late_spec_of_eq {op : Nat} {mk : SQ → SQ → SQ → Instr} {f g : Word → Word → Word}
    (hexec : ∀ d a b s, exec (mk d a b) s = alu2Late op d a b g s) (hresult : ∀ x y, g x y = f x y) : BinaryLate mk f := by
  rw [← show g = f from funext₂ hresult]
  exact alu2Late_spec hexec

theorem binaryLate_div_unsigned : BinaryLate (.div true) (fun x y => if y = 0 then BitVec.allOnes 64 else x / y) :=
  alu2Late_spec_of_eq (fun _ _ _ _ => rfl) divWord_unsigned
theorem binaryLate_div_signed : BinaryLate (.div false) (fun x y => if y = 0 then BitVec.allOnes 64 else x.sdiv y) :=
  alu2Late_spec_of_eq (fun _ _ _ _ => rfl) divWord_signed
theorem binaryLate_rem_unsigned : BinaryLate (.rem true) (fun x y => if y = 0 then x else x % y) :=
  alu2Late_spec_of_eq (fun _ _ _ _ => rfl) remWord_unsigned
theorem binaryLate_rem_signed : BinaryLate (.rem false) (fun x y => if y = 0 then x else x.srem y) :=
  alu2Late_spec_of_eq (fun _ _ _ _ => rfl) remWord_signed

/-- Settles O2: div and rem are `alu2Late` with `divWord` and `remWord`, which are the quotients and remainders of bit vectors. -/
theorem scalarDivision : Obligations.ScalarDivision :=
  ⟨binaryLate_div_unsigned, binaryLate_div_signed, binaryLate_rem_unsigned, binaryLate_rem_signed⟩

/-! ### Immediates -/

theorem unary_addi (imm : BitVec 32) : Unary 8 0x10 (fun d a => .addi d a imm) (fun x => x + imm.signExtend 64) :=
  alu1_spec fun _ _ _ => rfl
theorem unary_andi (imm : BitVec 32) : Unary 8 0x11 (fun d a => .andi d a imm) (fun x => x &&& imm.signExtend 64) :=
  alu1_spec fun _ _ _ => rfl
theorem unary_ori (imm : BitVec 32) : Unary 8 0x12 (fun d a => .ori d a imm) (fun x => x ||| imm.signExtend 64) :=
  alu1_spec fun _ _ _ => rfl
theorem unary_xori (imm : BitVec 32) : Unary 8 0x13 (fun d a => .xori d a imm) (fun x => x ^^^ imm.signExtend 64) :=
  alu1_spec fun _ _ _ => rfl
theorem unary_shli (n : BitVec 6) : Unary 8 0x14 (fun d a => .shli d a n) (fun x => x <<< n.toNat) := alu1_spec fun _ _ _ => rfl
theorem unary_shri (n : BitVec 6) : Unary 8 0x15 (fun d a => .shri d a n) (fun x => x >>> n.toNat) := alu1_spec fun _ _ _ => rfl
theorem unary_srai (n : BitVec 6) : Unary 8 0x16 (fun d a => .srai d a n) (fun x => x.sshiftRight n.toNat) :=
  alu1_spec fun _ _ _ => rfl
theorem unary_cmpi (c : ICond) (imm : BitVec 32) :
    Unary 8 0x17 (fun d a => .cmpi c d a imm) (fun x => oneIf (condHolds c x (imm.signExtend 64))) :=
  alu1_spec_of_eq (fun _ _ _ => rfl) fun x => by rw [icond_holds, boolWord_oneIf]
theorem unary_bext_signed (pos : BitVec 6) (len : BitVec 7) :
    Unary 8 0x19 (fun d a => .bext true d a pos len) (fun x => (x.extractLsb' pos.toNat len.toNat).signExtend 64) :=
  alu1_spec_of_eq (fun _ _ _ => rfl) fun x => bitField_signed x _ _
theorem unary_bext_unsigned (pos : BitVec 6) (len : BitVec 7) :
    Unary 8 0x19 (fun d a => .bext false d a pos len) (fun x => (x.extractLsb' pos.toNat len.toNat).setWidth 64) :=
  alu1_spec_of_eq (fun _ _ _ => rfl) fun x => bitField_plain x _ _

/-- Settles O3: each form is `alu1` with its function; the comparison and the bit fields are those of bit vectors. -/
theorem scalarImmediate : Obligations.ScalarImmediate :=
  ⟨unary_addi, unary_andi, unary_ori, unary_xori, unary_shli, unary_shri, unary_srai, unary_cmpi, unary_bext_signed,
    unary_bext_unsigned⟩

/-! ### Moves, long immediates and the insertion of a bit field -/

theorem namesQ_run {op : Nat} {rs : List (Nat × SQ)} {s : State} (h : s.resident (sqRegs rs)) : namesQ op rs s = .ok ((), s) :=
  M.names_run h

theorem exec_movi {s t : State} {d : SQ} {imm : BitVec 32} (hd : s.resident (sqRegs [(10, d)]))
    (ht : s.takes d (imm.signExtend 64) t) : exec (.movi d imm) s = .next (t.past 8) := by
  refine instr_ok ?_
  rw [M.bind_run, namesQ_run hd]
  exact ht
theorem exec_movw {s : State} {d : SReg} (imm : Word) (hd : s.resident [(10, d)]) :
    exec (.movw d imm) s = .next ((s.wroteS d imm).past 12) := by
  refine instr_ok ?_
  rw [M.bind_run, M.names_run hd]
  exact M.wrS_run d imm s
theorem exec_cmpiFe {s : State} (c : ICond) {d a : SReg} (imm : Word) (hr : s.resident [(10, d), (17, a)]) (ha : s.ready a) :
    exec (.cmpiFe c d a imm) s = .next ((s.wroteS d (oneIf (condHolds c (s.me.s a) imm))).past 16) := by
  refine instr_ok ?_
  simp only [M.bind_run, M.names_run hr, M.rdS_run ha, M.wrS_run, icond_holds, boolWord_oneIf]
theorem exec_bins {s t : State} {d : SReg} {a : SQ} (pos : BitVec 6) (len : BitVec 7) {y : Word}
    (hr : s.resident (sqRegs [(10, .s d), (17, a)])) (ha : s.gives a y t) (hd : t.ready d) :
    exec (.bins d a pos len) s = .next ((t.wroteS d (putField (t.me.s d) y pos.toNat len.toNat)).past 8) := by
  refine instr_ok ?_
  unfold State.gives at ha
  simp only [M.bind_run, namesQ_run hr, ha, M.rdS_run hd, M.wrS_run]

/-- Settles O6: the moves write their immediate, the long forms are `aluFx`, and the field that bins inserts is `putField`. -/
theorem scalarMoves : Obligations.ScalarMoves :=
  ⟨fun _ _ _ _ => exec_movi, fun _ _ imm => exec_movw imm, fun _ => aluFx_spec fun _ _ => rfl, fun _ => aluFx_spec fun _ _ => rfl,
    fun _ => aluFx_spec fun _ _ => rfl, fun _ => aluFx_spec fun _ _ => rfl, fun _ c _ _ imm => exec_cmpiFe c imm,
    fun pos len x y => putField x y pos len, fun _ _ _ _ pos len _ => exec_bins pos len, putField_bit⟩

end Sys2Proof.Machine

/-! ## Scalar floats (R358, R360, R361, R157) -/

namespace Sys2Proof.Machine

/-- Settles O7: each operation is `fop2`, `fop1` or `fop3` with its format and function, whose completion the laws of these shapes give. -/
theorem floatArithmetic : Obligations.FloatArithmetic :=
  ⟨fop2_spec false fun _ _ _ _ _ _ => rfl, fop2_spec false fun _ _ _ _ _ _ => rfl, fop2_spec false fun _ _ _ _ _ _ => rfl,
    fop2_spec false fun _ _ _ _ _ _ => rfl, fop2_spec false fun _ _ _ _ _ _ => rfl, fop2_spec false fun _ _ _ _ _ _ => rfl,
    fop2_spec true fun _ _ _ _ _ _ => rfl, fop2_spec true fun _ _ _ _ _ _ => rfl, fop1_spec fun _ _ _ _ _ => rfl,
    fop1_spec fun _ _ _ _ _ => rfl, fop3_spec fun _ _ _ _ _ _ _ => rfl, fop3_spec fun _ _ _ _ _ _ _ => rfl⟩

/-! ### Minimum and maximum -/

section
variable {f : FFmt} {x y : Nat} (hx : x < 2 ^ f.w) (hy : y < 2 ^ f.w)
include hx hy

theorem fMinMax_nan_nan (hi : Bool) (hnx : fval f x = .nan) (hny : fval f y = .nan) : fMinMax f hi x y = nanOf f := by
  simp only [fMinMax, Nat.mod_eq_of_lt hx, Nat.mod_eq_of_lt hy, hnx, hny]
theorem fMinMax_nan_left (hi : Bool) (hnx : fval f x = .nan) (hny : fval f y ≠ .nan) : fMinMax f hi x y = y := by
  simp only [fMinMax, Nat.mod_eq_of_lt hx, Nat.mod_eq_of_lt hy, hnx]
theorem fMinMax_nan_right (hi : Bool) (hnx : fval f x ≠ .nan) (hny : fval f y = .nan) : fMinMax f hi x y = x := by
  simp only [fMinMax, Nat.mod_eq_of_lt hx, Nat.mod_eq_of_lt hy, hny]
/-- The order of two numbers that `fmin` and `fmax` go by: the exact order, and between equals −0 below +0 (R157). -/
theorem fMinMax_num (hi : Bool) (hnx : fval f x ≠ .nan) (hny : fval f y ≠ .nan) {less : Bool}
    (hless : (match cmpNum (fval f x) (fval f y) with
      | some .lt => true
      | some .gt => false
      | _ => negBits f x && !negBits f y) = less) :
    fMinMax f hi x y = if hi then (if less then y else x) else (if less then x else y) := by
  simp only [fMinMax, Nat.mod_eq_of_lt hx, Nat.mod_eq_of_lt hy]
  cases hfx : fval f x with
  | nan => exact absurd hfx hnx
  | inf | num =>
    cases hfy : fval f y with
    | nan => exact absurd hfy hny
    | inf | num => rw [hfx, hfy] at hless; subst hless; rfl
end

theorem compare_eq_comm {a b : Int} (h : compare a b = .eq) : compare b a = .eq := by
  rw [Int.compare_eq_eq] at h ⊢
  exact h.symm
/-- Equality of numbers is symmetric. -/
theorem cmpNum_eq_comm {u v : FVal} (h : cmpNum u v = some .eq) : cmpNum v u = some .eq := by
  cases u with
  | nan => cases h
  | inf a =>
    cases v with
    | nan => cases h
    | inf b => cases a <;> cases b <;> revert h <;> decide
    | num => cases a <;> cases h
  | num na ma ea =>
    cases v with
    | nan => cases h
    | inf b => cases b <;> cases h
    | num nb mb eb =>
      simp only [cmpNum, Option.some.injEq] at h ⊢
      rw [min_comm]
      exact compare_eq_comm h
/-- A NaN has no order. -/
theorem cmpNum_of_nan {u v : FVal} (h : u = .nan ∨ v = .nan) : cmpNum u v = none := by
  obtain rfl | rfl := h
  · rfl
  · cases u <;> rfl
theorem fcond_of_nan {f : FFmt} (c : FCond) {x y : Nat} (h : fval f x = .nan ∨ fval f y = .nan) :
    fcond f c x y = (c == .ne || c == .uo) := by
  simp only [fcond, cmpNum_of_nan h]
  cases c <;> rfl

theorem fMinMax_of_order {f : FFmt} {x y : Nat} (hx : x < 2 ^ f.w) (hy : y < 2 ^ f.w) (hnx : fval f x ≠ .nan)
    (hny : fval f y ≠ .nan) :
    (cmpNum (fval f x) (fval f y) = some .lt → fMinMax f false x y = x ∧ fMinMax f true x y = y) ∧
    (cmpNum (fval f x) (fval f y) = some .gt → fMinMax f false x y = y ∧ fMinMax f true x y = x) ∧
    (cmpNum (fval f x) (fval f y) = some .eq → 2 ^ (f.w - 1) ≤ x → y < 2 ^ (f.w - 1) →
      fMinMax f false x y = x ∧ fMinMax f true x y = y ∧ fMinMax f false y x = x ∧ fMinMax f true y x = y) := by
  refine ⟨fun h => ?_, fun h => ?_, fun h hneg hpos => ?_⟩
  · have hless := fun hi => fMinMax_num hx hy hi hnx hny (less := true) (by rw [h])
    exact ⟨hless false, hless true⟩
  · have hless := fun hi => fMinMax_num hx hy hi hnx hny (less := false) (by rw [h])
    exact ⟨hless false, hless true⟩
  · have hbx : negBits f x = true := by simpa [negBits, Nat.mod_eq_of_lt hx] using hneg
    have hby : negBits f y = false := by simpa [negBits, Nat.mod_eq_of_lt hy] using hpos
    have hless := fun hi => fMinMax_num hx hy hi hnx hny (less := true) (by rw [h, hbx, hby]; rfl)
    have hnless := fun hi => fMinMax_num hy hx hi hny hnx (less := false) (by rw [cmpNum_eq_comm h, hbx, hby]; rfl)
    exact ⟨hless false, hless true, hnless false, hnless true⟩

/-- Settles O8: the three are `alu2` with their functions; what these do with a NaN and with zeros is said of every format. -/
theorem floatMinMaxCompare : Obligations.FloatMinMaxCompare :=
  ⟨fun _ => alu2_spec fun _ _ _ _ => rfl, fun _ => alu2_spec fun _ _ _ _ => rfl,
    fun _ _ => alu2_spec_of_eq (fun _ _ _ _ => rfl) fun _ _ => boolWord_oneIf _,
    fun _ hi _ _ hx hy => ⟨fMinMax_nan_nan hx hy hi, fMinMax_nan_left hx hy hi, fMinMax_nan_right hx hy hi⟩,
    fun _ _ _ hx hy => fMinMax_of_order hx hy, fun _ c _ _ => fcond_of_nan c, by decide, by decide⟩

/-! ### Conversions -/

theorem rngOne_run (rm : Rm) (s : State) : rngOne rm s = .ok (s.rngWords rm 1 0, s.drew rm 1) := by
  simp only [rngOne, M.bind_run, M.rngTake_run, M.pure_run]

/-- Settles O9: the conversion's failure ends the instruction at its settling, else its result is extended and written. -/
theorem floatConvert : Obligations.FloatConvert := by
  intro s t dt st om rm d a x hr hx
  unfold State.gives at hx
  refine ⟨fun w hok hw => instr_ok ?_, fun l k htrap => instr_trap (m := false) ?_ rfl⟩
  · unfold State.takes at hw
    simp only [M.bind_run, namesQ_run hr, hx, rngOne_run, M.settle_run hok, List.map_cons, List.map_nil, hw]
  · simp only [M.bind_run, namesQ_run hr, hx, rngOne_run, M.settle_trap htrap]

end Sys2Proof.Machine

/-! ## Branches, calls and returns (R341, R343, R344, R366, R371, R394, R52) -/

namespace Sys2Proof.Machine

theorem branchTarget_eq (pc : Word) (off : BitVec 32) : branchTarget pc off = pc + off.signExtend 64 * 4 := by
  unfold branchTarget
  congr 1
  apply BitVec.eq_of_toNat_eq
  simp [Nat.shiftLeft_eq]

section
variable {s : State}

theorem exec_bcnd (c : ICond) {a b : SReg} (off : BitVec 32) (hr : s.resident [(10, a), (17, b)]) (ha : s.ready a)
    (hb : s.ready b) : exec (.bcnd c a b off) s =
      .next (if condHolds c (s.me.s a) (s.me.s b) then s.jumped (s.me.pc + off.signExtend 64 * 4) else s.past 8) := by
  refine runInstr_ok ?_
  simp only [M.bind_run, M.names_run hr, M.rdS_run ha, M.rdS_run hb, icond_holds, M.branchIf_run]
/-- The lane count of a mask branch, as the mask instructions read it. -/
theorem countIn_eq (s : State) (b : SReg) : (if b = 0 then 128 else laneCount (s.me.s b)) = s.countIn b := by
  have hzero : s.me.s b = 0 ↔ (s.me.s b).toNat = 0 := by
    rw [← BitVec.toNat_inj]; rfl
  unfold State.countIn laneCount
  by_cases hb : b = 0
  · simp [hb]
  · simp only [hzero, hb, if_false, false_or, Bool.and_eq_true, decide_eq_true_eq]
    split_ifs <;> omega
theorem exec_bmask (c : MCond) (a : MReg) {b : SReg} (off : BitVec 32) (hr : s.resident [(17, b)]) (hb : s.ready b) :
    exec (.bmask c a b off) s =
      .next (if maskHolds c (s.me.mask a) (s.countIn b) then s.jumped (s.me.pc + off.signExtend 64 * 4) else s.past 8) := by
  refine runInstr_ok ?_
  simp only [M.bind_run, M.names_run hr, M.rdS_run hb, M.rdM_run, countIn_eq, mcond_holds, M.branchIf_run]
theorem exec_jr {a : SReg} (hr : s.resident [(17, a)]) (ha : s.ready a) : exec (.jr a) s = .next (s.jumped (s.me.s a)) := by
  refine runInstr_ok ?_
  simp only [M.bind_run, M.names_run hr, M.rdS_run ha, M.jumpTo_run]
theorem wroteS_pc (s : State) (d : SReg) (v : Word) : (s.wroteS d v).me.pc = s.me.pc := by simp [State.wroteS]
theorem exec_loop {a : SReg} (off : BitVec 32) (hr : s.resident [(10, a)]) (ha : s.ready a) :
    exec (.loop a off) s = .next (if s.me.s a = 1 then (s.wroteS a (s.me.s a - 1)).past 8
      else (s.wroteS a (s.me.s a - 1)).jumped (s.me.pc + off.signExtend 64 * 4)) := by
  have hlast : s.me.s a - 1 = 0 ↔ s.me.s a = 1 := by bv_omega
  refine runInstr_ok ?_
  simp only [M.bind_run, M.names_run hr, M.rdS_run ha, M.wrS_run, M.branchIf_run, wroteS_pc, hlast, decide_eq_true_eq, ite_not, ne_eq]
end

/-- Settles O10: the targets of branches, their conditions in the statement's terms, and what loop leaves of its counter. -/
theorem branches : Obligations.Branches :=
  ⟨fun s off => runInstr_ok (M.branchIf_run true off s), fun _ target => runInstr_ok (M.jumpTo_run target _),
    fun _ _ => exec_jr, fun _ c _ _ off => exec_bcnd c off, fun _ c a _ off => exec_bmask c a off,
    fun _ _ off => exec_loop off⟩

/-! ### The window -/

/-- The frame after a call: 16 registers up, its last 16 zero. -/
def Ctx.frameUp (c : Ctx) : Ctx := zeroStack { c with wb := c.wb + 16 } (c.wb + 24) 16

section
variable {s : State}

theorem shiftUp_run (hstack : s.me.wb + 40 ≤ 65536) (hstore : s.me.wb + 40 ≤ s.me.lo + s.myGroup.r) :
    shiftUp s = .ok ((), s.modMe Ctx.frameUp) := by
  simp only [shiftUp, M.bind_run, M.get_run]
  rw [if_neg (by omega), if_neg (by omega)]
  rfl
theorem shiftUp_stackEnd (h : 65536 < s.me.wb + 40) : shiftUp s = .error (.trap 8 1 false) := by
  simp only [shiftUp, M.bind_run, M.get_run, if_pos h]
  rfl
theorem shiftUp_spill (hstack : s.me.wb + 40 ≤ 65536) (hstore : s.me.lo + s.myGroup.r < s.me.wb + 40) :
    shiftUp s = .error (.trap 8 0 false) := by
  simp only [shiftUp, M.bind_run, M.get_run]
  rw [if_neg (by omega), if_pos hstore]
  rfl
theorem shiftDown_run (hframe : 16 ≤ s.me.wb) (hstore : s.me.lo ≤ s.me.wb - 16) :
    shiftDown s = .ok ((), s.modMe fun c => { c with wb := c.wb - 16 }) := by
  simp only [shiftDown, M.bind_run, M.me_run]
  rw [if_neg (by omega), if_neg (by omega)]
  rfl
theorem shiftDown_noFrame (h : s.me.wb < 16) : shiftDown s = .error (.trap 9 1 false) := by
  simp only [shiftDown, M.bind_run, M.me_run, if_pos h]
  rfl
theorem shiftDown_fill (hframe : 16 ≤ s.me.wb) (hstore : s.me.wb - 16 < s.me.lo) :
    shiftDown s = .error (.trap 9 0 false) := by
  simp only [shiftDown, M.bind_run, M.me_run]
  rw [if_neg (by omega), if_pos hstore]
  rfl

theorem callM_run (t : Word) (n : Nat) (hstack : s.me.wb + 40 ≤ 65536) (hstore : s.me.wb + 40 ≤ s.me.lo + s.myGroup.r) :
    callM t n s = .ok ((), ((s.modMe Ctx.frameUp).wroteS 31 (s.me.pc + BitVec.ofNat 64 n)).jumped t) := by
  simp only [callM, M.bind_run, M.me_run, shiftUp_run hstack hstore, M.wrS_run, M.jumpTo_run]
theorem callM_trap (t : Word) (n : Nat) {v : Word} (h : shiftUp s = .error (.trap 8 v false)) :
    callM t n s = .error (.trap 8 v false) := by
  simp only [callM, M.bind_run, M.me_run, h]
theorem retM_run (hlink : s.ready 31) (hframe : 16 ≤ s.me.wb) (hstore : s.me.lo ≤ s.me.wb - 16) :
    retM s = .ok ((), (s.modMe fun c => { c with wb := c.wb - 16 }).jumped (s.me.s 31)) := by
  simp only [retM, M.bind_run, M.rdS_run hlink, shiftDown_run hframe hstore, M.jumpTo_run]
theorem retM_trap (hlink : s.ready 31) {v : Word} (h : shiftDown s = .error (.trap 9 v false)) :
    retM s = .error (.trap 9 v false) := by
  simp only [retM, M.bind_run, M.rdS_run hlink, h]

theorem call_meaning (off : BitVec 32) (s : State) :
    (do callM (branchTarget (← me).pc off) 8 : M Unit) s = callM (s.me.pc + off.signExtend 64 * 4) 8 s := by
  simp only [M.bind_run, M.me_run, branchTarget_eq]
theorem exec_call (off : BitVec 32) (hstack : s.me.wb + 40 ≤ 65536) (hstore : s.me.wb + 40 ≤ s.me.lo + s.myGroup.r) :
    exec (.call off) s =
      .next (((s.modMe Ctx.frameUp).wroteS 31 (s.me.pc + 8)).jumped (s.me.pc + off.signExtend 64 * 4)) :=
  runInstr_ok ((call_meaning off s).trans (callM_run _ 8 hstack hstore))
theorem exec_call_trap (off : BitVec 32) {v : Word} (h : shiftUp s = .error (.trap 8 v false)) :
    exec (.call off) s = .next (s.trapped 8 v) :=
  runInstr_trap ((call_meaning off s).trans (callM_trap _ 8 h)) rfl
theorem exec_callr {a : SReg} (hr : s.resident [(17, a)]) (ha : s.ready a) (hstack : s.me.wb + 40 ≤ 65536)
    (hstore : s.me.wb + 40 ≤ s.me.lo + s.myGroup.r) :
    exec (.callr a) s = .next (((s.modMe Ctx.frameUp).wroteS 31 (s.me.pc + 8)).jumped (s.me.s a)) := by
  refine runInstr_ok ?_
  simp only [M.bind_run, M.names_run hr, M.rdS_run ha]
  exact callM_run _ 8 hstack hstore
end

/-- Settles O11: a call and a return are the window's shift and a jump; where the shift traps, so do they. -/
theorem callsAndReturns : Obligations.CallsAndReturns :=
  ⟨fun _ => exec_call, fun _ target hstack hstore => runInstr_ok (callM_run target 12 hstack hstore), fun _ _ => exec_callr,
    fun _ hlink hframe hstore => runInstr_ok (retM_run hlink hframe hstore),
    fun _ off h => exec_call_trap off (shiftUp_stackEnd h), fun _ off hstack hstore => exec_call_trap off (shiftUp_spill hstack hstore),
    fun _ hlink h => runInstr_trap (retM_trap hlink (shiftDown_noFrame h)) rfl,
    fun _ hlink hframe hstore => runInstr_trap (retM_trap hlink (shiftDown_fill hframe hstore)) rfl⟩

/-- Settles O12: each of the four is the advance past itself. -/
theorem hints : Obligations.Hints := fun s =>
  ⟨instr_ok (M.pure_run () s), instr_ok (M.pure_run () s), instr_ok (M.pure_run () s), instr_ok (M.pure_run () s)⟩

end Sys2Proof.Machine

/-! ## Element-wise arithmetic (R411, R419, R423, R424) -/

namespace Sys2Proof.Machine

section
variable (t : ElemTy) (sat : Bool)

theorem vec1_vabs_int (ht : t.isVInt = true) :
    Vec1 t (.vabs t sat) wrVQ .rne (fun _ x => intRes t sat (laneInt t x).natAbs) := by
  refine vec1_spec fun k d a s => ?_
  unfold exec execVabs
  simp only [ht, if_true]
theorem vec1_vneg_int (ht : t.isVInt = true) : Vec1 t (.vneg t sat) wrVQ .rne (fun _ x => intRes t sat (-(laneInt t x))) := by
  refine vec1_spec fun k d a s => ?_
  unfold exec execVneg
  simp only [ht, if_true]
theorem vec1_vabs_float (ht : t.isVInt = false) :
    Vec1 t (.vabs t sat) wrVQ .rne (fun _ x => signOp t (fun _ => false) x) := by
  refine vec1_spec fun k d a s => ?_
  unfold exec execVabs
  simp only [ht, Bool.false_eq_true, if_false]
theorem vec1_vneg_float (ht : t.isVInt = false) : Vec1 t (.vneg t sat) wrVQ .rne (fun _ x => signOp t (fun n => !n) x) := by
  refine vec1_spec fun k d a s => ?_
  unfold exec execVneg
  simp only [ht, Bool.false_eq_true, if_false]
theorem vec2_vdiv_int (rm : Rm) (ht : t.isVInt = true) : Vec2 t (.vdiv t rm sat) wrVQLate .rne
    (fun _ x y => if laneInt t y = 0 then .ok (2 ^ t.bits - 1) none else intRes t false ((laneInt t x).tdiv (laneInt t y))) :=
  vec2_spec fun _ _ _ _ _ => if_pos ht
theorem vec2_vdiv_float (rm : Rm) (ht : t.isVInt = false) :
    Vec2 t (.vdiv t rm sat) wrVQLate rm (fun rw x y => fDiv (fltOf t) rm sat rw x y) :=
  vec2_spec fun _ _ _ _ _ => if_neg (by simp [ht])
end

/-- Settles O13: each instruction is `vec1`, `vec2` or `vec3` with its function of the integer lanes. -/
theorem vectorInteger : Obligations.VectorInteger :=
  ⟨fun _ _ => vec2_spec fun _ _ _ _ _ => rfl, fun _ _ => vec2_spec fun _ _ _ _ _ => rfl,
    fun _ _ => vec2_spec fun _ _ _ _ _ => rfl, fun _ _ => vec3_spec fun _ _ _ _ _ _ => rfl,
    fun _ => vec2_spec fun _ _ _ _ _ => rfl, fun _ => vec2_spec fun _ _ _ _ _ => rfl, vec1_vabs_int, vec1_vneg_int,
    fun t rm sat => vec2_vdiv_int t sat rm⟩

/-- Settles O14: each instruction is `vec1`, `vec2` or `vec3` with its function of the float lanes. -/
theorem vectorFloat : Obligations.VectorFloat :=
  ⟨fun _ _ _ => vec2_spec fun _ _ _ _ _ => rfl, fun _ _ _ => vec2_spec fun _ _ _ _ _ => rfl,
    fun _ _ _ => vec2_spec fun _ _ _ _ _ => rfl, fun _ _ _ => vec3_spec fun _ _ _ _ _ _ => rfl,
    fun _ => vec2_spec fun _ _ _ _ _ => rfl, fun _ => vec2_spec fun _ _ _ _ _ => rfl, vec1_vabs_float, vec1_vneg_float,
    fun t rm sat => vec2_vdiv_float t sat rm, fun _ _ _ => vec1_spec fun _ _ _ _ => rfl, fun _ _ _ => vec1_spec fun _ _ _ _ => rfl,
    fun _ _ _ => vec1_spec fun _ _ _ _ => rfl, fun _ _ _ => vec1_spec fun _ _ _ _ => rfl, fun _ _ _ => vec1_spec fun _ _ _ _ => rfl⟩

end Sys2Proof.Machine

/-! ## Comparisons and movements of lanes (R415, R416, R418, R420, R426, R427) -/

namespace Sys2Proof.Machine

theorem vcmpM_run {s u v : State} {t : ElemTy} {k : VMask} {d : MReg} {a b : VQ} {x y : Line} {m : MaskW} {f : Nat → Nat → Bool}
    (hx : s.vgives a x u) (hy : u.vgives b y v)
    (hm : LaneBits (lanesOf t) (laneOn (v.me.mask k.m) k.n) k.z (v.me.mask d)
      (fun i => f (laneNat x t.lane i) (laneNat y t.lane i)) m) :
    vcmpM t k d a b f s = .next ((v.wroteM d m).past 8) := by
  unfold State.vgives at hx hy
  refine instr_ok ?_
  simp only [M.bind_run, hx, hy, rdMask, M.rdM_run, maskOfLanes_eq hm, M.wrM_run, State.wroteM]

/-- Settles O16: both comparisons are `vcmpM`, whose mask `maskOfLanes_eq` says bit by bit. -/
theorem vectorCompare : Obligations.VectorCompare :=
  ⟨fun _ _ _ _ _ _ _ _ _ _ _ _ => vcmpM_run, fun _ _ _ _ _ _ _ _ _ _ _ _ => vcmpM_run⟩

section
variable {s u v x w : State} {t : ElemTy} {d a b c : VQ} {la lb lc : Line}

theorem exec_vdot {rm : Rm} {sat : Bool} {k : VMask} (hd : s.fresh d) (ha : s.vgives a la u) (hb : u.vgives b lb v)
    (hc : v.vgives c lc x)
    (hw : LanesTo (x.drew (if t.isVInt then .rne else rm) 32) 32 32 k d wrVQ
      (fun i => dotLane t rm sat (x.rngWords (if t.isVInt then .rne else rm) 32 i) la lb lc i) w) :
    exec (.vdot t rm sat k d a b c) s = .next (w.past 8) := by
  unfold State.vgives at ha hb hc
  refine instr_ok ?_
  simp only [M.bind_run, M.freshVQ_run hd, ha, hb, hc, M.rngTake_run, M.vecOp_run hw]
theorem exec_vsel {k : LMask} (hd : s.fresh d) (ha : s.vgives a la u) (hb : u.vgives b lb v)
    (hw : v.vtakes d (ofLanes t.lane (lanesOf t) fun i =>
      if laneOn (v.me.mask k.m) k.n i then laneNat la t.lane i else laneNat lb t.lane i) w) :
    exec (.vsel t k d a b) s = .next (w.past 8) := by
  unfold State.vgives at ha hb
  unfold State.vtakes at hw
  refine instr_ok ?_
  simp only [M.bind_run, M.freshVQ_run hd, ha, hb, M.rdM_run, hw]
theorem exec_vbcast {k : VMask} {p : SQ} {n : Word} (hr : s.resident (sqRegs [(17, p)])) (hd : s.fresh d) (hp : s.gives p n u)
    (hw : LanesTo u t.lane (lanesOf t) k d wrVQ (fun _ => .ok (n.toNat % 2 ^ t.bits) none) w) :
    exec (.vbcast t k d p) s = .next (w.past 8) := by
  unfold State.gives at hp
  refine instr_ok ?_
  simp only [M.bind_run, namesQ_run hr, M.freshVQ_run hd, hp, laneVal, M.vecOp_run hw]
theorem exec_vbcastImm {imm : Word} (hd : s.fresh d) (hw : s.vtakes d (ofLanes 64 16 fun _ => imm.toNat) w) :
    exec (.vbcastImm d imm) s = .next (w.past 12) := by
  refine instr_ok ?_
  rw [M.bind_run, M.freshVQ_run hd]
  exact hw
/-- A lane of two tables one after the other, or zero beyond both (R427). -/
theorem tableLane_or_zero (wd n : Nat) (la lb : Line) (j : Nat) :
    (if j < 2 * n then tableLane wd n la lb j else 0) =
      if j < n then laneNat la wd j else if j < 2 * n then laneNat lb wd (j - n) else 0 := by
  unfold tableLane
  grind
theorem exec_vperm {k : VMask} (hd : s.fresh d) (ha : s.vgives a la u) (hb : u.vgives b lb v) (hc : v.vgives c lc x)
    (hw : LanesTo x t.lane (lanesOf t) k d wrVQ (fun i =>
      let j := laneNat lc t.lane i
      .ok (if j < lanesOf t then laneNat la t.lane j else if j < 2 * lanesOf t then laneNat lb t.lane (j - lanesOf t) else 0)
        none) w) :
    exec (.vperm t k d a b c) s = .next (w.past 8) := by
  unfold State.vgives at ha hb hc
  refine instr_ok ?_
  simp only [M.bind_run, M.freshVQ_run hd, ha, hb, hc, plainRes, tableLane_or_zero, M.vecOp_run hw]
theorem exec_vslide {k : VMask} {r : SReg} (hr : s.resident [(24, r)]) (hd : s.fresh d) (ha : s.vgives a la u) (hb : u.ready r)
    (hw : LanesTo u t.lane (lanesOf t) k d wrVQ (fun i =>
      .ok (if 0 ≤ (i : Int) + (u.me.s r).toInt ∧ (i : Int) + (u.me.s r).toInt < lanesOf t
        then laneNat la t.lane ((i : Int) + (u.me.s r).toInt).toNat else 0) none) w) :
    exec (.vslide t k d a r) s = .next (w.past 8) := by
  unfold State.vgives at ha
  refine instr_ok ?_
  simp only [M.bind_run, M.names_run hr, M.freshVQ_run hd, ha, M.rdS_run hb, plainRes, M.vecOp_run hw]
theorem exec_vzip_interleave {hi : Bool} {k : VMask} (hd : s.fresh d) (ha : s.vgives a la u) (hb : u.vgives b lb v)
    (hw : LanesTo v t.lane (lanesOf t) k d wrVQ (fun i =>
      .ok (laneNat (if i % 2 = 0 then la else lb) t.lane (i / 2 + (if hi then 1 else 0) * lanesOf t / 2)) none) w) :
    exec (.vzip hi false t k d a b) s = .next (w.past 8) := by
  unfold State.vgives at ha hb
  refine instr_ok ?_
  simp only [M.bind_run, M.freshVQ_run hd, ha, hb, plainRes, Bool.false_eq_true, if_false, M.vecOp_run hw]
theorem exec_vzip_separate {hi : Bool} {k : VMask} (hd : s.fresh d) (ha : s.vgives a la u) (hb : u.vgives b lb v)
    (hw : LanesTo v t.lane (lanesOf t) k d wrVQ (fun i =>
      let j := 2 * i + if hi then 1 else 0
      .ok (if j < lanesOf t then laneNat la t.lane j else laneNat lb t.lane (j - lanesOf t)) none) w) :
    exec (.vzip hi true t k d a b) s = .next (w.past 8) := by
  unfold State.vgives at ha hb
  refine instr_ok ?_
  simp only [M.bind_run, M.freshVQ_run hd, ha, hb, plainRes, tableLane, if_true, M.vecOp_run hw]
end

/-- Settles O17: one lemma for each instruction, which runs it over its operands' reads and its lanes' write. -/
theorem vectorMoves : Obligations.VectorMoves :=
  ⟨fun _ _ _ _ _ _ _ _ _ _ _ _ _ _ _ _ => exec_vdot, fun _ _ _ _ _ _ _ _ _ _ _ => exec_vsel,
    fun _ _ _ _ _ _ _ _ => exec_vbcast, fun _ _ _ _ => exec_vbcastImm, fun _ _ _ _ _ _ _ _ _ _ _ _ _ _ => exec_vperm,
    fun _ _ _ _ _ _ _ _ _ => exec_vslide, fun _ _ _ _ _ _ _ _ _ _ _ _ => exec_vzip_interleave,
    fun _ _ _ _ _ _ _ _ _ _ _ _ => exec_vzip_separate⟩

section
variable {s u w : State} {t : ElemTy} {x : Line}

theorem exec_vext {d : SQ} {a : VQ} {b : SReg} (hr : s.resident (sqRegs [(10, d)] ++ [(24, b)])) (ha : s.vgives a x u) (hb : u.ready b)
    (hw : u.takes d (if lanesOf t ≤ (u.me.s b).toNat then 0 else extendTy t (laneNat x t.lane (u.me.s b).toNat)) w) :
    exec (.vext t d a b) s = .next (w.past 8) := by
  unfold State.vgives at ha
  unfold State.takes at hw
  refine instr_ok ?_
  simp only [M.bind_run, M.names_run hr, ha, M.rdS_run hb, extLane, hw]
theorem exec_vextImm {d : SQ} {a : VQ} {imm : BitVec 32} (hr : s.resident (sqRegs [(10, d)])) (ha : s.vgives a x u)
    (hw : u.takes d (if lanesOf t ≤ imm.toNat then 0 else extendTy t (laneNat x t.lane imm.toNat)) w) :
    exec (.vextImm t d a imm) s = .next (w.past 8) := by
  unfold State.vgives at ha
  unfold State.takes at hw
  refine instr_ok ?_
  simp only [M.bind_run, namesQ_run hr, ha, extLane, hw]
theorem exec_vins {d : VReg} {a : SQ} {b : SReg} {n : Word} (hr : s.resident (sqRegs [(17, a)] ++ [(24, b)]))
    (hd : s.me.held d = false) (ha : s.gives a n u) (hb : u.ready b) (hold : u.vready d) :
    exec (.vins t d a b) s = .next ((u.wroteV d (ofLanes t.lane (lanesOf t) fun j =>
      if j = (u.me.s b).toNat then n.toNat % 2 ^ t.bits else laneNat (u.me.vreg d) t.lane j)).past 8) := by
  unfold State.gives at ha
  refine instr_ok ?_
  simp only [M.bind_run, M.names_run hr, M.freshV_run hd, ha, M.rdS_run hb, M.rdV_run hold, M.wrV_run, laneVal, State.wroteV]
end

/-- Settles O18: one lemma for each transfer. -/
theorem laneTransfers : Obligations.LaneTransfers :=
  ⟨fun _ _ _ _ _ _ _ _ => exec_vext, fun _ _ _ _ _ _ _ _ => exec_vextImm, fun _ _ _ _ _ _ _ => exec_vins⟩

end Sys2Proof.Machine

/-! ## Conversions, blocks and random words (R163 to R169, R417, R430, R431) -/

namespace Sys2Proof.Machine

/-- Settles O20: the three are `vcvtM`, with the part's lanes on the side of the wider type. -/
theorem vectorConvert : Obligations.VectorConvert := by
  refine ⟨fun dt st om rm part => ?_, fun dt st om rm part h => ?_, fun dt st om rm part h => ?_⟩
  · exact cvt_spec (fun _ _ _ _ => rfl) (ite_self 0) (ite_self 0)
  · exact cvt_spec (fun _ _ _ _ => rfl) (if_pos h) (if_neg (by omega))
  · exact cvt_spec (fun _ _ _ _ => rfl) (if_neg (by omega)) (if_pos h)

/-! ### Blocks -/

theorem nonFinite_of_finite {v : FVal} (hnan : v ≠ .nan) (hinf : ∀ n, v ≠ .inf n) : nonFinite v = .ok 0 none := by
  cases v with
  | nan => exact absurd rfl hnan
  | inf n => exact absurd rfl (hinf n)
  | num => rfl
/-- Results that are all plain trap nowhere. -/
theorem trapOf_eq_none {rs : List (Nat × NRes)} (h : ∀ p ∈ rs, p.2 = .ok 0 none) : trapOf rs = none := by
  unfold trapOf
  rw [List.findSome?_eq_none_iff]
  intro p hp
  rw [h p hp]
/-- Results that are all plain raise no event. -/
theorem eventsOf_eq_nil {rs : List NRes} (h : ∀ r ∈ rs, r = .ok 0 none) : eventsOf rs = [] := by
  unfold eventsOf
  refine (congrArg List.eraseDups (List.filterMap_eq_nil_iff.mpr fun r hr => ?_)).trans rfl
  rw [h r hr]
/-- Under the overflow mode `trap`, a block of finite values passes. -/
theorem settle_finite {vs : List FVal} (h : ∀ y ∈ vs, y ≠ .nan ∧ ∀ n, y ≠ .inf n) (ks : List Nat) (s : State) :
    settle (ks.zip (vs.map nonFinite)) s = .ok ((), s) := by
  have hplain : ∀ p ∈ ks.zip (vs.map nonFinite), p.2 = .ok 0 none := by
    intro p hp
    obtain ⟨y, hy, hp2⟩ := List.mem_map.mp (List.of_mem_zip hp).2
    rw [← hp2]
    exact nonFinite_of_finite (h y hy).1 (h y hy).2
  have hevents : eventsOf ((ks.zip (vs.map nonFinite)).map (·.2)) = [] := by
    refine eventsOf_eq_nil fun r hr => ?_
    obtain ⟨p, hp, rfl⟩ := List.mem_map.mp hr
    exact hplain p hp
  rw [M.settle_run (trapOf_eq_none hplain), hevents]
  rfl

theorem exec_vqnt {s u v w : State} {fm : Fmt} {om : Om} {rm : Rm} {part : BitVec 2} {d a : VQ} {b : SReg} {x : Line} {vs : List FVal}
    {rs : List NRes} (hr : s.resident [(24, b)]) (hd : s.fresh d) (hb : s.ready b) (hx : s.vgives a x u)
    (hvs : vs = (List.range 32).map (fun i => fval fmtF32 (laneNat x 32 i)))
    (hfin : om = .trap → ∀ y ∈ vs, y ≠ .nan ∧ ∀ n, y ≠ .inf n)
    (hrs : rs = (List.range 32).map (fun i => if vs.contains .nan then NRes.ok 0 none
      else blockElem (blockOf fm).1 (blockExp (blockOf fm).2.1 vs) rm (u.rngWords rm 32 i) (vs.getD i .nan)))
    (hv : v = (u.drew rm 32).counted (eventsOf rs))
    (hw : v.vtakes d (putBlock (blockOf fm).2.2 part.toNat (oldVQ v.me d) fun i => (rs.getD i (.ok 0 none)).bits) w) :
    exec (.vqnt fm om rm part d b a) s = .next ((w.wroteS b (putField (s.me.s b)
      (BitVec.ofNat 64 (if vs.contains .nan then 0xFF else (blockExp (blockOf fm).2.1 vs + 127).toNat))
      (8 * part.toNat) 8)).past 8) := by
  have hcheck : (if om = .trap then settle ((List.range 32).zip (vs.map nonFinite)) else pure ()) u = .ok ((), u) := by
    split
    · exact settle_finite (hfin ‹_›) _ u
    · rfl
  unfold State.vgives at hx
  unfold State.vtakes at hw
  refine instr_ok ?_
  simp only [M.bind_run, M.names_run hr, M.freshVQ_run hd, M.rdS_run hb, hx, ← hvs, hcheck, M.rngTake_run, ← hrs, M.countAll_run,
    ← hv, M.me_run, hw, M.wrS_run]
theorem exec_vdqnt {s u w : State} {fm : Fmt} {om : Om} {part : BitVec 2} {d a : VQ} {b : SReg} {x : Line} {sc : Nat}
    (hr : s.resident [(24, b)]) (hd : s.fresh d) (hb : s.ready b) (hx : s.vgives a x u)
    (hsc : sc = (s.me.s b).toNat / 2 ^ (8 * part.toNat) % 256)
    (hw : LanesTo u 32 32 ⟨0, false, false⟩ d wrVQ (fun i => toFlt fmtF32 om .rne (scaleV ((sc : Int) - 127)
      (if sc = 0xFF then .nan else fval (blockOf fm).1 (laneNat x (blockOf fm).2.2 (32 * part.toNat + i)))) 0) w) :
    exec (.vdqnt fm om part d a b) s = .next (w.past 8) := by
  unfold State.vgives at hx
  refine instr_ok ?_
  simp only [M.bind_run, M.names_run hr, M.freshVQ_run hd, M.rdS_run hb, hx, ← hsc, M.vecOp_run hw]

/-- Settles O21: the block is checked, rounded and packed, then its scale goes into its byte of b; the inverse is one lane operation. -/
theorem blockQuantisation : Obligations.BlockQuantisation :=
  ⟨fun _ _ _ _ _ _ _ _ _ _ _ _ _ _ => exec_vqnt, fun _ _ _ _ _ _ _ _ _ _ _ => exec_vdqnt⟩

/-! ### The generator -/

/-- A word that equals its own shift to the left by n, n positive, has no one: each bit is the one n below it, or no bit. -/
theorem eq_zero_of_eq_shiftLeft {m : Nat} {x : BitVec m} {n : Nat} (hn : 0 < n) (h : x = x <<< n) : x = 0#m := by
  have hbit : ∀ i, i < m → x.getLsbD i = false := by
    intro i
    induction i using Nat.strong_induction_on with
    | h i ih =>
      intro hi
      rw [h, BitVec.getLsbD_shiftLeft]
      by_cases hlow : i < n
      · simp [hlow]
      · simp [ih (i - n) (by omega) (by omega)]
  exact BitVec.eq_of_getLsbD_eq fun i hi => by rw [hbit i hi, BitVec.getLsbD_zero]
/-- The same to the right: each bit is the one n above it, or no bit. -/
theorem eq_zero_of_eq_ushiftRight {m : Nat} {x : BitVec m} {n : Nat} (hn : 0 < n) (h : x = x >>> n) : x = 0#m := by
  have hbit : ∀ k i, m ≤ i + k → x.getLsbD i = false := by
    intro k
    induction k with
    | zero => intro i hi; exact BitVec.getLsbD_of_ge x i hi
    | succ k ih =>
      intro i hi
      rw [h, BitVec.getLsbD_ushiftRight]
      exact ih (n + i) (by omega)
  exact BitVec.eq_of_getLsbD_eq fun i hi => by rw [hbit m i (by omega), BitVec.getLsbD_zero]
theorem xor_shiftLeft_ne_zero {m : Nat} {x : BitVec m} {n : Nat} (hn : 0 < n) (h : x ≠ 0#m) : x ^^^ (x <<< n) ≠ 0#m :=
  fun he => h (eq_zero_of_eq_shiftLeft hn (BitVec.xor_eq_zero_iff.mp he))
theorem xor_ushiftRight_ne_zero {m : Nat} {x : BitVec m} {n : Nat} (hn : 0 < n) (h : x ≠ 0#m) : x ^^^ (x >>> n) ≠ 0#m :=
  fun he => h (eq_zero_of_eq_ushiftRight hn (BitVec.xor_eq_zero_iff.mp he))
theorem rngStep_ne_zero {x : BitVec 32} (h : x ≠ 0) : rngStep x ≠ 0 :=
  xor_shiftLeft_ne_zero (by decide) (xor_ushiftRight_ne_zero (by decide) (xor_shiftLeft_ne_zero (by decide) h))
theorem rngOutputs_ne_zero (n : Nat) : ∀ {x : BitVec 32}, x ≠ 0 → ∀ y ∈ rngOutputs n x, y ≠ 0 := by
  induction n with
  | zero => intro x _ y hy; cases hy
  | succ n ih =>
    intro x hx y hy
    obtain rfl | hy := List.mem_cons.mp hy
    · exact rngStep_ne_zero hx
    · exact ih (rngStep_ne_zero hx) y hy
theorem rngOutputs_length (n : Nat) : ∀ x, (rngOutputs n x).length = n := by
  induction n with
  | zero => intro x; rfl
  | succ n ih => intro x; exact congrArg (· + 1) (ih _)
theorem rngStored_ne_zero (x : BitVec 32) : rngStored x ≠ 0 := by
  unfold rngStored
  split
  · decide
  · assumption

theorem exec_vrnd {s w : State} {k : VMask} {d : VQ} {a : SReg} {t : State} (hr : s.resident [(17, a)]) (hd : s.fresh d) (ha : s.ready a)
    (ht : t = (if a = 0 then s else s.modMe fun c => { c with rng := rngStored ((s.me.s a).setWidth 32) }))
    (hw : LanesTo (t.modMe fun c => { c with rng := (rngOutputs 32 t.me.rng).getLastD t.me.rng }) 32 32 k d wrVQ
      (fun i => .ok ((rngOutputs 32 t.me.rng).getD i 0).toNat none) w) :
    exec (.vrnd k d a) s = .next (w.past 8) := by
  have hseed : (if a = 0 then pure () else modMe fun c => { c with rng := rngStored ((s.me.s a).setWidth 32) }) s = .ok ((), t) := by
    subst ht
    split <;> rfl
  have hlast : (t.modMe fun c => { c with rng := (rngOutputs 32 t.me.rng).getLastD c.rng }) =
      t.modMe fun c => { c with rng := (rngOutputs 32 t.me.rng).getLastD t.me.rng } := rfl
  refine instr_ok ?_
  simp only [M.bind_run, M.names_run hr, M.freshVQ_run hd, M.rdS_run ha, hseed, M.me_run, M.modMe_run, hlast, plainRes, M.vecOp_run hw]

/-- Settles O22: vrnd draws from the generator it may have seeded, whose step is injective and so never reaches zero. -/
theorem randomWords : Obligations.RandomWords :=
  ⟨fun _ _ _ _ _ _ => exec_vrnd, rngStored_ne_zero, fun _ hx n => rngOutputs_ne_zero n hx, fun x n => rngOutputs_length n x⟩

end Sys2Proof.Machine

/-! ## Scans (R429) -/

namespace Sys2Proof.Machine

/-- What O19 gives lane i of a saturating integer scan: the reduction of the active lanes up to i, clamped whatever the operation. -/
def clampedScan (op : RedOp) (t : ElemTy) (k : VMask) (x : Line) (u : State) (i : Nat) : NRes :=
  intRes t true (redInt op t (activeLanes t (laneOn (u.me.mask k.m) k.n) x (i + 1)))
/-- The scan by `or` of bytes, saturating, of a register whose lane 0 is 0xFF: clamping would leave 127 in lane 0 of v3. -/
theorem clampedScan_or_bytes : ∃ x u, (vecs 0xFF 0 0 0).vgives (.v 1) x u ∧ ∃ w,
    LanesTo u ElemTy.i8.lane (lanesOf .i8) ⟨0, false, false⟩ (.v 3) wrVQ (clampedScan .or .i8 ⟨0, false, false⟩ x u) w ∧
    laneNat ((w.past 8).me.vreg 3) 8 0 = 127 := by
  obtain ⟨x, u, hx, h⟩ := exists_of_gets (m := rdVQ (.v 1)) (s := vecs 0xFF 0 0 0) (k := fun x u =>
    trapOf (u.lanes (lanesOf .i8) ⟨0, false, false⟩ (clampedScan .or .i8 ⟨0, false, false⟩ x u)) == none &&
    gets (wrVQ (.v 3) (u.merged ElemTy.i8.lane (lanesOf .i8) ⟨0, false, false⟩ (.v 3) (clampedScan .or .i8 ⟨0, false, false⟩ x u)))
      (u.counted (eventsOf ((u.lanes (lanesOf .i8) ⟨0, false, false⟩ (clampedScan .or .i8 ⟨0, false, false⟩ x u)).map (·.2))))
      fun _ w => laneNat ((w.past 8).me.vreg 3) 8 0 == 127) (by decide +kernel)
  simp only [Bool.and_eq_true, beq_iff_eq] at h
  obtain ⟨htrap, h⟩ := h
  obtain ⟨⟨⟩, w, hw, h⟩ := exists_of_gets h
  exact ⟨x, u, hx, w, ⟨htrap, hw⟩, beq_iff_eq.mp h⟩
/-- The machine does not clamp it (only a sum can leave its type, R429): lane 0 of v3 is 0xFF. -/
theorem vscan_or_bytes :
    lane3 (.vscanI .or .i8 true ⟨0, false, false⟩ (.v 3) (.v 1)) (vecs 0xFF 0 0 0) 8 0 = 255 := by decide +kernel

/-- Refutes O19: its third clause clamps every saturating integer scan. A bitwise reduction of bytes is a pattern of 8 bits, which
the machine writes as it is: `or` up to the lane 0xFF is 0xFF, where the clause demands 127. -/
theorem not_reductionsAndScans : ¬ Obligations.ReductionsAndScans := by
  rintro ⟨-, -, hscan, -⟩
  obtain ⟨x, u, hx, w, hw, h127⟩ := clampedScan_or_bytes
  have hexec := hscan (vecs 0xFF 0 0 0) u w .or .i8 true ⟨0, false, false⟩ (.v 3) (.v 1) x rfl hx hw
  have h255 := vscan_or_bytes
  unfold lane3 after at h255
  rw [hexec] at h255
  exact absurd (h127.symm.trans h255) (by decide)

end Sys2Proof.Machine

/-! ## Mask instructions (R55, R373, R380, R381) -/

namespace Sys2Proof.Machine

theorem onesIn_mask (x : MaskW) (n : Nat) : onesIn x.toNat n = (List.range n).countP fun i => x.getLsbD i := by
  simp [onesIn, List.countP_eq_length_filter, BitVec.getLsbD]
/-- The lowest one among n bits is the bit that is set where those below are clear, or n where all are. -/
theorem lowestOne_eq {x n k : Nat} (hk : k ≤ n) (hclear : ∀ i, i < k → x.testBit i = false)
    (hset : k < n → x.testBit k = true) : lowestOne x n = k := by
  rcases Nat.lt_trichotomy (lowestOne x n) k with h | h | h
  · exact absurd (lowestOne_set x n (by omega)) (by simp [hclear _ h])
  · exact h
  · have hle := lowestOne_le x n
    exact absurd (hset (by omega)) (by simp [lowestOne_clear x n k h])

theorem exec_mnot {s : State} {d a : MReg} {b : SReg} {m : MaskW} (hr : s.resident [(24, b)]) (hb : s.ready b)
    (hm : ∀ i, i < 128 → m.getLsbD i = (decide (i < s.countIn b) && !(s.me.mask a).getLsbD i)) :
    exec (.mnot d a b) s = .next ((s.wroteM d m).past 8) := by
  have hbits : ~~~(s.me.mask a) &&& BitVec.ofNat 128 (2 ^ s.countIn b - 1) = m := by
    refine BitVec.eq_of_getLsbD_eq fun i hi => ?_
    rw [hm i hi, BitVec.getLsbD_and, lowOnes_bit _ i hi, BitVec.getLsbD_not, Bool.and_comm]
    simp [hi]
  refine instr_ok ?_
  simp only [M.bind_run, M.names_run hr, M.countOf_run hb, M.rdM_run, hbits, M.wrM_run, State.wroteM]
theorem exec_mpopc {s : State} {d : SReg} {a : MReg} {b : SReg} (hr : s.resident [(10, d), (24, b)]) (hb : s.ready b) :
    exec (.mpopc d a b) s = .next ((s.wroteS d (BitVec.ofNat 64
      ((List.range (s.countIn b)).countP fun i => (s.me.mask a).getLsbD i))).past 8) := by
  refine instr_ok ?_
  simp only [M.bind_run, M.names_run hr, M.countOf_run hb, M.rdM_run, onesIn_mask, M.wrS_run]
theorem exec_mfirst {s : State} {d : SReg} {a : MReg} {b : SReg} {n : Nat} (hr : s.resident [(10, d), (24, b)]) (hb : s.ready b)
    (hn : n ≤ s.countIn b) (hclear : ∀ i, i < n → (s.me.mask a).getLsbD i = false)
    (hset : n < s.countIn b → (s.me.mask a).getLsbD n = true) :
    exec (.mfirst d a b) s = .next ((s.wroteS d (BitVec.ofNat 64 n)).past 8) := by
  refine instr_ok ?_
  simp only [M.bind_run, M.names_run hr, M.countOf_run hb, M.rdM_run, lowestOne_eq hn hclear hset, M.wrS_run]
theorem exec_mset {s : State} {d : MReg} {a b : SReg} (hr : s.resident [(17, a), (24, b)]) (ha : s.ready a) (hb : s.ready b) :
    exec (.mset d a b) s = .next ((s.wroteM d (s.me.s b ++ s.me.s a)).past 8) := by
  refine instr_ok ?_
  simp only [M.bind_run, M.names_run hr, M.rdS_run ha, M.rdS_run hb, M.wrM_run, State.wroteM]
theorem exec_msetN {s : State} {d : MReg} {n : BitVec 32} {m : MaskW} (hm : ∀ i, i < 128 → m.getLsbD i = decide (i < n.toNat)) :
    exec (.msetN d n) s = .next ((s.wroteM d m).past 8) := by
  have hbits : BitVec.ofNat 128 (2 ^ n.toNat - 1) = m :=
    BitVec.eq_of_getLsbD_eq fun i hi => by rw [hm i hi, lowOnes_bit _ i hi]
  refine instr_ok ?_
  rw [hbits, M.wrM_run, State.wroteM]
/-- A mask from the top bits of lanes of width w: bits from the lane count on are clear. -/
theorem msetLanes_run {s : State} {w : Nat} {d : MReg} {a : VReg} {m : MaskW} (ha : s.vready a)
    (hm : ∀ i, i < 128 → m.getLsbD i = (decide (i < 1024 / w) && (s.me.vreg a).getLsbD (w * i + w - 1))) :
    msetLanes w d a s = .next ((s.wroteM d m).past 8) := by
  have hbits : LaneBits (1024 / w) (fun _ => true) true 0 (fun i => (s.me.vreg a).getLsbD (w * i + w - 1)) m := hm
  refine instr_ok ?_
  simp only [M.bind_run, M.rdV_run ha, maskOfLanes_eq hbits, M.wrM_run, State.wroteM]
theorem exec_mmovS {s : State} {hi : Bool} {d : SReg} {a : MReg} (hr : s.resident [(10, d)]) :
    exec (.mmovS hi d a) s = .next ((s.wroteS d ((s.me.mask a).extractLsb' (if hi then 64 else 0) 64)).past 8) := by
  have hhalf : (if hi then (s.me.mask a).extractLsb' 64 64 else (s.me.mask a).extractLsb' 0 64) =
      (s.me.mask a).extractLsb' (if hi then 64 else 0) 64 := by cases hi <;> rfl
  refine instr_ok ?_
  simp only [M.bind_run, M.names_run hr, M.rdM_run, hhalf, M.wrS_run]
theorem mmovLanes_run {s t : State} {w : Nat} {k : VMask} {d : VReg} {a : MReg} (hd : s.me.held d = false)
    (h : LanesTo s w (1024 / w) k (.v d) wrVQ (fun i => .ok (if (s.me.mask a).getLsbD i then 2 ^ w - 1 else 0) none) t) :
    mmovLanes w k d a s = .next (t.past 8) := by
  refine instr_ok ?_
  simp only [M.bind_run, M.freshV_run hd, M.rdM_run, plainRes, M.vecOp_run h]

/-- Settles O23: each instruction by its lemma above. -/
theorem masks : Obligations.Masks :=
  ⟨mask2_spec fun _ _ _ _ => rfl, mask2_spec fun _ _ _ _ => rfl, mask2_spec fun _ _ _ _ => rfl,
    fun _ _ _ _ _ => exec_mnot, fun _ _ _ _ => exec_mpopc, fun _ _ _ _ _ => exec_mfirst, fun _ _ _ _ => exec_mset,
    fun _ _ _ _ => exec_msetN,
    fun _ _ _ _ ha hm => msetLanes_run ha fun i hi => by rw [hm i hi, decide_eq_true (show i < 1024 / 8 from hi), Bool.true_and]; rfl,
    fun _ _ _ _ ha hm => msetLanes_run ha hm, fun _ _ _ _ ha hm => msetLanes_run ha hm,
    fun _ _ _ => rfl, fun _ _ _ _ => exec_mmovS, fun _ _ _ => rfl, fun _ _ _ => rfl,
    fun _ _ _ _ _ hd => ⟨mmovLanes_run hd, mmovLanes_run hd, mmovLanes_run hd⟩⟩

end Sys2Proof.Machine

/-! ## Operand positions (R50, R54, R55, R56, R61) -/

namespace Sys2Proof.Machine

theorem Ctx.s_setSReg (c : Ctx) (r q : SReg) (v : Word) : (c.setSReg r v).s q = if q = r ∧ r ≠ 0 then v else c.s q := by
  by_cases hq : q = r
  · subst hq
    by_cases h0 : q = 0
    · rw [h0, Ctx.setSReg_zero, if_neg fun h => h.2 rfl]
    · rw [Ctx.s_setSReg_self c v h0, if_pos ⟨rfl, h0⟩]
  · rw [Ctx.s_setSReg_other c v hq, if_neg fun h => hq h.1]
theorem Ctx.mask_setMask (c : Ctx) (r q : MReg) (v : MaskW) : (c.setMask r v).mask q = if q = r ∧ r ≠ 0 then v else c.mask q := by
  by_cases hq : q = r
  · subst hq
    by_cases h0 : q = 0
    · rw [h0, Ctx.setMask_zero, if_neg fun h => h.2 rfl]
    · rw [Ctx.mask_setMask_self c v h0, if_pos ⟨rfl, h0⟩]
  · rw [Ctx.mask_setMask_other c v hq, if_neg fun h => hq h.1]
theorem Ctx.vreg_setV (c : Ctx) (r q : VReg) (v : Line) : (c.setV r v).vreg q = if q = r then v else c.vreg q := by
  by_cases hq : q = r
  · simp [hq]
  · simp [hq, Ctx.vreg_setV_other c v hq]

theorem gives_reg (s : State) (r : SReg) (h : s.ready r) : s.gives (.s r) (s.me.s r) s := M.rdS_run h
theorem takes_reg (s : State) (r : SReg) (v : Word) : s.takes (.s r) v (s.wroteS r v) := M.wrS_run r v s
theorem vgives_reg (s : State) (r : VReg) (h : s.vready r) : s.vgives (.v r) (s.me.vreg r) s := M.rdV_run h
theorem vtakes_reg (s : State) (r : VReg) (v : Line) : s.vtakes (.v r) v (s.wroteV r v) := rfl
theorem port_unbound {s : State} {q : QReg} {v : Line} (h : (s.me.port q).kind = 0) :
    popPort q s = .error (.trap 0x0E (BitVec.ofNat 64 (16 + q.toNat)) false) ∧
    appendPort q v s = .error (.trap 0x0E (BitVec.ofNat 64 (16 + q.toNat)) false) := by
  constructor
  · simp only [popPort, M.bind_run, M.get_run, h, if_true]; rfl
  · simp only [appendPort, M.bind_run, M.me_run, h, if_true]; rfl
/-- The read end of a local queue that has nothing makes the context wait. -/
theorem popPort_empty {s : State} {q : QReg} (hk : (s.me.port q).kind = 3) (hw : (s.me.port q).write = false)
    (he : (s.myGroup.lq (s.me.port q).idx).elems = []) :
    popPort q s = .error (.stay fun s => s.modMe fun c => { c with status := .waiting (.port q) }) := by
  simp only [popPort, M.bind_run, M.get_run, hk, hw, he, OfNat.ofNat_ne_zero, Nat.reduceEqDiff,
    Bool.false_eq_true, if_false, if_true, M.waitM_run]
/-- The read end of a local queue gives the element at its head. -/
theorem popPort_data {s : State} {q : QReg} {v : Line} {r : Option Rel} {es : List Elem} (hk : (s.me.port q).kind = 3)
    (hw : (s.me.port q).write = false) (he : (s.myGroup.lq (s.me.port q).idx).elems = .data v r :: es) :
    ∃ t, popPort q s = .ok (v, t) := by
  simp only [popPort, M.bind_run, M.get_run, hk, hw, he, OfNat.ofNat_ne_zero, Nat.reduceEqDiff,
    Bool.false_eq_true, if_false, if_true, takeElem, endAcquire, M.modMyGroup_run, M.endRegion_run, M.pure_run]
  exact ⟨_, rfl⟩
theorem rdQ_port {s t : State} {q : QReg} {v : Line} (h : popPort q s = .ok (v, t)) : rdQ (.q q) s = .ok (v.setWidth 64, t) := by
  simp only [rdQ, M.bind_run, h, M.pure_run]
/-- The write end of a local queue that holds eight elements makes the context wait. -/
theorem appendPort_full {s : State} {q : QReg} {v : Line} (hk : (s.me.port q).kind = 4) (hw : (s.me.port q).write = true)
    (hf : 8 ≤ (s.myGroup.lq (s.me.port q).idx).elems.length) :
    appendPort q v s = .error (.stay fun s => s.modMe fun c => { c with status := .waiting (.port q) }) := by
  simp only [appendPort, pushElem, M.bind_run, M.me_run, M.get_run, hk, hw, hf, OfNat.ofNat_ne_zero, Nat.reduceEqDiff,
    Bool.not_true, Bool.false_eq_true, if_false, if_true, M.waitM_run]
theorem rdV_held {s : State} {r : VReg} (h : s.me.held r = true) :
    rdV r s = .error (.stay fun s => s.modMe fun c => { c with status := .waiting (.hold r) }) := by
  simp only [rdV, M.bind_run, M.me_run, h, if_true, M.waitM_run]

/-- Settles O24: registers and the ends of a local queue as operand positions, by the lemmas above. -/
theorem operandForms : Obligations.OperandForms :=
  ⟨gives_reg, takes_reg, vgives_reg, vtakes_reg, fun c => ⟨c.s_zero, c.mask_zero⟩,
    fun c v m => ⟨c.setSReg_zero v, c.setMask_zero m⟩, Ctx.s_setSReg, Ctx.mask_setMask, Ctx.vreg_setV,
    fun _ _ _ => port_unbound, fun _ _ => popPort_empty,
    fun s q v r es hk hw he => by
      obtain ⟨t, ht⟩ := popPort_data hk hw he
      exact ⟨t, ht, rdQ_port ht⟩,
    fun _ _ _ => appendPort_full, fun _ _ => rdV_held⟩

end Sys2Proof.Machine

/-! ## The frame of an effect on the current context -/

namespace Sys2Proof.Machine

theorem State.core_modMe_other (s : State) (f : Ctx → Ctx) {k : Nat} (h : k ≠ s.curCore) : (s.modMe f).core k = s.core k :=
  State.core_modCore_other _ _ h
/-- Of its core, a change of the current context changes the group alone. -/
theorem State.core_modMe (s : State) (f : Ctx → Ctx) :
    { (s.modMe f).core s.curCore with group := s.myGroup } = s.core s.curCore := by
  unfold State.modMe State.setMe State.setCtx State.modGroup
  rw [State.core_modCore]
  rfl
/-- Of its group, it changes the table of contexts alone. -/
theorem State.myGroup_modMe (s : State) (f : Ctx → Ctx) : (s.modMe f).myGroup = s.myGroup.setCtx s.curCtx (f s.me) :=
  State.group_setMe s (f s.me)
/-- Writing a scalar register changes only the low registers and the stack. -/
theorem Ctx.setSReg_frame (c : Ctx) (r : SReg) (v : Word) : { c.setSReg r v with low := c.low, stack := c.stack } = c := by
  unfold Ctx.setSReg
  split
  · rfl
  · split <;> rfl
theorem Ctx.setMask_frame (c : Ctx) (r : MReg) (v : MaskW) : { c.setMask r v with m := c.m } = c := by
  unfold Ctx.setMask
  split <;> rfl
theorem State.wroteS_s (s : State) (r q : SReg) (v : Word) :
    (s.wroteS r v).me.s q = if q = r ∧ r ≠ 0 then v else s.me.s q := by
  rw [← Ctx.s_setSReg, State.wroteS, State.me_modMe]
  exact Ctx.s_congr rfl rfl rfl q
theorem State.wroteS_frame (s : State) (r : SReg) (v : Word) :
    { (s.wroteS r v).me with low := s.me.low, stack := s.me.stack, late := s.me.late } = s.me := by
  rw [State.wroteS, State.me_modMe]
  exact congrArg (fun c : Ctx => { c with late := s.me.late }) (Ctx.setSReg_frame s.me r v)

/-- Settles O29: each clause is the frame of one update of the context. -/
theorem effectsFrame : Obligations.EffectsFrame := by
  refine ⟨fun s f => ⟨fun _ => rfl, rfl, fun _ => s.core_modMe_other f, s.core_modMe f, ?_, fun _ _ => s.ctx_modMe_other f,
      s.me_modMe f⟩, fun s r q v => ⟨s.wroteS_s r q v, s.wroteS_frame r v⟩, fun s r q v => ⟨?_, ?_⟩, fun s r q v => ⟨?_, ?_⟩,
      fun s n => ⟨?_, ?_⟩, fun s w => ⟨?_, ?_⟩⟩
  · rw [State.myGroup_modMe]; rfl
  · rw [State.wroteV, State.me_modMe, Ctx.vreg_setV]
  · rw [State.wroteV, State.me_modMe]; rfl
  · rw [State.wroteM, State.me_modMe, Ctx.mask_setMask]
  · rw [State.wroteM, State.me_modMe, Ctx.setMask_frame]
  · rw [State.past, State.me_modMe]
  · rw [State.past, State.me_modMe]
  · rw [State.jumped, State.me_modMe]
  · rw [State.jumped, State.me_modMe]

end Sys2Proof.Machine

/-! ## The storage and the state after reset (R19, R21, R120, R303) -/

namespace Sys2Proof.Machine

theorem Memory.read_write (m : Memory) (a c : Nat) (b : Byte) : (m.write a b).read c = if c = a then b else m.read c :=
  Cells.get_set 0 m a c b
/-- Two memories in canonical form that read alike are equal. -/
theorem Memory.ext_read {m n : Memory} (hm : m.wf = true) (hn : n.wf = true) (h : ∀ a, m.read a = n.read a) : m = n :=
  congrArg Cells.mk (canon_ext 0 m.list n.list 0 0 hm hn h)
theorem Store.setLine_read (st : Store) (k c : Nat) (mask : BitVec 128) (l : Line) : (st.setLine k mask l).mem.read c =
    if k ≤ c ∧ c < k + 128 ∧ mask.getLsbD (c - k) = true then lineByte l (c - k) else st.mem.read c := by
  refine (Machine.setLine_read k mask l c (List.range 128) st.mem).trans (if_congr ?_ rfl rfl)
  rw [List.mem_range]
  constructor
  · rintro ⟨h1, h2, h3⟩
    exact ⟨h1, by omega, h3⟩
  · rintro ⟨h1, h2, h3⟩
    exact ⟨h1, by omega, h3⟩
theorem Store.bytes_getD (st : Store) (k n i : Nat) (h : i < n) : (st.bytes k n).getD i 0 = st.mem.read (k + i) := by
  induction n generalizing k i with
  | zero => omega
  | succ n ih =>
    cases i with
    | zero => rfl
    | succ i =>
      rw [show k + (i + 1) = k + 1 + i by omega, ← ih (k + 1) i (by omega)]
      rfl

/-- Settles O27: the laws of a byte, of a line and of a range. -/
theorem memoryReadWrite : Obligations.MemoryReadWrite :=
  ⟨Memory.read_write, fun _ a b h => Memory.wf_write h a b, fun _ _ => Memory.ext_read, Store.setLine_read,
    fun _ k mask l h => setLine_wf h k mask l, Store.bytes_getD⟩

/-- The reset value of a CMAP entry is valid and names pchip 18·cy + cx + 1. -/
theorem cmapReset_fields {c : Nat} (hc : c < 256) :
    (cmapReset c).getLsbD 15 = true ∧ ((cmapReset c).extractLsb' 0 9).toNat = 18 * (c / 16) + c % 16 + 1 := by
  unfold cmapReset
  constructor
  · rw [BitVec.getLsbD_ofNat, show 2 ^ 15 + 18 * (c / 16) + c % 16 + 1 = 2 ^ 15 + (18 * (c / 16) + c % 16 + 1) by omega,
      Nat.testBit_two_pow_add_eq, Nat.testBit_lt_two_pow (by omega)]
    rfl
  · rw [BitVec.extractLsb'_toNat, BitVec.toNat_ofNat, Nat.shiftRight_zero]
    omega
theorem arrValid_zero : arrValid 0 = false := by decide

/-- Settles O25: the reset state is the one in which every unit holds its default. -/
theorem resetState : Obligations.ResetState :=
  ⟨rfl, fun _ => ⟨rfl, rfl⟩, fun _ hc => cmapReset_fields hc, fun _ => arrValid_zero, rfl, rfl, fun _ => ⟨rfl, rfl⟩,
    fun _ _ => ⟨rfl, rfl, rfl, rfl⟩, rfl⟩

/-- Settles O26: the storage of the reset state lists no byte. -/
theorem resetMemory : Obligations.ResetMemory := ⟨Cells.wf_empty 0, fun k => Cells.get_empty 0 k⟩

end Sys2Proof.Machine

/-! ## Steps, turns and fetches (R35, R41, R71, R91, R272) -/

namespace Sys2Proof.Machine

theorem State.choose_reset {s : State} (h : s.phase = .reset) : s.choose = (.event .boot, s) := if_pos h
theorem step_event {s t : State} {e : Event} (h : s.choose = (.event e, t)) : step s = exec e.instr { t with event := some e } := by
  unfold step
  rw [h]
theorem step_idle {s t : State} (h : s.choose = (.idle, t)) : step s = .next t := by
  unfold step
  rw [h]
theorem step_turn {s t : State} {core : Nat} (h : s.choose = (.turn core, t)) : step s = runTurn core t := by
  unfold step
  rw [h]
theorem runEvent_none {i : Instr} {s : State} {f : Event → State → State} (h : s.event = none) : runEvent i s f = .next s := by
  unfold runEvent
  rw [h]

/-- Settles O31: a step by what the schedule chooses. -/
theorem stepPerformsEvents : Obligations.StepPerformsEvents :=
  ⟨fun _ _ _ => step_event, fun _ _ => step_idle, fun _ h => step_event (State.choose_reset h), fun _ _ _ => runEvent_none⟩

/-! ### The turn -/

theorem runTurn_issue {t u : State} {core : Nat} {i : Instr} (h : (t.turnState core).issue = some (i, u))
    (hr : u.reportFirst i (exec i u) = none) :
    runTurn core t = afterTurn core (t.turnState core).curCtx (t.turnState core).me.pc (t.turnState core).myGroup.tenant
      (((t.turnState core).core core).cycle.toNat + 1 - (t.core core).cycle.toNat) (i, u.me.branches i) (exec i u) := by
  simp only [runTurn, h, hr]
theorem runTurn_report {t u : State} {core : Nat} {i : Instr} {r : Report} (h : (t.turnState core).issue = some (i, u))
    (hr : u.reportFirst i (exec i u) = some r) :
    runTurn core t = .next ((u.takeReport core (t.turnState core).curCtx r).endTurn core (t.turnState core).curCtx
      (t.turnState core).me.pc (t.turnState core).myGroup.tenant
      (((t.turnState core).core core).cycle.toNat + 1 - (t.core core).cycle.toNat) none) := by
  simp only [runTurn, h, hr]
theorem runTurn_wait {t : State} {core : Nat} (h : (t.turnState core).issue = none) :
    runTurn core t = .next ((t.turnState core).endTurn core (t.turnState core).curCtx (t.turnState core).me.pc
      (t.turnState core).myGroup.tenant (((t.turnState core).core core).cycle.toNat + 1 - (t.core core).cycle.toNat) none) := by
  simp only [runTurn, h]
/-- A context that follows nothing takes its instruction from its own fetch. -/
theorem State.followTurn_none {s : State} (h : s.me.follow = none) : s.followTurn = (s, .fetch) := by
  unfold State.followTurn
  rw [h]
theorem State.issue_fetch {s u : State} {i : Instr} {n : Nat} (h : s.me.follow = none) (hf : fetchM s = .ok (.ok (i, n), u))
    (hu : u.me.follow = none) : s.issue = some (i, u) := by
  simp only [State.issue, State.followTurn_none h, hf, hu, Option.isNone_none, if_true]
theorem State.issue_fault {s u : State} {e : DecErr} (h : s.me.follow = none) (hf : fetchM s = .ok (.error e, u)) :
    s.issue = some (.illegalInstructionFetch, { s with event := some (.illegalInstructionFetch s.curCore s.curCtx) }) := by
  simp only [State.issue, State.followTurn_none h, hf]
/-- A fetch of an executable word that is stored here without poison reads the 16 bytes that begin there. -/
theorem fetchM_run {s u : State} {g : Tgt} {k : Nat} (hpc : s.me.pc.toNat < 2 ^ 52)
    (hr : resolveM s.me.pc 4 .exec false s = .ok (some g, u)) (hk : u.keyOf g.place = some k)
    (hp : u.store.readsPoison k (maskOf g.byte 4) = false) :
    fetchM s = .ok (decodeAt u.me.pc.toNat (u.store.bytes (k + g.byte) 16), u) := by
  simp only [fetchM, fetchKeyM, M.bind_run, M.me_run, if_neg (Nat.not_le.mpr hpc), hr, M.get_run, hk, hp, Bool.false_eq_true,
    if_false, M.pure_run]
section
variable {pc n : Nat} {bs : List Byte}

theorem decodeAt_no_length (h : lengthCode (BitVec.ofNat 8 (leNat (bs.take 16))) = none) :
    decodeAt pc bs = .error ⟨1, 0, opcodeOf (leNat (bs.take 16))⟩ := by
  simp only [decodeAt, h]
theorem decodeAt_crossing (h : lengthCode (BitVec.ofNat 8 (leNat (bs.take 16))) = some n) (hc : 32 < pc % 32 + n) :
    decodeAt pc bs = .error ⟨5, 0, opcodeOf (leNat (bs.take 16))⟩ := by
  simp only [decodeAt, h, if_pos hc]
theorem decodeAt_wrong_length (h : lengthCode (BitVec.ofNat 8 (leNat (bs.take 16))) = some n) (hc : pc % 32 + n ≤ 32)
    (hf : (formatOf (opcodeOf (leNat (bs.take 16)))).bytes ≠ n) :
    decodeAt pc bs = .error ⟨1, 0, opcodeOf (leNat (bs.take 16))⟩ := by
  simp only [decodeAt, h, if_neg (Nat.not_lt.mpr hc), if_pos hf]
/-- Inside a fetch block the address does not matter. -/
theorem decodeAt_inside (h : lengthCode (BitVec.ofNat 8 (leNat (bs.take 16))) = some n) (hc : pc % 32 + n ≤ 32) :
    decodeAt pc bs = decode bs := by
  simp only [decode, decodeAt, h, if_neg (Nat.not_lt.mpr hc), if_neg (show ¬ 32 < 0 % 32 + n by omega)]
/-- The length of a decoded instruction is that of its length code. -/
theorem lengthCode_of_decodeAt {i : Instr} (h : decodeAt pc bs = .ok (i, n)) :
    lengthCode (BitVec.ofNat 8 (leNat (bs.take 16))) = some n := by
  unfold decodeAt at h
  dsimp only at h
  split at h
  · cases h
  · split at h
    · cases h
    · split at h
      · cases h
      · split at h
        · cases h
        · cases h
          assumption
/-- What decodes at an address is what the decoder reads, where it does not cross a fetch boundary (R91). -/
theorem decodeAt_eq_ok (pc n : Nat) (bs : List Byte) (i : Instr) :
    decodeAt pc bs = .ok (i, n) ↔ decode bs = .ok (i, n) ∧ pc % 32 + n ≤ 32 := by
  constructor
  · intro h
    have hlen := lengthCode_of_decodeAt h
    by_cases hc : pc % 32 + n ≤ 32
    · exact ⟨(decodeAt_inside hlen hc).symm.trans h, hc⟩
    · rw [decodeAt_crossing hlen (by omega)] at h
      cases h
  · rintro ⟨h, hc⟩
    exact (decodeAt_inside (lengthCode_of_decodeAt h) hc).trans h
end

/-! ### The end of a turn -/

/-- A state that differs in follow records alone as far as storage, cycles and contexts go. -/
def FollowsOnly (s t : State) : Prop :=
  t.store = s.store ∧ (∀ k, (t.core k).cycle = (s.core k).cycle) ∧
    ∀ k c, { t.ctx k c with follow := (s.ctx k c).follow } = s.ctx k c
theorem FollowsOnly.refl (s : State) : FollowsOnly s s := ⟨rfl, fun _ => rfl, fun _ _ => rfl⟩
theorem FollowsOnly.trans {s t u : State} (h : FollowsOnly s t) (h' : FollowsOnly t u) : FollowsOnly s u := by
  obtain ⟨hstore, hcycle, hctx⟩ := h
  obtain ⟨hstore', hcycle', hctx'⟩ := h'
  refine ⟨hstore'.trans hstore, fun k => (hcycle' k).trans (hcycle k), fun k c => ?_⟩
  rw [← hctx k c]
  exact congrArg (fun x : Ctx => { x with follow := (s.ctx k c).follow }) (hctx' k c)
/-- A change of one context's follow record. -/
theorem FollowsOnly.modCtx (s : State) (n i : Nat) {f : Ctx → Ctx} (hf : ∀ c, { f c with follow := c.follow } = c) :
    FollowsOnly s (s.modCtx n i f) := by
  refine ⟨rfl, fun k => ?_, fun k c => ?_⟩
  · unfold State.modCtx State.modGroup
    by_cases hk : k = n
    · rw [hk, State.core_modCore]
    · rw [State.core_modCore_other s _ hk]
  · by_cases hkc : k ≠ n ∨ c ≠ i
    · rw [State.ctx_modCtx_other s f hkc]
    · obtain ⟨rfl, rfl⟩ : k = n ∧ c = i := by simpa [not_or] using hkc
      rw [State.ctx_modCtx]
      exact hf _
theorem FollowsOnly.foldl {α : Type} {g : State → α → State} (hg : ∀ s a, FollowsOnly s (g s a)) (xs : List α) (s : State) :
    FollowsOnly s (xs.foldl g s) := by
  induction xs generalizing s with
  | nil => exact .refl s
  | cons a t ih => exact (hg s a).trans (ih _)
theorem State.tellFollowers_follows (s : State) (core ctx : Nat) (pc : Word) (i : Instr) :
    FollowsOnly s (s.tellFollowers core ctx pc i) := by
  refine FollowsOnly.foldl (fun s p => ?_) _ s
  split
  · exact .refl s
  · split
    · split
      · exact .refl s
      · split
        · exact .modCtx s _ _ fun _ => rfl
        · split
          · exact .modCtx s _ _ fun _ => rfl
          · exact .refl s
    · exact .refl s
theorem Ctx.followed_frame (c : Ctx) (pc : Word) : { c.followed pc with follow := c.follow } = c := by
  unfold Ctx.followed
  split
  · split <;> rfl
  · rfl
/-- The core's cycle passes and is metered. -/
def State.cyclePassed (s : State) (core tenant cycles : Nat) : State :=
  let s := s.modCore core fun c => { c with cycle := c.cycle + 1 }
  if tenant = 0 then s else s.meter tenant 0 cycles
theorem State.cyclePassed_store (s : State) (core tenant cycles : Nat) : (s.cyclePassed core tenant cycles).store = s.store := by
  unfold State.cyclePassed
  split <;> rfl
theorem State.cyclePassed_core (s : State) (core tenant cycles k : Nat) :
    (s.cyclePassed core tenant cycles).core k = (s.modCore core fun c => { c with cycle := c.cycle + 1 }).core k := by
  unfold State.cyclePassed
  split <;> rfl
theorem State.cyclePassed_cycle (s : State) (core tenant cycles : Nat) :
    ((s.cyclePassed core tenant cycles).core core).cycle = (s.core core).cycle + 1 := by
  rw [State.cyclePassed_core, State.core_modCore]
theorem State.cyclePassed_ctx (s : State) (core tenant cycles k c : Nat) :
    (s.cyclePassed core tenant cycles).ctx k c = s.ctx k c := by
  unfold State.ctx State.group
  rw [State.cyclePassed_core]
  by_cases hk : k = core
  · rw [hk, State.core_modCore]
  · rw [State.core_modCore_other _ _ hk]
/-- The end of a turn that issued an instruction: unless it stays at its address, the followers learn of it. -/
theorem State.endTurn_some (s : State) (core ctx tenant cycles : Nat) (pc : Word) (i : Instr) (branched : Bool) :
    let u := s.cyclePassed core tenant cycles
    let v := u.modCtx core ctx fun x => x.followed pc
    s.endTurn core ctx pc tenant cycles (some (i, branched)) =
      if (u.ctx core ctx).pc = pc && (u.ctx core ctx).status != .free && !branched then u
      else if i = .illegalInstructionFetch then v else v.tellFollowers core ctx pc i := rfl
/-- What a turn adds after the core's cycle changes follow records alone. -/
theorem State.endTurn_follows (s : State) (core ctx tenant cycles : Nat) (pc : Word) (i : Option (Instr × Bool)) :
    FollowsOnly (s.cyclePassed core tenant cycles) (s.endTurn core ctx pc tenant cycles i) := by
  cases i with
  | none => exact .refl _
  | some p =>
    have hfollowed := FollowsOnly.modCtx (s.cyclePassed core tenant cycles) core ctx fun c => c.followed_frame pc
    rw [State.endTurn_some]
    split
    · exact .refl _
    · split
      · exact hfollowed
      · exact hfollowed.trans (State.tellFollowers_follows _ _ _ _ _)

/-- Settles O30: a turn by what its context issues, the fetch, and the end of the turn. -/
theorem stepRunsInstruction : Obligations.StepRunsInstruction :=
  ⟨fun _ _ _ _ _ hc hi => ⟨fun hr => (step_turn hc).trans (runTurn_issue hi hr),
      fun _ hr => (step_turn hc).trans (runTurn_report hi hr)⟩,
    fun _ _ _ hc hi => (step_turn hc).trans (runTurn_wait hi),
    fun _ _ h => ⟨fun _ _ => State.issue_fetch h, fun _ => State.issue_fault h⟩,
    fun _ _ _ _ => fetchM_run, decodeAt_eq_ok, fun _ _ _ _ _ _ _ => rfl,
    fun s core ctx tenant cycles pc i => by
      obtain ⟨hstore, hcycle, hctx⟩ := s.endTurn_follows core ctx tenant cycles pc i
      refine ⟨hstore.trans (s.cyclePassed_store core tenant cycles), (hcycle core).trans (s.cyclePassed_cycle core tenant cycles),
        fun k c => ?_⟩
      have hframe := hctx k c
      rw [State.cyclePassed_ctx] at hframe
      exact hframe⟩

end Sys2Proof.Machine

/-! ## Encodings that are not instructions (R70, R91) -/

namespace Sys2Proof.Machine

/-- A context whose fetch finds bytes that are no instruction takes cause 0x01 with the decoder's record. -/
theorem exec_illegalInstructionFetch {s u : State} {core ctx : Nat} {e : DecErr}
    (he : s.event = some (.illegalInstructionFetch core ctx))
    (hf : fetchM { s.begun (.illegalInstructionFetch core ctx) with curCore := core, curCtx := ctx } = .ok (.error e, u)) :
    exec .illegalInstructionFetch s = .next (({ s.begun (.illegalInstructionFetch core ctx) with
      curCore := core, curCtx := ctx } : State).trapped 1 (illegalRecord e)) := by
  have hfault : fetchFaultM { s.begun (.illegalInstructionFetch core ctx) with curCore := core, curCtx := ctx } =
      .error (.trap 1 (illegalRecord e) false) := by
    rw [fetchFaultM, M.bind_run, hf]
    rfl
  show execIllegalInstructionFetch s = _
  rw [execIllegalInstructionFetch, runEvent_run (i := .illegalInstructionFetch) he rfl rfl]
  exact congrArg Host.Outcome.next (State.turn_trap hfault)

/-- Settles O34: each refusal of the decoder, and the trap of a fetch that finds one. -/
theorem illegalEncodings : Obligations.IllegalEncodings :=
  ⟨fun _ _ => decodeAt_no_length, fun _ _ _ => decodeAt_crossing, fun _ _ _ => decodeAt_wrong_length,
    fun _ _ _ _ _ => exec_illegalInstructionFetch⟩

end Sys2Proof.Machine

/-! ## Privilege (R7) -/

namespace Sys2Proof.Machine

/-- A meaning that raises cause 0x02 traps precisely. -/
theorem instr_unprivileged {s : State} {len : Nat} {m : M Unit} (h : m s = .error (.trap 2 0 false)) :
    instr len m s = .next (s.trapped 2 0) := instr_trap h rfl
section
variable {s : State} {l : BitVec 2} {op : Nat} {rs : List (Nat × SReg)} {m : M Unit}

theorem level_then (h : s.me.priv.toNat < l.toNat) : (level l >>= fun _ => m) s = .error (.trap 2 0 false) := by
  rw [M.bind_run, level_trap h]
theorem names_level_then (hr : s.resident rs) (h : s.me.priv.toNat < l.toNat) :
    (names op rs >>= fun _ => level l >>= fun _ => m) s = .error (.trap 2 0 false) := by
  rw [M.bind_run, M.names_run hr]
  exact level_then h
end
/-- The special registers of levels 1 and 2 (R68). -/
theorem srLevel_pos {n : Nat} (h : n = 0x040 ∨ (0x010 ≤ n ∧ n ≤ 0x017)) : 0 < (srLevel n).toNat := by
  unfold srLevel
  obtain h | h := h
  · rw [if_pos h]; decide
  · rw [if_neg (by omega), if_pos h]; decide

/-- Settles O36: each of these instructions checks the level before it does anything but name its registers. -/
theorem privilege : Obligations.Privilege := by
  intro s hpriv
  have h1 : s.me.priv.toNat < (1 : BitVec 2).toNat := priv0 hpriv
  have h2 : s.me.priv.toNat < (2 : BitVec 2).toNat := by rw [hpriv]; decide
  have hsr : ∀ n : BitVec 12, n = 0x040 ∨ (0x010 ≤ n.toNat ∧ n.toNat ≤ 0x017) → s.me.priv.toNat < (srLevel n.toNat).toNat := by
    intro n hn
    rw [hpriv]
    exact srLevel_pos (hn.imp_left (congrArg BitVec.toNat))
  exact ⟨runInstr_trap (m := false) (level_then h1) rfl, fun a b hr => instr_unprivileged (names_level_then hr h2),
    fun a b c hr => instr_unprivileged (names_level_then hr h2), instr_unprivileged (level_then h1),
    fun a hr => instr_unprivileged (names_level_then hr h1), fun a hr => instr_unprivileged (names_level_then hr h2),
    fun d a b hr => instr_unprivileged (names_level_then hr h2), fun d hr => instr_unprivileged (names_level_then hr h2),
    instr_unprivileged (level_then h1), instr_unprivileged (level_then h1),
    fun d n hn hr => instr_unprivileged (names_level_then hr (hsr n hn)),
    fun n a hn hr => instr_unprivileged (names_level_then hr (hsr n hn)),
    fun d a hr => ⟨instr_unprivileged (by rw [M.bind_run, M.names_run hr]; exact level_then h1),
      instr_unprivileged (by rw [M.bind_run, M.names_run hr]; exact level_then h1)⟩⟩

end Sys2Proof.Machine

/-! ## Scalar loads and stores (R367, R400) -/

namespace Sys2Proof.Machine

section
variable {s t : State} {op : Nat} {ord : Option (Ord × Scope)} {d : SReg} {m : Addr} {vs : List (Nat × Nat)}

theorem ldOneM_run {sz : LdSz} (hr : s.resident ((10, d) :: addrRegs m)) (ha : s.addrReady m)
    (hl : Gives (loadM (ldBytes sz) ord [(0, s.addrOf m (ldBytes sz))]) s vs t) :
    ldOneM op ord sz d m s = .next ((t.wroteS d (ldExtend sz (oneLane vs))).past 12) := by
  unfold Gives at hl
  refine instr_ok ?_
  simp only [M.bind_run, M.names_run hr, M.eaM_run ha, hl, M.wrS_run]
theorem stOneM_run {sz : StSz} (hr : s.resident ((10, d) :: addrRegs m)) (ha : s.addrReady m) (hd : s.ready d)
    (hst : Gives (storeM (stBytes sz) (stCode sz) ord [(0, s.addrOf m (stBytes sz), (s.me.s d).toNat)]) s () t) :
    stOneM op ord sz d m s = .next (t.past 12) := by
  unfold Gives at hst
  refine instr_ok ?_
  simp only [M.bind_run, M.names_run hr, M.eaM_run ha, M.rdS_run hd, hst]
theorem exec_ldAbs {addr : Word} (hr : s.resident [(10, d)]) (hl : Gives (loadM 8 none [(0, addr)]) s vs t) :
    exec (.ldAbs d addr) s = .next ((t.wroteS d (BitVec.ofNat 64 (oneLane vs))).past 12) := by
  unfold Gives at hl
  refine instr_ok ?_
  simp only [M.bind_run, M.names_run hr, hl, M.wrS_run]
theorem exec_stAbs {addr : Word} (hr : s.resident [(10, d)]) (hd : s.ready d)
    (hst : Gives (storeM 8 3 none [(0, addr, (s.me.s d).toNat)]) s () t) : exec (.stAbs d addr) s = .next (t.past 12) := by
  unfold Gives at hst
  refine instr_ok ?_
  simp only [M.bind_run, M.names_run hr, M.rdS_run hd, hst]
end
theorem ldExtend_values (x : Nat) : ldExtend .n8 x = BitVec.ofNat 64 (x % 2 ^ 8) ∧ ldExtend .n16 x = BitVec.ofNat 64 (x % 2 ^ 16) ∧
    ldExtend .n32 x = BitVec.ofNat 64 (x % 2 ^ 32) ∧ ldExtend .n64 x = BitVec.ofNat 64 x ∧
    ldExtend .i8 x = (BitVec.ofNat 8 x).signExtend 64 ∧ ldExtend .i16 x = (BitVec.ofNat 16 x).signExtend 64 ∧
    ldExtend .i32 x = (BitVec.ofNat 32 x).signExtend 64 := by
  refine ⟨rfl, rfl, rfl, ?_, ldExt 8 x (by decide) (by decide), ldExt 16 x (by decide) (by decide),
    ldExt 32 x (by decide) (by decide)⟩
  refine BitVec.eq_of_toNat_eq ?_
  simp only [ldExtend, ldBytes, BitVec.toNat_ofNat]
  omega

/-- Settles O37: every form reads its address, does its access and writes what the access gives. -/
theorem scalarMemory : Obligations.ScalarMemory :=
  ⟨fun _ _ _ _ _ _ => ldOneM_run, fun _ _ _ _ _ _ _ _ => ldOneM_run, fun _ _ _ _ _ => exec_ldAbs, fun _ _ _ _ _ => stOneM_run,
    fun _ _ _ _ _ _ _ => stOneM_run, fun _ _ _ _ => exec_stAbs, ldExtend_values⟩

end Sys2Proof.Machine

/-! ## Vector loads and stores (R421, R432) -/

namespace Sys2Proof.Machine

section
variable {s t : State} {op : Nat} {ord : Option (Ord × Scope)} {w : EW} {k : LMask} {d : VReg} {m : Addr} {x : XAddr} {addr : Word}

theorem vldM_run (hr : s.resident (addrRegs m)) (ha : s.addrReady m) (hd : s.me.held d = false)
    (hline : s.lineOk k (s.addrOf m 128) .load)
    (hl : LoadsLanes s 32 ord k d (fun i => s.addrOf m 128 + BitVec.ofNat 64 (4 * i)) t) :
    vldM op ord k d m s = .next (t.past 12) := by
  refine instr_ok ?_
  simp only [M.bind_run, M.names_run hr, M.freshV_run hd, M.eaM_run ha, M.checkVec_run hline, lineAddr_fun, M.loadLanes_run hl]
theorem exec_vldAbs (hd : s.me.held d = false) (hline : s.lineOk ⟨0, false⟩ addr .load)
    (hl : LoadsLanes s 32 none ⟨0, false⟩ d (fun i => addr + BitVec.ofNat 64 (4 * i)) t) :
    exec (.vldAbs d addr) s = .next (t.past 12) := by
  refine instr_ok ?_
  simp only [M.bind_run, M.freshV_run hd, M.checkVec_run hline, lineAddr_fun, M.loadLanes_run hl]
theorem vldxM_run (hr : s.resident [(17, x.a)]) (ha : s.ready x.a) (hb : s.vready x.b) (hd : s.me.held d = false)
    (hl : LoadsLanes s (ewBits w) ord k d (fun i => s.me.s x.a + x.disp.signExtend 64 +
      BitVec.ofNat 64 (laneNat (s.me.vreg x.b) (ewBits w) i * scaleOf x.scale (ewBits w / 8))) t) :
    vldxM op ord w k d x s = .next (t.past 12) := by
  refine instr_ok ?_
  simp only [M.bind_run, M.names_run hr, M.freshV_run hd, M.rdS_run ha, M.rdV_run hb, indexedAddr_fun, M.loadLanes_run hl]
theorem vldsM_run (hr : s.resident (addrRegs m)) (ha : s.addrReady m) (hd : s.me.held d = false)
    (hl : LoadsLanes s (ewBits w) ord k d (fun i => s.me.s m.a + m.disp.signExtend 64 +
      BitVec.ofNat 64 i * s.me.s m.b * BitVec.ofNat 64 (scaleOf m.scale (ewBits w / 8))) t) :
    vldsM op ord w k d m s = .next (t.past 12) := by
  obtain ⟨ha, hb⟩ := ha
  refine instr_ok ?_
  simp only [M.bind_run, M.names_run hr, M.freshV_run hd, M.rdS_run ha, M.rdS_run hb, stridedAddr_fun, M.loadLanes_run hl]
theorem checkVec_trap {va : Word} {kind : Kind} {c : Nat} (hk : s.onLanes 32 k ≠ []) (hc : c = 3 ∨ c = 4)
    (h : s.resolve (s.actor s.curCore s.curCtx) va 128 kind = .error (.trap c)) :
    checkVec k va kind s = .error (.trap c va false) := by
  have hlanes : activeIdx 32 (s.me.mask k.m) k.n ≠ [] := hk
  simp only [checkVec, checkLine, M.bind_run, M.rdM_run, List.isEmpty_iff, if_neg hlanes, M.get_run, M.myActor_run, h]
  obtain rfl | rfl := hc <;> rfl
theorem exec_vld_trap {c : Nat} (hr : s.resident (addrRegs m)) (ha : s.addrReady m) (hd : s.me.held d = false)
    (hk : s.onLanes 32 k ≠ []) (hc : c = 3 ∨ c = 4)
    (h : s.resolve (s.actor s.curCore s.curCtx) (s.addrOf m 128) 128 .load = .error (.trap c)) :
    exec (.vld k d m) s = .next (s.trapped c (s.addrOf m 128)) := by
  refine instr_trap (m := false) ?_ (by obtain rfl | rfl := hc <;> rfl)
  simp only [M.bind_run, M.names_run hr, M.freshV_run hd, M.eaM_run ha, checkVec_trap hk hc h]

/-- Settles O38: consecutive, indexed and strided lanes are loaded from the addresses that the operands give. -/
theorem vectorLoads : Obligations.VectorLoads :=
  ⟨fun _ _ _ _ _ hr ha hd hline => ⟨vldM_run hr ha hd hline, fun _ _ => vldM_run hr ha hd hline⟩, fun _ _ _ _ => exec_vldAbs,
    fun _ _ _ _ _ _ hr ha hb hd => ⟨vldxM_run hr ha hb hd, fun _ _ => vldxM_run hr ha hb hd⟩,
    fun _ _ _ _ _ _ hr ha hd => ⟨vldsM_run hr ha hd, fun _ _ => vldsM_run hr ha hd⟩,
    fun _ _ _ _ hr ha hd hk _ => exec_vld_trap hr ha hd hk⟩

theorem vstM_run (hr : s.resident (addrRegs m)) (ha : s.addrReady m) (hd : s.vready d)
    (hline : s.lineOk k (s.addrOf m 128) .store)
    (hst : StoresLanes s 32 7 ord k (s.me.vreg d) (fun i => s.addrOf m 128 + BitVec.ofNat 64 (4 * i)) t) :
    vstM op ord k d m s = .next (t.past 12) := by
  refine instr_ok ?_
  simp only [M.bind_run, M.names_run hr, M.rdV_run hd, M.eaM_run ha, M.checkVec_run hline, lineAddr_fun, M.storeLanes_run hst]
theorem exec_vstAbs (hd : s.vready d) (hline : s.lineOk ⟨0, false⟩ addr .store)
    (hst : StoresLanes s 32 7 none ⟨0, false⟩ (s.me.vreg d) (fun i => addr + BitVec.ofNat 64 (4 * i)) t) :
    exec (.vstAbs d addr) s = .next (t.past 12) := by
  refine instr_ok ?_
  simp only [M.bind_run, M.rdV_run hd, M.checkVec_run hline, lineAddr_fun, M.storeLanes_run hst]
theorem vstxM_run (hr : s.resident [(17, x.a)]) (ha : s.ready x.a) (hb : s.vready x.b) (hd : s.vready d)
    (hst : StoresLanes s (ewBits w) (ewCode w) ord k (s.me.vreg d) (fun i => s.me.s x.a + x.disp.signExtend 64 +
      BitVec.ofNat 64 (laneNat (s.me.vreg x.b) (ewBits w) i * scaleOf x.scale (ewBits w / 8))) t) :
    vstxM op ord w k d x s = .next (t.past 12) := by
  refine instr_ok ?_
  simp only [M.bind_run, M.names_run hr, M.rdV_run hd, M.rdS_run ha, M.rdV_run hb, indexedAddr_fun, M.storeLanes_run hst]
theorem vstsM_run (hr : s.resident (addrRegs m)) (ha : s.addrReady m) (hd : s.vready d)
    (hst : StoresLanes s (ewBits w) (ewCode w) ord k (s.me.vreg d) (fun i => s.me.s m.a + m.disp.signExtend 64 +
      BitVec.ofNat 64 i * s.me.s m.b * BitVec.ofNat 64 (scaleOf m.scale (ewBits w / 8))) t) :
    vstsM op ord w k d m s = .next (t.past 12) := by
  obtain ⟨ha, hb⟩ := ha
  refine instr_ok ?_
  simp only [M.bind_run, M.names_run hr, M.rdV_run hd, M.rdS_run ha, M.rdS_run hb, stridedAddr_fun, M.storeLanes_run hst]
end

/-- Settles O39: the lanes are stored at the same addresses. -/
theorem vectorStores : Obligations.VectorStores :=
  ⟨fun _ _ _ _ _ hr ha hd hline => ⟨vstM_run hr ha hd hline, fun _ _ => vstM_run hr ha hd hline⟩, fun _ _ _ _ => exec_vstAbs,
    fun _ _ _ _ _ _ hr ha hb hd => ⟨vstxM_run hr ha hb hd, fun _ _ => vstxM_run hr ha hb hd⟩,
    fun _ _ _ _ _ _ hr ha hd => ⟨vstsM_run hr ha hd, fun _ _ => vstsM_run hr ha hd⟩⟩

end Sys2Proof.Machine

/-! ## The own scratchpad (R112, R113, R117, R120) -/

namespace Sys2Proof.Machine

section
variable {s : State} {va : Word} {n : Nat}

theorem own_vault (a : Actor) (b : Nat) (w : Bool) :
    s.vaultRefusesT a w ⟨ownPlace s va, b, va.toNat, n, true, none⟩ = false := rfl
theorem markRoom_one {p : Part} (h : s.markRoom s.curCore false = true) : markRoomM [p] s = .ok ((), s) :=
  M.markRoom_run (Nat.le_refl 1) h
theorem own_firstEmpty {b : Nat} {m : BitVec 128} (he : s.store.isEmpty (s.ownKey va) = false) :
    s.firstEmpty [] [⟨ownPlace s va, b, m, 0, true, []⟩] = none := scratch_firstEmpty (own_key s va) he
theorem own_firstEmpty_some {b : Nat} {m : BitVec 128} (he : s.store.isEmpty (s.ownKey va) = true) :
    s.firstEmpty [] [⟨ownPlace s va, b, m, 0, true, []⟩] = some (s.ownKey va, ⟨ownPlace s va, b, m, 0, true, []⟩) :=
  scratch_firstEmpty_some (own_key s va) he ⟨_, _, _, rfl⟩
theorem own_partNow {b : Nat} {m : BitVec 128} {home : Bool} : s.partNow [] home ⟨ownPlace s va, b, m, 0, true, []⟩ =
    some ⟨ownPlace s va, b, m, s.store.line (s.ownKey va), true, s.store.relPairs (s.ownKey va) m⟩ :=
  scratch_partNow (own_key s va)
theorem own_poison {b : Nat} {m : BitVec 128} (he : s.store.readsPoison (s.ownKey va) m = false) :
    s.partPoison ⟨ownPlace s va, b, m, 0, true, []⟩ = false := scratch_poison (own_key s va) he

theorem findPart_self (p : Place) (v : Nat) (m : BitVec 128) (l : Line) (c : Bool) (rs : List (Nat × Rel)) :
    findPart [⟨p, v, m, l, c, rs⟩] p = some ⟨p, v, m, l, c, rs⟩ := by
  rw [findPart, List.find?_cons, beq_self_eq_true]
/-- An access of the own scratchpad that observes releases changes the marks and what the context has observed and touched. -/
theorem withMarks_observed (w : Bool) (rs : List Rel) :
    (withMarks s w va n).modMe (fun c => { c with observed := rs ++ c.observed }) =
      ({ s with store := { s.store with
        marks := (s.store.addMarks (s.actor s.curCore s.curCtx) w true (s.ownKey va) (maskOf (s.ownByte va) n)).marks } } : State).modMe
          fun c => { c with touched := true, observed := rs ++ s.me.observed } := by
  rw [withMarks, State.modMe_modMe]
  rfl

/-- A load of a full own line without poison or conflict gives its bytes. -/
theorem own_load (hva : s.ownAddr va n) (hcalm : s.calm) (hfull : s.store.isEmpty (s.ownKey va) = false)
    (hpoison : s.store.readsPoison (s.ownKey va) (maskOf (s.ownByte va) n) = false)
    (hconflict : s.store.conflictIn (s.actor s.curCore s.curCtx) false true (s.ownKey va) (maskOf (s.ownByte va) n) = none) :
    ∃ t, Gives (loadM n none [(0, va)]) s [(0, lineNat (s.store.line (s.ownKey va)) (s.ownByte va) n)] t ∧ Quiet s t := by
  obtain ⟨hside, haccess, hroom⟩ := hcalm
  have hn : 0 < n := hva.2.2.2.1
  unfold Gives
  simp only [loadM, beforeLoad, loadLanes, List.isEmpty_cons, Bool.false_eq_true, if_false, M.bind_run, M.pure_run, M.myGroup_run,
    M.get_run, hside, List.map_cons, List.map_nil, no_cover _ _ hn, List.any_cons, List.any_nil, Bool.or_false,
    List.zip_cons_cons, List.zip_nil_right, List.filterMap_cons, List.filterMap_nil, Bool.not_false, List.filter_cons,
    List.filter_nil, limitsM, own_lanes hva, show (Cover.none == Cover.some) = false from rfl, if_true, Option.isNone_none,
    own_parts, ownedM, M.myActor_run, own_vault, markRoom_one hroom, M.pending_run haccess, Option.map_none,
    Option.getD_none, own_firstEmpty hfull, own_partNow, Option.isNone_some, List.isEmpty_nil, Bool.not_true,
    own_check hconflict, List.find?_cons, List.find?_nil, own_poison hpoison, afterLoad, findPart_self,
    Option.map_some, observe, M.modMe_run, tgtNat, List.nil_append]
  exact ⟨_, rfl, _, _, withMarks_observed false _⟩
/-- A load of an empty own line makes the context wait on it. -/
theorem own_load_empty (hva : s.ownAddr va n) (hcalm : s.calm) (hempty : s.store.isEmpty (s.ownKey va) = true) :
    ∃ f, loadM n none [(0, va)] s = .error (.stay f) ∧ (f s).me.status = .waiting (.line s.curCore (s.ownKey va)) ∧
      SameBytes s (f s) := by
  obtain ⟨hside, haccess, hroom⟩ := hcalm
  have hn : 0 < n := hva.2.2.2.1
  obtain ⟨f, hwait, hstatus, hbytes⟩ := M.waitLine_run (α := List (Nat × Nat) × List Rel × Bool) (s.ownKey va) (fun id =>
    ⟨s.actor s.curCore s.curCtx, id, ⟨ownPlace s va, va.toNat - s.ownByte va, maskOf (s.ownByte va) n, 0, false, []⟩,
      none, none, none, none, 0⟩) s
  rw [coreOfKey_own] at hstatus
  refine ⟨f, ?_, hstatus, hbytes⟩
  simp only [loadM, beforeLoad, loadLanes, List.isEmpty_cons, Bool.false_eq_true, if_false, M.bind_run, M.pure_run, M.myGroup_run,
    M.get_run, hside, List.map_cons, List.map_nil, no_cover _ _ hn, List.any_cons, List.any_nil, Bool.or_false,
    List.zip_cons_cons, List.zip_nil_right, List.filterMap_cons, List.filterMap_nil, Bool.not_false, List.filter_cons,
    List.filter_nil, limitsM, own_lanes hva, show (Cover.none == Cover.some) = false from rfl, if_true, Option.isNone_none,
    own_parts, ownedM, M.myActor_run, own_vault, List.find?_cons, List.find?_nil, markRoom_one hroom, M.pending_run haccess,
    Option.map_none, Option.getD_none, own_firstEmpty_some hempty, hwait]
/-- A load whose address does not resolve traps with the address. -/
theorem load_trap {c : Nat} (hn : 0 < n) (hside : s.myGroup.sideOf s.curCtx = [])
    (h : s.resolve (s.actor s.curCore s.curCtx) va n .load = .error (.trap c)) :
    loadM n none [(0, va)] s = .error (.trap c va false) := by
  simp only [loadM, beforeLoad, loadLanes, List.isEmpty_cons, Bool.false_eq_true, if_false, M.bind_run, M.pure_run, M.myGroup_run,
    M.get_run, hside, List.map_cons, List.map_nil, no_cover _ _ hn, List.any_cons, List.any_nil, Bool.or_false,
    List.zip_cons_cons, List.zip_nil_right, List.filterMap_cons, List.filterMap_nil, Bool.not_false, List.filter_cons,
    List.filter_nil, limitsM, show (Cover.none == Cover.some) = false from rfl, if_true, resolveLanes, resolveM, M.myActor_run, h,
    M.trapM_run]
/-- An address of the own window at or beyond the end of the partition raises cause 0x04, one inside that is not aligned 0x03. -/
theorem own_resolve_fault (h8 : (va.extractLsb' 60 4).toNat = 8) (hzero : va.toNat / 2 ^ 22 % 2 ^ 38 = 0)
    (halias : isAlias (va.toNat % 2 ^ 22) = false) (hn : 0 < n) :
    (s.myGroup.part * 2 ^ 18 ≤ va.toNat % 2 ^ 22 → s.resolve (s.actor s.curCore s.curCtx) va n .load = .error (.trap 4)) ∧
    (va.toNat % 2 ^ 22 < s.myGroup.part * 2 ^ 18 → va.toNat % n ≠ 0 →
      s.resolve (s.actor s.curCore s.curCtx) va n .load = .error (.trap 3)) := by
  have hown : s.resolve (s.actor s.curCore s.curCtx) va n .load =
      s.resolveOwn (s.actor s.curCore s.curCtx) va.toNat (va.toNat % 2 ^ 22) n := by
    unfold State.resolve
    rw [h8]
    simp only [hzero, ne_eq, not_true_eq_false, if_false]
  rw [hown]
  constructor
  · intro hout
    have hpart : partOk113 s.myGroup.part (va.toNat % 2 ^ 22) n = false := by
      simp only [partOk113, halias, Bool.false_and, Bool.or_false, decide_eq_false_iff_not]
      omega
    exact if_pos (by rw [Bool.not_eq_true']; exact hpart)
  · intro hin hodd
    have hpart : partOk113 s.myGroup.part (va.toNat % 2 ^ 22) n = true := by
      simp only [partOk113, halias, Bool.false_and, Bool.or_false, decide_eq_true_eq]
      omega
    exact (if_neg (by rw [Bool.not_eq_true', Bool.not_eq_false]; exact hpart)).trans (if_pos hodd)
/-- The data of a store is laid over an empty line, so that under its mask it is the value itself. -/
theorem writeHome_merged_bytes (t : State) (k b x : Nat) (r : Option Rel) (h : b + n ≤ 128) (c : Nat) :
    (t.writeHome k (maskOf b n) (mergeLine (maskOf b n) (valLine b n x) 0) r).byteAt c =
      if k + b ≤ c ∧ c < k + b + n then BitVec.ofNat 8 (x / 256 ^ (c - (k + b))) else t.byteAt c := by
  rw [← writeHome_bytes t k b n x r h c]
  unfold State.byteAt
  rw [writeHome_mem, writeHome_mem, Store.setLine_read, Store.setLine_read]
  split
  · rename_i hin
    rw [mergeLine_byte _ _ _ _ (by omega), if_pos hin.2.2]
  · rfl
theorem storePart_own {t : State} {k b : Nat} {m : BitVec 128} {l : Line} {c home sync : Bool} {rs : List (Nat × Rel)}
    {rel : Option Rel} (hk : t.keyOf (ownPlace s va) = some k) :
    storePart home sync rel ⟨ownPlace s va, b, m, l, c, rs⟩ t = .ok ((), t.writeHome k m l rel) := by
  unfold ownPlace at hk ⊢
  simp only [storePart, M.bind_run, M.get_run, M.myActor_run, State.vaultRefuses, Bool.false_eq_true, if_false, hk, M.modS_run]
theorem withMarks_key (w : Bool) : (withMarks s w va n).keyOf (ownPlace s va) = some (s.ownKey va) := own_key s va
theorem withMarks_me (w : Bool) : (withMarks s w va n).me = { s.me with touched := true } := State.me_modMe _ _
theorem byteAt_modGroup (t : State) (k : Nat) (f : Group → Group) (c : Nat) : (t.modGroup k f).byteAt c = t.byteAt c := rfl
theorem memOk_modGroup (t : State) (k : Nat) (f : Group → Group) : (t.modGroup k f).memOk = t.memOk := rfl
/-- A change of the group that changes nothing. -/
theorem me_modGroup_self (t : State) (k : Nat) : (t.modGroup k fun g => g).me = t.me := by
  unfold State.me State.ctx
  by_cases hk : t.curCore = k
  · subst hk
    exact congrArg (fun g => Group.ctx g t.curCtx) (State.group_modGroup t t.curCore fun g => g)
  · exact congrArg (fun g => Group.ctx g t.curCtx) (State.group_modGroup_other t (fun g => g) hk)
/-- A store to an own line writes exactly its bytes. -/
theorem own_store {code x : Nat} (hva : s.ownAddr va n) (hcalm : s.calm) (hreserved : (s.core s.curCore).reserved < 256)
    (hfit : s.ownByte va + n ≤ 128)
    (hconflict : s.store.conflictIn (s.actor s.curCore s.curCtx) true true (s.ownKey va) (maskOf (s.ownByte va) n) = none) :
    ∃ t, Gives (storeM n code none [(0, va, x)]) s () t ∧
      (∀ c, t.byteAt c = if s.ownKey va + s.ownByte va ≤ c ∧ c < s.ownKey va + s.ownByte va + n
        then BitVec.ofNat 8 (x / 256 ^ (c - (s.ownKey va + s.ownByte va))) else s.byteAt c) ∧
      t.me = { s.me with touched := true } ∧ (s.memOk → t.memOk) := by
  obtain ⟨hside, haccess, hroom⟩ := hcalm
  have hreply : (s.core s.curCore).reserved + 1 ≤ 256 := by omega
  unfold Gives
  simp only [storeM, M.bind_run, M.fenceRel_run, List.isEmpty_cons, Bool.false_eq_true, if_false, List.map_cons, List.map_nil,
    own_lanes hva, M.myGroup_run, M.get_run, hside, loggedPage, List.any_nil, List.any_cons, Option.isNone_some, Bool.or_false,
    List.zip_cons_cons, List.zip_nil_right, List.filterMap_cons, List.filterMap_nil, Option.map_some, List.filter_cons,
    List.filter_nil, Option.isNone_none, if_true, storeParts, own_parts, List.foldl_cons, List.foldl_nil, markRoom_one hroom,
    List.length_singleton, M.reserve_run hreply, own_check hconflict,
    storeEach, storePart_own (withMarks_key true), M.pure_run, Option.isSome_none, Bool.and_false, M.modMyGroup_run]
  refine ⟨_, rfl, fun c => ?_, ?_, fun hwf => ?_⟩
  · rw [byteAt_modGroup]
    exact writeHome_merged_bytes _ _ _ _ _ hfit c
  · rw [me_modGroup_self, writeHome_me, withMarks_me]
  · rw [memOk_modGroup]
    exact writeHome_wf (s := withMarks s true va n) hwf _ _ _ _
end

/-- Settles O40: loads, stores, waits and traps of addresses of the own window. -/
theorem scratchpadAccess : Obligations.ScratchpadAccess :=
  ⟨fun _ _ _ => own_load, fun _ _ _ _ _ => own_store, fun _ _ _ => own_load_empty, fun _ _ _ _ => load_trap,
    fun _ _ _ => own_resolve_fault⟩

end Sys2Proof.Machine

/-! ## Full/empty accesses (R118, R119, R369, R402) -/

namespace Sys2Proof.Machine

section
variable {s t u : State} {sc : Scope} {k : LMask} {m : Addr} {g : Tgt} {l : Line}

theorem exec_ldfS {mode : LdfMode} {sz : LdSz} {d : SReg} (hr : s.resident ((10, d) :: addrRegs m)) (ha : s.addrReady m)
    (hl : Gives (ldfLine mode sc (ldBytes sz) (s.addrOf m (ldBytes sz)) fun g => maskOf g.byte (ldBytes sz)) s (g, l) t) :
    exec (.ldfS mode sc sz d m) s = .next ((t.wroteS d (ldExtend sz (lineNat l g.byte (ldBytes sz)))).past 12) := by
  unfold Gives at hl
  refine instr_ok ?_
  simp only [M.bind_run, M.names_run hr, M.eaM_run ha, hl, M.wrS_run]
theorem exec_ldfV {mode : LdfMode} {d : VReg} (hr : s.resident (addrRegs m)) (ha : s.addrReady m) (hd : s.me.held d = false)
    (hl : Gives (ldfLine mode sc 128 (s.addrOf m 128) fun _ => laneBytes (s.me.mask k.m) k.n) s (g, l) t) :
    exec (.ldfV mode sc k d m) s = .next ((t.wroteV d (mergeLine (laneBytes (s.me.mask k.m) k.n) l (t.me.vreg d))).past 12) := by
  unfold Gives at hl
  refine instr_ok ?_
  simp only [M.bind_run, M.names_run hr, M.freshV_run hd, M.eaM_run ha, M.rdM_run, hl, M.me_run, M.wrV_run, State.wroteV]
theorem exec_stfS {mode : StfMode} {sz : StSz} {d : SReg} (hr : s.resident ((10, d) :: addrRegs m)) (ha : s.addrReady m)
    (hd : s.ready d) (hst : Gives (stfLine mode sc (stBytes sz) (stCode sz) (s.addrOf m (stBytes sz))
      (fun g => maskOf g.byte (stBytes sz)) fun g => valLine g.byte (stBytes sz) (s.me.s d).toNat) s () t) :
    exec (.stfS mode sc sz d m) s = .next (t.past 12) := by
  unfold Gives at hst
  refine instr_ok ?_
  simp only [M.bind_run, M.names_run hr, M.eaM_run ha, M.rdS_run hd, hst]
theorem exec_stfV {mode : StfMode} {d : VReg} (hr : s.resident (addrRegs m)) (ha : s.addrReady m) (hd : s.vready d)
    (hst : Gives (stfLine mode sc 128 7 (s.addrOf m 128) (fun _ => laneBytes (s.me.mask k.m) k.n) fun _ => s.me.vreg d) s () t) :
    exec (.stfV mode sc k d m) s = .next (t.past 12) := by
  unfold Gives at hst
  refine instr_ok ?_
  simp only [M.bind_run, M.names_run hr, M.rdV_run hd, M.eaM_run ha, M.rdM_run, hst]
end
/-- The mode table of the loads of a line. -/
theorem load_modes {m : SyncMsg} (e : Bool) (hs : m.store = none) :
    (m.load = some .wfse → syncMet m e = !e ∧ syncAfter m e = true) ∧ (m.load = some .wf → syncMet m e = !e ∧ syncAfter m e = e) ∧
    (m.load = some .se → syncMet m e = true ∧ syncAfter m e = true) := by
  unfold syncMet syncAfter
  rw [hs]
  exact ⟨fun h => by rw [h]; exact ⟨rfl, rfl⟩, fun h => by rw [h]; exact ⟨rfl, rfl⟩, fun h => by rw [h]; exact ⟨rfl, rfl⟩⟩
/-- The mode table of the stores of a line. -/
theorem store_modes {m : SyncMsg} (e : Bool) (hl : m.load = none) :
    (m.store = some .wesf → syncMet m e = e ∧ syncAfter m e = false) ∧
    (m.store = some .sf → syncMet m e = true ∧ syncAfter m e = false) := by
  unfold syncMet syncAfter
  rw [hl]
  exact ⟨fun h => by rw [h]; exact ⟨rfl, rfl⟩, fun h => by rw [h]; exact ⟨rfl, rfl⟩⟩
section
variable {s : State} {k : Nat} {m : SyncMsg}

/-- A synchronising access whose condition does not hold waits on its line. -/
theorem ownSync_wait (h : syncMet m (s.store.isEmpty k) = false) :
    ∃ f, ownSync k m s = .error (.stay f) ∧ (f s).me.status = .waiting (.line (coreOfKey k) k) ∧ SameBytes s (f s) := by
  obtain ⟨f, hwait, hf⟩ := M.waitLine_run (α := Answer) k (fun id => { m with id }) s
  refine ⟨f, ?_, hf⟩
  simp only [ownSync, M.bind_run, M.get_run, h, Bool.false_eq_true, if_false, hwait]
/-- Serving a load of a line gives its data and leaves the state of its mode. -/
theorem serveSync_load {mode : LdfMode} (hl : m.load = some mode) (hs : m.store = none) (hchecked : m.part.checked = true)
    (hpoison : s.store.readsPoison k m.part.mask = false)
    (hconflict : s.store.conflictIn (acquiring m.actor m.acq ((s.store.lineRel k).toList ++ s.store.relsOf k m.part.mask)) false false k
      m.part.mask = none) :
    s.serveSync k m = ({ s with store := (s.store.addMarks m.actor false false k m.part.mask).setEmpty k (syncAfter m (s.store.isEmpty k)) },
      .data [{ m.part with data := s.store.line k, rels := s.store.relPairs k m.part.mask }]
        ((s.store.lineRel k).toList ++ s.store.relsOf k m.part.mask)) := by
  have hmarked : (s.store.addMarks m.actor false false k m.part.mask).readsPoison k m.part.mask = false := hpoison
  have hline : (s.store.addMarks m.actor false false k m.part.mask).line k = s.store.line k := rfl
  unfold State.serveSync
  simp only [hl, hs, Option.isNone_some, Option.isNone_none, Option.isSome_none, Bool.false_and, hchecked, if_true, hconflict,
    Bool.false_eq_true, if_false, hmarked]
  rfl
/-- A load whose condition holds, at a line without other waiters, is served at once. -/
theorem ownSync_load {mode : LdfMode} (hl : m.load = some mode) (hs : m.store = none) (hw : (s.core (coreOfKey k)).waiters = [])
    (hmet : syncMet m (s.store.isEmpty k) = true) (hpoison : s.store.readsPoison k m.part.mask = false)
    (hchecked : m.part.checked = true)
    (hconflict : s.store.conflictIn (acquiring m.actor m.acq ((s.store.lineRel k).toList ++ s.store.relsOf k m.part.mask)) false false k
      m.part.mask = none) :
    ∃ t rels, Gives (ownSync k m) s (.data [{ m.part with data := s.store.line k, rels := s.store.relPairs k m.part.mask }] rels) t ∧
      t.store.isEmpty k = syncAfter m (s.store.isEmpty k) ∧ SameBytes s t ∧ t.cores = s.cores := by
  have hwaiters : ∀ st : Store, (({ s with store := st } : State).core (coreOfKey k)).waiters = [] := fun _ => hw
  refine ⟨{ s with store := (s.store.addMarks m.actor false false k m.part.mask).setEmpty k (syncAfter m (s.store.isEmpty k)) },
    (s.store.lineRel k).toList ++ s.store.relsOf k m.part.mask, ?_, Cells.get_set_self _ _ _ _, fun _ => rfl, rfl⟩
  unfold Gives
  simp only [ownSync, M.bind_run, M.get_run, hmet, if_true, serveSync_load hl hs hchecked hpoison hconflict, hwaiters,
    State.testWaiters, M.set_run, M.pure_run]
end
/-- Setting the state of a line that nothing waits on. -/
theorem homeSetLine_calm {s : State} {k : Nat} (full : Bool) (r : Option Rel) (hw : (s.core (coreOfKey k)).waiters = []) :
    s.homeSetLine k full r =
      { s with store := (if full then s.store.setLineRel k r else s.store).setEmpty k (!full) } := by
  have hwaiters : ∀ st : Store, (({ s with store := st } : State).core (coreOfKey k)).waiters = [] := fun _ => hw
  unfold State.homeSetLine State.setLineState
  cases full with
  | false => simp only [Bool.false_eq_true, if_false, hwaiters, State.testWaiters]
  | true => simp only [if_true, hwaiters, State.testWaiters]
theorem homeSetLine_effect {s : State} {k : Nat} (full : Bool) (r : Option Rel) (hw : (s.core (coreOfKey k)).waiters = []) :
    (s.homeSetLine k full r).store.isEmpty k = !full ∧ SameBytes s (s.homeSetLine k full r) ∧
      (s.homeSetLine k full r).cores = s.cores := by
  rw [homeSetLine_calm full r hw]
  refine ⟨Cells.get_set_self _ _ _ _, fun c => ?_, rfl⟩
  cases full <;> rfl

section
variable {s u : State} {m : Addr}

theorem exec_fclr (hr : s.resident (addrRegs m)) (ha : s.addrReady m) (hva : s.ownAddr (s.addrOf m 1 &&& ~~~127#64) 128) :
    exec (.fclr m) s = .next ((s.homeSetLine (s.ownKey (s.addrOf m 1 &&& ~~~127#64)) false none).past 12) := by
  have hkey := own_key s (s.addrOf m 1 &&& ~~~127#64)
  unfold ownPlace at hkey
  refine instr_ok ?_
  simp only [setLineM, M.bind_run, M.names_run hr, M.eaM_run ha, Bool.false_eq_true, if_false, M.pure_run, own_scratch hva,
    M.myActor_run, M.get_run, hkey, M.modS_run]
/-- The own scratchpad of a context does not change with the context. -/
theorem ownAddr_modMe {f : Ctx → Ctx} {va : Word} {n : Nat} (h : s.ownAddr va n) : (s.modMe f).ownAddr va n := by
  unfold State.ownAddr at h ⊢
  rw [State.myGroup_modMe]
  exact h
theorem ownKey_modMe (f : Ctx → Ctx) (va : Word) : (s.modMe f).ownKey va = s.ownKey va := by
  unfold State.ownKey
  rw [State.myGroup_modMe]
  rfl
theorem exec_fset (hr : s.resident (addrRegs m)) (ha : s.addrReady m) (hva : s.ownAddr (s.addrOf m 1 &&& ~~~127#64) 128)
    (hrel : Gives (releaseM .panel) s () s) (hu : u = s.modMe Ctx.nextRegion) :
    exec (.fset m) s = .next (((u.homeSetLine (s.ownKey (s.addrOf m 1 &&& ~~~127#64)) true
      (some (actorRel (u.actor u.curCore u.curCtx) u.myPanel .panel))).modMe Ctx.nextRegion).past 12) := by
  have hkey := own_key u (s.addrOf m 1 &&& ~~~127#64)
  have hown : u.ownAddr (s.addrOf m 1 &&& ~~~127#64) 128 := by rw [hu]; exact ownAddr_modMe hva
  have hsame : u.ownKey (s.addrOf m 1 &&& ~~~127#64) = s.ownKey (s.addrOf m 1 &&& ~~~127#64) := by rw [hu]; exact ownKey_modMe _ _
  rw [hsame] at hkey
  unfold ownPlace at hkey
  unfold Gives at hrel
  refine instr_ok ?_
  simp only [setLineM, M.bind_run, M.names_run hr, M.eaM_run ha, if_true, beginRelease, hrel, M.endRegion_run, ← hu, myRel,
    M.pure_run, own_scratch hown, M.myActor_run, M.get_run, hkey, M.modS_run]
end

/-- Settles O41: the accesses of lines, the mode table, and the state of a line set by `fset` and `fclr`. -/
theorem fullEmptyAccesses : Obligations.FullEmptyAccesses :=
  ⟨fun _ _ _ _ _ _ _ _ _ => exec_ldfS, fun _ _ _ _ _ _ _ _ _ => exec_ldfV, fun _ _ _ _ _ _ _ => exec_stfS,
    fun _ _ _ _ _ _ _ => exec_stfV, fun _ e => load_modes e, fun _ e => store_modes e, fun _ _ _ => ownSync_wait,
    fun _ _ _ _ hl hs hw hmet hpoison hchecked => ownSync_load hl hs hw hmet hpoison hchecked, fun _ _ => exec_fclr,
    fun _ _ _ => exec_fset, fun _ _ full r => homeSetLine_effect full r⟩

end Sys2Proof.Machine

/-! ## Atomics and sub-byte stores (R337, R403, R412) -/

namespace Sys2Proof.Machine

theorem ival_eq_toInt {n : Nat} (h0 : 0 < n) (x : Nat) : ival true n x = (BitVec.ofNat n x).toInt := by
  have hp : 2 ^ n = 2 * 2 ^ (n - 1) := by rw [← Nat.pow_succ']; congr 1; omega
  simp only [ival, BitVec.toInt_eq_toNat_cond, BitVec.toNat_ofNat, Bool.true_and, decide_eq_true_eq]
  by_cases hneg : 2 ^ (n - 1) ≤ x % 2 ^ n
  · rw [if_pos hneg, if_neg (by omega)]; rfl
  · rw [if_neg hneg, if_pos (by omega)]
/-- The operation table on integers. -/
theorem amoNew_values {n x y : Nat} (e : Nat) (hn : 1 ≤ n) (hx : x < 2 ^ (8 * n)) (hy : y < 2 ^ (8 * n)) :
    amoNew .add n x y e = some ((x + y) % 2 ^ (8 * n)) ∧ amoNew .and n x y e = some (x &&& y) ∧ amoNew .or n x y e = some (x ||| y) ∧
    amoNew .xor n x y e = some (x ^^^ y) ∧ amoNew .maxu n x y e = some (max x y) ∧ amoNew .minu n x y e = some (min x y) ∧
    amoNew .swap n x y e = some y ∧ amoNew .cas n x y e = (if x = e % 2 ^ (8 * n) then some y else none) ∧
    amoNew .max n x y e = some (if (BitVec.ofNat (8 * n) x).sle (BitVec.ofNat (8 * n) y) then y else x) ∧
    amoNew .min n x y e = some (if (BitVec.ofNat (8 * n) x).sle (BitVec.ofNat (8 * n) y) then x else y) := by
  have hw : 0 < 8 * n := by omega
  have hsle : ival true (8 * n) x ≤ ival true (8 * n) y ↔ (BitVec.ofNat (8 * n) x).sle (BitVec.ofNat (8 * n) y) = true := by
    rw [BitVec.sle, decide_eq_true_eq, ival_eq_toInt hw, ival_eq_toInt hw]
  unfold amoNew
  dsimp only
  rw [Nat.mod_eq_of_lt hx, Nat.mod_eq_of_lt hy]
  exact ⟨rfl, rfl, rfl, rfl, rfl, rfl, rfl, rfl, congrArg some (if_congr hsle rfl rfl), congrArg some (if_congr hsle rfl rfl)⟩

section
variable {s : State} {va : Word} {n : Nat} {op : AmoOp} {r : Option Rel} {y e : Word}

/-- The one lane of an atomic of the own scratchpad, and the marks that it leaves. -/
def ownLane (s : State) (va : Word) (n : Nat) (y e : Word) : AtomLane :=
  atomLane 0 ⟨ownPlace s va, s.ownByte va, va.toNat, n, true, none⟩ y e
def markedAtom (s : State) (op : AmoOp) (va : Word) (n : Nat) (y e : Word) : State :=
  let writes := s.atomWrites op n (s.ownKey va) (ownLane s va n y e)
  { s with store := s.store.addMarks (s.actor s.curCore s.curCtx) writes false (s.ownKey va) (maskOf (s.ownByte va) n) }
theorem ownLane_key (a : Actor) : s.laneKey a (ownLane s va n y e) = some (s.ownKey va) := laneOf_own s va n a y e
theorem ownLane_checked : (ownLane s va n y e).checked = true := rfl
theorem ownLane_byte : (ownLane s va n y e).byte = s.ownByte va := rfl
theorem ownLane_own : allOwn [ownLane s va n y e] = true := rfl
theorem ownLane_conflict (hconflict : ∀ wr, s.store.conflictIn (s.actor s.curCore s.curCtx) wr false (s.ownKey va)
    (maskOf (s.ownByte va) n) = none) : s.atomConflict (s.actor s.curCore s.curCtx) op n [ownLane s va n y e] = none := by
  simp only [State.atomConflict, List.filterMap_cons, List.filterMap_nil, ownLane_key, ownLane_checked, if_true, ownLane_byte,
    hconflict, Option.map_none, List.min?_nil]
theorem ownLane_poison (hpoison : s.store.readsPoison (s.ownKey va) (maskOf (s.ownByte va) n) = false) :
    s.atomPoison (s.actor s.curCore s.curCtx) n [ownLane s va n y e] = none := by
  simp only [State.atomPoison, List.filterMap_cons, List.filterMap_nil, ownLane_key, ownLane_byte, hpoison, Bool.false_eq_true,
    if_false, List.min?_nil]
/-- A plain atomic of the own scratchpad marks its bytes and is performed at once. -/
theorem atomics_own (a : Option Scope) (ha : a = none)
    (hconflict : ∀ wr, s.store.conflictIn (s.actor s.curCore s.curCtx) wr false (s.ownKey va) (maskOf (s.ownByte va) n) = none)
    (hpoison : s.store.readsPoison (s.ownKey va) (maskOf (s.ownByte va) n) = false) :
    ∃ rels, atomics op n a r [ownLane s va n y e] s = .ok ((some [(0,
        ((markedAtom s op va n y e).atomAt op n (s.ownKey va) (ownLane s va n y e) r).2)], rels),
      ((markedAtom s op va n y e).atomAt op n (s.ownKey va) (ownLane s va n y e) r).1.modMe fun c => { c with touched := true }) := by
  subst ha
  have hmarked : s.homeAtomic (s.actor s.curCore s.curCtx) op n none r [ownLane s va n y e] =
      (((markedAtom s op va n y e).atomAt op n (s.ownKey va) (ownLane s va n y e) r).1,
        .old [(0, ((markedAtom s op va n y e).atomAt op n (s.ownKey va) (ownLane s va n y e) r).2)]
          ((markedAtom s op va n y e).store.relsOf (s.ownKey va) (maskOf (s.ownByte va) n) ++ [])) := by
    simp only [State.homeAtomic, acquiring, ownLane_conflict hconflict, ownLane_poison hpoison, State.atomAll, ownLane_key,
      ownLane_checked, if_true, ownLane_byte]
    rfl
  refine ⟨(markedAtom s op va n y e).store.relsOf (s.ownKey va) (maskOf (s.ownByte va) n) ++ [], ?_⟩
  simp only [atomics, List.isEmpty_cons, Bool.false_eq_true, if_false, M.bind_run, M.get_run, M.myActor_run, ownLane_own, if_true,
    hmarked, M.set_run, M.modMe_run, M.pure_run]
theorem past_s (t : State) (len : Nat) (q : SReg) : (t.past len).me.s q = t.me.s q := by
  rw [State.past, State.me_modMe]
  exact Ctx.s_congr rfl rfl rfl q
theorem past_pc (t : State) (len : Nat) : (t.past len).me.pc = t.me.pc + BitVec.ofNat 64 len := by rw [State.past, State.me_modMe]
theorem byteAt_past (t : State) (len c : Nat) : (t.past len).byteAt c = t.byteAt c := rfl
theorem byteAt_wroteS (t : State) (d : SReg) (v : Word) (c : Nat) : (t.wroteS d v).byteAt c = t.byteAt c := rfl
theorem modMe_observed_s (t : State) (rs : List Rel) (q : SReg) :
    (t.modMe fun c => { c with observed := rs ++ c.observed }).me.s q = t.me.s q := by
  rw [State.me_modMe]
  exact Ctx.s_congr rfl rfl rfl q
theorem modMe_observed_pc (t : State) (rs : List Rel) : (t.modMe fun c => { c with observed := rs ++ c.observed }).me.pc = t.me.pc := by
  rw [State.me_modMe]
theorem endAtomic_plain (sc : Scope) (rs : List Rel) (t : State) :
    endAtomic .plain sc rs t = .ok ((), t.modMe fun c => { c with observed := rs ++ c.observed }) := rfl
/-- A plain atomic of n bytes of the own scratchpad gives the old value and writes the new one. -/
theorem amoM_own {opc x : Nat} {sc : Scope} {d a b : SReg} {disp : BitVec 40} (hr : s.resident [(10, d), (17, a), (24, b)])
    (ha : s.ready a) (hb : s.ready b) (hd : s.ready d) (hea : va = s.me.s a + disp.signExtend 64) (hva : s.ownAddr va n)
    (hfit : s.ownByte va + n ≤ 128) (hside : s.myGroup.sideOf s.curCtx = [])
    (hx : x = s.store.num (s.ownKey va + s.ownByte va) n)
    (hpoison : s.store.readsPoison (s.ownKey va) (maskOf (s.ownByte va) n) = false)
    (hconflict : ∀ wr, s.store.conflictIn (s.actor s.curCore s.curCtx) wr false (s.ownKey va) (maskOf (s.ownByte va) n) = none) :
    ∃ t, amoM opc n op .plain sc d a disp b s = .next t ∧ t.me.s d = (if d = 0 then 0 else BitVec.ofNat 64 x) ∧
      t.me.pc = s.me.pc + 12 ∧ ∀ c, t.byteAt c = match amoNew op n x (s.me.s b).toNat (s.me.s d).toNat with
        | some y => if s.ownKey va + s.ownByte va ≤ c ∧ c < s.ownKey va + s.ownByte va + n
            then BitVec.ofNat 8 (y / 256 ^ (c - (s.ownKey va + s.ownByte va))) else s.byteAt c
        | none => s.byteAt c := by
  obtain ⟨rels, hatom⟩ := atomics_own (op := op) (r := s.me.fenceRel) (y := s.me.s b) (e := s.me.s d) (acqScope .plain sc) rfl
    hconflict hpoison
  obtain ⟨hold, hme, -, -, hbytes⟩ := atomAt_spec (markedAtom s op va n (s.me.s b) (s.me.s d)) op n (s.ownKey va)
    (ownLane s va n (s.me.s b) (s.me.s d)) s.me.fenceRel hfit
  have hnum : (markedAtom s op va n (s.me.s b) (s.me.s d)).store.num (s.ownKey va + s.ownByte va) n = x :=
    (num_mem (s := (markedAtom s op va n (s.me.s b) (s.me.s d)).store) (t := s.store) rfl _ _).trans hx.symm
  rw [ownLane_byte, hnum] at hold
  refine ⟨_, amoM_run hr ha hb hd (M.fenceRel_run s) (hea ▸ own_resolveM hva .atomic _) rfl (by rw [hside]; rfl) hatom
    (endAtomic_plain sc rels _), ?_, ?_, fun c => ?_⟩
  · rw [past_s, modMe_observed_s, State.wroteS_s, hold, State.me_modMe, hme]
    by_cases h0 : d = 0
    · rw [if_neg fun h => h.2 h0, if_pos h0, h0]
      exact Ctx.s_zero _
    · rw [if_pos ⟨rfl, h0⟩, if_neg h0]
  · rw [past_pc, modMe_observed_pc, wroteS_pc, State.me_modMe, hme]
    rfl
  · rw [byteAt_past, byteAt_modMe, byteAt_wroteS, byteAt_modMe]
    have hbyte := hbytes c
    rw [ownLane_byte, hnum] at hbyte
    exact hbyte
end

/-! ### Lanes of atomics, and bits of a byte -/

/-- The register that the old values of the active lanes make, the other lanes kept. -/
def oldLanes (s : State) (w : Nat) (d : VReg) (xs : List (Nat × Word)) (i : Nat) : Nat :=
  ((xs.find? fun p => p.1 == i).map (·.2.toNat)).getD (laneNat (s.me.vreg d) w i)
section
variable {s u v w z : State} {opc n : Nat} {op : AmoOp} {o : Ord} {sc : Scope} {k : LMask} {d : VReg} {a : SReg} {scale : BitVec 2}
  {disp : BitVec 40} {r : Option Rel} {ls : List AtomLane} {xs : List (Nat × Word)} {rels : List Rel}

theorem vamoM_consecutive (hr : s.resident [(17, a)]) (ha : s.ready a) (hd : s.vready d) (hb : Gives (beginAtomic o sc) s r u)
    (hside : u.myGroup.sideOf u.curCtx = [])
    (hl : Gives (vamoLanes n (s.me.vreg d) ((s.onLanes (8 * n) k).map fun i =>
      (i, s.me.s a + disp.signExtend 64 + BitVec.ofNat 64 (i * n)))) u ls v)
    (hx : Gives (atomics op n (acqScope o sc) r ls) v (some xs, rels) w)
    (he : Gives (endAtomic o sc rels) (w.wroteV d (ofLanes (8 * n) (1024 / (8 * n)) (oldLanes s (8 * n) d xs))) () z) :
    vamoM opc n op o sc k d a .none scale disp s = .next (z.past 12) :=
  vamoM_run (addr := fun i => s.me.s a + disp.signExtend 64 + BitVec.ofNat 64 (i * n)) rfl rfl hr ha hd (fun _ h => by cases h)
    (fun _ => rfl) hb hside hl hx (fun _ => rfl) he
theorem vamoM_indexed {b : VReg} (hr : s.resident [(17, a)]) (ha : s.ready a) (hd : s.vready d) (hb : Gives (beginAtomic o sc) s r u)
    (hside : u.myGroup.sideOf u.curCtx = []) (hix : s.vready b)
    (hl : Gives (vamoLanes n (s.me.vreg d) ((s.onLanes (8 * n) k).map fun i => (i, s.me.s a + disp.signExtend 64 +
      BitVec.ofNat 64 (laneNat (s.me.vreg b) (8 * n) i * scaleOf scale n)))) u ls v)
    (hx : Gives (atomics op n (acqScope o sc) r ls) v (some xs, rels) w)
    (he : Gives (endAtomic o sc rels) (w.wroteV d (ofLanes (8 * n) (1024 / (8 * n)) (oldLanes s (8 * n) d xs))) () z) :
    vamoM opc n op o sc k d a (.v b) scale disp s = .next (z.past 12) :=
  vamoM_run (addr := fun i => s.me.s a + disp.signExtend 64 + BitVec.ofNat 64 (laneNat (s.me.vreg b) (8 * n) i * scaleOf scale n))
    rfl rfl hr ha hd (fun _ h => by cases h; exact hix) (fun _ => rfl) hb hside hl hx (fun _ => rfl) he
end
/-- The bits of an element lie inside one byte. -/
theorem nibble_fits (w : NW) (e : Nat) : e * nwBits w % 8 + nwBits w ≤ 8 := by
  cases w <;> simp only [nwBits] <;> omega
/-- A sub-byte store changes the bits of its element in one byte. -/
theorem homeNibble_bits (s : State) {k byte pos width : Nat} (v : Byte) (r : Option Rel) (hb : byte < 128) (hfit : pos + width ≤ 8)
    (c : Nat) {i : Nat} (hi : i < 8) : ((s.homeNibble k byte pos width v r).byteAt c).getLsbD i =
      if c = k + byte ∧ pos ≤ i ∧ i < pos + width then v.getLsbD (i - pos) else (s.byteAt c).getLsbD i := by
  unfold State.homeNibble
  rw [writeHome_byte1 _ _ _ _ _ hb (replace_lt _ _ _ _ (BitVec.isLt _) hfit)]
  by_cases hc : c = k + byte
  · rw [if_pos hc, BitVec.getLsbD_ofNat, replace_bit, decide_eq_true hi, Bool.true_and]
    by_cases hin : pos ≤ i ∧ i < pos + width
    · rw [if_pos hin, if_pos ⟨hc, hin⟩]
      rfl
    · rw [if_neg hin, if_neg fun h => hin h.2, hc]
      rfl
  · rw [if_neg hc, if_neg fun h => hc h.1]
section
variable {s : State} {w : NW} {d a b : SReg} {disp : BitVec 48} {va : Word} {bit : Nat}

/-- The state after a sub-byte store of the own scratchpad has left its marks. -/
def markedStn (s : State) (va : Word) : State :=
  ({ s with store := s.store.addMarks (s.actor s.curCore s.curCtx) true false (s.ownKey va) (maskOf (s.ownByte va) 1) }).modMe
    fun c => { c with touched := true }
theorem markedStn_check {b : Nat} {l : Line}
    (h : s.store.conflictIn (s.actor s.curCore s.curCtx) true false (s.ownKey va) (maskOf (s.ownByte va) 1) = none) :
    checkM true false [⟨ownPlace s va, b, maskOf (s.ownByte va) 1, l, true, []⟩] s = .ok ((), markedStn s va) := by
  simp [checkM, State.conflictOf, own_mark, h, State.markParts, markedStn]
theorem own_aliasOf {n : Nat} : aliasOf ⟨ownPlace s va, s.ownByte va, va.toNat, n, true, none⟩ = false := rfl
theorem own_vaultPart {a : Actor} {b : Nat} {m : BitVec 128} {l : Line} :
    s.vaultRefuses a true ⟨ownPlace s va, b, m, l, true, []⟩ = false := by
  simp only [State.vaultRefuses, ownPlace]
theorem exec_stn (hr : s.resident [(10, d), (17, a), (24, b)]) (ha : s.ready a) (hb : s.ready b) (hd : s.ready d)
    (hbit : bit = (s.me.s b).toNat * nwBits w) (hea : va = s.me.s a + disp.signExtend 64 + BitVec.ofNat 64 (bit / 8))
    (hva : s.ownAddr va 1) (hcalm : s.calm) (hreserved : (s.core s.curCore).reserved < 256)
    (hconflict : s.store.conflictIn (s.actor s.curCore s.curCtx) true false (s.ownKey va) (maskOf (s.ownByte va) 1) = none) :
    ∃ t, exec (.stn w d a b disp) s = .next t ∧ t.me.pc = s.me.pc + 12 ∧ ∀ c i, i < 8 →
      (t.byteAt c).getLsbD i = if c = s.ownKey va + s.ownByte va ∧ bit % 8 ≤ i ∧ i < bit % 8 + nwBits w
        then (s.me.s d).getLsbD (i - bit % 8) else (s.byteAt c).getLsbD i := by
  obtain ⟨hside, haccess, hroom⟩ := hcalm
  have hreply : (s.core s.curCore).reserved + 1 ≤ 256 := by omega
  have htgt : tgtPart ⟨ownPlace s va, s.ownByte va, va.toNat, 1, true, none⟩ (maskOf (s.ownByte va) 1) 0 =
      ⟨ownPlace s va, va.toNat - s.ownByte va, maskOf (s.ownByte va) 1, 0, true, []⟩ := rfl
  have hkey : (markedStn s va).keyOf (ownPlace s va) = some (s.ownKey va) := own_key s va
  have hrun : exec (.stn w d a b disp) s = .next (((markedStn s va).homeNibble (s.ownKey va) (s.ownByte va) (bit % 8) (nwBits w)
      ((s.me.s d).setWidth 8) s.me.fenceRel).past 12) := by
    refine instr_ok ?_
    simp only [M.bind_run, M.names_run hr, M.rdS_run ha, M.rdS_run hb, M.rdS_run hd, M.fenceRel_run, M.myGroup_run, M.get_run,
      hside, ← hbit, ← hea, own_resolveM hva, M.myActor_run, htgt, own_aliasOf, loggedPage, List.any_nil, own_vaultPart,
      Bool.false_eq_true, if_false, markRoom_one hroom, M.reserve_run hreply, markedStn_check hconflict]
    unfold ownPlace at hkey ⊢
    simp only [hkey, M.modS_run]
  refine ⟨_, hrun, ?_, fun c i hi => ?_⟩
  · rw [past_pc, State.homeNibble, writeHome_me, markedStn, State.me_modMe]
    rfl
  · have hbyte : s.ownByte va < 128 := Nat.mod_lt _ (by decide)
    rw [byteAt_past, homeNibble_bits _ _ _ hbyte (hbit ▸ nibble_fits w _) c hi, BitVec.getLsbD_setWidth,
      decide_eq_true (show i - bit % 8 < 8 by omega), Bool.true_and]
    rfl
end

end Sys2Proof.Machine

namespace Sys2Proof

open Machine in
/-- Settles O42: `amo`, its operation table, `vamo` and `stn`. -/
theorem atomics : Obligations.Atomics :=
  ⟨fun _ _ _ _ _ _ _ _ _ _ _ _ _ _ _ _ _ hr ha hb hd h5 => ⟨fun h6 h7 h8 h9 h10 => amoM_run hr ha hb hd h5 h6 h7 h8 h9 h10,
      fun h6 h7 h8 h9 h10 => amoM_run hr ha hb hd h5 h6 h7 h8 h9 h10⟩,
    fun s op sc d a b disp va n x i hr ha hb hd hea hi => by
      obtain ⟨rfl, rfl⟩ | ⟨rfl, rfl⟩ := hi
      · exact amoM_own hr ha hb hd hea
      · exact amoM_own hr ha hb hd hea,
    fun _ _ _ e => amoNew_values e,
    fun _ _ _ _ _ _ _ _ _ _ _ scale _ _ _ _ _ hr ha hd hb hside =>
     ⟨fun h6 h9 h10 => vamoM_consecutive (scale := scale) hr ha hd hb hside h6 h9 h10,
      fun h6 h9 h10 => vamoM_consecutive (scale := scale) hr ha hd hb hside h6 h9 h10,
      fun _ hix => ⟨fun h6 h9 h10 => vamoM_indexed hr ha hd hb hside hix h6 h9 h10,
        fun h6 h9 h10 => vamoM_indexed hr ha hd hb hside hix h6 h9 h10⟩⟩,
    fun _ _ _ _ _ _ _ _ => exec_stn⟩

end Sys2Proof

/-! ## Fences, prefetches and ranged maintenance (R129, R130, R148, R346, R391) -/

namespace Sys2Proof.Machine

section
variable {s t u v : State} {sc : Scope}

theorem exec_fence_waits {o : Ord} (ho : ordReleases o = true)
    (h : s.me.unacked ≠ 0 ∨ s.myGroup.sideOf s.curCtx ≠ [] ∨ s.me.maint ≠ []) : exec (.fence o sc) s = .next s := by
  refine instr_stay (f := id) ?_
  simp only [M.bind_run, ho, if_true, releaseM_wait h]
theorem exec_fence_acq (h : Gives (endAcquire sc (s.modMe Ctx.nextRegion).me.observed) (s.modMe Ctx.nextRegion) () v) :
    exec (.fence .acq sc) s = .next (v.past 8) := by
  unfold Gives at h
  refine instr_ok ?_
  simp only [M.bind_run, ordReleases, ordAcquires, Bool.false_eq_true, if_false, if_true, M.pure_run, M.endRegion_run, M.me_run, h]

/-- The state in which the release of a fence has left its mark, in a new region. -/
def fenceReleased (t : State) (sc : Scope) : State :=
  (t.modMe fun c => { c with fenceRel := fenceMark c.fenceRel (actorRel (t.actor t.curCore t.curCtx) t.myPanel sc) }).modMe
    Ctx.nextRegion
theorem myRel_run (sc : Scope) (s : State) : myRel sc s = .ok (actorRel (s.actor s.curCore s.curCtx) s.myPanel sc, s) := rfl
theorem exec_fence_rel (h : Gives (releaseM sc) s () t) : exec (.fence .rel sc) s = .next ((fenceReleased t sc).past 8) := by
  unfold Gives at h
  refine instr_ok ?_
  simp only [M.bind_run, ordReleases, ordAcquires, Bool.false_eq_true, if_false, if_true, M.pure_run, M.endRegion_run,
    myRel_run, M.modMe_run, h, fenceReleased]
theorem exec_fence_both {o : Ord} (hrel : ordReleases o = true) (hacq : ordAcquires o = true) (h : Gives (releaseM sc) s () t)
    (ha : Gives (endAcquire sc (fenceReleased t sc).me.observed) (fenceReleased t sc) () v) :
    exec (.fence o sc) s = .next (v.past 8) := by
  unfold Gives fenceReleased at *
  refine instr_ok ?_
  simp only [M.bind_run, hrel, hacq, if_true, M.endRegion_run, M.me_run, myRel_run, M.modMe_run, h, ha]
theorem endAcquire_narrow {rs : List Rel} (h : scWide sc = false) : Gives (endAcquire sc rs) s ()
    (s.modMe fun c => rs.foldl (fun c r => c.acquireRel s.myPanel s.curCore sc r) c) := by
  simp only [Gives, endAcquire, acquireL1, h, Bool.false_eq_true, if_false, M.bind_run, M.pure_run, acquire, M.get_run, M.modMe_run]
theorem exec_pref {m : Addr} (hr : s.resident (addrRegs m)) (ha : s.addrReady m) :
    ∃ t, exec (.pref m) s = .next (t.past 12) ∧ t.me = s.me ∧ SameBytes s t := by
  obtain ⟨t, hrun, hsame⟩ := prefLines_run (rangeLines (s.addrOf m 1) 1) s
  refine ⟨t, instr_ok ?_, hsame⟩
  simp only [M.bind_run, M.names_run hr, M.eaM_run ha, hrun]

variable {d a b : SReg} {disp : BitVec 48}

theorem exec_prefRange (hr : s.resident [(17, a), (24, b)]) (ha : s.ready a) (hb : s.ready b) :
    ∃ t, exec (.prefRange a disp b) s = .next (t.past 12) ∧ t.me = s.me ∧ SameBytes s t := by
  obtain ⟨t, hrun, hsame⟩ := prefLines_run (rangeLines (s.me.s a + disp.signExtend 64) (min (s.me.s b).toNat (2 ^ 24))) s
  refine ⟨t, instr_ok ?_, hsame⟩
  simp only [M.bind_run, M.names_run hr, M.rdS_run ha, M.rdS_run hb, hrun]

section
variable {op : Nat} {inv : Bool} (hr : s.resident [(10, d), (17, a), (24, b)]) (ha : s.ready a) (hb : s.ready b)
include hr ha hb

theorem maintM_empty (h : s.me.s b = 0) : maintM op inv sc d a disp b s = .next ((s.wroteLate d 0).past 12) := by
  refine instr_ok ?_
  simp only [M.bind_run, M.names_run hr, M.rdS_run ha, M.rdS_run hb, h, if_true, M.wrSLate_run]
theorem maintM_long (h : 2 ^ 24 < (s.me.s b).toNat) : maintM op inv sc d a disp b s = .next (s.trapped 4 (s.me.s b)) := by
  have hne : s.me.s b ≠ 0 := fun h0 => by simp [h0] at h
  refine instr_trap (m := false) ?_ rfl
  simp only [M.bind_run, M.names_run hr, M.rdS_run ha, M.rdS_run hb, if_neg hne, if_pos h, M.trapM_run]
end

/-- The lines of maintenance at a scope that reaches the slices. -/
def maintWide (sc : Scope) (keys : List Nat) : List Nat := keys.filter fun k => scWide sc && (k < vaultBase || isProxyKey k)
/-- The L1, then the slices: the state after the maintenance of lines, and its count. -/
def maintained (s : State) (inv : Bool) (keys wide : List Nat) : State × Nat :=
  maintAll (fun u k => u.maintSlice (some (s.actor s.curCore s.curCtx)) inv k) ((wide.map fun k => k / 256 * 256).eraseDups)
    (maintAll (fun u k => u.maintL1 (s.actor s.curCore s.curCtx) inv k) keys (s, 0))
theorem podLines_none {keys : List Nat}
    (h : ∀ k ∈ keys, isProxyKey k = false ∧ s.store.sharedOut k (BitVec.allOnes 128) = false) : s.podLines keys = [] := by
  have hnone : (keys.filter fun k => isProxyKey k || s.store.sharedOut k (BitVec.allOnes 128)) = [] :=
    List.filter_eq_nil_iff.2 fun k hk => by rw [(h k hk).1, (h k hk).2]; decide
  simp only [State.podLines, hnone, List.map_nil, List.eraseDups_nil]
theorem maintM_run {op : Nat} {inv : Bool} (hr : s.resident [(10, d), (17, a), (24, b)]) (ha : s.ready a) (hb : s.ready b)
    (hpos : 0 < (s.me.s b).toNat) (hlen : (s.me.s b).toNat ≤ 2 ^ 24) (hfree : s.me.access = none) {ea : Word} {keys : List Nat}
    (hea : ea = s.me.s a + disp.signExtend 64) (hfirst : s.resolve (s.actor s.curCore s.curCtx) ea 1 .load ≠ .error (.trap 4))
    (hlast : s.resolve (s.actor s.curCore s.curCtx) (ea + s.me.s b - 1) 1 .load ≠ .error (.trap 4))
    (hkeys : keys = (rangeLines ea (s.me.s b).toNat).filterMap (s.maintKey (s.actor s.curCore s.curCtx)))
    (hpod : sc = .pod → ∀ k ∈ maintWide sc keys, isProxyKey k = false ∧ s.store.sharedOut k (BitVec.allOnes 128) = false) :
    maintM op inv sc d a disp b s = .next ((((maintained s inv keys (maintWide sc keys)).1.wroteLate d
      (BitVec.ofNat 64 (maintained s inv keys (maintWide sc keys)).2)).modMe fun c =>
        { c with maint := if d = 0 then c.maint else c.skey d :: c.maint, maintCount := 0 }).past 12) := by
  have hne : s.me.s b ≠ 0 := fun h0 => by simp [h0] at hpos
  have hmsgs : (if sc = .pod && (none : Option Access).isNone then s.podLines (maintWide sc keys) else []) = [] := by
    by_cases h : sc = .pod
    · simp [h, podLines_none (h ▸ hpod h)]
    · simp [h]
  have hhere : ((maintWide sc keys).filter fun k => sc != .pod || isProxyKey k || !s.store.sharedOut k (BitVec.allOnes 128)) =
      maintWide sc keys := by
    refine List.filter_eq_self.2 fun k hk => ?_
    by_cases h : sc = .pod
    · rw [(hpod h k hk).2, Bool.not_false, Bool.or_true]
    · simp [h]
  refine instr_ok ?_
  simp only [M.bind_run, M.names_run hr, M.rdS_run ha, M.rdS_run hb, if_neg hne, if_neg (not_lt.2 hlen), M.get_run, M.myActor_run, ← hea, M.pending_run hfree, ← hkeys,
    Bool.false_eq_true, if_false, M.pure_run]
  unfold maintWide at hmsgs hhere
  simp only [hmsgs, podRoutes, M.pure_run, List.isEmpty_nil, Bool.not_true, Bool.false_eq_true, if_false, hhere, Option.isSome_none,
    M.bind_run, M.set_run, M.wrSLate_run, M.modMe_run, maintained, maintWide]

end

/-- Settles O43: fences wait, release and acquire; prefetches change no register and no byte; maintenance of a range. -/
theorem fencesAndMaintenance : Obligations.FencesAndMaintenance :=
  ⟨fun _ _ hack hmaint hside hclean => releaseM_run hack hside hmaint hclean,
    fun _ _ h => ⟨exec_fence_waits rfl h, exec_fence_waits rfl h, exec_fence_waits rfl h⟩,
    fun _ _ _ ht _ h => exec_fence_acq (ht ▸ h),
    fun _ _ _ h _ hu => hu ▸ ⟨exec_fence_rel h, fun _ ha => ⟨exec_fence_both rfl rfl h ha, exec_fence_both rfl rfl h ha⟩⟩,
    fun _ _ _ h => endAcquire_narrow h,
    fun _ _ => exec_pref,
    fun _ _ _ _ => exec_prefRange,
    fun _ _ _ _ _ _ hr ha hb => ⟨fun h => ⟨maintM_empty hr ha hb h, maintM_empty hr ha hb h⟩,
      fun h => ⟨maintM_long hr ha hb h, maintM_long hr ha hb h⟩,
      fun hpos hlen hfree ea act keys wide hea hact hfirst hlast hkeys hwide hpod inv p hp => by
        subst hact hwide hp
        cases inv <;> exact maintM_run hr ha hb hpos hlen hfree hea hfirst hlast hkeys hpod⟩⟩

end Sys2Proof.Machine

/-! ## Ports (R57 to R60, R387, R388) -/

namespace Sys2Proof.Machine

section
variable {s t u : State} {g : Group} {q : QReg} {d a : SReg}

theorem exec_pbind {x r : Nat} (hr : s.resident [(10, d), (17, a)]) (ha : s.ready a) (hx : Gives (readBlock (s.me.s a) 32 8) s x u)
    (hb : u.myGroup.bind u.curCtx q x false = (r, g)) :
    exec (.pbind d q a) s = .next (((if r = 1 then (u.modGroup u.curCore fun _ => g).reachPort u.curCore ((g.ctx u.curCtx).port q)
      else u).wroteS d (BitVec.ofNat 64 r)).past 8) := by
  unfold Gives at hx
  refine instr_ok ?_
  by_cases h1 : r = 1
  · simp only [M.bind_run, M.names_run hr, M.rdS_run ha, hx, M.get_run, hb, if_pos h1, M.modS_run, M.wrS_run]
  · simp only [M.bind_run, M.names_run hr, M.rdS_run ha, hx, M.get_run, hb, if_neg h1, M.pure_run, M.wrS_run]

theorem bind_bound {ctx n : Nat} {fixed : Bool} (h : ((g.ctx ctx).port q).kind ≠ 0) : g.bind ctx q n fixed = (3, g) := if_pos h
theorem bind_malformed {ctx n : Nat} {fixed : Bool} (h : ((g.ctx ctx).port q).kind = 0) (hp : portOf g ctx n = none) :
    g.bind ctx q n fixed = (2, g) := by simp only [Group.bind, h, hp, ne_eq, not_true_eq_false, if_false]
theorem bind_busy {ctx n : Nat} {fixed : Bool} {p : Port} (h : ((g.ctx ctx).port q).kind = 0) (hp : portOf g ctx n = some p)
    (hbusy : g.endBusy p = true) : g.bind ctx q n fixed = (0, g) := by
  simp only [Group.bind, h, hp, hbusy, ne_eq, not_true_eq_false, if_false, if_true]
theorem bind_free {ctx n : Nat} {fixed : Bool} {p : Port} (h : ((g.ctx ctx).port q).kind = 0) (hp : portOf g ctx n = some p)
    (hbusy : g.endBusy p = false) :
    g.bind ctx q n fixed = (1, (g.markEnd p true).modCtx ctx fun c => c.setPort q { p with fixed }) := by
  simp only [Group.bind, h, hp, hbusy, ne_eq, not_true_eq_false, if_false, Bool.false_eq_true]

theorem exec_pfree_unbound (h : (s.me.port q).kind = 0) : exec (.pfree q) s = .next (s.past 8) := by
  refine instr_ok ?_
  simp only [M.bind_run, M.get_run, h, if_true, M.pure_run]
theorem exec_pfree_waits (h : (s.me.port q).kind = 6) (hu : s.myGroup.fifoInUse (s.me.port q).idx = true) :
    exec (.pfree q) s = .next s := by
  refine instr_stay (f := id) ?_
  simp [h, hu]
theorem exec_pfree_unbinds (h : (s.me.port q).kind ≠ 0)
    (hu : (s.me.port q).kind = 6 → s.myGroup.fifoInUse (s.me.port q).idx = false) :
    exec (.pfree q) s = .next ((s.unbindPort s.curCore s.curCtx q).past 8) := by
  have hfree : ((s.me.port q).kind = 6 && s.myGroup.fifoInUse (s.me.port q).idx) = false := by
    by_cases h6 : (s.me.port q).kind = 6
    · rw [hu h6, Bool.and_false]
    · simp [h6]
  refine instr_ok ?_
  simp only [M.bind_run, M.get_run, if_neg h, hfree, Bool.false_eq_true, if_false, M.modS_run]

theorem ctx_modGroup_const (s : State) (core ctx : Nat) (g : Group) : (s.modGroup core fun _ => g).ctx core ctx = g.ctx ctx := by
  rw [State.ctx, State.group_modGroup]
theorem unbindPort_port (s : State) (core ctx : Nat) (q : QReg) : ((s.unbindPort core ctx q).ctx core ctx).port q = {} := by
  have hport (g : Group) : ((g.modCtx ctx fun c => c.setPort q {}).ctx ctx).port q = {} := by
    rw [Group.ctx_modCtx, Ctx.port_setPort_self]
  have hchan (g : Group) (i : Nat) (c : Chan) : (g.setChan i c).ctx ctx = g.ctx ctx := rfl
  have hfifo (g : Group) (i : Nat) (f : Fifo) : (g.setFifo i f).ctx ctx = g.ctx ctx := rfl
  have hpost (u : State) (e : Event) : (u.post e).ctx core ctx = u.ctx core ctx := rfl
  unfold State.unbindPort
  dsimp only
  split
  · split
    · rw [ctx_modGroup_const, hport]
    · split
      · rw [ctx_modGroup_const, hchan, hport]
      · rw [hpost, ctx_modGroup_const, hchan, hport]
  · rw [ctx_modGroup_const, hfifo, hport]
  · rw [ctx_modGroup_const, hport]

theorem exec_pstat (hr : s.resident [(10, d)]) :
    exec (.pstat d q) s = .next ((s.wroteS d (portWord s.myGroup (s.me.port q))).past 8) := by
  refine instr_ok ?_
  simp only [M.bind_run, M.names_run hr, M.get_run, M.wrS_run]

theorem exec_pclose_unbound (h : (s.me.port q).kind = 0) :
    exec (.pclose q) s = .next (s.trapped 0x0E (BitVec.ofNat 64 (16 + q.toNat))) := by
  refine instr_trap (m := false) ?_ rfl
  simp only [M.bind_run, M.me_run, h, if_true, misuse_run, Nat.mul_one]
theorem exec_pmark_unbound {k : Option KReg} (h : (s.me.port q).kind = 0) :
    exec (.pmark q k) s = .next (s.trapped 0x0E (BitVec.ofNat 64 (16 + q.toNat))) := by
  refine instr_trap (m := false) ?_ rfl
  simp only [M.bind_run, M.me_run, M.myGroup_run, h, if_true, misuse_run, Nat.mul_one]
theorem exec_pclose_misused (h : (s.me.port q).kind ≠ 0) (hk : (s.me.port q).kind = 6 ∨ (s.me.port q).write = false) :
    exec (.pclose q) s = .next (s.trapped 0x0E (BitVec.ofNat 64 (80 + q.toNat))) := by
  have hbad : ((s.me.port q).kind = 6 || !(s.me.port q).write) = true := by simpa using hk
  refine instr_trap (m := false) ?_ rfl
  simp only [M.bind_run, M.me_run, if_neg h, hbad, if_true, misuse_run]
theorem exec_pmark_misused {k : Option KReg} (h : (s.me.port q).kind ≠ 0)
    (hk : (s.me.port q).kind = 6 ∨ (s.me.port q).write = false ∨ (s.me.port q).kind = 2) :
    exec (.pmark q k) s = .next (s.trapped 0x0E (BitVec.ofNat 64 (80 + q.toNat))) := by
  have hbad : ((s.me.port q).kind = 6 || !(s.me.port q).write || (s.me.port q).kind = 2) = true := by simpa [or_assoc] using hk
  refine instr_trap (m := false) ?_ rfl
  simp only [M.bind_run, M.me_run, M.myGroup_run, if_neg h, hbad, if_true, misuse_run]
theorem exec_pclose_stream (h : (s.me.port q).kind = 2) (hw : (s.me.port q).write = true) :
    exec (.pclose q) s =
      .next ((s.modMe fun c => c.setPort q { s.me.port q with count := (s.me.port q).pos }).past 8) := by
  refine instr_ok ?_
  simp [h, hw]

section
variable (h0 : (s.me.port q).kind ≠ 0) (h2 : (s.me.port q).kind ≠ 2) (h6 : (s.me.port q).kind ≠ 6) (hw : (s.me.port q).write = true)
include h0 h2 h6 hw

theorem exec_pclose_ends (hp : Gives (pushElem q (s.me.port q) .finish) s () t) : exec (.pclose q) s = .next (t.past 8) := by
  unfold Gives at hp
  refine instr_ok ?_
  simp only [M.bind_run, M.me_run, if_neg h0, h2, h6, hw, decide_false, Bool.not_true, Bool.or_self, Bool.false_eq_true, if_false, hp]
theorem exec_pmark_marks {k : Option KReg} (hk : ∀ j, k = some j → s.myGroup.cmask.getLsbD j.toNat = true)
    (hp : Gives (pushElem q (s.me.port q) (.drain k)) s () t) : exec (.pmark q k) s = .next (t.past 8) := by
  unfold Gives at hp
  refine instr_ok ?_
  cases k with
  | none =>
    simp only [M.bind_run, M.me_run, M.myGroup_run, if_neg h0, h2, h6, hw, decide_false, Bool.not_true, Bool.or_self,
      Bool.false_eq_true, if_false, M.pure_run, hp]
  | some j =>
    simp only [M.bind_run, M.me_run, M.myGroup_run, if_neg h0, h2, h6, hw, decide_false, Bool.not_true, Bool.or_self,
      Bool.false_eq_true, if_false, M.needM_run (hk j rfl), hp]
end

end

/-- Settles O44: ports are bound from descriptors, freed, read, closed and marked. -/
theorem ports : Obligations.Ports :=
  ⟨fun _ _ _ _ _ _ _ _ => exec_pbind,
    fun _ _ _ _ _ => ⟨bind_bound, bind_malformed, fun _ => bind_busy, fun p h hp hbusy => by
      rw [bind_free h hp hbusy]
      exact ⟨rfl, by rw [Group.ctx_modCtx, Ctx.port_setPort_self]⟩⟩,
    fun s q => ⟨exec_pfree_unbound, exec_pfree_waits, exec_pfree_unbinds, unbindPort_port s s.curCore s.curCtx q⟩,
    fun _ _ _ => exec_pstat,
    fun _ _ _ hp => by
      subst hp
      exact ⟨fun h => ⟨exec_pclose_unbound h, fun _ => exec_pmark_unbound h⟩, exec_pclose_misused,
        fun h hk _ => exec_pmark_misused h hk, exec_pclose_stream, fun _ => exec_pclose_ends, fun _ _ h0 h2 h6 hw => exec_pmark_marks h0 h2 h6 hw⟩⟩

end Sys2Proof.Machine

/-! ## Helpers (R34, R38, R39, R44, R363, R398, R399, R406) -/

namespace Sys2Proof.Machine

section
variable {s t u : State} {a b c d : SReg} {target : Word} {args : List Word} {r : Rel}

/-- The four argument registers from c on are ready. -/
def argsReady (s : State) (c : SReg) : Prop := s.ready c ∧ s.ready (c + 1) ∧ s.ready (c + 2) ∧ s.ready (c + 3)
/-- The values of the argument registers from c on. -/
def argsOf (s : State) (c : SReg) : List Word := [s.me.s c, s.me.s (c + 1), s.me.s (c + 2), s.me.s (c + 3)]
theorem rdArgs_ready (h : argsReady s c) : rdArgs c s = .ok (argsOf s c, s) := by
  obtain ⟨h0, h1, h2, h3⟩ := h
  exact rdArgs_run h0 h1 h2 h3

/-- The state after `start` has started what it could and written its result. -/
def startedState (u : State) (d : SReg) (target : Word) (args : List Word) (clock : Clock) : State :=
  ((u.startHelper u.curCore target args clock).1.modMe Ctx.nextRegion).wroteS d
    (BitVec.ofNat 64 (u.startHelper u.curCore target args clock).2)
theorem startM_run (h : Gives (beginRelease .pod) s r u) :
    startM d target args s = .ok ((), startedState u d target args r.clock) := by
  unfold Gives at h
  simp only [startM, M.bind_run, h, M.get_run, M.set_run, M.endRegion_run, M.wrS_run, startedState]
theorem exec_startFe (hr : s.resident ([(10, d)] ++ argRegs 31 c)) (hc : argsReady s c) (h : Gives (beginRelease .pod) s r u) :
    exec (.startFe d c target) s = .next ((startedState u d target (argsOf s c) r.clock).past 16) := by
  refine instr_ok ?_
  simp only [M.bind_run, M.names_run hr, rdArgs_ready hc, startM_run h]
theorem exec_start (hr : s.resident ([(10, d), (24, b)] ++ argRegs 31 c)) (hb : s.ready b) (hc : argsReady s c)
    (h : Gives (beginRelease .pod) s r u) :
    exec (.start d b c) s = .next ((startedState u d (s.me.s b) (argsOf s c) r.clock).past 8) := by
  refine instr_ok ?_
  simp only [M.bind_run, M.names_run hr, M.rdS_run hb, rdArgs_ready hc, startM_run h]

variable {core slot : Nat} {pc : Word} {clock : Clock}
theorem startHelper_none (h : (s.group core).freeSlot = none) : s.startHelper core pc args clock = (s, 0) := by
  simp only [State.startHelper, h]
theorem startHelper_slot (h : (s.group core).freeSlot = some slot) : (s.startHelper core pc args clock).2 = slot := by
  simp only [State.startHelper, h]
theorem startIn_ready (tk : Option TaskRec) : ((s.startIn core slot pc args clock tk).ctx core slot).status = .ready ∧
    ((s.startIn core slot pc args clock tk).ctx core slot).pc = pc &&& ~~~3#64 := by
  simp only [State.startIn, State.ctx_modCtx, freshCtx, and_self]

/-- The state in which a synchronising instruction that neither waits nor acquires has begun two regions. -/
def twoRegions (s : State) : State := (s.modMe Ctx.nextRegion).modMe Ctx.nextRegion
theorem spawnM_accepted {len : Nat} {name : Word} (h : s.me.spawnReply = some .accepted) :
    spawnM len d name target args s = .ok ((), ((twoRegions s).wroteS d 1).past len) := by
  simp only [spawnM, M.bind_run, M.me_run, h, M.endRegion_run, M.wrS_run, M.advance_run, twoRegions]
theorem spawnM_refused {len : Nat} {name : Word} (h : s.me.spawnReply = some .refused)
    (hi : Gives (inlineChild len d target args) (twoRegions s) () t) : spawnM len d name target args s = .ok ((), t) := by
  unfold Gives twoRegions at hi
  simp only [spawnM, M.bind_run, M.me_run, h, M.endRegion_run, hi]
theorem spawnM_dead {len : Nat} {name : Word} (h : s.me.spawnReply = some .deadName) :
    spawnM len d name target args s = .error (.trap 0x0D name false) := by
  simp only [spawnM, M.bind_run, M.me_run, h, M.trapM_run]

section
variable (ha : s.ready a) (hc : argsReady s c)
include ha hc

theorem execSpawnFe_eq (hr : s.resident ([(10, d), (17, a)] ++ argRegs 31 c)) :
    exec (.spawnFe d a c target) s = runInstr 16 (spawnM 16 d (s.me.s a) target (argsOf s c)) s := by
  show execSpawnFe .. = _
  simp only [execSpawnFe, runInstr, State.turn, M.bind_run, M.names_run hr, M.rdS_run ha, rdArgs_ready hc]
theorem execSpawn_eq (hr : s.resident ([(10, d), (17, a), (24, b)] ++ argRegs 31 c)) (hb : s.ready b) :
    exec (.spawn d a b c) s = runInstr 8 (spawnM 8 d (s.me.s a) (s.me.s b) (argsOf s c)) s := by
  show execSpawn .. = _
  simp only [execSpawn, runInstr, State.turn, M.bind_run, M.names_run hr, M.rdS_run ha, M.rdS_run hb, rdArgs_ready hc]
end

theorem endAcquire_none (s : State) : endAcquire .core [] s = .ok ((), s.modMe fun c => c) := endAcquire_narrow rfl
theorem exec_join_none {i : Nat} (hr : s.resident [(10, d), (17, a)]) (ha : s.ready a) (hi : i = (s.me.s a).toNat)
    (h : i = 0 ∨ 10 < i ∨ i = s.curCtx) :
    exec (.join d a) s = .next (((twoRegions s).wroteS d (BitVec.allOnes 64)).past 8) := by
  have hno : (i = 0 || 10 < i || i = s.curCtx) = true := by simpa [or_assoc] using h
  refine instr_ok ?_
  simp only [M.bind_run, M.names_run hr, M.rdS_run ha, M.get_run, ← hi, hno, if_true, M.endRegion_run, endAcquire_none, M.wrS_run,
    twoRegions, State.modMe_modMe]
section
variable {i : Nat} (hr : s.resident [(10, d), (17, a)]) (ha : s.ready a) (hi : i = (s.me.s a).toNat) (h0 : i ≠ 0) (h10 : i ≤ 10)
  (hself : i ≠ s.curCtx)
include hr ha hi h0 h10 hself

theorem exec_join_waits (hbusy : s.myGroup.slotFree i = false) : exec (.join d a) s = .next s := by
  refine instr_stay (f := id) ?_
  simp only [M.bind_run, M.names_run hr, M.rdS_run ha, M.get_run, ← hi, h0, not_lt.2 h10, hself, decide_false, Bool.or_self,
    Bool.false_eq_true, if_false, hbusy, Bool.not_false, if_true, M.spend_run]
theorem exec_join_done (hfree : s.myGroup.slotFree i = true)
    (ht : Gives (endAcquire .core (s.myGroup.ctx i).exitRel.toList) (s.modMe Ctx.nextRegion) () t) :
    exec (.join d a) s = .next (((t.modMe Ctx.nextRegion).wroteS d (s.myGroup.ctx i).exitVal).past 8) := by
  unfold Gives at ht
  refine instr_ok ?_
  simp only [M.bind_run, M.names_run hr, M.rdS_run ha, M.get_run, ← hi, h0, not_lt.2 h10, hself, decide_false, Bool.or_self,
    Bool.false_eq_true, if_false, hfree, Bool.not_true, M.endRegion_run, ht, M.wrS_run]
end

section
variable (h31 : s.ready 31)
include h31

theorem haltM_inline (hin : (s.me.s 31).getLsbD 0 = true) : haltM a s = retM s := by
  simp only [haltM, M.bind_run, M.me_run, M.rdS_run h31, hin, if_true]
theorem haltM_task (hin : (s.me.s 31).getLsbD 0 = false) (htask : s.me.task.isSome = true) : haltM a s = endTask s := by
  simp only [haltM, M.bind_run, M.me_run, M.rdS_run h31, hin, Bool.false_eq_true, if_false, htask, if_true]
theorem haltM_ends (ha : s.ready a) (hin : (s.me.s 31).getLsbD 0 = false) (htask : s.me.task = none) :
    haltM a s = endContext (if s.curCtx = 0 then none else some (s.me.s a)) s := by
  simp only [haltM, M.bind_run, M.me_run, M.rdS_run h31, hin, htask, Option.isSome_none, Bool.false_eq_true, if_false,
    M.rdS_run ha, M.get_run]
end

theorem exec_halt (hr : s.resident [(17, a)]) (h : haltM a s = .ok ((), t)) : exec (.halt a) s = .next t := by
  refine runInstr_ok ?_
  simp only [M.bind_run, M.names_run hr, h]
theorem exec_tdone_task (h : s.me.task.isSome = true) (ht : Gives endTask s () t) : exec .tdone s = .next t := by
  unfold Gives at ht
  refine runInstr_ok ?_
  simp only [M.bind_run, M.me_run, h, if_true, ht]
theorem exec_tdone_halts (h : s.me.task = none) (ht : haltM 0 s = .ok ((), t)) : exec .tdone s = .next t := by
  refine runInstr_ok ?_
  simp only [M.bind_run, M.me_run, h, Option.isSome_none, Bool.false_eq_true, if_false, ht]
end

/-- Settles O45: helpers are started, spawned, joined and ended. -/
theorem helpers : Obligations.Helpers :=
  ⟨fun _ _ _ _ _ _ _ _ hr h0 h1 h2 h3 hargs hrel hp => by
      subst hargs hp
      exact ⟨exec_startFe hr ⟨h0, h1, h2, h3⟩ hrel, fun _ hr' hb ht => ht ▸ exec_start hr' hb ⟨h0, h1, h2, h3⟩ hrel⟩,
    fun _ _ _ _ _ _ tk => ⟨startHelper_none, startHelper_slot, startIn_ready tk⟩,
    fun _ _ _ _ _ target _ hr ha h0 h1 h2 h3 hargs => by
      subst hargs
      have hc : argsReady _ _ := ⟨h0, h1, h2, h3⟩
      have hfe := execSpawnFe_eq (target := target) ha hc hr
      refine ⟨fun h => hfe.trans (runInstr_ok (spawnM_accepted h)), fun h hi => hfe.trans (runInstr_ok (spawnM_refused h hi)),
        fun h => hfe.trans (runInstr_trap (spawnM_dead h) rfl), fun _ hr' hb ht => ?_⟩
      subst ht
      have heq := execSpawn_eq ha hc hr' hb
      exact ⟨fun h => heq.trans (runInstr_ok (spawnM_accepted h)), fun h hi => heq.trans (runInstr_ok (spawnM_refused h hi)),
        fun h => heq.trans (runInstr_trap (spawnM_dead h) rfl)⟩,
    fun _ _ _ _ hr ha hi => ⟨exec_join_none hr ha hi, fun h0 h10 hself =>
      ⟨exec_join_waits hr ha hi h0 h10 hself, fun _ => exec_join_done hr ha hi h0 h10 hself⟩⟩,
    fun _ _ _ hr ha h31 => ⟨fun hin h => exec_halt hr ((haltM_inline h31 hin).trans h),
      fun hin htask h => exec_halt hr ((haltM_task h31 hin htask).trans h),
      fun hin htask h => exec_halt hr ((haltM_ends h31 ha hin htask).trans h)⟩,
    fun s _ => ⟨exec_tdone_task, fun htask h31 h0 hin h => exec_tdone_halts htask
      ((haltM_ends h31 h0 hin htask).trans (by rw [Ctx.s_zero]; exact h))⟩,
    fun _ _ _ => endContext_run⟩

end Sys2Proof.Machine

/-! ## Barriers, follow mode, tasks, checkpoints and wake tokens (R40 to R48, R291, R292, R340) -/

namespace Sys2Proof.Machine

section
variable {s t u v : State} {a b d : SReg} {mask : BitVec 16}

/-! ### Barriers (R46 to R48) -/

section
variable {w : Word} (hr : s.resident [(17, a), (24, b)]) (ha : s.ready a) (hb : s.ready b) (hw : w = s.me.s a)
include hr ha hb hw

theorem exec_bar_outside (h : subgroupOk s.myGroup.rect.toNat w.toNat = false ∨ s.curCore ∉ subgroupCores s.myGroup.rect.toNat w.toNat) :
    exec (.bar a b mask) s = .next (s.trapped 7 w) := by
  have hout : (!subgroupOk s.myGroup.rect.toNat w.toNat || !(subgroupCores s.myGroup.rect.toNat w.toNat).contains s.curCore) = true := by
    simpa using h
  refine instr_trap (m := false) ?_ rfl
  simp only [M.bind_run, M.names_run hr, M.rdS_run ha, M.rdS_run hb, M.get_run, ← hw, hout, if_true, M.trapM_run]

variable (hok : subgroupOk s.myGroup.rect.toNat w.toNat = true) (hin : s.curCore ∈ subgroupCores s.myGroup.rect.toNat w.toNat)
include hok hin

theorem bar_inside : (!subgroupOk s.myGroup.rect.toNat w.toNat || !(subgroupCores s.myGroup.rect.toNat w.toNat).contains s.curCore) = false := by
  simp [hok, hin]
theorem exec_bar_arrives {f : State → State} (hbar : s.me.bar = none)
    (h : ∀ root, arriveM w.toNat (s.me.s b) mask root s = .error (.stay f)) : exec (.bar a b mask) s = .next (f s) := by
  refine instr_stay ?_
  simp only [M.bind_run, M.names_run hr, M.rdS_run ha, M.rdS_run hb, M.get_run, ← hw, bar_inside hr ha hb hw hok hin,
    Bool.false_eq_true, if_false, hbar, h]
theorem exec_bar_waits {e : Nat} (hbar : s.me.bar = some (e, w.toNat)) (he : ((s.launch s.myGroup.launch).bar w.toNat).epoch ≤ e) :
    exec (.bar a b mask) s = .next s := by
  refine instr_stay (f := id) ?_
  simp only [M.bind_run, M.names_run hr, M.rdS_run ha, M.rdS_run hb, M.get_run, ← hw, bar_inside hr ha hb hw hok hin,
    Bool.false_eq_true, if_false, hbar, ne_eq, not_true_eq_false, he, if_true, M.spend_run]
theorem exec_bar_done {e : Nat} (hbar : s.me.bar = some (e, w.toNat)) (he : e < ((s.launch s.myGroup.launch).bar w.toNat).epoch)
    (ht : Gives (endAcquire .panel ((s.launch s.myGroup.launch).bar w.toNat).done)
      ((s.modMe fun c => { c with bar := none }).modMe Ctx.nextRegion) () t) :
    exec (.bar a b mask) s = .next ((t.modMe Ctx.nextRegion).past 16) := by
  unfold Gives at ht
  refine instr_ok ?_
  simp only [M.bind_run, M.names_run hr, M.rdS_run ha, M.rdS_run hb, M.get_run, ← hw, bar_inside hr ha hb hw hok hin,
    Bool.false_eq_true, if_false, hbar, ne_eq, not_true_eq_false, not_le.2 he, M.modMe_run, M.endRegion_run, ht]
end

theorem arriveM_helper {n : Nat} {va : Word} {root : Bool} (h : s.curCtx ≠ 0) : arriveM n va mask root s =
    .error (.stay fun s' => s'.modMe fun c => { c with bar := some (((s.launch s.myGroup.launch).bar n).epoch, n) }) := by
  simp only [arriveM, M.bind_run, M.get_run, if_pos h, M.stayM_run]

/-- The arrival of a control context at a barrier that gathers nothing, after the write-back that its release has made. -/
def arrivedAfter (s : State) (n : Nat) (flush : State → State) (s' : State) : State :=
  let t := (flush s').modMe fun c => { c.nextRegion.nextRegion with bar := some (((s.launch s.myGroup.launch).bar n).epoch, n) }
  t.modBar s.myGroup.launch n fun b => b.arrive t.curCore
    (actorRel ((s.modMe Ctx.nextRegion).actor s.curCore s.curCtx) (s.modMe Ctx.nextRegion).myPanel .panel) t.myGroup none
/-- The arrival with nothing to write back. -/
def arrived (s : State) (n : Nat) : State := arrivedAfter s n id s
theorem flushed_clean (hclean : ∀ p ∈ (s.core s.curCore).l1.list, p.2.dirty = 0) (act : Actor) (hact : act.who.core = s.curCore) :
    s.flushL1 act = s :=
  flushL1_clean act (by rw [hact, List.all_eq_true]; exact fun p hp => by rw [hclean p hp]; rfl)
theorem keepFlush_clean (u : State) (hu : u.curCore = s.curCore) (hclean : ∀ p ∈ (s.core s.curCore).l1.list, p.2.dirty = 0) :
    ∃ f, keepFlush u = .ok (f, u) ∧ f s = s := by
  refine ⟨_, rfl, ?_⟩
  split
  · exact flushed_clean hclean _ hu
  · rfl
theorem arriveM_control {n : Nat} {va : Word} (h : s.curCtx = 0) (hrel : Gives (releaseM .panel) s () s)
    (hclean : ∀ p ∈ (s.core s.curCore).l1.list, p.2.dirty = 0) :
    ∃ f, (∀ root, arriveM n va 0 root s = .error (.stay (arrivedAfter s n f))) ∧ arrivedAfter s n f s = arrived s n := by
  obtain ⟨f, hf, hfs⟩ := keepFlush_clean (s := s) (s.modMe Ctx.nextRegion) rfl hclean
  unfold Gives at hrel
  refine ⟨f, fun root => ?_, by rw [arrived, arrivedAfter, hfs]; rfl⟩
  simp only [arriveM, M.bind_run, M.get_run, h, ne_eq, not_true_eq_false, if_false, decide_false, Bool.and_false, Bool.false_eq_true, M.pure_run,
    beginRelease, hrel, M.endRegion_run, myRel_run, hf, M.stayM_run]
  rfl
theorem arrived_bar (s : State) (n : Nat) : (arrived s n).me.bar = some (((s.launch s.myGroup.launch).bar n).epoch, n) := by
  rw [arrived, arrivedAfter, State.modBar, modLaunch_me, State.me_modMe]
theorem arrived_pc (s : State) (n : Nat) : (arrived s n).me.pc = s.me.pc := by
  rw [arrived, arrivedAfter, State.modBar, modLaunch_me, State.me_modMe]
  rfl
theorem arrive_contains (b : Barrier) (core : Nat) (r : Rel) (g : Group) (x : Option (Nat × Word)) :
    (b.arrive core r g x).arrived.contains core = true := by
  unfold Barrier.arrive
  split
  · assumption
  · simp
theorem bar_modBar (s : State) (l n : Nat) (f : Barrier → Barrier) : ((s.modBar l n f).launch l).bar n = f ((s.launch l).bar n) := by
  rw [State.modBar, launch_modLaunch]
  exact Cells.get_set_self _ _ _ _
theorem arrived_contains (s : State) (n : Nat) :
    (((arrived s n).launch s.myGroup.launch).bar n).arrived.contains s.curCore = true := by
  rw [arrived, arrivedAfter, bar_modBar]
  exact arrive_contains ..

/-! ### Follow mode (R41) -/

theorem exec_follow_active (hr : s.resident [(10, d)]) {f : Follow} (hf : s.me.follow = some f) (h : f.active = true) :
    exec (.follow d) s = .next ((s.wroteS d 1).past 8) := by
  refine instr_ok ?_
  simp only [M.bind_run, M.names_run hr, M.get_run, hf, h, if_true, M.wrS_run]
theorem exec_follow_none (hr : s.resident [(10, d)]) (hf : s.me.follow = none) (h : s.canFollow s.curCore s.curCtx = false) :
    exec (.follow d) s = .next ((s.wroteS d 0).past 8) := by
  refine instr_ok ?_
  simp only [M.bind_run, M.names_run hr, M.get_run, hf, h, Bool.false_eq_true, if_false, M.wrS_run]
theorem exec_follow_begins (hr : s.resident [(10, d)]) (hf : s.me.follow = none) (h : s.canFollow s.curCore s.curCtx = true) :
    exec (.follow d) s = .next (s.modMe fun c => { c with follow := some ⟨leaderOf s.myGroup.rect.toNat s.curCore, false, []⟩ }) := by
  refine instr_stay
    (f := fun s => s.modMe fun c => { c with follow := some ⟨leaderOf s.myGroup.rect.toNat s.curCore, false, []⟩ }) ?_
  simp only [M.bind_run, M.names_run hr, M.get_run, hf, h, if_true, M.stayM_run]

/-! ### Tasks (R42) -/

/-- The task record that a context queues from the 128 bytes of its operand. -/
def taskOf (x : Nat) (act : Actor) : TaskRec :=
  let w (i : Nat) : Word := BitVec.ofNat 64 (field x i 8)
  { pc := w 0, args := [w 8, w 16, w 24, w 32], actor := act, ranges := [(w 40, w 48), (w 56, w 64), (w 72, w 80), (w 88, w 96)] }
section
variable {vs : List (Nat × Nat)} {rel : Rel} (hr : s.resident [(10, d), (17, a)]) (ha : s.ready a)
  (hv : Gives (loadM 128 none [(0, s.me.s a)]) s vs u) (hrel : Gives (beginRelease .pod) u rel v)
include hr ha hv hrel

theorem exec_task_refused (h : taskResult u.myGroup (u.launch u.myGroup.launch) (oneLane vs) ≠ 1) :
    exec (.task d a) s = .next (((v.modMe Ctx.nextRegion).wroteS d
      (BitVec.ofNat 64 (taskResult u.myGroup (u.launch u.myGroup.launch) (oneLane vs)))).past 8) := by
  unfold Gives oneLane at *
  refine instr_ok ?_
  simp only [M.bind_run, M.names_run hr, M.rdS_run ha, hv, M.get_run, hrel, if_neg h, M.pure_run, M.endRegion_run, M.wrS_run]
theorem exec_task_queued (h : taskResult u.myGroup (u.launch u.myGroup.launch) (oneLane vs) = 1) :
    exec (.task d a) s = .next ((((v.modLaunch u.myGroup.launch fun l => { l with tasks := l.tasks ++
      [taskOf (oneLane vs) (v.actor v.curCore v.curCtx)] }).modMe Ctx.nextRegion).wroteS d 1).past 8) := by
  unfold Gives oneLane at *
  refine instr_ok ?_
  simp only [M.bind_run, M.names_run hr, M.rdS_run ha, hv, M.get_run, hrel, h, if_true, M.myActor_run, M.modS_run, M.endRegion_run,
    M.wrS_run, taskOf]
  rfl
end
theorem taskResult_no_helpers (g : Group) (l : Launch) (x : Nat) (h : g.helpers = 0) : taskResult g l x = 4 := if_pos h
theorem taskResult_reserved (g : Group) (l : Launch) (x : Nat) (h : g.helpers ≠ 0) (hx : field x 104 24 ≠ 0) : taskResult g l x = 3 := by
  simp only [taskResult, if_neg h, if_pos hx]

/-! ### Checkpoints (R291, R292) -/

theorem exec_ckpt_refused (hr : s.resident [(10, d), (17, 0)]) (h0 : s.ready 0) (h : s.curCtx ≠ 0 ∨ s.me.task.isSome = true) :
    exec (.ckpt d 0) s = .next ((s.wroteS d 2).past 8) := by
  have hno : (s.curCtx ≠ 0 || s.me.task.isSome) = true := by simpa using h
  refine instr_ok ?_
  simp only [M.bind_run, M.names_run hr, M.rdS_run h0, if_true, M.pure_run, M.get_run, hno, M.wrS_run]
theorem ckptRanges_zero : ckptRanges 0 = [] := by decide
/-- The state in which the current group has a checkpoint with no ranges. -/
def checkpointed (s : State) (d : SReg) : State :=
  (s.modMe fun c => { c with touched := true }).modGroup s.curCore fun g =>
    { g with ckpt := some (s.ckptOf d [] (match g.ckpt with
        | some k => k.bytes
        | none => 98304)) }
theorem checkM_nil (wr plain : Bool) : checkM wr plain [] s = .ok ((), s.modMe fun c => { c with touched := true }) := rfl
theorem exec_ckpt_taken (hr : s.resident [(10, d), (17, 0)]) (h0 : s.ready 0) (hctx : s.curCtx = 0) (htask : s.me.task = none)
    (hnone : s.myGroup.ckpt = none) (hroom : s.ckptUsed (chipOf s.curCore) + 196608 ≤ 2 ^ 26)
    (hchip : s.tables.chipValid (buddyOf (chipOf s.curCore)) = true) (hqueues : ∀ q ∈ s.myGroup.queues.list, q.2.items = [])
    (hside : s.myGroup.sideLog = []) (hmmas : (s.core s.curCore).mmas = []) :
    exec (.ckpt d 0) s = .next (((checkpointed s d).wroteS d 0).past 8) := by
  have hquiet : (s.myGroup.queues.list.any fun q => !q.2.items.isEmpty) = false :=
    List.any_eq_false.2 fun q hq => by rw [hqueues q hq]; decide
  refine instr_ok ?_
  have hmain : (decide ((0 : Nat) ≠ 0) || (none : Option TaskRec).isSome) = false := rfl
  have hsize : decide (s.ckptUsed (chipOf s.curCore) + 2 * (96 * 1024) ≤ 2 ^ 26) = true := decide_eq_true hroom
  simp only [M.bind_run, M.names_run hr, M.rdS_run h0, if_true, M.pure_run, M.get_run, hctx, htask, ckptRanges_zero, List.any_nil,
    List.map_nil, List.sum_nil, Nat.add_zero, hmain, Bool.false_eq_true, if_false, hnone, hsize, hchip, Bool.not_true, Bool.or_self,
    hquiet, hside, hmmas, List.isEmpty_nil, ckptParts, List.flatMap_nil, M.markRoom_nil, checkM_nil, List.find?_nil,
    M.modMyGroup_run, M.wrS_run]
  rfl
theorem me_modGroup_ctxs {t : State} {n : Nat} {f : Group → Group} (hn : n = t.curCore) (hf : ∀ g, (f g).ctxs = g.ctxs) :
    (t.modGroup n f).me = t.me := by
  simp only [State.me, State.ctx, Group.ctx, State.modGroup_curCore, State.modGroup_curCtx, hn, State.group_modGroup, hf]
theorem checkpointed_me (s : State) (d : SReg) : (checkpointed s d).me = { s.me with touched := true } := by
  rw [checkpointed, me_modGroup_ctxs, State.me_modMe]
  · rfl
  · exact fun _ => rfl
theorem wroteS_zero_s (t : State) (d : SReg) : (t.wroteS d 0).me.s d = 0 := by
  by_cases h : d = 0
  · rw [h, Ctx.s_zero]
  · rw [State.wroteS_s, if_pos ⟨rfl, h⟩]
theorem checkpointed_bytes (s : State) (d : SReg) : SameBytes s (((checkpointed s d).wroteS d 0).past 8) := fun _ => by
  rw [byteAt_past, byteAt_wroteS, checkpointed, byteAt_modGroup, byteAt_modMe]
theorem past_ckpt (t : State) (len : Nat) : (t.past len).myGroup.ckpt = t.myGroup.ckpt := by
  rw [State.past, State.myGroup_modMe]; rfl
theorem wroteS_ckpt (t : State) (d : SReg) (v : Word) : (t.wroteS d v).myGroup.ckpt = t.myGroup.ckpt := by
  rw [State.wroteS, State.myGroup_modMe]; rfl
theorem checkpointed_ckpt (s : State) (d : SReg) : (checkpointed s d).myGroup.ckpt.isSome = true := by
  simp only [checkpointed, State.myGroup, State.modGroup_curCore, State.modMe_curCore, State.group_modGroup, Option.isSome_some]

/-! ### Wake tokens (R40) -/

theorem exec_park_waits (h : s.me.token = false) : exec .park s = .next (s.modMe fun c => { c with status := .waiting .park }) := by
  refine instr_stay (f := fun s => s.modMe fun c => { c with status := .waiting .park }) ?_
  simp only [M.bind_run, M.me_run, h, Bool.false_eq_true, if_false, M.waitM_run]
theorem exec_park_takes (h : s.me.token = true) (ht : Gives (endAcquire .pod s.me.tokenRel.toList) (s.modMe Ctx.nextRegion) () t) :
    exec .park s = .next (((t.modMe fun c => { c with token := false, tokenRel := none }).modMe Ctx.nextRegion).past 8) := by
  unfold Gives at ht
  refine instr_ok ?_
  simp only [M.bind_run, M.me_run, h, if_true, M.endRegion_run, ht, M.modMe_run]
theorem exec_wake {r : Rel} (hr : s.resident [(17, a), (24, b)]) (ha : s.ready a) (hb : s.ready b)
    (hroute : Gives (routeM (s.me.s a)) s () s) (hrel : Gives (beginRelease .pod) s r u) :
    exec (.wake a b) s = .next (((u.sendTo (namePanel (s.me.s a)) (.wakeArrival
      ⟨⟨u.curCore, u.curCtx, u.myGroup.launch⟩, s.me.s a, ((s.me.s b).extractLsb' 0 4).toNat, u.myGroup.tenant, r, u.myGroup.tgen⟩)).modMe
        Ctx.nextRegion).past 8) := by
  unfold Gives at hroute hrel
  refine instr_ok ?_
  simp only [M.bind_run, M.names_run hr, M.rdS_run ha, M.rdS_run hb, hroute, hrel, M.myGroup_run, M.modS_run, M.endRegion_run]
end

/-- Settles O46: barriers, follow mode, task records, checkpoints and wake tokens. -/
theorem barriersTasksWakes : Obligations.BarriersTasksWakes :=
  ⟨fun s _ _ _ w hr ha hb hw => ⟨exec_bar_outside hr ha hb hw, fun hok hin =>
      ⟨fun hbar hctx => exec_bar_arrives hr ha hb hw hok hin hbar fun _ => arriveM_helper hctx,
        fun hbar hctx hmask hrel hclean => by
          subst hmask
          obtain ⟨f, hf, hfs⟩ := arriveM_control hctx hrel hclean
          exact ⟨arrived s w.toNat, hfs ▸ exec_bar_arrives hr ha hb hw hok hin hbar hf, arrived_bar s _,
            arrived_contains s _, arrived_pc s _⟩,
        fun _ hbar => ⟨exec_bar_waits hr ha hb hw hok hin hbar, fun _ => exec_bar_done hr ha hb hw hok hin hbar⟩⟩⟩,
    fun _ _ hr => ⟨fun _ => exec_follow_active hr, exec_follow_none hr, exec_follow_begins hr⟩,
    fun _ => instr_ok (M.modMe_run _ _),
    fun _ _ _ _ _ _ _ hr ha hv hx hres _ _ _ hrel hw => by
      subst hx hres hw
      exact ⟨exec_task_refused hr ha hv hrel, exec_task_queued hr ha hv hrel⟩,
    fun g l x => ⟨taskResult_no_helpers g l x, taskResult_reserved g l x⟩,
    fun s d hr => ⟨fun h h0 => exec_ckpt_refused hr h0 h, fun hctx htask h0 hnone hroom hchip hqueues hside hmmas =>
      ⟨_, exec_ckpt_taken hr h0 hctx htask hnone hroom hchip hqueues hside hmmas, by
        rw [past_ckpt, wroteS_ckpt, checkpointed_ckpt], by
        rw [past_s, wroteS_zero_s], by
        rw [past_pc, wroteS_pc, checkpointed_me]
        rfl, checkpointed_bytes s d⟩⟩,
    fun _ => ⟨exec_park_waits, fun _ => exec_park_takes⟩,
    fun _ _ _ _ _ => exec_wake⟩

end Sys2Proof.Machine

/-! ## Holds and deposits (R61, R62, R353, R364) -/

namespace Sys2Proof.Machine

section
variable {s u : State} {d : VReg} {regs : BitVec 32}

theorem bit_one_shl (d r : VReg) : (1#32 <<< d.toNat).getLsbD r.toNat = (r == d) := by revert d r; decide
theorem holdM_sets (h : ∀ r : VReg, regs.getLsbD r.toNat = true → LateReg.v r ∉ s.me.late) :
    holdM regs s = .ok ((), s.modMe fun c => { c with holds := c.holds ||| regs }) := by
  have hnone : ((List.range 32).any fun i => regs.getLsbD i && s.me.late.contains (.v (BitVec.ofNat 5 i))) = false := by
    refine List.any_eq_false.2 fun i hi hlate => ?_
    obtain ⟨hbit, hlate⟩ := Bool.and_eq_true_iff.1 hlate
    have hnum : (BitVec.ofNat 5 i).toNat = i := Nat.mod_eq_of_lt (List.mem_range.1 hi)
    exact h (BitVec.ofNat 5 i) (by rw [hnum]; exact hbit) (List.contains_iff_mem.1 hlate)
  simp only [holdM, M.bind_run, M.me_run, hnone, Bool.false_eq_true, if_false, M.modMe_run]
theorem holdM_waits (hd : regs.getLsbD d.toNat = true) (h : LateReg.v d ∈ s.me.late) : holdM regs s = .error (.stay id) := by
  have hsome : ((List.range 32).any fun i => regs.getLsbD i && s.me.late.contains (.v (BitVec.ofNat 5 i))) = true :=
    List.any_eq_true.2 ⟨d.toNat, List.mem_range.2 d.isLt, Bool.and_eq_true_iff.2 ⟨hd, by
      rw [BitVec.ofNat_toNat, BitVec.setWidth_eq]; exact List.contains_iff_mem.2 h⟩⟩
  simp only [holdM, M.bind_run, M.me_run, hsome, if_true, M.spend_run]
theorem held_and (c : Ctx) (m : BitVec 32) (r : VReg) :
    ({ c with holds := c.holds &&& ~~~m } : Ctx).held r = (c.held r && !m.getLsbD r.toNat) := by
  have hr : r.toNat < 32 := r.isLt
  simp only [Ctx.held, BitVec.getLsbD_and, BitVec.getLsbD_not, hr, decide_true, Bool.true_and]

/-- The deposit that a context sends in its release. -/
def depositOf (u : State) (hi : Bool) (name target : Word) (r : Rel) (v : Line) (k : Option KReg) : Deposit :=
  { src := ⟨u.curCore, u.curCtx, u.myGroup.launch⟩, name, ctx := (target.extractLsb' 0 4).toNat, reg := target.extractLsb' 8 5,
    val := v, high := hi, kc := k, tenant := u.myGroup.tenant, tgen := u.myGroup.tgen, rel := r }
/-- The state in which a deposit has been sent. -/
def deposited (u : State) (hi : Bool) (name target : Word) (r : Rel) (v : Line) (k : Option KReg) : State :=
  (u.sendTo (namePanel name) (.depositArrival (depositOf u hi name target r v k))).modMe Ctx.nextRegion
theorem counterM_run {k : KReg} (h : s.myGroup.cmask.getLsbD k.toNat = true) : counterM k s = .ok ((), s) := M.needM_run h
theorem counterM_trap {k : KReg} (h : s.myGroup.cmask.getLsbD k.toNat = false) :
    counterM k s = .error (.trap 7 (BitVec.ofNat 64 k.toNat) false) := M.needM_trap h
theorem depositM_run {hi : Bool} {name target : Word} {r : Rel} {v : Line} {k : Option KReg}
    (hk : ∀ j, k = some j → s.myGroup.cmask.getLsbD j.toNat = true) (hlive : Gives (liveNameM name) s () s)
    (hroute : Gives (routeM name) s () s) (hrel : Gives (beginRelease .pod) s r u) :
    depositM hi name target v k s = .ok ((), deposited u hi name target r v k) := by
  unfold Gives at *
  cases k with
  | none => simp only [depositM, M.bind_run, M.pure_run, hlive, hroute, hrel, M.myGroup_run, M.modS_run, M.endRegion_run, deposited,
      depositOf]
  | some j => simp only [depositM, M.bind_run, counterM_run (hk j rfl), hlive, hroute, hrel, M.myGroup_run, M.modS_run,
      M.endRegion_run, deposited, depositOf]
theorem liveNameM_dead {name : Word} (hp : namePanel name = s.myPanel) (hn : s.nameOwner name s.myGroup.tenant = none) :
    liveNameM name s = .error (.trap 0x0D name false) := by
  simp [liveNameM, hp, hn]

variable {a b : SReg} {hi : Bool} {r : Rel}
section
variable (ha : s.ready a) (hb : s.ready b) (hlive : Gives (liveNameM (s.me.s a)) s () s) (hroute : Gives (routeM (s.me.s a)) s () s)
  (hrel : Gives (beginRelease .pod) s r u)
include ha hb hlive hroute hrel

theorem exec_depv {c : VReg} (hr : s.resident [(17, a), (24, b)]) (hc : s.vready c) :
    exec (.depv hi a b c) s = .next ((deposited u hi (s.me.s a) (s.me.s b) r (s.me.vreg c) none).past 8) := by
  refine instr_ok ?_
  simp only [M.bind_run, M.names_run hr, M.rdS_run ha, M.rdS_run hb, M.rdV_run hc,
    depositM_run (k := none) nofun hlive hroute hrel]
theorem exec_depvK {c : VReg} {k : Option KReg} (hr : s.resident [(17, a), (24, b)]) (hc : s.vready c)
    (hk : ∀ j, k = some j → s.myGroup.cmask.getLsbD j.toNat = true) :
    exec (.depvK hi a b c k) s = .next ((deposited u hi (s.me.s a) (s.me.s b) r (s.me.vreg c) k).past 16) := by
  refine instr_ok ?_
  simp only [M.bind_run, M.names_run hr, M.rdS_run ha, M.rdS_run hb, M.rdV_run hc, depositM_run hk hlive hroute hrel]
theorem exec_deps {c : SReg} (hr : s.resident [(17, a), (24, b), (31, c)]) (hc : s.ready c) :
    exec (.deps hi a b c) s = .next ((deposited u hi (s.me.s a) (s.me.s b) r ((s.me.s c).setWidth 1024) none).past 8) := by
  refine instr_ok ?_
  simp only [M.bind_run, M.names_run hr, M.rdS_run ha, M.rdS_run hb, M.rdS_run hc,
    depositM_run (k := none) nofun hlive hroute hrel]
theorem exec_depsK {c : SReg} {k : Option KReg} (hr : s.resident [(17, a), (24, b), (31, c)]) (hc : s.ready c)
    (hk : ∀ j, k = some j → s.myGroup.cmask.getLsbD j.toNat = true) :
    exec (.depsK hi a b c k) s = .next ((deposited u hi (s.me.s a) (s.me.s b) r ((s.me.s c).setWidth 1024) k).past 16) := by
  refine instr_ok ?_
  simp only [M.bind_run, M.names_run hr, M.rdS_run ha, M.rdS_run hb, M.rdS_run hc, depositM_run hk hlive hroute hrel]
end
theorem exec_depv_dead {c : VReg} (hr : s.resident [(17, a), (24, b)]) (ha : s.ready a) (hb : s.ready b) (hc : s.vready c)
    (hp : namePanel (s.me.s a) = s.myPanel) (hn : s.nameOwner (s.me.s a) s.myGroup.tenant = none) :
    exec (.depv hi a b c) s = .next (s.trapped 0x0D (s.me.s a)) := by
  refine instr_trap (m := false) ?_ rfl
  simp only [M.bind_run, M.names_run hr, M.rdS_run ha, M.rdS_run hb, M.rdV_run hc, depositM, M.pure_run, liveNameM_dead hp hn]
end

/-- Settles O47: hold bits are set once no result of their register is late, and cleared; deposits are sent with a release. -/
theorem holdsAndDeposits : Obligations.HoldsAndDeposits :=
  ⟨fun _ d h => instr_ok (holdM_sets fun r hr => by rw [bit_one_shl, beq_iff_eq] at hr; exact hr ▸ h),
    fun _ d h => instr_stay (holdM_waits (by rw [bit_one_shl, beq_self_eq_true]) h),
    fun _ _ h => instr_ok (holdM_sets h),
    fun _ _ => instr_ok (M.modMe_run _ _),
    fun c d r => ⟨by rw [held_or, bit_one_shl], by rw [held_and, bit_one_shl]; rfl⟩,
    fun _ _ _ _ _ _ _ ha hb hlive hroute hrel hm => by
      subst hm
      exact ⟨fun _ hr hc => ⟨exec_depv ha hb hlive hroute hrel hr hc, fun _ hk => exec_depvK ha hb hlive hroute hrel hr hc hk⟩,
        fun _ hr hc => ⟨exec_deps ha hb hlive hroute hrel hr hc, fun _ hk => exec_depsK ha hb hlive hroute hrel hr hc hk⟩⟩,
    fun _ _ _ _ _ => exec_depv_dead⟩

end Sys2Proof.Machine

/-! ## Counters and crier entries (R212 to R217, R351, R390, R409) -/

namespace Sys2Proof.Machine

section
variable {s t u : State} {k : KReg} {a b c d : SReg} {imm : BitVec 32} {v : Word}

/-! ### The counter operations -/

section
variable (hk : s.myGroup.cmask.getLsbD k.toNat = true)
include hk

theorem ctraddM_run (h : s.myGroup.firings.length < 64) :
    ctraddM k v s = .ok ((), s.modGroup s.curCore fun g => g.increment k v s.me.fenceRel) := by
  simp only [ctraddM, M.bind_run, counterM_run hk, M.myGroup_run, if_neg (not_le.2 h), M.fenceRel_run, M.modMyGroup_run]
theorem ctraddM_waits (h : 64 ≤ s.myGroup.firings.length) : ctraddM k v s = .error (.stay id) := by
  simp only [ctraddM, M.bind_run, counterM_run hk, M.myGroup_run, if_pos h, M.spend_run]
theorem ctrsetM_run : ctrsetM k v s = .ok ((), s.modGroup s.curCore fun g => g.setCounter k v) := by
  simp only [ctrsetM, M.bind_run, counterM_run hk, M.modMyGroup_run]
theorem ctrwaitM_passes {rels : List Rel} (ht : Gives (endAcquire .pod rels) (s.modMe Ctx.nextRegion) () t)
    (hmet : s.me.met = some rels ∨
      (s.me.met = none ∧ rels = (s.myGroup.counter k).rels ∧ v.toNat ≤ (s.myGroup.kval k).toNat)) :
    ctrwaitM k v s = .ok ((), (t.modMe Ctx.nextRegion).modMe fun c => { c with met := none }) := by
  unfold Gives at ht
  obtain hmet | ⟨hmet, hrels, hv⟩ := hmet
  · simp only [ctrwaitM, M.bind_run, counterM_run hk, M.myGroup_run, M.me_run, hmet, M.endRegion_run, ht, M.modMe_run]
  · unfold Group.kval at hv
    subst hrels
    simp only [ctrwaitM, M.bind_run, counterM_run hk, M.myGroup_run, M.me_run, hmet, if_pos hv, M.endRegion_run, ht, M.modMe_run]
theorem ctrwaitM_waits (hmet : s.me.met = none) (hv : (s.myGroup.kval k).toNat < v.toNat) :
    ctrwaitM k v s = .error (.stay fun s => s.modMe fun c => { c with status := .waiting (.counter k v) }) := by
  unfold Group.kval at hv
  simp only [ctrwaitM, M.bind_run, counterM_run hk, M.myGroup_run, M.me_run, hmet, if_neg (not_le.2 hv), M.waitM_run]
end

section
variable (hk : s.myGroup.cmask.getLsbD k.toNat = false)
include hk

theorem ctraddM_trap : ctraddM k v s = .error (.trap 7 (BitVec.ofNat 64 k.toNat) false) := by
  simp only [ctraddM, M.bind_run, counterM_trap hk]
theorem ctrsetM_trap : ctrsetM k v s = .error (.trap 7 (BitVec.ofNat 64 k.toNat) false) := by
  simp only [ctrsetM, M.bind_run, counterM_trap hk]
theorem ctrwaitM_trap : ctrwaitM k v s = .error (.trap 7 (BitVec.ofNat 64 k.toNat) false) := by
  simp only [ctrwaitM, M.bind_run, counterM_trap hk]
end

/-- What follows the naming and the reading of one register reads its value. -/
theorem names_rdS_then {α : Type} {op : Nat} {m : Word → M α} (hr : s.resident [(17, a)]) (ha : s.ready a) :
    (do names op [(17, a)]; m (← rdS a)) s = m (s.me.s a) s := by
  simp only [M.bind_run, M.names_run hr, M.rdS_run ha]

/-! ### Reading counters and masks -/

section
variable (hr : s.resident [(10, d)])
include hr

theorem exec_ctrget_value (hk : s.myGroup.cmask.getLsbD k.toNat = true) :
    exec (.ctrget 0 k d) s = .next ((s.wroteS d (s.myGroup.kval k)).past 8) := by
  refine instr_ok ?_
  simp only [M.bind_run, M.names_run hr, M.myGroup_run, if_true, counterM_run hk, M.wrS_run]
theorem exec_ctrget_mask {sel : BitVec 2} (hsel : sel ≠ 0) :
    exec (.ctrget sel k d) s = .next ((s.wroteS d
      (if sel = 1 then s.myGroup.cmask else if sel = 2 then s.myGroup.emask else s.myGroup.armedMask)).past 8) := by
  refine instr_ok ?_
  simp only [M.bind_run, M.names_run hr, M.myGroup_run, if_neg hsel, M.pure_run, M.wrS_run]
end
theorem setCounter_kval (g : Group) (k j : KReg) (v : Word) : (g.setCounter k v).kval j = if j = k then v else g.kval j := by
  have hcounters : (g.setCounter k v).counters = Cells.set {} g.counters k.toNat ⟨v, []⟩ := rfl
  rw [Group.kval, Group.counter, hcounters, Cells.get_set]
  by_cases hj : j = k
  · rw [if_pos (congrArg _ hj), if_pos hj]
  · rw [if_neg fun h => hj (BitVec.eq_of_toNat_eq h), if_neg hj]; rfl

/-! ### Crier entries -/

theorem exec_post {rearm any : Bool} {n : BitVec 6} {x i : Nat} {p : State × Actor}
    (hr : s.resident [(10, d), (17, a), (24, b), (31, c)]) (ha : s.ready a) (hb : s.ready b) (hc : s.ready c)
    (hk : s.myGroup.cmask.getLsbD k.toNat = true) (hn : any = false → s.myGroup.emask.getLsbD n.toNat = true)
    (hx : Gives (readBlock (s.me.s a) 64 64) s x u) (hrec : recordOk x = true) (hctrs : recordCtrs s.myGroup.cmask x = true)
    (hany : any = true → u.myGroup.freeEntry = some i)
    (hone : any = false → (u.myGroup.entry n.toNat).armed = false ∧ i = n.toNat)
    (hp : p = u.engineActor u.curCore u.curCtx .fired) :
    exec (.post rearm any n d a b c k) s = .next (((p.1.modGroup p.1.curCore fun g => g.arm i
      { armed := true, ctr := k, thr := s.me.s b, stride := s.me.s c, rearm, record := leBytes 64 x, ctx := u.curCtx,
        actor := some p.2 }).wroteS d (BitVec.ofNat 64 i)).past 16) := by
  unfold Gives at hx
  have hok : (recordOk x && recordCtrs s.myGroup.cmask x) = true := by rw [hrec, hctrs]; rfl
  subst hp
  refine instr_ok ?_
  cases any with
  | true =>
    simp only [M.bind_run, M.names_run hr, M.rdS_run ha, M.rdS_run hb, M.rdS_run hc, counterM_run hk, M.myGroup_run, if_true,
      M.pure_run, hx, M.needM_run hok, hany rfl, M.get_run, M.set_run, M.modMyGroup_run, M.wrS_run]
  | false =>
    obtain ⟨hfree, rfl⟩ := hone rfl
    simp only [M.bind_run, M.names_run hr, M.rdS_run ha, M.rdS_run hb, M.rdS_run hc, counterM_run hk, M.myGroup_run,
      Bool.false_eq_true, if_false, M.needM_run (hn rfl), hx, M.needM_run hok, hfree, M.get_run, M.set_run, M.modMyGroup_run,
      M.wrS_run]

section
variable {n : BitVec 6} (hr : s.resident [(10, d)])
include hr

theorem exec_unpost_absent (hn : s.myGroup.emask.getLsbD n.toNat = false) :
    exec (.unpost d n) s = .next (s.trapped 7 (BitVec.ofNat 64 n.toNat)) := by
  refine instr_trap (m := false) ?_ rfl
  simp only [M.bind_run, M.names_run hr, M.myGroup_run, M.needM_trap hn]
theorem exec_unpost_armed (hn : s.myGroup.emask.getLsbD n.toNat = true) (h : (s.myGroup.entry n.toNat).armed = true) :
    exec (.unpost d n) s = .next (((s.modGroup s.curCore fun g => g.setEntry n.toNat {}).wroteS d 1).past 8) := by
  refine instr_ok ?_
  simp only [M.bind_run, M.names_run hr, M.myGroup_run, M.needM_run hn, h, if_true, M.modMyGroup_run, M.wrS_run]
theorem exec_unpost_free (hn : s.myGroup.emask.getLsbD n.toNat = true) (h : (s.myGroup.entry n.toNat).armed = false) :
    exec (.unpost d n) s = .next ((s.wroteS d 0).past 8) := by
  refine instr_ok ?_
  simp only [M.bind_run, M.names_run hr, M.myGroup_run, M.needM_run hn, h, Bool.false_eq_true, if_false, M.wrS_run]
end
end

/-- Settles O48: counters are added to, set, read and waited for; entries of the crier are armed and disarmed. -/
theorem countersAndCriers : Obligations.CountersAndCriers :=
  ⟨fun _ _ _ _ hr ha hk =>
      ⟨fun h => ⟨instr_ok ((names_rdS_then hr ha).trans (ctraddM_run hk h)), instr_ok (ctraddM_run hk h)⟩,
        fun h => ⟨instr_stay ((names_rdS_then hr ha).trans (ctraddM_waits hk h)), instr_stay (ctraddM_waits hk h)⟩,
        instr_ok ((names_rdS_then hr ha).trans (ctrsetM_run hk)), instr_ok (ctrsetM_run hk),
        fun _ _ ht => ⟨fun h => instr_ok ((names_rdS_then hr ha).trans (ctrwaitM_passes hk ht h)),
          fun h => instr_ok (ctrwaitM_passes hk ht (by rwa [BitVec.toNat_setWidth_of_le (by decide)]))⟩,
        fun v hv hmet hlt => by
          subst hv
          exact instr_stay ((names_rdS_then hr ha).trans (ctrwaitM_waits hk hmet hlt))⟩,
    fun _ _ _ _ hr ha hk =>
      ⟨instr_trap ((names_rdS_then hr ha).trans (ctraddM_trap hk)) rfl, instr_trap (ctraddM_trap hk) rfl,
        instr_trap ((names_rdS_then hr ha).trans (ctrsetM_trap hk)) rfl, instr_trap (ctrsetM_trap hk) rfl,
        instr_trap ((names_rdS_then hr ha).trans (ctrwaitM_trap hk)) rfl, instr_trap (ctrwaitM_trap hk) rfl⟩,
    fun _ _ _ _ hr => ⟨fun hsel hk => hsel ▸ exec_ctrget_value hr hk, fun hsel => hsel ▸ exec_ctrget_mask hr (by decide),
      fun hsel => hsel ▸ exec_ctrget_mask hr (by decide), fun hsel => hsel ▸ exec_ctrget_mask hr (by decide)⟩,
    fun g k j d v r => ⟨increment_kval g k j d r, setCounter_kval g k j v⟩,
    fun _ _ _ _ _ _ _ _ _ _ _ _ _ => exec_post,
    fun _ _ _ hr => ⟨exec_unpost_absent hr, exec_unpost_armed hr, exec_unpost_free hr⟩⟩

end Sys2Proof.Machine

/-! ## Porter commands (R193, R196, R198, R199) -/

namespace Sys2Proof.Machine

section
variable {s u : State} {f : CpyF} {stage : BitVec 3} {fmt swz : BitVec 4} {a b c e : SReg} {imm : Word}

/-- A form without an operand port names no FIFO. -/
theorem noPort_fifo (u : State) :
    ((none : Option QReg).bind fun p => if (u.me.port p).kind = 6 then some (u.me.port p).idx else none) = none := rfl
theorem port_fifo {q : QReg} (h : (u.me.port q).kind = 6) :
    ((some q).bind fun p => if (u.me.port p).kind = 6 then some (u.me.port p).idx else none) = some (u.me.port q).idx := if_pos h
theorem port_no_fifo {q : QReg} (h : (u.me.port q).kind ≠ 6) :
    ((some q).bind fun p => if (u.me.port p).kind = 6 then some (u.me.port p).idx else none) = none := if_neg h

theorem cpy_enqueues (hr : s.resident [(10, f.d), (17, a), (24, b), (31, c)]) (ha : s.ready a) (hb : s.ready b) (hc : s.ready c) :
    Enqueues s s (.cpy f stage fmt swz a b c imm) f none fun act =>
      { op := 0xC0, fn := fnOf f stage fmt, kc := f.kc, swz := swz.toNat, a := s.me.s a, b := s.me.s b, c := s.me.s c, e := 0, imm,
        actor := act } := by
  refine cpyM_enq rfl ?_ (noPort_fifo s) rfl
  simp only [M.bind_run, M.names_run hr, M.rdS_run ha, M.rdS_run hb, M.rdS_run hc]

section
variable (hr : s.resident [(10, f.d), (17, a), (24, b), (31, c), (38, e)]) (ha : s.ready a) (hb : s.ready b) (hc : s.ready c)
  (he : s.ready e)
include hr ha hb hc he

theorem cpy2d_enqueues : Enqueues s s (.cpy2d f stage swz a b c e imm) f none fun act =>
    { op := 0xC1, fn := fnOf f stage 0, kc := f.kc, swz := swz.toNat, a := s.me.s a, b := s.me.s b, c := s.me.s c, e := s.me.s e, imm,
      actor := act } := by
  refine cpyM_enq rfl ?_ (noPort_fifo s) rfl
  simp only [M.bind_run, M.names_run hr, M.rdS_run ha, M.rdS_run hb, M.rdS_run hc, M.rdS_run he]
theorem cpyMc_enqueues : Enqueues s s (.cpyMc f stage swz a b c e imm) f none fun act =>
    { op := 0xC3, fn := fnOf f stage 0, kc := f.kc, swz := swz.toNat, a := s.me.s a, b := s.me.s b, c := s.me.s c, e := s.me.s e, imm,
      actor := act } := by
  refine cpyM_enq rfl ?_ (noPort_fifo s) rfl
  simp only [M.bind_run, M.names_run hr, M.rdS_run ha, M.rdS_run hb, M.rdS_run hc, M.rdS_run he]
theorem cpy3d_enqueues {sh : Nat} (hsh : Gives (readBlock (s.me.s e) 32 8) s sh u) :
    Enqueues s u (.cpy3d f stage swz a b c e) f none fun act =>
      { op := 0xC2, fn := fnOf f stage 0, kc := f.kc, swz := swz.toNat, a := s.me.s a, b := s.me.s b, c := s.me.s c, e := s.me.s e,
        imm := 0, shape := sh, actor := act } := by
  unfold Gives at hsh
  refine cpyM_enq rfl ?_ (noPort_fifo u) rfl
  simp only [M.bind_run, M.names_run hr, M.rdS_run ha, M.rdS_run hb, M.rdS_run hc, M.rdS_run he, hsh]
theorem cpyxG_enqueues : Enqueues s s (.cpyxG f a b c e imm) f none fun act =>
    { op := 0xC8, fn := fnOf f 0 0, kc := f.kc, swz := 0, a := s.me.s a, b := s.me.s b, c := s.me.s c, e := s.me.s e, imm,
      actor := act } := by
  refine cpyM_enq rfl ?_ (noPort_fifo s) rfl
  simp only [M.bind_run, M.names_run hr, M.rdS_run ha, M.rdS_run hb, M.rdS_run hc, M.rdS_run he]
theorem cpyxS_enqueues : Enqueues s s (.cpyxS f a b c e imm) f none fun act =>
    { op := 0xC9, fn := fnOf f 0 0, kc := f.kc, swz := 0, a := s.me.s a, b := s.me.s b, c := s.me.s c, e := s.me.s e, imm,
      actor := act } := by
  refine cpyM_enq rfl ?_ (noPort_fifo s) rfl
  simp only [M.bind_run, M.names_run hr, M.rdS_run ha, M.rdS_run hb, M.rdS_run hc, M.rdS_run he]
end

/-! ### Operand ports -/

section
variable {fm : Fmt} {q : QReg} (hr : s.resident [(10, f.d), (24, b), (31, c), (38, e)]) (hb : s.ready b) (hc : s.ready c)
  (he : s.ready e)
include hr hb hc he

theorem cpyQ_enqueues (hq : (s.me.port q).kind = 6) : Enqueues s s (.cpyQ f fm q b c e) f (some (s.me.port q).idx) fun act =>
    { op := 0xC4, fn := fnOf f 0 fm.code, kc := f.kc, swz := 0, a := 0, b := s.me.s b, c := s.me.s c, e := s.me.s e, imm := 0,
      actor := act } := by
  refine cpyM_enq rfl ?_ (port_fifo hq) rfl
  simp only [M.bind_run, M.names_run hr, M.rdS_run hb, M.rdS_run hc, M.rdS_run he]
theorem cpyQ2d_enqueues (hq : (s.me.port q).kind = 6) :
    Enqueues s s (.cpyQ2d f fm q b c e imm) f (some (s.me.port q).idx) fun act =>
      { op := 0xC5, fn := fnOf f 0 fm.code, kc := f.kc, swz := 0, a := 0, b := s.me.s b, c := s.me.s c, e := s.me.s e, imm,
        actor := act } := by
  refine cpyM_enq rfl ?_ (port_fifo hq) rfl
  simp only [M.bind_run, M.names_run hr, M.rdS_run hb, M.rdS_run hc, M.rdS_run he]
theorem exec_cpyQ2d_misuse (hq : (s.me.port q).kind ≠ 6) {p : State × Actor} {cmd : Cmd}
    (hp : p = s.engineActor s.curCore s.curCtx (.porter f.queue.toNat))
    (hcmd : cmd = { op := 0xC5, fn := fnOf f 0 fm.code, kc := f.kc, swz := 0, a := 0, b := s.me.s b, c := s.me.s c, e := s.me.s e,
                    imm, actor := p.2, fifo := some 0 })
    (hcheck : s.cmdCheck cmd = .ok ()) :
    exec (.cpyQ2d f fm q b c e imm) s = .next (s.trapped 0x0E (BitVec.ofNat 64 (16 * 7 + q.toNat))) := by
  have hrun := cpyM_run (f := f) (port := some q)
    (c := fun act => { op := 0xC5, fn := fnOf f 0 fm.code, kc := f.kc, swz := 0, a := 0, b := s.me.s b, c := s.me.s c, e := s.me.s e,
                       imm, actor := act }) (port_no_fifo hq) hp (hcmd.trans rfl)
  refine instr_trap (m := false) ?_ rfl
  simp only [M.bind_run, M.names_run hr, M.rdS_run hb, M.rdS_run hc, M.rdS_run he, hrun, hcheck, cpyPort, Option.isNone_none,
    if_true, misuse_run]
end

section
variable {mid : Bool} {pl : BitVec 4} (hb : s.ready b) (hc : s.ready c)
include hb hc

theorem cpyPl_enqueues (hr : s.resident [(17, a), (10, f.d), (24, b), (31, c)]) (ha : s.ready a) :
    Enqueues s s (.cpyPl f mid pl (.s a) b c imm) f none fun act =>
      { op := 0xC6, fn := fnOf f (if mid then 1 else 0) pl, kc := f.kc, swz := 0, a := s.me.s a, b := s.me.s b, c := s.me.s c, e := 0,
        imm, actor := act } := by
  have hr' : s.resident (sqRegs [(17, SQ.s a)] ++ [(10, f.d), (24, b), (31, c)]) := hr
  refine cpyM_enq rfl ?_ (noPort_fifo s) rfl
  simp only [M.bind_run, M.names_run hr', M.rdS_run ha, M.rdS_run hb, M.rdS_run hc]
theorem cpyPl_port_enqueues {q : QReg} (hr : s.resident [(10, f.d), (24, b), (31, c)]) (hq : (s.me.port q).kind = 6) :
    Enqueues s s (.cpyPl f mid pl (.q q) b c imm) f (some (s.me.port q).idx) fun act =>
      { op := 0xC6, fn := fnOf f (if mid then 1 else 0) pl, kc := f.kc, swz := 0, a := 0, b := s.me.s b, c := s.me.s c, e := 0, imm,
        actor := act } := by
  have hr' : s.resident (sqRegs [(17, SQ.q q)] ++ [(10, f.d), (24, b), (31, c)]) := hr
  refine cpyM_enq rfl ?_ (port_fifo hq) rfl
  simp only [M.bind_run, M.names_run hr', M.pure_run, M.rdS_run hb, M.rdS_run hc]
end

/-! ### Fills -/

section
variable (hr : s.resident [(10, f.d), (17, a), (31, c)]) (ha : s.ready a) (hc : s.ready c)
include hr ha hc

theorem cpyFill_enqueues : Enqueues s s (.cpyFill f a c imm) f none fun act =>
    { op := 0xC7, fn := fnOf f 0 0, kc := f.kc, swz := 0, a := s.me.s a, b := 0, c := s.me.s c, e := 0, imm, actor := act } := by
  refine cpyM_enq rfl ?_ (noPort_fifo s) rfl
  simp only [M.bind_run, M.names_run hr, M.rdS_run ha, M.rdS_run hc]
theorem exec_cpyFill_long (h : 2 ^ 24 < (s.me.s c).toNat) : exec (.cpyFill f a c imm) s = .next (s.trapped 4 (s.me.s c)) := by
  have hlim : lim (s.me.s c).toNat 0 (2 ^ 24) = .error (4, s.me.s c) := by
    rw [lim, if_neg fun hle => absurd hle.2 (not_le.2 h), BitVec.ofNat_toNat, BitVec.setWidth_eq]
  refine (cpyFill_enqueues hr ha hc _ _ rfl rfl).2.2 4 (s.me.s c) ?_
  have hcmd (x : Cmd) (hop : x.op = 0xC7) (hx : x.c = s.me.s c) : s.cmdCheck x = .error (4, s.me.s c) := by
    have hl : x.limits = .error (4, s.me.s c) := by
      unfold Cmd.limits
      simp only [hop, hx]
      simp only [or_true, if_true, hlim]
      rfl
    unfold State.cmdCheck
    simp only [hl]
    rfl
  exact hcmd _ rfl rfl
end
end

/-- The ticket of a command behind commands counts them. -/
theorem ticket_of_commands {x : Queue} {cs : List Cmd} (h : x.items = cs.map .cmd) :
    x.ticket = x.num + BitVec.ofNat 64 cs.length + 1 := by
  have hany (p : QItem → Bool) (hp : ∀ c, p (.cmd c) = false) : x.items.any p = false := by
    rw [h, List.any_map, List.any_eq_false]
    exact fun c _ => by rw [Function.comp_apply, hp]; decide
  have hall (p : QItem → Bool) (hp : ∀ c, p (.cmd c) = true) : (x.items.filter p).length = cs.length := by
    rw [h, List.filter_eq_self.2, List.length_map]
    intro i hi
    obtain ⟨c, -, rfl⟩ := List.mem_map.1 hi
    exact hp c
  rw [Queue.ticket, hany _ fun _ => rfl, hall _ fun _ => rfl]
  rfl

/-- Settles O49: every form of `cpy` and `cpyx` enqueues its command or raises the cause of its check. -/
theorem porterCommands : Obligations.PorterCommands :=
  ⟨fun _ _ _ _ _ _ _ _ _ => cpy_enqueues,
    fun _ _ _ _ _ _ _ _ _ hr ha hb hc he => ⟨cpy2d_enqueues hr ha hb hc he, cpyMc_enqueues hr ha hb hc he,
      fun _ _ => cpy3d_enqueues hr ha hb hc he, cpyxG_enqueues hr ha hb hc he, cpyxS_enqueues hr ha hb hc he⟩,
    fun _ _ _ _ _ _ _ _ hr hb hc he => ⟨fun hq => ⟨cpyQ_enqueues hr hb hc he hq, cpyQ2d_enqueues hr hb hc he hq⟩,
      fun hq _ _ => exec_cpyQ2d_misuse hr hb hc he hq⟩,
    fun _ _ _ _ _ _ _ _ _ hb hc => ⟨fun hr ha => cpyPl_enqueues hb hc hr ha, fun hr hq => cpyPl_port_enqueues hb hc hr hq⟩,
    fun _ _ _ _ _ hr ha hc => ⟨cpyFill_enqueues hr ha hc, exec_cpyFill_long hr ha hc⟩,
    fun s c _ _ h => codes_check s c _ h,
    fun _ _ => ticket_of_commands⟩

end Sys2Proof.Machine

/-! ## Chains, queue fences, queue waits and queue status (R206 to R208, R210, R345, R392) -/

namespace Sys2Proof.Machine

section
variable {s t : State} {queue : BitVec 2} {a d : SReg} {imm : BitVec 32} {v va : Word}

/-! ### Chains -/

section
variable {p : State × Actor} (hr : s.resident [(17, a)]) (ha : s.ready a) (hva : va = s.me.s a)
  (hp : p = s.engineActor s.curCore s.curCtx (.porter queue.toNat))
include hr ha hva hp

theorem exec_chainHead_outside (h : s.resolve p.2 va 1 .load = .error (.trap 4)) :
    exec (.chainHead queue a) s = .next (s.trapped 4 va) := by
  refine instr_trap (m := false) ?_ rfl
  simp only [M.bind_run, M.names_run hr, M.rdS_run ha, ← hva, M.get_run, ← hp, h, M.trapM_run]
variable (h : s.resolve p.2 va 1 .load ≠ .error (.trap 4))
include h
theorem exec_chainHead_misaligned (h64 : va.toNat % 64 ≠ 0) : exec (.chainHead queue a) s = .next (s.trapped 3 va) := by
  refine instr_trap (m := false) ?_ rfl
  simp only [M.bind_run, M.names_run hr, M.rdS_run ha, ← hva, M.get_run, ← hp, if_pos h64, M.trapM_run]
theorem exec_chainHead_full (h64 : va.toNat % 64 = 0) (hlen : 16 ≤ (s.myGroup.queue queue.toNat).items.length) :
    exec (.chainHead queue a) s = .next s := by
  refine instr_stay (f := id) ?_
  simp only [M.bind_run, M.names_run hr, M.rdS_run ha, ← hva, M.get_run, ← hp, h64, ne_eq, not_true_eq_false, if_false, M.pure_run,
    roomM_full hlen]
theorem exec_chainHead_enqueues (h64 : va.toNat % 64 = 0) (hlen : (s.myGroup.queue queue.toNat).items.length < 16) :
    exec (.chainHead queue a) s =
      .next ((p.1.enqueue s.curCore queue.toNat (.chain { actor := p.2, cur := va } none [])).past 16) := by
  refine instr_ok ?_
  simp only [M.bind_run, M.names_run hr, M.rdS_run ha, ← hva, M.get_run, ← hp, h64, ne_eq, not_true_eq_false, if_false, M.pure_run,
    roomM_run hlen, M.set_run]
end

/-- Whether an entry of a queue is a chain that is paused. -/
def isPaused : QItem → Bool
  | .chain c _ _ => c.paused
  | _ => false
/-- The group after `chain.app` on a queue. -/
def appended (act : Actor) (q : Nat) (g : Group) : Group :=
  if (g.queue q).items.any isPaused then g.setQueue q { g.queue q with items := (g.queue q).items.map (resumeChain act) } else g
/-- The agent that `chain.app` makes of the current context. -/
def appActor (s : State) (queue : BitVec 2) : Actor := (s.engineActor s.curCore s.curCtx (.porter queue.toNat)).2
theorem exec_chainApp (s : State) (queue : BitVec 2) : exec (.chainApp queue) s =
    .next ((s.modGroup s.curCore (appended (appActor s queue) queue.toNat)).past 16) := rfl
theorem appended_myGroup (act : Actor) (q : Nat) : (s.modGroup s.curCore (appended act q)).myGroup = appended act q s.myGroup :=
  State.group_modGroup s s.curCore _
theorem appended_unpaused {act : Actor} {q : Nat} {g : Group}
    (h : ∀ c m n, .chain c m n ∈ (g.queue q).items → c.paused = false) : appended act q g = g := by
  refine if_neg fun hany => ?_
  obtain ⟨i, hi, hp⟩ := List.any_eq_true.1 hany
  cases i with
  | chain c m n => exact absurd ((h c m n hi).symm.trans hp) (by decide)
  | cmd _ => cases hp
  | fence _ => cases hp
theorem appended_paused {act : Actor} {q : Nat} {g : Group} {c : Chain} {m : Option Cmd} {n : List (Nat × Nat)} {rest : List QItem}
    (h : (g.queue q).items = .chain c m n :: rest) (hp : c.paused = true) : ∃ c' rest',
      ((appended act q g).queue q).items = .chain c' m n :: rest' ∧ c'.paused = false ∧ c'.cur = c.cur := by
  have hany : (g.queue q).items.any isPaused = true := by rw [h, List.any_cons, isPaused, hp, Bool.true_or]
  have hset (x : Queue) : (g.setQueue q x).queue q = x := Cells.get_set_self _ _ _ _
  rw [appended, if_pos hany, hset, h, List.map_cons, resumeChain, if_pos hp]
  exact ⟨_, _, rfl, rfl, rfl⟩

/-! ### Queue fences and waits -/

theorem exec_qfence_full {mask : BitVec 4} (h : 16 ≤ (s.myGroup.queue queue.toNat).items.length) :
    exec (.qfence mask queue) s = .next s := by
  refine instr_stay (f := id) ?_
  simp only [M.bind_run, roomM_full h]
theorem exec_qfence {mask : BitVec 4} (h : (s.myGroup.queue queue.toNat).items.length < 16) :
    exec (.qfence mask queue) s =
      .next ((s.enqueue s.curCore queue.toNat (.fence (fenceNeed s.myGroup queue.toNat mask))).past 8) := by
  refine instr_ok ?_
  simp only [M.bind_run, roomM_run h, M.myGroup_run, M.modS_run]
theorem mem_fenceNeed (g : Group) (q : Nat) (mask : BitVec 4) (j n : Nat) :
    (j, n) ∈ fenceNeed g q mask ↔ j < 4 ∧ mask.getLsbD j = true ∧ j ≠ q ∧ n = (g.queue j).enq := by
  simp only [fenceNeed, List.mem_filterMap, List.mem_range]
  constructor
  · rintro ⟨i, hi, h⟩
    split at h
    · rename_i hc
      obtain ⟨hm, hq⟩ := Bool.and_eq_true_iff.1 hc
      cases h
      exact ⟨hi, hm, of_decide_eq_true hq, rfl⟩
    · cases h
  · rintro ⟨hj, hm, hq, rfl⟩
    exact ⟨j, hj, if_pos (Bool.and_eq_true_iff.2 ⟨hm, decide_eq_true hq⟩)⟩
theorem qwaitM_reached (h : v.toNat ≤ (s.myGroup.queue queue.toNat).num.toNat)
    (ht : Gives (endAcquire .core (s.myGroup.queue queue.toNat).rels) (s.modMe Ctx.nextRegion) () t) :
    qwaitM queue v s = .ok ((), t.modMe Ctx.nextRegion) := by
  unfold Gives at ht
  simp only [qwaitM, M.bind_run, M.myGroup_run, if_pos h, M.endRegion_run, ht]
theorem qwaitM_waits (h : (s.myGroup.queue queue.toNat).num.toNat < v.toNat) :
    qwaitM queue v s = .error (.stay fun s => s.modMe fun c => { c with status := .waiting (.queue queue.toNat v) }) := by
  simp only [qwaitM, M.bind_run, M.myGroup_run, if_neg (not_le.2 h), M.waitM_run]

/-! ### Queue status -/

section
variable (hr : s.resident [(10, d)])
include hr
theorem exec_qstat_number (clr : Bool) :
    exec (.qstat clr false queue d) s = .next ((s.wroteS d (s.myGroup.queue queue.toNat).num).past 8) := by
  refine instr_ok ?_
  simp only [M.bind_run, M.names_run hr, M.myGroup_run, Bool.false_eq_true, if_false, M.wrS_run, Bool.false_and, M.pure_run]
theorem exec_qstat_status :
    exec (.qstat false true queue d) s = .next ((s.wroteS d (s.myGroup.queue queue.toNat).status).past 8) := by
  refine instr_ok ?_
  simp only [M.bind_run, M.names_run hr, M.myGroup_run, if_true, M.wrS_run, Bool.and_false, Bool.false_eq_true, if_false, M.pure_run]
theorem exec_qstat_clear : exec (.qstat true true queue d) s =
    .next (((s.wroteS d (s.myGroup.queue queue.toNat).status).modGroup s.curCore fun g =>
      g.setQueue queue.toNat { s.myGroup.queue queue.toNat with error := false, code := 0 }).past 8) := by
  refine instr_ok ?_
  simp only [M.bind_run, M.names_run hr, M.myGroup_run, if_true, M.wrS_run, Bool.and_self, M.modMyGroup_run]
  rfl
end
/-- The status of a queue that holds commands only. -/
theorem status_of_commands {x : Queue} {cs : List Cmd} (h : x.items = cs.map .cmd) :
    x.status = BitVec.ofNat 64 (2 ^ 24 * x.code.toNat + (if x.error then 2 ^ 16 else 0) + cs.length) := by
  have hchain (p : QItem → Option Bool) (hp : ∀ c, p (.cmd c) = none) : x.items.filterMap p = [] := by
    rw [h, List.filterMap_map]
    exact List.filterMap_eq_nil_iff.2 fun c _ => hp c
  rw [Queue.status, hchain _ fun _ => rfl, h, List.length_map]
  rfl
theorem status_fields {x : Queue} {cs : List Cmd} (h : x.items = cs.map .cmd) (hlen : cs.length ≤ 16) :
    (x.status.extractLsb' 0 8).toNat = cs.length ∧ x.status.extractLsb' 8 2 = 0 ∧ x.status.getLsbD 16 = x.error ∧
      x.status.extractLsb' 24 8 = x.code := by
  have hcode : x.code.toNat < 2 ^ 8 := x.code.isLt
  have herror : (if x.error then 2 ^ 16 else 0 : Nat) = 2 ^ 16 * x.error.toNat := by cases x.error <;> rfl
  have hbit : x.error.toNat ≤ 1 := Bool.toNat_le x.error
  have hnat : x.status.toNat = 2 ^ 24 * x.code.toNat + 2 ^ 16 * x.error.toNat + cs.length := by
    rw [status_of_commands h, herror, BitVec.toNat_ofNat, Nat.mod_eq_of_lt (by omega)]
  refine ⟨?_, BitVec.eq_of_toNat_eq ?_, ?_, BitVec.eq_of_toNat_eq ?_⟩
  · rw [BitVec.extractLsb'_toNat, hnat, Nat.shiftRight_zero]; omega
  · rw [BitVec.extractLsb'_toNat, hnat, Nat.shiftRight_eq_div_pow]
    show _ = 0
    omega
  · rw [BitVec.getLsbD, hnat, Nat.testBit_eq_decide_div_mod_eq]
    cases x.error with
    | false => exact decide_eq_false (by rw [Bool.toNat_false]; omega)
    | true => exact decide_eq_true (by rw [Bool.toNat_true]; omega)
  · rw [BitVec.extractLsb'_toNat, hnat, Nat.shiftRight_eq_div_pow]; omega
end

/-- Settles O50: chains are headed and resumed, queue fences enqueued, completion numbers waited for and status words read. -/
theorem porterQueues : Obligations.PorterQueues :=
  ⟨fun _ _ _ _ hr ha hva _ hp => ⟨exec_chainHead_outside hr ha hva hp, fun h => ⟨exec_chainHead_misaligned hr ha hva hp h,
      exec_chainHead_full hr ha hva hp h, exec_chainHead_enqueues hr ha hva hp h⟩⟩,
    fun s queue => ⟨_, exec_chainApp s queue, fun _ => byteAt_modGroup _ _ _ _, fun h => by
        rw [appended_myGroup, appended_unpaused h], fun _ _ _ _ hitems hp => by
        rw [appended_myGroup]; exact appended_paused hitems hp⟩,
    fun _ _ _ => ⟨exec_qfence_full, exec_qfence⟩,
    mem_fenceNeed,
    fun _ _ _ _ _ hr ha hx => by
      subst hx
      exact ⟨fun _ h ht => instr_ok ((names_rdS_then hr ha).trans (qwaitM_reached h ht)),
        fun h => instr_stay ((names_rdS_then hr ha).trans (qwaitM_waits h)),
        fun _ h ht => instr_ok (qwaitM_reached (by rwa [BitVec.toNat_setWidth_of_le (by decide)]) ht),
        fun h => instr_stay (qwaitM_waits (by rwa [BitVec.toNat_setWidth_of_le (by decide)]))⟩,
    fun _ clr _ _ _ hr hx => by
      subst hx
      exact ⟨exec_qstat_number hr clr, exec_qstat_status hr, exec_qstat_clear hr⟩,
    fun _ _ => status_fields⟩

end Sys2Proof.Machine

/-! ## The matrix instructions (R177, R190, R191, R378, R382) -/

namespace Sys2Proof.Machine

section
variable {s t u : State} {a : SReg} {va : Word}

theorem tileM_outside (h : windowOf va ≠ 8) : tileM va s = .error (.trap 4 va false) := by
  simp only [tileM, M.bind_run, M.myGroup_run, ne_eq, h, not_false_eq_true, decide_true, Bool.true_or, if_true, M.trapM_run]
theorem tileM_misaligned (h8 : windowOf va = 8) (hz : va.toNat / 2 ^ 22 % 2 ^ 38 = 0)
    (hin : va.toNat % 2 ^ 22 + 16384 ≤ s.myGroup.part * 2 ^ 18) (h256 : va.toNat % 256 ≠ 0) :
    tileM va s = .error (.trap 3 va false) := by
  simp only [tileM, M.bind_run, M.myGroup_run, h8, hz, ne_eq, not_true_eq_false, decide_false, Bool.or_self, not_lt.2 hin,
    Bool.false_eq_true, if_false, h256, not_false_eq_true, if_true, M.trapM_run]

/-- The lanes that `mchk` reads of a tile: 64 elements for each sum. -/
def mchkLanes (s : State) (swz : BitVec 2) (part row : Bool) (m : VMask) (va : Word) : List (Nat × Word) :=
  ((List.range 32).filter (laneOn (s.me.mask m.m) m.n)).flatMap fun i => (List.range 64).map fun k =>
    (64 * i + k, va + BitVec.ofNat 64
      (if row then elemOff swz.toNat ((if part then 32 else 0) + i) k else elemOff swz.toNat k ((if part then 32 else 0) + i)))
theorem mchkM_run {op : Nat} {row part : Bool} {ty : ElemTy} {swz : BitVec 2} {m : VMask} {d : VReg} {vs : List (Nat × Nat)}
    (hr : s.resident [(17, a)]) (ha : s.ready a) (htile : s.tileAt (s.me.s a)) (hd : s.me.held d = false)
    (hv : Gives (loadM 4 none (mchkLanes s swz part row m (s.me.s a))) s vs u)
    (ht : LanesTo u 32 32 m (.v d) wrVQ (fun i => tileSum ty ((vs.filter fun p => p.1 / 64 == i).map (·.2))) t) :
    mchkM op row ty swz part m d a s = .next (t.past 8) := by
  unfold Gives mchkLanes at hv
  refine instr_ok ?_
  simp only [M.bind_run, M.names_run hr, M.rdS_run ha, tileM_run htile, M.freshV_run hd, rdMask, M.rdM_run, hv]
  exact M.vecOp_run ht

section
variable (hr : s.resident [(17, a)]) (ha : s.ready a)
include hr ha

theorem exec_mzero (htile : s.tileAt (s.me.s a)) {tile : Nat} (ht : tile = (s.me.s a).toNat % 2 ^ 22)
    (hu : Gives (checkM true true (s.tileParts s.curCore tile 0 (BitVec.allOnes 64) (BitVec.allOnes 64))) s () u) :
    exec (.mzero a) s = .next (((u.zeroTile u.curCore tile u.me.fenceRel).modCore (u.zeroTile u.curCore tile u.me.fenceRel).curCore
      fun c => { c with keeps := c.keeps.filter fun k => k.2.launch != c.group.launch || k.2.tile != tile }).past 8) := by
  subst ht
  unfold Gives at hu
  refine instr_ok ?_
  simp only [M.bind_run, M.names_run hr, M.rdS_run ha, tileM_run htile, M.get_run, hu, M.fenceRel_run]
  rw [M.modS_run]
  exact M.modS_run _ _
theorem exec_mzero_trap {code : Nat} (h : tileM (s.me.s a) s = .error (.trap code va false)) (hcode : epcIsNext code = false) :
    exec (.mzero a) s = .next (s.trapped code va) := by
  refine instr_trap (m := false) ?_ hcode
  simp only [M.bind_run, M.names_run hr, M.rdS_run ha, h]
end
end

/-- Settles O51: the issue of `mma`, program slots, the sums of a tile, and zeroing. -/
theorem matrixInstructions : Obligations.MatrixInstructions :=
  ⟨mma_issues (fun _ _ => rfl) rfl, mma_issues (fun _ _ => rfl) rfl, mma_issues (fun _ _ => rfl) rfl,
    mma_issues (fun _ _ => rfl) rfl, mma_issues (fun _ _ => rfl) rfl, mma_issues (fun _ _ => rfl) rfl,
    mma_issues (fun _ _ => rfl) rfl, mma_issues (fun _ _ => rfl) rfl,
    fun s imm load hload => by
      subst hload
      exact ⟨instr_ok (M.modMyGroup_run _ s), instr_ok (M.modMyGroup_run _ s), instr_ok (M.modMyGroup_run _ s)⟩,
    fun s u t ty swz part row m d a n e vs hr ha htile hd hn he hv ht => by
      subst hn he
      cases row with
      | true => exact mchkM_run hr ha htile hd hv ht
      | false => exact mchkM_run hr ha htile hd hv ht,
    fun _ _ _ _ hr ha htile ht hu => exec_mzero hr ha htile ht hu,
    fun s va => ⟨tileM_run, fun a hr ha hva => by
      subst hva
      exact ⟨fun h => exec_mzero_trap hr ha (tileM_outside h) rfl,
        fun h8 hz hin h256 => exec_mzero_trap hr ha (tileM_misaligned h8 hz hin h256) rfl⟩⟩,
    fun s => ⟨instr_ok (M.modS_run _ s), instr_ok (M.modS_run _ s)⟩⟩

end Sys2Proof.Machine

/-! ## Special registers (R68, R376, R377) -/

namespace Sys2Proof.Machine

section
variable {s t : State} {a b d : SReg} {n : BitVec 12}

theorem toNat_number (n : BitVec 12) : (n.setWidth 64).toNat = n.toNat := BitVec.toNat_setWidth_of_le (by decide)

section
variable (hr : s.resident [(10, d)])
include hr
theorem exec_mfsr (h : (srLevel n.toNat).toNat ≤ s.me.priv.toNat) :
    exec (.mfsr d n) s = .next ((s.wroteS d (s.readSr n.toNat)).past 8) := by
  refine instr_ok ?_
  simp only [M.bind_run, M.names_run hr, level_ok h, M.get_run, M.wrS_run]
theorem exec_mfsr_trap (h : s.me.priv.toNat < (srLevel n.toNat).toNat) : exec (.mfsr d n) s = .next (s.trapped 2 0) :=
  instr_unprivileged (names_level_then hr h)
end

theorem srNumber_of {op bit : Nat} {x : Word} (hx : x = n.setWidth 64) (hn : srDefined n.toNat = true) :
    srNumber op bit x s = .ok (n.toNat, s) := by
  have hnum : x.toNat = n.toNat := by rw [hx, toNat_number]
  rw [srNumber_ok (by rw [hnum]; exact n.isLt) (by rw [hnum]; exact hn), hnum]

theorem exec_mfsrReg (hr : s.resident [(10, d), (17, a)]) (ha : s.ready a) (hx : s.me.s a = n.setWidth 64)
    (hn : srDefined n.toNat = true) (h : (srLevel n.toNat).toNat ≤ s.me.priv.toNat) :
    exec (.mfsrReg d a) s = .next ((s.wroteS d (s.readSr n.toNat)).past 8) := by
  refine instr_ok ?_
  simp only [M.bind_run, M.names_run hr, M.rdS_run ha, srNumber_of hx hn, level_ok h, M.get_run, M.wrS_run]
theorem exec_mfsrReg_reserved (hr : s.resident [(10, d), (17, a)]) (ha : s.ready a)
    (h : 4096 ≤ (s.me.s a).toNat ∨ srDefined (s.me.s a).toNat = false) :
    exec (.mfsrReg d a) s = .next (s.trapped 1 (illegalRecord ⟨3, 17, 0xE1⟩)) := by
  refine instr_trap (m := false) ?_ rfl
  simp only [M.bind_run, M.names_run hr, M.rdS_run ha, srNumber_bad h]
theorem exec_mtsr_trap (hr : s.resident [(17, a)]) (h : s.me.priv.toNat < (srLevel n.toNat).toNat) :
    exec (.mtsr n a) s = .next (s.trapped 2 0) := instr_unprivileged (names_level_then hr h)
theorem exec_mtsr (hr : s.resident [(17, a)]) (ha : s.ready a) (h : (srLevel n.toNat).toNat ≤ s.me.priv.toNat)
    (ht : Gives (writeSr n.toNat (s.me.s a)) s () t) : exec (.mtsr n a) s = .next (t.past 8) := by
  unfold Gives at ht
  refine instr_ok ?_
  simp only [M.bind_run, M.names_run hr, M.rdS_run ha, level_ok h, ht]
theorem exec_mtsrReg (hr : s.resident [(17, a), (24, b)]) (ha : s.ready a) (hb : s.ready b) (hx : s.me.s b = n.setWidth 64)
    (hn : srDefined n.toNat = true) (h : (srLevel n.toNat).toNat ≤ s.me.priv.toNat)
    (ht : Gives (writeSr n.toNat (s.me.s a)) s () t) : exec (.mtsrReg b a) s = .next (t.past 8) := by
  unfold Gives at ht
  refine instr_ok ?_
  simp only [M.bind_run, M.names_run hr, M.rdS_run hb, srNumber_of hx hn, M.rdS_run ha, level_ok h, ht]
theorem exec_mtsrReg_reserved (hr : s.resident [(17, a), (24, b)]) (hb : s.ready b)
    (h : 4096 ≤ (s.me.s b).toNat ∨ srDefined (s.me.s b).toNat = false) :
    exec (.mtsrReg b a) s = .next (s.trapped 1 (illegalRecord ⟨3, 24, 0xE3⟩)) := by
  refine instr_trap (m := false) ?_ rfl
  simp only [M.bind_run, M.names_run hr, M.rdS_run hb, srNumber_bad h]
end

theorem srLevel_two (n : Nat) : srLevel n = 2 ↔ n = 0x40 := by
  unfold srLevel
  split
  · simp_all
  · split <;> simp_all
theorem srLevel_one (n : Nat) : srLevel n = 1 ↔ 0x10 ≤ n ∧ n < 0x18 := by
  unfold srLevel
  split
  · rename_i h; subst h; decide
  · split
    · rename_i h; simp; omega
    · rename_i h; simp; omega

/-! ### The bits of sr.cause (R377) -/

theorem causeWrite_bit (old v : Word) (i : Nat) : (causeWrite old v).getLsbD i =
    (v.getLsbD i && (0x89FF#64).getLsbD i || (if v.getLsbD 10 then old else v).getLsbD i && (0x600#64).getLsbD i) := by
  unfold causeWrite
  split <;> simp only [BitVec.getLsbD_or, BitVec.getLsbD_and]
/-- A field that both masks of a written sr.cause take whole from one word is that word's. -/
theorem prev_reserved (v : Word) : 2 ≤ (v.extractLsb' 9 2).toNat ↔ v.getLsbD 10 = true := by
  have hbit : v.getLsbD 10 = (v.extractLsb' 9 2).getLsbD 1 := by rw [BitVec.getLsbD_extractLsb']; rfl
  rw [hbit]
  generalize v.extractLsb' 9 2 = x
  revert x
  decide
theorem causeWrite_low (old v : Word) : (causeWrite old v).extractLsb' 0 9 = v.extractLsb' 0 9 := by
  have hmask : ∀ i, i < 9 → (0x89FF#64).getLsbD i = true ∧ (0x600#64).getLsbD i = false := by decide
  refine BitVec.eq_of_getLsbD_eq fun i hi => ?_
  rw [BitVec.getLsbD_extractLsb', BitVec.getLsbD_extractLsb', Nat.zero_add, causeWrite_bit, (hmask i hi).1, (hmask i hi).2,
    Bool.and_true, Bool.and_false, Bool.or_false]
theorem causeWrite_busy (old v : Word) : (causeWrite old v).getLsbD 15 = v.getLsbD 15 := by
  rw [causeWrite_bit, show (0x89FF#64).getLsbD 15 = true by decide, show (0x600#64).getLsbD 15 = false by decide, Bool.and_true,
    Bool.and_false, Bool.or_false]
theorem causeWrite_prev (old v : Word) : (causeWrite old v).extractLsb' 9 2 =
    (if 2 ≤ (v.extractLsb' 9 2).toNat then old.extractLsb' 9 2 else v.extractLsb' 9 2) := by
  have hmask : ∀ i, i < 2 → (0x89FF#64).getLsbD (9 + i) = false ∧ (0x600#64).getLsbD (9 + i) = true := by decide
  have hpick : (causeWrite old v).extractLsb' 9 2 = (if v.getLsbD 10 then old else v).extractLsb' 9 2 := by
    refine BitVec.eq_of_getLsbD_eq fun i hi => ?_
    rw [BitVec.getLsbD_extractLsb', BitVec.getLsbD_extractLsb', causeWrite_bit, (hmask i hi).1, (hmask i hi).2, Bool.and_true,
      Bool.and_false, Bool.false_or]
  rw [hpick, if_congr (prev_reserved v) rfl rfl]
  split <;> rfl
theorem causeWrite_high (old v : Word) : (causeWrite old v).extractLsb' 16 48 = 0 := by
  have hmask (x : Word) (hx : x.toNat < 2 ^ 16) (i : Nat) : x.getLsbD (16 + i) = false :=
    Nat.testBit_lt_two_pow (hx.trans_le (Nat.pow_le_pow_right (by decide) (Nat.le_add_right 16 i)))
  refine BitVec.eq_of_getLsbD_eq fun i hi => ?_
  rw [BitVec.getLsbD_extractLsb', causeWrite_bit, hmask 0x89FF#64 (by decide), hmask 0x600#64 (by decide), Bool.and_false,
    Bool.and_false, Bool.or_false, Bool.and_false]
  simp

/-- The registers that a write leaves as they are. -/
theorem writeSr_readOnly (s : State) (v : Word) : ∀ n,
    n ∈ [0x001, 0x002, 0x003, 0x004, 0x005, 0x006, 0x007, 0x008, 0x009, 0x00B, 0x00C, 0x00D, 0x00E, 0x00F, 0x040] →
      Gives (writeSr n v) s () s := by
  intro n hn
  fin_cases hn <;> rfl

theorem writeSr_event (s : State) (v : Word) {i : Nat} (hi : i < 16) (h : s.me.priv ≠ 0) :
    Gives (writeSr (0x020 + i) v) s () (s.modMe fun c => { c with ev := Cells.set 0 c.ev i v }) := by
  have hrun : writeSr (0x020 + i) v s =
      (if s.me.priv = 0 then pure () else modMe fun c => { c with ev := Cells.set 0 c.ev i v } : M Unit) s := by
    interval_cases i <;> rfl
  rw [Gives, hrun, if_neg h, M.modMe_run]
theorem srDefined_iff (n : Nat) : srDefined n = true ↔ (1 ≤ n ∧ n < 0x18) ∨ (0x20 ≤ n ∧ n < 0x30) ∨ n = 0x40 := by
  simp only [srDefined, Bool.or_eq_true, Bool.and_eq_true, decide_eq_true_eq, beq_iff_eq]
  omega

/-- Settles O52: levels, values read and values stored of the special registers. -/
theorem specialRegisters : Obligations.SpecialRegisters :=
  ⟨fun _ _ _ hr => ⟨exec_mfsr hr, exec_mfsr_trap hr, fun _ hr' ha => ⟨exec_mfsrReg hr' ha, exec_mfsrReg_reserved hr' ha⟩⟩,
    fun _ _ _ hr ha => ⟨exec_mtsr_trap hr, fun h _ ht => ⟨exec_mtsr hr ha h ht, fun _ hr' hb hx hn => exec_mtsrReg hr' ha hb hx hn h ht⟩,
      fun _ => exec_mtsrReg_reserved⟩,
    fun n => ⟨srDefined_iff _, srLevel_two _, srLevel_one _⟩,
    fun s => ⟨rfl, rfl, rfl, rfl, rfl, rfl, rfl, rfl, rfl, rfl, rfl, rfl, fun i hi => by interval_cases i <;> rfl,
      fun i hi => by interval_cases i <;> rfl⟩,
    fun s v => ⟨rfl, rfl, rfl, rfl, rfl, fun i hi => by interval_cases i <;> rfl,
      fun _ => writeSr_event s v, writeSr_readOnly s v⟩,
    fun old v => ⟨causeWrite_low old v, causeWrite_busy old v, causeWrite_prev old v, causeWrite_high old v⟩⟩

end Sys2Proof.Machine

/-! ## Traps, window spills, services, TLB instructions and the injector (R53, R271 to R280, R296, R356, R357) -/

namespace Sys2Proof.Machine

section
variable {s t u : State} {a b c d : SReg} {imm : BitVec 32}

/-- Registers that are resident together are resident in every part of their list. -/
theorem resident_of_subset {rs ts : List (Nat × SReg)} (h : s.resident rs) (hsub : ∀ p ∈ ts, p ∈ rs) : s.resident ts :=
  (absent_iff ts).2 fun p hp => (absent_iff rs).1 h p (hsub p hp)

/-! ### Software traps and the return from a trap -/

theorem exec_trapReg {bp : Bool} (hr : s.resident [(17, a)]) (ha : s.ready a) : exec (.trapReg bp a) s =
    .next (s.enterTrap s.curCore s.curCtx (trapCode bp) (s.me.s a) (s.me.pc + 8) false false) := by
  refine instr_trapN ?_ (by cases bp <;> rfl)
  simp only [M.bind_run, M.names_run hr, M.rdS_run ha, M.trapM_run]
theorem exec_trap (bp : Bool) (imm : BitVec 32) (s : State) : exec (.trap bp imm) s =
    .next (s.enterTrap s.curCore s.curCtx (trapCode bp) (imm.setWidth 64) (s.me.pc + 8) false false) :=
  instr_trapN (M.trapM_run _ _ _ s) (by cases bp <;> rfl)
theorem enterTrap_me {code : Nat} {v epc : Word} (hbusy : s.me.busy = false) (hvec : s.myGroup.trapvec ≠ 0) :
    s.enterTrap s.curCore s.curCtx code v epc false false =
      s.modMe fun c => c.trapped s.myGroup.trapvec code v epc false false :=
  State.enterTrap_taken code v epc false false hbusy hvec
theorem exec_rett_unprivileged (h : s.me.priv = 0) : exec .rett s = .next (s.trapped 2 0) :=
  runInstr_trap (m := false) (level_then (priv0 h)) rfl
theorem exec_rett (h : s.me.priv ≠ 0) : exec .rett s = .next (s.modMe Ctx.returned) := by
  refine runInstr_ok ?_
  simp only [M.bind_run, level_ok (priv1 h), M.modMe_run]

/-! ### Window spills and fills -/

theorem exec_wspill_unprivileged (h : s.me.priv = 0) : exec .wspill s = .next (s.trapped 2 0) := instr_unprivileged (level_then (priv0 h))
theorem exec_wfill_unprivileged (h : s.me.priv = 0) : exec .wfill s = .next (s.trapped 2 0) := instr_unprivileged (level_then (priv0 h))
theorem illegal_run {α : Type} (sub bit op : Nat) (s : State) :
    (illegal sub bit op : M α) s = .error (.trap 1 (illegalRecord ⟨sub, bit, op⟩) false) := rfl
section
variable (hp : s.me.priv ≠ 0)
include hp
theorem exec_wspill_illegal (h : s.me.wb < s.me.lo) : exec .wspill s = .next (s.trapped 1 (illegalRecord ⟨4, 0, 0x3B⟩)) := by
  refine instr_trap (m := false) ?_ rfl
  simp only [M.bind_run, level_ok (priv1 hp), M.me_run, M.myGroup_run, if_pos h, illegal_run]
theorem exec_wfill_illegal (h : s.me.lo < 16) : exec .wfill s = .next (s.trapped 1 (illegalRecord ⟨4, 0, 0x3C⟩)) := by
  refine instr_trap (m := false) ?_ rfl
  simp only [M.bind_run, level_ok (priv1 hp), M.me_run, if_pos h, illegal_run]
theorem exec_wspill (h : s.me.lo ≤ s.me.wb) (hlate : ∀ i, i < 16 → LateReg.s (8 + s.me.lo + i) ∉ s.me.late)
    (hu : Gives (storeM 128 7 none [(0, spillHome s.me.lo, spillLine s.me s.me.lo)]) s () u) :
    exec .wspill s = .next ((u.modMe fun c => zeroStack { c with lo := c.lo + 16 } (c.lo + s.myGroup.r) 16).past 8) := by
  have hnone : ((List.range 16).any fun i => s.me.late.contains (.s (8 + s.me.lo + i))) = false :=
    List.any_eq_false.2 fun i hi hc => hlate i (List.mem_range.1 hi) (List.contains_iff_mem.1 hc)
  unfold Gives at hu
  refine instr_ok ?_
  simp only [M.bind_run, level_ok (priv1 hp), M.me_run, M.myGroup_run, if_neg (not_lt.2 h), hnone, Bool.false_eq_true, if_false, hu,
    M.modMe_run]
theorem exec_wfill {vs : List (Nat × Nat)} (h : 16 ≤ s.me.lo) (hu : Gives (loadM 128 none [(0, spillHome (s.me.lo - 16))]) s vs u) :
    exec .wfill s =
      .next ((u.modMe fun c => unspill { c with lo := c.lo - 16 } (c.lo - 16) ((vs.map (·.2)).getD 0 0)).past 8) := by
  unfold Gives at hu
  refine instr_ok ?_
  simp only [M.bind_run, level_ok (priv1 hp), M.me_run, if_neg (not_lt.2 h), hu, M.modMe_run]
end

/-! ### Services -/

theorem instr_congr {len : Nat} {g g' : M Unit} (h : g s = g' s) : instr len g s = instr len g' s := by
  simp only [instr, runInstr, State.turn, M.bind_run, h]
theorem pending_answered {x : Access} {ans : Answer} (hx : s.me.access = some x) (hpc : x.pc = s.me.pc) (hneed : x.need = 0)
    {v : Word} {vs : List (Nat × Word)} {rels : List Rel} (hans : x.ans = some (.old ((0, v) :: vs) rels)) :
    pendingM s = .ok (some x, s) := by
  unfold pendingM
  rw [M.bind_run, M.me_run]
  simp only [hx, hpc, hans, hneed, ne_eq, not_true_eq_false, if_false, M.pure_run]
section
variable (hr : s.resident [(10, d), (17, a)])
include hr
theorem execEcall_eq : exec (.ecall d a imm) s = instr 8 (ecallM d imm.toNat a) s := by
  refine instr_congr ?_
  simp only [M.bind_run, M.names_run hr]
theorem exec_ecall_traps (h : imm.toNat < 0x40) : exec (.ecall d a imm) s =
    .next (s.enterTrap s.curCore s.curCtx 0x13 (BitVec.ofNat 64 (2 ^ 32 + imm.toNat)) (s.me.pc + 8) false false) := by
  refine (execEcall_eq hr).trans (instr_trapN ?_ rfl)
  simp only [ecallM, if_pos h, M.trapM_run]
theorem exec_ecall_unknown (h : 0x47 ≤ imm.toNat) :
    exec (.ecall d a imm) s = .next ((s.wroteS d (BitVec.allOnes 64)).past 8) := by
  refine (execEcall_eq hr).trans (instr_ok ?_)
  simp only [ecallM, if_neg (show ¬ imm.toNat < 0x40 by omega), if_pos h, M.wrS_run]
theorem exec_ecall_unprivileged (h : imm = 0x44 ∨ imm = 0x45) (hp : s.me.priv = 0) :
    exec (.ecall d a imm) s = .next (s.trapped 2 0) := by
  refine (execEcall_eq hr).trans (instr_unprivileged ?_)
  have hn : imm.toNat = 0x44 ∨ imm.toNat = 0x45 := h.imp (congrArg _) (congrArg _)
  simp only [ecallM, if_neg (show ¬ imm.toNat < 0x40 by omega), if_neg (show ¬ 0x47 ≤ imm.toNat by omega), if_pos hn]
  exact level_then (priv0 hp)
theorem ecallM_service (h40 : 0x40 ≤ imm.toNat) (h47 : imm.toNat < 0x47) (hp : imm = 0x44 ∨ imm = 0x45 → s.me.priv ≠ 0)
    (ha : s.ready a) : ecallM d imm.toNat a s = (pendingM >>= fun r => match r with
      | some acc => wrS d (match acc.ans with
        | some (.old ((_, v) :: _) _) => v
        | _ => 0)
      | none => stayM fun s' => ({ s' with nextId := s'.nextId + 1 }.modMe fun c =>
          { c with access := some { pc := c.pc, id := s'.nextId, need := 1 } }).post
            (serviceEvent imm.toNat ⟨s'.curCore, s'.curCtx, s'.myGroup.launch⟩ d (s.me.s a))) s := by
  have hlevel : (if imm.toNat = 0x44 ∨ imm.toNat = 0x45 then level 1 else pure () : M Unit) s = .ok ((), s) := by
    split
    · rename_i hn
      exact level_ok (priv1 (hp (hn.imp (fun h => BitVec.eq_of_toNat_eq h) fun h => BitVec.eq_of_toNat_eq h)))
    · exact M.pure_run _ _
  simp only [ecallM, if_neg (not_lt.2 h40), if_neg (not_le.2 h47), M.bind_run, hlevel, M.rdS_run ha] <;> rfl
theorem exec_ecall_asks (h40 : 0x40 ≤ imm.toNat) (h47 : imm.toNat < 0x47) (hp : imm = 0x44 ∨ imm = 0x45 → s.me.priv ≠ 0)
    (ha : s.ready a) (hfree : s.me.access = none) : exec (.ecall d a imm) s =
      .next (({ s with nextId := s.nextId + 1 }.modMe fun c =>
          { c with access := some { pc := c.pc, id := s.nextId, need := 1 } }).post
            (serviceEvent imm.toNat ⟨s.curCore, s.curCtx, s.myGroup.launch⟩ d (s.me.s a))) := by
  refine (execEcall_eq hr).trans (instr_stay (f := fun s' => ({ s' with nextId := s'.nextId + 1 }.modMe fun c =>
          { c with access := some { pc := c.pc, id := s'.nextId, need := 1 } }).post
            (serviceEvent imm.toNat ⟨s'.curCore, s'.curCtx, s'.myGroup.launch⟩ d (s.me.s a))) ?_)
  rw [ecallM_service hr h40 h47 hp ha, M.bind_run, M.pending_run hfree]
  rfl
theorem exec_ecall_answered (h40 : 0x40 ≤ imm.toNat) (h47 : imm.toNat < 0x47) (hp : imm = 0x44 ∨ imm = 0x45 → s.me.priv ≠ 0)
    (ha : s.ready a) {x : Access} {v : Word} {rels : List Rel} (hx : s.me.access = some x) (hpc : x.pc = s.me.pc)
    (hneed : x.need = 0) (hans : x.ans = some (.old [(0, v)] rels)) :
    exec (.ecall d a imm) s = .next ((s.wroteS d v).past 8) := by
  refine (execEcall_eq hr).trans (instr_ok ?_)
  rw [ecallM_service hr h40 h47 hp ha, M.bind_run, pending_answered (ans := .old [(0, v)] rels) hx hpc hneed hans]
  simp only [hans, M.wrS_run]
theorem exec_ecallReg (hr' : s.resident [(10, d), (17, a), (24, b)]) (hb : s.ready b) (hn : (s.me.s b).setWidth 32 = imm) :
    exec (.ecallReg d a b) s = exec (.ecall d a imm) s := by
  have hnum : (s.me.s b).toNat % 2 ^ 32 = imm.toNat := by rw [← hn, BitVec.toNat_setWidth]
  refine .trans (instr_congr ?_) (execEcall_eq hr).symm
  simp only [M.bind_run, M.names_run hr', M.rdS_run hb, hnum]
end

/-! ### TLB instructions -/

theorem tlbwM_inserts {x y : Word} {k : Nat} (h : entryOk x y = true) (hk : chipOf k = chipOf s.curCore) :
    tlbwM x y (some k) s = .ok ((), s.modCore k fun c => { c with tlb := tlbInsert c.tlb x y }) := by
  have hok : (entryOk x y && chipOf k == chipOf s.curCore) = true := by rw [h, hk, beq_self_eq_true]; rfl
  rw [tlbwM, M.modS_run]
  simp only [hok, if_true]
theorem tlbwM_refused {x y : Word} {k : Nat} (h : entryOk x y = false ∨ chipOf k ≠ chipOf s.curCore) :
    tlbwM x y (some k) s = .ok ((), s.chipError (s.tables.pchipOf (chipOf s.curCore)) .tlb) := by
  have hno : (entryOk x y && chipOf k == chipOf s.curCore) = false := by
    obtain h | h := h
    · rw [h, Bool.false_and]
    · rw [beq_eq_false_iff_ne.2 h, Bool.and_false]
  rw [tlbwM, M.modS_run]
  simp only [hno, Bool.false_eq_true, if_false]
theorem not_two_le {x : BitVec 2} (h2 : x ≠ 2) (h3 : x ≠ 3) : x.toNat < (2 : BitVec 2).toNat := by revert x; decide
section
variable (hr : s.resident [(17, a), (24, b), (31, c)])
include hr
theorem resident_first : s.resident [(17, a)] := resident_of_subset hr (by simp)
theorem resident_two : s.resident [(17, a), (24, b)] := resident_of_subset hr (by simp)
theorem exec_tlbw_unprivileged (hp : s.me.priv.toNat < (2 : BitVec 2).toNat) : exec (.tlbw a b) s = .next (s.trapped 2 0) ∧
    exec (.tlbwRm a b c) s = .next (s.trapped 2 0) ∧ exec (.tlbiTn a) s = .next (s.trapped 2 0) :=
  ⟨instr_unprivileged (names_level_then (resident_two hr) hp), instr_unprivileged (names_level_then hr hp),
    instr_unprivileged (names_level_then (resident_first hr) hp)⟩
variable (ha : s.ready a) (hb : s.ready b) (hp : (2 : BitVec 2).toNat ≤ s.me.priv.toNat)
include ha hb hp
theorem exec_tlbw (h : tlbwM (s.me.s a) (s.me.s b) (some s.curCore) s = .ok ((), t)) : exec (.tlbw a b) s = .next (t.past 8) := by
  refine instr_ok ?_
  simp only [M.bind_run, M.names_run (resident_two hr), level_ok hp, M.rdS_run ha, M.rdS_run hb, M.get_run, h]
theorem exec_tlbwRm (hc : s.ready c) (h : tlbwM (s.me.s a) (s.me.s b) (some ((s.me.s c).toNat % 2048)) s = .ok ((), t)) :
    exec (.tlbwRm a b c) s = .next (t.past 8) := by
  refine instr_ok ?_
  simp only [M.bind_run, M.names_run hr, level_ok hp, M.rdS_run ha, M.rdS_run hb, M.rdS_run hc, h]
end
section
variable {r : Rel} {tenant : Nat} {va : Option Nat} (hu : Gives (beginRelease .panel) s r u)
include hu
theorem tlbiM_drops (h : u.walksFor tenant va = false) :
    tlbiM tenant va s = .ok ((), (u.dropTlb tenant va).modMe Ctx.nextRegion) := by
  unfold Gives at hu
  simp only [tlbiM, M.bind_run, hu, M.get_run, h, Bool.false_eq_true, if_false, M.pure_run, M.modS_run, M.endRegion_run]
theorem tlbiM_waits (h : u.walksFor tenant va = true) : tlbiM tenant va s = .error (.stay id) := by
  unfold Gives at hu
  simp only [tlbiM, M.bind_run, hu, M.get_run, h, if_true, M.spend_run]
end
theorem tlbiAll_run (hp : s.me.priv ≠ 0) :
    (do level 1; tlbiM (← myGroup).tenant none) s = tlbiM s.myGroup.tenant none s := by
  simp only [M.bind_run, level_ok (priv1 hp), M.myGroup_run]
theorem exec_tlbiVa (hr : s.resident [(17, a)]) (ha : s.ready a) (hp : s.me.priv ≠ 0)
    (h : tlbiM s.myGroup.tenant (some ((s.me.s a).toNat % 2 ^ 52)) s = .ok ((), t)) : exec (.tlbiVa a) s = .next (t.past 8) := by
  refine instr_ok ?_
  simp only [M.bind_run, M.names_run hr, level_ok (priv1 hp), M.rdS_run ha, M.myGroup_run, h]
theorem exec_tlbiTn (hr : s.resident [(17, a)]) (ha : s.ready a) (hp : (2 : BitVec 2).toNat ≤ s.me.priv.toNat)
    (h : tlbiM ((s.me.s a).toNat % 2 ^ 16) none s = .ok ((), t)) : exec (.tlbiTn a) s = .next (t.past 8) := by
  refine instr_ok ?_
  simp only [M.bind_run, M.names_run hr, level_ok hp, M.rdS_run ha, h]
theorem findCell_of_not_key {α : Type} {k : Nat} : ∀ {l : List (Nat × α)}, k ∉ l.map (·.1) → findCell l k = none
  | [], _ => rfl
  | (j, _) :: _, h => by
    rw [List.map_cons, List.mem_cons, not_or] at h
    rw [findCell, if_neg (Ne.symm h.1), findCell_of_not_key h.2]
theorem get_of_not_key {α : Type} {x : α} {m : Cells α} {k : Nat} (h : k ∉ m.keys) : Cells.get x m k = x := by
  rw [Cells.get, findCell_of_not_key h, Option.getD_none]
theorem dropTlb_core (s : State) (tenant : Nat) (va : Option Nat) (k : Nat) :
    ((s.dropTlb tenant va).core k).tlb = (s.core k).tlb.filter fun e => !s.tagOf tenant va e.1 := by
  refine (foldTlb (fun e => !s.tagOf tenant va e.1) s.cores.keys s.cores k).trans ?_
  split
  · rfl
  · rename_i hk
    rw [State.core, get_of_not_key hk]
    rfl

/-! ### The injector -/

section
variable (hr : s.resident [(10, d), (17, a), (24, b)]) (ha : s.ready a) (hb : s.ready b)
  (hp : (2 : BitVec 2).toNat ≤ s.me.priv.toNat)
include hr hp
theorem exec_injOff : exec (.injOff d) s = .next ((({ s with inj := { s.inj with arm := none } } : State).wroteS d
    (if s.inj.arm.isSome then 1 else 0)).past 8) := by
  refine instr_ok ?_
  simp only [M.bind_run, M.names_run (resident_of_subset hr (ts := [(10, d)]) (by simp)), level_ok hp, M.get_run, M.modS_run, M.wrS_run]
include ha hb
theorem exec_injArm (h : armOk (s.me.s a) (s.me.s b) = true) : exec (.injArm d a b) s =
    .next ((({ s with inj := { s.inj with arm := some ((s.me.s b).toNat % 4, (s.me.s b).toNat / 4 % 4, s.me.s a) } } : State).wroteS d
      (if s.inj.arm.isSome then 1 else 0)).past 8) := by
  refine instr_ok ?_
  simp only [M.bind_run, M.names_run hr, level_ok hp, M.rdS_run ha, M.rdS_run hb, M.get_run, h, if_true, M.modS_run, M.wrS_run]
theorem exec_injArm_refused (h : armOk (s.me.s a) (s.me.s b) = false) :
    exec (.injArm d a b) s = .next ((s.wroteS d 2).past 8) := by
  refine instr_ok ?_
  simp only [M.bind_run, M.names_run hr, level_ok hp, M.rdS_run ha, M.rdS_run hb, M.get_run, h, Bool.false_eq_true, if_false, M.wrS_run]
end
end

/-- Settles O53: software traps and `rett`, window spills and fills, services, TLB instructions and the injector. -/
theorem trapsAndServices : Obligations.TrapsAndServices :=
  ⟨fun s _ imm _ hr ha enter henter => by
      subst henter
      refine ⟨exec_trap false imm s, exec_trap true imm s, exec_trapReg hr ha, exec_trapReg hr ha, fun hbusy hvec code _ => ?_⟩
      exact enterTrap_me hbusy hvec,
    fun _ => ⟨exec_rett_unprivileged, exec_rett⟩,
    fun _ => ⟨fun h => ⟨exec_wspill_unprivileged h, exec_wfill_unprivileged h⟩, exec_wspill_illegal, exec_wfill_illegal,
      fun _ hp => exec_wspill hp, fun _ _ hp => exec_wfill hp⟩,
    fun s d a imm hr => ⟨exec_ecall_traps hr, exec_ecall_unknown hr, exec_ecall_unprivileged hr,
      fun h40 h47 hp ha => ⟨fun hfree => ⟨_, _, exec_ecall_asks hr h40 h47 hp ha hfree, by rw [post_me, State.me_modMe]; rfl,
          by rw [post_me, State.me_modMe]; rfl, rfl⟩,
        fun _ _ _ => exec_ecall_answered hr h40 h47 hp ha⟩,
      fun _ => exec_ecallReg hr⟩,
    fun s a b c hr ha hb hc => ⟨fun h2 h3 => exec_tlbw_unprivileged hr (not_two_le h2 h3), fun hp k hk => by
      subst hk
      exact ⟨fun h => exec_tlbw hr ha hb hp (tlbwM_inserts h rfl), fun h hk => exec_tlbwRm hr ha hb hp hc (tlbwM_inserts h hk),
        fun h => exec_tlbw hr ha hb hp (tlbwM_refused (.inl h)), fun h => exec_tlbwRm hr ha hb hp hc (tlbwM_refused (.inr h))⟩⟩,
    fun s u r a hr ha hu => ⟨fun hp h => instr_ok ((tlbiAll_run hp).trans (tlbiM_drops hu h)),
      fun hp h => instr_stay ((tlbiAll_run hp).trans (tlbiM_waits hu h)),
      fun hp h => exec_tlbiVa hr ha hp (tlbiM_drops hu h), fun hp h => exec_tlbiTn hr ha hp (tlbiM_drops hu h),
      fun hp => ⟨instr_unprivileged (level_then (priv0 hp)), instr_unprivileged (names_level_then hr (priv0 hp))⟩⟩,
    dropTlb_core,
    fun s d a b hr ha hb => ⟨fun hp => ⟨instr_unprivileged (names_level_then hr hp),
        instr_unprivileged (names_level_then (resident_of_subset hr (by simp)) hp)⟩,
      fun hp => ⟨exec_injArm hr ha hb hp, exec_injArm_refused hr ha hb hp, exec_injOff hr hp⟩⟩⟩

end Sys2Proof.Machine

/-! ## Steps that the schedule performs for the units of a core: matrix unit, porters, criers, counters (R179 to R218) -/
namespace Sys2Proof.Machine

/-- A step that runs its event performs the event's effect: an event that is at hand and well formed needs no more. -/
theorem happens_of {i : Instr} {e : Event} {f : State → State} {x : State → Res} {g : Event → State → State}
    (hx : ∀ s, x s = runEvent i s g) (hw : e.wf = true) (hexec : exec i = x := by rfl) (hi : e.instr = i := by rfl)
    (hf : ∀ s, g e s = f s := by exact fun _ => rfl) : Happens i e f :=
  fun s he => (congrFun hexec s).trans ((hx s).trans ((runEvent_run he hi hw).trans (congrArg _ (hf _))))
theorem wf_core {core : Nat} (h : core < 2048) : decide (core < 2048) = true := decide_eq_true h
theorem wf_and {p q : Bool} (hp : p = true) (hq : q = true) : (p && q) = true := by rw [hp, hq]; rfl
theorem wf_ctx {core ctx : Nat} (h1 : core < 2048) (h2 : ctx < 11) : (decide (core < 2048) && decide (ctx < 11)) = true :=
  wf_and (wf_core h1) (decide_eq_true h2)
theorem wf_queue {core q : Nat} (h1 : core < 2048) (h2 : q < 4) : (decide (core < 2048) && decide (q < 4)) = true :=
  wf_and (wf_core h1) (decide_eq_true h2)

/-! ### The retire of an `mma` -/

theorem finishMma_ready (s : State) (core : Nat) (m : Mma) (a b : Operand) (err : CellError) (found : Checked) :
    ((s.finishMma core m a b err found).ctx core m.ctx).status = .ready ∧
      ((s.finishMma core m a b err found).ctx core m.ctx).pc = m.pc + 16 := by
  unfold State.finishMma
  dsimp only
  rw [State.ctx_modCtx]
  exact ⟨rfl, rfl⟩
/-- What the check stage found decides how the running `mma` ends. -/
theorem retireMma_ends {s : State} {core : Nat} {m : Mma} {a b : Operand} (hrun : (s.core core).mmaRunning = some m)
    (hop : m.operands = some (a, b)) :
    match checkSums m.f ((m.op.toNat - 0xD0) / 2) a b (bitsOn m.rows) (bitsOn m.cols) (s.cellError core) (s.pathError core) with
    | .fail record => s.retireMma core =
        ((if s.cellsHit core then s.ticked else s).modCore core fun c => c.emptyKeep (m.op.toNat % 2)).mmaTrap core m 0x10 record false
    | _ => ((s.retireMma core).ctx core m.ctx).status = .ready ∧ ((s.retireMma core).ctx core m.ctx).pc = m.pc + 16 := by
  unfold State.retireMma
  simp only [hrun, hop]
  cases checkSums m.f ((m.op.toNat - 0xD0) / 2) a b (bitsOn m.rows) (bitsOn m.cols) (s.cellError core) (s.pathError core) with
  | fail record => rfl
  | pass => exact finishMma_ready ..
  | correct i j => exact finishMma_ready ..
  | path => exact finishMma_ready ..

/-! ### The claim of a tile line -/

/-- What a step keeps of the bytes, of the map of a core's tiles and of the lists of accesses that wait on lines. -/
def KeepsTiles (core : Nat) (s t : State) : Prop :=
  SameBytes s t ∧ (t.group core).gmap = (s.group core).gmap ∧ ∀ k, (t.core k).waiters = (s.core k).waiters
theorem KeepsTiles.trans {core : Nat} {s t u : State} (h : KeepsTiles core s t) (h' : KeepsTiles core t u) : KeepsTiles core s u := by
  obtain ⟨hb, hg, hw⟩ := h
  obtain ⟨hb', hg', hw'⟩ := h'
  exact ⟨fun k => (hb' k).trans (hb k), hg'.trans hg, fun k => (hw' k).trans (hw k)⟩
theorem keepsTiles_modCtx (s : State) (core c : Nat) (f : Ctx → Ctx) : KeepsTiles core s (s.modCtx core c f) := by
  refine ⟨fun _ => rfl, ?_, fun k => ?_⟩
  · unfold State.modCtx
    rw [State.group_modGroup]
    rfl
  · unfold State.modCtx State.modGroup
    by_cases h : k = core
    · subst h; rw [State.core_modCore]
    · rw [State.core_modCore_other _ _ h]
/-- Marking changes the marks of the storage only. -/
theorem keepsTiles_markParts (core : Nat) (a : Actor) (write plain : Bool) (ps : List Part) (s : State) :
    KeepsTiles core s (s.markParts a write plain ps) := by
  unfold State.markParts
  induction ps generalizing s with
  | nil => exact ⟨fun _ => rfl, rfl, fun _ => rfl⟩
  | cons p ps ih =>
    rw [List.foldl_cons]
    split
    · split
      · exact .trans ⟨fun _ => rfl, rfl, fun _ => rfl⟩ (ih _)
      · exact ih s
    · exact ih s
theorem keepsTiles_claimMarks (s : State) (core : Nat) (m : Mma) : KeepsTiles core s (s.claimMarks core m).1 := by
  unfold State.claimMarks
  dsimp only
  split
  · exact keepsTiles_modCtx ..
  · exact ((keepsTiles_modCtx ..).trans (keepsTiles_markParts ..)).trans (keepsTiles_modCtx ..)
/-- Setting the state of a line that nothing waits on changes that bit only. -/
theorem setLineState_calm {s : State} {k : Nat} (empty : Bool) (hw : (s.core (coreOfKey k)).waiters = []) :
    s.setLineState k empty = { s with store := s.store.setEmpty k empty } := by
  have hwaiters : (({ s with store := s.store.setEmpty k empty } : State).core (coreOfKey k)).waiters = [] := hw
  unfold State.setLineState
  dsimp only
  rw [hwaiters]
  rfl
theorem claimLine_empties {s : State} {core : Nat} {m : Mma} (hfind : (s.core core).mmas.find? (fun x => x.ctx == m.ctx) = some m)
    (hcan : s.canClaim core m = true) (hn : m.claimed < 127) (hcalm : (s.claimMarks core m).2 = none)
    (hw : (s.core (coreOfKey (s.tileKey core m.tile m.claimed))).waiters = []) :
    (s.claimLine core m.ctx).store.isEmpty (s.tileKey core m.tile m.claimed) = true ∧ SameBytes s (s.claimLine core m.ctx) := by
  obtain ⟨hbytes, hgmap, hwaiters⟩ := keepsTiles_claimMarks s core m
  have hkey : (s.claimMarks core m).1.tileKey core m.tile m.claimed = s.tileKey core m.tile m.claimed := by
    unfold State.tileKey
    rw [hgmap]
  unfold State.claimLine
  simp only [hfind, hcan, if_true, hcalm, hkey, setLineState_calm true ((hwaiters _).trans hw),
    if_pos (show m.claimed + 1 < 128 by omega)]
  exact ⟨Cells.get_set_self _ _ _ _, hbytes⟩
theorem canClaim_empty {s : State} {core : Nat} {m : Mma} (h : s.store.isEmpty (s.tileKey core m.tile m.claimed) = true) :
    s.canClaim core m = false := by
  simp only [State.canClaim, h, Bool.not_true, Bool.and_false, Bool.false_and]

/-! ### The increment of a counter -/

/-- An increment of a current generation that nothing acknowledges, for the launch that is bound to its core. -/
theorem arriveIncrement_bound {s : State} {i : CtrInc} (hack : i.ack = none) (hbound : (s.group i.core).launch ≠ 0)
    (hl : i.launch = 0 ∨ i.launch = (s.group i.core).launch)
    (hfresh : i.tenant = 0 ∨ s.stale ((i.rel.map fun (r : Rel) => r.panel).getD s.myPanel) i.tenant i.tgen = false) :
    s.arriveIncrement i = if (s.group i.core).cmask.getLsbD i.ctr.toNat then s.modGroup i.core fun g => g.increment i.ctr i.delta i.rel else s := by
  have hlaunch : (if i.launch = 0 then (s.group i.core).launch else i.launch) = (s.group i.core).launch := by
    rcases hl with h | h <;> simp [h]
  have hstale : (decide (i.tenant ≠ 0) && s.stale ((i.rel.map fun (r : Rel) => r.panel).getD s.myPanel) i.tenant i.tgen) = false := by
    rcases hfresh with h | h <;> simp [h]
  unfold State.arriveIncrement
  dsimp only
  rw [hstale, hlaunch, if_neg Bool.false_ne_true, if_neg hbound, launchGroup_bound s _ _ rfl, modLaunchGroup_bound s _ _ _ rfl]
  simp only [State.ackIncrement, hack]

/-- Settles O54: each step of the matrix unit, the porters, the chains and the criers performs its event's effect; an `mma` ends as its
checks found; a claim empties its line; an increment adds to a counter that the launch holds. -/
theorem unitEvents : Obligations.UnitEvents :=
  ⟨fun _ _ h1 h2 => happens_of execMmaClaimLine.eq_1 (wf_ctx h1 h2),
    fun _ h => ⟨happens_of execMmaStart.eq_1 (wf_core h), happens_of execMmaRetire.eq_1 (wf_core h),
      happens_of execCrierFire.eq_1 (wf_core h)⟩,
    fun _ _ h1 h2 => ⟨happens_of execPorterCommandStart.eq_1 (wf_queue h1 h2),
      happens_of execPorterCommandComplete.eq_1 (wf_queue h1 h2), happens_of execChainRecordRead.eq_1 (wf_queue h1 h2)⟩,
    fun _ => ⟨happens_of execFiredPorterCommand.eq_1 rfl, happens_of execFiredRemoteAtomic.eq_1 rfl,
      happens_of execFiredCounterAdd.eq_1 rfl, happens_of execFiredDeposit.eq_1 rfl, happens_of execFiredStart.eq_1 rfl,
      happens_of execFiredSpawn.eq_1 rfl, happens_of execFiredChannelSend.eq_1 rfl⟩,
    fun _ => happens_of execCounterIncrement.eq_1 rfl,
    fun _ _ _ _ _ => retireMma_ends,
    fun _ _ _ => claimLine_empties,
    fun _ _ _ => canClaim_empty,
    fun s i hack hbound hl hfresh => by
      rw [arriveIncrement_bound hack hbound hl hfresh]
      refine ⟨fun hmask => ?_, fun hmask => by rw [hmask]; rfl⟩
      rw [if_pos hmask, State.group_modGroup]
      exact ⟨fun k => by rw [increment_kval]; by_cases h : k = i.ctr <;> simp [h], fun k hk => State.core_modCore_other _ _ hk, fun _ => rfl⟩⟩

end Sys2Proof.Machine

/-! ## Steps that the schedule performs for contexts, groups, tasks, page walks and services (R34 to R47, R272 to R288) -/
namespace Sys2Proof.Machine

/-- A barrier that gathers nothing completes: the next epoch, without arrivals, with their releases. -/
theorem barrier_calm {s : State} {launch d : Nat} (h : ((s.launch launch).bar d).gather = none) :
    s.barrier launch d = some (s.modBar launch d fun b =>
      { b with epoch := b.epoch + 1, arrived := [], rels := [], sums := [], gather := none, done := b.rels }) := by
  unfold State.barrier
  simp only [h, Option.map_some]
theorem barrier_completes {s t : State} {launch d : Nat} (hb : s.barrier launch d = some t)
    (h : ((s.launch launch).bar d).gather = none) :
    ((t.launch launch).bar d).epoch = ((s.launch launch).bar d).epoch + 1 ∧ ((t.launch launch).bar d).arrived = [] ∧
      ((t.launch launch).bar d).done = ((s.launch launch).bar d).rels ∧ t.cores = s.cores := by
  rw [barrier_calm h] at hb
  obtain rfl := Option.some.inj hb
  rw [bar_modBar]
  exact ⟨rfl, rfl, rfl, rfl⟩

/-- Settles O55: each step of contexts, groups, barriers, tasks, page walks and services performs its event's effect; a completed
barrier advances its epoch. -/
theorem contextEvents : Obligations.ContextEvents :=
  ⟨fun _ _ h1 h2 => ⟨happens_of execTrapReport.eq_1 (wf_ctx h1 h2), happens_of execContextReady.eq_1 (wf_ctx h1 h2),
      happens_of execFollowLagLimit.eq_1 (wf_ctx h1 h2)⟩,
    fun _ _ => ⟨happens_of execIllegalInstructionFetch.eq_1 rfl, fun _ => happens_of execResultAvailable.eq_1 rfl⟩,
    fun _ h => happens_of execGroupRetire.eq_1 (wf_core h),
    fun _ _ => happens_of execBarrierComplete.eq_1 rfl,
    fun _ _ _ => ⟨happens_of execTaskDispatch.eq_1 rfl, happens_of execSlotLend.eq_1 rfl⟩,
    fun _ _ => ⟨happens_of execTaskStart.eq_1 rfl, happens_of execTaskUnpin.eq_1 rfl⟩,
    fun _ _ => happens_of execPageFaultWake.eq_1 rfl,
    fun _ => ⟨happens_of execPageWalk.eq_1 rfl, fun _ => happens_of execWalkResult.eq_1 rfl⟩,
    fun _ _ _ => ⟨happens_of execPageResolve.eq_1 rfl, happens_of execPageFail.eq_1 rfl, happens_of execDomainSwitch.eq_1 rfl,
      happens_of execMeterRecordService.eq_1 rfl, happens_of execCollectiveBuild.eq_1 rfl, happens_of execCollectiveRelease.eq_1 rfl,
      happens_of execHandlerTableInstall.eq_1 rfl⟩,
    fun _ _ _ => happens_of execCollectiveShrink.eq_1 rfl,
    happens_of execReplayMarkRemoval.eq_1 rfl,
    fun _ _ _ _ => barrier_completes⟩

end Sys2Proof.Machine

/-! ## Deposits, wakes, spawns and channel elements as they arrive (R39, R40, R56, R59, R63 to R66) -/
namespace Sys2Proof.Machine

theorem deposit_vreg (c : Ctx) (r : VReg) (v : Line) (rel : Rel) : (c.deposit r v rel).vreg r = v :=
  Cells.get_set_self _ _ _ _
theorem deposit_not_held (c : Ctx) (r : VReg) (v : Line) (rel : Rel) : (c.deposit r v rel).held r = false := by
  have hr : r.toNat < 32 := r.isLt
  simp [Ctx.deposit, Ctx.held]
/-- A deposit of a current generation for a live name goes to the group that is bound to the name's core. -/
theorem arriveDeposit_named {s : State} {m : Deposit} {core launch : Nat} (hfresh : s.stale m.rel.panel m.tenant m.tgen = false)
    (hname : s.nameOwner m.name m.tenant = some (core, launch)) (hbound : (s.group core).launch = launch) :
    s.arriveDeposit m = if (s.group core).liveCtx m.ctx && (s.ctx core m.ctx).held m.reg
      then s.modCtx core m.ctx fun c => c.deposit m.reg m.val m.rel
      else s.toPanel m.rel.panel (.depositNack ⟨m.src, m.kc, 7⟩) := by
  unfold State.arriveDeposit
  rw [hfresh, if_neg Bool.false_ne_true, hname]
  dsimp only
  unfold State.depositAt
  rw [launchGroup_bound s _ _ hbound, modLaunchGroup_bound s _ _ _ hbound]
  rfl
theorem arriveDeposit_unnamed {s : State} {m : Deposit} (hfresh : s.stale m.rel.panel m.tenant m.tgen = false)
    (hname : s.nameOwner m.name m.tenant = none) :
    s.arriveDeposit m = s.toPanel m.rel.panel (.depositNack ⟨m.src, m.kc, 8⟩) := by
  unfold State.arriveDeposit
  rw [hfresh, if_neg Bool.false_ne_true, hname]
theorem arriveWake_token {s : State} {m : Wake} {core launch : Nat} (hctx : m.ctx < 11)
    (hfresh : s.stale m.rel.panel m.tenant m.tgen = false) (hname : s.nameOwner m.name m.tenant = some (core, launch))
    (hbound : (s.group core).launch = launch) : ((s.arriveWake m).ctx core m.ctx).token = true := by
  unfold State.arriveWake
  rw [hfresh, if_neg Bool.false_ne_true, if_pos hctx, hname]
  dsimp only
  rw [modLaunchGroup_bound s _ _ _ hbound]
  unfold State.ctx
  rw [State.group_modGroup, Group.ctx_modCtx]
  by_cases htoken : ((s.group core).ctx m.ctx).token = true
  · rw [if_pos htoken, htoken]
  · rw [if_neg htoken]
theorem takeSpawn_full {s : State} {m : Spawn} {core launch : Nat} (hname : s.nameOwner m.name m.tenant = some (core, launch))
    (hfull : (s.group core).freeSlot = none) : s.takeSpawn m = (s, .refused) := by
  simp only [State.takeSpawn, hname, hfull, Option.isSome_none, Bool.and_false, Bool.false_eq_true, if_false]

/-- Settles O56: each arrival performs its effect; a deposit fills a held register of a live context and another is refused, a wake
sets the token, a spawn without a free slot is refused. -/
theorem messageEvents : Obligations.MessageEvents :=
  ⟨fun _ => happens_of execDepositArrival.eq_1 rfl,
    fun _ => happens_of execDepositNack.eq_1 rfl,
    fun _ => happens_of execWakeArrival.eq_1 rfl,
    fun _ => happens_of execSpawnRequest.eq_1 rfl,
    fun _ => happens_of execSpawnReply.eq_1 rfl,
    fun _ => happens_of execChannelElementArrival.eq_1 rfl,
    fun _ => happens_of execDrainMarkerAck.eq_1 rfl,
    fun s m core launch hfresh hname hbound => by
      rw [arriveDeposit_named hfresh hname hbound]
      refine ⟨fun hlive hheld => ?_, fun h => if_neg ?_⟩
      · rw [if_pos (by rw [hlive, hheld]; rfl), State.ctx_modCtx]
        exact ⟨deposit_vreg .., deposit_not_held .., rfl, fun _ => rfl⟩
      · rcases h with h | h <;> simp [h],
    fun _ _ => arriveDeposit_unnamed,
    fun _ _ _ _ => arriveWake_token,
    fun _ _ _ _ => takeSpawn_full⟩

end Sys2Proof.Machine

/-! ## Memory requests, replies, retries and coherence as they arrive (R114 to R133, R231 to R250, R266) -/
namespace Sys2Proof.Machine

/-- A value found in a mapped list is the image of a listed one. -/
theorem findCell_map {α : Type} (f : α → α) (l : List (Nat × α)) (k : Nat) :
    findCell (l.map fun p => (p.1, f p.2)) k = (findCell l k).map f := by
  induction l with
  | nil => rfl
  | cons p l ih =>
    obtain ⟨j, v⟩ := p
    simp only [List.map_cons, findCell]
    split
    · rfl
    · exact ih
theorem noEpochs_ctx (g : Group) (i : Nat) : (g.noEpochs.ctx i).acquireEpoch = 0 := by
  unfold Group.ctx Group.noEpochs Cells.get
  dsimp only
  rw [findCell_map fun c : Ctx => ({ c with acquireEpoch := 0 } : Ctx)]
  cases findCell g.ctxs.list i <;> rfl
theorem request_stale {s : State} {m : MemMsg} (h : s.stale m.actor.panel m.actor.tenant m.actor.tgen = true) :
    s.request m = (s.bump .dropped).toPanel m.actor.panel (.dropNotice m.actor.who.core) := by
  unfold State.request
  rw [h, if_pos rfl]
theorem retryList_room {s : State} {k : Nat} (m : SyncMsg) (h : (s.core (coreOfKey k)).retries < 64) :
    s.retryList k m = s.modCore (coreOfKey k) fun c => { c with waiters := c.waiters ++ [⟨k, false, m⟩] } := if_pos h
theorem retryList_full {s : State} {k : Nat} (m : SyncMsg) (h : 64 ≤ (s.core (coreOfKey k)).retries) :
    s.retryList k m = s.toPanel m.actor.panel (.accessNack m) := if_neg (by omega)
theorem proxyOk_iff (p : Proxy) (strong write : Bool) : proxyOk p strong write = true ↔
    p = .m ∨ (p = .e ∧ write = false) ∨ ((p = .s ∨ p = .o) ∧ strong = false) := by
  cases p <;> simp [proxyOk]

/-- Settles O57: each step of memory requests, replies, retries and coherence performs its event's effect; stale requests are dropped,
a retry list takes 64 entries, and a proxy state allows what R247 says. -/
theorem memoryEvents : Obligations.MemoryEvents :=
  ⟨fun _ => ⟨happens_of execMemoryRequest.eq_1 rfl, happens_of execAbsentAnswer.eq_1 rfl, happens_of execReplayCompletion.eq_1 rfl,
      happens_of execUnreachableReturn.eq_1 rfl⟩,
    fun _ => happens_of execHbmCompletion.eq_1 rfl,
    fun _ => ⟨happens_of execRemoteSyncAccess.eq_1 rfl, happens_of execAccessNack.eq_1 rfl⟩,
    fun _ => happens_of execRetryBackoffExpiry.eq_1 rfl,
    fun _ _ => happens_of execSyncCancel.eq_1 rfl,
    fun _ => happens_of execReplyData.eq_1 rfl,
    fun _ => ⟨happens_of execDropNotice.eq_1 rfl, happens_of execL1EpochWrap.eq_1 rfl⟩,
    fun _ => happens_of execReservationTimeout.eq_1 rfl,
    fun _ => happens_of execHopLimitDrop.eq_1 rfl,
    fun _ _ => ⟨happens_of execReadShared.eq_1 rfl, happens_of execReadExclusive.eq_1 rfl,
      fun _ => happens_of execHomePanelRequest.eq_1 rfl, fun _ _ _ _ => happens_of execOwnerWriteBack.eq_1 rfl,
      fun _ => happens_of execGrantAck.eq_1 rfl, fun _ _ => happens_of execCoherenceForward.eq_1 rfl,
      happens_of execInvalidation.eq_1 rfl⟩,
    fun c => ⟨rfl, noEpochs_ctx c.group⟩,
    fun _ _ => request_stale,
    fun s k m => ⟨fun h => by
        rw [retryList_room m h, State.core_modCore]
        exact ⟨rfl, fun _ => rfl⟩,
      retryList_full m⟩,
    proxyOk_iff⟩

end Sys2Proof.Machine

/-! ## Links, clocks, supply and errors (R232, R239 to R246, R290 to R302) -/
namespace Sys2Proof.Machine

theorem wf_clock {chip mhz : Nat} (h1 : chip < 256) (h2 : 650 ≤ mhz) (h3 : mhz ≤ 2080) (h4 : mhz % 65 = 0) :
    (Event.clockChange chip mhz).wf = true := by
  simp [Event.wf, h1, h2, h3, h4]
theorem poisonAt_poisoned (s : State) (k : Nat) : (State.poisonAt k s).store.poisoned k = true := Cells.get_set_self _ _ _ _

/-- Settles O58: each step of links, clocks, supply and errors performs its event's effect; an uncorrectable error poisons its unit and
changes no byte. -/
theorem linkAndClockEvents : Obligations.LinkAndClockEvents :=
  ⟨fun _ _ => happens_of execMeshReplayRequest.eq_1 rfl,
    fun _ _ => happens_of execLinkDataFlit.eq_1 rfl,
    fun _ => ⟨fun _ => happens_of execLinkIdleFlit.eq_1 rfl, fun _ => happens_of execLinkReplayRequest.eq_1 rfl,
      happens_of execLinkRekeyMark.eq_1 rfl, happens_of execRekey.eq_1 rfl, happens_of execAuthFailureLimit.eq_1 rfl,
      happens_of execLinkFailure.eq_1 rfl⟩,
    fun _ _ _ _ => happens_of execAllowanceReturn.eq_1 rfl,
    fun _ _ h1 h2 h3 h4 => happens_of execClockChange.eq_1 (wf_clock h1 h2 h3 h4),
    fun _ => ⟨happens_of execSupplySagTrip.eq_1 rfl, happens_of execSupplySagClear.eq_1 rfl⟩,
    fun _ => happens_of execUncorrectableError.eq_1 rfl,
    fun _ _ => happens_of execUncorrectableError.eq_1 rfl,
    fun _ _ => happens_of execUncorrectableError.eq_1 rfl,
    fun _ _ => happens_of execUncorrectableError.eq_1 rfl,
    fun _ _ => happens_of execUncorrectableError.eq_1 rfl,
    fun s k _ => ⟨poisonAt_poisoned s k, fun _ => rfl⟩⟩

end Sys2Proof.Machine

/-! ## Requests of the host (R303 to R310) -/
namespace Sys2Proof.Machine

theorem serveHost_bad_quadrant {s : State} {r : HostReq} (op : Nat) (f : State → State × HostAns) (h : 3 < r.quadrant) :
    s.serveHost r op f = s.sendHost r (doneBytes r 1 0 0 []) := if_pos h
theorem serveHost_no_session {s : State} {r : HostReq} (op : Nat) (f : State → State × HostAns) (h : r.quadrant ≤ 3)
    (hnone : s.sessionOf r = none) : s.serveHost r op f = s.bump .sessionDrop := by
  unfold State.serveHost
  rw [if_neg (by omega), hnone]

/-- Settles O59: each host request performs its effect; a bad quadrant, a request outside a session and an unregistered tenant are
answered as R307 and R309 say. -/
theorem hostEvents : Obligations.HostEvents :=
  ⟨fun _ => ⟨happens_of execHostOpenSession.eq_1 rfl, happens_of execHostIdentity.eq_1 rfl, happens_of execHostBadRequest.eq_1 rfl,
      happens_of execHostNotify.eq_1 rfl, happens_of execHostRegisterTenant.eq_1 rfl, happens_of execHostDeregisterTenant.eq_1 rfl,
      happens_of execHostResetTenant.eq_1 rfl, happens_of execHostMeterRecord.eq_1 rfl, happens_of execHostLaunchStatus.eq_1 rfl,
      happens_of execHostSubmitLaunch.eq_1 rfl, happens_of execHostWrite.eq_1 rfl, happens_of execHostRead.eq_1 rfl,
      happens_of execHostLoadContainer.eq_1 rfl, happens_of execHostRecablePod.eq_1 rfl, happens_of execHostCloseSession.eq_1 rfl⟩,
    fun _ _ op f => ⟨serveHost_bad_quadrant op f, serveHost_no_session op f⟩,
    fun _ _ _ => ⟨fun h => if_neg (by rw [h]; exact Bool.false_ne_true), fun h => if_pos h⟩⟩

end Sys2Proof.Machine

/-! ## Boot, slot actions and the management cores (R19 to R26, R115, R126, R255 to R265, R295) -/
namespace Sys2Proof.Machine

section
variable {s : State} {chip row action : Nat} {ok : BitVec 256 → Bool} {f : BitVec 256 → State → State}
  (hvalid : (s.row chip row).getLsbD 255 = true) (haction : recAction (s.row chip row) = action)
include hvalid haction

theorem act_core_down (hup : s.coreUp chip row = false) : s.act chip row action ok f = s.endAction chip row 2 := by
  simp [State.act, hvalid, haction, hup]
theorem act_refused (hup : s.coreUp chip row = true) (hok : ok (s.row chip row) = false) :
    s.act chip row action ok f = s.endAction chip row 1 := by
  simp [State.act, hvalid, haction, hup, hok]
theorem act_done (hup : s.coreUp chip row = true) (hok : ok (s.row chip row) = true) :
    s.act chip row action ok f = (f (s.row chip row) s).endAction chip row 0 := by
  simp [State.act, hvalid, haction, hup, hok]
end

/-- Settles O60: each step of boot, the slot actions and the management cores performs its event's effect; an action ends with the
status that its conditions give. -/
theorem managementEvents : Obligations.ManagementEvents :=
  ⟨happens_of execBoot.eq_1 rfl,
    fun _ => happens_of execRecoveryImage.eq_1 rfl,
    fun _ _ => happens_of execContainerForward.eq_1 rfl,
    fun chip row core h hcore => by
      subst hcore
      exact ⟨happens_of execSlotBind.eq_1 h, happens_of execSlotSave.eq_1 h, happens_of execSaveWritePhase.eq_1 h,
        happens_of execSlotResume.eq_1 h, happens_of execSlotEvictPartition.eq_1 h, happens_of execSlotResetStop.eq_1 h,
        happens_of execSlotRetire.eq_1 h⟩,
    fun _ _ h => happens_of execSmapWrite.eq_1 (decide_eq_true h),
    fun _ _ h => happens_of execArrWrite.eq_1 (decide_eq_true h),
    fun _ _ _ h1 h2 => happens_of execVownWrite.eq_1 (wf_and (decide_eq_true h1) (decide_eq_true h2)),
    fun _ => happens_of execInjctlWrite.eq_1 rfl,
    fun _ => happens_of execInjseedWrite.eq_1 rfl,
    fun _ _ => happens_of execMgmtRegisterWrite.eq_1 rfl,
    fun _ => happens_of execRemapChange.eq_1 rfl,
    fun _ _ _ _ => happens_of execContainment.eq_1 rfl,
    fun _ => ⟨happens_of execMigration.eq_1 rfl, happens_of execStubRetire.eq_1 rfl⟩,
    happens_of execQuantumBoundary.eq_1 rfl,
    happens_of execSchedulingWindowEnd.eq_1 rfl,
    fun _ _ _ _ _ _ => ⟨act_core_down, act_refused, act_done⟩,
    fun s => poke_phase ..⟩

end Sys2Proof.Machine

/-! ## What keeps the canonical form of the storage -/
namespace Sys2Proof.Machine

section
variable {σ ε α β : Type} {P : σ → Prop} {Q : ε → Prop}

/-- A computation keeps a property of its state, and what it stops with has one of its own. -/
structure Keeps (P : σ → Prop) (Q : ε → Prop) (m : StateT σ (Except ε) α) : Prop where
  run : ∀ s, P s → match m s with
    | .ok (_, t) => P t
    | .error e => Q e
theorem keeps_bind {m : StateT σ (Except ε) α} {f : α → StateT σ (Except ε) β} (hm : Keeps P Q m) (hf : ∀ a, Keeps P Q (f a)) :
    Keeps P Q (m >>= f) := by
  refine ⟨fun s h => ?_⟩
  have hms := hm.run s h
  have hbind : (m >>= f) s = m s >>= fun p => f p.1 p.2 := rfl
  rw [hbind]
  cases hrun : m s with
  | error e => rw [hrun] at hms; exact hms
  | ok p => rw [hrun] at hms; exact (hf p.1).run p.2 hms
theorem Keeps.ok {m : StateT σ (Except ε) α} (hm : Keeps P Q m) {s t : σ} {a : α} (h : P s) (hrun : m s = .ok (a, t)) : P t := by
  have hms := hm.run s h
  rw [hrun] at hms
  exact hms
/-- What reads the state first may use that the property holds of what it read. -/
theorem keeps_get_bind {f : σ → StateT σ (Except ε) β} (hf : ∀ s, P s → Keeps P Q (f s)) : Keeps P Q (get >>= f) :=
  ⟨fun s h => (hf s h).run s h⟩
theorem keeps_ite {c : Prop} [Decidable c] {m n : StateT σ (Except ε) α} (hm : Keeps P Q m) (hn : Keeps P Q n) :
    Keeps P Q (if c then m else n) := by
  split <;> assumption
theorem keeps_get : Keeps P Q (get : StateT σ (Except ε) σ) := ⟨fun _ h => h⟩
theorem keeps_pure (a : α) : Keeps P Q (pure a) := ⟨fun _ h => h⟩
theorem keeps_throw {e : ε} (h : Q e) : Keeps P Q (throw e : StateT σ (Except ε) α) := ⟨fun _ _ => h⟩
theorem keeps_tryCatch {m : StateT σ (Except ε) α} {f : ε → StateT σ (Except ε) α} (hm : Keeps P Q m) (hf : ∀ e, Q e → Keeps P Q (f e)) :
    Keeps P Q (tryCatch m f) := by
  refine ⟨fun s h => ?_⟩
  have hms := hm.run s h
  have hrun : (tryCatch m f : StateT σ (Except ε) α) s = tryCatch (m s) fun e => f e s := rfl
  rw [hrun]
  cases hmv : m s with
  | error e => rw [hmv] at hms; exact (hf e hms).run s h
  | ok p => rw [hmv] at hms; exact hms
theorem keeps_modify {f : σ → σ} (hf : ∀ s, P s → P (f s)) : Keeps P Q (modify f) := ⟨hf⟩
theorem keeps_set {t : σ} (h : P t) : Keeps P Q (set t) := ⟨fun _ _ => h⟩
theorem keeps_forM {f : α → StateT σ (Except ε) PUnit} (hf : ∀ a, Keeps P Q (f a)) (l : List α) : Keeps P Q (l.forM f) := by
  induction l with
  | nil => exact keeps_pure _
  | cons a l ih => exact keeps_bind (hf a) fun _ => ih
theorem keeps_mapM {f : α → StateT σ (Except ε) β} (hf : ∀ a, Keeps P Q (f a)) (l : List α) : Keeps P Q (l.mapM f) := by
  induction l with
  | nil => rw [List.mapM_nil]; exact keeps_pure _
  | cons a l ih =>
    rw [List.mapM_cons]
    exact keeps_bind (hf a) fun b => keeps_bind ih fun bs => keeps_pure (b :: bs)
end

/-- What a stop of an instruction makes of the state it began with keeps the storage canonical. -/
def Stop.memOk : Stop → Prop
  | .stay f => ∀ s : State, s.memOk → (f s).memOk
  | .trap _ _ _ => True
/-- The storage of the panel that an engine works on is canonical. -/
def Eng.memOk (g : Eng) : Prop := g.s.memOk
abbrev M.Keeps {α : Type} (m : M α) : Prop := Machine.Keeps State.memOk Stop.memOk m
/-- An engine that stops leaves the panel as it was (R200). -/
abbrev E.Keeps {α : Type} (m : E α) : Prop := Machine.Keeps Eng.memOk (fun _ => True) m
/-- The state that a step answers, where it answers one, has canonical storage. -/
def nextOk : Res → Prop
  | .next t => t.memOk
  | .fault _ => True
  | .refused _ => True

theorem memOk_iff (s : State) : s.memOk ↔ s.store.mem.wf = true := Iff.rfl
/-- What an engine that completes leaves of the panel it started on. -/
theorem eng_ok {α : Type} {m : E α} (hm : E.Keeps m) {s : State} {a : Actor} {run : Run} {x : α} {g : Eng} (h : s.memOk)
    (hrun : m ⟨s, a, run⟩ = .ok (x, g)) : g.s.memOk :=
  hm.ok (s := ⟨s, a, run⟩) h hrun
theorem foldl_memOk {α : Type} {f : State → α → State} {s : State} (hf : ∀ s x, s.memOk → (f s x).memOk) (h : s.memOk) (l : List α) :
    (l.foldl f s).memOk := by
  induction l generalizing s with
  | nil => exact h
  | cons x l ih => exact ih (hf s x h)
theorem foldl_fst_memOk {α β : Type} {f : State × β → α → State × β} {p : State × β} (hf : ∀ p x, p.1.memOk → (f p x).1.memOk)
    (h : p.1.memOk) (l : List α) : (l.foldl f p).1.memOk := by
  induction l generalizing p with
  | nil => exact h
  | cons x l ih => exact ih (hf p x h)
theorem foldl_wf {α : Type} {f : Store → α → Store} {st : Store} (hf : ∀ st x, st.mem.wf = true → (f st x).mem.wf = true)
    (h : st.mem.wf = true) (l : List α) : (l.foldl f st).mem.wf = true := by
  induction l generalizing st with
  | nil => exact h
  | cons x l ih => exact ih (hf st x h)

end Sys2Proof.Machine

/-! ## The canonical form: the state, its units and traps -/
namespace Sys2Proof.Machine

/-! ### Units -/
theorem setCore_memOk {s : State} (h : s.memOk) (n c) : (s.setCore n c).memOk := h
theorem modCore_memOk {s : State} (h : s.memOk) (n f) : (s.modCore n f).memOk := setCore_memOk h ..
theorem modGroup_memOk {s : State} (h : s.memOk) (n f) : (s.modGroup n f).memOk :=
  modCore_memOk h ..
theorem setCtx_memOk {s : State} (h : s.memOk) (n c x) : (s.setCtx n c x).memOk :=
  modGroup_memOk h ..
theorem modCtx_memOk {s : State} (h : s.memOk) (n c f) : (s.modCtx n c f).memOk :=
  modGroup_memOk h ..
theorem setMe_memOk {s : State} (h : s.memOk) (x) : (s.setMe x).memOk := setCtx_memOk h ..
theorem modMe_memOk {s : State} (h : s.memOk) (f) : (s.modMe f).memOk := setMe_memOk h ..
theorem modLaunch_memOk {s : State} (h : s.memOk) (n f) : (s.modLaunch n f).memOk := h
theorem modTenant_memOk {s : State} (h : s.memOk) (n f) : (s.modTenant n f).memOk := h
theorem meter_memOk {s : State} (h : s.memOk) (tenant i n) : (s.meter tenant i n).memOk :=
  modTenant_memOk h ..
theorem bump_memOk {s : State} (h : s.memOk) (k) : (s.bump k).memOk := h
theorem post_memOk {s : State} (h : s.memOk) (e) : (s.post e).memOk := h
theorem meterMesh_memOk {s : State} (h : s.memOk) (e) : (s.meterMesh e).memOk := by
  unfold State.meterMesh
  grind [meter_memOk]
theorem ticked_memOk {s : State} (h : s.memOk) : s.ticked.memOk := h

/-! ### The monad of a meaning -/
theorem trapM_keeps {α : Type} (code) (tval : Word) (mem : Bool) : M.Keeps (trapM code tval mem : M α) := keeps_throw trivial
theorem stayM_keeps {α : Type} {f : State → State} (hf : ∀ s, s.memOk → (f s).memOk) : M.Keeps (stayM f : M α) := keeps_throw hf
theorem spend_keeps {α : Type} : M.Keeps (spend : M α) := stayM_keeps fun _ h => h
theorem waitM_keeps {α : Type} (w) : M.Keeps (waitM w : M α) :=
  stayM_keeps fun _ h => modMe_memOk h ..
theorem modS_keeps {f : State → State} (hf : ∀ s, s.memOk → (f s).memOk) : M.Keeps (modS f) :=
  keeps_modify hf
theorem me_keeps : M.Keeps me := by
  unfold me
  grind [keeps_pure, keeps_get, keeps_bind, keeps_get_bind]
theorem modMe_keeps (f) : M.Keeps (modMe f) := keeps_modify fun _ h => modMe_memOk h ..
theorem myGroup_keeps : M.Keeps myGroup := by
  unfold myGroup
  grind [keeps_pure, keeps_get, keeps_bind, keeps_get_bind]
theorem modMyGroup_keeps (f) : M.Keeps (modMyGroup f) := keeps_modify fun _ h => modGroup_memOk h ..
theorem needM_keeps (c) (code) (tval : Word) : M.Keeps (needM c code tval) := by
  unfold needM
  grind [trapM_keeps, keeps_pure]

/-! ### Scalar registers (R50 to R53) -/
theorem illegal_keeps {α : Type} (sub bit op) : M.Keeps (illegal sub bit op : M α) := trapM_keeps ..
theorem names_keeps (op rs) : M.Keeps (names op rs) := by
  unfold names
  grind [illegal_keeps, keeps_pure, keeps_get, keeps_bind, keeps_get_bind]
theorem rdS_keeps (r) : M.Keeps (rdS r) := by
  unfold rdS
  grind [keeps_pure, spend_keeps, me_keeps, keeps_bind, keeps_get_bind]
theorem wrS_keeps (r v) : M.Keeps (wrS r v) := modMe_keeps ..
theorem wrSLate_keeps (r v) : M.Keeps (wrSLate r v) := modMe_keeps ..
theorem rdArgs_keeps (r) : M.Keeps (rdArgs r) := by
  unfold rdArgs
  grind [keeps_pure, rdS_keeps, keeps_bind, keeps_get_bind]

/-! ### Mask registers (R55) -/
theorem rdM_keeps (r) : M.Keeps (rdM r) := by
  unfold rdM
  grind [keeps_pure, me_keeps, keeps_bind, keeps_get_bind]
theorem wrM_keeps (r v) : M.Keeps (wrM r v) := modMe_keeps ..

/-! ### Events (R277) -/
theorem event_keeps (i n) : M.Keeps (event i n) := by
  unfold event
  grind [modMe_keeps, keeps_pure]
theorem addEv_memOk {s : State} (h : s.memOk) (core ctx i n) : (s.addEv core ctx i n).memOk :=
  modCtx_memOk h ..

/-! ### Happens-before (R134 to R138) -/
theorem myActor_keeps : M.Keeps myActor := by
  unfold myActor
  grind [keeps_pure, keeps_get, keeps_bind, keeps_get_bind]
theorem myRel_keeps (sc) : M.Keeps (myRel sc) := by
  unfold myRel
  grind [keeps_pure, keeps_get, myActor_keeps, keeps_bind, keeps_get_bind]
theorem acquire_keeps (sc rs) : M.Keeps (acquire sc rs) := by
  unfold acquire
  grind [modMe_keeps, keeps_get, keeps_bind, keeps_get_bind]
theorem observe_keeps (rs) : M.Keeps (observe rs) := modMe_keeps ..
theorem endRegion_keeps : M.Keeps endRegion := modMe_keeps ..
theorem fenceRel_keeps : M.Keeps fenceRel := by
  unfold fenceRel
  grind [keeps_pure, me_keeps, keeps_bind, keeps_get_bind]

/-! ### Pending reports and messages (R272) -/
theorem modLaunchGroup_memOk {s : State} (h : s.memOk) (core launch f) : (s.modLaunchGroup core launch f).memOk :=
  modCore_memOk h ..
theorem report_memOk {s : State} (h : s.memOk) (w r) : (s.report w r).memOk := by
  unfold State.report
  grind [modLaunchGroup_memOk, modLaunch_memOk]
theorem eventOf_memOk {s : State} (h : s.memOk) (w i n) : (s.eventOf w i n).memOk :=
  modLaunchGroup_memOk h ..

/-! ### Slot rows (R258, R259) -/
theorem writeRow_memOk {s : State} (h : s.memOk) (chip row v) : (s.writeRow chip row v).memOk := by
  unfold State.writeRow
  grind [memOk_iff, post_memOk]
theorem account_memOk {s : State} (h : s.memOk) (n) : (s.account n).memOk := by
  unfold State.account
  grind [modTenant_memOk, modLaunch_memOk]
theorem retire_memOk {s : State} (h : s.memOk) (n record) : (s.retire n record).memOk := by
  unfold State.retire
  grind [memOk_iff, modLaunch_memOk, writeRow_memOk, foldl_memOk, modTenant_memOk, account_memOk]
theorem retireWith_memOk {s : State} (h : s.memOk) (n status) : (s.retireWith n status).memOk :=
  retire_memOk h ..
theorem unrecoverable_memOk {s : State} (h : s.memOk) (n core) : (s.unrecoverable n core).memOk :=
  retire_memOk h ..

/-! ### Traps (R270 to R274) -/
theorem fatal_memOk {s : State} (h : s.memOk) (core ctx code epc tval) : (s.fatal core ctx code epc tval).memOk :=
  retire_memOk h ..
theorem enterTrap_memOk {s : State} (h : s.memOk) (core ctx code tval epc mem imp) : (s.enterTrap core ctx code tval epc mem imp).memOk
  := by
  unfold State.enterTrap
  grind [modCtx_memOk, fatal_memOk]

/-- Whatever an instruction does, its turn keeps the storage canonical: its effect, its stop or its trap. -/
theorem turn_memOk {s : State} (h : s.memOk) {m : M Unit} (hm : M.Keeps m) (len) : (s.turn len m).memOk := by
  have hrun := hm.run s h
  unfold State.turn
  cases hms : m s with
  | ok p => rw [hms] at hrun; exact hrun
  | error e =>
    rw [hms] at hrun
    cases e with
    | stay f => exact hrun s h
    | trap code tval mem => exact enterTrap_memOk h ..
theorem runInstr_nextOk {s : State} {m : M Unit} (hm : M.Keeps m) (h : s.memOk) (len) : nextOk (runInstr len m s) :=
  turn_memOk h hm len
theorem advance_keeps (len) : M.Keeps (advance len) := modMe_keeps ..
theorem jumpTo_keeps (target) : M.Keeps (jumpTo target) := modMe_keeps ..
theorem instr_nextOk {s : State} {m : M Unit} (hm : M.Keeps m) (h : s.memOk) (len) : nextOk (instr len m s) :=
  runInstr_nextOk (keeps_bind hm fun _ => advance_keeps len) h len
theorem level_keeps (l) : M.Keeps (level l) := by
  unfold level
  grind [needM_keeps, me_keeps, keeps_bind, keeps_get_bind]
theorem runEvent_nextOk {s : State} {f : Event → State → State} (hf : ∀ e s, s.memOk → (f e s).memOk) (h : s.memOk) (i) :
    nextOk (runEvent i s f) := by
  unfold runEvent
  split
  · exact h
  · split
    · split
      · exact hf _ _ (meterMesh_memOk (s := { s with event := none }) h _)
      · trivial
    · exact h

end Sys2Proof.Machine

/-! ## The canonical form: storage, loads and stores -/
namespace Sys2Proof.Machine

/-! ### Reading and writing storage -/
theorem setEmpty_wf {st : Store} (h : st.mem.wf = true) (k e) : (st.setEmpty k e).mem.wf = true := h
theorem setPoison_wf {st : Store} (h : st.mem.wf = true) (k p) : (st.setPoison k p).mem.wf = true :=
  h
theorem modSector_wf {st : Store} (h : st.mem.wf = true) (k f) : (st.modSector k f).mem.wf = true :=
  h
theorem setRels_wf {st : Store} (h : st.mem.wf = true) (k mask r) : (st.setRels k mask r).mem.wf = true := by
  unfold Store.setRels
  grind [foldl_memOk]
theorem setLineRel_wf {st : Store} (h : st.mem.wf = true) (k r) : (st.setLineRel k r).mem.wf = true :=
  h
theorem writeHome_memOk {s : State} (h : s.memOk) (k mask l r) : (s.writeHome k mask l r).memOk := writeHome_wf h k mask l r

/-! ### Conflict marks (R139 to R143) -/
theorem addMarks_wf {st : Store} (h : st.mem.wf = true) (a write plain k mask) : (st.addMarks a write plain k mask).mem.wf = true := by
  unfold Store.addMarks
  grind [foldl_memOk]

/-! ### Endpoints and sending (R227 to R230, R239 to R245) -/
theorem modPort_memOk {s : State} (h : s.memOk) (p f) : (s.modPort p f).memOk := h
theorem emit_memOk {s : State} (h : s.memOk) (p panel e) : (s.emit p panel e).memOk := by
  unfold State.emit
  grind [memOk_iff, modPort_memOk, meter_memOk]
theorem drainList_memOk {s : State} (h : s.memOk) (p blocked l) : (s.drainList p blocked l).memOk := by
  induction l generalizing s blocked with
  | nil => exact h
  | cons x t ih => grind [State.drainList, modPort_memOk, emit_memOk]
theorem drainPort_memOk {s : State} (h : s.memOk) (p) : (s.drainPort p).memOk :=
  drainList_memOk (modPort_memOk h ..) ..
theorem sendOut_memOk {s : State} (h : s.memOk) (panel e) : (s.sendOut panel e).memOk := by
  unfold State.sendOut
  grind [memOk_iff, modPort_memOk, drainPort_memOk, post_memOk]
theorem releaseHeld_memOk {s : State} (h : s.memOk) : s.releaseHeld.memOk := by
  unfold State.releaseHeld
  grind [memOk_iff, sendOut_memOk, foldl_memOk]

/-! ### Slices (R124, R127, R248) -/
theorem sendTo_memOk {s : State} (h : s.memOk) (panel e) : (s.sendTo panel e).memOk := by
  unfold State.sendTo
  grind [sendOut_memOk, post_memOk]
theorem oweAll_memOk {s : State} (h : s.memOk) (core id ws) : (s.oweAll core id ws).memOk := by
  unfold State.oweAll
  grind [modLaunchGroup_memOk, foldl_memOk, modCore_memOk]
theorem owe_memOk {s : State} (h : s.memOk) (core ctx) : (s.owe core ctx).memOk :=
  modCore_memOk (modCtx_memOk h ..) ..
theorem cleanSector_memOk {s : State} (h : s.memOk) (waiter q) : (s.cleanSector waiter q).1.memOk := by
  unfold State.cleanSector
  grind [memOk_iff, oweAll_memOk, sendOut_memOk, modSector_wf]
theorem dropSector_wf {st : Store} (h : st.mem.wf = true) (q) : (st.dropSector q).mem.wf = true := by
  unfold Store.dropSector
  grind [modSector_wf]
theorem maintSlice_memOk {s : State} (h : s.memOk) (waiter inv k) : (s.maintSlice waiter inv k).1.memOk := by
  unfold State.maintSlice
  grind [memOk_iff, foldl_wf, dropSector_wf, foldl_fst_memOk, cleanSector_memOk]
theorem roomSlice_memOk {s : State} (h : s.memOk) (k) : (s.roomSlice k).memOk := by
  unfold State.roomSlice
  grind [memOk_iff, maintSlice_memOk, ticked_memOk]

/-! ### Full and empty lines (R117, R118) -/
theorem answer_memOk {s : State} (h : s.memOk) (w id ans) : (s.answer w id ans).memOk :=
  modLaunchGroup_memOk h ..
theorem serveSync_memOk {s : State} (h : s.memOk) (k m) : (s.serveSync k m).1.memOk := by
  unfold State.serveSync
  grind [memOk_iff, setEmpty_wf, setLineRel_wf, writeHome_memOk, addMarks_wf]
theorem reply_memOk {s : State} (h : s.memOk) (m isLocal ans) : (s.reply m isLocal ans).memOk := by
  unfold State.reply
  grind [sendOut_memOk, post_memOk, answer_memOk]
theorem testWaiters_memOk {s : State} (h : s.memOk) (core k l) : (s.testWaiters core k l).memOk := by
  induction l generalizing s with
  | nil => exact h
  | cons w t ih => grind [State.testWaiters, reply_memOk, modCore_memOk, serveSync_memOk]
theorem setLineState_memOk {s : State} (h : s.memOk) (k empty) : (s.setLineState k empty).memOk := by
  unfold State.setLineState
  grind [memOk_iff, testWaiters_memOk, setEmpty_wf]

/-! ### Where an address lies (R111 to R116) -/
theorem touchTlb_memOk {s : State} (h : s.memOk) (a g) : (s.touchTlb a g).memOk := by
  unfold State.touchTlb
  grind [modCore_memOk]

/-! ### L1 (R121, R122) -/
theorem writeBackLine_memOk {s : State} (h : s.memOk) (core also k l) : (s.writeBackLine core also k l).memOk := by
  unfold State.writeBackLine
  grind [memOk_iff, oweAll_memOk, sendTo_memOk, writeHome_memOk, report_memOk, foldl_memOk]
theorem flushL1_memOk {s : State} (h : s.memOk) (a) : (s.flushL1 a).memOk := by
  unfold State.flushL1
  grind [writeBackLine_memOk, modCore_memOk, foldl_memOk]
theorem dropL1_memOk {s : State} (h : s.memOk) (core k) : (s.dropL1 core k).memOk :=
  modCore_memOk (writeBackLine_memOk h ..) ..
theorem roomL1_memOk {s : State} (h : s.memOk) (core k) : (s.roomL1 core k).memOk := by
  unfold State.roomL1
  grind [dropL1_memOk, ticked_memOk]
theorem fillL1_memOk {s : State} (h : s.memOk) (core id k epoch poison p) : (s.fillL1 core id k epoch poison p).memOk := by
  unfold State.fillL1
  grind [modCore_memOk, roomL1_memOk]
theorem acquireL1_keeps (sc) : M.Keeps (acquireL1 sc) := by
  unfold acquireL1
  grind [keeps_pure, modMe_keeps, modCore_memOk, modS_keeps, spend_keeps, keeps_get, keeps_bind, keeps_get_bind]
theorem releaseM_keeps (sc) : M.Keeps (releaseM sc) := by
  unfold releaseM
  grind [keeps_pure, stayM_keeps, flushL1_memOk, modS_keeps, myActor_keeps, spend_keeps, keeps_get, keeps_bind, keeps_get_bind]
theorem beginRelease_keeps (sc) : M.Keeps (beginRelease sc) := by
  unfold beginRelease
  grind [myRel_keeps, endRegion_keeps, releaseM_keeps, keeps_bind, keeps_get_bind]
theorem endAcquire_keeps (sc rs) : M.Keeps (endAcquire sc rs) := by
  unfold endAcquire
  grind [acquire_keeps, acquireL1_keeps, keeps_bind, keeps_get_bind]

/-! ### Resolving the addresses of a context -/
theorem resolveM_keeps (va) (size) (k) (reduction : Bool) : M.Keeps (resolveM va size k reduction) := by
  unfold resolveM
  refine keeps_get_bind fun s _ => keeps_bind myActor_keeps fun a => ?_
  split
  · refine keeps_bind ?_ fun _ => keeps_pure _
    grind [touchTlb_memOk, modS_keeps, keeps_pure]
  · exact trapM_keeps ..
  · exact spend_keeps
  · grind [modMe_memOk, post_memOk, stayM_keeps, spend_keeps, trapM_keeps, keeps_pure]
theorem resolveLanes_keeps (size k reduction lanes) : M.Keeps (resolveLanes size k reduction lanes) := by
  induction lanes with
  | nil => exact keeps_pure _
  | cons p t ih => exact keeps_bind (resolveM_keeps ..) fun x => keeps_bind ih fun r => keeps_pure _
theorem limitsM_keeps (size lanes) : M.Keeps (limitsM size lanes) := by
  induction lanes with
  | nil => exact keeps_pure _
  | cons p t ih =>
    refine keeps_get_bind fun s _ => keeps_bind myActor_keeps fun a => ?_
    split
    · exact trapM_keeps ..
    · exact trapM_keeps ..
    · exact ih
theorem ownedM_keeps (write ts) : M.Keeps (ownedM write ts) := by
  unfold ownedM
  grind [keeps_pure, trapM_keeps, myActor_keeps, keeps_get, keeps_bind, keeps_get_bind]

/-! ### Conflicts of a context (R141, R143) -/
theorem markRoomM_keeps (ps) : M.Keeps (markRoomM ps) := by
  unfold markRoomM
  grind [modMe_memOk, stayM_keeps, spend_keeps, keeps_pure, keeps_get, keeps_bind, keeps_get_bind]
theorem markParts_memOk {s : State} (h : s.memOk) (a write plain ps) : (s.markParts a write plain ps).memOk := by
  unfold State.markParts
  grind [memOk_iff, addMarks_wf, foldl_memOk]
theorem checkM_keeps (write plain ps) : M.Keeps (checkM write plain ps) := by
  unfold checkM
  grind [markParts_memOk, modMe_memOk, modS_keeps, trapM_keeps, myActor_keeps, keeps_get, keeps_bind, keeps_get_bind]

/-! ### Waiting for requests and lines -/
theorem pendingM_keeps : M.Keeps pendingM := by
  unfold pendingM
  refine keeps_bind me_keeps fun c => ?_
  cases c.access with
  | none => exact keeps_pure _
  | some a =>
    dsimp only
    split
    · exact keeps_pure _
    · cases a.ans with
      | none => grind [spend_keeps, keeps_pure]
      | some ans => cases ans <;> grind [spend_keeps, modMe_keeps, trapM_keeps, keeps_pure, keeps_bind]
theorem reserveM_keeps (n) : M.Keeps (reserveM n) := by
  unfold reserveM
  grind [spend_keeps, keeps_pure, keeps_get, keeps_bind, keeps_get_bind]

/-- A wait flushes the own L1 of the context that begins it, which writes storage at its homes only. -/
theorem keepFlush_bind_keeps {α : Type} {f : (State → State) → M α}
    (hf : ∀ flush : State → State, (∀ s, s.memOk → (flush s).memOk) → M.Keeps (f flush)) : M.Keeps (keepFlush >>= f) :=
  ⟨fun s h => (hf _ fun u hu => by split <;> [exact flushL1_memOk hu _; exact hu]).run s h⟩
theorem sendAndWait_keeps {α : Type} {pre : State → State} (hpre : ∀ s, s.memOk → (pre s).memOk) (msgs got rels) :
    M.Keeps (sendAndWait pre msgs got rels : M α) := by
  unfold sendAndWait
  refine keepFlush_bind_keeps fun flush hflush => stayM_keeps fun s h => ?_
  generalize hu : pre (flush s) = u
  have hok : u.memOk := hu ▸ hpre _ (hflush s h)
  refine foldl_memOk (fun s m h => ?_) ?_ _
  · split <;> [exact post_memOk h _; exact sendOut_memOk h ..]
  · refine modCore_memOk (modMe_memOk (modCore_memOk ?_ ..) _) ..
    exact hok
theorem sendPosted_keeps (panel e) : M.Keeps (sendPosted panel e) := by
  unfold sendPosted
  grind [sendOut_memOk, post_memOk, owe_memOk, modS_keeps]
theorem waitLine_keeps {α : Type} (k m got rels) : M.Keeps (waitLine k m got rels : M α) := by
  unfold waitLine
  refine keepFlush_bind_keeps fun flush hflush => stayM_keeps fun s h => ?_
  grind [memOk_iff, modMe_memOk, modCore_memOk]

/-! ### Loads (R367, R421) -/
theorem loadLanes_keeps (size home acq lanes) : M.Keeps (loadLanes size home acq lanes) := by
  unfold loadLanes
  split
  · exact keeps_pure _
  · refine keeps_bind myGroup_keeps fun g => keeps_get_bind fun s _ => ?_
    dsimp only
    split
    · exact spend_keeps
    · refine keeps_bind (limitsM_keeps ..) fun _ => keeps_bind (resolveLanes_keeps ..) fun ts => keeps_bind (ownedM_keeps ..) fun _ =>
        keeps_bind (markRoomM_keeps _) fun _ => keeps_bind pendingM_keeps fun acc => keeps_get_bind fun s _ =>
        keeps_bind myActor_keeps fun a => ?_
      split
      · exact waitLine_keeps ..
      · split
        · grind [reserveM_keeps, keeps_bind, sendAndWait_keeps, foldl_memOk, dropL1_memOk]
        · refine keeps_bind ?_ fun _ => keeps_bind ?_ fun _ => keeps_bind (checkM_keeps ..) fun _ => ?_
          · split <;> [exact acquire_keeps ..; exact keeps_pure _]
          · split <;> [exact acquire_keeps ..; exact keeps_pure _]
          · split <;> [exact trapM_keeps ..; exact keeps_pure _]
theorem afterLoad_keeps (ord rels waited) : M.Keeps (afterLoad ord rels waited) := by
  unfold afterLoad
  refine keeps_bind ?_ fun _ => ?_
  · grind [keeps_pure, endAcquire_keeps, endRegion_keeps, keeps_bind]
  · grind [observe_keeps, endAcquire_keeps, endRegion_keeps, keeps_bind]
theorem beforeLoad_keeps (ord) : M.Keeps (beforeLoad ord) := by
  unfold beforeLoad
  grind [keeps_pure, endRegion_keeps, releaseM_keeps, keeps_bind, keeps_get_bind]
theorem loadM_keeps (size ord lanes) : M.Keeps (loadM size ord lanes) := by
  unfold loadM
  grind [keeps_pure, afterLoad_keeps, loadLanes_keeps, beforeLoad_keeps, keeps_bind, keeps_get_bind]

/-! ### Stores (R400, R432) -/
theorem storeL1_memOk {s : State} (h : s.memOk) (a p rel) : (s.storeL1 a p rel).memOk := by
  unfold State.storeL1
  grind [memOk_iff, owe_memOk, sendTo_memOk, writeHome_memOk, dropL1_memOk, foldl_memOk, modCore_memOk, roomL1_memOk]
theorem storePart_keeps (home sync rel p) : M.Keeps (storePart home sync rel p) := by
  unfold storePart
  refine keeps_get_bind fun s _ => keeps_bind myActor_keeps fun a => ?_
  split
  · exact modMe_keeps _
  · grind [storeL1_memOk, dropL1_memOk, sendPosted_keeps, keeps_pure, writeHome_memOk, modS_keeps, keeps_bind]
theorem storeEach_keeps (home sync rel ps) : M.Keeps (storeEach home sync rel ps) := by
  induction ps with
  | nil => exact keeps_pure _
  | cons p t ih => exact keeps_bind (storePart_keeps ..) fun _ => ih
theorem sideLogM_keeps (es) : M.Keeps (sideLogM es) := by
  unfold sideLogM
  grind [modMyGroup_keeps, spend_keeps, myGroup_keeps, keeps_bind, keeps_get_bind]

theorem storeM_keeps (size code ord lanes) : M.Keeps (storeM size code ord lanes) := by
  unfold storeM
  refine keeps_bind ?_ fun rel => keeps_bind ?_ fun _ => ?_
  · grind [fenceRel_keeps, keeps_pure, beginRelease_keeps, keeps_bind]
  · split
    · exact keeps_pure _
    · refine keeps_bind (resolveLanes_keeps ..) fun ts => keeps_bind myGroup_keeps fun g => keeps_get_bind fun s _ => ?_
      dsimp only
      split
      · exact keeps_bind myActor_keeps fun a => sideLogM_keeps _
      · refine keeps_bind (markRoomM_keeps _) fun _ => keeps_bind (reserveM_keeps _) fun _ => keeps_bind (checkM_keeps ..) fun _ =>
          keeps_bind (storeEach_keeps ..) fun _ => keeps_bind myGroup_keeps fun g => ?_
        split <;> [exact spend_keeps; exact modMyGroup_keeps _]
  · grind [endRegion_keeps, endAcquire_keeps, keeps_pure, keeps_bind]

end Sys2Proof.Machine

/-! ## The canonical form: ports, operands and scalar instructions -/
namespace Sys2Proof.Machine

/-! ### Local queues and channels -/
theorem reachChan_memOk {s : State} (h : s.memOk) (core n) : (s.reachChan core n).memOk := by
  unfold State.reachChan
  grind [post_memOk, foldl_memOk, modGroup_memOk]

/-! ### Ports (R56 to R60) -/
theorem misuse_keeps {α : Type} (case q) : M.Keeps (misuse case q : M α) := trapM_keeps ..
theorem takeElem_keeps (q sc e) : M.Keeps (takeElem q sc e) := by
  unfold takeElem
  grind [modMe_keeps, keeps_pure, endAcquire_keeps, endRegion_keeps, keeps_bind, keeps_get_bind]

theorem popPort_keeps (q) : M.Keeps (popPort q) := by
  unfold popPort
  refine keeps_get_bind fun s _ => ?_
  dsimp only
  split
  · exact misuse_keeps ..
  · split
    · exact misuse_keeps ..
    · split
      · exact misuse_keeps ..
      · split
        · grind [keeps_pure, modMe_keeps, loadM_keeps, misuse_keeps, keeps_bind]
        · split
          · grind [takeElem_keeps, modMyGroup_keeps, waitM_keeps, keeps_bind]
          · grind [post_memOk, reachChan_memOk, modS_keeps, takeElem_keeps, modMyGroup_keeps, waitM_keeps, keeps_bind]
theorem pushElem_keeps (q p mk) : M.Keeps (pushElem q p mk) := by
  unfold pushElem
  grind [post_memOk, modS_keeps, endRegion_keeps, modMyGroup_keeps, beginRelease_keeps, waitM_keeps, keeps_get, keeps_bind,
    keeps_get_bind]
theorem appendPort_keeps (q v) : M.Keeps (appendPort q v) := by
  unfold appendPort
  grind [pushElem_keeps, modMe_keeps, storeM_keeps, misuse_keeps, me_keeps, keeps_bind, keeps_get_bind]

/-! ### Scalar positions -/
theorem namesQ_keeps (op l) : M.Keeps (namesQ op l) := names_keeps ..
theorem rdQ_keeps (a) : M.Keeps (rdQ a) := by
  unfold rdQ
  grind [keeps_pure, popPort_keeps, keeps_bind, keeps_get_bind, rdS_keeps]
theorem wrQ_keeps (a a1) : M.Keeps (wrQ a a1) := by
  unfold wrQ
  grind [appendPort_keeps, wrS_keeps]
theorem wrQLate_keeps (a a1) : M.Keeps (wrQLate a a1) := by
  unfold wrQLate
  grind [appendPort_keeps, wrSLate_keeps]

/-! ### Vector registers and positions (R54, R61, R410) -/
theorem freshV_keeps (r) : M.Keeps (freshV r) := by
  unfold freshV
  grind [keeps_pure, trapM_keeps, me_keeps, keeps_bind, keeps_get_bind]
theorem rdV_keeps (r) : M.Keeps (rdV r) := by
  unfold rdV
  refine keeps_bind me_keeps fun c => ?_
  split
  · exact waitM_keeps _
  · split
    · exact spend_keeps
    · refine keeps_bind ?_ fun _ => keeps_pure _
      grind [modMe_keeps, endAcquire_keeps, endRegion_keeps, keeps_pure, keeps_bind]
theorem wrV_keeps (r v) : M.Keeps (wrV r v) := modMe_keeps ..
theorem freshVQ_keeps (a) : M.Keeps (freshVQ a) := by
  unfold freshVQ
  grind [keeps_pure, freshV_keeps]
theorem rdVQ_keeps (a) : M.Keeps (rdVQ a) := by
  unfold rdVQ
  grind [popPort_keeps, rdV_keeps]
theorem wrVQ_keeps (a a1) : M.Keeps (wrVQ a a1) := by
  unfold wrVQ
  grind [appendPort_keeps, wrV_keeps]
theorem wrVQLate_keeps (a a1) : M.Keeps (wrVQLate a a1) := by
  unfold wrVQLate
  grind [appendPort_keeps, modMe_keeps]

/-! ### Lanes (R54, R55) -/
theorem rdMask_keeps (k) : M.Keeps (rdMask k) := rdM_keeps ..
theorem countAll_keeps (es) : M.Keeps (countAll es) := by
  induction es with
  | nil => exact keeps_pure _
  | cons e t ih => exact keeps_bind (event_keeps ..) fun _ => ih
theorem settle_keeps (rs) : M.Keeps (settle rs) := by
  unfold settle
  grind [countAll_keeps, trapM_keeps]
theorem vecOp_keeps {put : VQ → Line → M Unit} (hput : ∀ a b, M.Keeps (put a b)) (w n k d f) : M.Keeps (vecOp w n k d put f) := by
  unfold vecOp
  grind [me_keeps, settle_keeps, rdMask_keeps, keeps_bind, keeps_get_bind]
theorem rngTake_keeps (rm n) : M.Keeps (rngTake rm n) := by
  unfold rngTake
  grind [keeps_pure, modMe_keeps, me_keeps, keeps_bind, keeps_get_bind]

/-! ### Effective addresses (R78, R88) -/
theorem eaM_keeps (m size) : M.Keeps (eaM m size) := by
  unfold eaM
  grind [keeps_pure, rdS_keeps, keeps_bind, keeps_get_bind]

/-! ### Shared shapes -/
theorem alu2_nextOk {s : State} (h : s.memOk) (op d a b f) : nextOk (alu2 op d a b f s) :=
  instr_nextOk (by grind [wrQ_keeps, rdQ_keeps, namesQ_keeps, keeps_bind, keeps_get_bind]) h _
theorem alu2Late_nextOk {s : State} (h : s.memOk) (op d a b f) : nextOk (alu2Late op d a b f s) :=
  instr_nextOk (by grind [wrQLate_keeps, rdQ_keeps, namesQ_keeps, keeps_bind, keeps_get_bind]) h _
theorem alu1_nextOk {s : State} (h : s.memOk) (op d a f) : nextOk (alu1 op d a f s) :=
  instr_nextOk (by grind [wrQ_keeps, rdQ_keeps, namesQ_keeps, keeps_bind, keeps_get_bind]) h _
theorem alu3_nextOk {s : State} (h : s.memOk) (op d a b c f) : nextOk (alu3 op d a b c f s) :=
  instr_nextOk (by grind [wrQ_keeps, rdQ_keeps, namesQ_keeps, keeps_bind, keeps_get_bind]) h _
theorem aluFx_nextOk {s : State} (h : s.memOk) (op d f) : nextOk (aluFx op d f s) :=
  instr_nextOk (by grind [wrS_keeps, rdS_keeps, names_keeps, keeps_bind, keeps_get_bind]) h _

/-! ### 0x00 to 0x0F -/
theorem execAdd_nextOk {s : State} (h : s.memOk) (d a b) : nextOk (execAdd d a b s) := alu2_nextOk h ..
theorem execSub_nextOk {s : State} (h : s.memOk) (d a b) : nextOk (execSub d a b s) := alu2_nextOk h ..
theorem execMul_nextOk {s : State} (h : s.memOk) (d a b) : nextOk (execMul d a b s) := alu2_nextOk h ..
theorem execMulh_nextOk {s : State} (h : s.memOk) (u d a b) : nextOk (execMulh u d a b s) := alu2_nextOk h ..
theorem execMad_nextOk {s : State} (h : s.memOk) (d a b c) : nextOk (execMad d a b c s) := alu3_nextOk h ..
theorem execDiv_nextOk {s : State} (h : s.memOk) (u d a b) : nextOk (execDiv u d a b s) := alu2Late_nextOk h ..
theorem execRem_nextOk {s : State} (h : s.memOk) (u d a b) : nextOk (execRem u d a b s) := alu2Late_nextOk h ..
theorem execAnd_nextOk {s : State} (h : s.memOk) (d a b) : nextOk (execAnd d a b s) := alu2_nextOk h ..
theorem execOr_nextOk {s : State} (h : s.memOk) (d a b) : nextOk (execOr d a b s) := alu2_nextOk h ..
theorem execXor_nextOk {s : State} (h : s.memOk) (d a b) : nextOk (execXor d a b s) := alu2_nextOk h ..
theorem execShl_nextOk {s : State} (h : s.memOk) (d a b) : nextOk (execShl d a b s) := alu2_nextOk h ..
theorem execShr_nextOk {s : State} (h : s.memOk) (d a b) : nextOk (execShr d a b s) := alu2_nextOk h ..
theorem execSra_nextOk {s : State} (h : s.memOk) (d a b) : nextOk (execSra d a b s) := alu2_nextOk h ..
theorem execRot_nextOk {s : State} (h : s.memOk) (d a b) : nextOk (execRot d a b s) := alu2_nextOk h ..
theorem execMin_nextOk {s : State} (h : s.memOk) (u d a b) : nextOk (execMin u d a b s) := alu2_nextOk h ..
theorem execMax_nextOk {s : State} (h : s.memOk) (u d a b) : nextOk (execMax u d a b s) := alu2_nextOk h ..

/-! ### 0x10 to 0x1F -/
theorem execAddi_nextOk {s : State} (h : s.memOk) (d a imm) : nextOk (execAddi d a imm s) := alu1_nextOk h ..
theorem execAndi_nextOk {s : State} (h : s.memOk) (d a imm) : nextOk (execAndi d a imm s) := alu1_nextOk h ..
theorem execOri_nextOk {s : State} (h : s.memOk) (d a imm) : nextOk (execOri d a imm s) := alu1_nextOk h ..
theorem execXori_nextOk {s : State} (h : s.memOk) (d a imm) : nextOk (execXori d a imm s) := alu1_nextOk h ..
theorem execShli_nextOk {s : State} (h : s.memOk) (d a n) : nextOk (execShli d a n s) := alu1_nextOk h ..
theorem execShri_nextOk {s : State} (h : s.memOk) (d a n) : nextOk (execShri d a n s) := alu1_nextOk h ..
theorem execSrai_nextOk {s : State} (h : s.memOk) (d a n) : nextOk (execSrai d a n s) := alu1_nextOk h ..
theorem execCmpi_nextOk {s : State} (h : s.memOk) (c d a imm) : nextOk (execCmpi c d a imm s) := alu1_nextOk h ..
theorem execMovi_nextOk {s : State} (h : s.memOk) (d imm) : nextOk (execMovi d imm s) :=
  instr_nextOk (by grind [wrQ_keeps, namesQ_keeps, keeps_bind, keeps_get_bind]) h _
theorem execBext_nextOk {s : State} (h : s.memOk) (sg d a pos len) : nextOk (execBext sg d a pos len s) := alu1_nextOk h ..
theorem execBins_nextOk {s : State} (h : s.memOk) (d a pos len) : nextOk (execBins d a pos len s) :=
  instr_nextOk (by grind [wrS_keeps, rdS_keeps, rdQ_keeps, namesQ_keeps, keeps_bind, keeps_get_bind]) h _
theorem execClz_nextOk {s : State} (h : s.memOk) (d a) : nextOk (execClz d a s) := alu1_nextOk h ..
theorem execCtz_nextOk {s : State} (h : s.memOk) (d a) : nextOk (execCtz d a s) := alu1_nextOk h ..
theorem execPopc_nextOk {s : State} (h : s.memOk) (d a) : nextOk (execPopc d a s) := alu1_nextOk h ..
theorem execCmp_nextOk {s : State} (h : s.memOk) (c d a b) : nextOk (execCmp c d a b s) := alu2_nextOk h ..
theorem execSel_nextOk {s : State} (h : s.memOk) (d a b c) : nextOk (execSel d a b c s) := alu3_nextOk h ..

/-! ### Long immediates (R336, R381, R385, R436, R349) -/
theorem execMovw_nextOk {s : State} (h : s.memOk) (d imm) : nextOk (execMovw d imm s) :=
  instr_nextOk (by grind [wrS_keeps, names_keeps, keeps_bind, keeps_get_bind]) h _
theorem execAddiFx_nextOk {s : State} (h : s.memOk) (d imm) : nextOk (execAddiFx d imm s) := aluFx_nextOk h ..
theorem execAndiFx_nextOk {s : State} (h : s.memOk) (d imm) : nextOk (execAndiFx d imm s) := aluFx_nextOk h ..
theorem execOriFx_nextOk {s : State} (h : s.memOk) (d imm) : nextOk (execOriFx d imm s) := aluFx_nextOk h ..
theorem execXoriFx_nextOk {s : State} (h : s.memOk) (d imm) : nextOk (execXoriFx d imm s) := aluFx_nextOk h ..
theorem execCmpiFe_nextOk {s : State} (h : s.memOk) (c d a imm) : nextOk (execCmpiFe c d a imm s) :=
  instr_nextOk (by grind [wrS_keeps, rdS_keeps, names_keeps, keeps_bind, keeps_get_bind]) h _

end Sys2Proof.Machine

/-! ## The canonical form: control flow and accesses at the home -/
namespace Sys2Proof.Machine

/-! ### The register window (R52, R53) -/
theorem shiftUp_keeps : M.Keeps shiftUp := by
  unfold shiftUp
  grind [modMe_keeps, trapM_keeps, keeps_get, keeps_bind, keeps_get_bind]
theorem shiftDown_keeps : M.Keeps shiftDown := by
  unfold shiftDown
  grind [modMe_keeps, trapM_keeps, me_keeps, keeps_bind, keeps_get_bind]

/-! ### Branches (R341, R343, R366, R371) -/
theorem branchIf_keeps (taken off) : M.Keeps (branchIf taken off) := by
  unfold branchIf
  grind [advance_keeps, jumpTo_keeps, me_keeps, keeps_bind, keeps_get_bind]
theorem execBr_nextOk {s : State} (h : s.memOk) (off) : nextOk (execBr off s) :=
  runInstr_nextOk (branchIf_keeps ..) h _
theorem execBcnd_nextOk {s : State} (h : s.memOk) (c a b off) : nextOk (execBcnd c a b off s) :=
  runInstr_nextOk (by grind [branchIf_keeps, rdS_keeps, names_keeps, keeps_bind, keeps_get_bind]) h _
theorem execBmask_nextOk {s : State} (h : s.memOk) (c a b off) : nextOk (execBmask c a b off s) :=
  runInstr_nextOk (by grind [branchIf_keeps, rdM_keeps, rdS_keeps, names_keeps, keeps_bind, keeps_get_bind]) h _
theorem execJr_nextOk {s : State} (h : s.memOk) (a) : nextOk (execJr a s) :=
  runInstr_nextOk (by grind [jumpTo_keeps, rdS_keeps, names_keeps, keeps_bind, keeps_get_bind]) h _
theorem execLoop_nextOk {s : State} (h : s.memOk) (a off) : nextOk (execLoop a off s) :=
  runInstr_nextOk (by grind [branchIf_keeps, wrS_keeps, rdS_keeps, names_keeps, keeps_bind, keeps_get_bind]) h _
theorem execBrAbs_nextOk {s : State} (h : s.memOk) (target) : nextOk (execBrAbs target s) :=
  runInstr_nextOk (jumpTo_keeps ..) h _

/-! ### Calls and returns (R344, R394) -/
theorem callM_keeps (t n) : M.Keeps (callM t n) := by
  unfold callM
  grind [jumpTo_keeps, wrS_keeps, shiftUp_keeps, me_keeps, keeps_bind, keeps_get_bind]
theorem execCall_nextOk {s : State} (h : s.memOk) (off) : nextOk (execCall off s) :=
  runInstr_nextOk (by grind [callM_keeps, me_keeps, keeps_bind, keeps_get_bind]) h _
theorem execCallAbs_nextOk {s : State} (h : s.memOk) (target) : nextOk (execCallAbs target s) :=
  runInstr_nextOk (callM_keeps ..) h _
theorem execCallr_nextOk {s : State} (h : s.memOk) (a) : nextOk (execCallr a s) :=
  runInstr_nextOk (by grind [callM_keeps, rdS_keeps, names_keeps, keeps_bind, keeps_get_bind]) h _
theorem retM_keeps : M.Keeps retM := by
  unfold retM
  grind [jumpTo_keeps, shiftDown_keeps, rdS_keeps, keeps_bind, keeps_get_bind]
theorem execRet_nextOk {s : State} (h : s.memOk) : nextOk (execRet s) :=
  runInstr_nextOk (retM_keeps ..) h _

/-! ### Hints (R384, R437) -/
theorem execNop_nextOk {s : State} (h : s.memOk) : nextOk (execNop s) :=
  instr_nextOk (keeps_pure _) h _
theorem execNopW_nextOk {s : State} (h : s.memOk) : nextOk (execNopW s) :=
  instr_nextOk (keeps_pure _) h _
theorem execNopX_nextOk {s : State} (h : s.memOk) : nextOk (execNopX s) :=
  instr_nextOk (keeps_pure _) h _
theorem execYield_nextOk {s : State} (h : s.memOk) : nextOk (execYield s) :=
  instr_nextOk (keeps_pure _) h _

/-! ### Spill and fill (R53, R435) -/
theorem execWspill_nextOk {s : State} (h : s.memOk) : nextOk (execWspill s) :=
  instr_nextOk (by grind [modMe_keeps, storeM_keeps, spend_keeps, illegal_keeps, myGroup_keeps, me_keeps, level_keeps, keeps_bind,
    keeps_get_bind]) h _
theorem execWfill_nextOk {s : State} (h : s.memOk) : nextOk (execWfill s) :=
  instr_nextOk (by grind [modMe_keeps, loadM_keeps, illegal_keeps, me_keeps, level_keeps, keeps_bind, keeps_get_bind]) h _

/-! ### Atomics (R337, R412) -/
theorem atomAt_memOk {s : State} (h : s.memOk) (op n k l r) : (s.atomAt op n k l r).1.memOk := by
  unfold State.atomAt
  grind [memOk_iff, writeHome_memOk]
theorem atomAll_memOk {s : State} (h : s.memOk) (a op n r ls) : (s.atomAll a op n r ls).1.memOk := by
  induction ls generalizing s with
  | nil => exact h
  | cons l t ih => grind [State.atomAll, memOk_iff, atomAt_memOk, addMarks_wf]
theorem homeAtomic_memOk {s : State} (h : s.memOk) (a op n acq r ls) : (s.homeAtomic a op n acq r ls).1.memOk := by
  unfold State.homeAtomic
  grind [atomAll_memOk]
theorem homeFired_memOk {s : State} (h : s.memOk) (a op n acq r ls) : (s.homeFired a op n acq r ls).memOk := by
  induction ls generalizing s a with
  | nil => exact h
  | cons l t ih =>
    unfold State.homeFired
    cases s.laneKey a l with
    | none => exact ih h _
    | some k =>
      dsimp only
      refine ih ?_ _
      grind [memOk_iff, writeHome_memOk, eventOf_memOk, addMarks_wf, report_memOk]

/-! ### Sub-byte stores and line states (R403, R118) -/
theorem homeNibble_memOk {s : State} (h : s.memOk) (k byte pos width v r) : (s.homeNibble k byte pos width v r).memOk :=
  writeHome_memOk h ..
theorem homeSetLine_memOk {s : State} (h : s.memOk) (k full r) : (s.homeSetLine k full r).memOk := by
  unfold State.homeSetLine
  grind [memOk_iff, setLineState_memOk, setLineRel_wf]

/-! ### Requests (R231, R123) -/
theorem writePart_memOk {s : State} (h : s.memOk) (k p r) : (s.writePart k p r).memOk := by
  unfold State.writePart
  grind [memOk_iff, setRels_wf, foldl_wf, writeHome_memOk]
theorem homeStore_memOk {s : State} (h : s.memOk) (a r ps) : (s.homeStore a r ps).memOk := by
  induction ps generalizing s with
  | nil => exact h
  | cons p t ih => grind [State.homeStore, post_memOk, writePart_memOk]
theorem maintAll_memOk {f : State → Nat → State × Nat} (hf : ∀ s k, s.memOk → (f s k).1.memOk) (l) {p : State × Nat} (h : p.1.memOk) :
    (maintAll f l p).1.memOk := by
  induction l generalizing p with
  | nil => exact h
  | cons k t ih => exact ih (hf p.1 k h)
theorem homeOp_memOk {s : State} (h : s.memOk) (m) : (s.homeOp m).1.memOk := by
  unfold State.homeOp
  grind [memOk_iff, maintSlice_memOk, maintAll_memOk, homeSetLine_memOk, foldl_memOk, homeNibble_memOk, addMarks_wf, homeFired_memOk,
    homeAtomic_memOk, homeStore_memOk]
theorem replyTo_memOk {s : State} (h : s.memOk) (src a id posted epoch ans) : (s.replyTo src a id posted epoch ans).memOk := by
  unfold State.replyTo
  grind [sendOut_memOk, post_memOk]
theorem rngOne_keeps (rm) : M.Keeps (rngOne rm) := by
  unfold rngOne
  grind [keeps_pure, rngTake_keeps, keeps_bind, keeps_get_bind]
theorem fop2_nextOk {s : State} {put : SQ → Word → M Unit} (h : s.memOk) (hput : ∀ a b, M.Keeps (put a b)) (op f rm sat d a b g) : nextOk
  (fop2 op f rm sat d a b g put s) :=
  instr_nextOk (by grind [settle_keeps, rngOne_keeps, rdQ_keeps, namesQ_keeps, keeps_bind, keeps_get_bind]) h _
theorem fop3_nextOk {s : State} (h : s.memOk) (op f rm sat d a b c) : nextOk (fop3 op f rm sat d a b c s) :=
  instr_nextOk (by grind [wrQ_keeps, settle_keeps, rngOne_keeps, rdQ_keeps, namesQ_keeps, keeps_bind, keeps_get_bind]) h _
theorem fop1_nextOk {s : State} (h : s.memOk) (op f rm sat d a) : nextOk (fop1 op f rm sat d a s) :=
  instr_nextOk (by grind [wrQLate_keeps, settle_keeps, rngOne_keeps, rdQ_keeps, namesQ_keeps, keeps_bind, keeps_get_bind]) h _
theorem execFaddF32_nextOk {s : State} (h : s.memOk) (rm sat d a b) : nextOk (execFaddF32 rm sat d a b s) :=
  fop2_nextOk h wrQ_keeps ..
theorem execFaddF64_nextOk {s : State} (h : s.memOk) (rm sat d a b) : nextOk (execFaddF64 rm sat d a b s) :=
  fop2_nextOk h wrQ_keeps ..
theorem execFsubF32_nextOk {s : State} (h : s.memOk) (rm sat d a b) : nextOk (execFsubF32 rm sat d a b s) :=
  fop2_nextOk h wrQ_keeps ..
theorem execFsubF64_nextOk {s : State} (h : s.memOk) (rm sat d a b) : nextOk (execFsubF64 rm sat d a b s) :=
  fop2_nextOk h wrQ_keeps ..
theorem execFmulF32_nextOk {s : State} (h : s.memOk) (rm sat d a b) : nextOk (execFmulF32 rm sat d a b s) :=
  fop2_nextOk h wrQ_keeps ..
theorem execFmulF64_nextOk {s : State} (h : s.memOk) (rm sat d a b) : nextOk (execFmulF64 rm sat d a b s) :=
  fop2_nextOk h wrQ_keeps ..
theorem execFfmaF32_nextOk {s : State} (h : s.memOk) (rm sat d a b c) : nextOk (execFfmaF32 rm sat d a b c s) := fop3_nextOk h ..
theorem execFfmaF64_nextOk {s : State} (h : s.memOk) (rm sat d a b c) : nextOk (execFfmaF64 rm sat d a b c s) := fop3_nextOk h ..
theorem execFdivF32_nextOk {s : State} (h : s.memOk) (rm sat d a b) : nextOk (execFdivF32 rm sat d a b s) :=
  fop2_nextOk h wrQLate_keeps ..
theorem execFdivF64_nextOk {s : State} (h : s.memOk) (rm sat d a b) : nextOk (execFdivF64 rm sat d a b s) :=
  fop2_nextOk h wrQLate_keeps ..
theorem execFsqrtF32_nextOk {s : State} (h : s.memOk) (rm sat d a) : nextOk (execFsqrtF32 rm sat d a s) := fop1_nextOk h ..
theorem execFsqrtF64_nextOk {s : State} (h : s.memOk) (rm sat d a) : nextOk (execFsqrtF64 rm sat d a s) := fop1_nextOk h ..
theorem execFmin_nextOk {s : State} (h : s.memOk) (t d a b) : nextOk (execFmin t d a b s) := alu2_nextOk h ..
theorem execFmax_nextOk {s : State} (h : s.memOk) (t d a b) : nextOk (execFmax t d a b s) := alu2_nextOk h ..
theorem execFcmp_nextOk {s : State} (h : s.memOk) (t c d a b) : nextOk (execFcmp t c d a b s) := alu2_nextOk h ..
theorem execFcvt_nextOk {s : State} (h : s.memOk) (dt st om rm d a) : nextOk (execFcvt dt st om rm d a s) :=
  instr_nextOk (by grind [wrQ_keeps, settle_keeps, rngOne_keeps, rdQ_keeps, namesQ_keeps, keeps_bind, keeps_get_bind]) h _

end Sys2Proof.Machine

/-! ## The canonical form: vectors and masks -/
namespace Sys2Proof.Machine

/-! ### Shared shapes -/
theorem vec1_nextOk {s : State} {put : VQ → Line → M Unit} (h : s.memOk) (hput : ∀ a b, M.Keeps (put a b)) (t k d a rm f) : nextOk (vec1
  t k d a put rm f s) :=
  instr_nextOk (by grind [vecOp_keeps, rngTake_keeps, rdVQ_keeps, freshVQ_keeps, keeps_bind, keeps_get_bind]) h _
theorem vec2_nextOk {s : State} {put : VQ → Line → M Unit} (h : s.memOk) (hput : ∀ a b, M.Keeps (put a b)) (t k d a b rm f) : nextOk
  (vec2 t k d a b put rm f s) :=
  instr_nextOk (by grind [vecOp_keeps, rngTake_keeps, rdVQ_keeps, freshVQ_keeps, keeps_bind, keeps_get_bind]) h _
theorem vec3_nextOk {s : State} (h : s.memOk) (t k d a b c rm f) : nextOk (vec3 t k d a b c rm f s) :=
  instr_nextOk (by grind [wrVQ_keeps, vecOp_keeps, rngTake_keeps, rdVQ_keeps, freshVQ_keeps, keeps_bind, keeps_get_bind]) h _

/-! ### 0x40 to 0x4F -/
theorem execVaddI_nextOk {s : State} (h : s.memOk) (t sat m d a b) : nextOk (execVaddI t sat m d a b s) :=
  vec2_nextOk h wrVQ_keeps ..
theorem execVaddF_nextOk {s : State} (h : s.memOk) (t rm sat m d a b) : nextOk (execVaddF t rm sat m d a b s) :=
  vec2_nextOk h wrVQ_keeps ..
theorem execVsubI_nextOk {s : State} (h : s.memOk) (t sat m d a b) : nextOk (execVsubI t sat m d a b s) :=
  vec2_nextOk h wrVQ_keeps ..
theorem execVsubF_nextOk {s : State} (h : s.memOk) (t rm sat m d a b) : nextOk (execVsubF t rm sat m d a b s) :=
  vec2_nextOk h wrVQ_keeps ..
theorem execVmulI_nextOk {s : State} (h : s.memOk) (t sat m d a b) : nextOk (execVmulI t sat m d a b s) :=
  vec2_nextOk h wrVQ_keeps ..
theorem execVmulF_nextOk {s : State} (h : s.memOk) (t rm sat m d a b) : nextOk (execVmulF t rm sat m d a b s) :=
  vec2_nextOk h wrVQ_keeps ..
theorem execVfmaI_nextOk {s : State} (h : s.memOk) (t sat m d a b c) : nextOk (execVfmaI t sat m d a b c s) := vec3_nextOk h ..
theorem execVfmaF_nextOk {s : State} (h : s.memOk) (t rm sat m d a b c) : nextOk (execVfmaF t rm sat m d a b c s) := vec3_nextOk h ..
theorem execVmaxI_nextOk {s : State} (h : s.memOk) (t m d a b) : nextOk (execVmaxI t m d a b s) :=
  vec2_nextOk h wrVQ_keeps ..
theorem execVmaxF_nextOk {s : State} (h : s.memOk) (t m d a b) : nextOk (execVmaxF t m d a b s) :=
  vec2_nextOk h wrVQ_keeps ..
theorem execVminI_nextOk {s : State} (h : s.memOk) (t m d a b) : nextOk (execVminI t m d a b s) :=
  vec2_nextOk h wrVQ_keeps ..
theorem execVminF_nextOk {s : State} (h : s.memOk) (t m d a b) : nextOk (execVminF t m d a b s) :=
  vec2_nextOk h wrVQ_keeps ..
theorem vcmpM_nextOk {s : State} (h : s.memOk) (t k d a b f) : nextOk (vcmpM t k d a b f s) :=
  instr_nextOk (by grind [wrM_keeps, rdM_keeps, rdMask_keeps, rdVQ_keeps, keeps_bind, keeps_get_bind]) h _
theorem execVcmpI_nextOk {s : State} (h : s.memOk) (t c m d a b) : nextOk (execVcmpI t c m d a b s) := vcmpM_nextOk h ..
theorem execVcmpF_nextOk {s : State} (h : s.memOk) (t c m d a b) : nextOk (execVcmpF t c m d a b s) := vcmpM_nextOk h ..
theorem execVabs_nextOk {s : State} (h : s.memOk) (t sat m d a) : nextOk (execVabs t sat m d a s) :=
  vec1_nextOk h wrVQ_keeps ..
theorem execVneg_nextOk {s : State} (h : s.memOk) (t sat m d a) : nextOk (execVneg t sat m d a s) :=
  vec1_nextOk h wrVQ_keeps ..

/-! ### 0x50 to 0x5F -/
theorem execVdiv_nextOk {s : State} (h : s.memOk) (t rm sat m d a b) : nextOk (execVdiv t rm sat m d a b s) := by
  unfold execVdiv
  grind [wrVQLate_keeps, vec2_nextOk]
theorem execVsqrt_nextOk {s : State} (h : s.memOk) (t rm sat m d a) : nextOk (execVsqrt t rm sat m d a s) :=
  vec1_nextOk h wrVQLate_keeps ..
theorem execVrcp_nextOk {s : State} (h : s.memOk) (t rm sat m d a) : nextOk (execVrcp t rm sat m d a s) :=
  vec1_nextOk h wrVQ_keeps ..
theorem execVrsqrt_nextOk {s : State} (h : s.memOk) (t rm sat m d a) : nextOk (execVrsqrt t rm sat m d a s) :=
  vec1_nextOk h wrVQ_keeps ..
theorem execVexp2_nextOk {s : State} (h : s.memOk) (t rm sat m d a) : nextOk (execVexp2 t rm sat m d a s) :=
  vec1_nextOk h wrVQ_keeps ..
theorem execVlog2_nextOk {s : State} (h : s.memOk) (t rm sat m d a) : nextOk (execVlog2 t rm sat m d a s) :=
  vec1_nextOk h wrVQ_keeps ..
theorem execVdot_nextOk {s : State} (h : s.memOk) (t rm sat m d a b c) : nextOk (execVdot t rm sat m d a b c s) :=
  instr_nextOk (by grind [wrVQ_keeps, vecOp_keeps, rngTake_keeps, rdVQ_keeps, freshVQ_keeps, keeps_bind, keeps_get_bind]) h _
theorem execVand_nextOk {s : State} (h : s.memOk) (t m d a b) : nextOk (execVand t m d a b s) :=
  vec2_nextOk h wrVQ_keeps ..
theorem execVor_nextOk {s : State} (h : s.memOk) (t m d a b) : nextOk (execVor t m d a b s) :=
  vec2_nextOk h wrVQ_keeps ..
theorem execVxor_nextOk {s : State} (h : s.memOk) (t m d a b) : nextOk (execVxor t m d a b s) :=
  vec2_nextOk h wrVQ_keeps ..
theorem execVshl_nextOk {s : State} (h : s.memOk) (t m d a b) : nextOk (execVshl t m d a b s) :=
  vec2_nextOk h wrVQ_keeps ..
theorem execVshr_nextOk {s : State} (h : s.memOk) (t m d a b) : nextOk (execVshr t m d a b s) :=
  vec2_nextOk h wrVQ_keeps ..
theorem execVsra_nextOk {s : State} (h : s.memOk) (t m d a b) : nextOk (execVsra t m d a b s) :=
  vec2_nextOk h wrVQ_keeps ..
theorem execVsel_nextOk {s : State} (h : s.memOk) (t m d a b) : nextOk (execVsel t m d a b s) :=
  instr_nextOk (by grind [wrVQ_keeps, rdM_keeps, rdVQ_keeps, freshVQ_keeps, keeps_bind, keeps_get_bind]) h _
theorem execVmov_nextOk {s : State} (h : s.memOk) (t m d a) : nextOk (execVmov t m d a s) :=
  vec1_nextOk h wrVQ_keeps ..
theorem execVbcast_nextOk {s : State} (h : s.memOk) (t m d a) : nextOk (execVbcast t m d a s) :=
  instr_nextOk (by grind [wrVQ_keeps, vecOp_keeps, rdQ_keeps, freshVQ_keeps, namesQ_keeps, keeps_bind, keeps_get_bind]) h _
theorem execVbcastImm_nextOk {s : State} (h : s.memOk) (d imm) : nextOk (execVbcastImm d imm s) :=
  instr_nextOk (by grind [wrVQ_keeps, freshVQ_keeps, keeps_bind, keeps_get_bind]) h _

/-! ### Lane movement (R427, R420) -/
theorem execVperm_nextOk {s : State} (h : s.memOk) (t m d a b c) : nextOk (execVperm t m d a b c s) :=
  instr_nextOk (by grind [wrVQ_keeps, vecOp_keeps, rdVQ_keeps, freshVQ_keeps, keeps_bind, keeps_get_bind]) h _
theorem execVslide_nextOk {s : State} (h : s.memOk) (t m d a b) : nextOk (execVslide t m d a b s) :=
  instr_nextOk (by grind [wrVQ_keeps, vecOp_keeps, rdS_keeps, rdVQ_keeps, freshVQ_keeps, names_keeps, keeps_bind, keeps_get_bind]) h _
theorem execVzip_nextOk {s : State} (h : s.memOk) (hi uz t m d a b) : nextOk (execVzip hi uz t m d a b s) :=
  instr_nextOk (by grind [wrVQ_keeps, vecOp_keeps, rdVQ_keeps, freshVQ_keeps, keeps_bind, keeps_get_bind]) h _
theorem execVext_nextOk {s : State} (h : s.memOk) (t d a b) : nextOk (execVext t d a b s) :=
  instr_nextOk (by grind [wrQ_keeps, rdS_keeps, rdVQ_keeps, names_keeps, keeps_bind, keeps_get_bind]) h _
theorem execVextImm_nextOk {s : State} (h : s.memOk) (t d a imm) : nextOk (execVextImm t d a imm s) :=
  instr_nextOk (by grind [wrQ_keeps, rdVQ_keeps, namesQ_keeps, keeps_bind, keeps_get_bind]) h _
theorem execVins_nextOk {s : State} (h : s.memOk) (t d a b) : nextOk (execVins t d a b s) :=
  instr_nextOk (by grind [wrV_keeps, rdV_keeps, rdS_keeps, rdQ_keeps, freshV_keeps, names_keeps, keeps_bind, keeps_get_bind]) h _

/-! ### Reductions and scans (R428, R429) -/
theorem execVredI_nextOk {s : State} (h : s.memOk) (op t m d a) : nextOk (execVredI op t m d a s) :=
  instr_nextOk (by grind [wrQ_keeps, rdM_keeps, rdVQ_keeps, namesQ_keeps, keeps_bind, keeps_get_bind]) h _
theorem execVredF_nextOk {s : State} (h : s.memOk) (op t rm sat m d a) : nextOk (execVredF op t rm sat m d a s) :=
  instr_nextOk (by grind [wrQ_keeps, settle_keeps, rngOne_keeps, rdM_keeps, rdVQ_keeps, namesQ_keeps, keeps_bind, keeps_get_bind]) h _
theorem vscanM_nextOk {s : State} (h : s.memOk) (t m d a rm f) : nextOk (vscanM t m d a rm f s) :=
  instr_nextOk (by grind [wrVQ_keeps, vecOp_keeps, rngTake_keeps, rdMask_keeps, rdVQ_keeps, freshVQ_keeps, keeps_bind, keeps_get_bind]) h
    _
theorem execVscanI_nextOk {s : State} (h : s.memOk) (op t sat m d a) : nextOk (execVscanI op t sat m d a s) := vscanM_nextOk h ..
theorem execVscanF_nextOk {s : State} (h : s.memOk) (op t rm sat m d a) : nextOk (execVscanF op t rm sat m d a s) := vscanM_nextOk h ..

/-! ### Conversions (R165, R417) -/
theorem vcvtM_nextOk {s : State} (h : s.memOk) (dt st om rm m d a n off) : nextOk (vcvtM dt st om rm m d a n off s) :=
  instr_nextOk (by grind [wrVQ_keeps, me_keeps, settle_keeps, rdMask_keeps, rngTake_keeps, rdVQ_keeps, freshVQ_keeps, keeps_bind,
    keeps_get_bind]) h _
theorem execVcvtSame_nextOk {s : State} (h : s.memOk) (dt st om rm _part m d a) : nextOk (execVcvtSame dt st om rm _part m d a s) :=
  vcvtM_nextOk h ..
theorem execVcvtWide_nextOk {s : State} (h : s.memOk) (dt st om rm part m d a) : nextOk (execVcvtWide dt st om rm part m d a s) :=
  vcvtM_nextOk h ..
theorem execVcvtNarrow_nextOk {s : State} (h : s.memOk) (dt st om rm part m d a) : nextOk (execVcvtNarrow dt st om rm part m d a s) :=
  vcvtM_nextOk h ..

/-! ### Block quantisation (R167, R168, R430) -/
theorem execVqnt_nextOk {s : State} (h : s.memOk) (fm om rm part d b a) : nextOk (execVqnt fm om rm part d b a s) := by
  refine instr_nextOk (keeps_bind (names_keeps ..) fun _ => keeps_bind (freshVQ_keeps _) fun _ => keeps_bind (rdS_keeps _) fun sb =>
    keeps_bind (rdVQ_keeps _) fun x => keeps_bind ?_ fun _ => keeps_bind (rngTake_keeps ..) fun rw => keeps_bind (countAll_keeps _) fun _
      =>
    keeps_bind me_keeps fun c => keeps_bind (wrVQ_keeps ..) fun _ => wrS_keeps ..) h _
  split <;> [exact settle_keeps _; exact keeps_pure _]
theorem execVdqnt_nextOk {s : State} (h : s.memOk) (fm om part d a b) : nextOk (execVdqnt fm om part d a b s) :=
  instr_nextOk (by grind [wrVQ_keeps, vecOp_keeps, rdVQ_keeps, rdS_keeps, freshVQ_keeps, names_keeps, keeps_bind, keeps_get_bind]) h _

/-! ### The generator (R169, R431) -/
theorem execVrnd_nextOk {s : State} (h : s.memOk) (m d a) : nextOk (execVrnd m d a s) :=
  instr_nextOk (by grind [wrVQ_keeps, vecOp_keeps, me_keeps, modMe_keeps, keeps_pure, rdS_keeps, freshVQ_keeps, names_keeps, keeps_bind,
    keeps_get_bind]) h _

end Sys2Proof.Machine

/-! ## The canonical form: memory instructions -/
namespace Sys2Proof.Machine

/-! ### Scalar (R367, R400) -/
theorem ldOneM_nextOk {s : State} (h : s.memOk) (op ord sz d m) : nextOk (ldOneM op ord sz d m s) :=
  instr_nextOk (by grind [wrS_keeps, loadM_keeps, eaM_keeps, names_keeps, keeps_bind, keeps_get_bind]) h _
theorem execLd_nextOk {s : State} (h : s.memOk) (sz d m) : nextOk (execLd sz d m s) := ldOneM_nextOk h ..
theorem execLdOrdered_nextOk {s : State} (h : s.memOk) (o sc sz d m) : nextOk (execLdOrdered o sc sz d m s) := ldOneM_nextOk h ..
theorem execLdAbs_nextOk {s : State} (h : s.memOk) (d addr) : nextOk (execLdAbs d addr s) :=
  instr_nextOk (by grind [wrS_keeps, loadM_keeps, names_keeps, keeps_bind, keeps_get_bind]) h _
theorem stOneM_nextOk {s : State} (h : s.memOk) (op ord sz d m) : nextOk (stOneM op ord sz d m s) :=
  instr_nextOk (by grind [storeM_keeps, rdS_keeps, eaM_keeps, names_keeps, keeps_bind, keeps_get_bind]) h _
theorem execSt_nextOk {s : State} (h : s.memOk) (sz d m) : nextOk (execSt sz d m s) := stOneM_nextOk h ..
theorem execStOrdered_nextOk {s : State} (h : s.memOk) (o sc sz d m) : nextOk (execStOrdered o sc sz d m s) := stOneM_nextOk h ..
theorem execStAbs_nextOk {s : State} (h : s.memOk) (d addr) : nextOk (execStAbs d addr s) :=
  instr_nextOk (by grind [storeM_keeps, rdS_keeps, names_keeps, keeps_bind, keeps_get_bind]) h _

/-! ### Lanes (R421, R432) -/
theorem checkLine_keeps (va k) : M.Keeps (checkLine va k) := by
  unfold checkLine
  grind [keeps_pure, trapM_keeps, myActor_keeps, keeps_get, keeps_bind, keeps_get_bind]
theorem loadLanesInto_keeps (w ord k d addr) : M.Keeps (loadLanesInto w ord k d addr) := by
  unfold loadLanesInto
  grind [wrV_keeps, me_keeps, loadM_keeps, rdM_keeps, keeps_bind, keeps_get_bind]
theorem storeLanesFrom_keeps (w code ord k x addr) : M.Keeps (storeLanesFrom w code ord k x addr) := by
  unfold storeLanesFrom
  grind [storeM_keeps, rdM_keeps, keeps_bind, keeps_get_bind]
theorem checkVec_keeps (k va kind) : M.Keeps (checkVec k va kind) := by
  unfold checkVec
  grind [checkLine_keeps, keeps_pure, rdM_keeps, keeps_bind, keeps_get_bind]
theorem vldM_nextOk {s : State} (h : s.memOk) (op ord k d m) : nextOk (vldM op ord k d m s) :=
  instr_nextOk (by grind [loadLanesInto_keeps, checkVec_keeps, eaM_keeps, freshV_keeps, names_keeps, keeps_bind, keeps_get_bind]) h _
theorem execVld_nextOk {s : State} (h : s.memOk) (k d m) : nextOk (execVld k d m s) := vldM_nextOk h ..
theorem execVldOrdered_nextOk {s : State} (h : s.memOk) (o sc k d m) : nextOk (execVldOrdered o sc k d m s) := vldM_nextOk h ..
theorem execVldAbs_nextOk {s : State} (h : s.memOk) (d addr) : nextOk (execVldAbs d addr s) :=
  instr_nextOk (by grind [loadLanesInto_keeps, checkVec_keeps, freshV_keeps, keeps_bind, keeps_get_bind]) h _
theorem vstM_nextOk {s : State} (h : s.memOk) (op ord k d m) : nextOk (vstM op ord k d m s) :=
  instr_nextOk (by grind [storeLanesFrom_keeps, checkVec_keeps, eaM_keeps, rdV_keeps, names_keeps, keeps_bind, keeps_get_bind]) h _
theorem execVst_nextOk {s : State} (h : s.memOk) (k d m) : nextOk (execVst k d m s) := vstM_nextOk h ..
theorem execVstOrdered_nextOk {s : State} (h : s.memOk) (o sc k d m) : nextOk (execVstOrdered o sc k d m s) := vstM_nextOk h ..
theorem execVstAbs_nextOk {s : State} (h : s.memOk) (d addr) : nextOk (execVstAbs d addr s) :=
  instr_nextOk (by grind [storeLanesFrom_keeps, checkVec_keeps, rdV_keeps, keeps_bind, keeps_get_bind]) h _
theorem vldxM_nextOk {s : State} (h : s.memOk) (op ord w k d x) : nextOk (vldxM op ord w k d x s) :=
  instr_nextOk (by grind [loadLanesInto_keeps, rdV_keeps, rdS_keeps, freshV_keeps, names_keeps, keeps_bind, keeps_get_bind]) h _
theorem execVldx_nextOk {s : State} (h : s.memOk) (w k d x) : nextOk (execVldx w k d x s) := vldxM_nextOk h ..
theorem execVldxOrdered_nextOk {s : State} (h : s.memOk) (o sc w k d x) : nextOk (execVldxOrdered o sc w k d x s) := vldxM_nextOk h ..
theorem vstxM_nextOk {s : State} (h : s.memOk) (op ord w k d x) : nextOk (vstxM op ord w k d x s) :=
  instr_nextOk (by grind [storeLanesFrom_keeps, rdS_keeps, rdV_keeps, names_keeps, keeps_bind, keeps_get_bind]) h _
theorem execVstx_nextOk {s : State} (h : s.memOk) (w k d x) : nextOk (execVstx w k d x s) := vstxM_nextOk h ..
theorem execVstxOrdered_nextOk {s : State} (h : s.memOk) (o sc w k d x) : nextOk (execVstxOrdered o sc w k d x s) := vstxM_nextOk h ..
theorem vldsM_nextOk {s : State} (h : s.memOk) (op ord w k d m) : nextOk (vldsM op ord w k d m s) :=
  instr_nextOk (by grind [loadLanesInto_keeps, rdS_keeps, freshV_keeps, names_keeps, keeps_bind, keeps_get_bind]) h _
theorem execVlds_nextOk {s : State} (h : s.memOk) (w k d m) : nextOk (execVlds w k d m s) := vldsM_nextOk h ..
theorem execVldsOrdered_nextOk {s : State} (h : s.memOk) (o sc w k d m) : nextOk (execVldsOrdered o sc w k d m s) := vldsM_nextOk h ..
theorem vstsM_nextOk {s : State} (h : s.memOk) (op ord w k d m) : nextOk (vstsM op ord w k d m s) :=
  instr_nextOk (by grind [storeLanesFrom_keeps, rdS_keeps, rdV_keeps, names_keeps, keeps_bind, keeps_get_bind]) h _
theorem execVsts_nextOk {s : State} (h : s.memOk) (w k d m) : nextOk (execVsts w k d m s) := vstsM_nextOk h ..
theorem execVstsOrdered_nextOk {s : State} (h : s.memOk) (o sc w k d m) : nextOk (execVstsOrdered o sc w k d m s) := vstsM_nextOk h ..

/-! ### Full/empty accesses (R369, R402) -/
theorem scratchWindow_keeps (va) : M.Keeps (scratchWindow va) := needM_keeps ..
theorem resolveScratch_keeps (va n k) : M.Keeps (resolveScratch va n k) := by
  unfold resolveScratch
  grind [keeps_pure, trapM_keeps, spend_keeps, resolveM_keeps, scratchWindow_keeps, keeps_bind, keeps_get_bind]
theorem ownSync_keeps (k m) : M.Keeps (ownSync k m) := by
  unfold ownSync
  grind [memOk_iff, waitLine_keeps, keeps_pure, testWaiters_memOk, keeps_set, trapM_keeps, serveSync_memOk, keeps_get, keeps_bind,
    keeps_get_bind]
theorem syncAccess_keeps (t m) : M.Keeps (syncAccess t m) := by
  unfold syncAccess
  grind [spend_keeps, ownSync_keeps, keeps_get, sendAndWait_keeps, reserveM_keeps, markRoomM_keeps, keeps_pure, pendingM_keeps,
    keeps_bind, keeps_get_bind]
theorem ldfLine_keeps (mode sc n ea mask) : M.Keeps (ldfLine mode sc n ea mask) := by
  unfold ldfLine
  grind [endAcquire_keeps, keeps_pure, syncAccess_keeps, myActor_keeps, resolveScratch_keeps, endRegion_keeps, keeps_bind, keeps_get_bind]
theorem execLdfS_nextOk {s : State} (h : s.memOk) (mode sc sz d m) : nextOk (execLdfS mode sc sz d m s) :=
  instr_nextOk (by grind [wrS_keeps, ldfLine_keeps, eaM_keeps, names_keeps, keeps_bind, keeps_get_bind]) h _
theorem execLdfV_nextOk {s : State} (h : s.memOk) (mode sc k d m) : nextOk (execLdfV mode sc k d m s) :=
  instr_nextOk (by grind [wrV_keeps, me_keeps, ldfLine_keeps, rdM_keeps, eaM_keeps, freshV_keeps, names_keeps, keeps_bind,
    keeps_get_bind]) h _
theorem stfLine_keeps (mode sc n code ea mask data) : M.Keeps (stfLine mode sc n code ea mask data) := by
  unfold stfLine
  grind [syncAccess_keeps, modMe_keeps, endRegion_keeps, me_keeps, myActor_keeps, resolveScratch_keeps, beginRelease_keeps, keeps_bind,
    keeps_get_bind]
theorem execStfS_nextOk {s : State} (h : s.memOk) (mode sc sz d m) : nextOk (execStfS mode sc sz d m s) :=
  instr_nextOk (by grind [stfLine_keeps, rdS_keeps, eaM_keeps, names_keeps, keeps_bind, keeps_get_bind]) h _
theorem execStfV_nextOk {s : State} (h : s.memOk) (mode sc k d m) : nextOk (execStfV mode sc k d m s) :=
  instr_nextOk (by grind [stfLine_keeps, rdM_keeps, eaM_keeps, rdV_keeps, names_keeps, keeps_bind, keeps_get_bind]) h _
theorem setLineM_keeps (op m full) : M.Keeps (setLineM op m full) := by
  unfold setLineM
  refine keeps_bind (names_keeps ..) fun _ => keeps_bind (eaM_keeps ..) fun ea => keeps_bind ?_ fun r =>
    keeps_bind (resolveScratch_keeps ..) fun t => keeps_bind myActor_keeps fun a => keeps_bind ?_ fun _ => ?_
  · grind [keeps_pure, beginRelease_keeps, keeps_bind]
  · split <;> grind [homeSetLine_memOk, modS_keeps, sendPosted_keeps, reserveM_keeps, keeps_pure, keeps_bind, keeps_get_bind]
  · split <;> [exact endRegion_keeps; exact keeps_pure _]
theorem execFset_nextOk {s : State} (h : s.memOk) (m) : nextOk (execFset m s) :=
  instr_nextOk (setLineM_keeps ..) h _
theorem execFclr_nextOk {s : State} (h : s.memOk) (m) : nextOk (execFclr m s) :=
  instr_nextOk (setLineM_keeps ..) h _

/-! ### Atomics (R337 to R339, R412, R413) -/
theorem beginAtomic_keeps (o sc) : M.Keeps (beginAtomic o sc) := by
  unfold beginAtomic
  grind [keeps_pure, beginRelease_keeps, endRegion_keeps, keeps_bind, keeps_get_bind, fenceRel_keeps]
theorem endAtomic_keeps (o sc rels) : M.Keeps (endAtomic o sc rels) := by
  unfold endAtomic
  grind [endAcquire_keeps, keeps_bind, keeps_get_bind, endRegion_keeps, observe_keeps]

theorem atomics_keeps (op n acq r ls) : M.Keeps (atomics op n acq r ls) := by
  unfold atomics
  split
  · exact keeps_pure _
  · refine keeps_get_bind fun s h => keeps_bind myActor_keeps fun a => ?_
    have hdone := homeAtomic_memOk h a op n acq r ls
    split
    · split
      · exact trapM_keeps ..
      · exact trapM_keeps ..
      · grind [modMe_keeps, keeps_set, keeps_bind, keeps_pure]
      · exact keeps_pure _
    · refine keeps_bind pendingM_keeps fun acc => ?_
      split
      · exact keeps_bind (modMe_keeps _) fun _ => keeps_pure _
      · refine keeps_bind (markRoomM_keeps _) fun _ => keeps_bind (reserveM_keeps _) fun _ => sendAndWait_keeps (fun s h => ?_) ..
        exact foldl_memOk (fun s l h => by split <;> [exact dropL1_memOk h ..; exact h]) h _

theorem amoM_nextOk {s : State} (h : s.memOk) (opc n op o sc d a disp b) : nextOk (amoM opc n op o sc d a disp b s) := by
  refine instr_nextOk (keeps_bind (names_keeps ..) fun _ => keeps_bind (rdS_keeps _) fun base => keeps_bind (rdS_keeps _) fun y =>
    keeps_bind (rdS_keeps _) fun e => keeps_bind (beginAtomic_keeps ..) fun r => keeps_bind myGroup_keeps fun g =>
    keeps_get_bind fun s _ => keeps_bind (resolveM_keeps ..) fun t => keeps_bind myActor_keeps fun act => ?_) h _
  dsimp only
  split
  · exact sideLogM_keeps _
  · split
    · exact trapM_keeps ..
    · split
      · split <;> [exact sideLogM_keeps _; exact spend_keeps]
      · refine keeps_bind (atomics_keeps ..) fun p => keeps_bind ?_ fun _ => endAtomic_keeps ..
        split <;> [exact wrS_keeps ..; exact keeps_pure _]
theorem execAmo32_nextOk {s : State} (h : s.memOk) (op o sc d a disp b) : nextOk (execAmo32 op o sc d a disp b s) := amoM_nextOk h ..
theorem execAmo64_nextOk {s : State} (h : s.memOk) (op o sc d a disp b) : nextOk (execAmo64 op o sc d a disp b s) := amoM_nextOk h ..
theorem vamoLanes_keeps (n x lanes) : M.Keeps (vamoLanes n x lanes) := by
  induction lanes with
  | nil => exact keeps_pure _
  | cons p t ih =>
    refine keeps_bind (resolveM_keeps ..) fun g => ?_
    split
    · exact spend_keeps
    · split
      · exact trapM_keeps ..
      · exact keeps_bind ih fun r => keeps_pure _
theorem vamoM_nextOk {s : State} (h : s.memOk) (opc n op o sc k d a b scale disp) :
    nextOk (vamoM opc n op o sc k d a b scale disp s) := by
  refine instr_nextOk (keeps_bind (names_keeps ..) fun _ => keeps_bind (freshV_keeps _) fun _ => keeps_bind (rdV_keeps _) fun x =>
    keeps_bind ?_ fun ix => keeps_bind (rdS_keeps _) fun base => keeps_bind (rdM_keeps _) fun m =>
    keeps_bind (beginAtomic_keeps ..) fun r => keeps_bind myGroup_keeps fun g => keeps_get_bind fun s _ =>
    keeps_bind (vamoLanes_keeps ..) fun ls => keeps_bind ?_ fun _ => keeps_bind (atomics_keeps ..) fun p => keeps_bind ?_ fun _ =>
    endAtomic_keeps ..) h _
  · cases b <;> [exact keeps_pure _; exact rdV_keeps _]
  · exact keeps_ite spend_keeps (keeps_pure _)
  · split <;> [exact wrV_keeps ..; exact keeps_pure _]
theorem execVamo32_nextOk {s : State} (h : s.memOk) (op o sc k d a b scale disp) : nextOk (execVamo32 op o sc k d a b scale disp s) :=
  vamoM_nextOk h ..
theorem execVamo16_nextOk {s : State} (h : s.memOk) (op o sc k d a b scale disp) : nextOk (execVamo16 op o sc k d a b scale disp s) :=
  vamoM_nextOk h ..

/-! ### Sub-byte stores (R403) -/
theorem execStn_nextOk {s : State} (h : s.memOk) (w d a b disp) : nextOk (execStn w d a b disp s) := by
  refine instr_nextOk (keeps_bind (names_keeps ..) fun _ => keeps_bind (rdS_keeps _) fun base => keeps_bind (rdS_keeps _) fun e =>
    keeps_bind (rdS_keeps _) fun x => keeps_bind fenceRel_keeps fun r => keeps_bind myGroup_keeps fun g =>
    keeps_get_bind fun s _ => keeps_bind (resolveM_keeps ..) fun t => keeps_bind myActor_keeps fun act => ?_) h _
  dsimp only
  split
  · exact sideLogM_keeps _
  · split
    · exact trapM_keeps ..
    · split
      · exact sideLogM_keeps _
      · refine keeps_get_bind fun s _ => ?_
        split
        · exact modMe_keeps _
        · refine keeps_bind (markRoomM_keeps _) fun _ => keeps_bind (reserveM_keeps _) fun _ => keeps_bind (checkM_keeps ..) fun _ =>
            keeps_get_bind fun s _ => ?_
          grind [sendPosted_keeps, dropL1_memOk, keeps_pure, homeNibble_memOk, modS_keeps, keeps_bind]

/-! ### Fences (R148) -/
theorem execFence_nextOk {s : State} (h : s.memOk) (o sc) : nextOk (execFence o sc s) := by
  refine instr_nextOk (keeps_bind ?_ fun _ => keeps_bind endRegion_keeps fun _ => ?_) h _
  · grind [keeps_pure, modMe_keeps, myRel_keeps, releaseM_keeps, keeps_bind]
  · grind [endAcquire_keeps, me_keeps, keeps_pure, keeps_bind]

/-! ### Prefetch (R391) -/
theorem prefLine_keeps (va) : M.Keeps (prefLine va) := by
  unfold prefLine
  grind [memOk_iff, sendTo_memOk, modCore_memOk, modS_keeps, keeps_pure, myActor_keeps, keeps_get, keeps_bind, keeps_get_bind]
theorem prefLines_keeps (vas) : M.Keeps (prefLines vas) := by
  induction vas with
  | nil => exact keeps_pure _
  | cons va t ih => exact keeps_bind (prefLine_keeps va) fun _ => ih
theorem execPref_nextOk {s : State} (h : s.memOk) (m) : nextOk (execPref m s) :=
  instr_nextOk (by grind [prefLines_keeps, eaM_keeps, names_keeps, keeps_bind, keeps_get_bind]) h _
theorem execPrefRange_nextOk {s : State} (h : s.memOk) (a disp b) : nextOk (execPrefRange a disp b s) :=
  instr_nextOk (by grind [prefLines_keeps, rdS_keeps, names_keeps, keeps_bind, keeps_get_bind]) h _

/-! ### Ranged maintenance (R129, R130, R346) -/
theorem maintL1_memOk {s : State} (h : s.memOk) (a inv k) : (s.maintL1 a inv k).1.memOk := by
  unfold State.maintL1
  grind [writeBackLine_memOk, modCore_memOk]
theorem podRoutes_keeps (s msgs) : M.Keeps (podRoutes s msgs) := by
  induction msgs with
  | nil => exact keeps_pure _
  | cons p t ih =>
    refine keeps_bind ih fun r => ?_
    split <;> [exact spend_keeps; exact keeps_pure _; exact keeps_pure _]

/-- The L1 of the core and then the slices: what a ranged maintenance does at its own panel (R129). -/
theorem maintLevels_memOk {s : State} (h : s.memOk) (act inv keys slices) :
    (maintAll (fun s k => s.maintSlice (some act) inv k) slices (maintAll (fun s k => s.maintL1 act inv k) keys (s, 0))).1.memOk :=
  maintAll_memOk (fun _ _ h => maintSlice_memOk h ..) _ (maintAll_memOk (fun _ _ h => maintL1_memOk h ..) _ h)

theorem maintM_nextOk {s : State} (h : s.memOk) (op inv sc d a disp b) : nextOk (maintM op inv sc d a disp b s) := by
  refine instr_nextOk (keeps_bind (names_keeps ..) fun _ => keeps_bind (rdS_keeps _) fun base => keeps_bind (rdS_keeps _) fun len => ?_)
    h _
  split
  · exact wrSLate_keeps ..
  · split
    · exact trapM_keeps ..
    · refine keeps_get_bind fun s h => keeps_bind myActor_keeps fun act => keeps_bind ?_ fun _ => keeps_bind pendingM_keeps fun done =>
        keeps_bind (podRoutes_keeps ..) fun msgs => ?_
      · split <;> [exact trapM_keeps ..; split <;> [exact trapM_keeps ..; exact keeps_pure _]]
      · dsimp only
        split
        · refine keeps_bind (reserveM_keeps _) fun _ => sendAndWait_keeps (fun s h => ?_) ..
          exact modMe_memOk (maintLevels_memOk h ..) _
        · refine keeps_bind (keeps_set ?_) fun _ => keeps_bind (wrSLate_keeps ..) fun _ => modMe_keeps _
          split <;> [exact h; exact maintLevels_memOk h ..]
theorem execCwbr_nextOk {s : State} (h : s.memOk) (sc d a disp b) : nextOk (execCwbr sc d a disp b s) := maintM_nextOk h ..
theorem execCinvr_nextOk {s : State} (h : s.memOk) (sc d a disp b) : nextOk (execCinvr sc d a disp b s) := maintM_nextOk h ..

end Sys2Proof.Machine

/-! ## The canonical form: port instructions, helpers and tasks -/
namespace Sys2Proof.Machine

/-! ### Descriptors (R57) -/
theorem readBlock_keeps (va n al) : M.Keeps (readBlock va n al) := by
  unfold readBlock
  refine keeps_bind myGroup_keeps fun g => keeps_bind ?_ fun _ => keeps_get_bind fun s _ => keeps_bind myActor_keeps fun a =>
    keeps_bind ?_ fun _ => keeps_bind (keeps_tryCatch (loadM_keeps ..) fun e he => ?_) fun vs => keeps_pure _
  · grind [keeps_pure, trapM_keeps]
  · grind [keeps_pure, trapM_keeps]
  · split
    · exact keeps_throw trivial
    · exact keeps_throw trivial
    · exact keeps_throw trivial
    · exact keeps_throw he
theorem reachPort_memOk {s : State} (h : s.memOk) (core p) : (s.reachPort core p).memOk := by
  unfold State.reachPort
  grind [reachChan_memOk, modGroup_memOk]
theorem unbindPort_memOk {s : State} (h : s.memOk) (core ctx q) : (s.unbindPort core ctx q).memOk := by
  unfold State.unbindPort
  grind [post_memOk, modGroup_memOk]

/-! ### The instructions (R387) -/
theorem execPbind_nextOk {s : State} (h : s.memOk) (d q a) : nextOk (execPbind d q a s) :=
  instr_nextOk (by grind [wrS_keeps, keeps_pure, modGroup_memOk, reachPort_memOk, modS_keeps, keeps_get, readBlock_keeps, rdS_keeps,
    names_keeps, keeps_bind, keeps_get_bind]) h _
theorem execPfree_nextOk {s : State} (h : s.memOk) (q) : nextOk (execPfree q s) :=
  instr_nextOk (by grind [unbindPort_memOk, modS_keeps, spend_keeps, keeps_pure, keeps_get, keeps_bind, keeps_get_bind]) h _
theorem execPstat_nextOk {s : State} (h : s.memOk) (d q) : nextOk (execPstat d q s) :=
  instr_nextOk (by grind [wrS_keeps, keeps_get, names_keeps, keeps_bind, keeps_get_bind]) h _
theorem execPclose_nextOk {s : State} (h : s.memOk) (q) : nextOk (execPclose q s) :=
  instr_nextOk (by grind [pushElem_keeps, modMe_keeps, misuse_keeps, me_keeps, keeps_bind, keeps_get_bind]) h _
theorem execPmark_nextOk {s : State} (h : s.memOk) (q k) : nextOk (execPmark q k s) :=
  instr_nextOk (by grind [pushElem_keeps, keeps_pure, needM_keeps, misuse_keeps, myGroup_keeps, me_keeps, keeps_bind, keeps_get_bind]) h _

/-! ### Group names (R30, R65) -/
theorem liveNameM_keeps (name) : M.Keeps (liveNameM name) := by
  unfold liveNameM
  grind [keeps_pure, trapM_keeps, keeps_get, keeps_bind, keeps_get_bind]
theorem routeM_keeps (name) : M.Keeps (routeM name) := by
  unfold routeM
  grind [keeps_pure, spend_keeps, trapM_keeps, keeps_get, keeps_bind, keeps_get_bind]

/-! ### Starting a helper (R34, R38, R398) -/
theorem startIn_memOk {s : State} (h : s.memOk) (core slot pc args clock tk) : (s.startIn core slot pc args clock tk).memOk := by
  unfold State.startIn
  grind [memOk_iff, modCtx_memOk, modCore_memOk, unbindPort_memOk, foldl_memOk]
theorem startHelper_memOk {s : State} (h : s.memOk) (core pc args clock) : (s.startHelper core pc args clock).1.memOk := by
  unfold State.startHelper
  grind [startIn_memOk]
theorem startM_keeps (d target args) : M.Keeps (startM d target args) := by
  unfold startM
  grind [wrS_keeps, endRegion_keeps, keeps_set, startHelper_memOk, keeps_get, beginRelease_keeps, keeps_bind, keeps_get_bind]
theorem execStart_nextOk {s : State} (h : s.memOk) (d b c) : nextOk (execStart d b c s) :=
  instr_nextOk (by grind [startM_keeps, rdArgs_keeps, rdS_keeps, names_keeps, keeps_bind, keeps_get_bind]) h _
theorem execStartFe_nextOk {s : State} (h : s.memOk) (d c target) : nextOk (execStartFe d c target s) :=
  instr_nextOk (by grind [startM_keeps, rdArgs_keeps, names_keeps, keeps_bind, keeps_get_bind]) h _

/-! ### Spawn (R39, R399) -/
theorem inlineChild_keeps (len d target args) : M.Keeps (inlineChild len d target args) :=
  keeps_bind me_keeps fun _ => keeps_bind (wrS_keeps ..) fun _ => keeps_bind shiftUp_keeps fun _ => keeps_bind (wrS_keeps ..) fun _ =>
    keeps_bind (wrS_keeps ..) fun _ => keeps_bind (wrS_keeps ..) fun _ => keeps_bind (wrS_keeps ..) fun _ =>
    keeps_bind (wrS_keeps ..) fun _ => jumpTo_keeps _
theorem spawnM_keeps (len d name target args) : M.Keeps (spawnM len d name target args) := by
  unfold spawnM
  refine keeps_bind me_keeps fun c => ?_
  split
  · grind [advance_keeps, wrS_keeps, endRegion_keeps, keeps_bind]
  · exact trapM_keeps ..
  · grind [inlineChild_keeps, endRegion_keeps, keeps_bind]
  · split
    · exact spend_keeps
    · exact keeps_bind (liveNameM_keeps _) fun _ => keeps_bind (routeM_keeps _) fun _ => keeps_bind (beginRelease_keeps _) fun r =>
        keeps_bind (reserveM_keeps _) fun _ => keepFlush_bind_keeps fun flush hflush => keeps_bind myGroup_keeps fun g =>
        stayM_keeps fun s h => sendTo_memOk (modMe_memOk (modCore_memOk (hflush s h) ..) _) ..
theorem execSpawn_nextOk {s : State} (h : s.memOk) (d a b c) : nextOk (execSpawn d a b c s) :=
  runInstr_nextOk (by grind [spawnM_keeps, rdArgs_keeps, rdS_keeps, names_keeps, keeps_bind, keeps_get_bind]) h _
theorem execSpawnFe_nextOk {s : State} (h : s.memOk) (d a c target) : nextOk (execSpawnFe d a c target s) :=
  runInstr_nextOk (by grind [spawnM_keeps, rdArgs_keeps, rdS_keeps, names_keeps, keeps_bind, keeps_get_bind]) h _

/-! ### Join, halt, tdone (R38, R44, R363, R365, R406) -/
theorem execJoin_nextOk {s : State} (h : s.memOk) (d a) : nextOk (execJoin d a s) :=
  instr_nextOk (by grind [spend_keeps, wrS_keeps, endAcquire_keeps, endRegion_keeps, keeps_get, rdS_keeps, names_keeps, keeps_bind,
    keeps_get_bind]) h _
theorem endContext_keeps (exit) : M.Keeps (endContext exit) := by
  unfold endContext
  grind [modMe_keeps, modLaunch_memOk, modS_keeps, beginRelease_keeps, keeps_bind, keeps_get_bind]
theorem endTask_keeps : M.Keeps endTask := by
  unfold endTask
  grind [modMyGroup_keeps, keeps_get, endContext_keeps, keeps_bind, keeps_get_bind]
theorem haltM_keeps (a) : M.Keeps (haltM a) := by
  unfold haltM
  grind [endContext_keeps, keeps_get, endTask_keeps, retM_keeps, rdS_keeps, me_keeps, keeps_bind, keeps_get_bind]
theorem execHalt_nextOk {s : State} (h : s.memOk) (a) : nextOk (execHalt a s) :=
  runInstr_nextOk (by grind [haltM_keeps, names_keeps, keeps_bind, keeps_get_bind]) h _
theorem execTdone_nextOk {s : State} (h : s.memOk) : nextOk (execTdone s) :=
  runInstr_nextOk (by grind [haltM_keeps, endTask_keeps, me_keeps, keeps_bind, keeps_get_bind]) h _

/-! ### Barriers (R46 to R48, R340) -/
theorem modBar_memOk {s : State} (h : s.memOk) (launch d f) : (s.modBar launch d f).memOk :=
  modLaunch_memOk h ..
theorem gatherAddrM_keeps (va) : M.Keeps (gatherAddrM va) := by
  unfold gatherAddrM
  grind [keeps_pure, trapM_keeps, myActor_keeps, keeps_get, keeps_bind, keeps_get_bind]
theorem arriveM_keeps (d addr mask root) : M.Keeps (arriveM d addr mask root) := by
  unfold arriveM
  refine keeps_get_bind fun s _ => ?_
  dsimp only
  split
  · exact stayM_keeps fun s h => modMe_memOk h _
  · refine keeps_bind (keeps_ite (gatherAddrM_keeps _) (keeps_pure _)) fun _ => keeps_bind (beginRelease_keeps _) fun r =>
      keepFlush_bind_keeps fun flush hflush => stayM_keeps fun s h => ?_
    exact modBar_memOk (modMe_memOk (hflush s h) _) ..
theorem execBar_nextOk {s : State} (h : s.memOk) (a b mask) : nextOk (execBar a b mask s) := by
  refine instr_nextOk (keeps_bind (names_keeps ..) fun _ => keeps_bind (rdS_keeps _) fun d => keeps_bind (rdS_keeps _) fun addr =>
    keeps_get_bind fun s _ => ?_) h _
  grind [endAcquire_keeps, endRegion_keeps, modMe_keeps, spend_keeps, arriveM_keeps, trapM_keeps, keeps_bind]

/-! ### Follow mode (R41, R362) -/
theorem execFollow_nextOk {s : State} (h : s.memOk) (d) : nextOk (execFollow d s) :=
  instr_nextOk (by grind [modMe_memOk, stayM_keeps, modMe_keeps, spend_keeps, wrS_keeps, keeps_get, names_keeps, keeps_bind,
    keeps_get_bind]) h _
theorem execLeave_nextOk {s : State} (h : s.memOk) : nextOk (execLeave s) :=
  instr_nextOk (modMe_keeps ..) h _

/-! ### Tasks (R42, R405) -/
theorem execTask_nextOk {s : State} (h : s.memOk) (d a) : nextOk (execTask d a s) := by
  refine instr_nextOk (keeps_bind (names_keeps ..) fun _ => keeps_bind (rdS_keeps _) fun va => keeps_bind (loadM_keeps ..) fun vs =>
    keeps_get_bind fun s _ => keeps_bind (beginRelease_keeps _) fun _ => keeps_bind (keeps_ite ?_ (keeps_pure _)) fun _ =>
    keeps_bind endRegion_keeps fun _ => wrS_keeps ..) h _
  exact keeps_bind myActor_keeps fun act => modS_keeps fun s h => modLaunch_memOk h ..

/-! ### Checkpoints (R291, R292, R347) -/
theorem execCkpt_nextOk {s : State} (h : s.memOk) (d a) : nextOk (execCkpt d a s) := by
  refine instr_nextOk (keeps_bind (names_keeps ..) fun _ => keeps_bind (rdS_keeps _) fun va =>
    keeps_bind (keeps_ite (keeps_pure _) (readBlock_keeps ..)) fun x => keeps_get_bind fun s _ => ?_) h _
  dsimp only
  refine keeps_ite (wrS_keeps ..) (keeps_ite (wrS_keeps ..) (keeps_ite (wrS_keeps ..) (keeps_ite spend_keeps ?_)))
  refine keeps_bind (markRoomM_keeps _) fun _ => keeps_bind (checkM_keeps ..) fun _ => ?_
  split
  · exact trapM_keeps ..
  · exact keeps_bind (modMyGroup_keeps _) fun _ => wrS_keeps ..

/-! ### Wake tokens (R40, R386, R434) -/
theorem execPark_nextOk {s : State} (h : s.memOk) : nextOk (execPark s) :=
  instr_nextOk (by grind [waitM_keeps, modMe_keeps, endAcquire_keeps, endRegion_keeps, me_keeps, keeps_bind, keeps_get_bind]) h _
theorem execWake_nextOk {s : State} (h : s.memOk) (a b) : nextOk (execWake a b s) :=
  instr_nextOk (keeps_bind (names_keeps ..) fun _ => keeps_bind (rdS_keeps _) fun _ => keeps_bind (rdS_keeps _) fun _ =>
    keeps_bind (routeM_keeps _) fun _ => keeps_bind (beginRelease_keeps _) fun _ => keeps_bind myGroup_keeps fun _ =>
    keeps_bind (modS_keeps fun _ h => sendTo_memOk h ..) fun _ => endRegion_keeps) h _

/-! ### Launch fields (R26, R31, R32, R103 to R105) -/
theorem engineActor_memOk {s : State} (h : s.memOk) (core ctx e) : (s.engineActor core ctx e).1.memOk :=
  h
theorem engineConflict_memOk {s : State} (h : s.memOk) (a write ps) : (s.engineConflict a write ps).memOk := by
  unfold State.engineConflict
  grind [report_memOk]
theorem engMark_keeps (write p) : E.Keeps (engMark write p) := by
  unfold engMark
  grind [Eng.memOk, engineConflict_memOk, markParts_memOk, keeps_set, keeps_throw, keeps_get, keeps_bind, keeps_get_bind]
theorem engLoc_keeps (va write) : E.Keeps (engLoc va write) := by
  unfold engLoc
  grind [Eng.memOk, keeps_throw, keeps_pure, keeps_get, keeps_bind, keeps_get_bind]
theorem engLine_keeps (t mask) : E.Keeps (engLine t mask) := by
  unfold engLine
  grind [Eng.memOk, memOk_iff, keeps_set, keeps_throw, keeps_pure, keeps_get, keeps_bind, keeps_get_bind]
theorem engPieces_keeps (ps) : E.Keeps (engPieces ps) := by
  induction ps with
  | nil => exact keeps_pure _
  | cons p rest ih =>
    exact keeps_bind (engLoc_keeps ..) fun t => keeps_bind (engLine_keeps ..) fun _ => keeps_bind (engMark_keeps ..) fun _ =>
      keeps_bind ih fun _ => keeps_pure _
theorem engRead_keeps (va n) : E.Keeps (engRead va n) := by
  unfold engRead
  grind [Eng.memOk, engPieces_keeps]
theorem engNum_keeps (va n) : E.Keeps (engNum va n) := by
  unfold engNum
  grind [Eng.memOk, keeps_pure, engRead_keeps, keeps_bind, keeps_get_bind]
theorem engSend_keeps (panel e) : E.Keeps (engSend panel e) := by
  unfold engSend
  grind [Eng.memOk, modCore_memOk, sendTo_memOk, keeps_set, keeps_throw, keeps_get, keeps_bind, keeps_get_bind]
theorem poisonMask_wf {st : Store} (h : st.mem.wf = true) (k mask) : (st.poisonMask k mask).mem.wf = true := by
  unfold Store.poisonMask
  grind [setPoison_wf]
theorem engPart_keeps (p) (psn) (rel : Option Rel) : E.Keeps (engPart p psn rel) := by
  unfold engPart
  refine keeps_bind (engMark_keeps ..) fun _ => keeps_get_bind fun g _ => ?_
  dsimp only
  split
  · exact engSend_keeps ..
  · split
    · refine keeps_ite (keeps_modify fun g h => ?_) (keeps_bind (keeps_modify fun g h => h) fun _ => engSend_keeps ..)
      grind [Eng.memOk, memOk_iff, modCore_memOk, poisonMask_wf, writeHome_memOk]
    · exact keeps_ite (keeps_throw trivial) (engSend_keeps ..)
theorem engSetLines_keeps (ps full) : E.Keeps (engSetLines ps full) := by
  unfold engSetLines
  refine keeps_get_bind fun g _ => keeps_bind (keeps_forM (fun p => ?_) _) fun _ => keeps_forM (fun q => engSend_keeps ..) _
  split
  · split
    · exact keeps_modify fun g h => homeSetLine_memOk h ..
    · exact keeps_pure _
  · exact keeps_pure _
theorem engParts_keeps (place) (psn) (rel : Option Rel) (ps) : E.Keeps (engParts place psn rel ps) := by
  induction ps with
  | nil => exact keeps_pure _
  | cons p t ih => exact keeps_bind (engLoc_keeps ..) fun _ => keeps_bind (engPart_keeps ..) fun _ => ih
theorem engWrite_keeps (va) (bs) (psn : Bool) (rel : Option Rel) : E.Keeps (engWrite va bs psn rel) := by
  unfold engWrite
  grind [Eng.memOk, engParts_keeps]

end Sys2Proof.Machine

/-! ## The canonical form: porter commands, holds and counters -/
namespace Sys2Proof.Machine

/-! ### Receivers (R200, R201) -/
theorem engLines_keeps (c full vas) : E.Keeps (engLines c full vas) := by
  unfold engLines
  grind [Eng.memOk, engSetLines_keeps, keeps_modify, keeps_forM, keeps_get, keeps_bind, keeps_get_bind]

/-! ### Performing a unit -/
theorem engDone_keeps (bytes evs) : E.Keeps (engDone bytes evs) :=
  keeps_modify fun _ h => foldl_memOk (fun _ _ h => eventOf_memOk h ..) h _
theorem engPut_keeps (c u bs psn) : E.Keeps (engPut c u bs psn) := by
  unfold engPut
  grind [Eng.memOk, engLines_keeps, engDone_keeps, engParts_keeps, keeps_modify, keeps_forM, keeps_get, keeps_bind, keeps_get_bind]
theorem readRow_keeps (base ks es n k) : E.Keeps (readRow base ks es n k) := by
  induction k with
  | zero => exact keeps_ite (engRead_keeps ..) (keeps_pure _)
  | succ k ih =>
    exact keeps_ite (engRead_keeps ..) (keeps_bind ih fun _ => keeps_bind (engRead_keeps ..) fun _ => keeps_pure _)
theorem engRows_keeps (rows scales psn) : E.Keeps (engRows rows scales psn) := by
  unfold engRows
  grind [Eng.memOk, engDone_keeps, keeps_modify, keeps_bind, keeps_get_bind]
theorem engOperand_keeps (i tag len) : E.Keeps (engOperand i tag len) := by
  unfold engOperand
  grind [Eng.memOk, modGroup_memOk, keeps_modify]
theorem engElem_keeps (va size) : E.Keeps (engElem va size) := by
  unfold engElem
  grind [Eng.memOk, keeps_pure, keeps_throw, keeps_get, keeps_bind, keeps_get_bind]
theorem readUnit_keeps (c u) : E.Keeps (readUnit c u) := by
  unfold readUnit
  grind [Eng.memOk, keeps_modify, engRead_keeps, keeps_bind, keeps_get_bind]
theorem rowUnit_keeps (c u) : E.Keeps (rowUnit c u) := by
  unfold rowUnit
  grind [Eng.memOk, keeps_pure, keeps_get, keeps_bind, keeps_get_bind]
theorem rowDone_keeps (c u) : E.Keeps (rowDone c u) := by
  unfold rowDone
  grind [Eng.memOk, keeps_pure, keeps_modify]
theorem writeUnit_keeps (c u bs p) : E.Keeps (writeUnit c u bs p) := by
  unfold writeUnit
  grind [Eng.memOk, engRead_keeps, engWrite_keeps, engDone_keeps, engPut_keeps, keeps_bind, keeps_get_bind]

theorem runUnit_keeps (c u) : E.Keeps (runUnit c u) := by
  unfold runUnit
  split
  case h_3 =>
    refine keeps_bind (keeps_mapM (fun j => engRead_keeps ..) _) fun planes => ?_
    grind [engPut_keeps, engOperand_keeps, engRows_keeps, keeps_pure, keeps_bind]
  case h_4 =>
    exact keeps_bind (engNum_keeps ..) fun _ => keeps_bind (engElem_keeps ..) fun _ => keeps_bind (engElem_keeps ..) fun _ =>
      keeps_bind (engRead_keeps ..) fun _ => engPut_keeps ..
  case h_5 =>
    exact keeps_bind (engNum_keeps ..) fun _ => keeps_bind (engElem_keeps ..) fun _ => keeps_bind (engElem_keeps ..) fun _ =>
      keeps_bind (engRead_keeps ..) fun _ => keeps_bind (engLines_keeps ..) fun _ => keeps_bind (engWrite_keeps ..) fun _ =>
      keeps_bind (engDone_keeps ..) fun _ => engLines_keeps ..
  case h_6 => exact engPut_keeps ..
  case h_7 => grind [rowDone_keeps, writeUnit_keeps, rowUnit_keeps, keeps_bind]
  all_goals grind [keeps_pure, engOperand_keeps, engRows_keeps, engRead_keeps, readRow_keeps, keeps_bind]

/-! ### Running a command (R194, R200, R209) -/
theorem engIncrements_keeps (c q) : E.Keeps (engIncrements c q) := by
  unfold engIncrements
  grind [Eng.memOk, keeps_modify, engSend_keeps, keeps_forM, keeps_pure, keeps_get, keeps_bind, keeps_get_bind]

theorem runStep_memOk {g : Eng} (h : g.memOk) (c q) : (runStep c q g).1.memOk := by
  unfold runStep
  split
  · split
    case h_1 hrun =>
      have hok := (engIncrements_keeps c q).ok h hrun
      split
      · exact hok
      · exact meter_memOk hok ..
    case h_2 => exact h
  · dsimp only
    split
    · exact h
    · split
      case h_1 hrun =>
        have hok := (keeps_ite (readUnit_keeps ..) (runUnit_keeps ..) : E.Keeps _).ok h hrun
        exact hok
      case h_2 => exact h
theorem abandon_memOk {g : Eng} (h : g.memOk) (c code tval) : (abandon c code tval g).memOk := by
  unfold abandon
  split
  case h_1 hrun =>
    have hok := (engLines_keeps ..).ok h hrun
    exact hok
  case h_2 => exact h
theorem engineAsk_memOk {s : State} (h : s.memOk) (a kind a1) : (s.engineAsk a kind a1).memOk := by
  unfold State.engineAsk
  grind [modCore_memOk, sendTo_memOk, foldl_memOk, post_memOk]
theorem porterRun_memOk {s : State} (h : s.memOk) (core q) : (s.porterRun core q).1.memOk := by
  unfold State.porterRun
  grind [Eng.memOk, engineAsk_memOk, abandon_memOk, modGroup_memOk, runStep_memOk]

/-! ### Enqueueing (R193, R199) -/
theorem enqueue_memOk {s : State} (h : s.memOk) (core q i) : (s.enqueue core q i).memOk :=
  modGroup_memOk h ..
theorem markDest_memOk {s : State} (h : s.memOk) (c q) : (s.markDest c q).memOk := by
  unfold State.markDest
  split
  case h_1 hrun =>
    have hok := eng_ok (engLines_keeps ..) h hrun
    split
    · exact hok
    · exact modGroup_memOk hok ..
  case h_2 => exact h
theorem roomM_keeps (q) : M.Keeps (roomM q) := by
  unfold roomM
  grind [keeps_pure, spend_keeps, myGroup_keeps, keeps_bind, keeps_get_bind]
theorem takeAgents_memOk {s : State} (h : s.memOk) (op) : (takeAgents op s).memOk := by
  unfold takeAgents
  grind [memOk_iff]
theorem cpyM_keeps (f port c) : M.Keeps (cpyM f port c) := by
  unfold cpyM
  grind [wrS_keeps, markDest_memOk, enqueue_memOk, keeps_set, reserveM_keeps, roomM_keeps, keeps_pure, misuse_keeps, trapM_keeps,
    takeAgents_memOk, engineActor_memOk, keeps_get, keeps_bind, keeps_get_bind]
theorem execCpy_nextOk {s : State} (h : s.memOk) (f stage fmt swz a b c imm) : nextOk (execCpy f stage fmt swz a b c imm s) :=
  instr_nextOk (by grind [cpyM_keeps, rdS_keeps, names_keeps, keeps_bind, keeps_get_bind]) h _
theorem execCpy2d_nextOk {s : State} (h : s.memOk) (f stage swz a b c e imm) : nextOk (execCpy2d f stage swz a b c e imm s) :=
  instr_nextOk (by grind [cpyM_keeps, rdS_keeps, names_keeps, keeps_bind, keeps_get_bind]) h _
theorem execCpy3d_nextOk {s : State} (h : s.memOk) (f stage swz a b c e) : nextOk (execCpy3d f stage swz a b c e s) :=
  instr_nextOk (by grind [cpyM_keeps, readBlock_keeps, rdS_keeps, names_keeps, keeps_bind, keeps_get_bind]) h _
theorem execCpyMc_nextOk {s : State} (h : s.memOk) (f stage swz a b c e imm) : nextOk (execCpyMc f stage swz a b c e imm s) :=
  instr_nextOk (by grind [cpyM_keeps, rdS_keeps, names_keeps, keeps_bind, keeps_get_bind]) h _
theorem execCpyQ_nextOk {s : State} (h : s.memOk) (f fmt a b c e) : nextOk (execCpyQ f fmt a b c e s) :=
  instr_nextOk (by grind [cpyM_keeps, rdS_keeps, names_keeps, keeps_bind, keeps_get_bind]) h _
theorem execCpyQ2d_nextOk {s : State} (h : s.memOk) (f fmt a b c e imm) : nextOk (execCpyQ2d f fmt a b c e imm s) :=
  instr_nextOk (by grind [cpyM_keeps, rdS_keeps, names_keeps, keeps_bind, keeps_get_bind]) h _
theorem execCpyPl_nextOk {s : State} (h : s.memOk) (f mid p a b c imm) : nextOk (execCpyPl f mid p a b c imm s) :=
  instr_nextOk (by grind [cpyM_keeps, keeps_pure, rdS_keeps, names_keeps, keeps_bind, keeps_get_bind]) h _
theorem execCpyFill_nextOk {s : State} (h : s.memOk) (f a c imm) : nextOk (execCpyFill f a c imm s) :=
  instr_nextOk (by grind [cpyM_keeps, rdS_keeps, names_keeps, keeps_bind, keeps_get_bind]) h _
theorem cpyxM_nextOk {s : State} (h : s.memOk) (op f a b c e imm) : nextOk (cpyxM op f a b c e imm s) :=
  instr_nextOk (by grind [cpyM_keeps, rdS_keeps, names_keeps, keeps_bind, keeps_get_bind]) h _
theorem execCpyxG_nextOk {s : State} (h : s.memOk) (f a b c e imm) : nextOk (execCpyxG f a b c e imm s) := cpyxM_nextOk h ..
theorem execCpyxS_nextOk {s : State} (h : s.memOk) (f a b c e imm) : nextOk (execCpyxS f a b c e imm s) := cpyxM_nextOk h ..

/-! ### Chains, fences, waits and status (R206 to R208, R210, R345, R392) -/
theorem execChainHead_nextOk {s : State} (h : s.memOk) (queue a) : nextOk (execChainHead queue a s) :=
  instr_nextOk (by grind [enqueue_memOk, keeps_set, roomM_keeps, keeps_pure, trapM_keeps, engineActor_memOk, keeps_get, rdS_keeps,
    names_keeps, keeps_bind, keeps_get_bind]) h _
theorem execChainApp_nextOk {s : State} (h : s.memOk) (queue) : nextOk (execChainApp queue s) :=
  instr_nextOk (by grind [modMyGroup_keeps, engineActor_memOk, keeps_get, keeps_bind, keeps_get_bind]) h _
theorem execQfence_nextOk {s : State} (h : s.memOk) (mask queue) : nextOk (execQfence mask queue s) :=
  instr_nextOk (by grind [enqueue_memOk, modS_keeps, myGroup_keeps, roomM_keeps, keeps_bind, keeps_get_bind]) h _
theorem qwaitM_keeps (q v) : M.Keeps (qwaitM q v) := by
  unfold qwaitM
  grind [waitM_keeps, endAcquire_keeps, endRegion_keeps, myGroup_keeps, keeps_bind, keeps_get_bind]
theorem execQwait_nextOk {s : State} (h : s.memOk) (queue a) : nextOk (execQwait queue a s) :=
  instr_nextOk (by grind [qwaitM_keeps, rdS_keeps, names_keeps, keeps_bind, keeps_get_bind]) h _
theorem execQwaitImm_nextOk {s : State} (h : s.memOk) (queue imm) : nextOk (execQwaitImm queue imm s) :=
  instr_nextOk (qwaitM_keeps ..) h _
theorem execQstat_nextOk {s : State} (h : s.memOk) (clr st queue d) : nextOk (execQstat clr st queue d s) :=
  instr_nextOk (by grind [keeps_pure, modMyGroup_keeps, wrS_keeps, myGroup_keeps, names_keeps, keeps_bind, keeps_get_bind]) h _

/-! ### Holds (R61, R364) -/
theorem holdM_keeps (regs) : M.Keeps (holdM regs) := by
  unfold holdM
  grind [modMe_keeps, spend_keeps, me_keeps, keeps_bind, keeps_get_bind]
theorem execHold_nextOk {s : State} (h : s.memOk) (d) : nextOk (execHold d s) :=
  instr_nextOk (holdM_keeps ..) h _
theorem execHoldSet_nextOk {s : State} (h : s.memOk) (regs) : nextOk (execHoldSet regs s) :=
  instr_nextOk (holdM_keeps ..) h _
theorem execHclr_nextOk {s : State} (h : s.memOk) (d) : nextOk (execHclr d s) :=
  instr_nextOk (modMe_keeps ..) h _

/-! ### Deposits (R62, R65, R353) -/
theorem counterM_keeps (k) : M.Keeps (counterM k) := by
  unfold counterM
  grind [needM_keeps, myGroup_keeps, keeps_bind, keeps_get_bind]
theorem depositM_keeps (hi name target v k) : M.Keeps (depositM hi name target v k) := by
  unfold depositM
  grind [endRegion_keeps, sendTo_memOk, modS_keeps, myGroup_keeps, beginRelease_keeps, routeM_keeps, liveNameM_keeps, keeps_pure,
    counterM_keeps, keeps_bind, keeps_get_bind]
theorem execDepvK_nextOk {s : State} (h : s.memOk) (hi a b c k) : nextOk (execDepvK hi a b c k s) :=
  instr_nextOk (by grind [depositM_keeps, rdV_keeps, rdS_keeps, names_keeps, keeps_bind, keeps_get_bind]) h _
theorem execDepv_nextOk {s : State} (h : s.memOk) (hi a b c) : nextOk (execDepv hi a b c s) :=
  instr_nextOk (by grind [depositM_keeps, rdV_keeps, rdS_keeps, names_keeps, keeps_bind, keeps_get_bind]) h _
theorem execDepsK_nextOk {s : State} (h : s.memOk) (hi a b c k) : nextOk (execDepsK hi a b c k s) :=
  instr_nextOk (by grind [depositM_keeps, rdS_keeps, names_keeps, keeps_bind, keeps_get_bind]) h _
theorem execDeps_nextOk {s : State} (h : s.memOk) (hi a b c) : nextOk (execDeps hi a b c s) :=
  instr_nextOk (by grind [depositM_keeps, rdS_keeps, names_keeps, keeps_bind, keeps_get_bind]) h _

/-! ### Posting (R215, R217, R390) -/
theorem execPost_nextOk {s : State} (h : s.memOk) (rearm any n d a b c k) : nextOk (execPost rearm any n d a b c k s) := by
  refine instr_nextOk (keeps_bind (names_keeps ..) fun _ => keeps_bind (rdS_keeps _) fun va => keeps_bind (rdS_keeps _) fun t =>
    keeps_bind (rdS_keeps _) fun st => keeps_bind (counterM_keeps _) fun _ => keeps_bind myGroup_keeps fun g =>
    keeps_bind (keeps_ite (keeps_pure _) (needM_keeps ..)) fun _ => keeps_bind (readBlock_keeps ..) fun x =>
    keeps_bind (needM_keeps ..) fun _ => keeps_bind myGroup_keeps fun g => ?_) h _
  dsimp only
  split
  · exact trapM_keeps ..
  · exact keeps_get_bind fun s h => keeps_bind (keeps_set (engineActor_memOk h ..)) fun _ => keeps_bind (modMyGroup_keeps _) fun _ =>
      wrS_keeps ..
theorem execUnpost_nextOk {s : State} (h : s.memOk) (d n) : nextOk (execUnpost d n s) :=
  instr_nextOk (by grind [wrS_keeps, modMyGroup_keeps, needM_keeps, myGroup_keeps, names_keeps, keeps_bind, keeps_get_bind]) h _

/-! ### Counters (R213, R214, R351) -/
theorem ctraddM_keeps (k v) : M.Keeps (ctraddM k v) := by
  unfold ctraddM
  grind [modMyGroup_keeps, fenceRel_keeps, spend_keeps, myGroup_keeps, counterM_keeps, keeps_bind, keeps_get_bind]
theorem execCtradd_nextOk {s : State} (h : s.memOk) (k a) : nextOk (execCtradd k a s) :=
  instr_nextOk (by grind [ctraddM_keeps, rdS_keeps, names_keeps, keeps_bind, keeps_get_bind]) h _
theorem execCtraddImm_nextOk {s : State} (h : s.memOk) (k imm) : nextOk (execCtraddImm k imm s) :=
  instr_nextOk (ctraddM_keeps ..) h _
theorem ctrsetM_keeps (k v) : M.Keeps (ctrsetM k v) := by
  unfold ctrsetM
  grind [modMyGroup_keeps, counterM_keeps, keeps_bind, keeps_get_bind]
theorem execCtrset_nextOk {s : State} (h : s.memOk) (k a) : nextOk (execCtrset k a s) :=
  instr_nextOk (by grind [ctrsetM_keeps, rdS_keeps, names_keeps, keeps_bind, keeps_get_bind]) h _
theorem execCtrsetImm_nextOk {s : State} (h : s.memOk) (k imm) : nextOk (execCtrsetImm k imm s) :=
  instr_nextOk (ctrsetM_keeps ..) h _
theorem execCtrget_nextOk {s : State} (h : s.memOk) (sel k d) : nextOk (execCtrget sel k d s) :=
  instr_nextOk (by grind [wrS_keeps, keeps_pure, counterM_keeps, myGroup_keeps, names_keeps, keeps_bind, keeps_get_bind]) h _
theorem ctrwaitM_keeps (k v) : M.Keeps (ctrwaitM k v) := by
  unfold ctrwaitM
  refine keeps_bind (counterM_keeps _) fun _ => keeps_bind myGroup_keeps fun g => keeps_bind me_keeps fun c => ?_
  split <;> grind [waitM_keeps, modMe_keeps, endAcquire_keeps, endRegion_keeps, keeps_bind]
theorem execCtrwait_nextOk {s : State} (h : s.memOk) (k a) : nextOk (execCtrwait k a s) :=
  instr_nextOk (by grind [ctrwaitM_keeps, rdS_keeps, names_keeps, keeps_bind, keeps_get_bind]) h _
theorem execCtrwaitImm_nextOk {s : State} (h : s.memOk) (k imm) : nextOk (execCtrwaitImm k imm s) :=
  instr_nextOk (ctrwaitM_keeps ..) h _

end Sys2Proof.Machine

/-! ## The canonical form: the matrix unit, special registers and services -/
namespace Sys2Proof.Machine

/-! ### Tiles (R177, R178) -/
theorem tileM_keeps (va) : M.Keeps (tileM va) := by
  unfold tileM
  grind [keeps_pure, trapM_keeps, myGroup_keeps, keeps_bind, keeps_get_bind]

/-! ### Issue (R378) -/
theorem mmaError_keeps {α : Type} (f kind) : M.Keeps (mmaError f kind : M α) := trapM_keeps ..
theorem mmaPort_keeps (q) : M.Keeps (mmaPort q) := by
  unfold mmaPort
  grind [keeps_pure, misuse_keeps, me_keeps, keeps_bind, keeps_get_bind]
theorem mmaM_nextOk {s : State} (h : s.memOk) (op f) : nextOk (mmaM op f s) := by
  refine runInstr_nextOk (keeps_bind (names_keeps ..) fun _ => keeps_bind myGroup_keeps fun g =>
    keeps_bind (keeps_ite (mmaError_keeps ..) (keeps_pure _)) fun _ => keeps_bind (keeps_ite (mmaError_keeps ..) (keeps_pure _)) fun _ =>
    keeps_bind (mmaPort_keeps _) fun fa => keeps_bind (mmaPort_keeps _) fun fb => keeps_bind (rdS_keeps _) fun x =>
    keeps_bind (tileM_keeps _) fun tile => keeps_bind ?_ fun _ => keeps_bind (rdM_keeps _) fun rows => keeps_bind (rdM_keeps _) fun cols
      =>
    keeps_bind (modS_keeps fun s h => modCore_memOk h ..) fun _ => modMe_keeps _) h _
  split <;> [exact needM_keeps ..; exact keeps_pure _]
theorem execMma16Slot0_nextOk {s : State} (h : s.memOk) (f) : nextOk (execMma16Slot0 f s) := mmaM_nextOk h ..
theorem execMma16Slot1_nextOk {s : State} (h : s.memOk) (f) : nextOk (execMma16Slot1 f s) := mmaM_nextOk h ..
theorem execMma8fSlot0_nextOk {s : State} (h : s.memOk) (f) : nextOk (execMma8fSlot0 f s) := mmaM_nextOk h ..
theorem execMma8fSlot1_nextOk {s : State} (h : s.memOk) (f) : nextOk (execMma8fSlot1 f s) := mmaM_nextOk h ..
theorem execMma8iSlot0_nextOk {s : State} (h : s.memOk) (f) : nextOk (execMma8iSlot0 f s) := mmaM_nextOk h ..
theorem execMma8iSlot1_nextOk {s : State} (h : s.memOk) (f) : nextOk (execMma8iSlot1 f s) := mmaM_nextOk h ..
theorem execMma4Slot0_nextOk {s : State} (h : s.memOk) (f) : nextOk (execMma4Slot0 f s) := mmaM_nextOk h ..
theorem execMma4Slot1_nextOk {s : State} (h : s.memOk) (f) : nextOk (execMma4Slot1 f s) := mmaM_nextOk h ..

/-! ### Microprogram slots and tile instructions (R190, R191, R375, R382, R383) -/
theorem muplM_nextOk {s : State} (h : s.memOk) (n imm) : nextOk (muplM n imm s) :=
  instr_nextOk (modMyGroup_keeps ..) h _
theorem execMupl1_nextOk {s : State} (h : s.memOk) (imm) : nextOk (execMupl1 imm s) := muplM_nextOk h ..
theorem execMupl2_nextOk {s : State} (h : s.memOk) (imm) : nextOk (execMupl2 imm s) := muplM_nextOk h ..
theorem execMupl3_nextOk {s : State} (h : s.memOk) (imm) : nextOk (execMupl3 imm s) := muplM_nextOk h ..
theorem mchkM_nextOk {s : State} (h : s.memOk) (op row t swz part m d a) : nextOk (mchkM op row t swz part m d a s) :=
  instr_nextOk (by grind [wrVQ_keeps, vecOp_keeps, loadM_keeps, rdMask_keeps, freshV_keeps, tileM_keeps, rdS_keeps, names_keeps,
    keeps_bind, keeps_get_bind]) h _
theorem execMchkRow_nextOk {s : State} (h : s.memOk) (t swz part m d a) : nextOk (execMchkRow t swz part m d a s) := mchkM_nextOk h ..
theorem execMchkCol_nextOk {s : State} (h : s.memOk) (t swz part m d a) : nextOk (execMchkCol t swz part m d a s) := mchkM_nextOk h ..
theorem zeroTile_memOk {s : State} (h : s.memOk) (core tile r) : (s.zeroTile core tile r).memOk := by
  unfold State.zeroTile
  grind [writeHome_memOk, foldl_memOk]
theorem execMzero_nextOk {s : State} (h : s.memOk) (a) : nextOk (execMzero a s) := by
  refine instr_nextOk (keeps_bind (names_keeps ..) fun _ => keeps_bind (rdS_keeps _) fun x => keeps_bind (tileM_keeps _) fun tile =>
    keeps_get_bind fun s _ => keeps_bind (checkM_keeps ..) fun _ => keeps_bind fenceRel_keeps fun r => keeps_bind ?_ fun _ => ?_) h _
  · exact modS_keeps fun s h => zeroTile_memOk h ..
  · exact modS_keeps fun s h => modCore_memOk h ..
theorem execMzeroSlot0_nextOk {s : State} (h : s.memOk) : nextOk (execMzeroSlot0 s) :=
  instr_nextOk (by grind [modCore_memOk, modS_keeps]) h _
theorem execMzeroSlot1_nextOk {s : State} (h : s.memOk) : nextOk (execMzeroSlot1 s) :=
  instr_nextOk (by grind [modCore_memOk, modS_keeps]) h _

/-! ### The stages after issue (R179, R180) -/
theorem releaseClaims_memOk {s : State} (h : s.memOk) (core m r) : (s.releaseClaims core m r).memOk := by
  unfold State.releaseClaims
  grind [memOk_iff, homeSetLine_memOk, foldl_memOk]
theorem mmaTrap_memOk {s : State} (h : s.memOk) (core m code tval mem) : (s.mmaTrap core m code tval mem).memOk := by
  unfold State.mmaTrap
  grind [enterTrap_memOk, releaseClaims_memOk, modCore_memOk]
theorem withdrawMma_memOk {s : State} (h : s.memOk) (core m) : (s.withdrawMma core m).memOk := by
  unfold State.withdrawMma
  grind [modCtx_memOk, releaseClaims_memOk, modCore_memOk]
theorem claimMarks_memOk {s : State} (h : s.memOk) (core m) : (s.claimMarks core m).1.memOk := by
  unfold State.claimMarks
  grind [memOk_iff, markParts_memOk, foldl_memOk, modCtx_memOk]
theorem claimLine_memOk {s : State} (h : s.memOk) (core ctx) : (s.claimLine core ctx).memOk := by
  unfold State.claimLine
  grind [modCore_memOk, setLineState_memOk, mmaTrap_memOk, claimMarks_memOk]
theorem startMma_memOk {s : State} (h : s.memOk) (core) : (s.startMma core).memOk := by
  unfold State.startMma
  grind [modCore_memOk, modGroup_memOk, mmaTrap_memOk]
theorem retireLine_memOk {s : State} (h : s.memOk) (core m a b err r n) : (s.retireLine core m a b err r n).1.memOk := by
  unfold State.retireLine
  grind [writeHome_memOk, foldl_memOk]
theorem finishMma_memOk {s : State} (h : s.memOk) (core m a b err found) : (s.finishMma core m a b err found).memOk := by
  unfold State.finishMma
  grind [modCtx_memOk, modGroup_memOk, modCore_memOk, meter_memOk, addEv_memOk, releaseClaims_memOk, retireLine_memOk, foldl_fst_memOk]
theorem retireMma_memOk {s : State} (h : s.memOk) (core) : (s.retireMma core).memOk := by
  unfold State.retireMma
  grind [finishMma_memOk, modCore_memOk, mmaTrap_memOk, ticked_memOk]

/-! ### Special registers (R68, R376, R377) -/
theorem writeSr_keeps (n v) : M.Keeps (writeSr n v) := by
  unfold writeSr
  grind [keeps_pure, modMyGroup_keeps, modMe_keeps, me_keeps, keeps_bind, keeps_get_bind]
theorem srNumber_keeps (op bit x) : M.Keeps (srNumber op bit x) := by
  unfold srNumber
  grind [illegal_keeps, keeps_pure]
theorem execMfsr_nextOk {s : State} (h : s.memOk) (d n) : nextOk (execMfsr d n s) :=
  instr_nextOk (by grind [wrS_keeps, keeps_get, level_keeps, names_keeps, keeps_bind, keeps_get_bind]) h _
theorem execMfsrReg_nextOk {s : State} (h : s.memOk) (d a) : nextOk (execMfsrReg d a s) :=
  instr_nextOk (by grind [wrS_keeps, keeps_get, level_keeps, srNumber_keeps, rdS_keeps, names_keeps, keeps_bind, keeps_get_bind]) h _
theorem execMtsr_nextOk {s : State} (h : s.memOk) (n a) : nextOk (execMtsr n a s) :=
  instr_nextOk (by grind [writeSr_keeps, rdS_keeps, level_keeps, names_keeps, keeps_bind, keeps_get_bind]) h _
theorem execMtsrReg_nextOk {s : State} (h : s.memOk) (b a) : nextOk (execMtsrReg b a s) :=
  instr_nextOk (by grind [writeSr_keeps, level_keeps, srNumber_keeps, rdS_keeps, names_keeps, keeps_bind, keeps_get_bind]) h _

/-! ### Traps (R274, R275) -/
theorem execTrap_nextOk {s : State} (h : s.memOk) (bp imm) : nextOk (execTrap bp imm s) :=
  instr_nextOk (trapM_keeps ..) h _
theorem execTrapReg_nextOk {s : State} (h : s.memOk) (bp a) : nextOk (execTrapReg bp a s) :=
  instr_nextOk (by grind [trapM_keeps, rdS_keeps, names_keeps, keeps_bind, keeps_get_bind]) h _
theorem execRett_nextOk {s : State} (h : s.memOk) : nextOk (execRett s) :=
  runInstr_nextOk (by grind [modMe_keeps, level_keeps, keeps_bind, keeps_get_bind]) h _

/-! ### TLB instructions (R279, R280, R407, R408) -/
theorem chipError_memOk {s : State} (h : s.memOk) (pchip e) : (s.chipError pchip e).memOk := h
theorem tlbwM_keeps (t d core) : M.Keeps (tlbwM t d core) := by
  unfold tlbwM
  grind [chipError_memOk, modCore_memOk, modS_keeps]
theorem execTlbw_nextOk {s : State} (h : s.memOk) (a b) : nextOk (execTlbw a b s) :=
  instr_nextOk (by grind [tlbwM_keeps, keeps_get, rdS_keeps, level_keeps, names_keeps, keeps_bind, keeps_get_bind]) h _
theorem execTlbwRm_nextOk {s : State} (h : s.memOk) (a b c) : nextOk (execTlbwRm a b c s) :=
  instr_nextOk (by grind [tlbwM_keeps, rdS_keeps, level_keeps, names_keeps, keeps_bind, keeps_get_bind]) h _
theorem dropTlb_memOk {s : State} (h : s.memOk) (tenant va) : (s.dropTlb tenant va).memOk := by
  unfold State.dropTlb
  grind [memOk_iff, foldl_memOk]
theorem tlbiM_keeps (tenant va) : M.Keeps (tlbiM tenant va) := by
  unfold tlbiM
  grind [endRegion_keeps, dropTlb_memOk, modS_keeps, keeps_pure, spend_keeps, keeps_get, beginRelease_keeps, keeps_bind, keeps_get_bind]
theorem execTlbiAll_nextOk {s : State} (h : s.memOk) : nextOk (execTlbiAll s) :=
  instr_nextOk (by grind [tlbiM_keeps, myGroup_keeps, level_keeps, keeps_bind, keeps_get_bind]) h _
theorem execTlbiVa_nextOk {s : State} (h : s.memOk) (a) : nextOk (execTlbiVa a s) :=
  instr_nextOk (by grind [tlbiM_keeps, myGroup_keeps, rdS_keeps, level_keeps, names_keeps, keeps_bind, keeps_get_bind]) h _
theorem execTlbiTn_nextOk {s : State} (h : s.memOk) (a) : nextOk (execTlbiTn a s) :=
  instr_nextOk (by grind [tlbiM_keeps, rdS_keeps, level_keeps, names_keeps, keeps_bind, keeps_get_bind]) h _

/-! ### Services (R355 to R357) -/
theorem ecallM_keeps (d n a) : M.Keeps (ecallM d n a) := by
  unfold ecallM
  grind [memOk_iff, modMe_memOk, post_memOk, stayM_keeps, pendingM_keeps, rdS_keeps, keeps_pure, level_keeps, keeps_bind, keeps_get_bind,
    wrS_keeps, trapM_keeps]
theorem execEcall_nextOk {s : State} (h : s.memOk) (d a imm) : nextOk (execEcall d a imm s) :=
  instr_nextOk (by grind [ecallM_keeps, names_keeps, keeps_bind, keeps_get_bind]) h _
theorem execEcallReg_nextOk {s : State} (h : s.memOk) (d a b) : nextOk (execEcallReg d a b s) :=
  instr_nextOk (by grind [ecallM_keeps, rdS_keeps, names_keeps, keeps_bind, keeps_get_bind]) h _
theorem service_memOk {s : State} (h : s.memOk) (w status) : (s.service w status).memOk := by
  unfold State.service
  grind [answer_memOk]

/-! ### The injector (R296) -/
theorem execInjArm_nextOk {s : State} (h : s.memOk) (d a b) : nextOk (execInjArm d a b s) :=
  instr_nextOk (by grind [memOk_iff, wrS_keeps, modS_keeps, keeps_get, rdS_keeps, level_keeps, names_keeps, keeps_bind, keeps_get_bind])
    h _
theorem execInjOff_nextOk {s : State} (h : s.memOk) (d) : nextOk (execInjOff d s) :=
  instr_nextOk (by grind [memOk_iff, wrS_keeps, modS_keeps, keeps_get, level_keeps, names_keeps, keeps_bind, keeps_get_bind]) h _

end Sys2Proof.Machine

/-! ## The canonical form: the events of memory requests -/
namespace Sys2Proof.Machine

/-! ### The injector (R296) -/
theorem again_memOk {s : State} (h : s.memOk) (e) : (s.again e).memOk := h
theorem toPanel_memOk {s : State} (h : s.memOk) (panel e) : (s.toPanel panel e).memOk :=
  sendTo_memOk h ..

/-! ### Memory requests (R123, R124, R231, R248, R249) -/
theorem unblock_memOk {s : State} (h : s.memOk) (tenant a) : (s.unblock tenant a).memOk := by
  unfold State.unblock
  grind [memOk_iff, sendOut_memOk, meter_memOk, modSector_wf, post_memOk]
theorem proxyWritten_memOk {s : State} (h : s.memOk) (m) : (s.proxyWritten m).memOk := by
  unfold State.proxyWritten
  grind [memOk_iff, foldl_memOk]
theorem refuse_memOk {s : State} (h : s.memOk) (m va) : (s.refuse m va).memOk := by
  unfold State.refuse
  grind [replyTo_memOk]
theorem retryList_memOk {s : State} (h : s.memOk) (k m) : (s.retryList k m).memOk := by
  unfold State.retryList
  grind [toPanel_memOk, modCore_memOk]
theorem roomFor_memOk {s : State} (h : s.memOk) (m) : (s.roomFor m).memOk := by
  unfold State.roomFor
  grind [roomSlice_memOk, foldl_memOk]
theorem refuseOutside_memOk {s : State} (h : s.memOk) (m va) : (s.refuseOutside m va).memOk :=
  replyTo_memOk h ..
theorem refuseUnreachable_memOk {s : State} (h : s.memOk) (m va) : (s.refuseUnreachable m va).memOk := by
  unfold State.refuseUnreachable
  grind [replyTo_memOk, toPanel_memOk]
theorem failProxy_memOk {s : State} (h : s.memOk) (pa ans) : (s.failProxy pa ans).memOk := by
  unfold State.failProxy
  grind [memOk_iff, refuseOutside_memOk, refuseUnreachable_memOk, foldl_memOk, modSector_wf]
theorem request_memOk {s : State} (h : s.memOk) (m) : (s.request m).memOk := by
  unfold State.request
  grind [unblock_memOk, foldl_memOk, refuseUnreachable_memOk, proxyWritten_memOk, replyTo_memOk, homeOp_memOk, roomFor_memOk,
    again_memOk, retryList_memOk, refuse_memOk, refuseOutside_memOk, bump_memOk, toPanel_memOk]
theorem execMemoryRequest_nextOk {s : State} (h : s.memOk) : nextOk (execMemoryRequest s) :=
  runEvent_nextOk (by grind [request_memOk]) h _
theorem execHbmCompletion_nextOk {s : State} (h : s.memOk) : nextOk (execHbmCompletion s) :=
  runEvent_nextOk (by grind [memOk_iff, modSector_wf]) h _

/-! ### Synchronising accesses (R118, R237, R238) -/
theorem remoteSync_memOk {s : State} (h : s.memOk) (m) : (s.remoteSync m).memOk := by
  unfold State.remoteSync
  grind [memOk_iff, replyTo_memOk, retryList_memOk, reply_memOk, testWaiters_memOk, serveSync_memOk, bump_memOk, toPanel_memOk]
theorem execRemoteSyncAccess_nextOk {s : State} (h : s.memOk) : nextOk (execRemoteSyncAccess s) :=
  runEvent_nextOk (by grind [remoteSync_memOk]) h _
theorem execSyncCancel_nextOk {s : State} (h : s.memOk) : nextOk (execSyncCancel s) :=
  runEvent_nextOk (by grind [modCore_memOk, reply_memOk, foldl_memOk]) h _
theorem execAccessNack_nextOk {s : State} (h : s.memOk) : nextOk (execAccessNack s) :=
  runEvent_nextOk (by grind [modCore_memOk]) h _
theorem resend_memOk {s : State} (h : s.memOk) (a) : (s.resend a).memOk := by
  unfold State.resend
  grind [sendTo_memOk]
theorem execRetryBackoffExpiry_nextOk {s : State} (h : s.memOk) : nextOk (execRetryBackoffExpiry s) :=
  runEvent_nextOk (by grind [modCore_memOk, resend_memOk]) h _

/-! ### Replies (R231) -/
theorem fillParts_memOk {s : State} (h : s.memOk) (w id epoch ps) : (s.fillParts w id epoch ps).memOk := by
  unfold State.fillParts
  grind [fillL1_memOk, foldl_memOk]
theorem acked_memOk {s : State} (h : s.memOk) (w) : (s.acked w).memOk := modLaunchGroup_memOk h ..
theorem ackedAll_memOk {s : State} (h : s.memOk) (w id) : (s.ackedAll w id).memOk := by
  unfold State.ackedAll
  grind [modCore_memOk, acked_memOk, foldl_memOk]
theorem replyCtx_memOk {s : State} (h : s.memOk) (m) : (s.replyCtx m).memOk := by
  unfold State.replyCtx
  grind [report_memOk, ackedAll_memOk, answer_memOk, fillParts_memOk]
theorem modRun_memOk {s : State} (h : s.memOk) (w q f) : (s.modRun w q f).memOk :=
  modLaunchGroup_memOk h ..
theorem replyPorter_memOk {s : State} (h : s.memOk) (m q) : (s.replyPorter m q).memOk :=
  modRun_memOk h ..

theorem grant_memOk {s : State} (h : s.memOk) (m) : (s.grant m).memOk := by
  unfold State.grant
  dsimp only
  split
  · split
    · refine sendOut_memOk ?_ ..
      have hroom (k) := roomSlice_memOk h k
      grind [memOk_iff, modSector_wf, setPoison_wf, setLine_wf, setRels_wf, foldl_wf]
    · exact h
  · refine sendOut_memOk ?_ ..
    grind [memOk_iff, modSector_wf, setPoison_wf, roomSlice_memOk]
  · exact failProxy_memOk h ..
  · exact failProxy_memOk h ..
  · exact h
theorem takeReply_memOk {s : State} (h : s.memOk) (m) : (s.takeReply m).memOk := by
  unfold State.takeReply
  grind [replyPorter_memOk, replyCtx_memOk, bump_memOk, modCore_memOk, grant_memOk]
theorem execReplyData_nextOk {s : State} (h : s.memOk) : nextOk (execReplyData s) :=
  runEvent_nextOk (by grind [takeReply_memOk]) h _
theorem execAbsentAnswer_nextOk {s : State} (h : s.memOk) : nextOk (execAbsentAnswer s) :=
  runEvent_nextOk (by grind [modCore_memOk]) h _
theorem execReplayCompletion_nextOk {s : State} (h : s.memOk) : nextOk (execReplayCompletion s) :=
  runEvent_nextOk (by grind [bump_memOk, post_memOk, again_memOk]) h _

/-! ### Returned and dropped requests (R22, R245, R266) -/
theorem returned_memOk {s : State} (h : s.memOk) (m) : (s.returned m).memOk := by
  unfold State.returned
  grind [replyPorter_memOk, modLaunchGroup_memOk, report_memOk, foldl_memOk, answer_memOk, ackedAll_memOk, modCore_memOk]
theorem execUnreachableReturn_nextOk {s : State} (h : s.memOk) : nextOk (execUnreachableReturn s) :=
  runEvent_nextOk (by grind [returned_memOk]) h _
theorem execDropNotice_nextOk {s : State} (h : s.memOk) : nextOk (execDropNotice s) :=
  runEvent_nextOk (by grind [modCore_memOk]) h _
theorem execReservationTimeout_nextOk {s : State} (h : s.memOk) : nextOk (execReservationTimeout s) :=
  runEvent_nextOk (by grind [memOk_iff, modTenant_memOk, foldl_memOk]) h _
theorem dropOne_memOk {s : State} (h : s.memOk) : s.dropOne.memOk := by
  unfold State.dropOne
  grind [memOk_iff, ticked_memOk]
theorem execHopLimitDrop_nextOk {s : State} (h : s.memOk) : nextOk (execHopLimitDrop s) :=
  runEvent_nextOk (by grind [dropOne_memOk, bump_memOk, post_memOk]) h _

/-! ### Late results and the L1 wrap (R35, R122) -/
theorem execResultAvailable_nextOk {s : State} (h : s.memOk) : nextOk (execResultAvailable s) :=
  runEvent_nextOk (by grind [modCtx_memOk]) h _
theorem execL1EpochWrap_nextOk {s : State} (h : s.memOk) : nextOk (execL1EpochWrap s) :=
  runEvent_nextOk (by grind [modCore_memOk]) h _

/-! ### Metadata (R247) -/
theorem setMeta_memOk {s : State} (h : s.memOk) (q m) : (s.setMeta q m).memOk := h
theorem legalMeta_memOk {s : State} (h : s.memOk) (q) : (s.legalMeta q).memOk := by
  unfold State.legalMeta
  grind [memOk_iff, setPoison_wf, setMeta_memOk, bump_memOk]

/-! ### Transactions at the home (R250) -/
theorem modHome_memOk {s : State} (h : s.memOk) (q f) : (s.modHome q f).memOk := modSector_wf h ..
theorem cohReply_memOk {s : State} (h : s.memOk) (panel ans st) : (s.cohReply panel ans st).memOk :=
  sendTo_memOk h ..
theorem sendGrant_memOk {s : State} (h : s.memOk) (panel home q k st) : (s.sendGrant panel home q k st).memOk :=
  cohReply_memOk h ..
theorem lostOwner_memOk {s : State} (h : s.memOk) (q) : (s.lostOwner q).memOk :=
  setPoison_wf (setMeta_memOk h ..) ..
theorem clearCopies_memOk {s : State} (h : s.memOk) (p q) : (s.clearCopies p q).1.memOk := by
  unfold State.clearCopies
  grind [sendOut_memOk, foldl_memOk]
theorem openCoherence_memOk {s : State} (h : s.memOk) (q p write pending asked) : (s.openCoherence q p write pending asked).memOk :=
  modHome_memOk h ..
theorem beginCoherence_memOk {s : State} (h : s.memOk) (p q write) : (s.beginCoherence p q write).1.memOk := by
  unfold State.beginCoherence
  grind [sendGrant_memOk, sendOut_memOk, openCoherence_memOk, setMeta_memOk, clearCopies_memOk, lostOwner_memOk, legalMeta_memOk,
    cohReply_memOk]
theorem nextCoherence_memOk {s : State} (h : s.memOk) (q l) : (s.nextCoherence q l).memOk := by
  induction l generalizing s with
  | nil => exact modHome_memOk h ..
  | cons p t ih =>
    unfold State.nextCoherence
    grind [beginCoherence_memOk, modHome_memOk]
theorem coherence_memOk {s : State} (h : s.memOk) (p q write) : (s.coherence p q write).memOk := by
  unfold State.coherence
  grind [nextCoherence_memOk, modHome_memOk]
theorem closeCoherence_memOk {s : State} (h : s.memOk) (q) : (s.closeCoherence q).memOk := by
  unfold State.closeCoherence
  grind [nextCoherence_memOk, modHome_memOk]
theorem copyGone_memOk {s : State} (h : s.memOk) (p q) : (s.copyGone p q).memOk := by
  unfold State.copyGone
  grind [sendGrant_memOk, closeCoherence_memOk, modHome_memOk]
theorem execReadShared_nextOk {s : State} (h : s.memOk) : nextOk (execReadShared s) :=
  runEvent_nextOk (by grind [coherence_memOk]) h _
theorem execReadExclusive_nextOk {s : State} (h : s.memOk) : nextOk (execReadExclusive s) :=
  runEvent_nextOk (by grind [coherence_memOk]) h _
theorem execHomePanelRequest_nextOk {s : State} (h : s.memOk) : nextOk (execHomePanelRequest s) :=
  runEvent_nextOk (by grind [coherence_memOk]) h _
theorem writeBack_memOk {s : State} (h : s.memOk) (p q data poison forced waiter) : (s.writeBack p q data poison forced waiter).memOk :=
  by
  unfold State.writeBack
  grind [memOk_iff, setMeta_memOk, modHome_memOk, copyGone_memOk, sendTo_memOk, setPoison_wf, writeHome_memOk]
theorem execOwnerWriteBack_nextOk {s : State} (h : s.memOk) : nextOk (execOwnerWriteBack s) :=
  runEvent_nextOk (by grind [writeBack_memOk]) h _
theorem ack_memOk {s : State} (h : s.memOk) (p q k) : (s.ack p q k).memOk := by
  unfold State.ack
  grind [modHome_memOk, sendGrant_memOk, copyGone_memOk, closeCoherence_memOk]
theorem execGrantAck_nextOk {s : State} (h : s.memOk) : nextOk (execGrantAck s) :=
  runEvent_nextOk (by grind [ack_memOk]) h _
theorem cohLost_memOk {s : State} (h : s.memOk) (d q) : (s.cohLost d q).memOk := by
  unfold State.cohLost
  grind [copyGone_memOk, lostOwner_memOk, nextCoherence_memOk, closeCoherence_memOk, modHome_memOk]
theorem panelLost_memOk {s : State} (h : s.memOk) (d) : (s.panelLost d).memOk := by
  unfold State.panelLost
  grind [memOk_iff, failProxy_memOk, cohLost_memOk, foldl_memOk]

/-! ### The proxy slice (R248, R249) -/
theorem setProxy_memOk {s : State} (h : s.memOk) (q p) : (s.setProxy q p).memOk := h
theorem forward_memOk {s : State} (h : s.memOk) (home q r exclusive) : (s.forward home q r exclusive).memOk := by
  unfold State.forward
  grind [memOk_iff, sendGrant_memOk, setProxy_memOk, sendOut_memOk]
theorem execCoherenceForward_nextOk {s : State} (h : s.memOk) : nextOk (execCoherenceForward s) :=
  runEvent_nextOk (by grind [forward_memOk]) h _
theorem execInvalidation_nextOk {s : State} (h : s.memOk) : nextOk (execInvalidation s) :=
  runEvent_nextOk (by grind [setProxy_memOk, sendOut_memOk]) h _

end Sys2Proof.Machine

/-! ## The canonical form: messages and criers -/
namespace Sys2Proof.Machine

/-! ### The proxy slice (R248, R249) -/
theorem execMeshReplayRequest_nextOk {s : State} (h : s.memOk) : nextOk (execMeshReplayRequest s) :=
  runEvent_nextOk (by grind [bump_memOk]) h _
theorem dataFlit_memOk {s : State} (h : s.memOk) (p f) : (s.dataFlit p f).memOk := by
  unfold State.dataFlit
  grind [memOk_iff, drainPort_memOk, post_memOk, bump_memOk, modPort_memOk]
theorem execLinkDataFlit_nextOk {s : State} (h : s.memOk) : nextOk (execLinkDataFlit s) :=
  runEvent_nextOk (by grind [dataFlit_memOk]) h _
theorem execLinkIdleFlit_nextOk {s : State} (h : s.memOk) : nextOk (execLinkIdleFlit s) :=
  runEvent_nextOk (by grind [modPort_memOk, drainPort_memOk]) h _
theorem execLinkReplayRequest_nextOk {s : State} (h : s.memOk) : nextOk (execLinkReplayRequest s) :=
  runEvent_nextOk (by grind [modPort_memOk, drainPort_memOk]) h _
theorem execLinkRekeyMark_nextOk {s : State} (h : s.memOk) : nextOk (execLinkRekeyMark s) :=
  runEvent_nextOk (by grind [modPort_memOk]) h _
theorem execRekey_nextOk {s : State} (h : s.memOk) : nextOk (execRekey s) :=
  runEvent_nextOk (by grind [memOk_iff, modPort_memOk]) h _
theorem setRoute_memOk {s : State} (h : s.memOk) (d st) : (s.setRoute d st).memOk := h
theorem shrinkFor_memOk {s : State} (h : s.memOk) (panels) : (s.shrinkFor panels).memOk := by
  unfold State.shrinkFor
  grind [post_memOk, foldl_memOk]
theorem panelGone_memOk {s : State} (h : s.memOk) (d) : (s.panelGone d).memOk := by
  unfold State.panelGone
  grind [setRoute_memOk, releaseHeld_memOk, panelLost_memOk, shrinkFor_memOk]
theorem portDown_memOk {s : State} (h : s.memOk) (p) : (s.portDown p).memOk := by
  unfold State.portDown
  grind [memOk_iff, sendOut_memOk, panelGone_memOk, foldl_memOk, modPort_memOk, ticked_memOk]
theorem edgePorts_memOk {s : State} (h : s.memOk) : s.edgePorts.memOk := by
  unfold State.edgePorts
  grind [portDown_memOk, foldl_memOk]
theorem execAuthFailureLimit_nextOk {s : State} (h : s.memOk) : nextOk (execAuthFailureLimit s) :=
  runEvent_nextOk (by grind [modPort_memOk, portDown_memOk]) h _
theorem execLinkFailure_nextOk {s : State} (h : s.memOk) : nextOk (execLinkFailure s) :=
  runEvent_nextOk (by grind [portDown_memOk]) h _
theorem execAllowanceReturn_nextOk {s : State} (h : s.memOk) : nextOk (execAllowanceReturn s) :=
  runEvent_nextOk (by grind [modPort_memOk, drainPort_memOk]) h _

/-! ### Deposits (R63 to R67) -/
theorem depositAt_memOk {s : State} (h : s.memOk) (m core launch) : (s.depositAt m core launch).memOk := by
  unfold State.depositAt
  grind [toPanel_memOk, modLaunchGroup_memOk]
theorem arriveDeposit_memOk {s : State} (h : s.memOk) (m) : (s.arriveDeposit m).memOk := by
  unfold State.arriveDeposit
  grind [depositAt_memOk, toPanel_memOk, bump_memOk]
theorem execDepositArrival_nextOk {s : State} (h : s.memOk) : nextOk (execDepositArrival s) :=
  runEvent_nextOk (by grind [arriveDeposit_memOk]) h _
theorem execDepositNack_nextOk {s : State} (h : s.memOk) : nextOk (execDepositNack s) :=
  runEvent_nextOk (by grind [modLaunchGroup_memOk, bump_memOk]) h _

/-! ### Wakes (R40, R434) -/
theorem arriveWake_memOk {s : State} (h : s.memOk) (m) : (s.arriveWake m).memOk := by
  unfold State.arriveWake
  grind [modLaunchGroup_memOk, toPanel_memOk, bump_memOk]
theorem execWakeArrival_nextOk {s : State} (h : s.memOk) : nextOk (execWakeArrival s) :=
  runEvent_nextOk (by grind [arriveWake_memOk]) h _

/-! ### Spawns (R39, R399) -/
theorem takeSpawn_memOk {s : State} (h : s.memOk) (m) : (s.takeSpawn m).1.memOk := by
  unfold State.takeSpawn
  grind [startHelper_memOk]
theorem execSpawnRequest_nextOk {s : State} (h : s.memOk) : nextOk (execSpawnRequest s) :=
  runEvent_nextOk (by grind [takeSpawn_memOk, bump_memOk, toPanel_memOk]) h _
theorem spawnAnswer_memOk {s : State} (h : s.memOk) (m) : (s.spawnAnswer m).memOk := by
  unfold State.spawnAnswer
  grind [modLaunchGroup_memOk, modCore_memOk]
theorem execSpawnReply_nextOk {s : State} (h : s.memOk) : nextOk (execSpawnReply s) :=
  runEvent_nextOk (by grind [spawnAnswer_memOk]) h _

/-! ### Channels and drain markers (R56, R59) -/
theorem execChannelElementArrival_nextOk {s : State} (h : s.memOk) : nextOk (execChannelElementArrival s) :=
  runEvent_nextOk (by grind [reachChan_memOk, modLaunchGroup_memOk, bump_memOk]) h _
theorem execDrainMarkerAck_nextOk {s : State} (h : s.memOk) : nextOk (execDrainMarkerAck s) :=
  runEvent_nextOk (by grind [modLaunchGroup_memOk]) h _

/-! ### Increments (R200, R212, R213, R221) -/
theorem ackIncrement_memOk {s : State} (h : s.memOk) (i ok) : (s.ackIncrement i ok).memOk := by
  unfold State.ackIncrement
  grind [toPanel_memOk]
theorem arriveIncrement_memOk {s : State} (h : s.memOk) (i) : (s.arriveIncrement i).memOk := by
  unfold State.arriveIncrement
  grind [modLaunchGroup_memOk, ackIncrement_memOk, bump_memOk, toPanel_memOk]
theorem execCounterIncrement_nextOk {s : State} (h : s.memOk) : nextOk (execCounterIncrement s) :=
  runEvent_nextOk (by grind [arriveIncrement_memOk]) h _

/-! ### A run (R223, R224) -/
theorem putWord_memOk {s : State} (h : s.memOk) (core g off v) : (s.putWord core g off v).memOk :=
  writeHome_memOk h ..
theorem putBlock_memOk {s : State} (h : s.memOk) (a core g off psn bs) : (s.putBlock a core g off psn bs).memOk := by
  unfold State.putBlock
  grind [memOk_iff, poisonMask_wf, writeHome_memOk, addMarks_wf, report_memOk, foldl_memOk]
theorem modColl_memOk {s : State} (h : s.memOk) (launch id f) : (s.modColl launch id f).memOk :=
  modLaunch_memOk h ..
theorem collRun_memOk {s : State} (h : s.memOk) (launch c gs a) : (s.collRun launch c gs a).memOk := by
  unfold State.collRun
  grind [memOk_iff, modColl_memOk, modLaunchGroup_memOk, putWord_memOk, putBlock_memOk, foldl_memOk]
theorem engRest_keeps (id) : E.Keeps (engRest id) := by
  unfold engRest
  grind [Eng.memOk, ticked_memOk, modGroup_memOk, keeps_modify]
theorem engRun_keeps (launch c) : E.Keeps (engRun launch c) := by
  unfold engRun
  grind [Eng.memOk, keeps_pure, engRest_keeps, modColl_memOk, collRun_memOk, keeps_modify, keeps_throw, keeps_get, keeps_bind,
    keeps_get_bind]
theorem engPeers_keeps (launch c) : E.Keeps (engPeers launch c) := by
  unfold engPeers
  grind [Eng.memOk, engRest_keeps, engRun_keeps, ticked_memOk, keeps_modify, keeps_pure, keeps_get, keeps_bind, keeps_get_bind]
theorem engMember_keeps (launch m c) : E.Keeps (engMember launch m c) := by
  unfold engMember
  refine keeps_bind (keeps_forM (fun o => keeps_bind (engRead_keeps ..) fun _ => keeps_pure _) _) fun _ => keeps_get_bind fun g _ => ?_
  have hput (n : Nat) (c : Collective) : E.Keeps (modify fun g => { g with s := g.s.modColl launch n fun _ => c }) :=
    keeps_modify fun g h => modColl_memOk h ..
  exact keeps_ite (keeps_bind (hput ..) fun _ => keeps_ite (engRest_keeps _) (keeps_pure _)) (keeps_ite (engRun_keeps ..) (hput ..))
theorem firedColl_keeps (x) : E.Keeps (firedColl x) := by
  unfold firedColl
  grind [Eng.memOk, engMember_keeps, engPeers_keeps, keeps_pure, keeps_get, keeps_bind, keeps_get_bind]
theorem dispatchFiring_memOk {s : State} (h : s.memOk) (core) : (s.dispatchFiring core).memOk := by
  unfold State.dispatchFiring
  grind [memOk_iff, modGroup_memOk]
theorem execCrierFire_nextOk {s : State} (h : s.memOk) : nextOk (execCrierFire s) :=
  runEvent_nextOk (by grind [dispatchFiring_memOk]) h _

/-! ### The operations (R218, R219) -/
theorem firedRel_keeps : E.Keeps firedRel := by
  unfold firedRel
  grind [Eng.memOk, keeps_pure, keeps_get, keeps_bind, keeps_get_bind]
theorem noDone_keeps : E.Keeps noDone := by
  unfold noDone
  grind [Eng.memOk, keeps_modify]
theorem engShape_keeps (cmd) : E.Keeps (engShape cmd) := by
  unfold engShape
  refine keeps_ite (keeps_pure _) (keeps_ite (keeps_pure _) (keeps_tryCatch ?_ fun h _ => ?_))
  · exact keeps_bind (engNum_keeps ..) fun n => keeps_pure _
  · split <;> [exact keeps_pure _; exact keeps_throw trivial]
theorem engReserve_keeps (n) : E.Keeps (engReserve n) := by
  unfold engReserve
  grind [Eng.memOk, keeps_pure, keeps_throw, keeps_get, keeps_bind, keeps_get_bind]
theorem firedPorter_keeps (x batch) : E.Keeps (firedPorter x batch) := by
  unfold firedPorter
  refine keeps_get_bind fun g _ => keeps_bind (keeps_ite (keeps_throw trivial) (keeps_pure _)) fun _ =>
    keeps_bind (keeps_bind (engShape_keeps _) fun r => ?_) fun sh => ?_
  · split <;> [exact keeps_pure _; exact keeps_throw trivial]
  · dsimp only
    split
    · exact keeps_throw trivial
    · refine keeps_bind (engReserve_keeps _) fun _ => keeps_bind (keeps_modify fun g h => ?_) fun _ => noDone_keeps
      exact enqueue_memOk (markDest_memOk (takeAgents_memOk h _) ..) ..
theorem firedLanes_keeps (op n z ys va l) : E.Keeps (firedLanes op n z ys va l) := by
  induction l with
  | nil => exact keeps_pure _
  | cons i t ih => exact keeps_bind (engLoc_keeps ..) fun _ => keeps_bind ih fun _ => keeps_pure _
theorem firedAtomic_keeps (x) : E.Keeps (firedAtomic x) := by
  unfold firedAtomic
  refine keeps_bind (keeps_ite (keeps_throw trivial) (keeps_pure _)) fun _ =>
    keeps_bind (keeps_ite (keeps_pure _) (keeps_bind (engRead_keeps ..) fun _ => keeps_pure _)) fun ys =>
    keeps_bind (firedLanes_keeps ..) fun ls => keeps_bind firedRel_keeps fun r => keeps_bind (keeps_modify fun g h => ?_) fun _ =>
    keeps_get_bind fun g _ => keeps_forM (fun p => engSend_keeps ..) _
  exact foldl_memOk (fun s l h => by split <;> [exact dropL1_memOk h ..; exact h]) h _
theorem firedAdd_keeps (x) : E.Keeps (firedAdd x) := by
  unfold firedAdd
  grind [Eng.memOk, engSend_keeps, modGroup_memOk, keeps_modify, keeps_throw, firedRel_keeps, keeps_get, keeps_bind, keeps_get_bind]
theorem firedRoute_keeps (name) : E.Keeps (firedRoute name) := by
  unfold firedRoute
  grind [Eng.memOk, keeps_pure, keeps_throw, keeps_get, keeps_bind, keeps_get_bind]
theorem firedDepositE_keeps (x) : E.Keeps (firedDepositE x) := by
  unfold firedDepositE
  grind [Eng.memOk, sendTo_memOk, keeps_modify, firedRel_keeps, engRead_keeps, firedRoute_keeps, keeps_bind, keeps_get_bind]
theorem firedStartE_keeps (x) : E.Keeps (firedStartE x) := by
  unfold firedStartE
  grind [Eng.memOk, noDone_keeps, eventOf_memOk, keeps_set, startHelper_memOk, keeps_get, firedRel_keeps, keeps_bind, keeps_get_bind]
theorem firedSpawnE_keeps (x) : E.Keeps (firedSpawnE x) := by
  unfold firedSpawnE
  grind [Eng.memOk, engSend_keeps, firedRel_keeps, firedRoute_keeps, noDone_keeps, report_memOk, keeps_set, keeps_get, keeps_bind,
    keeps_get_bind]
theorem firedSend_keeps (x) : E.Keeps (firedSend x) := by
  unfold firedSend
  grind [Eng.memOk, post_memOk, modGroup_memOk, keeps_modify, firedRel_keeps, engRead_keeps, keeps_throw, noDone_keeps, report_memOk,
    keeps_set, keeps_get, keeps_bind, keeps_get_bind]
theorem firedOp_keeps (x batch) : E.Keeps (firedOp x batch) := by
  unfold firedOp
  grind [Eng.memOk, firedSend_keeps, firedSpawnE_keeps, firedStartE_keeps, firedDepositE_keeps, firedAdd_keeps, firedAtomic_keeps,
    firedColl_keeps, firedPorter_keeps]

/-! ### The head of the dispatch queue -/
theorem endFiring_memOk {s : State} (h : s.memOk) (core f a) : (s.endFiring core f a).memOk := by
  unfold State.endFiring
  grind [report_memOk, modGroup_memOk]

theorem firedRun_memOk {s : State} (h : s.memOk) (core) : (s.firedRun core).1.memOk := by
  unfold State.firedRun
  dsimp only
  split
  · exact h
  · split
    · exact modGroup_memOk h ..
    · split
      · exact h
      · split
        · exact endFiring_memOk h ..
        · split
          · exact h
          · split
            case h_1 hrun => exact modGroup_memOk (eng_ok (firedOp_keeps ..) h hrun) ..
            all_goals grind [engineAsk_memOk, modGroup_memOk]
theorem runKind_memOk {s : State} (h : s.memOk) (kind core) : (s.runKind kind core).memOk := by
  unfold State.runKind
  grind [firedRun_memOk]
theorem execFiredPorterCommand_nextOk {s : State} (h : s.memOk) : nextOk (execFiredPorterCommand s) :=
  runEvent_nextOk (by grind [runKind_memOk]) h _
theorem execFiredRemoteAtomic_nextOk {s : State} (h : s.memOk) : nextOk (execFiredRemoteAtomic s) :=
  runEvent_nextOk (by grind [runKind_memOk]) h _
theorem execFiredCounterAdd_nextOk {s : State} (h : s.memOk) : nextOk (execFiredCounterAdd s) :=
  runEvent_nextOk (by grind [runKind_memOk]) h _
theorem execFiredDeposit_nextOk {s : State} (h : s.memOk) : nextOk (execFiredDeposit s) :=
  runEvent_nextOk (by grind [runKind_memOk]) h _
theorem execFiredStart_nextOk {s : State} (h : s.memOk) : nextOk (execFiredStart s) :=
  runEvent_nextOk (by grind [runKind_memOk]) h _
theorem execFiredSpawn_nextOk {s : State} (h : s.memOk) : nextOk (execFiredSpawn s) :=
  runEvent_nextOk (by grind [runKind_memOk]) h _
theorem execFiredChannelSend_nextOk {s : State} (h : s.memOk) : nextOk (execFiredChannelSend s) :=
  runEvent_nextOk (by grind [runKind_memOk]) h _

end Sys2Proof.Machine

/-! ## The canonical form: the events of units, walks and contexts -/
namespace Sys2Proof.Machine

/-! ### Commands and fences (R194, R200, R207, R209) -/
theorem porterStart_memOk {s : State} (h : s.memOk) (core q) : (s.porterStart core q).1.memOk := by
  unfold State.porterStart
  grind [porterRun_memOk, modGroup_memOk]
theorem execPorterCommandStart_nextOk {s : State} (h : s.memOk) : nextOk (execPorterCommandStart s) :=
  runEvent_nextOk (by grind [porterStart_memOk]) h _
theorem porterComplete_memOk {s : State} (h : s.memOk) (core q) : (s.porterComplete core q).memOk := by
  unfold State.porterComplete
  grind [report_memOk, modGroup_memOk]
theorem execPorterCommandComplete_nextOk {s : State} (h : s.memOk) : nextOk (execPorterCommandComplete s) :=
  runEvent_nextOk (by grind [porterComplete_memOk]) h _

/-! ### Chains (R205, R206) -/
theorem endChain_memOk {s : State} (h : s.memOk) (core q c err) : (s.endChain core q c err).memOk := by
  unfold State.endChain
  grind [modGroup_memOk, report_memOk]

theorem chainStep_keeps (core q c need) : E.Keeps (chainStep core q c need) := by
  unfold chainStep
  split
  · refine keeps_bind (engNum_keeps ..) fun x => keeps_get_bind fun g _ => keeps_ite (keeps_pure _) (keeps_ite (keeps_pure _)
      (keeps_ite (keeps_pure _) ?_))
    refine keeps_bind (engShape_keeps _) fun sh => keeps_bind (keeps_modify fun g h => takeAgents_memOk ?_ _) fun _ =>
      keeps_get_bind fun g h => ?_
    · exact h
    · dsimp only
      split
      · exact keeps_pure _
      · exact keeps_pure _
      · exact keeps_bind (engReserve_keeps _) fun _ => keeps_bind (keeps_set (markDest_memOk h ..)) fun _ => keeps_pure _
  · exact keeps_get_bind fun g _ => keeps_ite (keeps_pure _) (keeps_throw trivial)
  · exact keeps_get_bind fun g _ => keeps_bind (engParts_keeps ..) fun _ => keeps_get_bind fun g _ =>
      keeps_ite (keeps_pure _) (keeps_pure _)
  · exact keeps_bind (keeps_modify fun g h => modGroup_memOk h ..) fun _ => keeps_get_bind fun g _ => keeps_pure _
  · exact keeps_pure _
  · exact keeps_bind (engNum_keeps ..) fun x => keeps_get_bind fun g _ =>
      keeps_ite (keeps_pure _) (keeps_ite (keeps_pure _) (keeps_pure _))

theorem chainRun_memOk {s : State} (h : s.memOk) (core q) : (s.chainRun core q).1.memOk := by
  unfold State.chainRun
  dsimp only
  split
  · split
    · exact h
    · split
      · exact endChain_memOk h ..
      · split
        · exact h
        · split
          case h_1 hrun => exact modGroup_memOk (eng_ok (chainStep_keeps ..) h hrun) ..
          case h_2 hrun => exact endChain_memOk (eng_ok (chainStep_keeps ..) h hrun) ..
          all_goals grind [engineAsk_memOk, modGroup_memOk, endChain_memOk]
  · exact h
theorem execChainRecordRead_nextOk {s : State} (h : s.memOk) : nextOk (execChainRecordRead s) :=
  runEvent_nextOk (by grind [chainRun_memOk]) h _

/-! ### The matrix unit (R179, R180) -/
theorem execMmaClaimLine_nextOk {s : State} (h : s.memOk) : nextOk (execMmaClaimLine s) :=
  runEvent_nextOk (by grind [claimLine_memOk]) h _
theorem execMmaStart_nextOk {s : State} (h : s.memOk) : nextOk (execMmaStart s) :=
  runEvent_nextOk (by grind [startMma_memOk]) h _
theorem execMmaRetire_nextOk {s : State} (h : s.memOk) : nextOk (execMmaRetire s) :=
  runEvent_nextOk (by grind [retireMma_memOk]) h _

/-! ### Walks (R278, R284) -/
theorem execPageWalk_nextOk {s : State} (h : s.memOk) : nextOk (execPageWalk s) :=
  runEvent_nextOk (by grind [post_memOk, bump_memOk]) h _
theorem poke_memOk {s : State} (h : s.memOk) (k bs) : (s.poke k bs).memOk := by
  unfold State.poke
  grind [writeHome_memOk, foldl_memOk]
theorem notify_memOk {s : State} (h : s.memOk) (tenant) : (s.notify tenant).memOk := by
  unfold State.notify
  grind [sendOut_memOk, post_memOk]
theorem faultRecord_memOk {s : State} (h : s.memOk) (w) : (s.faultRecord w).memOk := by
  unfold State.faultRecord
  grind [poke_memOk, notify_memOk, ticked_memOk, bump_memOk, modTenant_memOk]
theorem ctxFault_memOk {s : State} (h : s.memOk) (w code) : (s.ctxFault w code).memOk :=
  modLaunchGroup_memOk h ..
theorem engineFault_memOk {s : State} (h : s.memOk) (w code) : (s.engineFault w code).memOk :=
  modRun_memOk h ..
theorem demandFault_memOk {s : State} (h : s.memOk) (w) : (s.demandFault w).memOk := by
  unfold State.demandFault
  grind [modLaunchGroup_memOk, ctxFault_memOk, modRun_memOk, faultRecord_memOk]
theorem install_memOk {s : State} (h : s.memOk) (core launch t d) : (s.install core launch t d).memOk := by
  unfold State.install
  grind [modCore_memOk]
theorem walkDone_memOk {s : State} (h : s.memOk) (w r) : (s.walkDone w r).memOk := by
  unfold State.walkDone
  grind [demandFault_memOk, modRun_memOk, modLaunchGroup_memOk, install_memOk, engineFault_memOk, ctxFault_memOk]
theorem execWalkResult_nextOk {s : State} (h : s.memOk) : nextOk (execWalkResult s) :=
  runEvent_nextOk (by grind [walkDone_memOk]) h _

/-! ### Waiting on a page (R286 to R288) -/
theorem wakeParked_memOk {s : State} (h : s.memOk) (ws) : (s.wakeParked ws).memOk := by
  unfold State.wakeParked
  grind [post_memOk, foldl_memOk]
theorem dropEntry_memOk {s : State} (h : s.memOk) (e) : (s.dropEntry e).memOk :=
  modLaunchGroup_memOk h ..
theorem replay_memOk {s : State} (h : s.memOk) (e) : (s.replay e).memOk := by
  unfold State.replay
  grind [modLaunchGroup_memOk, modCore_memOk, sendTo_memOk, report_memOk, markParts_memOk, dropL1_memOk, dropEntry_memOk]
theorem installPage_memOk {s : State} (h : s.memOk) (core launch g size pa flags) : (s.installPage core launch g size pa flags).memOk :=
  by
  unfold State.installPage
  grind [install_memOk]
theorem replayLog_memOk {s : State} (h : s.memOk) (core launch) : (s.replayLog core launch).memOk := by
  unfold State.replayLog
  grind [installPage_memOk, replay_memOk, foldl_memOk]
theorem resolvePage_memOk {s : State} (h : s.memOk) (tenant g) : (s.resolvePage tenant g).1.memOk := by
  unfold State.resolvePage
  grind [replay_memOk, modRun_memOk, wakeParked_memOk, installPage_memOk, foldl_memOk]
theorem failPage_memOk {s : State} (h : s.memOk) (tenant g) : (s.failPage tenant g).1.memOk := by
  unfold State.failPage
  grind [dropEntry_memOk, report_memOk, modRun_memOk, wakeParked_memOk, modLaunchGroup_memOk, foldl_memOk]
theorem pageService_memOk {s : State} (h : s.memOk) (w va) {f : State → Nat → Nat → State × Nat}
    (hf : ∀ s t g, s.memOk → (f s t g).1.memOk) : (s.pageService w va f).memOk := by
  unfold State.pageService
  split
  · exact h
  · split
    · exact service_memOk h ..
    · exact service_memOk (hf _ _ _ h) ..
theorem execPageResolve_nextOk {s : State} (h : s.memOk) : nextOk (execPageResolve s) :=
  runEvent_nextOk (by grind [resolvePage_memOk, pageService_memOk]) h _
theorem execPageFail_nextOk {s : State} (h : s.memOk) : nextOk (execPageFail s) :=
  runEvent_nextOk (by grind [failPage_memOk, pageService_memOk]) h _

/-! ### The held-store record (R289) -/
theorem writeHeld_memOk {s : State} (h : s.memOk) (core ctx e) : ∀ t, (s.writeHeld core ctx e) = some t → t.memOk := by
  unfold State.writeHeld
  grind [poke_memOk, dropL1_memOk]
theorem fetchKeyM_keeps : M.Keeps fetchKeyM := by
  unfold fetchKeyM
  grind [memOk_iff, keeps_pure, keeps_get, spend_keeps, resolveM_keeps, trapM_keeps, me_keeps, keeps_bind, keeps_get_bind]
theorem fetchM_keeps : M.Keeps fetchM := by
  unfold fetchM
  grind [memOk_iff, keeps_pure, keeps_get, fetchKeyM_keeps, keeps_bind, keeps_get_bind]
theorem fetchFaultM_keeps : M.Keeps fetchFaultM := by
  unfold fetchFaultM
  grind [illegal_keeps, keeps_pure, fetchM_keeps, keeps_bind, keeps_get_bind]
theorem execIllegalInstructionFetch_nextOk {s : State} (h : s.memOk) : nextOk (execIllegalInstructionFetch s) :=
  runEvent_nextOk (by grind [memOk_iff, fetchFaultM_keeps, turn_memOk]) h _

/-! ### Reports (R272, R289) -/
theorem leaveCollective_memOk {s : State} (h : s.memOk) (w) : (s.leaveCollective w).memOk :=
  modLaunch_memOk h ..
theorem cancelAccess_memOk {s : State} (h : s.memOk) (core ctx) : (s.cancelAccess core ctx).memOk := by
  unfold State.cancelAccess
  grind [modCtx_memOk, sendTo_memOk, foldl_memOk]
theorem leaveAccess_memOk {s : State} (h : s.memOk) (core ctx) : (s.leaveAccess core ctx).memOk := by
  unfold State.leaveAccess
  grind [leaveCollective_memOk, modCtx_memOk, modCore_memOk, withdrawMma_memOk]
theorem takeReport_memOk {s : State} (h : s.memOk) (core ctx r) : (s.takeReport core ctx r).memOk := by
  unfold State.takeReport
  grind [fatal_memOk, writeHeld_memOk, dropEntry_memOk, enterTrap_memOk, leaveAccess_memOk, modCtx_memOk]
theorem execTrapReport_nextOk {s : State} (h : s.memOk) : nextOk (execTrapReport s) :=
  runEvent_nextOk (by grind [cancelAccess_memOk, takeReport_memOk]) h _

/-! ### Waits that end (R36) -/
theorem execContextReady_nextOk {s : State} (h : s.memOk) : nextOk (execContextReady s) :=
  runEvent_nextOk (by grind [modCtx_memOk]) h _

/-! ### Barriers (R46, R47) -/
theorem gatherWord_memOk {s t : State} (h : s.memOk) (core va v fuel) (ht : s.gatherWord core va v fuel = some t) : t.memOk := by
  induction fuel generalizing s with
  | zero => exact Option.some.inj ht ▸ h
  | succ fuel ih =>
    have hstart := engineActor_memOk h core 0 .context
    unfold State.gatherWord at ht
    dsimp only at ht
    split at ht
    case h_1 hrun => exact Option.some.inj ht ▸ modCtx_memOk (eng_ok (engWrite_keeps ..) hstart hrun) ..
    all_goals grind [bump_memOk, faultRecord_memOk, modGroup_memOk, install_memOk, report_memOk]
theorem gatherAll_memOk {s t : State} (h : s.memOk) (core va l) (ht : s.gatherAll core va l = some t) : t.memOk := by
  induction l generalizing s va with
  | nil => exact Option.some.inj ht ▸ h
  | cons v l ih =>
    unfold State.gatherAll at ht
    split at ht
    case h_1 hword => exact ih (gatherWord_memOk h _ _ _ _ hword) _ ht
    case h_2 => cases ht
theorem barrier_memOk {s t : State} (h : s.memOk) (launch d) (ht : s.barrier launch d = some t) : t.memOk := by
  unfold State.barrier at ht
  obtain ⟨u, hu, rfl⟩ := Option.map_eq_some_iff.1 ht
  refine modBar_memOk ?_ ..
  split at hu
  · exact Option.some.inj hu ▸ h
  · dsimp only at hu
    split at hu
    · exact gatherAll_memOk h _ _ _ hu
    · cases hu
theorem execBarrierComplete_nextOk {s : State} (h : s.memOk) : nextOk (execBarrierComplete s) := by
  refine runEvent_nextOk (fun e s h => ?_) h _
  split
  · split
    · cases hb : s.barrier _ _ with
      | none => exact h
      | some t => exact barrier_memOk h _ _ hb
    · exact h
  · exact h

/-! ### Follow mode (R41) -/
theorem execFollowLagLimit_nextOk {s : State} (h : s.memOk) : nextOk (execFollowLagLimit s) :=
  runEvent_nextOk (by grind [modCtx_memOk]) h _

end Sys2Proof.Machine

/-! ## The canonical form: launches and slots -/
namespace Sys2Proof.Machine

/-! ### Copies of footprints -/
theorem copyPiece_keeps (p) : E.Keeps (copyPiece p) := by
  unfold copyPiece
  grind [Eng.memOk, engWrite_keeps, engRead_keeps, keeps_bind, keeps_get_bind]
theorem copyPieces_memOk {g : Eng} (h : g.memOk) (ps n) : (copyPieces ps n g).1.memOk := by
  induction n generalizing g with
  | zero => exact h
  | succ n ih =>
    unfold copyPieces
    split
    · exact h
    · split
      case h_1 hrun =>
        have hok := (copyPiece_keeps _).ok h hrun
        exact ih hok
      case h_2 => exact h

/-! ### Stages -/
theorem startTask_memOk {s : State} (h : s.memOk) (core t) : (s.startTask core t).memOk := by
  unfold State.startTask
  grind [modGroup_memOk, startIn_memOk]
theorem failTask_memOk {s : State} (h : s.memOk) (core t code v) : (s.failTask core t code v).memOk :=
  report_memOk (modGroup_memOk h ..) ..
theorem taskCopy_memOk {s : State} (h : s.memOk) (core slot stage) : (s.taskCopy core slot stage).1.memOk := by
  have hcopy (ps n a run) : (copyPieces ps n ⟨s, a, run⟩).1.s.memOk := copyPieces_memOk (g := ⟨s, a, run⟩) h ps n
  unfold State.taskCopy
  grind [engineAsk_memOk, startTask_memOk, modGroup_memOk, failTask_memOk]

/-! ### Dispatch (R43, R45) -/
theorem giveTask_memOk {s : State} (h : s.memOk) (launch core slot t) : (s.giveTask launch core slot t).memOk := by
  unfold State.giveTask
  grind [memOk_iff, taskCopy_memOk, modGroup_memOk, modLaunch_memOk]
theorem execTaskDispatch_nextOk {s : State} (h : s.memOk) : nextOk (execTaskDispatch s) :=
  runEvent_nextOk (by grind [giveTask_memOk]) h _
theorem execTaskStart_nextOk {s : State} (h : s.memOk) : nextOk (execTaskStart s) :=
  runEvent_nextOk (by grind [taskCopy_memOk]) h _
theorem execTaskUnpin_nextOk {s : State} (h : s.memOk) : nextOk (execTaskUnpin s) :=
  runEvent_nextOk (by grind [taskCopy_memOk]) h _

/-! ### Slot lending (R45, R286) -/
theorem execSlotLend_nextOk {s : State} (h : s.memOk) : nextOk (execSlotLend s) :=
  runEvent_nextOk (by grind [modGroup_memOk, giveTask_memOk]) h _
theorem preemptTask_memOk {s : State} (h : s.memOk) (core slot) : (s.preemptTask core slot).memOk := by
  unfold State.preemptTask
  grind [modGroup_memOk, modLaunch_memOk, leaveAccess_memOk]
theorem execPageFaultWake_nextOk {s : State} (h : s.memOk) : nextOk (execPageFaultWake s) :=
  runEvent_nextOk (by grind [cancelAccess_memOk, again_memOk, modLaunchGroup_memOk, preemptTask_memOk]) h _

/-! ### Names (R30) -/
theorem giveNames_memOk {s : State} (h : s.memOk) (n) : (s.giveNames n).memOk := by
  unfold State.giveNames
  grind [memOk_iff, foldl_memOk, modLaunch_memOk]

/-! ### Granules (R27, R120, R263) -/
theorem actRow_memOk {s : State} (h : s.memOk) (action core g) : (s.actRow action core g).memOk :=
  writeRow_memOk h ..
theorem evictFor_memOk {s : State} (h : s.memOk) (n cores) : (s.evictFor n cores).memOk := by
  unfold State.evictFor
  grind [actRow_memOk, foldl_memOk, modLaunch_memOk]

/-! ### Binding and resuming (R26, R27, R102, R253, R257, R259) -/
theorem placeAway_memOk {s : State} (h : s.memOk) (tenant pa bs) : (s.placeAway tenant pa bs).memOk := by
  unfold State.placeAway
  grind [sendOut_memOk, foldl_memOk]
theorem placeBytes_memOk {s : State} (h : s.memOk) (tenant va n bs) : (s.placeBytes tenant va n bs).memOk := by
  induction n generalizing s va bs with
  | zero => exact h
  | succ n ih =>
    unfold State.placeBytes
    grind [placeAway_memOk, poke_memOk]
theorem placeSections_memOk {s : State} (h : s.memOk) (n) : (s.placeSections n).memOk := by
  unfold State.placeSections
  grind [foldl_memOk, placeBytes_memOk]
theorem startLaunch_memOk {s : State} (h : s.memOk) (n) : (s.startLaunch n).memOk := by
  unfold State.startLaunch
  grind [placeSections_memOk, actRow_memOk, foldl_memOk, modLaunch_memOk, giveNames_memOk, evictFor_memOk]
theorem saveLaunch_memOk {s : State} (h : s.memOk) (n) : (s.saveLaunch n).memOk := by
  unfold State.saveLaunch
  grind [actRow_memOk, foldl_memOk, account_memOk, modLaunch_memOk]
theorem grants_memOk {s : State} (h : s.memOk) (preempt) : (s.grants preempt).memOk := by
  unfold State.grants
  grind [saveLaunch_memOk, startLaunch_memOk, foldl_memOk]

/-! ### Quanta and windows (R255 to R257, R268, R302) -/
theorem addEnergy_memOk {s : State} (h : s.memOk) (q) : (s.addEnergy q).memOk := by
  unfold State.addEnergy
  grind [modTenant_memOk, meter_memOk, foldl_memOk]
theorem quantum_memOk {s : State} (h : s.memOk) : s.quantum.memOk := by
  unfold State.quantum
  grind [memOk_iff, grants_memOk, post_memOk, addEnergy_memOk, account_memOk, foldl_memOk]
theorem execQuantumBoundary_nextOk {s : State} (h : s.memOk) : nextOk (execQuantumBoundary s) :=
  runEvent_nextOk (by grind [quantum_memOk]) h _
theorem execSchedulingWindowEnd_nextOk {s : State} (h : s.memOk) : nextOk (execSchedulingWindowEnd s) :=
  runEvent_nextOk (by grind [memOk_iff, grants_memOk, modTenant_memOk, foldl_memOk]) h _

/-! ### Rows (R258, R259) -/
theorem endAction_memOk {s : State} (h : s.memOk) (chip row result) : (s.endAction chip row result).memOk :=
  h
theorem act_memOk {s : State} (h : s.memOk) (chip row action ok) {f : BitVec 256 → State → State}
    (hf : ∀ v s, s.memOk → (f v s).memOk) : (s.act chip row action ok f).memOk := by
  unfold State.act
  grind [endAction_memOk]

/-! ### Zeroing (R120, R264) -/
theorem nackWaiters_memOk {s : State} (h : s.memOk) (core gs) : (s.nackWaiters core gs).memOk := by
  unfold State.nackWaiters
  grind [modCore_memOk, toPanel_memOk, foldl_memOk]
theorem zeroGranules_memOk {s : State} (h : s.memOk) (core gmap part) : (s.zeroGranules core gmap part).memOk := by
  unfold State.zeroGranules
  grind [memOk_iff, nackWaiters_memOk, zero_wf, foldl_memOk]
theorem fillPartition_memOk {s : State} (h : s.memOk) (core gmap part bs) : (s.fillPartition core gmap part bs).memOk := by
  unfold State.fillPartition
  grind [memOk_iff, setBytes_wf, foldl_memOk]

/-! ### Bind (R31, R32, R34, R38, R105, R212, R253) -/
theorem bindGroup_memOk {s : State} (h : s.memOk) (core v) : (s.bindGroup core v).memOk := by
  unfold State.bindGroup
  grind [startIn_memOk, modCore_memOk, zeroGranules_memOk, fillPartition_memOk, account_memOk]
theorem execSlotBind_nextOk {s : State} (h : s.memOk) : nextOk (execSlotBind s) :=
  runEvent_nextOk (by grind [bindGroup_memOk, act_memOk]) h _

/-! ### Save (R37, R69, R260) -/
theorem withdraw_memOk {s : State} (h : s.memOk) (core i) : (s.withdraw core i).memOk := by
  unfold State.withdraw
  grind [cancelAccess_memOk, leaveAccess_memOk]
theorem execSlotSave_nextOk {s : State} (h : s.memOk) : nextOk (execSlotSave s) :=
  runEvent_nextOk (by grind [withdraw_memOk, foldl_memOk, modCore_memOk, endAction_memOk]) h _
theorem writeImages_memOk {s : State} (h : s.memOk) (core g) : (s.writeImages core g).memOk :=
  setBytes_wf h ..
theorem saveGroup_memOk {s : State} (h : s.memOk) (chip row) : (s.saveGroup chip row).memOk := by
  unfold State.saveGroup
  grind [modLaunch_memOk, grants_memOk, bump_memOk, endAction_memOk, modCore_memOk, account_memOk, writeImages_memOk, withdraw_memOk,
    preemptTask_memOk, foldl_memOk]
theorem execSaveWritePhase_nextOk {s : State} (h : s.memOk) : nextOk (execSaveWritePhase s) :=
  runEvent_nextOk (by grind [saveGroup_memOk]) h _

/-! ### Resume (R37, R69, R221, R263) -/
theorem unpark_memOk {s : State} (h : s.memOk) (core gmap g) : (s.unpark core gmap g).memOk := by
  unfold State.unpark
  grind [memOk_iff, foldl_memOk]
theorem restorePartition_memOk {s : State} (h : s.memOk) (core n gmap part) : (s.restorePartition core n gmap part).memOk := by
  unfold State.restorePartition
  grind [memOk_iff, setEmpty_wf, foldl_memOk, zeroGranules_memOk, fillPartition_memOk]
theorem resumeGroup_memOk {s : State} (h : s.memOk) (core v) : (s.resumeGroup core v).memOk := by
  unfold State.resumeGroup
  grind [modLaunch_memOk, reachChan_memOk, foldl_memOk, replayLog_memOk, modGroup_memOk, modCore_memOk, restorePartition_memOk,
    unpark_memOk, account_memOk]
theorem execSlotResume_nextOk {s : State} (h : s.memOk) : nextOk (execSlotResume s) :=
  runEvent_nextOk (by grind [resumeGroup_memOk, act_memOk]) h _

/-! ### Eviction (R120, R263) -/
theorem evictPartition_memOk {s : State} (h : s.memOk) (core n) : (s.evictPartition core n).memOk := by
  unfold State.evictPartition
  grind [memOk_iff, zeroGranules_memOk, modLaunchGroup_memOk, setBytes_wf]
theorem execSlotEvictPartition_nextOk {s : State} (h : s.memOk) : nextOk (execSlotEvictPartition s) :=
  runEvent_nextOk (by grind [evictPartition_memOk, act_memOk, grants_memOk]) h _

/-! ### Reset stop and retire (R259, R265) -/
theorem stopGroup_memOk {s : State} (h : s.memOk) (core) : (s.stopGroup core).memOk := by
  unfold State.stopGroup
  grind [modGroup_memOk, modCore_memOk, releaseClaims_memOk, foldl_memOk]
theorem resetRow_memOk {s : State} (h : s.memOk) (core) : (s.resetRow core).memOk := by
  unfold State.resetRow
  grind [memOk_iff, stopGroup_memOk, endAction_memOk]
theorem execSlotResetStop_nextOk {s : State} (h : s.memOk) : nextOk (execSlotResetStop s) :=
  runEvent_nextOk (by grind [stopGroup_memOk, act_memOk]) h _
theorem execSlotRetire_nextOk {s : State} (h : s.memOk) : nextOk (execSlotRetire s) :=
  runEvent_nextOk (by grind [modCore_memOk, act_memOk, grants_memOk]) h _

/-! ### Groups and launches retire (R34, R253, R273) -/
theorem retireGroup_memOk {s : State} (h : s.memOk) (core) : (s.retireGroup core).memOk := by
  unfold State.retireGroup
  dsimp only
  have hlive := modLaunch_memOk (modCore_memOk (writeRow_memOk (account_memOk h (s.group core).launch) (chipOf core) (localIdx core)
    (slotRecord 6 0 0 (s.group core).launch 0 0 0 0 0 0)) core fun c => c.dropLaunch (s.account (s.group core).launch).myPanel
    (s.group core).launch) (s.group core).launch fun l => { l with live := l.live.erase core }
  split
  · exact retireWith_memOk hlive ..
  · exact hlive
theorem execGroupRetire_nextOk {s : State} (h : s.memOk) : nextOk (execGroupRetire s) :=
  runEvent_nextOk (by grind [retireGroup_memOk]) h _

end Sys2Proof.Machine

/-! ## The canonical form: services and host requests -/
namespace Sys2Proof.Machine

/-! ### The caller's memory (R357) -/
theorem svcWrite_memOk {s t : State} (h : s.memOk) (a va bs) (ht : s.svcWrite a va bs = some t) : t.memOk := by
  unfold State.svcWrite at ht
  obtain ⟨ks, _, rfl⟩ := Option.map_eq_some_iff.1 ht
  exact foldl_fst_memOk (fun _ _ hp => poke_memOk (dropL1_memOk hp ..) ..) h _

/-! ### Address ranges (R126, R127, R264) -/
theorem setRanges_memOk {s : State} (h : s.memOk) (arr) : (s.setRanges arr).memOk := keepCells_wf h _

/-! ### The domain switch (R131, R132, R133) -/
theorem switchStart_memOk {s : State} (h : s.memOk) (w tenant x) : (s.switchStart w tenant x).memOk := by
  unfold State.switchStart
  grind [memOk_iff, foldl_memOk]
theorem switchDomains_memOk {s : State} (h : s.memOk) (tenant x) : (s.switchDomains tenant x).memOk := by
  unfold State.switchDomains
  grind [memOk_iff, setRanges_memOk, post_memOk, foldl_memOk]
theorem switchEnd_memOk {s : State} (h : s.memOk) : s.switchEnd.memOk := by
  unfold State.switchEnd
  grind [switchDomains_memOk, service_memOk]
theorem domainService_memOk {s : State} (h : s.memOk) (w addr) : (s.domainService w addr).memOk := by
  unfold State.domainService
  grind [switchStart_memOk, switchEnd_memOk, service_memOk]
theorem execDomainSwitch_nextOk {s : State} (h : s.memOk) : nextOk (execDomainSwitch s) :=
  runEvent_nextOk (by grind [domainService_memOk, switchEnd_memOk]) h _
theorem execReplayMarkRemoval_nextOk {s : State} (h : s.memOk) : nextOk (execReplayMarkRemoval s) :=
  runEvent_nextOk (by grind [memOk_iff]) h _

/-! ### Meter records (R269) -/
theorem meterRecord_memOk {s : State} (h : s.memOk) (t nonce final) : (s.meterRecord t nonce final).1.memOk :=
  modTenant_memOk h ..
theorem meterService_memOk {s : State} (h : s.memOk) (w addr) : (s.meterService w addr).memOk := by
  unfold State.meterService
  grind [svcWrite_memOk, meterRecord_memOk, service_memOk]
theorem execMeterRecordService_nextOk {s : State} (h : s.memOk) : nextOk (execMeterRecordService s) :=
  runEvent_nextOk (by grind [meterService_memOk]) h _

/-! ### Handler tables (R328) -/
theorem execHandlerTableInstall_nextOk {s : State} (h : s.memOk) : nextOk (execHandlerTableInstall s) :=
  runEvent_nextOk (by grind [modLaunchGroup_memOk, service_memOk]) h _
theorem buildMember_memOk {s : State} (h : s.memOk) (launch c m core) : (s.buildMember launch c m core).memOk := by
  unfold State.buildMember
  grind [modColl_memOk, putWord_memOk, modGroup_memOk, engineActor_memOk]
theorem answerMembers_memOk {s : State} (h : s.memOk) (launch cores status) : (s.answerMembers launch cores status).memOk := by
  unfold State.answerMembers
  grind [service_memOk, foldl_memOk]
theorem buildAll_memOk {s : State} (h : s.memOk) (launch c) : (s.buildAll launch c).memOk := by
  unfold State.buildAll
  grind [modLaunch_memOk, buildMember_memOk, foldl_memOk, answerMembers_memOk, modColl_memOk]
theorem askPeers_memOk {s : State} (h : s.memOk) (launch c) : (s.askPeers launch c).memOk := by
  unfold State.askPeers
  grind [modLaunch_memOk, answerMembers_memOk, buildAll_memOk, ticked_memOk]
theorem buildCall_memOk {s : State} (h : s.memOk) (w addr) : (s.buildCall w addr).memOk := by
  unfold State.buildCall
  grind [memOk_iff, buildAll_memOk, modLaunch_memOk, askPeers_memOk, service_memOk]
theorem execCollectiveBuild_nextOk {s : State} (h : s.memOk) : nextOk (execCollectiveBuild s) :=
  runEvent_nextOk (by grind [buildCall_memOk]) h _
theorem giveBack_memOk {s : State} (h : s.memOk) (launch c) : (s.giveBack launch c).memOk := by
  unfold State.giveBack
  grind [modLaunchGroup_memOk, foldl_memOk]
theorem releaseCall_memOk {s : State} (h : s.memOk) (w addr) : (s.releaseCall w addr).memOk := by
  unfold State.releaseCall
  grind [modColl_memOk, giveBack_memOk, modLaunch_memOk, answerMembers_memOk, service_memOk]
theorem execCollectiveRelease_nextOk {s : State} (h : s.memOk) : nextOk (execCollectiveRelease s) :=
  runEvent_nextOk (by grind [releaseCall_memOk]) h _

/-! ### Removal of members (R226) -/
theorem shrinkMember_memOk {s : State} (h : s.memOk) (launch c wasOpen m core) : (s.shrinkMember launch c wasOpen m core).memOk := by
  unfold State.shrinkMember
  grind [putWord_memOk, foldl_memOk, modLaunchGroup_memOk]
theorem shrink_memOk {s : State} (h : s.memOk) (launch id panel) : (s.shrink launch id panel).memOk := by
  unfold State.shrink
  grind [shrinkMember_memOk, foldl_memOk, modColl_memOk]
theorem execCollectiveShrink_nextOk {s : State} (h : s.memOk) : nextOk (execCollectiveShrink s) :=
  runEvent_nextOk (by grind [shrink_memOk]) h _

/-! ### Datagrams (R307, R308, R310) -/
theorem sendHost_memOk {s : State} (h : s.memOk) (r bs) : (s.sendHost r bs).memOk := h
theorem modSession_memOk {s : State} (h : s.memOk) (num f) : (s.modSession num f).memOk := h

/-! ### Taking up a request (R305, R306) -/
theorem hostIncrement_memOk {s : State} (h : s.memOk) (r) : (s.hostIncrement r).memOk := by
  unfold State.hostIncrement
  grind [bump_memOk, modGroup_memOk]
theorem complete_memOk {s : State} (h : s.memOk) (r x a) : (s.complete r x a).memOk := by
  unfold State.complete
  grind [sendHost_memOk, modSession_memOk, hostIncrement_memOk]
theorem serveHost_memOk {s : State} (h : s.memOk) (r op) {f : State → State × HostAns} (hf : ∀ s, s.memOk → (f s).1.memOk) :
    (s.serveHost r op f).memOk := by
  unfold State.serveHost
  grind [memOk_iff, complete_memOk, modSession_memOk, bump_memOk, sendHost_memOk]
theorem finishHost_memOk {s : State} (h : s.memOk) (r) : (s.finishHost r).memOk := by
  unfold State.finishHost
  grind [memOk_iff, complete_memOk]
theorem ofTenant_memOk {s : State} (h : s.memOk) (r) {f : State → State × HostAns} (hf : ∀ s, s.memOk → (f s).1.memOk) :
    (s.ofTenant r f).1.memOk := by
  unfold State.ofTenant
  split <;> [exact hf s h; exact h]

/-! ### Sessions and identity (R303, R307) -/
theorem openSession_memOk {s : State} (h : s.memOk) (r) : (s.openSession r).memOk := by
  unfold State.openSession
  grind [memOk_iff, sendHost_memOk]
theorem execHostOpenSession_nextOk {s : State} (h : s.memOk) : nextOk (execHostOpenSession s) :=
  runEvent_nextOk (by grind [sendHost_memOk, openSession_memOk]) h _
theorem execHostCloseSession_nextOk {s : State} (h : s.memOk) : nextOk (execHostCloseSession s) :=
  runEvent_nextOk (by grind [memOk_iff, serveHost_memOk]) h _
theorem execHostIdentity_nextOk {s : State} (h : s.memOk) : nextOk (execHostIdentity s) :=
  runEvent_nextOk (by grind [sendHost_memOk]) h _
theorem execHostBadRequest_nextOk {s : State} (h : s.memOk) : nextOk (execHostBadRequest s) :=
  runEvent_nextOk (by grind [serveHost_memOk, sendHost_memOk]) h _

/-! ### Memory (R153, R309) -/
theorem hostReach_memOk {s : State} (h : s.memOk) (r e write n) {x : State × HostAns} (hx : s.hostReach r e write n = .error x) :
    x.1.memOk := by
  unfold State.hostReach at hx
  grind [unblock_memOk, foldl_memOk, again_memOk]
theorem writeParts_memOk {s : State} (h : s.memOk) (tenant ps bs) : (s.writeParts tenant ps bs).memOk := by
  unfold State.writeParts
  refine proxyWritten_memOk (foldl_fst_memOk (fun p x hp => ?_) h _) _
  dsimp only
  split <;> [exact writeHome_memOk hp ..; exact hp]
theorem hostJoin_memOk {s : State} (h : s.memOk) (r ps) : (s.hostJoin r ps).memOk := by
  unfold State.hostJoin
  grind [memOk_iff, foldl_memOk]
theorem execHostWrite_nextOk {s : State} (h : s.memOk) : nextOk (execHostWrite s) := by
  refine runEvent_nextOk (fun e s h => ?_) h _
  split
  · refine serveHost_memOk h _ _ fun s h => ofTenant_memOk h _ fun s h => ?_
    grind [writeParts_memOk, hostReach_memOk]
  · exact h
theorem execHostRead_nextOk {s : State} (h : s.memOk) : nextOk (execHostRead s) := by
  refine runEvent_nextOk (fun e s h => ?_) h _
  split
  · refine serveHost_memOk h _ _ fun s h => ofTenant_memOk h _ fun s h => ?_
    grind [hostJoin_memOk, hostReach_memOk]
  · exact h
theorem execHostNotify_nextOk {s : State} (h : s.memOk) : nextOk (execHostNotify s) :=
  runEvent_nextOk (by grind [ofTenant_memOk, serveHost_memOk]) h _

/-! ### Tenants (R251, R252, R265 to R267) -/
theorem execHostRegisterTenant_nextOk {s : State} (h : s.memOk) : nextOk (execHostRegisterTenant s) :=
  runEvent_nextOk (by grind [modTenant_memOk, serveHost_memOk]) h _
theorem execHostDeregisterTenant_nextOk {s : State} (h : s.memOk) : nextOk (execHostDeregisterTenant s) :=
  runEvent_nextOk (by grind [sendHost_memOk, modTenant_memOk, meterRecord_memOk, ofTenant_memOk, serveHost_memOk]) h _
theorem resetTenant_memOk {s : State} (h : s.memOk) (t) : (s.resetTenant t).memOk := by
  unfold State.resetTenant
  grind [retireWith_memOk, modPort_memOk, modTenant_memOk, zeroGranules_memOk, modCore_memOk, resetRow_memOk, foldl_memOk]
theorem execHostResetTenant_nextOk {s : State} (h : s.memOk) : nextOk (execHostResetTenant s) :=
  runEvent_nextOk (by grind [memOk_iff, resetTenant_memOk, ofTenant_memOk, serveHost_memOk, finishHost_memOk]) h _
theorem execHostMeterRecord_nextOk {s : State} (h : s.memOk) : nextOk (execHostMeterRecord s) :=
  runEvent_nextOk (by grind [meterRecord_memOk, ofTenant_memOk, serveHost_memOk]) h _

/-! ### Containers (R102, R106 to R110) -/
theorem loadImage_memOk {s : State} (h : s.memOk) (tenant bs) : (s.loadImage tenant bs).memOk := by
  unfold State.loadImage
  grind [memOk_iff, post_memOk, foldl_memOk]
theorem execHostLoadContainer_nextOk {s : State} (h : s.memOk) : nextOk (execHostLoadContainer s) := by
  refine runEvent_nextOk (fun e s h => ?_) h _
  split
  · refine serveHost_memOk h _ _ fun s h => ofTenant_memOk h _ fun s h => ?_
    grind [loadImage_memOk, hostReach_memOk]
  · exact h
theorem execContainerForward_nextOk {s : State} (h : s.memOk) : nextOk (execContainerForward s) :=
  runEvent_nextOk (by grind [memOk_iff, post_memOk, foldl_memOk]) h _

/-! ### Launches (R26, R253) -/
theorem submit_memOk {s : State} (h : s.memOk) (tenant bs) : (s.submit tenant bs).1.memOk := h
theorem execHostSubmitLaunch_nextOk {s : State} (h : s.memOk) : nextOk (execHostSubmitLaunch s) :=
  runEvent_nextOk (by grind [submit_memOk, serveHost_memOk]) h _
theorem execHostLaunchStatus_nextOk {s : State} (h : s.memOk) : nextOk (execHostLaunchStatus s) :=
  runEvent_nextOk (by grind [ofTenant_memOk, serveHost_memOk]) h _

/-! ### Re-cabling (R246, R330, R331) -/
theorem recableStart_memOk {s : State} (h : s.memOk) (bs) : (s.recableStart bs).memOk := by
  unfold State.recableStart
  grind [modPort_memOk, setRoute_memOk, foldl_memOk]
theorem recableEnd_memOk {s : State} (h : s.memOk) (bs) : (s.recableEnd bs).memOk := by
  unfold State.recableEnd
  grind [memOk_iff, panelGone_memOk, releaseHeld_memOk, drainPort_memOk, edgePorts_memOk, modPort_memOk, foldl_memOk]
theorem execHostRecablePod_nextOk {s : State} (h : s.memOk) : nextOk (execHostRecablePod s) :=
  runEvent_nextOk (by grind [memOk_iff, recableStart_memOk, serveHost_memOk, recableEnd_memOk, finishHost_memOk]) h _

end Sys2Proof.Machine

/-! ## The canonical form: management -/
namespace Sys2Proof.Machine

/-! ### The capability list (R304) -/
theorem writeCaps_memOk {s : State} (h : s.memOk) : s.writeCaps.memOk := poke_memOk h ..

/-! ### Boot and recovery (R303) -/
theorem bootFirmware_memOk {s : State} (h : s.memOk) : s.bootFirmware.memOk := writeCaps_memOk h ..
theorem execBoot_nextOk {s : State} (h : s.memOk) : nextOk (execBoot s) :=
  runEvent_nextOk (by grind [memOk_iff, bootFirmware_memOk]) h _
theorem execRecoveryImage_nextOk {s : State} (h : s.memOk) : nextOk (execRecoveryImage s) :=
  runEvent_nextOk (by grind [memOk_iff, bootFirmware_memOk]) h _
theorem modTables_memOk {s : State} (h : s.memOk) (f) : (s.modTables f).memOk := h

/-! ### SMAP (R19, R20) -/
theorem putSmap_memOk {s : State} (h : s.memOk) (p v) : (s.putSmap p v).memOk := by
  unfold State.putSmap
  grind [chipError_memOk, modTables_memOk]
theorem execSmapWrite_nextOk {s : State} (h : s.memOk) : nextOk (execSmapWrite s) :=
  runEvent_nextOk (by grind [putSmap_memOk]) h _

/-! ### Ranges, vault pages, the injector (R115, R126, R264, R295) -/
theorem execArrWrite_nextOk {s : State} (h : s.memOk) : nextOk (execArrWrite s) :=
  runEvent_nextOk (by grind [setRanges_memOk]) h _
theorem execVownWrite_nextOk {s : State} (h : s.memOk) : nextOk (execVownWrite s) :=
  runEvent_nextOk (by grind [memOk_iff, zero_wf, modTables_memOk]) h _
theorem execInjctlWrite_nextOk {s : State} (h : s.memOk) : nextOk (execInjctlWrite s) :=
  runEvent_nextOk (by grind [memOk_iff]) h _
theorem execInjseedWrite_nextOk {s : State} (h : s.memOk) : nextOk (execInjseedWrite s) :=
  runEvent_nextOk (by grind [memOk_iff]) h _

/-! ### The other registers (R21, R127, R243, R258, R259) -/
theorem putReg_memOk {s : State} (h : s.memOk) (r v) : (s.putReg r v).memOk := by
  unfold State.putReg
  grind [writeRow_memOk, endAction_memOk, chipError_memOk, modTables_memOk]

/-! ### Remap (R24, R26, R110, R233, R438) -/
theorem redistribute_memOk {s : State} (h : s.memOk) (old) : (s.redistribute old).memOk := by
  unfold State.redistribute
  grind [memOk_iff, post_memOk, foldl_memOk]
theorem chipsChanged_memOk {s : State} (h : s.memOk) (old) : (s.chipsChanged old).memOk := by
  unfold State.chipsChanged
  grind [redistribute_memOk, unrecoverable_memOk, retireWith_memOk, foldl_memOk]
theorem reroute_memOk {s : State} (h : s.memOk) : s.reroute.memOk :=
  edgePorts_memOk (modTables_memOk h ..) ..
theorem regWritten_memOk {s : State} (h : s.memOk) (r old) : (s.regWritten r old).memOk := by
  unfold State.regWritten
  grind [reroute_memOk, chipsChanged_memOk, writeCaps_memOk]
theorem execMgmtRegisterWrite_nextOk {s : State} (h : s.memOk) : nextOk (execMgmtRegisterWrite s) :=
  runEvent_nextOk (by grind [putReg_memOk, regWritten_memOk]) h _
theorem remap_memOk {s : State} (h : s.memOk) (r) : (s.remap r).memOk := by
  unfold State.remap
  grind [chipsChanged_memOk, writeCaps_memOk, reroute_memOk, putReg_memOk, putSmap_memOk, foldl_memOk]
theorem execRemapChange_nextOk {s : State} (h : s.memOk) : nextOk (execRemapChange s) :=
  runEvent_nextOk (by grind [remap_memOk]) h _

/-! ### Restoring groups (R291, R293, R294) -/
theorem restoreRanges_memOk {s : State} (h : s.memOk) (core g k) : (s.restoreRanges core g k).memOk := by
  unfold State.restoreRanges
  grind [memOk_iff, setEmpty_wf, setLine_wf, foldl_memOk, zeroGranules_memOk]
theorem tellParked_memOk {s : State} (h : s.memOk) (core launch r) : (s.tellParked core launch r).memOk := by
  unfold State.tellParked
  grind [modLaunchGroup_memOk, post_memOk, foldl_memOk]
theorem peerRollback_memOk {s : State} (h : s.memOk) (launch core seq) : (s.peerRollback launch core seq).memOk := by
  unfold State.peerRollback
  grind [report_memOk, tellParked_memOk, modLaunchGroup_memOk, modBar_memOk, foldl_memOk]
theorem loseExecution_memOk {s : State} (h : s.memOk) (core launch) : (s.loseExecution core launch).memOk := by
  unfold State.loseExecution
  grind [memOk_iff, modLaunch_memOk]
theorem restoreGroup_memOk {s : State} (h : s.memOk) (core launch) : (s.restoreGroup core launch).memOk := by
  unfold State.restoreGroup
  grind [memOk_iff, peerRollback_memOk, loseExecution_memOk, restoreRanges_memOk, modLaunchGroup_memOk, unrecoverable_memOk]
theorem loseSite_memOk {s : State} (h : s.memOk) (core) : (s.loseSite core).memOk := by
  unfold State.loseSite
  grind [post_memOk, foldl_memOk, modCore_memOk]

/-! ### Containment (R292, R293) -/
theorem loseVault_memOk {s : State} (h : s.memOk) (chip) : (s.loseVault chip).memOk := by
  unfold State.loseVault
  grind [memOk_iff, unrecoverable_memOk, modCore_memOk, foldl_memOk, zero_wf]
theorem moveChip_memOk {s : State} {restore : State → State} (h : s.memOk) (hrestore : ∀ s, s.memOk → (restore s).memOk) (chip pchip dead
  vaultReadable old) : (s.moveChip chip pchip dead vaultReadable old restore).memOk := by
  unfold State.moveChip
  grind [modTables_memOk, reroute_memOk, chipsChanged_memOk, writeCaps_memOk, loseVault_memOk, putReg_memOk]

theorem contain_memOk {s : State} (h : s.memOk) (pchip site routerFailed vaultReadable) :
    (s.contain pchip site routerFailed vaultReadable).memOk := by
  have hsmap (v : Option (BitVec 64)) : ((v.map (s.putSmap pchip)).getD s).memOk := by
    cases v <;> [exact h; exact putSmap_memOk h ..]
  have hall (c : Option Nat) (s : State) (h : s.memOk) : State.memOk (match c with
      | none => s
      | some c => (s.onSite c).foldl (fun s n => s.restoreGroup c n) (s.loseSite c)) := by
    split
    · exact h
    · exact foldl_memOk (fun _ _ h => restoreGroup_memOk h ..) (loseSite_memOk h _) _
  unfold State.contain
  dsimp only
  generalize (if site < 9 then smapAfter (s.tables.smapOf pchip) site else none) = smap
  split
  · split
    · exact writeCaps_memOk (chipsChanged_memOk (reroute_memOk (putReg_memOk (hsmap _) ..)) _)
    · exact hsmap _
  · split
    · exact moveChip_memOk h (hall _) ..
    · split
      · exact hall _ _ (putSmap_memOk h ..)
      · split
        · exact moveChip_memOk h (hall _) ..
        · exact h
theorem execContainment_nextOk {s : State} (h : s.memOk) : nextOk (execContainment s) :=
  runEvent_nextOk (by grind [contain_memOk]) h _

/-! ### Uncorrectable errors (R290, R296) -/
theorem disarm_memOk {s : State} (h : s.memOk) : s.disarm.memOk := h
theorem hitUnit_memOk {s : State} {poison : State → State} (h : s.memOk) (hpoison : ∀ s, s.memOk → (poison s).memOk) (armed) : (s.hitUnit
  armed poison).memOk := by
  unfold State.hitUnit
  grind [disarm_memOk, bump_memOk]
theorem poisonAt_memOk {s : State} (h : s.memOk) (k) : (State.poisonAt k s).memOk :=
  setPoison_wf h ..
theorem execUncorrectableError_nextOk {s : State} (h : s.memOk) : nextOk (execUncorrectableError s) :=
  runEvent_nextOk (by grind [post_memOk, modCore_memOk, poisonAt_memOk, hitUnit_memOk]) h _

/-! ### Migration (R67) -/
theorem migrate_memOk {s : State} (h : s.memOk) (core) : (s.migrate core).memOk := by
  unfold State.migrate
  grind [modCore_memOk, actRow_memOk, post_memOk]
theorem execMigration_nextOk {s : State} (h : s.memOk) : nextOk (execMigration s) :=
  runEvent_nextOk (by grind [migrate_memOk]) h _
theorem execStubRetire_nextOk {s : State} (h : s.memOk) : nextOk (execStubRetire s) :=
  runEvent_nextOk (by grind [modCore_memOk]) h _

/-! ### Clocks (R299, R300, R302) -/
theorem execClockChange_nextOk {s : State} (h : s.memOk) : nextOk (execClockChange s) :=
  runEvent_nextOk (by grind [modTables_memOk, writeCaps_memOk]) h _
theorem execSupplySagTrip_nextOk {s : State} (h : s.memOk) : nextOk (execSupplySagTrip s) :=
  runEvent_nextOk (by grind [modCore_memOk]) h _
theorem execSupplySagClear_nextOk {s : State} (h : s.memOk) : nextOk (execSupplySagClear s) :=
  runEvent_nextOk (by grind [modCore_memOk]) h _
theorem mask2_nextOk {s : State} (h : s.memOk) (d a b f) : nextOk (mask2 d a b f s) :=
  instr_nextOk (by grind [wrM_keeps, rdM_keeps, keeps_bind, keeps_get_bind]) h _
theorem countOf_keeps (b) : M.Keeps (countOf b) := by
  unfold countOf
  grind [keeps_pure, rdS_keeps, keeps_bind, keeps_get_bind]
theorem execMand_nextOk {s : State} (h : s.memOk) (d a b) : nextOk (execMand d a b s) := mask2_nextOk h ..
theorem execMor_nextOk {s : State} (h : s.memOk) (d a b) : nextOk (execMor d a b s) := mask2_nextOk h ..
theorem execMxor_nextOk {s : State} (h : s.memOk) (d a b) : nextOk (execMxor d a b s) := mask2_nextOk h ..
theorem execMnot_nextOk {s : State} (h : s.memOk) (d a b) : nextOk (execMnot d a b s) :=
  instr_nextOk (by grind [wrM_keeps, rdM_keeps, countOf_keeps, names_keeps, keeps_bind, keeps_get_bind]) h _
theorem execMpopc_nextOk {s : State} (h : s.memOk) (d a b) : nextOk (execMpopc d a b s) :=
  instr_nextOk (by grind [wrS_keeps, rdM_keeps, countOf_keeps, names_keeps, keeps_bind, keeps_get_bind]) h _
theorem execMfirst_nextOk {s : State} (h : s.memOk) (d a b) : nextOk (execMfirst d a b s) :=
  instr_nextOk (by grind [wrS_keeps, rdM_keeps, countOf_keeps, names_keeps, keeps_bind, keeps_get_bind]) h _
theorem execMset_nextOk {s : State} (h : s.memOk) (d a b) : nextOk (execMset d a b s) :=
  instr_nextOk (by grind [wrM_keeps, rdS_keeps, names_keeps, keeps_bind, keeps_get_bind]) h _
theorem execMsetN_nextOk {s : State} (h : s.memOk) (d n) : nextOk (execMsetN d n s) :=
  instr_nextOk (wrM_keeps ..) h _
theorem msetLanes_nextOk {s : State} (h : s.memOk) (w d a) : nextOk (msetLanes w d a s) :=
  instr_nextOk (by grind [wrM_keeps, rdV_keeps, keeps_bind, keeps_get_bind]) h _
theorem execMsetB8_nextOk {s : State} (h : s.memOk) (d a) : nextOk (execMsetB8 d a s) := msetLanes_nextOk h ..
theorem execMsetB16_nextOk {s : State} (h : s.memOk) (d a) : nextOk (execMsetB16 d a s) := msetLanes_nextOk h ..
theorem execMsetB32_nextOk {s : State} (h : s.memOk) (d a) : nextOk (execMsetB32 d a s) := msetLanes_nextOk h ..
theorem execMmov_nextOk {s : State} (h : s.memOk) (d a) : nextOk (execMmov d a s) :=
  instr_nextOk (by grind [wrM_keeps, rdM_keeps, keeps_bind, keeps_get_bind]) h _
theorem execMmovS_nextOk {s : State} (h : s.memOk) (hi d a) : nextOk (execMmovS hi d a s) :=
  instr_nextOk (by grind [wrS_keeps, rdM_keeps, names_keeps, keeps_bind, keeps_get_bind]) h _
theorem mmovLanes_nextOk {s : State} (h : s.memOk) (w m d a) : nextOk (mmovLanes w m d a s) :=
  instr_nextOk (by grind [wrVQ_keeps, vecOp_keeps, rdM_keeps, freshV_keeps, keeps_bind, keeps_get_bind]) h _
theorem execMmovB8_nextOk {s : State} (h : s.memOk) (m d a) : nextOk (execMmovB8 m d a s) := mmovLanes_nextOk h ..
theorem execMmovB16_nextOk {s : State} (h : s.memOk) (m d a) : nextOk (execMmovB16 m d a s) := mmovLanes_nextOk h ..
theorem execMmovB32_nextOk {s : State} (h : s.memOk) (m d a) : nextOk (execMmovB32 m d a s) := mmovLanes_nextOk h ..
theorem execMsetLo_nextOk {s : State} (h : s.memOk) (d imm) : nextOk (execMsetLo d imm s) :=
  instr_nextOk (by grind [wrM_keeps, rdM_keeps, keeps_bind, keeps_get_bind]) h _
theorem execMsetHi_nextOk {s : State} (h : s.memOk) (d imm) : nextOk (execMsetHi d imm s) :=
  instr_nextOk (by grind [wrM_keeps, rdM_keeps, keeps_bind, keeps_get_bind]) h _

end Sys2Proof.Machine

/-! ## The canonical form: the schedule, a turn and a step -/
namespace Sys2Proof.Machine

/-! ### Choosing (log 4) -/
theorem elapse_memOk {s : State} (h : s.memOk) : s.elapse.memOk := ticked_memOk h ..
theorem choose_memOk {s : State} (h : s.memOk) : s.choose.2.memOk := by
  unfold State.choose
  grind [memOk_iff, elapse_memOk]

/-! ### A turn (R35, R41) -/
theorem turnState_memOk {s : State} (h : s.memOk) (core) : (s.turnState core).memOk := by
  unfold State.turnState
  grind [memOk_iff, modCore_memOk]
theorem followTurn_memOk {s : State} (h : s.memOk) : s.followTurn.1.memOk := by
  unfold State.followTurn
  grind [modMe_memOk]
theorem fetched_memOk {s : State} (h : s.memOk) (i) : (s.fetched i).memOk := by
  unfold State.fetched
  grind [modMe_memOk]

theorem issue_memOk {s t : State} (h : s.memOk) {i : Instr} (hi : s.issue = some (i, t)) : t.memOk := by
  have hfollow := followTurn_memOk h
  unfold State.issue at hi
  split at hi
  case h_1 => cases hi
  case h_2 hf =>
    cases hi
    rw [hf] at hfollow
    exact hfollow
  case h_3 hf =>
    rw [hf] at hfollow
    split at hi
    case h_1 hrun =>
      cases hi
      have hfetch := fetchM_keeps.ok hfollow hrun
      split
      · exact hfetch
      · exact fetched_memOk hfetch _
    case h_2 =>
      cases hi
      exact hfollow
theorem tellFollowers_memOk {s : State} (h : s.memOk) (core ctx pc i) : (s.tellFollowers core ctx pc i).memOk := by
  unfold State.tellFollowers
  grind [modCtx_memOk, foldl_memOk]
theorem endTurn_memOk {s : State} (h : s.memOk) (core ctx pc tenant cycles i) : (s.endTurn core ctx pc tenant cycles i).memOk := by
  unfold State.endTurn
  grind [tellFollowers_memOk, meter_memOk, modCore_memOk]

/-! ### Placing one instruction (log 3) -/
theorem afterTurn_nextOk (core ctx pc tenant cycles i) {r : Res} (hr : nextOk r) :
    nextOk (afterTurn core ctx pc tenant cycles i r) := by
  cases r with
  | next s => exact endTurn_memOk hr ..
  | fault f => trivial
  | refused x => trivial

/-! ### An instruction or an event -/
theorem exec_nextOk {s : State} (h : s.memOk) (i : Instr) : nextOk (exec i s) :=
  match i with
  | .add .. => execAdd_nextOk h ..
  | .sub .. => execSub_nextOk h ..
  | .mul .. => execMul_nextOk h ..
  | .mulh .. => execMulh_nextOk h ..
  | .mad .. => execMad_nextOk h ..
  | .div .. => execDiv_nextOk h ..
  | .rem .. => execRem_nextOk h ..
  | .and .. => execAnd_nextOk h ..
  | .or .. => execOr_nextOk h ..
  | .xor .. => execXor_nextOk h ..
  | .shl .. => execShl_nextOk h ..
  | .shr .. => execShr_nextOk h ..
  | .sra .. => execSra_nextOk h ..
  | .rot .. => execRot_nextOk h ..
  | .min .. => execMin_nextOk h ..
  | .max .. => execMax_nextOk h ..
  | .addi .. => execAddi_nextOk h ..
  | .andi .. => execAndi_nextOk h ..
  | .ori .. => execOri_nextOk h ..
  | .xori .. => execXori_nextOk h ..
  | .shli .. => execShli_nextOk h ..
  | .shri .. => execShri_nextOk h ..
  | .srai .. => execSrai_nextOk h ..
  | .cmpi .. => execCmpi_nextOk h ..
  | .movi .. => execMovi_nextOk h ..
  | .bext .. => execBext_nextOk h ..
  | .bins .. => execBins_nextOk h ..
  | .clz .. => execClz_nextOk h ..
  | .ctz .. => execCtz_nextOk h ..
  | .popc .. => execPopc_nextOk h ..
  | .cmp .. => execCmp_nextOk h ..
  | .sel .. => execSel_nextOk h ..
  | .faddF32 .. => execFaddF32_nextOk h ..
  | .faddF64 .. => execFaddF64_nextOk h ..
  | .fsubF32 .. => execFsubF32_nextOk h ..
  | .fsubF64 .. => execFsubF64_nextOk h ..
  | .fmulF32 .. => execFmulF32_nextOk h ..
  | .fmulF64 .. => execFmulF64_nextOk h ..
  | .ffmaF32 .. => execFfmaF32_nextOk h ..
  | .ffmaF64 .. => execFfmaF64_nextOk h ..
  | .fdivF32 .. => execFdivF32_nextOk h ..
  | .fdivF64 .. => execFdivF64_nextOk h ..
  | .fsqrtF32 .. => execFsqrtF32_nextOk h ..
  | .fsqrtF64 .. => execFsqrtF64_nextOk h ..
  | .fmin .. => execFmin_nextOk h ..
  | .fmax .. => execFmax_nextOk h ..
  | .fcmp .. => execFcmp_nextOk h ..
  | .fcvt .. => execFcvt_nextOk h ..
  | .br .. => execBr_nextOk h ..
  | .bcnd .. => execBcnd_nextOk h ..
  | .bmask .. => execBmask_nextOk h ..
  | .call .. => execCall_nextOk h ..
  | .callr .. => execCallr_nextOk h ..
  | .jr .. => execJr_nextOk h ..
  | .loop .. => execLoop_nextOk h ..
  | .halt .. => execHalt_nextOk h ..
  | .brAbs .. => execBrAbs_nextOk h ..
  | .vaddI .. => execVaddI_nextOk h ..
  | .vaddF .. => execVaddF_nextOk h ..
  | .vsubI .. => execVsubI_nextOk h ..
  | .vsubF .. => execVsubF_nextOk h ..
  | .vmulI .. => execVmulI_nextOk h ..
  | .vmulF .. => execVmulF_nextOk h ..
  | .vfmaI .. => execVfmaI_nextOk h ..
  | .vfmaF .. => execVfmaF_nextOk h ..
  | .vmaxI .. => execVmaxI_nextOk h ..
  | .vmaxF .. => execVmaxF_nextOk h ..
  | .vminI .. => execVminI_nextOk h ..
  | .vminF .. => execVminF_nextOk h ..
  | .vcmpI .. => execVcmpI_nextOk h ..
  | .vcmpF .. => execVcmpF_nextOk h ..
  | .vabs .. => execVabs_nextOk h ..
  | .vneg .. => execVneg_nextOk h ..
  | .vdiv .. => execVdiv_nextOk h ..
  | .vsqrt .. => execVsqrt_nextOk h ..
  | .vrcp .. => execVrcp_nextOk h ..
  | .vrsqrt .. => execVrsqrt_nextOk h ..
  | .vexp2 .. => execVexp2_nextOk h ..
  | .vlog2 .. => execVlog2_nextOk h ..
  | .vdot .. => execVdot_nextOk h ..
  | .vand .. => execVand_nextOk h ..
  | .vor .. => execVor_nextOk h ..
  | .vxor .. => execVxor_nextOk h ..
  | .vshl .. => execVshl_nextOk h ..
  | .vshr .. => execVshr_nextOk h ..
  | .vsra .. => execVsra_nextOk h ..
  | .vsel .. => execVsel_nextOk h ..
  | .vmov .. => execVmov_nextOk h ..
  | .vbcast .. => execVbcast_nextOk h ..
  | .vperm .. => execVperm_nextOk h ..
  | .vredI .. => execVredI_nextOk h ..
  | .vredF .. => execVredF_nextOk h ..
  | .vscanI .. => execVscanI_nextOk h ..
  | .vscanF .. => execVscanF_nextOk h ..
  | .vslide .. => execVslide_nextOk h ..
  | .vzip .. => execVzip_nextOk h ..
  | .vext .. => execVext_nextOk h ..
  | .vextImm .. => execVextImm_nextOk h ..
  | .vins .. => execVins_nextOk h ..
  | .vcvtSame _ _ _ _ part _ _ _ => execVcvtSame_nextOk h _ _ _ _ part ..
  | .vcvtWide .. => execVcvtWide_nextOk h ..
  | .vcvtNarrow .. => execVcvtNarrow_nextOk h ..
  | .vqnt .. => execVqnt_nextOk h ..
  | .vdqnt .. => execVdqnt_nextOk h ..
  | .vrnd .. => execVrnd_nextOk h ..
  | .mand .. => execMand_nextOk h ..
  | .mor .. => execMor_nextOk h ..
  | .mxor .. => execMxor_nextOk h ..
  | .mnot .. => execMnot_nextOk h ..
  | .mpopc .. => execMpopc_nextOk h ..
  | .mfirst .. => execMfirst_nextOk h ..
  | .mset .. => execMset_nextOk h ..
  | .msetN .. => execMsetN_nextOk h ..
  | .msetB8 .. => execMsetB8_nextOk h ..
  | .msetB16 .. => execMsetB16_nextOk h ..
  | .msetB32 .. => execMsetB32_nextOk h ..
  | .mmov .. => execMmov_nextOk h ..
  | .mmovS .. => execMmovS_nextOk h ..
  | .mmovB8 .. => execMmovB8_nextOk h ..
  | .mmovB16 .. => execMmovB16_nextOk h ..
  | .mmovB32 .. => execMmovB32_nextOk h ..
  | .ld .. => execLd_nextOk h ..
  | .ldOrdered .. => execLdOrdered_nextOk h ..
  | .st .. => execSt_nextOk h ..
  | .stOrdered .. => execStOrdered_nextOk h ..
  | .vld .. => execVld_nextOk h ..
  | .vldOrdered .. => execVldOrdered_nextOk h ..
  | .vst .. => execVst_nextOk h ..
  | .vstOrdered .. => execVstOrdered_nextOk h ..
  | .vldx .. => execVldx_nextOk h ..
  | .vldxOrdered .. => execVldxOrdered_nextOk h ..
  | .vstx .. => execVstx_nextOk h ..
  | .vstxOrdered .. => execVstxOrdered_nextOk h ..
  | .vlds .. => execVlds_nextOk h ..
  | .vldsOrdered .. => execVldsOrdered_nextOk h ..
  | .vsts .. => execVsts_nextOk h ..
  | .vstsOrdered .. => execVstsOrdered_nextOk h ..
  | .ldfS .. => execLdfS_nextOk h ..
  | .ldfV .. => execLdfV_nextOk h ..
  | .stfS .. => execStfS_nextOk h ..
  | .stfV .. => execStfV_nextOk h ..
  | .fset .. => execFset_nextOk h ..
  | .fclr .. => execFclr_nextOk h ..
  | .amo32 .. => execAmo32_nextOk h ..
  | .amo64 .. => execAmo64_nextOk h ..
  | .vamo32 .. => execVamo32_nextOk h ..
  | .vamo16 .. => execVamo16_nextOk h ..
  | .stn .. => execStn_nextOk h ..
  | .fence .. => execFence_nextOk h ..
  | .pref .. => execPref_nextOk h ..
  | .prefRange .. => execPrefRange_nextOk h ..
  | .cwbr .. => execCwbr_nextOk h ..
  | .cinvr .. => execCinvr_nextOk h ..
  | .pbind .. => execPbind_nextOk h ..
  | .pfree .. => execPfree_nextOk h ..
  | .pstat .. => execPstat_nextOk h ..
  | .pclose .. => execPclose_nextOk h ..
  | .pmark .. => execPmark_nextOk h ..
  | .start .. => execStart_nextOk h ..
  | .spawn .. => execSpawn_nextOk h ..
  | .join .. => execJoin_nextOk h ..
  | .bar .. => execBar_nextOk h ..
  | .follow .. => execFollow_nextOk h ..
  | .task .. => execTask_nextOk h ..
  | .ckpt .. => execCkpt_nextOk h ..
  | .wake .. => execWake_nextOk h ..
  | .hold .. => execHold_nextOk h ..
  | .holdSet .. => execHoldSet_nextOk h ..
  | .hclr .. => execHclr_nextOk h ..
  | .depvK .. => execDepvK_nextOk h ..
  | .depv .. => execDepv_nextOk h ..
  | .depsK .. => execDepsK_nextOk h ..
  | .deps .. => execDeps_nextOk h ..
  | .post .. => execPost_nextOk h ..
  | .unpost .. => execUnpost_nextOk h ..
  | .ctradd .. => execCtradd_nextOk h ..
  | .ctraddImm .. => execCtraddImm_nextOk h ..
  | .ctrset .. => execCtrset_nextOk h ..
  | .ctrsetImm .. => execCtrsetImm_nextOk h ..
  | .ctrget .. => execCtrget_nextOk h ..
  | .ctrwait .. => execCtrwait_nextOk h ..
  | .ctrwaitImm .. => execCtrwaitImm_nextOk h ..
  | .cpy .. => execCpy_nextOk h ..
  | .cpy2d .. => execCpy2d_nextOk h ..
  | .cpy3d .. => execCpy3d_nextOk h ..
  | .cpyMc .. => execCpyMc_nextOk h ..
  | .cpyQ .. => execCpyQ_nextOk h ..
  | .cpyQ2d .. => execCpyQ2d_nextOk h ..
  | .cpyPl .. => execCpyPl_nextOk h ..
  | .cpyFill .. => execCpyFill_nextOk h ..
  | .cpyxG .. => execCpyxG_nextOk h ..
  | .cpyxS .. => execCpyxS_nextOk h ..
  | .chainHead .. => execChainHead_nextOk h ..
  | .chainApp .. => execChainApp_nextOk h ..
  | .qfence .. => execQfence_nextOk h ..
  | .qwait .. => execQwait_nextOk h ..
  | .qwaitImm .. => execQwaitImm_nextOk h ..
  | .qstat .. => execQstat_nextOk h ..
  | .mma16Slot0 .. => execMma16Slot0_nextOk h ..
  | .mma16Slot1 .. => execMma16Slot1_nextOk h ..
  | .mma8fSlot0 .. => execMma8fSlot0_nextOk h ..
  | .mma8fSlot1 .. => execMma8fSlot1_nextOk h ..
  | .mma8iSlot0 .. => execMma8iSlot0_nextOk h ..
  | .mma8iSlot1 .. => execMma8iSlot1_nextOk h ..
  | .mma4Slot0 .. => execMma4Slot0_nextOk h ..
  | .mma4Slot1 .. => execMma4Slot1_nextOk h ..
  | .mupl1 .. => execMupl1_nextOk h ..
  | .mupl2 .. => execMupl2_nextOk h ..
  | .mupl3 .. => execMupl3_nextOk h ..
  | .mchkRow .. => execMchkRow_nextOk h ..
  | .mchkCol .. => execMchkCol_nextOk h ..
  | .mzero .. => execMzero_nextOk h ..
  | .mfsr .. => execMfsr_nextOk h ..
  | .mfsrReg .. => execMfsrReg_nextOk h ..
  | .mtsr .. => execMtsr_nextOk h ..
  | .mtsrReg .. => execMtsrReg_nextOk h ..
  | .trap .. => execTrap_nextOk h ..
  | .trapReg .. => execTrapReg_nextOk h ..
  | .tlbw .. => execTlbw_nextOk h ..
  | .tlbwRm .. => execTlbwRm_nextOk h ..
  | .tlbiVa .. => execTlbiVa_nextOk h ..
  | .tlbiTn .. => execTlbiTn_nextOk h ..
  | .ecall .. => execEcall_nextOk h ..
  | .ecallReg .. => execEcallReg_nextOk h ..
  | .injArm .. => execInjArm_nextOk h ..
  | .injOff .. => execInjOff_nextOk h ..
  | .movw .. => execMovw_nextOk h ..
  | .addiFx .. => execAddiFx_nextOk h ..
  | .andiFx .. => execAndiFx_nextOk h ..
  | .oriFx .. => execOriFx_nextOk h ..
  | .xoriFx .. => execXoriFx_nextOk h ..
  | .callAbs .. => execCallAbs_nextOk h ..
  | .vbcastImm .. => execVbcastImm_nextOk h ..
  | .msetLo .. => execMsetLo_nextOk h ..
  | .msetHi .. => execMsetHi_nextOk h ..
  | .ldAbs .. => execLdAbs_nextOk h ..
  | .stAbs .. => execStAbs_nextOk h ..
  | .vldAbs .. => execVldAbs_nextOk h ..
  | .vstAbs .. => execVstAbs_nextOk h ..
  | .startFe .. => execStartFe_nextOk h ..
  | .spawnFe .. => execSpawnFe_nextOk h ..
  | .cmpiFe .. => execCmpiFe_nextOk h ..
  | .ret => execRet_nextOk h
  | .nop => execNop_nextOk h
  | .yield => execYield_nextOk h
  | .wspill => execWspill_nextOk h
  | .wfill => execWfill_nextOk h
  | .nopW => execNopW_nextOk h
  | .nopX => execNopX_nextOk h
  | .leave => execLeave_nextOk h
  | .tdone => execTdone_nextOk h
  | .park => execPark_nextOk h
  | .mzeroSlot0 => execMzeroSlot0_nextOk h
  | .mzeroSlot1 => execMzeroSlot1_nextOk h
  | .rett => execRett_nextOk h
  | .tlbiAll => execTlbiAll_nextOk h
  | .domainSwitch => execDomainSwitch_nextOk h
  | .replayMarkRemoval => execReplayMarkRemoval_nextOk h
  | .collectiveBuild => execCollectiveBuild_nextOk h
  | .collectiveRelease => execCollectiveRelease_nextOk h
  | .meterRecordService => execMeterRecordService_nextOk h
  | .pageResolve => execPageResolve_nextOk h
  | .pageFail => execPageFail_nextOk h
  | .handlerTableInstall => execHandlerTableInstall_nextOk h
  | .hostOpenSession => execHostOpenSession_nextOk h
  | .hostCloseSession => execHostCloseSession_nextOk h
  | .hostIdentity => execHostIdentity_nextOk h
  | .hostWrite => execHostWrite_nextOk h
  | .hostRead => execHostRead_nextOk h
  | .hostNotify => execHostNotify_nextOk h
  | .hostRegisterTenant => execHostRegisterTenant_nextOk h
  | .hostDeregisterTenant => execHostDeregisterTenant_nextOk h
  | .hostResetTenant => execHostResetTenant_nextOk h
  | .hostLoadContainer => execHostLoadContainer_nextOk h
  | .hostSubmitLaunch => execHostSubmitLaunch_nextOk h
  | .hostLaunchStatus => execHostLaunchStatus_nextOk h
  | .hostMeterRecord => execHostMeterRecord_nextOk h
  | .hostRecablePod => execHostRecablePod_nextOk h
  | .containerForward => execContainerForward_nextOk h
  | .slotBind => execSlotBind_nextOk h
  | .slotSave => execSlotSave_nextOk h
  | .saveWritePhase => execSaveWritePhase_nextOk h
  | .slotResume => execSlotResume_nextOk h
  | .slotEvictPartition => execSlotEvictPartition_nextOk h
  | .slotResetStop => execSlotResetStop_nextOk h
  | .slotRetire => execSlotRetire_nextOk h
  | .smapWrite => execSmapWrite_nextOk h
  | .arrWrite => execArrWrite_nextOk h
  | .vownWrite => execVownWrite_nextOk h
  | .injctlWrite => execInjctlWrite_nextOk h
  | .injseedWrite => execInjseedWrite_nextOk h
  | .mgmtRegisterWrite => execMgmtRegisterWrite_nextOk h
  | .boot => execBoot_nextOk h
  | .recoveryImage => execRecoveryImage_nextOk h
  | .remapChange => execRemapChange_nextOk h
  | .containment => execContainment_nextOk h
  | .migration => execMigration_nextOk h
  | .stubRetire => execStubRetire_nextOk h
  | .collectiveShrink => execCollectiveShrink_nextOk h
  | .quantumBoundary => execQuantumBoundary_nextOk h
  | .schedulingWindowEnd => execSchedulingWindowEnd_nextOk h
  | .clockChange => execClockChange_nextOk h
  | .supplySagTrip => execSupplySagTrip_nextOk h
  | .trapReport => execTrapReport_nextOk h
  | .contextReady => execContextReady_nextOk h
  | .barrierComplete => execBarrierComplete_nextOk h
  | .groupRetire => execGroupRetire_nextOk h
  | .taskDispatch => execTaskDispatch_nextOk h
  | .taskStart => execTaskStart_nextOk h
  | .taskUnpin => execTaskUnpin_nextOk h
  | .slotLend => execSlotLend_nextOk h
  | .pageFaultWake => execPageFaultWake_nextOk h
  | .pageWalk => execPageWalk_nextOk h
  | .walkResult => execWalkResult_nextOk h
  | .porterCommandStart => execPorterCommandStart_nextOk h
  | .porterCommandComplete => execPorterCommandComplete_nextOk h
  | .chainRecordRead => execChainRecordRead_nextOk h
  | .mmaClaimLine => execMmaClaimLine_nextOk h
  | .mmaStart => execMmaStart_nextOk h
  | .mmaRetire => execMmaRetire_nextOk h
  | .counterIncrement => execCounterIncrement_nextOk h
  | .crierFire => execCrierFire_nextOk h
  | .firedPorterCommand => execFiredPorterCommand_nextOk h
  | .firedRemoteAtomic => execFiredRemoteAtomic_nextOk h
  | .firedCounterAdd => execFiredCounterAdd_nextOk h
  | .firedDeposit => execFiredDeposit_nextOk h
  | .firedStart => execFiredStart_nextOk h
  | .firedSpawn => execFiredSpawn_nextOk h
  | .firedChannelSend => execFiredChannelSend_nextOk h
  | .depositArrival => execDepositArrival_nextOk h
  | .depositNack => execDepositNack_nextOk h
  | .wakeArrival => execWakeArrival_nextOk h
  | .spawnRequest => execSpawnRequest_nextOk h
  | .spawnReply => execSpawnReply_nextOk h
  | .channelElementArrival => execChannelElementArrival_nextOk h
  | .drainMarkerAck => execDrainMarkerAck_nextOk h
  | .memoryRequest => execMemoryRequest_nextOk h
  | .remoteSyncAccess => execRemoteSyncAccess_nextOk h
  | .syncCancel => execSyncCancel_nextOk h
  | .replyData => execReplyData_nextOk h
  | .accessNack => execAccessNack_nextOk h
  | .retryBackoffExpiry => execRetryBackoffExpiry_nextOk h
  | .absentAnswer => execAbsentAnswer_nextOk h
  | .replayCompletion => execReplayCompletion_nextOk h
  | .unreachableReturn => execUnreachableReturn_nextOk h
  | .dropNotice => execDropNotice_nextOk h
  | .reservationTimeout => execReservationTimeout_nextOk h
  | .hopLimitDrop => execHopLimitDrop_nextOk h
  | .hbmCompletion => execHbmCompletion_nextOk h
  | .readShared => execReadShared_nextOk h
  | .readExclusive => execReadExclusive_nextOk h
  | .ownerWriteBack => execOwnerWriteBack_nextOk h
  | .homePanelRequest => execHomePanelRequest_nextOk h
  | .coherenceForward => execCoherenceForward_nextOk h
  | .invalidation => execInvalidation_nextOk h
  | .grantAck => execGrantAck_nextOk h
  | .meshReplayRequest => execMeshReplayRequest_nextOk h
  | .linkDataFlit => execLinkDataFlit_nextOk h
  | .linkIdleFlit => execLinkIdleFlit_nextOk h
  | .linkReplayRequest => execLinkReplayRequest_nextOk h
  | .linkRekeyMark => execLinkRekeyMark_nextOk h
  | .rekey => execRekey_nextOk h
  | .authFailureLimit => execAuthFailureLimit_nextOk h
  | .allowanceReturn => execAllowanceReturn_nextOk h
  | .l1EpochWrap => execL1EpochWrap_nextOk h
  | .followLagLimit => execFollowLagLimit_nextOk h
  | .uncorrectableError => execUncorrectableError_nextOk h
  | .linkFailure => execLinkFailure_nextOk h
  | .supplySagClear => execSupplySagClear_nextOk h
  | .illegalInstructionFetch => execIllegalInstructionFetch_nextOk h
  | .resultAvailable => execResultAvailable_nextOk h
  | .hostBadRequest => execHostBadRequest_nextOk h

/-! ### Placing one instruction (log 3) -/
theorem runTurn_nextOk {s : State} (h : s.memOk) (core) : nextOk (runTurn core s) := by
  have hturn := turnState_memOk h core
  unfold runTurn
  dsimp only
  split
  case h_1 => exact endTurn_memOk hturn ..
  case h_2 i t hissue =>
    have ht := issue_memOk hturn hissue
    split
    case h_1 r _ => exact endTurn_memOk (takeReport_memOk ht ..) ..
    case h_2 => exact afterTurn_nextOk _ _ _ _ _ _ (exec_nextOk ht i)
theorem step_nextOk {s : State} (h : s.memOk) : nextOk (step s) := by
  have hchoose := choose_memOk h
  unfold step
  split
  case h_1 s' hs => rwa [hs] at hchoose
  case h_2 e s' hs =>
    rw [hs] at hchoose
    have hevent : { s' with event := some e }.memOk := (memOk_iff _).2 ((memOk_iff s').1 hchoose)
    exact exec_nextOk hevent _
  case h_3 core s' hs =>
    rw [hs] at hchoose
    exact runTurn_nextOk hchoose core

/-- Settles O28: each operation of the model that answers a state keeps the canonical form of
the storage, hence each instruction, each event and each turn. -/
theorem stepKeepsMemory : Obligations.StepKeepsMemory := by
  unfold Obligations.StepKeepsMemory
  intro s t h hstep
  have hnext := step_nextOk h
  rwa [hstep] at hnext

end Sys2Proof.Machine
